-- ==== Sys2Proof/Word.lean ====
section
/-! DEFINITION. The words and the numbered things of the FQ-64 (spec/00_scope.md, "Numbers at a glance"). -/

namespace Sys2Proof

/-- A byte of the window or of a link frame. -/
abbrev Byte := BitVec 8
/-- A 16-bit word: a register, a revision, an order number, an extension number. -/
abbrev Word := BitVec 16
/-- Engine seconds: a 32-bit count (00_scope.md, "Time"). -/
abbrev Seconds := BitVec 32
/-- A call slot, 0 to 63. -/
abbrev Slot := Fin 64
/-- A circuit of the switching network, 0 to 255. -/
abbrev Circuit := Fin 256
/-- An attendant position, 0 to 7. -/
abbrev Pos := Fin 8
/-- A partition, 0 to 3. -/
abbrev Part := Fin 4
/-- A loop of a position, 0 to 3. -/
abbrev LoopIx := Fin 4
/-- A shelf link, 0 to 3. -/
abbrev LinkIx := Fin 4
/-- A shelf address on a link, 0 to 3. -/
abbrev Addr := Fin 4
/-- A cell of the order board, 0 to 31. -/
abbrev CellIx := Fin 32

end Sys2Proof
end

