-- ==== Sys2Proof/Syntax.lean ====
section
/-! DEFINITION. The commands of the FQ-64: one constructor for each row of spec/opcode_table.json. -/

namespace Sys2Proof

/-- The operations and events of the part, each whole and indivisible (95_what_each_step_holds.md). The operands are
what the world supplies; what the engine itself holds (the cell to take, a timer's deadline) is read from State. -/
inductive Instr where
  /-- POWER_ON_RESET: the reset pin is released with the bypass input at this level (R166, R168). -/
  | powerOnReset (bypassActive : Bool)
  /-- SOFT_RESET: a write of Control with Soft Reset set (R169). -/
  | softReset
  /-- ATTENTION: a write of Control with Attention set and Soft Reset clear; bit 2 of the same write (R157, R173). -/
  | attention (noticeEnable : Bool)
  /-- NOTICE_ENABLE: a write of Control with Attention and Soft Reset clear (R173). -/
  | noticeEnable (on : Bool)
  /-- SUMMARY_CLEAR: a word write of Summary (R174). -/
  | summaryClear (value : Word)
  /-- MASK_WRITE: a word write of Mask (R173). -/
  | maskWrite (value : Word)
  /-- HOST_WRITE: a host write of one byte or one word at a window offset (R171). -/
  | hostWrite (offset : Nat) (word : Bool) (value : Word)
  /-- RECORD_READ: a host read of one byte or one word at a window offset (R171, R172). -/
  | recordRead (offset : Nat) (word : Bool)
  /-- RELEASE_HOLD_END (R175). -/
  | releaseHoldEnd
  /-- BYPASS_ENTRY: the bypass input becomes active, or is found active when a reset has ended (R166, R167). -/
  | bypassEntry
  /-- BYPASS_EXIT: the bypass input becomes inactive (R166). -/
  | bypassExit
  /-- SWEEP_TIMER_EXPIRY (R157). -/
  | sweepTimerExpiry
  /-- SWEEP_STEP (R158). -/
  | sweepStep
  /-- UNKNOWN_KIND_ORDER: the sweep step that takes a cell of unknown kind (R160). -/
  | unknownKindOrder
  /-- OPEN: the sweep step that takes an OPEN (R64). -/
  | openOrder
  /-- CLOSE: the sweep step that takes a CLOSE (R65). -/
  | closeOrder
  /-- PAUSE: the sweep step that takes a PAUSE (R67). -/
  | pauseOrder
  /-- ANSWER: the sweep step that takes an ANSWER (R71). -/
  | answerOrder
  /-- PICK: the sweep step that takes a PICK (R72). -/
  | pickOrder
  /-- HOLD: the sweep step that takes a HOLD (R73). -/
  | holdOrder
  /-- RETRIEVE: the sweep step that takes a RETRIEVE (R74). -/
  | retrieveOrder
  /-- DISCONNECT: the sweep step that takes a DISCONNECT (R77). -/
  | disconnectOrder
  /-- EXTEND: the sweep step that takes an EXTEND (R86). -/
  | extendOrder
  /-- TRANSFER: the sweep step that takes a TRANSFER (R92). -/
  | transferOrder
  /-- CANCEL: the sweep step that takes a CANCEL (R93). -/
  | cancelOrder
  /-- SET_NIGHT: the sweep step that takes a SET_NIGHT (R118). -/
  | setNightOrder
  /-- APPLY_PLAN: the sweep step that takes an APPLY_PLAN (R110). -/
  | applyPlanOrder
  /-- APPLY_COMPLETION: the Plan Unit has finished reading the plan area (R111). -/
  | applyCompletion
  /-- SEND_FRAME: the arbiter of a link chooses and sends a frame (R131). -/
  | sendFrame (link : LinkIx)
  /-- POLL_DEADLINE: the poll deadline of a shelf passes (R132). -/
  | pollDeadline (link : LinkIx) (addr : Addr)
  /-- SHELF_ANSWER: the bytes of a shelf's answer have arrived (R133). `orders` is the order in which the world lets
  the blocks take the call events of each report (R145), one schedule for each event of the answer. -/
  | shelfAnswer (link : LinkIx) (bytes : List Byte) (orders : List (List Nat))
  /-- RESPONSE_WINDOW_CLOSE (R133). `order` is the order in which the blocks take the failures and FAULT events of a
  shelf loss (R136). -/
  | responseWindowClose (link : LinkIx) (order : List Nat)
  /-- OFFER_EXPIRY: the OFFER timer of a call expires (R40). -/
  | offerExpiry (slot : Slot)
  /-- WAIT_EXPIRY: the WAIT timer of a call expires (R33). -/
  | waitExpiry (slot : Slot)
  /-- WAIT_DEADLINE_HELD: the wait deadline of an OFFERED call passes (R34). -/
  | waitDeadlineHeld (slot : Slot)
  /-- ANNOUNCE_EXPIRY: the ANNOUNCE timer of a call expires (R32). -/
  | announceExpiry (slot : Slot)
  /-- HOLD1_EXPIRY (R75). -/
  | hold1Expiry (slot : Slot)
  /-- HOLD2_EXPIRY (R76). -/
  | hold2Expiry (slot : Slot)
  /-- CAMP_EXPIRY (R101). -/
  | campExpiry (slot : Slot)
  /-- COUNTER_ADVANCE: the next advance of a partition's estimator counter falls due (R50). -/
  | counterAdvance (part : Part)
  /-- PERIOD_TIMER_EXPIRY (R151). -/
  | periodTimerExpiry
  /-- CADENCE_EDGE: a rising edge on the cadence input (R152). -/
  | cadenceEdge
  /-- LOSS_TIMER_EXPIRY (R152). -/
  | lossTimerExpiry
  /-- ENGINE_SECONDS_TICK: a whole second has passed (R168). -/
  | engineSecondsTick
  deriving DecidableEq, Repr

end Sys2Proof
end

