-- ==== Sys2Proof/Config.lean ====
section
/-! DEFINITION. The fixed figures of the part and the values the spec leaves open. -/

namespace Sys2Proof

/-- FREE VALUE (notes/assumptions/3.md): what the host reads at a byte outside the 16 KiB window (the second byte of
a word read at 0x3FFF). First argument: which such read it is. -/
opaque Config.outsideWindow : Nat → Nat → BitVec 8

/-- FREE VALUE (notes/assumptions/4.md): the bytes at 0x2A of a written call record while mark bit 5 is clear
(R176 gives them a meaning only while it is set). Arguments: the slot and the record's revision. -/
opaque Config.callExtendUnused : Nat → BitVec 16 → BitVec 16

/-- FREE VALUE (notes/assumptions/4.md): the bytes at 0x0E of a written position panel while mark bit 2 is clear
(R180). Arguments: the position and the panel's revision. -/
opaque Config.panelExtendUnused : Nat → BitVec 16 → BitVec 16

/-- The sweep interval, 100 ms (R156). -/
def Config.sweepMs : Nat := 100
/-- The search poll interval, 1 s (R132). -/
def Config.searchMs : Nat := 1000
/-- The release hold, 200 microseconds (R175). -/
def Config.holdMicros : Nat := 200
/-- The entries a link's order queue holds (R130). -/
def Config.queueMax : Nat := 32
/-- The members a roster holds (R25). -/
def Config.rosterMax : Nat := 63
/-- The calls a camp list holds (R84). -/
def Config.campMax : Nat := 3
/-- The bytes a shelf's body may have (R124). -/
def Config.bodyMax : Nat := 32
/-- The Ident register: family code 0x4A, part revision 1 (R173). -/
def Config.ident : BitVec 16 := 0x4A01#16

end Sys2Proof
end

