-- ==== Sys2Proof/Machine/Table.lean ====
section
/-! DEFINITION. A table of exactly `n` like records, held as a list and read and written by an index below `n`. -/

namespace Sys2Proof.Machine

/-- `n` records in index order. -/
structure Table (α : Type) (n : Nat) where
  /-- the records, index 0 first -/
  list : List α
  /-- there are exactly `n` -/
  len : list.length = n
  deriving DecidableEq, Repr

/-- Every record the same. -/
def Table.fill {α : Type} {n : Nat} (a : α) : Table α n := ⟨List.replicate n a, by simp⟩

/-- The record at an index. -/
def Table.get {α : Type} {n : Nat} (t : Table α n) (i : Fin n) : α := t.list[i.val]'(by rw [t.len]; exact i.isLt)

/-- Replace the record at an index. -/
def Table.set {α : Type} {n : Nat} (t : Table α n) (i : Fin n) (a : α) : Table α n :=
  ⟨t.list.set i.val a, by simp [t.len]⟩

/-- Change every record alike. -/
def Table.map {α β : Type} {n : Nat} (f : α → β) (t : Table α n) : Table β n := ⟨t.list.map f, by simp [t.len]⟩

/-- Combine two tables record by record. -/
def Table.zip {α β γ : Type} {n : Nat} (f : α → β → γ) (t : Table α n) (u : Table β n) : Table γ n :=
  ⟨List.zipWith f t.list u.list, by simp [t.len, u.len]⟩

/-- The table whose record at `i` is `f i`. -/
def Table.make {α : Type} {n : Nat} (f : Fin n → α) : Table α n := ⟨(List.finRange n).map f, by simp⟩

end Sys2Proof.Machine
end

