-- ==== Sys2Proof/Machine/State.lean ====
section
/-! DEFINITION. The state of the FQ-64 as the spec gives it, plain data, and its value after a power-on reset. -/

namespace Sys2Proof.Machine

/-! ### Names of states, kinds and causes -/

/-- R166, R171. -/
inductive EngineState where | closed | serving | bypassed deriving DecidableEq, Repr
/-- The eleven call states (01, section 1.3). -/
inductive CallState where
  | free | queued | offered | talking | held | consultRinging | consultTalking | ringingOut | camped | announced | closing
  deriving DecidableEq, Repr
/-- The nine end reasons (01, section 1.7). -/
inductive EndReason where
  | callerCleared | attendantDisconnect | delivered | congestion | unanswered | shelfLost | pathFault | bypass | reset
  deriving DecidableEq, Repr
/-- The class of a roster member (R1). -/
inductive CallClass where | new | recall deriving DecidableEq, Repr
/-- How the call reached the attendants (R2). -/
inductive ArrivalCause where | trunk | dialAttendant | unansweredDial deriving DecidableEq, Repr
/-- The kinds of a slot's running timer (R4); NONE is the absence of a timer. -/
inductive TimerKind where | offer | hold1 | hold2 | camp | wait | announce deriving DecidableEq, Repr
/-- The mode of a partition (R117). -/
inductive Mode where | day | night deriving DecidableEq, Repr
/-- The kind the directory gives a circuit (R141). -/
inductive LineKind where | unused | trunk | extension | position | announcer deriving DecidableEq, Repr
/-- The line state of a circuit (R141). -/
inductive LineState where | unknown | idle | busy | ringing | outOfService deriving DecidableEq, Repr
/-- The role of a position (R79). -/
inductive Role where | none | chief | deputy deriving DecidableEq, Repr
/-- Why a position is paused (R62). -/
inductive PauseCause where | order | missed deriving DecidableEq, Repr
/-- The basis of an estimate (R54). -/
inductive Basis where | newer | older | mean deriving DecidableEq, Repr
/-- Where cadence marks come from (R150). -/
inductive CadenceSource where | internal | external deriving DecidableEq, Repr
/-- The state of a link (R122). -/
inductive LinkState where | held | running deriving DecidableEq, Repr
/-- The state of a shelf (R123). -/
inductive ShelfState where | absent | searching | present | lost deriving DecidableEq, Repr
/-- The tones of a TONE order (R124). -/
inductive ToneKind where | quiet | ringback | hold | congestion deriving DecidableEq, Repr
/-- The result codes of R165. -/
inductive ResultCode where
  | ok | camped | badKind | badLength | badPosition | notOpen | alreadyOpen | noOffer | noCall | noLoop | speaking
  | wrongState | inProgress | noSuchNumber | sameCircuit | busy | outOfService | campFull | callerGone | cancelled
  | loopsInUse | noAuthority | planInvalid | notServing | staleNumber
  deriving DecidableEq, Repr
/-- Where a partition's overflow goes (02, section 2.3). -/
inductive Overflow where | partition (q : Part) | fallback deriving DecidableEq, Repr

/-! ### The plan (R107, R108, R179) -/

/-- One partition plan as an apply has read it. -/
structure PartPlan where
  enabled : Bool
  members : BitVec 8
  capacity : Nat
  alertLevel : Nat
  overflowLimit : Nat
  overflow : Overflow
  announcer : Option Circuit
  night : Word
  autoNight : Bool
  offerTimeout : Nat
  holdRecall : Nat
  campRecall : Nat
  waitLimit : Nat
  ringLimit : Nat
  announceTime : Nat
  seedRange : Nat
  seedSpacing : Nat
  weight : Nat
  basis : Basis
  deriving DecidableEq, Repr

/-- One shelf plan. -/
structure ShelfPlan where
  fitted : Bool
  interval : Nat
  deriving DecidableEq, Repr

/-- One directory entry as an apply has read it (R108): `number` is the extension number that counts. -/
structure DirEntry where
  kind : LineKind
  partition : Option Part
  number : Option Word
  campAllowed : Bool
  deriving DecidableEq, Repr

/-- A plan as an apply has read it. -/
structure Plan where
  chief : Option Pos
  deputy : Option Pos
  source : CadenceSource
  period : Nat
  window : Nat
  missLimit : Nat
  parts : Table PartPlan 4
  headsets : Table (Option Circuit) 8
  shelves : Table ShelfPlan 16
  directory : Table DirEntry 256
  deriving DecidableEq, Repr

/-- An apply under way: its taken cell and the staged copy (R110). -/
structure Apply where
  cell : CellIx
  staged : Plan
  deriving DecidableEq, Repr

/-! ### The call store -/

/-- The extension a call is extended, transferred, camped or night-routed to (R3). -/
structure Target where
  number : Word
  circuit : Circuit
  deriving DecidableEq, Repr

/-- A call record (R1 to R6, R176). `written` is the model's own: whether the record has been written since the last
reset; until then its bytes are zero but for the state and the end reason (R23, R176). -/
structure Call where
  state : CallState
  endReason : Option EndReason
  rev : Word
  written : Bool
  partition : Part
  cls : CallClass
  overflowed : Bool
  cause : ArrivalCause
  caller : Circuit
  callerDigits : List (Fin 10)
  called : Option Word
  position : Option Pos
  loop : Option LoopIx
  origin : Option Pos
  target : Option Target
  place : Option Nat
  estimate : Option Nat
  timer : Option (TimerKind × Seconds)
  waitDeadline : Option Seconds
  expiryHeld : Bool
  entered : Seconds
  ringCount : Nat
  confirmed : Bool
  ringPending : Bool
  ringLimit : Bool
  pending : Nat
  extend : Option Word
  announcer : Option Circuit
  deriving DecidableEq, Repr

/-- A call record after a power-on reset (R23). -/
def Call.blank : Call :=
  { state := .free, endReason := none, rev := 0, written := false, partition := 0, cls := .new, overflowed := false,
    cause := .trunk, caller := 0, callerDigits := [], called := none, position := none, loop := none, origin := none,
    target := none, place := none, estimate := none, timer := none, waitDeadline := none, expiryHeld := false,
    entered := 0, ringCount := 0, confirmed := false, ringPending := false, ringLimit := false, pending := 0,
    extend := none, announcer := none }

/-! ### Partitions and estimators -/

/-- A Pace Estimator (R48). `period`: the period in force, in units of 10 ms, while the counter runs; none while it is
stopped, so the spec's "running" is `period.isSome`. -/
structure Estimator where
  range : Nat
  counter : Nat
  new : Nat
  old : Nat
  stall : Bool
  clamped : Bool
  period : Option Nat
  deriving DecidableEq, Repr

/-- R61. -/
def Estimator.blank : Estimator :=
  { range := 0, counter := 0, new := 0, old := 0, stall := false, clamped := false, period := none }

/-- What the Queue Manager and the estimator keep for a partition; its settings are those of the active plan. -/
structure Partition where
  mode : Mode
  alert : Bool
  roster : List Slot
  est : Estimator
  rev : Word
  deriving DecidableEq, Repr

/-- R47. -/
def Partition.blank : Partition := { mode := .day, alert := false, roster := [], est := .blank, rev := 0 }

/-! ### Positions -/

/-- A position panel (R62). A paused position is one with a pause cause. `extendCell` is the model's own: the taken
cell of the EXTEND in flight. -/
structure Position where
  isOpen : Bool
  pause : Option PauseCause
  partition : Option Part
  headset : Option Circuit
  role : Role
  offered : Option Slot
  speaking : Option LoopIx
  loops : Table (Option Slot) 4
  flash : Table Bool 4
  idleSince : Seconds
  missed : Nat
  extend : Option Word
  extendCell : Option CellIx
  rev : Word
  written : Bool
  deriving DecidableEq, Repr

/-- R83. -/
def Position.blank : Position :=
  { isOpen := false, pause := none, partition := none, headset := none, role := .none, offered := none, speaking := none,
    loops := .fill none, flash := .fill false, idleSince := 0, missed := 0, extend := none, extendCell := none, rev := 0,
    written := false }

/-! ### Circuits -/

/-- A lamp entry (R141). The camp list stands here; the entry publishes its length (R84). The partition and the number
are held as the entry publishes them (255 and 0xFFFF for none), because they read 0 after a reset (R142). -/
structure Lamp where
  kind : LineKind
  line : LineState
  rev : Word
  partition : Byte
  number : Word
  camp : List Slot
  tied : Option Slot
  deriving DecidableEq, Repr

/-- R142. -/
def Lamp.blank : Lamp :=
  { kind := .unused, line := .unknown, rev := 0, partition := 0, number := 0, camp := [], tied := none }

/-! ### Links -/

/-- A shelf order (R124, R129); the first circuit named is the order's first circuit. -/
inductive ShelfOrder where
  | join (a b : Circuit) | part (a b : Circuit) | ring (c : Circuit) | unring (c : Circuit)
  | tone (c : Circuit) (t : ToneKind) | drop (c : Circuit)
  deriving DecidableEq, Repr

/-- An entry of a link's order queue (R130). `handover` marks the hand-over join of its call (R17). -/
structure Entry where
  order : ShelfOrder
  slot : Option Slot
  handover : Bool
  deriving DecidableEq, Repr

/-- The published part of a shelf record (R123). -/
structure Shelf where
  state : ShelfState
  misses : Nat
  interval : Nat
  deriving DecidableEq, Repr

/-- A shelf's poll deadline (R132): none, running with the period in ms it was set with, or passed. -/
inductive PollTimer where | none | running (ms : Nat) | due deriving DecidableEq, Repr

/-- The frame in flight on a link (R124, R133): `entry` is none for a POLL; `window` is the response window it opened
with, in ms; `dead` says its shelf has become ABSENT since it was sent (R138). -/
structure Frame where
  addr : Addr
  entry : Option Entry
  again : Bool
  bytes : List Byte
  window : Nat
  dead : Bool
  deriving DecidableEq, Repr

/-- A frame waiting to be repeated (R135). -/
structure Again where
  addr : Addr
  entry : Option Entry
  deriving DecidableEq, Repr

/-- A link: its published status record, then what is not published (R122, R123, R130). -/
structure Link where
  state : LinkState
  window : Nat
  missLimit : Nat
  shelves : Table Shelf 4
  rev : Word
  queue : List Entry
  frame : Option Frame
  again : Option Again
  polls : Table PollTimer 4
  more : Table Bool 4
  deriving DecidableEq, Repr

/-- R123, R140. -/
def Link.blank : Link :=
  { state := .held, window := 0, missLimit := 0, shelves := .fill { state := .absent, misses := 0, interval := 0 },
    rev := 0, queue := [], frame := none, again := none, polls := .fill .none, more := .fill false }

/-! ### The cadence unit, the order taker, the registers, the window -/

/-- R150. A timer that runs holds the length in seconds it was last started with. -/
structure Cadence where
  configured : CadenceSource
  inUse : CadenceSource
  period : Nat
  periodTimer : Option Nat
  lossTimer : Option Nat
  deriving DecidableEq, Repr

/-- R150. -/
def Cadence.blank : Cadence :=
  { configured := .internal, inUse := .internal, period := 6, periodTimer := some 6, lossTimer := none }

/-- R156, R157. `sweepTimer`: the length in ms the sweep timer was last started with. -/
structure Taker where
  expect : Word
  sweepTimer : Nat
  sweeping : Bool
  taken : List CellIx
  deriving DecidableEq, Repr

/-- R156. -/
def Taker.blank : Taker := { expect := 0, sweepTimer := Config.sweepMs, sweeping := false, taken := [] }

/-- R173 to R175. `hold`: the length in microseconds of the running release hold. -/
structure Regs where
  summary : Byte
  mask : Byte
  noticeEnable : Bool
  hold : Option Nat
  deriving DecidableEq, Repr

/-- R168: Summary holds Start alone. -/
def Regs.blank : Regs := { summary := 1, mask := 0, noticeEnable := false, hold := none }

/-- The copy of a record that the access interlock holds for the host (R172). -/
structure Latch where
  base : Nat
  bytes : List Byte
  last : Nat
  deriving DecidableEq, Repr

/-- The host's read port: the latched copy, the data of the last read, and how many bytes have been read outside the
window (the model's own counter, which the free value of notes/assumptions/3.md is applied to). -/
structure ReadPort where
  latch : Option Latch
  data : Word
  outside : Nat
  deriving DecidableEq, Repr

/-- Exchange memory that is plain storage (the order board, the plan area, the free area): (offset, byte) pairs,
offsets strictly rising, no byte 0 listed; an unlisted offset reads 0 (R168). -/
abbrev Memory := List Host.Cell

/-- The state of the FQ-64. -/
structure State where
  /-- the commands that wait, first in, first out -/
  pending : List Instr
  /-- R166 -/
  engine : EngineState
  /-- the level of the bypass input (R166) -/
  bypassIn : Bool
  /-- the engine seconds clock -/
  seconds : Seconds
  /-- R12 -/
  boardRev : Word
  /-- R106 -/
  planCount : BitVec 32
  /-- the active plan, none while no plan is active (R106) -/
  plan : Option Plan
  /-- the apply under way (R110) -/
  apply : Option Apply
  /-- the call board -/
  calls : Table Call 64
  /-- R8 -/
  free : List Slot
  parts : Table Partition 4
  positions : Table Position 8
  lamps : Table Lamp 256
  /-- the ring order counts (R85) -/
  rings : Table Nat 256
  links : Table Link 4
  cadence : Cadence
  taker : Taker
  regs : Regs
  port : ReadPort
  mem : Memory
  deriving DecidableEq, Repr

/-- The part after a power-on reset with the bypass input inactive (R168, R23, R47, R61, R83, R104, R123, R142, R150,
R156). -/
def State.reset : State :=
  { pending := [], engine := .closed, bypassIn := false, seconds := 0, boardRev := 0, planCount := 0, plan := none,
    apply := none, calls := .fill .blank, free := List.finRange 64, parts := .fill .blank, positions := .fill .blank,
    lamps := .fill .blank, rings := .fill 0, links := .fill .blank, cadence := .blank, taker := .blank, regs := .blank,
    port := { latch := none, data := 0, outside := 0 }, mem := [] }

/-- The reasons a step may fault. There is none: every command of the table has an effect in every state, or leaves the
state as it is because its event cannot happen there (notes/assumptions/1.md). -/
inductive Fault where
  deriving DecidableEq, Repr

/-- The reasons a step may be refused. -/
inductive Refusal where
  /-- Raised by exec's arm of a command that has no meaning yet (none is left). Safe: the run stops. -/
  | notModelled (mnemonic : String)
  deriving DecidableEq, Repr

end Sys2Proof.Machine
end

