-- ==== Sys2Proof/Machine/Flags.lean ====
section
/-! DEFINITION. The flags of the Summary register, the notice line and the bypass output (R166, R173 to R175). -/

namespace Sys2Proof.Machine

/-- The eight flags of the Summary register (R173). -/
inductive Flag where | start | board | order | alert | link | cadence | bypass | drop deriving DecidableEq, Repr

/-- The bit of a flag in Summary and Mask (R173). -/
def Flag.bit : Flag → Byte
  | .start => 0x01 | .board => 0x02 | .order => 0x04 | .alert => 0x08
  | .link => 0x10 | .cadence => 0x20 | .bypass => 0x40 | .drop => 0x80

/-- Set a flag; setting a flag that is set leaves it set (R174). -/
def State.raise (s : State) (f : Flag) : State := { s with regs := { s.regs with summary := s.regs.summary ||| f.bit } }

/-- The flag is set in Summary. -/
def State.flag (s : State) (f : Flag) : Bool := s.regs.summary &&& f.bit != 0

/-- The effect of a host write of Summary's low byte: the flags written as 1 are cleared, and clearing at least one set
flag starts or restarts the release hold (R174, R175). -/
def Regs.clear (r : Regs) (v : Byte) : Regs :=
  if r.summary &&& v = 0 then r
  else { r with summary := r.summary &&& ~~~v, hold := some Config.holdMicros }

/-- The notice line is asserted (R175). -/
def State.noticeAsserted (s : State) : Bool :=
  s.regs.noticeEnable && s.regs.summary &&& s.regs.mask != 0 && s.regs.hold.isNone

/-- The bypass output is asserted (R166). -/
def State.bypassOut (s : State) : Bool := s.engine == .bypassed

end Sys2Proof.Machine
end

