-- ==== Sys2Proof/Machine/Memory.lean ====
section
/-! DEFINITION. The plain storage of exchange memory: the order board, the plan area and the free area (R170). -/

namespace Sys2Proof.Machine

/-- The byte at an offset; an unlisted offset reads 0, its value after a power-on reset (R168). -/
def Memory.read : Memory → Nat → Byte
  | [], _ => 0
  | (k, b) :: m, a => if k = a then b else if a < k then 0 else Memory.read m a

/-- Write one byte, keeping the canonical form. -/
def Memory.write : Memory → Nat → Byte → Memory
  | [], a, v => if v = 0 then [] else [(a, v)]
  | (k, b) :: m, a, v =>
    if k = a then (if v = 0 then m else (a, v) :: m)
    else if a < k then (if v = 0 then (k, b) :: m else (a, v) :: (k, b) :: m)
    else (k, b) :: Memory.write m a v

/-- Write consecutive bytes from an offset up. -/
def Memory.writeAll (m : Memory) (a : Nat) : List Byte → Memory
  | [] => m
  | v :: vs => Memory.writeAll (m.write a v) (a + 1) vs

/-- The first listed offset of `m`, if any, is above `a`. -/
def Memory.above (a : Nat) : Memory → Bool
  | [] => true
  | (k, _) :: _ => decide (a < k)

/-- The canonical form: offsets strictly rising, no listed byte equal to what an unlisted offset reads as. -/
def Memory.wf : Memory → Bool
  | [] => true
  | (k, b) :: m => decide (b ≠ 0) && Memory.above k m && Memory.wf m

/-- The 16-bit value at an offset, least significant byte first (R170). -/
def Memory.read16 (m : Memory) (a : Nat) : Word := m.read (a + 1) ++ m.read a

/-- The two bytes of a word, least significant first (R170). -/
def bytesOf16 (w : Word) : List Byte := [w.setWidth 8, (w >>> 8).setWidth 8]

/-- The four bytes of a 32-bit value, least significant first (R170). -/
def bytesOf32 (w : BitVec 32) : List Byte :=
  [w.setWidth 8, (w >>> 8).setWidth 8, (w >>> 16).setWidth 8, (w >>> 24).setWidth 8]

end Sys2Proof.Machine
end

