-- ==== Sys2Proof/Machine/Operands.lean ====
section
/-! DEFINITION. What the commands and orders name: circuits and their places, order cells and their fields (R154, R160,
R177), and the plan area as an apply reads it (R107, R108, R179). -/

namespace Sys2Proof.Machine

/-! ### Circuit numbering (00_scope.md, "Circuit numbering") -/

/-- The link that carries a circuit: its number divided by 64, rounded down. -/
def linkOf (c : Circuit) : LinkIx := ⟨c.val / 64, by omega⟩

/-- The shelf address of a circuit on its link. -/
def addrOf (c : Circuit) : Addr := ⟨c.val % 64 / 16, by omega⟩

/-- The port of a circuit on its shelf. -/
def portOf (c : Circuit) : Fin 16 := ⟨c.val % 16, by omega⟩

/-- The circuit at a port of a shelf of a link (R127). -/
def circuitAt (l : LinkIx) (a : Addr) (port : Fin 16) : Circuit := ⟨64 * l.val + 16 * a.val + port.val, by omega⟩

/-- The shelf's single number (06, section 6.1). -/
def shelfNumber (l : LinkIx) (a : Addr) : Fin 16 := ⟨4 * l.val + a.val, by omega⟩

/-- The sixteen circuits of a shelf, port 0 first. -/
def circuitsOf (l : LinkIx) (a : Addr) : List Circuit := (List.finRange 16).map (circuitAt l a)

/-- The first circuit an order names (R124). -/
def ShelfOrder.first : ShelfOrder → Circuit
  | .join a _ => a | .part a _ => a | .ring c => c | .unring c => c | .tone c _ => c | .drop c => c

/-- The order names the circuit, first or second. -/
def ShelfOrder.names (o : ShelfOrder) (c : Circuit) : Bool :=
  match o with
  | .join a b => a == c || b == c
  | .part a b => a == c || b == c
  | .ring a => a == c
  | .unring a => a == c
  | .tone a _ => a == c
  | .drop a => a == c

/-! ### Order cells -/

/-- The four states of a cell; a state field of any other value reads as EMPTY (R154). -/
inductive CellState where | empty | posted | taken | done deriving DecidableEq, Repr

/-- The thirteen order kinds (R160). -/
inductive OrderKind where
  | openK | closeK | pauseK | answerK | pickK | holdK | retrieveK | extendK | transferK | cancelK | disconnectK
  | setNightK | applyPlanK
  deriving DecidableEq, Repr

/-- The offset of a cell (R170). -/
def cellBase (c : CellIx) : Nat := 0x0500 + 32 * c.val

/-- A byte of a cell. -/
def cellByte (m : Memory) (c : CellIx) (k : Nat) : Byte := m.read (cellBase c + k)

/-- The state of a cell (R154, R177): bits 3 to 0 of its first byte. -/
def cellState (m : Memory) (c : CellIx) : CellState :=
  match (cellByte m c 0).toNat % 16 with
  | 1 => .posted
  | 2 => .taken
  | 3 => .done
  | _ => .empty

/-- The position value of a cell, 0 to 15 (R177). -/
def cellPosition (m : Memory) (c : CellIx) : Nat := (cellByte m c 0).toNat / 16

/-- The order number of a cell (R177). -/
def cellNumber (m : Memory) (c : CellIx) : Word := m.read16 (cellBase c + 4)

/-- The kind of a cell's order, none when the code is unknown (R177). -/
def cellKind (m : Memory) (c : CellIx) : Option OrderKind :=
  match (cellByte m c 1).toNat with
  | 1 => some .openK | 2 => some .closeK | 3 => some .pauseK | 4 => some .answerK | 5 => some .pickK
  | 6 => some .holdK | 7 => some .retrieveK | 8 => some .extendK | 9 => some .transferK | 10 => some .cancelK
  | 11 => some .disconnectK | 12 => some .setNightK | 13 => some .applyPlanK
  | _ => none

/-- The declared length of a cell (R177). -/
def cellLength (m : Memory) (c : CellIx) : Nat := (cellByte m c 2).toNat

/-- A body byte of a cell (R177). -/
def cellBody (m : Memory) (c : CellIx) (k : Nat) : Byte := cellByte m c (0x0C + k)

/-- The body length of a kind (R160). -/
def OrderKind.bodyLength : OrderKind → Nat
  | .closeK => 1 | .pauseK => 1 | .pickK => 1 | .retrieveK => 1 | .extendK => 3 | .setNightK => 2
  | .openK => 0 | .answerK => 0 | .holdK => 0 | .transferK => 0 | .cancelK => 0 | .disconnectK => 0 | .applyPlanK => 0

/-- The kind accepts the position value (R160): 0 to 7, and 15 for SET_NIGHT and APPLY_PLAN. -/
def OrderKind.accepts (k : OrderKind) (position : Nat) : Bool :=
  decide (position < 8) || (decide (position = 15) && (k == .setNightK || k == .applyPlanK))

/-- The position a value names, none for 15 (00_scope.md, "Absent fields"). -/
def positionOf (v : Nat) : Option Pos := if h : v < 8 then some ⟨v, h⟩ else none

/-- The codes of R177. -/
def ResultCode.code : ResultCode → Byte
  | .ok => 0 | .camped => 1 | .badKind => 2 | .badLength => 3 | .badPosition => 4 | .notOpen => 5 | .alreadyOpen => 6
  | .noOffer => 7 | .noCall => 8 | .noLoop => 9 | .speaking => 10 | .wrongState => 11 | .inProgress => 12
  | .noSuchNumber => 13 | .sameCircuit => 14 | .busy => 15 | .outOfService => 16 | .campFull => 17 | .callerGone => 18
  | .cancelled => 19 | .loopsInUse => 20 | .noAuthority => 21 | .planInvalid => 22 | .notServing => 23
  | .staleNumber => 24

/-- The low byte of a cell with its state replaced and its position kept (R177: the engine keeps the high half). -/
def withCellState (b : Byte) (code : Byte) : Byte := (b &&& 0xF0) ||| code

/-! ### The plan area -/

/-- Clamping (R107). -/
def clamp (lo hi v : Nat) : Nat := max lo (min hi v)

/-- Clamping of a field whose 0 means off (R107). -/
def clampOff (lo hi v : Nat) : Nat := if v = 0 then 0 else clamp lo hi v

/-- A flag is yes for any non-zero value (R108). -/
def flagOf (b : Byte) : Bool := b != 0

/-- A chief or deputy value other than 0 to 7 is none (R108). -/
def roleHolder (b : Byte) : Option Pos := positionOf b.toNat

/-- A circuit value of 255 is none (R108). -/
def circuitOrNone (b : Byte) : Option Circuit := if b = 255 then none else some ⟨b.toNat, b.isLt⟩

/-- R108, Kind. -/
def kindOf (b : Byte) : LineKind :=
  match b.toNat with
  | 1 => .trunk | 2 => .extension | 3 => .position | 4 => .announcer | _ => .unused

/-- R108, Directory partition. -/
def partitionOf (b : Byte) : Option Part := if h : b.toNat < 4 then some ⟨b.toNat, h⟩ else none

/-- R108, Overflow destination. -/
def overflowOf (b : Byte) : Overflow := if h : b.toNat < 4 then .partition ⟨b.toNat, h⟩ else .fallback

/-- R108, Basis. -/
def basisOf (b : Byte) : Basis := match b.toNat with | 1 => .newer | 2 => .older | _ => .mean

/-- R108, Cadence source. -/
def sourceOf (b : Byte) : CadenceSource := if b = 0 then .internal else .external

/-- A directory entry (R108, R179). -/
def readDirEntry (m : Memory) (c : Circuit) : DirEntry :=
  let base := 0x2340 + 8 * c.val
  let kind := kindOf (m.read base)
  let number := m.read16 (base + 2)
  { kind := kind, partition := partitionOf (m.read (base + 1)),
    number := if kind = .extension ∧ number.toNat ≤ 9999 then some number else none,
    campAllowed := flagOf (m.read (base + 4)) }

/-- A partition plan (R107, R108, R179); `directory` decides whether the announcer is an ANNOUNCER. -/
def readPartPlan (m : Memory) (directory : Table DirEntry 256) (p : Part) : PartPlan :=
  let base := 0x2140 + 64 * p.val
  let b (k : Nat) : Byte := m.read (base + k)
  let w (k : Nat) : Nat := (m.read16 (base + k)).toNat
  let capacity := clamp 1 48 (b 2).toNat
  { enabled := flagOf (b 0), members := b 1, capacity := capacity,
    alertLevel := clampOff 1 capacity (b 3).toNat,
    overflowLimit := clampOff 1 999 (w 4), overflow := overflowOf (b 6),
    announcer := (circuitOrNone (b 7)).filter fun c => (directory.get c).kind == .announcer,
    night := m.read16 (base + 8), autoNight := flagOf (b 0x0A), offerTimeout := clamp 4 60 (b 0x0B).toNat,
    holdRecall := clampOff 10 900 (w 0x0C), campRecall := clamp 10 900 (w 0x0E), waitLimit := clampOff 10 900 (w 0x10),
    ringLimit := clamp 1 15 (b 0x12).toNat, announceTime := clamp 10 120 (b 0x13).toNat,
    seedRange := clamp 0 7 (b 0x14).toNat, seedSpacing := (b 0x15).toNat, weight := clamp 1 255 (b 0x16).toNat,
    basis := basisOf (b 0x17) }

/-- The staged copy of the plan area (R107, R108, R110, R179). -/
def readPlan (m : Memory) : Plan :=
  let directory := Table.make (readDirEntry m)
  { chief := roleHolder (m.read 0x2100), deputy := roleHolder (m.read 0x2101), source := sourceOf (m.read 0x2102),
    period := clamp 2 8 (m.read 0x2103).toNat, window := clamp 2 20 (m.read 0x2104).toNat,
    missLimit := clamp 1 7 (m.read 0x2105).toNat, parts := Table.make (readPartPlan m directory),
    headsets := Table.make fun p => circuitOrNone (m.read (0x2240 + 16 * p.val)),
    shelves := Table.make fun n =>
      { fitted := flagOf (m.read (0x22C0 + 8 * n.val)), interval := clamp 10 200 (m.read (0x22C0 + 8 * n.val + 1)).toNat },
    directory := directory }

/-! ### Questions put to a plan -/

/-- What a circuit is while no plan is active: every directory entry is read as UNUSED (R106). -/
def DirEntry.none : DirEntry := { kind := .unused, partition := Option.none, number := Option.none, campAllowed := false }

/-- What a partition is while no plan is active: not enabled, settings 0 (R47, R106). -/
def PartPlan.none : PartPlan :=
  { enabled := false, members := 0, capacity := 0, alertLevel := 0, overflowLimit := 0, overflow := .fallback,
    announcer := Option.none, night := 0, autoNight := false, offerTimeout := 0, holdRecall := 0, campRecall := 0,
    waitLimit := 0, ringLimit := 0, announceTime := 0, seedRange := 0, seedSpacing := 0, weight := 0, basis := .mean }

/-- The circuit of an extension number in the directory map (R109). -/
def Plan.lookup (pl : Plan) (number : Word) : Option Circuit :=
  (List.finRange 256).find? fun c =>
    let d := pl.directory.get c
    d.kind == .extension && d.number == some number

/-- The position is in the partition's member set. -/
def PartPlan.has (pp : PartPlan) (p : Pos) : Bool := pp.members.getLsbD p.val

/-- The enabled partition whose member set holds the position (R62). -/
def Plan.partitionOf (pl : Plan) (p : Pos) : Option Part :=
  (List.finRange 4).find? fun q => (pl.parts.get q).enabled && (pl.parts.get q).has p

/-- The position is a member position (R111). -/
def Plan.isMember (pl : Plan) (p : Pos) : Bool := (pl.partitionOf p).isSome

/-- The settings of a partition in the active plan. -/
def State.part (s : State) (p : Part) : PartPlan :=
  match s.plan with
  | some pl => pl.parts.get p
  | none => .none

/-- The directory entry of a circuit in the active plan. -/
def State.dir (s : State) (c : Circuit) : DirEntry :=
  match s.plan with
  | some pl => pl.directory.get c
  | none => .none

/-- The directory map of the active plan (R109). -/
def State.lookup (s : State) (number : Word) : Option Circuit :=
  match s.plan with
  | some pl => pl.lookup number
  | none => none

end Sys2Proof.Machine
end

