-- ==== Sys2Proof/Machine/Layout.lean ====
section
/-! DEFINITION. What the host reads in the window: the byte layouts of the published records and the registers (R170,
R171, R173, R176, R180). -/

namespace Sys2Proof.Machine

/-- A bit as a number. -/
def bitNat (b : Bool) (k : Nat) : Nat := if b then 2 ^ k else 0

/-- A small number as a byte. -/
def byteOf (n : Nat) : Byte := BitVec.ofNat 8 n

/-- An optional number as a byte, 255 when absent (00_scope.md, "Absent fields"). -/
def byteOr {n : Nat} (o : Option (Fin n)) : Byte := match o with | some i => byteOf i.val | none => 255

/-- An optional word, 0xFFFF when absent. -/
def wordOr (o : Option Word) : Word := match o with | some w => w | none => 0xFFFF

/-- The code of an engine state (R171). -/
def EngineState.code : EngineState → Nat | .closed => 0 | .serving => 1 | .bypassed => 2
/-- R171. -/
def CadenceSource.code : CadenceSource → Nat | .internal => 0 | .external => 1
/-- R176. -/
def CallState.code : CallState → Nat
  | .free => 0 | .queued => 1 | .offered => 2 | .talking => 3 | .held => 4 | .consultRinging => 5 | .consultTalking => 6
  | .ringingOut => 7 | .camped => 8 | .announced => 9 | .closing => 10
/-- R176. -/
def EndReason.code : EndReason → Nat
  | .callerCleared => 1 | .attendantDisconnect => 2 | .delivered => 3 | .congestion => 4 | .unanswered => 5
  | .shelfLost => 6 | .pathFault => 7 | .bypass => 8 | .reset => 9
/-- R176: 0 while absent. -/
def endCode (o : Option EndReason) : Nat := match o with | some r => r.code | none => 0
/-- R176. -/
def CallClass.code : CallClass → Nat | .new => 0 | .recall => 1
/-- R176. -/
def ArrivalCause.code : ArrivalCause → Nat | .trunk => 0 | .dialAttendant => 1 | .unansweredDial => 2
/-- R176. -/
def TimerKind.code : TimerKind → Nat
  | .offer => 1 | .hold1 => 2 | .hold2 => 3 | .camp => 4 | .wait => 5 | .announce => 6
/-- R180. -/
def Mode.code : Mode → Nat | .day => 0 | .night => 1
/-- R180. -/
def LineKind.code : LineKind → Nat | .unused => 0 | .trunk => 1 | .extension => 2 | .position => 3 | .announcer => 4
/-- R180. -/
def LineState.code : LineState → Nat | .unknown => 0 | .idle => 1 | .busy => 2 | .ringing => 3 | .outOfService => 4
/-- R180. -/
def Role.code : Role → Nat | .none => 0 | .chief => 1 | .deputy => 2
/-- R180. -/
def Basis.code : Basis → Nat | .newer => 1 | .older => 2 | .mean => 3
/-- R180. -/
def LinkState.code : LinkState → Nat | .held => 0 | .running => 1
/-- R180. -/
def ShelfState.code : ShelfState → Nat | .absent => 0 | .searching => 1 | .present => 2 | .lost => 3

/-- Six bytes of digits, two a byte, first digit in the high half, unused halves 0 (R176). -/
def digitBytes (ds : List (Fin 10)) : List Byte :=
  (List.range 6).map fun k =>
    let d (j : Nat) : Nat := match ds[j]? with | some x => x.val | none => 0
    byteOf (16 * d (2 * k) + d (2 * k + 1))

/-- The number of NEW members of a roster (R25). -/
def State.newCount (s : State) (p : Part) : Nat :=
  ((s.parts.get p).roster.filter fun i => (s.calls.get i).cls == .new).length

/-- The engine header, first 16 bytes (R171). -/
def headerBytes (s : State) : List Byte :=
  [byteOf s.engine.code, byteOf s.cadence.inUse.code] ++ bytesOf16 s.boardRev ++ bytesOf32 s.seconds ++
  bytesOf16 s.taker.expect ++ [byteOf s.free.length, 0] ++ bytesOf32 s.planCount

/-- The link status record of a link, first 24 bytes (R180). -/
def linkBytes (s : State) (l : LinkIx) : List Byte :=
  let k := s.links.get l
  [byteOf k.state.code, byteOf k.window] ++ bytesOf16 k.rev ++ [byteOf k.missLimit, 0, 0, 0] ++
  k.shelves.list.flatMap fun sh => [byteOf sh.state.code, byteOf sh.misses, byteOf sh.interval, 0]

/-- The settings of a partition in its status record, offsets 0x09 to 0x1E; 0 while no plan is active (R180). -/
def settingBytes (s : State) (p : Part) : List Byte :=
  match s.plan with
  | none => List.replicate 22 0
  | some pl =>
    let pp := pl.parts.get p
    let w (n : Nat) : List Byte := bytesOf16 (BitVec.ofNat 16 n)
    [pp.members, byteOf pp.capacity, byteOf pp.alertLevel] ++ w pp.overflowLimit ++
    [match pp.overflow with | .partition q => byteOf q.val | .fallback => 255, byteOr pp.announcer] ++
    bytesOf16 pp.night ++ [byteOf pp.offerTimeout, byteOf pp.ringLimit] ++ w pp.holdRecall ++ w pp.campRecall ++
    w pp.waitLimit ++ [byteOf pp.announceTime, byteOf pp.seedRange, byteOf pp.seedSpacing, byteOf pp.weight,
      byteOf pp.basis.code]

/-- The partition status record of a partition; bytes beyond the list read 0 (R180). -/
def partBytes (s : State) (p : Part) : List Byte :=
  let q := s.parts.get p
  let pp := s.part p
  [byteOf q.mode.code,
    byteOf (bitNat pp.enabled 0 + bitNat q.alert 1 + bitNat q.est.stall 2 + bitNat q.est.clamped 3 +
      bitNat pp.autoNight 4)] ++
  bytesOf16 q.rev ++ [byteOf q.roster.length, byteOf (s.newCount p), byteOf q.est.range, byteOf q.est.new,
    byteOf q.est.old] ++ settingBytes s p ++ [0] ++ q.roster.map fun i => byteOf i.val

/-- The position panel of a position; zero throughout until it is written after a reset (R83, R180). -/
def panelBytes (s : State) (i : Pos) : List Byte :=
  let q := s.positions.get i
  if q.written then
    [byteOf (bitNat q.isOpen 0),
      byteOf (bitNat q.pause.isSome 0 + bitNat (q.pause == some .missed) 1 + bitNat q.extend.isSome 2 +
        bitNat (q.flash.get 0) 4 + bitNat (q.flash.get 1) 5 + bitNat (q.flash.get 2) 6 + bitNat (q.flash.get 3) 7)] ++
    bytesOf16 q.rev ++ [byteOr q.partition, byteOr q.headset, byteOf q.role.code, byteOr q.offered, byteOr q.speaking] ++
    q.loops.list.map byteOr ++ [byteOf q.missed] ++
    bytesOf16 (match q.extend with | some n => n | none => Config.panelExtendUnused i.val q.rev) ++ bytesOf32 q.idleSince
  else []

/-- The call record of a slot; until it is written after a reset only its end reason can be other than 0 (R23,
R176). -/
def callBytes (s : State) (i : Slot) : List Byte :=
  let c := s.calls.get i
  if c.written then
    [byteOf c.state.code, byteOf (endCode c.endReason)] ++ bytesOf16 c.rev ++
    [byteOf c.partition.val, byteOf c.cls.code,
      byteOf (bitNat c.overflowed 0 + bitNat c.confirmed 1 + bitNat c.ringPending 2 + bitNat c.ringLimit 3 +
        bitNat c.expiryHeld 4 + bitNat c.extend.isSome 5),
      byteOf c.cause.code, byteOf c.caller.val, byteOf c.callerDigits.length] ++ digitBytes c.callerDigits ++
    bytesOf16 (wordOr c.called) ++
    [byteOr c.position, byteOr c.loop, byteOr c.origin, byteOr (c.target.map (·.circuit))] ++
    bytesOf16 (wordOr (c.target.map (·.number))) ++
    [match c.place with | some n => byteOf n | none => 255, match c.timer with | some t => byteOf t.1.code | none => 0] ++
    bytesOf16 (match c.estimate with | some n => BitVec.ofNat 16 n | none => 0xFFFF) ++
    bytesOf32 (match c.timer with | some t => t.2 | none => 0) ++ bytesOf32 (c.waitDeadline.getD 0) ++
    bytesOf32 c.entered ++ [byteOf c.ringCount, byteOf c.pending] ++
    bytesOf16 (match c.extend with | some n => n | none => Config.callExtendUnused i.val c.rev) ++ [byteOr c.announcer]
  else [byteOf c.state.code, byteOf (endCode c.endReason)]

/-- The lamp entry of a circuit (R180). -/
def lampBytes (s : State) (c : Circuit) : List Byte :=
  let q := s.lamps.get c
  [byteOf (q.kind.code + 16 * q.camp.length), byteOf q.line.code] ++ bytesOf16 q.rev ++
  [q.partition, match q.tied with | some i => byteOf (128 + i.val) | none => 0] ++ bytesOf16 q.number

/-- The bytes of the five registers, from 0x3FE0 (R173); Attention and Soft Reset read back 0. That the bits R173 does
not name (Control 15 to 3, Engine 15 and 7 to 2) read 0 is the model's choice (DESIGN CHOICE, notes/assumptions/26.md). -/
def registerBytes (s : State) : List Byte :=
  bytesOf16 Config.ident ++ [byteOf (bitNat s.regs.noticeEnable 2), 0, s.regs.summary, 0, s.regs.mask, 0,
    byteOf s.engine.code, byteOf s.free.length]

/-- The byte the window holds at an offset below 0x4000 (R170, R171). -/
def State.windowByte (s : State) (a : Nat) : Byte :=
  if a < 0x0040 then (headerBytes s).getD a 0
  else if a < 0x00C0 then (linkBytes s (.ofNat 4 ((a - 0x40) / 32))).getD ((a - 0x40) % 32) 0
  else if a < 0x02C0 then (partBytes s (.ofNat 4 ((a - 0xC0) / 128))).getD ((a - 0xC0) % 128) 0
  else if a < 0x04C0 then (panelBytes s (.ofNat 8 ((a - 0x2C0) / 64))).getD ((a - 0x2C0) % 64) 0
  else if a < 0x0500 then 0
  else if a < 0x0900 then s.mem.read a
  else if a < 0x1900 then (callBytes s (.ofNat 64 ((a - 0x900) / 64))).getD ((a - 0x900) % 64) 0
  else if a < 0x2100 then (lampBytes s (.ofNat 256 ((a - 0x1900) / 8))).getD ((a - 0x1900) % 8) 0
  else if a < 0x3FE0 then s.mem.read a
  else (registerBytes s).getD (a - 0x3FE0) 0

/-- The record that an offset lies in: its first offset and its size (R172); none for the plan area, the free area and
the registers. -/
def recordAt (a : Nat) : Option (Nat × Nat) :=
  let at' (base size : Nat) : Option (Nat × Nat) := some (base + (a - base) / size * size, size)
  if a < 0x0040 then at' 0 64
  else if a < 0x00C0 then at' 0x0040 32
  else if a < 0x02C0 then at' 0x00C0 128
  else if a < 0x04C0 then at' 0x02C0 64
  else if a < 0x0500 then none
  else if a < 0x0900 then at' 0x0500 32
  else if a < 0x1900 then at' 0x0900 64
  else if a < 0x2100 then at' 0x1900 8
  else none

end Sys2Proof.Machine
end

