-- ==== Sys2Proof/Machine/Ops.lean ====
section
/-! DEFINITION. The named operations that every event is built from: one event's working record, changes of call state
(R7), timers (R4), shelf orders issued on behalf of a call (R13, R130), order results (R163), loops (R70), camp lists
(R84). -/

namespace Sys2Proof.Machine

/-! ### Reading and replacing one record -/

/-- The call record of a slot. -/
def State.call (s : State) (i : Slot) : Call := s.calls.get i
/-- The panel of a position. -/
def State.pos (s : State) (p : Pos) : Position := s.positions.get p
/-- The record of a partition. -/
def State.prt (s : State) (p : Part) : Partition := s.parts.get p
/-- The lamp entry of a circuit. -/
def State.lamp (s : State) (c : Circuit) : Lamp := s.lamps.get c
/-- The record of a link. -/
def State.link (s : State) (l : LinkIx) : Link := s.links.get l
/-- The shelf record of a circuit's shelf. -/
def State.shelfOf (s : State) (c : Circuit) : Shelf := (s.link (linkOf c)).shelves.get (addrOf c)

/-- Replace a call record. -/
def State.setCall (s : State) (i : Slot) (c : Call) : State := { s with calls := s.calls.set i c }
/-- Replace a panel. -/
def State.setPos (s : State) (p : Pos) (q : Position) : State := { s with positions := s.positions.set p q }
/-- Replace a partition's record. -/
def State.setPrt (s : State) (p : Part) (q : Partition) : State := { s with parts := s.parts.set p q }
/-- Replace a lamp entry. -/
def State.setLamp (s : State) (c : Circuit) (q : Lamp) : State := { s with lamps := s.lamps.set c q }
/-- Replace a link. -/
def State.setLink (s : State) (l : LinkIx) (k : Link) : State := { s with links := s.links.set l k }
/-- Replace a ring order count. -/
def State.setRing (s : State) (c : Circuit) (n : Nat) : State := { s with rings := s.rings.set c n }
/-- Replace the plain storage. -/
def State.setMem (s : State) (m : Memory) : State := { s with mem := m }
/-- Replace the free list. -/
def State.setFree (s : State) (f : List Slot) : State := { s with free := f }
/-- Replace the order taker. -/
def State.setTaker (s : State) (t : Taker) : State := { s with taker := t }

/-- The call is live: in any state other than FREE (R28). -/
def Call.live (c : Call) : Bool := c.state != .free

/-- The call is in flight of a DIRECT EXTEND: TALKING with an extend order number (R16, R85). -/
def Call.directInFlight (c : Call) : Bool := c.state == .talking && c.extend.isSome

/-- The circuit is the call's target circuit. -/
def Call.targets (c : Call) (k : Circuit) : Bool := match c.target with | some t => t.circuit == k | none => false

/-- The call ties its target (R141): it consults, rings out, or is TALKING with a DIRECT EXTEND in flight. -/
def Call.tiesTarget (c : Call) : Bool :=
  c.state == .consultRinging || c.state == .consultTalking || c.state == .ringingOut || c.directInFlight

/-- Every slot, ascending. -/
def allSlots : List Slot := List.finRange 64

/-- The circuit is the caller circuit of a live call (R28). -/
def State.callerOf (s : State) (k : Circuit) : Option Slot :=
  allSlots.find? fun i => (s.call i).live && (s.call i).caller == k

/-- The circuit is the target circuit of a live call (R44, R86). -/
def State.isTarget (s : State) (k : Circuit) : Bool := allSlots.any fun i => (s.call i).live && (s.call i).targets k

/-- The circuit is the target circuit of a live call outside its camp list (R99). -/
def State.outsideTarget (s : State) (k : Circuit) : Bool :=
  allSlots.any fun i => (s.call i).live && (s.call i).targets k && !(s.lamp k).camp.contains i

/-- The call that rings or consults the circuit (05, section 5.4). -/
def State.ringerOf (s : State) (k : Circuit) : Option Slot :=
  allSlots.find? fun i => (s.call i).targets k && (s.call i).tiesTarget

/-- The call awaits a ring outcome for its target circuit (R85). -/
def Call.awaits (c : Call) (k : Circuit) : Bool :=
  c.targets k && ((c.state == .consultRinging && !c.confirmed) || c.directInFlight ||
    (c.state == .ringingOut && !c.confirmed) || (c.state == .camped && c.ringPending))

/-- The camp list of a circuit has room (R84). -/
def State.campRoom (s : State) (k : Circuit) : Bool :=
  (s.dir k).campAllowed && decide ((s.lamp k).camp.length < Config.campMax)

/-- The class of a target or night destination (R44, R86): an out-of-service or unknown line is out of reach before
anything else is asked (notes/assumptions/14.md). -/
inductive Reach where | free | busy | outOfReach deriving DecidableEq, Repr

/-- R44, R86. -/
def State.reach (s : State) (k : Circuit) : Reach :=
  match (s.lamp k).line with
  | .outOfService => .outOfReach
  | .unknown => .outOfReach
  | .idle => if s.isTarget k then .busy else .free
  | .busy => .busy
  | .ringing => .busy

/-- The deadline has been reached (R4); engine seconds wraps at 2^32 (notes/assumptions/8.md). -/
def reached (deadline now : Seconds) : Bool := decide ((now - deadline).toNat < 2 ^ 31)

/-- The call's running timer is of the kind and has reached its deadline (R4). -/
def State.timerDue (s : State) (i : Slot) (k : TimerKind) : Bool :=
  match (s.call i).timer with
  | some (kind, deadline) => kind == k && reached deadline s.seconds
  | none => false

/-- A position is available (R35). -/
def Position.available (q : Position) : Bool :=
  q.isOpen && q.pause.isNone && q.offered.isNone && q.speaking.isNone && q.loops.list.any (·.isNone)

/-- The lowest-numbered empty loop (R71). -/
def Position.emptyLoop (q : Position) : Option LoopIx := (List.finRange 4).find? fun l => (q.loops.get l).isNone

/-- The call on the speaking loop. -/
def Position.speakingCall (q : Position) : Option Slot := q.speaking.bind q.loops.get

/-! ### A change of call state (R7) -/

/-- The states that show a position (R7). -/
def CallState.hasPosition : CallState → Bool
  | .offered | .talking | .held | .consultRinging | .consultTalking => true
  | _ => false
/-- The states that show a loop (R7). -/
def CallState.hasLoop : CallState → Bool
  | .talking | .held | .consultRinging | .consultTalking => true
  | _ => false
/-- The states that show or keep a target (R7). -/
def CallState.keepsTarget : CallState → Bool
  | .consultRinging | .consultTalking | .ringingOut | .camped | .closing | .free => true
  | _ => false
/-- The states of a roster member (R24). -/
def CallState.inRoster : CallState → Bool
  | .queued | .offered => true
  | _ => false
/-- The states that show or keep an announcer circuit (R7). -/
def CallState.keepsAnnouncer : CallState → Bool
  | .announced | .closing | .free => true
  | _ => false
/-- A move between CONSULT_RINGING and RINGING_OUT, which keeps the ring count (R6). -/
def keepsRinging (a b : CallState) : Bool :=
  (a == .consultRinging && b == .ringingOut) || (a == .ringingOut && b == .consultRinging)

/-- The record of a call that has changed to a state, before the causing rule fills the fields marked present (R4 to
R7). -/
def Call.enter (c : Call) (st : CallState) (now : Seconds) : Call :=
  { c with
    state := st, entered := now,
    position := if st.hasPosition then c.position else none,
    loop := if st.hasLoop then c.loop else none,
    target := if st.keepsTarget then c.target else none,
    place := if st.inRoster then c.place else none,
    estimate := if st == .queued then c.estimate else none,
    waitDeadline := if st.inRoster then c.waitDeadline else none,
    announcer := if st.keepsAnnouncer then c.announcer else none,
    timer := none, expiryHeld := false, ringPending := false, ringLimit := false,
    ringCount := if keepsRinging c.state st then c.ringCount else 0,
    confirmed := if keepsRinging c.state st then c.confirmed else false }

/-! ### The working record of one event -/

/-- A shelf order refused or failed at issue, kept until the issuing rule has completed its steps (R130). -/
structure Refused where
  slot : Slot
  order : ShelfOrder
  handover : Bool
  lost : Bool
  deriving DecidableEq, Repr

/-- One event under way. -/
structure Event where
  /-- the state as changed so far -/
  st : State
  /-- the state as the event found it -/
  start : State
  /-- partitions whose roster has gained a QUEUED member (R35) -/
  gained : Table Bool 4
  /-- partitions that get a pass of estimates at the end (R57) -/
  passes : Table Bool 4
  /-- partitions whose status record a join, a leave or a move between QUEUED and OFFERED has changed (R25) -/
  touched : Table Bool 4
  /-- calls whose state has changed -/
  changed : List Slot
  /-- positions that keep their idle-since although they become available (R69) -/
  keepIdle : List Pos
  /-- orders issued or withheld in this event, with their calls, oldest first (R16) -/
  log : List (Slot × ShelfOrder)
  /-- refusals not yet taken, oldest first (R130) -/
  refusals : List Refused
  /-- circuits whose camp list is looked at when the event ends (R99) -/
  serve : List Circuit
  deriving DecidableEq, Repr

/-- An event that begins. -/
def Event.begin (s : State) : Event :=
  { st := s, start := s, gained := .fill false, passes := .fill false, touched := .fill false, changed := [],
    keepIdle := [], log := [], refusals := [], serve := [] }

/-- Change the state. -/
def Event.upd (e : Event) (f : State → State) : Event := { e with st := f e.st }

/-- Change a call record; the change leaves the call's state alone. -/
def Event.updCall (e : Event) (i : Slot) (f : Call → Call) : Event := e.upd fun s => s.setCall i (f (s.call i))
/-- Change a panel. -/
def Event.updPos (e : Event) (p : Pos) (f : Position → Position) : Event := e.upd fun s => s.setPos p (f (s.pos p))
/-- Change a partition's record. -/
def Event.updPrt (e : Event) (p : Part) (f : Partition → Partition) : Event := e.upd fun s => s.setPrt p (f (s.prt p))
/-- Change a lamp entry. -/
def Event.updLamp (e : Event) (c : Circuit) (f : Lamp → Lamp) : Event := e.upd fun s => s.setLamp c (f (s.lamp c))
/-- Change a link. -/
def Event.updLink (e : Event) (l : LinkIx) (f : Link → Link) : Event := e.upd fun s => s.setLink l (f (s.link l))

/-- The roster of the partition has changed in members or in which of them are offered (R25, R57). -/
def Event.rosterMoved (e : Event) (p : Part) : Event :=
  { e with passes := e.passes.set p true, touched := e.touched.set p true }

/-- The partition gets a pass of estimates at the end of the event (R57). -/
def Event.wantPass (e : Event) (p : Part) : Event := { e with passes := e.passes.set p true }

/-- The partition's roster has gained a QUEUED member (R35). -/
def Event.gain (e : Event) (p : Part) : Event := { e with gained := e.gained.set p true }

/-- The camp list of the circuit is looked at when the event ends (R99). -/
def Event.look (e : Event) (k : Circuit) : Event := { e with serve := e.serve ++ [k] }

/-- A live call outside its target's camp list has let the target go (R99). -/
def Event.letGo (e : Event) (c : Call) : Event :=
  match c.target with
  | some t => if c.state == .free || c.state == .camped then e else e.look t.circuit
  | none => e

/-- A live call changes its state under R7. A FREE slot is never moved here: only allocation (R9) takes a slot off the
free list. -/
def Event.toState (e : Event) (i : Slot) (st : CallState) : Event :=
  let c := e.st.call i
  if c.state = .free then e
  else
    let e := if st.keepsTarget && st != .free then e else e.letGo c
    { e.upd (fun s => s.setCall i (c.enter st s.seconds)) with changed := e.changed ++ [i] }

/-- Start the slot's timer: the engine seconds now plus the length (R4). -/
def Event.startTimer (e : Event) (i : Slot) (k : TimerKind) (length : Nat) : Event :=
  e.upd fun s => s.setCall i { s.call i with timer := some (k, s.seconds + BitVec.ofNat 32 length) }

/-- A call's target is made absent without a change of state (R91, R93, R96). -/
def Event.dropTarget (e : Event) (i : Slot) : Event :=
  (e.letGo (e.st.call i)).updCall i fun c => { c with target := none }

/-! ### Shelf orders -/

/-- How an order is treated when its shelf or its queue does not take it: an ordinary order; an order not issued to a
LOST or ABSENT shelf (R66, R96); a teardown order, which besides counts as done when refused (R16, R130). -/
inductive Issue where | ordinary | spared | teardown deriving DecidableEq, Repr

/-- Note an order of a call as issued or withheld in this event (R16). -/
def Event.note (e : Event) (slot : Option Slot) (o : ShelfOrder) : Event :=
  match slot with
  | some i => { e with log := e.log ++ [(i, o)] }
  | none => e

/-- Keep a refusal or failure at issue until the issuing rule has completed its steps (R130); an order for no slot has
its outcome discarded (R10). -/
def Event.refuse (e : Event) (mode : Issue) (slot : Option Slot) (o : ShelfOrder) (handover lost : Bool) : Event :=
  match slot with
  | some i =>
    if mode = .teardown then e
    else { e with refusals := e.refusals ++ [{ slot := i, order := o, handover := handover, lost := lost }] }
  | none => e

/-- The order is for a RING of the circuit. -/
def ShelfOrder.isRing : ShelfOrder → Bool | .ring _ => true | _ => false

/-- The order enters the queue of its link: the pending count of its slot and, for a RING, the ring order count of its
circuit rise (R13, R85, R130). -/
def Event.enqueue (e : Event) (slot : Option Slot) (o : ShelfOrder) (handover : Bool) : Event :=
  let c := o.first
  let e := e.updLink (linkOf c) fun k => { k with queue := k.queue ++ [{ order := o, slot := slot, handover := handover }] }
  let e := match slot with
    | some i => e.updCall i fun x => { x with pending := x.pending + 1 }
    | none => e
  if o.isRing then e.upd fun s => s.setRing c (s.rings.get c + 1) else e

/-- Issue a shelf order on behalf of a slot or of none (R13, R16, R122, R130). -/
def Event.issueAs (e : Event) (mode : Issue) (slot : Option Slot) (o : ShelfOrder) (handover : Bool) : Event :=
  let e := e.note slot o
  let sh := (e.st.shelfOf o.first).state
  let k := e.st.link (linkOf o.first)
  if mode ≠ .ordinary ∧ (sh = .lost ∨ sh = .absent) then e
  else if k.state = .held then e.refuse mode slot o handover true
  else if k.queue.length < Config.queueMax then e.enqueue slot o handover
  else e.refuse mode slot o handover false

/-- Issue an ordinary order for a call. -/
def Event.issue (e : Event) (i : Slot) (o : ShelfOrder) : Event := e.issueAs .ordinary (some i) o false

/-- Issue several orders for a call in one way, in the order listed. -/
def Event.issueAll (e : Event) (how : Issue) (i : Slot) (os : List ShelfOrder) : Event :=
  os.foldl (fun e o => e.issueAs how (some i) o false) e

/-- Issue several ordinary orders for a call. -/
def Event.issueList (e : Event) (i : Slot) (os : List ShelfOrder) : Event := e.issueAll .ordinary i os

/-- Issue orders that are not sent to a LOST or ABSENT shelf (R66, R96). -/
def Event.issueSpared (e : Event) (i : Slot) (os : List ShelfOrder) : Event := e.issueAll .spared i os

/-- Issue teardown orders (R16). -/
def Event.issueTeardown (e : Event) (i : Slot) (os : List ShelfOrder) : Event := e.issueAll .teardown i os

/-- An order between a headset and another circuit, if the position has a headset. -/
def withHeadset (h : Option Circuit) (f : Circuit → ShelfOrder) : List ShelfOrder :=
  match h with | some c => [f c] | none => []

/-- The headset circuit of the position whose loop holds the call (R16). -/
def State.headsetOf (s : State) (c : Call) : Option Circuit := c.position.bind fun p => (s.pos p).headset

/-- The call's target circuit in an order, if it has one. -/
def withTarget (c : Call) (f : Circuit → ShelfOrder) : List ShelfOrder :=
  match c.target with | some t => [f t.circuit] | none => []

/-- PART or JOIN of headset and target. -/
def headsetTarget (s : State) (c : Call) (f : Circuit → Circuit → ShelfOrder) : List ShelfOrder :=
  match s.headsetOf c, c.target with
  | some h, some t => [f h t.circuit]
  | _, _ => []

/-! ### Order results (R163, R177) -/

/-- Write some bytes of a cell. -/
def writeCell (m : Memory) (c : CellIx) (k : Nat) (bs : List Byte) : Memory := m.writeAll (cellBase c + k) bs

/-- The cell's state field replaced, its position kept (R177). -/
def setCellState (m : Memory) (c : CellIx) (code : Byte) : Memory := writeCell m c 0 [withCellState (cellByte m c 0) code]

/-- A cell answered: code, detail and done time written, state DONE (R163, R177). -/
def doneCell (m : Memory) (c : CellIx) (code : ResultCode) (detail : Word) (time : Seconds) : Memory :=
  let m := writeCell m c 3 [code.code]
  let m := writeCell m c 6 (bytesOf16 detail)
  let m := writeCell m c 0x0A (bytesOf16 (time.setWidth 16))
  setCellState m c 3

/-- The Order Taker writes an order's result: the cell is DONE and leaves the set of taken cells, and the Order flag is
set (R163). -/
def State.answer (s : State) (c : CellIx) (code : ResultCode) (detail : Word) : State :=
  ({ s with mem := doneCell s.mem c code detail s.seconds,
            taker := { s.taker with taken := s.taker.taken.filter (· != c) } }).raise .order

/-- Answer the EXTEND in flight at a position, if there is one: its cell is DONE, and the extend order number of the
call on its speaking loop and the panel's field become absent (R87). -/
def Event.answerExtend (e : Event) (p : Pos) (i : Slot) (code : ResultCode) : Event :=
  let e := match (e.st.pos p).extendCell with
    | some c => e.upd fun s => s.answer c code 0
    | none => e
  (e.updPos p fun q => { q with extend := none, extendCell := none }).updCall i fun c => { c with extend := none }

/-- Answer the EXTEND in flight for a call on a loop, if there is one (R15, R66, R93, R96). -/
def Event.answerExtendOf (e : Event) (i : Slot) (code : ResultCode) : Event :=
  let c := e.st.call i
  match c.extend, c.position with
  | some _, some p => e.answerExtend p i code
  | _, _ => e

/-! ### Loops and camp lists -/

/-- A call leaves its loop: the loop is empty, its flash flag clear, and if it was the speaking loop the position has no
speaking loop (R70). -/
def Event.leaveLoop (e : Event) (i : Slot) : Event :=
  let c := e.st.call i
  match c.position, c.loop with
  | some p, some l => e.updPos p fun q =>
      if q.loops.get l = some i then
        { q with loops := q.loops.set l none, flash := q.flash.set l false,
                 speaking := if q.speaking = some l then none else q.speaking }
      else q
  | _, _ => e

/-- Place a call on a loop of a position and make that loop the speaking loop: position, loop and origin are set and
the call is TALKING (R3, R70, R71). -/
def Event.placeOnLoop (e : Event) (i : Slot) (p : Pos) (l : LoopIx) : Event :=
  let e := e.toState i .talking
  let e := e.updCall i fun c => { c with position := some p, loop := some l, origin := some p }
  e.updPos p fun q => { q with loops := q.loops.set l (some i), speaking := some l }

/-- A call leaves the camp list of its target circuit; the calls behind it move up (R84). Its ring is no longer pending:
whatever rule takes it off the list has settled the ring (R100, R102) or finds its target out of service (R96). -/
def Event.leaveCamp (e : Event) (i : Slot) : Event :=
  match (e.st.call i).target with
  | some t =>
    (e.updLamp t.circuit fun q => { q with camp := q.camp.filter (· != i) }).updCall i
      fun c => { c with ringPending := false }
  | none => e

/-- A call camps on an extension: it joins the tail of the camp list and becomes CAMPED with its target present and a
CAMP timer of its partition's camp recall time (R84, R90, 05 section 5.6). -/
def Event.camp (e : Event) (i : Slot) (t : Target) : Event :=
  if (e.st.call i).state = .free then e
  else
    let e := e.toState i .camped
    let e := e.updCall i fun c => { c with target := some t }
    let e := e.updLamp t.circuit fun q => { q with camp := q.camp ++ [i] }
    e.startTimer i .camp (e.st.part (e.st.call i).partition).campRecall

end Sys2Proof.Machine
end

