-- ==== Sys2Proof/Machine/Estimator.lean ====
section
/-! DEFINITION. The Pace Estimator (03_the_pace_estimator.md). -/

namespace Sys2Proof.Machine

/-- The period of the counter at a range, in units of 10 ms (R49). -/
def periodAt (range : Nat) : Nat := 2 ^ range

/-- The counter starts when a member joins an empty roster (R49). -/
def Estimator.begin (t : Estimator) : Estimator :=
  { t with counter := 0, stall := false, period := some (periodAt t.range) }

/-- The counter stops when the roster becomes empty without an answer (R53). -/
def Estimator.stop (t : Estimator) : Estimator := { t with counter := 0, stall := false, period := none }

/-- The downshift of a capture (R52, step 4). -/
def Estimator.downshift (t : Estimator) : Estimator :=
  if t.new < 64 ∧ 0 < t.range then
    { t with range := t.range - 1, new := min 255 (2 * t.new), old := min 255 (2 * t.old) }
  else t

/-- A capture (R52); `members` says that the roster still has members. -/
def Estimator.capture (t : Estimator) (members : Bool) : Estimator :=
  let t := Estimator.downshift { t with old := t.new, new := t.counter, counter := 0, stall := false }
  { t with period := if members then some (periodAt t.range) else none }

/-- The rescale of an advance that reached 255 below range 7 (R50). -/
def Estimator.rescale (t : Estimator) : Estimator :=
  { t with range := t.range + 1, counter := 127, new := t.new / 2, old := t.old / 2,
           period := some (periodAt (t.range + 1)) }

/-- An advance of a running counter (R50, R51). -/
def Estimator.advance (t : Estimator) : Estimator :=
  if t.stall then { t with period := some (periodAt t.range) }
  else if t.counter + 1 < 255 then { t with counter := t.counter + 1, period := some (periodAt t.range) }
  else if t.range < 7 then t.rescale
  else { t with counter := 255, stall := true, period := some (periodAt t.range) }

/-- The load of a seed (R59); a running counter keeps running and its period restarts. -/
def Estimator.seed (t : Estimator) (range spacing : Nat) : Estimator :=
  { t with range := range, new := spacing, old := spacing, counter := 0, stall := false,
           period := t.period.map fun _ => periodAt range }

/-- The spacing an estimate uses (R54). -/
def Estimator.spacing (t : Estimator) (b : Basis) : Nat :=
  match b with | .newer => t.new | .older => t.old | .mean => (t.new + t.old) / 2

/-- The quotient of the estimate for a roster place before it is clamped (R55). -/
def Estimator.quotient (t : Estimator) (weight : Nat) (b : Basis) (place : Nat) : Nat :=
  weight * place * t.spacing b * 2 ^ t.range / 3200

/-- The estimate for a roster place in seconds, at most 999 (R55). -/
def Estimator.estimate (t : Estimator) (weight : Nat) (b : Basis) (place : Nat) : Nat :=
  min 999 (t.quotient weight b place)

/-- The partition's estimate for a roster place (R55, R58). -/
def State.estimate (s : State) (p : Part) (place : Nat) : Nat :=
  (s.prt p).est.estimate (s.part p).weight (s.part p).basis place

/-- The estimate for a roster place is clamped (R55). -/
def State.clamps (s : State) (p : Part) (place : Nat) : Bool :=
  decide (999 < (s.prt p).est.quotient (s.part p).weight (s.part p).basis place)

/-- A member's part in a pass: the estimate of a QUEUED member is written at its place (R57). -/
def Event.passMember (p : Part) (e : Event) (i : Slot) : Event :=
  let c := e.st.call i
  match c.state, c.place with
  | .queued, some n => e.updCall i fun c => { c with estimate := some (e.st.estimate p n) }
  | _, _ => e

/-- A QUEUED member whose estimate is clamped (R56). -/
def State.memberClamps (s : State) (p : Part) (i : Slot) : Bool :=
  match (s.call i).state, (s.call i).place with
  | .queued, some n => s.clamps p n
  | _, _ => false

/-- A pass of estimates over a partition's roster, and the estimate-clamped mark (R56, R57). -/
def Event.pass (e : Event) (p : Part) : Event :=
  let roster := (e.st.prt p).roster
  let mark := roster.any (e.st.memberClamps p)
  let e := roster.foldl (Event.passMember p) e
  e.updPrt p fun q => { q with est := { q.est with clamped := mark } }

/-- The passes of an event, for the partitions that want one (R57). -/
def Event.runPasses (e : Event) : Event :=
  (List.finRange 4).foldl (fun e p => if e.passes.get p then e.pass p else e) e

end Sys2Proof.Machine
end

