-- ==== Sys2Proof/Machine/Roster.lean ====
section
/-! DEFINITION. The roster, its distribution and the ends of offers (02_rosters_distribution_and_admission.md). -/

namespace Sys2Proof.Machine

/-- The alert test of a partition (R43). -/
def Event.alertTest (e : Event) (p : Part) : Event :=
  let level := (e.st.part p).alertLevel
  let q := e.st.prt p
  if level ≠ 0 ∧ level ≤ q.roster.length then
    if q.alert then e else (e.updPrt p fun q => { q with alert := true }).upd fun s => s.raise .alert
  else e.updPrt p fun q => { q with alert := false }

/-- The members' roster places are rewritten, head first, from a first place (R24). -/
def Event.renumberFrom (e : Event) (n : Nat) : List Slot → Event
  | [] => e
  | i :: is => (e.updCall i fun c => { c with place := some n }).renumberFrom (n + 1) is

/-- The members' roster places are rewritten (R24). -/
def Event.renumber (e : Event) (p : Part) : Event := e.renumberFrom 1 (e.st.prt p).roster

/-- The position's offer is cleared, if it is of this call (R27). -/
def Event.clearOffer (e : Event) (i : Slot) : Event :=
  match (e.st.call i).position with
  | some p => if (e.st.pos p).offered = some i then e.updPos p fun q => { q with offered := none } else e
  | none => e

/-- A member leaves its roster (R27); `answered` says that the leave is by answer, a capture (R39, R52, R53). The
call's state is changed by the causing rule. -/
def Event.leaveRoster (e : Event) (i : Slot) (answered : Bool) : Event :=
  let c := e.st.call i
  let p := c.partition
  if (e.st.prt p).roster.contains i then
    let e := if c.state = .offered then e.clearOffer i else e
    let e := e.updPrt p fun q => { q with roster := q.roster.filter (· != i) }
    let e := e.renumber p
    let e := e.updCall i fun c => { c with place := none, waitDeadline := none, expiryHeld := false }
    let left := !(e.st.prt p).roster.isEmpty
    let e :=
      if answered then e.updPrt p fun q => { q with est := q.est.capture left }
      else if left then e
      else e.updPrt p fun q => { q with est := q.est.stop }
    (e.rosterMoved p).alertTest p
  else e

/-- Insert a RECALL member directly behind the last RECALL member, or at the head when there is none (R26). -/
def insertRecall (isRecall : Slot → Bool) (i : Slot) : List Slot → List Slot
  | [] => [i]
  | j :: js => if (j :: js).any isRecall then j :: insertRecall isRecall i js else i :: j :: js

/-- A call takes its place in its partition's roster as a member of a class and becomes QUEUED (R26, steps 2 to 5). -/
def Event.enterRoster (e : Event) (i : Slot) (cls : CallClass) : Event :=
  let p := (e.st.call i).partition
  if (e.st.call i).state = .free then e
  else
    let roster := (e.st.prt p).roster
    let e := if roster.isEmpty then e.updPrt p fun q => { q with est := q.est.begin } else e
    let members := match cls with
      | .new => roster ++ [i]
      | .recall => insertRecall (fun j => (e.st.call j).cls == .recall) i roster
    let e := e.updPrt p fun q => { q with roster := members }
    let e := e.toState i .queued
    let e := e.updCall i fun c => { c with cls := cls, estimate := none, waitDeadline := none }
    let e := e.renumber p
    let wait := (e.st.part p).waitLimit
    let e := if cls = .new ∧ wait ≠ 0 then
        (e.startTimer i .wait wait).upd fun s =>
          s.setCall i { s.call i with waitDeadline := some (s.seconds + BitVec.ofNat 32 wait) }
      else e
    ((e.rosterMoved p).gain p).alertTest p

/-- An OFFERED call returns to QUEUED in its place: the WAIT timer resumes with the kept wait deadline unless the
expiry is held (R5, R40, R42). The offered slot is cleared by the causing rule. -/
def Event.backToQueue (e : Event) (i : Slot) : Event :=
  let c := e.st.call i
  let e := e.toState i .queued
  let e := match c.waitDeadline with
    | some d => if c.expiryHeld then e else e.updCall i fun c => { c with timer := some (.wait, d) }
    | none => e
  (e.rosterMoved c.partition).gain c.partition

/-- An offer of one QUEUED member to one available position (R38). -/
def Event.offer (e : Event) (i : Slot) (p : Pos) : Event :=
  let part := (e.st.call i).partition
  let e := e.toState i .offered
  let e := e.updCall i fun c => { c with position := some p }
  let e := e.startTimer i .offer (e.st.part part).offerTimeout
  (e.updPos p fun q => { q with offered := some i }).rosterMoved part

/-- The position belongs to the partition and is available (R35). -/
def State.availableIn (s : State) (p : Part) (x : Pos) : Bool := (s.pos x).partition == some p && (s.pos x).available

/-- Step A for one member: a QUEUED RECALL member is offered to its origin, if that is available and a member position
of the partition (R36). -/
def Event.stepA (p : Part) (e : Event) (i : Slot) : Event :=
  let c := e.st.call i
  match c.origin with
  | some o => if c.state = .queued ∧ c.cls = .recall ∧ e.st.availableIn p o then e.offer i o else e
  | none => e

/-- The available position of a partition with the earliest idle-since, the lower number first (R37). -/
def State.longestIdle (s : State) (p : Part) : Option Pos :=
  (List.finRange 8).foldl (fun best x =>
    if s.availableIn p x then
      match best with
      | some b => if (s.pos x).idleSince < (s.pos b).idleSince then some x else some b
      | none => some x
    else best) none

/-- The first QUEUED member in roster order (R37). -/
def State.firstQueued (s : State) (p : Part) : Option Slot :=
  (s.prt p).roster.find? fun i => (s.call i).state == .queued

/-- Step B, at most `n` offers (R37). -/
def Event.stepB (e : Event) (p : Part) : Nat → Event
  | 0 => e
  | n + 1 =>
    match e.st.firstQueued p, e.st.longestIdle p with
    | some i, some x => (e.offer i x).stepB p n
    | _, _ => e

/-- A run of a partition's distribution arbiter (R35 to R37). There are 8 positions, so 8 offers are enough. -/
def Event.arbiter (e : Event) (p : Part) : Event := ((e.st.prt p).roster.foldl (Event.stepA p) e).stepB p 8

/-- The test of R68 at the end of an event: a position that has become available gets idle-since now, unless its offer
was withdrawn because its partition went to NIGHT, and its partition's arbiter is to run (R69). -/
def Event.testPosition (e : Event) (x : Pos) : Event :=
  if (e.st.pos x).available && !(e.start.pos x).available then
    let e := if e.keepIdle.contains x then e else e.upd fun s => s.setPos x { s.pos x with idleSince := s.seconds }
    match (e.st.pos x).partition with
    | some p => e.gain p
    | none => e
  else e

/-- The tests of R68, all positions. -/
def Event.testPositions (e : Event) : Event := (List.finRange 8).foldl Event.testPosition e

/-- The arbiter runs of an event, one for each partition that needs one (R35). -/
def Event.runArbiters (e : Event) : Event :=
  (List.finRange 4).foldl (fun e p => if e.gained.get p then e.arbiter p else e) e

end Sys2Proof.Machine
end

