-- ==== Sys2Proof/Machine/Calls.lean ====
section
/-! DEFINITION. The Call Store: closing, freeing and path faults (01_call_slots_and_the_call_board.md), and the camp
ring of R99. -/

namespace Sys2Proof.Machine

/-- The teardown orders of a call closed from a state (R16); `s` is the state whose panels name the headset. -/
def teardown (s : State) (c : Call) : List ShelfOrder :=
  let quiet := [ShelfOrder.tone c.caller .quiet]
  match c.state with
  | .queued => quiet
  | .offered => quiet
  | .talking =>
    if c.extend.isSome then withTarget c .unring ++ quiet else withHeadset (s.headsetOf c) (.part c.caller)
  | .held => quiet
  | .consultRinging => withTarget c .unring ++ headsetTarget s c .part ++ quiet
  | .consultTalking => headsetTarget s c .part ++ quiet
  | .ringingOut => withTarget c .unring ++ quiet
  | .camped => quiet
  | .announced => match c.announcer with | some a => [.part c.caller a] | none => []
  | .free => []
  | .closing => []

/-- The end reasons after whose teardown the caller is dropped (R17). -/
def EndReason.drops : EndReason → Bool
  | .attendantDisconnect | .unanswered | .pathFault | .shelfLost => true
  | _ => false

/-- The end reasons whose closing has teardown orders (R16, R17, R22, R23). -/
def EndReason.tearsDown : EndReason → Bool
  | .delivered | .bypass | .reset => false
  | _ => true

/-- A call in CLOSING with nothing pending is freed: FREE under R7, its slot at the tail of the free list (R19). -/
def Event.freeSlot (e : Event) (i : Slot) : Event :=
  let c := e.st.call i
  if c.state = .closing ∧ c.pending = 0 then
    let e := e.letGo c
    { e.upd (fun s => (s.setCall i (c.enter .free s.seconds)).setFree (s.free ++ [i])) with changed := e.changed ++ [i] }
  else e

/-- Free the slot unless a refusal of this event is still to be taken by it (R15, R130). -/
def Event.freeIfDone (e : Event) (i : Slot) : Event :=
  if e.refusals.any (·.slot == i) then e else e.freeSlot i

/-- A closing call is removed from every place it sits (R15, step 1; R102). -/
def Event.removeCall (e : Event) (i : Slot) : Event :=
  let c := e.st.call i
  match c.state with
  | .queued => e.leaveRoster i false
  | .offered => e.leaveRoster i false
  | .talking => e.leaveLoop i
  | .held => e.leaveLoop i
  | .consultRinging => e.leaveLoop i
  | .consultTalking => e.leaveLoop i
  | .camped =>
    let e := e.leaveCamp i
    if c.ringPending then e.issueTeardown i (withTarget c .unring) else e
  | _ => e

/-- A call enters CLOSING (R15 to R17). `moved` says that a causing rule has issued orders of its own or moved the call
in this event: the teardown is then formed from the call as the event found it and omits what the event has issued or
withheld. -/
def Event.close (e : Event) (i : Slot) (why : EndReason) (moved : Bool) : Event :=
  let c := e.st.call i
  if c.state = .free ∨ c.state = .closing then e
  else
    let orders := if moved then teardown e.start (e.start.call i) else teardown e.st c
    let done := if moved then (e.log.filter (·.1 == i)).map (·.2) else []
    let orders := orders.filter fun o =>
      !(done.contains o) && !(why == .congestion && o == .tone c.caller .quiet)
    let e := e.removeCall i
    let e := e.answerExtendOf i (if why = .callerCleared then .callerGone else .outOfService)
    let e := (e.toState i .closing).updCall i fun c => { c with endReason := some why }
    let e := if why.tearsDown then e.issueTeardown i orders else e
    let e := if why.drops && !(done.contains (.drop c.caller)) then e.issueTeardown i [.drop c.caller] else e
    e.freeIfDone i

/-- A path fault (R14). -/
def Event.pathFault (e : Event) (i : Slot) : Event := e.close i .pathFault false

/-- The hand-over join has failed: the end reason becomes PATH_FAULT and the caller is dropped (R18). -/
def Event.handoverFailed (e : Event) (i : Slot) : Event :=
  let e := e.updCall i fun c => { c with endReason := some .pathFault }
  e.issueTeardown i [.drop (e.st.call i).caller]

/-- A LOST failure only lowers the count when the order's first circuit is OUT_OF_SERVICE (R14). -/
def State.lostIsFault (s : State) (o : ShelfOrder) : Bool := (s.lamp o.first).line != .outOfService

/-- A refusal or failure at issue goes back to its slot (R14, R18, R130). -/
def Event.takeRefusal (e : Event) (r : Refused) : Event :=
  let c := e.st.call r.slot
  match c.state with
  | .free => e
  | .closing => if r.handover then e.handoverFailed r.slot else e
  | _ => if r.lost && !(e.st.lostIsFault r.order) then e else e.pathFault r.slot

/-- The refusals of an event reach their slots in the order their orders were issued; then a closing slot with nothing
pending is freed (R130). In which order several slots so freed join the free list is open, and the model's choice: a slot
that a refusal has sent to CLOSING is freed at once, in the order of the refusals; one that was CLOSING before, when all
refusals have been taken (DESIGN CHOICE, notes/assumptions/27.md). -/
def Event.takeRefusals (e : Event) : Event :=
  let rs := e.refusals
  let e := rs.foldl Event.takeRefusal { e with refusals := [] }
  rs.foldl (fun e r => e.freeIfDone r.slot) e

/-- Ring for the head of a circuit's camp list: the head's ring pending mark is clear and the circuit is the target of
no live call outside the list (R99). -/
def Event.ringHead (e : Event) (k : Circuit) : Event :=
  match (e.st.lamp k).camp with
  | i :: _ =>
    if (e.st.call i).ringPending || e.st.outsideTarget k then e
    else (e.issue i (.ring k)).updCall i fun c => { c with ringPending := true }
  | [] => e

/-- The camp service at the end of an event: each circuit looked at whose line is IDLE (R99), ascending
(notes/assumptions/11.md). -/
def Event.serveCamps (e : Event) : Event :=
  let ks := e.serve
  ((List.finRange 256).filter ks.contains).foldl
    (fun e k => if (e.st.lamp k).line = .idle then e.ringHead k else e) e

/-- Refusals are taken, slots freed and camp lists served until nothing is left (R130, R99). Every round but the last
closes a call, so 80 rounds are enough for 64 slots. -/
def Event.settle (e : Event) : Nat → Event
  | 0 => e
  | n + 1 =>
    let e := e.takeRefusals.serveCamps
    if e.refusals.isEmpty then e else e.settle n

/-! ### The end of an event: tied slots and revisions -/

/-- The tied slots of all circuits (R141): a live call's caller circuit first, else the target a call ties. -/
def State.ties (s : State) : Table (Option Slot) 256 :=
  let targets := allSlots.reverse.foldl (fun t i =>
    match (s.call i).target with
    | some x => if (s.call i).tiesTarget then t.set x.circuit (some i) else t
    | none => t) (.fill none)
  allSlots.reverse.foldl (fun t i => if (s.call i).live then t.set (s.call i).caller (some i) else t) targets

/-- The Circuit Table sets the tied slots (R141). -/
def State.retie (s : State) : State := { s with lamps := .zip (fun t q => { q with tied := t }) s.ties s.lamps }

/-- Two call records publish the same fields (R11). -/
def Call.same (a b : Call) : Bool := { a with rev := 0, written := false } == { b with rev := 0, written := false }
/-- Two panels publish the same fields (R11). -/
def Position.same (a b : Position) : Bool :=
  { a with rev := 0, written := false, extendCell := none } == { b with rev := 0, written := false, extendCell := none }
/-- Two lamp entries publish the same fields (R11, R141). -/
def Lamp.same (a b : Lamp) : Bool :=
  a.kind == b.kind && a.line == b.line && a.partition == b.partition && a.number == b.number && a.tied == b.tied &&
    a.camp.length == b.camp.length
/-- Two links publish the same fields (R11, R123). -/
def Link.same (a b : Link) : Bool :=
  a.state == b.state && a.window == b.window && a.missLimit == b.missLimit && a.shelves == b.shelves
/-- Two partition records publish the same fields of their own (R11, R48, R180): the counter and its period are not
published. -/
def Partition.same (a b : Partition) : Bool :=
  a.mode == b.mode && a.alert == b.alert && a.roster == b.roster && a.est.range == b.est.range &&
    a.est.new == b.est.new && a.est.old == b.est.old && a.est.stall == b.est.stall && a.est.clamped == b.est.clamped

/-- A partition's active settings as its status record publishes them (R106). -/
def State.settings (s : State) (p : Part) : Option PartPlan := s.plan.map fun pl => pl.parts.get p

/-- Which call records an event has changed. -/
def Event.callRaises (e : Event) : Table Bool 64 :=
  .make fun i => e.changed.contains i || !((e.start.call i).same (e.st.call i))
/-- Which panels an event has changed. -/
def Event.posRaises (e : Event) : Table Bool 8 := .make fun p => !((e.start.pos p).same (e.st.pos p))
/-- Which partition status records an event has changed: also by a join, a leave, a move between QUEUED and OFFERED
(R25), a change of the NEW count (R25) or of the active settings (R106). -/
def Event.prtRaises (e : Event) : Table Bool 4 :=
  .make fun p => e.touched.get p || !((e.start.prt p).same (e.st.prt p)) ||
    e.start.newCount p != e.st.newCount p || e.start.settings p != e.st.settings p
/-- Which lamp entries an event has changed. -/
def Event.lampRaises (e : Event) : Table Bool 256 := .zip (fun a b => !(a.same b)) e.start.lamps e.st.lamps
/-- Which link status records an event has changed. -/
def Event.linkRaises (e : Event) : Table Bool 4 := .zip (fun a b => !(a.same b)) e.start.links e.st.links

/-- How many records are marked. -/
def countMarks {n : Nat} (t : Table Bool n) : Nat := t.list.count true

/-- How many records an event has changed. -/
def Event.raises (e : Event) : Nat :=
  countMarks e.callRaises + countMarks e.posRaises + countMarks e.prtRaises + countMarks e.lampRaises +
    countMarks e.linkRaises

/-- The records with their revisions raised (R11). -/
def Event.raiseRecords (e : Event) : State :=
  { e.st with
    calls := .zip (fun m c => if m then { c with rev := c.rev + 1, written := true } else c) e.callRaises e.st.calls,
    positions := .zip (fun m q => if m then { q with rev := q.rev + 1, written := true } else q) e.posRaises e.st.positions,
    parts := .zip (fun m q => if m then { q with rev := q.rev + 1 } else q) e.prtRaises e.st.parts,
    lamps := .zip (fun m q => if m then { q with rev := q.rev + 1 } else q) e.lampRaises e.st.lamps,
    links := .zip (fun m k => if m then { k with rev := k.rev + 1 } else k) e.linkRaises e.st.links }

/-- The board revision rises once for each record changed, and a rise sets the Board flag (R12). -/
def State.bumpBoard (s : State) (n : Nat) : State :=
  if n = 0 then s else ({ s with boardRev := s.boardRev + BitVec.ofNat 16 n }).raise .board

/-- The tied slots are set, and every record the event has changed has its revision raised once (R11, R12, R141). -/
def Event.commit (e : Event) : State :=
  let e := e.upd State.retie
  e.raiseRecords.bumpBoard e.raises

/-- The end of an event: refusals, freed slots and camp service; then availability, the arbiters, the passes of
estimates; then tied slots and revisions (R130, R99, R68, R35, R57, R141, R11). -/
def Event.finish (e : Event) : State := ((e.settle 80).testPositions.runArbiters.runPasses).commit

/-- One event, from its beginning to its end. -/
def runEvent (s : State) (body : Event → Event) : State := (body (Event.begin s)).finish

end Sys2Proof.Machine
end

