-- ==== Sys2Proof/Machine/Routing.lean ====
section
/-! DEFINITION. The Queue Manager's decisions: fallback, roster joins, overflow, withdrawal, night routing, admission,
recall (02_rosters_distribution_and_admission.md; R103). -/

namespace Sys2Proof.Machine

/-- The announcer of a partition that can be joined: named by the plan, its line neither OUT_OF_SERVICE nor UNKNOWN
(R31). -/
def State.announcerOf (s : State) (p : Part) : Option Circuit :=
  (s.part p).announcer.filter fun a => (s.lamp a).line != .outOfService && (s.lamp a).line != .unknown

/-- A call is given congestion tone and closed with end reason CONGESTION (R26, R31, R32); `how` tells how the rule that
sent it here issues its orders to a LOST or ABSENT shelf (R66, R96). -/
def Event.congest (e : Event) (i : Slot) (how : Issue) : Event :=
  (e.issueAll how i [.tone (e.st.call i).caller .congestion]).close i .congestion true

/-- A call goes to the fallback of its partition (R31). -/
def Event.fallback (e : Event) (i : Slot) (how : Issue) : Event :=
  let c := e.st.call i
  match e.st.announcerOf c.partition with
  | some a =>
    let e := e.issueAll how i [.tone c.caller .quiet, .join c.caller a]
    let e := e.toState i .announced
    let e := e.updCall i fun c => { c with announcer := some a }
    e.startTimer i .announce (e.st.part c.partition).announceTime
  | none => e.congest i how

/-- A call placed in a roster hears ringback (R26). -/
def Event.ringback (e : Event) (i : Slot) (how : Issue) : Event :=
  e.issueAll how i [.tone (e.st.call i).caller .ringback]

/-- The join of a call as a class would break R25. -/
def State.rosterFull (s : State) (p : Part) (cls : CallClass) : Bool :=
  (cls == .new && decide ((s.part p).capacity ≤ s.newCount p)) ||
    decide (Config.rosterMax ≤ (s.prt p).roster.length)

/-- A call joins its partition's roster as a class and hears ringback by the rule that asked for the join, or is sent
elsewhere by the checks of R26 (step 1); `how` tells how that rule issues its orders (R66, R96). -/
def Event.joinRoster (e : Event) (i : Slot) (cls : CallClass) (how : Issue) : Event :=
  let p := (e.st.call i).partition
  if !(e.st.part p).enabled then e.congest i how
  else if (e.st.prt p).mode = .night then e.fallback i how
  else if e.st.rosterFull p cls then e.fallback i how
  else (e.enterRoster i cls).ringback i how

/-- A call overflows from its present partition (R30). -/
def Event.overflow (e : Event) (i : Slot) : Event :=
  let p := (e.st.call i).partition
  let e := e.updCall i fun c => { c with overflowed := true }
  match (e.st.part p).overflow with
  | .partition q =>
    if (e.st.prt q).mode = .day ∧ e.st.newCount q < (e.st.part q).capacity then
      (e.updCall i fun c => { c with partition := q }).joinRoster i .new .ordinary
    else e.fallback i .ordinary
  | .fallback => e.fallback i .ordinary

/-- A QUEUED member's wait has run out: it leaves its roster and overflows (R33). -/
def Event.waitOver (e : Event) (i : Slot) : Event := (e.leaveRoster i false).overflow i

/-- An OFFERED call goes back to QUEUED, and a held expiry acts at once (R34, R40, R42). -/
def Event.returnCall (e : Event) (i : Slot) : Event :=
  let held := (e.st.call i).expiryHeld
  let e := e.backToQueue i
  if held then e.waitOver i else e

/-- A position's offer is withdrawn (R42). -/
def Event.withdraw (e : Event) (p : Pos) : Event :=
  match (e.st.pos p).offered with
  | some i => (e.updPos p fun q => { q with offered := none }).returnCall i
  | none => e

/-- The offer of an OFFERED call is withdrawn because its partition goes to NIGHT: a held expiry does not act, and the
position keeps its idle-since (R34, R42, R46, R69). -/
def Event.withdrawForNight (e : Event) (i : Slot) : Event :=
  match (e.st.call i).position with
  | some p =>
    let e := { e with keepIdle := e.keepIdle ++ [p] }
    (e.updPos p fun q => { q with offered := none }).backToQueue i
  | none => e.backToQueue i

/-- Night routing of one call (R44). A night destination that is in no directory map is out of reach. -/
def Event.nightRoute (e : Event) (i : Slot) : Event :=
  let e := e.updCall i fun c => { c with origin := none }
  let c := e.st.call i
  let number := (e.st.part c.partition).night
  match e.st.lookup number with
  | none => e.fallback i .ordinary
  | some k =>
    match e.st.reach k with
    | .free =>
      let e := e.issueList i [.ring k, .tone c.caller .ringback]
      (e.toState i .ringingOut).updCall i fun c => { c with target := some { number := number, circuit := k } }
    | .busy =>
      if e.st.campRoom k then
        (e.camp i { number := number, circuit := k }).issue i (.tone c.caller .hold)
      else e.fallback i .ordinary
    | .outOfReach => e.fallback i .ordinary

/-- One member of a roster that is rerouted to night (R46). -/
def Event.rerouteMember (e : Event) (i : Slot) : Event :=
  let e := if (e.st.call i).state = .offered then e.withdrawForNight i else e
  (e.leaveRoster i false).nightRoute i

/-- A partition goes to NIGHT: its mode changes and its whole roster is rerouted, head first (R46, R117). -/
def Event.goNight (e : Event) (p : Part) : Event :=
  let members := (e.st.prt p).roster
  members.foldl Event.rerouteMember (e.updPrt p fun q => { q with mode := .night })

/-- A partition goes to DAY; no call moves (R117). -/
def Event.goDay (e : Event) (p : Part) : Event := e.updPrt p fun q => { q with mode := .day }

/-- A call is sent to recall by the Transfer Unit (R103); it has left its camp list or stands in RINGING_OUT. -/
def Event.recall (e : Event) (i : Slot) (how : Issue) : Event :=
  if (e.st.call i).origin.isSome then e.joinRoster i .recall how else e.fallback i how

/-! ### Arrivals -/

/-- A SEIZE with the attendant flag, as the shelf reported it (R127). -/
structure Arrival where
  caller : List (Fin 10)
  called : Option Word
  deriving DecidableEq, Repr

/-- The record of a slot as allocation prepares it (R1, R2, R9); its state is the one admission chooses, so it stands
as QUEUED here until the same event moves it on. -/
def Call.allocate (c : Call) (k : Circuit) (kind : LineKind) (p : Part) (a : Arrival) (now : Seconds) : Call :=
  { Call.blank with
    state := .queued, rev := c.rev, written := c.written, partition := p, caller := k, callerDigits := a.caller,
    entered := now,
    cause := if kind = .trunk then (if a.called.isSome then .unansweredDial else .trunk) else .dialAttendant,
    called := if kind = .trunk then a.called else none }

/-- The first case of admission that applies (R29). -/
inductive Admission where | night | overflow | join deriving DecidableEq, Repr

/-- R29. -/
def State.admission (s : State) (p : Part) : Admission :=
  let pp := s.part p
  if (s.prt p).mode = .night then .night
  else if s.newCount p = pp.capacity then .overflow
  else if pp.overflowLimit ≠ 0 ∧ pp.overflowLimit < s.estimate p ((s.prt p).roster.length + 1) then .overflow
  else .join

/-- Admission of an allocated call (R29). -/
def Event.seekPlace (e : Event) (i : Slot) : Event :=
  match e.st.admission (e.st.call i).partition with
  | .night => e.nightRoute i
  | .overflow => e.overflow i
  | .join => e.joinRoster i .new .ordinary

/-- The partition of an arrival that is taken for admission (R28), none when it is ignored. -/
def State.admits (s : State) (k : Circuit) : Option Part :=
  let d := s.dir k
  if s.engine = .serving ∧ (d.kind = .trunk ∨ d.kind = .extension) ∧ (s.callerOf k).isNone then
    d.partition.filter fun p => (s.part p).enabled
  else none

/-- The head of the free list is allocated to an arrival (R9). -/
def Event.allocate (e : Event) (i : Slot) (k : Circuit) (p : Part) (a : Arrival) : Event :=
  let kind := (e.st.dir k).kind
  { e.upd (fun s => (s.setCall i ((s.call i).allocate k kind p a s.seconds)).setFree s.free.tail) with
    changed := e.changed ++ [i] }

/-- An arrival (R9, R10, R28). -/
def Event.arrive (e : Event) (k : Circuit) (a : Arrival) : Event :=
  match e.st.admits k with
  | none => e
  | some p =>
    match e.st.free with
    | [] => e.issueAs .ordinary none (.tone k .congestion) false
    | i :: _ => (e.allocate i k p a).seekPlace i

/-! ### The timers of the Queue Manager -/

/-- The OFFER timer of a call has expired (R40, R41): the offered slot is cleared, the miss counted, idle-since set and
after two misses in a row the position paused; the call returns to QUEUED or its held expiry acts. -/
def Event.offerExpired (e : Event) (i : Slot) : Event :=
  match (e.st.call i).position with
  | some p =>
    let now := e.st.seconds
    let e := e.updPos p fun q =>
      { q with offered := none, missed := q.missed + 1, idleSince := now,
               pause := if 2 ≤ q.missed + 1 then some .missed else q.pause }
    e.returnCall i
  | none => e.returnCall i

/-- The ANNOUNCE timer of a call has expired (R32). -/
def Event.announceOver (e : Event) (i : Slot) : Event :=
  let e := e.updCall i fun c => { c with timer := none }
  let c := e.st.call i
  let p := c.partition
  let leave : List ShelfOrder := match c.announcer with | some a => [.part c.caller a] | none => []
  if !(e.st.part p).enabled then e.congest i .ordinary
  else if (e.st.prt p).mode = .night then (e.issue i (.drop c.caller)).close i .unanswered true
  else if e.st.newCount p < (e.st.part p).capacity then
    ((e.issueList i leave).updCall i fun c => { c with overflowed := true }).joinRoster i .new .ordinary
  else (e.issueList i leave).congest i .ordinary

end Sys2Proof.Machine
end

