-- ==== Sys2Proof/Machine/Positions.lean ====
section
/-! DEFINITION. The Position Unit: the attendant's orders, loops, roles (04_attendant_positions_and_loops.md). An order's
owner answers with the event as the order leaves it and, when the order finishes when taken, its result (R163). -/

namespace Sys2Proof.Machine

/-- What an owner makes of an order: the event, and the result when the order finishes when taken. -/
abbrev Owned := Event × Option (ResultCode × Word)

/-- An order refused by its owner: answered with the code, nothing else done (R63). -/
def Event.deny (e : Event) (code : ResultCode) : Owned := (e, some (code, 0))

/-- An order carried out and answered OK (R63). -/
def Event.grant (e : Event) : Owned := (e, some (.ok, 0))

/-! ### Roles -/

/-- No position holds the role (R79). -/
def State.vacant (s : State) (r : Role) : Bool := (List.finRange 8).all fun p => (s.pos p).role != r

/-- A vacant role is filled by its named holder, if that is OPEN and holds no role (R79). -/
def Event.fillRole (e : Event) (r : Role) (holder : Option Pos) : Event :=
  match holder with
  | some p =>
    if e.st.vacant r && (e.st.pos p).isOpen && (e.st.pos p).role == .none then e.updPos p fun q => { q with role := r }
    else e
  | none => e

/-- Vacant roles are filled, the chief role first (R79). -/
def Event.fillRoles (e : Event) : Event :=
  match e.st.plan with
  | some pl => (e.fillRole .chief pl.chief).fillRole .deputy pl.deputy
  | none => e

/-- The position that holds a role. -/
def State.holderOf (s : State) (r : Role) : Option Pos := (List.finRange 8).find? fun p => (s.pos p).role == r

/-- The role of a closing position is passed on or falls vacant, and vacant roles are filled (R80). -/
def Event.closeRole (e : Event) (p : Pos) : Event :=
  let e' := e.updPos p fun q => { q with role := .none }
  match (e.st.pos p).role with
  | .chief =>
    match e.st.holderOf .deputy with
    | some d => (e'.updPos d fun q => { q with role := .chief }).fillRoles
    | none => e'.fillRoles
  | .deputy => e'.fillRoles
  | .none => e'.fillRoles

/-- The position holds the chief role (R82). -/
def State.hasAuthority (s : State) (p : Option Pos) : Bool :=
  match p with | some x => (s.pos x).role == .chief | none => false

/-! ### Signing on -/

/-- Auto night at an opening: a partition in NIGHT with auto night goes to DAY (R120). -/
def Event.reportOpening (e : Event) (p : Pos) : Event :=
  match (e.st.pos p).partition with
  | some q => if (e.st.part q).autoNight ∧ (e.st.prt q).mode = .night then e.goDay q else e
  | none => e

/-- The line of the position's headset circuit is neither OUT_OF_SERVICE nor UNKNOWN (R63). -/
def State.headsetServes (s : State) (p : Pos) : Bool :=
  match (s.pos p).headset with
  | some h => (s.lamp h).line != .outOfService && (s.lamp h).line != .unknown
  | none => false

/-- OPEN (R63, R64). -/
def Event.ownOpen (e : Event) (p : Pos) : Owned :=
  let q := e.st.pos p
  if q.isOpen then e.deny .alreadyOpen
  else if q.partition.isNone then e.deny .badPosition
  else if !e.st.headsetServes p then e.deny .outOfService
  else
    let e := e.updPos p fun q => { q with isOpen := true, pause := none, missed := 0 }
    (e.fillRoles.reportOpening p).grant

/-! ### Signing off -/

/-- The orders that undo a call's legs at a closing position (R66). -/
def legOrders (s : State) (c : Call) : List ShelfOrder :=
  match c.state with
  | .talking => if c.extend.isSome then withTarget c .unring else withHeadset (s.headsetOf c) (.part c.caller)
  | .consultRinging => withTarget c .unring ++ headsetTarget s c .part
  | .consultTalking => headsetTarget s c .part
  | _ => []

/-- Issue the leg orders, withholding those that name the headset when it has been lost (R66, R78). -/
def Event.issueLegs (e : Event) (i : Slot) (lost : Option Circuit) (os : List ShelfOrder) : Event :=
  os.foldl (fun e o =>
    match lost with
    | some h => if o.names h then e.note (some i) o else e.issueAs .spared (some i) o false
    | none => e.issueAs .spared (some i) o false) e

/-- A forced close takes the call of one loop back to the roster (R66); `lost` is the headset circuit whose orders are
withheld (R78). -/
def Event.forceLoop (p : Pos) (lost : Option Circuit) (e : Event) (l : LoopIx) : Event :=
  match (e.st.pos p).loops.get l with
  | some i =>
    let c := e.st.call i
    let orders := legOrders e.st c
    let e := e.answerExtendOf i .cancelled
    let e := e.issueLegs i lost orders
    let e := (e.leaveLoop i).updCall i fun c => { c with origin := none }
    e.joinRoster i .recall .spared
  | none => e

/-- Auto night at a closing (R119). -/
def Event.reportClosing (e : Event) (part : Option Part) : Event :=
  match part with
  | some q =>
    if (e.st.part q).autoNight ∧ (e.st.prt q).mode = .day ∧
        (List.finRange 8).all (fun x => !((e.st.pos x).partition == some q && (e.st.pos x).isOpen)) then e.goNight q
    else e
  | none => e

/-- The steps of a close (R65), by order, by headset loss (R78) or at an activation (R81). -/
def Event.closePosition (e : Event) (p : Pos) (lost : Option Circuit) : Event :=
  let e := e.withdraw p
  let e := (List.finRange 4).foldl (Event.forceLoop p lost) e
  let e := e.updPos p fun q =>
    { q with isOpen := false, pause := none, missed := 0, speaking := none, loops := .fill none, flash := .fill false }
  (e.closeRole p).reportClosing (e.st.pos p).partition

/-- CLOSE (R63, R65); the byte is the force flag. -/
def Event.ownClose (e : Event) (p : Pos) (force : Byte) : Owned :=
  let q := e.st.pos p
  if !q.isOpen then e.deny .notOpen
  else if force = 0 ∧ q.loops.list.any (·.isSome) then e.deny .loopsInUse
  else (e.closePosition p none).grant

/-- The headset circuit of an OPEN position has gone OUT_OF_SERVICE (R78). -/
def Event.headsetLost (e : Event) (k : Circuit) : Event :=
  (List.finRange 8).foldl (fun e p =>
    if (e.st.pos p).isOpen && (e.st.pos p).headset == some k then e.closePosition p (some k) else e) e

/-! ### Pause, answer, pick -/

/-- PAUSE (R63, R67). -/
def Event.ownPause (e : Event) (p : Pos) (on : Byte) : Owned :=
  if !(e.st.pos p).isOpen then e.deny .notOpen
  else if on = 0 then (e.updPos p fun q => { q with pause := none, missed := 0 }).grant
  else ((e.updPos p fun q => { q with pause := some .order }).withdraw p).grant

/-- A call answered or picked goes onto a loop as the speaking loop: JOIN of caller and headset, then TONE QUIET
(R71, R72). -/
def Event.speak (e : Event) (i : Slot) (p : Pos) (l : LoopIx) : Event :=
  let e := e.placeOnLoop i p l
  let c := e.st.call i
  e.issueList i (withHeadset (e.st.pos p).headset (.join c.caller) ++ [.tone c.caller .quiet])

/-- ANSWER (R63, R71). The offer was made while a loop was empty, so one is found. -/
def Event.ownAnswer (e : Event) (p : Pos) : Owned :=
  let q := e.st.pos p
  if !q.isOpen then e.deny .notOpen
  else
    match q.offered, q.emptyLoop with
    | none, _ => e.deny .noOffer
    | some _, none => e.deny .noLoop
    | some i, some l =>
      let e := e.leaveRoster i true
      let e := e.updPos p fun q => { q with offered := none, missed := 0 }
      (e.speak i p l).grant

/-- The slot a PICK names holds a QUEUED call of the position's partition (R63). -/
def State.pickable (s : State) (p : Pos) (slot : Byte) : Option Slot :=
  if h : slot.toNat < 64 then
    let i : Slot := ⟨slot.toNat, h⟩
    if (s.call i).state = .queued ∧ (s.pos p).partition = some (s.call i).partition then some i else none
  else none

/-- PICK (R63, R72). -/
def Event.ownPick (e : Event) (p : Pos) (slot : Byte) : Owned :=
  let q := e.st.pos p
  if !q.isOpen then e.deny .notOpen
  else if q.extend.isSome then e.deny .inProgress
  else if q.speaking.isSome then e.deny .speaking
  else
    match q.emptyLoop, e.st.pickable p slot with
    | none, _ => e.deny .noLoop
    | some _, none => e.deny .wrongState
    | some l, some i => (((e.withdraw p).leaveRoster i true).speak i p l).grant

/-! ### Hold, retrieve, disconnect -/

/-- HOLD (R63, R73). -/
def Event.ownHold (e : Event) (p : Pos) : Owned :=
  let q := e.st.pos p
  if !q.isOpen then e.deny .notOpen
  else if q.extend.isSome then e.deny .inProgress
  else
    match q.speakingCall with
    | none => e.deny .noCall
    | some i =>
      let c := e.st.call i
      if c.state ≠ .talking then e.deny .wrongState
      else
        let e := e.issueList i (withHeadset q.headset (.part c.caller) ++ [.tone c.caller .hold])
        let e := e.toState i .held
        let e := e.updPos p fun q => { q with speaking := none }
        let length := (e.st.part c.partition).holdRecall
        (if length = 0 then e else e.startTimer i .hold1 length).grant

/-- The HELD call on a loop. -/
def State.heldOn (s : State) (p : Pos) (l : LoopIx) : Option Slot :=
  ((s.pos p).loops.get l).filter fun i => (s.call i).state == .held

/-- RETRIEVE (R63, R74). -/
def Event.ownRetrieve (e : Event) (p : Pos) (loop : Byte) : Owned :=
  let q := e.st.pos p
  if !q.isOpen then e.deny .notOpen
  else if q.extend.isSome then e.deny .inProgress
  else if h : loop.toNat < 4 then
    let l : LoopIx := ⟨loop.toNat, h⟩
    if q.speaking.isSome then e.deny .speaking
    else
      match e.st.heldOn p l with
      | none => e.deny .noCall
      | some i =>
        let e := e.withdraw p
        let c := e.st.call i
        let e := e.issueList i (withHeadset q.headset (.join c.caller) ++ [.tone c.caller .quiet])
        let e := e.toState i .talking
        (e.updPos p fun q => { q with flash := q.flash.set l false, speaking := some l }).grant
  else e.deny .noLoop

/-- DISCONNECT (R63, R77). -/
def Event.ownDisconnect (e : Event) (p : Pos) : Owned :=
  let q := e.st.pos p
  if !q.isOpen then e.deny .notOpen
  else if q.extend.isSome then e.deny .inProgress
  else
    match q.speakingCall with
    | none => e.deny .noCall
    | some i => (e.close i .attendantDisconnect false).grant

/-! ### Hold recall -/

/-- The HOLD1 timer of a HELD call has expired (R75). -/
def Event.hold1Over (e : Event) (i : Slot) : Event :=
  let e := e.updCall i fun c => { c with timer := none }
  let c := e.st.call i
  let e := match c.position, c.loop with
    | some p, some l => e.updPos p fun q => { q with flash := q.flash.set l true }
    | _, _ => e
  let length := (e.st.part c.partition).holdRecall
  if length = 0 then e else e.startTimer i .hold2 length

/-- The HOLD2 timer of a HELD call has expired (R76). -/
def Event.hold2Over (e : Event) (i : Slot) : Event := (e.leaveLoop i).joinRoster i .recall .ordinary

end Sys2Proof.Machine
end

