-- ==== Sys2Proof/Machine/Transfer.lean ====
section
/-! DEFINITION. The Transfer Unit: extending, ring outcomes, target events, ring counting, camp expiry
(05_extending_camp_on_and_recall.md, R45). -/

namespace Sys2Proof.Machine

/-- JOIN of caller and headset, then TONE QUIET: the caller is given back to the attendant (R89, R91, R93, R95, R96,
R98). -/
def backOrders (s : State) (c : Call) : List ShelfOrder :=
  withHeadset (s.headsetOf c) (.join c.caller) ++ [.tone c.caller .quiet]

/-- A consulting call becomes TALKING on its loop with its target absent (R89, R93, R95, R96, R98). -/
def Event.backToTalk (e : Event) (i : Slot) : Event := e.toState i .talking

/-! ### EXTEND -/

/-- The target an EXTEND names, or the code of the first check from NO_SUCH_NUMBER on that fails (R86). -/
def State.extendTarget (s : State) (c : Call) (number : Word) : Except ResultCode Circuit :=
  if 9999 < number.toNat then .error .noSuchNumber
  else
    match s.lookup number with
    | none => .error .noSuchNumber
    | some k =>
      if k = c.caller then .error .sameCircuit
      else if s.reach k = .outOfReach then .error .outOfService
      else .ok k

/-- The EXTEND is in flight: its order number is the call's extend order number and the panel's field (R87). -/
def Event.inFlight (e : Event) (p : Pos) (i : Slot) (cell : CellIx) (number : Word) : Owned :=
  let e := e.updPos p fun q => { q with extend := some number, extendCell := some cell }
  (e.updCall i fun c => { c with extend := some number }, none)

/-- A SCREENED EXTEND that has passed its checks (R88). -/
def Event.screened (e : Event) (p : Pos) (i : Slot) (t : Target) (cell : CellIx) (order : Word) : Owned :=
  let c := e.st.call i
  let h := (e.st.pos p).headset
  if e.st.reach t.circuit = .busy then e.deny .busy
  else
    let e := e.issueList i (withHeadset h (.part c.caller) ++ [.tone c.caller .hold, .ring t.circuit] ++
      withHeadset h fun h => .join h t.circuit)
    let e := e.toState i .consultRinging
    (e.updCall i fun c => { c with target := some t }).inFlight p i cell order

/-- A DIRECT EXTEND that has passed its checks (R90). -/
def Event.direct (e : Event) (p : Pos) (i : Slot) (t : Target) (cell : CellIx) (order : Word) : Owned :=
  let c := e.st.call i
  let h := (e.st.pos p).headset
  if e.st.reach t.circuit = .busy then
    if e.st.campRoom t.circuit then
      let e := e.issueList i (withHeadset h (.part c.caller) ++ [.tone c.caller .hold])
      ((e.leaveLoop i).camp i t, some (.camped, 0))
    else e.deny .campFull
  else
    let e := e.issueList i (withHeadset h (.part c.caller) ++ [.tone c.caller .ringback, .ring t.circuit])
    (e.updCall i fun c => { c with target := some t }).inFlight p i cell order

/-- EXTEND (R86 to R90); the ring-limit mark of the speaking loop's call is cleared whatever the checks say. -/
def Event.ownExtend (e : Event) (p : Pos) (number : Word) (mode : Byte) (cell : CellIx) (order : Word) : Owned :=
  let q := e.st.pos p
  let e := match q.speakingCall with
    | some i => e.updCall i fun c => { c with ringLimit := false }
    | none => e
  if !q.isOpen then e.deny .notOpen
  else if q.extend.isSome then e.deny .inProgress
  else
    match q.speakingCall with
    | none => e.deny .noCall
    | some i =>
      let c := e.st.call i
      if c.state ≠ .talking then e.deny .wrongState
      else
        match e.st.extendTarget c number with
        | .error code => e.deny code
        | .ok k =>
          let t : Target := { number := number, circuit := k }
          if mode = 0 then e.screened p i t cell order else e.direct p i t cell order

/-! ### TRANSFER and CANCEL -/

/-- A call is delivered: the hand-over join is issued and the call closes as DELIVERED (R17, R92, R94). -/
def Event.deliver (e : Event) (i : Slot) : Event :=
  let c := e.st.call i
  let e := match c.target with
    | some t => e.issueAs .ordinary (some i) (.join c.caller t.circuit) true
    | none => e
  e.close i .delivered true

/-- TRANSFER (R92). -/
def Event.ownTransfer (e : Event) (p : Pos) : Owned :=
  let q := e.st.pos p
  if !q.isOpen then e.deny .notOpen
  else
    match q.speakingCall with
    | none => e.deny .noCall
    | some i =>
      let c := e.st.call i
      match c.state with
      | .consultRinging =>
        if c.confirmed then
          let e := e.issueList i (headsetTarget e.st c .part ++ [.tone c.caller .ringback])
          ((e.leaveLoop i).toState i .ringingOut).grant
        else e.deny .inProgress
      | .consultTalking => ((e.issueList i (headsetTarget e.st c .part)).deliver i).grant
      | .talking => if c.extend.isSome then e.deny .inProgress else e.deny .wrongState
      | _ => e.deny .wrongState

/-- CANCEL (R93). -/
def Event.ownCancel (e : Event) (p : Pos) : Owned :=
  let q := e.st.pos p
  if !q.isOpen then e.deny .notOpen
  else
    match q.speakingCall with
    | none => e.deny .noCall
    | some i =>
      let c := e.st.call i
      match c.state with
      | .consultRinging =>
        let e := e.issueList i (withTarget c .unring ++ headsetTarget e.st c .part ++ backOrders e.st c)
        ((e.answerExtendOf i .cancelled).backToTalk i).grant
      | .consultTalking =>
        let e := e.issueList i (headsetTarget e.st c .part ++ backOrders e.st c)
        ((e.answerExtendOf i .cancelled).backToTalk i).grant
      | .talking =>
        if c.extend.isSome then
          let e := e.issueList i (withTarget c .unring ++ backOrders e.st c)
          ((e.answerExtendOf i .cancelled).dropTarget i).grant
        else e.deny .wrongState
      | _ => e.deny .wrongState

/-! ### The current outcome of a ring -/

/-- The outcomes of a RING that the Transfer Unit acts on (R14). -/
inductive RingOutcome where | ack | busy | fault deriving DecidableEq, Repr

/-- A call leaves its loop for RINGING_OUT or CAMPED, keeping its origin; its target stays. -/
def Event.ringOut (e : Event) (i : Slot) : Event :=
  (e.toState i .ringingOut).updCall i fun c => { c with ringCount := 0, confirmed := true }

/-- The current outcome of a SCREENED EXTEND's ring (R89). -/
def Event.screenedRing (e : Event) (i : Slot) (o : RingOutcome) : Event :=
  let c := e.st.call i
  match o with
  | .ack => (e.updCall i fun c => { c with confirmed := true }).answerExtendOf i .ok
  | .busy =>
    let e := e.issueList i (withTarget c .unring ++ headsetTarget e.st c .part ++ backOrders e.st c)
    (e.answerExtendOf i .busy).backToTalk i
  | .fault =>
    let e := e.issueList i (headsetTarget e.st c .part ++ backOrders e.st c)
    (e.answerExtendOf i .outOfService).backToTalk i

/-- The current outcome of a DIRECT EXTEND's ring (R91). -/
def Event.directRing (e : Event) (i : Slot) (k : Circuit) (o : RingOutcome) : Event :=
  let c := e.st.call i
  match o with
  | .ack => ((e.answerExtendOf i .ok).leaveLoop i).ringOut i
  | .busy =>
    if e.st.campRoom k then
      match c.target with
      | some t =>
        let e := e.issue i (.tone c.caller .hold)
        ((e.answerExtendOf i .camped).leaveLoop i).camp i t
      | none => e
    else
      let e := e.issueList i (backOrders e.st c)
      (e.answerExtendOf i .campFull).dropTarget i
  | .fault =>
    let e := e.issueList i (backOrders e.st c)
    (e.answerExtendOf i .outOfService).dropTarget i

/-- The current outcome of a night-routing ring (R45). -/
def Event.nightRing (e : Event) (i : Slot) (k : Circuit) (o : RingOutcome) : Event :=
  let c := e.st.call i
  match o with
  | .ack => e.updCall i fun c => { c with confirmed := true }
  | .busy =>
    if e.st.campRoom k then
      match c.target with
      | some t => (e.camp i t).issue i (.tone c.caller .hold)
      | none => e
    else e.fallback i .ordinary
  | .fault => e.fallback i .ordinary

/-- The current outcome of a camp ring (R100). -/
def Event.campRing (e : Event) (i : Slot) (o : RingOutcome) : Event :=
  let c := e.st.call i
  match o with
  | .ack => ((e.leaveCamp i).issue i (.tone c.caller .ringback)).ringOut i
  | .busy =>
    if c.expiryHeld then (e.leaveCamp i).recall i .ordinary
    else e.updCall i fun c => { c with ringPending := false }
  | .fault => (e.leaveCamp i).recall i .ordinary

/-- The current outcome of a call's ring, by what the call awaits it for (R85, R89, R91, R45, R100). -/
def Event.currentRing (e : Event) (i : Slot) (k : Circuit) (o : RingOutcome) : Event :=
  match (e.st.call i).state with
  | .consultRinging => e.screenedRing i o
  | .talking => e.directRing i k o
  | .ringingOut => e.nightRing i k o
  | .camped => e.campRing i o
  | _ => e

/-- A RING outcome delivered to the Transfer Unit for a call: current when the circuit's ring order count is now 0 and
the call awaits it, else stale (R85). -/
def Event.ringResult (e : Event) (i : Slot) (k : Circuit) (o : RingOutcome) : Event :=
  if e.st.rings.get k = 0 ∧ (e.st.call i).awaits k then e.currentRing i k o else e

/-! ### Events at the target -/

/-- The call that an ANSWER on a circuit is for: the one ringing or consulting it, else the head of its camp list with
its ring pending (R94). -/
def State.answeredCall (s : State) (k : Circuit) : Option Slot :=
  match s.ringerOf k with
  | some i => some i
  | none => (s.lamp k).camp.find? fun i => (s.call i).awaits k

/-- An ANSWER on a target circuit (R94). -/
def Event.targetAnswer (e : Event) (k : Circuit) : Event :=
  match e.st.answeredCall k with
  | none => e
  | some i =>
    let e := if (e.st.call i).awaits k then e.currentRing i k .ack else e
    match (e.st.call i).state with
    | .consultRinging => e.toState i .consultTalking
    | .ringingOut => e.deliver i
    | _ => e

/-- A CLEAR on a target circuit (R95). -/
def Event.targetClear (e : Event) (k : Circuit) : Event :=
  match e.st.ringerOf k with
  | some i =>
    let c := e.st.call i
    if c.state = .consultTalking then
      (e.issueList i (headsetTarget e.st c .part ++ backOrders e.st c)).backToTalk i
    else e
  | none => e

/-- A FAULT at the target of the call that rings or consults it (R96). -/
def Event.ringerFault (e : Event) (i : Slot) (k : Circuit) : Event :=
  let c := e.st.call i
  match c.state with
  | .consultRinging =>
    let e := e.issueSpared i (headsetTarget e.st c .part ++ backOrders e.st c)
    (e.answerExtendOf i .outOfService).backToTalk i
  | .consultTalking => (e.issueSpared i (headsetTarget e.st c .part ++ backOrders e.st c)).backToTalk i
  | .talking =>
    let e := e.issueSpared i (backOrders e.st c)
    (e.answerExtendOf i .outOfService).dropTarget i
  | .ringingOut => (e.note (some i) (.unring k)).recall i .spared
  | _ => e

/-- A target circuit has gone OUT_OF_SERVICE (R96): the call ringing or consulting it, then the camp list, head
first; no order of the rule, nor of the recalls it makes, goes to a LOST or ABSENT shelf. -/
def Event.targetFault (e : Event) (k : Circuit) : Event :=
  let e := match e.st.ringerOf k with
    | some i => e.ringerFault i k
    | none => e
  (e.st.lamp k).camp.foldl (fun e i => (e.leaveCamp i).recall i .spared) e

/-- An IDLE report on an extension circuit whose camp list is not empty (R95, R99, R148). -/
def Event.targetIdle (e : Event) (k : Circuit) : Event :=
  if (e.st.dir k).kind = .extension then e.ringHead k else e

/-! ### Ring counting -/

/-- The ring limit acts on a call (R98). -/
def Event.ringLimitActs (e : Event) (i : Slot) : Event :=
  let c := e.st.call i
  match c.state with
  | .consultRinging =>
    let e := e.issueList i (withTarget c .unring ++ headsetTarget e.st c .part ++ backOrders e.st c)
    (e.backToTalk i).updCall i fun c => { c with ringLimit := true }
  | .ringingOut => (e.issueList i (withTarget c .unring)).recall i .ordinary
  | _ => e

/-- The call's rings are counted (R97). -/
def Call.counts (c : Call) : Bool := (c.state == .consultRinging || c.state == .ringingOut) && c.confirmed

/-- A cadence mark for one call (R97). -/
def Event.markCall (e : Event) (i : Slot) : Event :=
  if (e.st.call i).counts then
    let e := e.updCall i fun c => { c with ringCount := c.ringCount + 1 }
    let c := e.st.call i
    if (e.st.part c.partition).ringLimit ≤ c.ringCount then e.ringLimitActs i else e
  else e

/-- A cadence mark: the ringing calls in ascending slot order (R97). -/
def Event.mark (e : Event) : Event := allSlots.foldl Event.markCall e

/-! ### Camp expiry -/

/-- The CAMP timer of a CAMPED call has expired (R101). -/
def Event.campOver (e : Event) (i : Slot) : Event :=
  let e := e.updCall i fun c => { c with timer := none }
  if (e.st.call i).ringPending then e.updCall i fun c => { c with expiryHeld := true }
  else (e.leaveCamp i).recall i .ordinary

end Sys2Proof.Machine
end

