-- ==== Sys2Proof/Machine/Circuits.lean ====
section
/-! DEFINITION. The Circuit Table: what a report and a ring outcome do to a line, and the call events it raises
(08_circuit_state_and_cadence.md); the outcome of a shelf order (R134). -/

namespace Sys2Proof.Machine

/-! ### Reports -/

/-- The six reports with their contents (R127). -/
inductive ReportKind where
  | seize (attendant : Bool) (arrival : Arrival) | answer | clear | idle | busy | fault
  deriving DecidableEq, Repr

/-- A report of a port (R127). -/
structure Report where
  port : Fin 16
  kind : ReportKind
  deriving DecidableEq, Repr

/-- The line state after a report (R143). -/
def ReportKind.line : ReportKind → LineState
  | .seize _ _ => .busy | .answer => .busy | .clear => .idle | .idle => .idle | .busy => .busy | .fault => .outOfService

/-- Set the line state of a circuit (R143, R136, R114). -/
def Event.setLine (e : Event) (k : Circuit) (l : LineState) : Event := e.updLamp k fun q => { q with line := l }

/-! ### The outcome of an order (R134) -/

/-- The outcomes of an order that entered a queue (R134); `lost unfitted` tells whether the failure comes from the
unfitting of the order's shelf (R14). -/
inductive Outcome where | ack | nakBusy | nakFault | nakRefused | lost (unfitted : Bool) deriving DecidableEq, Repr

/-- The lamp effect of an acknowledged RING or UNRING (R144); an UNRING that sets the line IDLE has the camp list looked
at when the event ends (R99). -/
def Event.ringLamp (e : Event) (o : ShelfOrder) (x : Outcome) : Event :=
  match o, x with
  | .ring k, .ack => if (e.st.lamp k).line = .idle then e.setLine k .ringing else e
  | .unring k, .ack => if (e.st.lamp k).line = .ringing then (e.setLine k .idle).look k else e
  | _, _ => e

/-- The ring order count of a RING's circuit falls (R85). -/
def Event.ringDone (e : Event) (o : ShelfOrder) : Event :=
  match o with
  | .ring k => e.upd fun s => s.setRing k (s.rings.get k - 1)
  | _ => e

/-- What an outcome does to a call that is not in CLOSING (R14). -/
def Event.liveOutcome (e : Event) (i : Slot) (o : ShelfOrder) (x : Outcome) : Event :=
  match x, o with
  | .ack, .ring k => e.ringResult i k .ack
  | .ack, _ => e
  | .nakBusy, .ring k => e.ringResult i k .busy
  | .nakFault, .ring k => e.ringResult i k .fault
  | .lost unfitted, _ => if unfitted || !(e.st.lostIsFault o) then e else e.pathFault i
  | _, _ => e.pathFault i

/-- What an outcome does to its slot (R13, R14, R18, R19). -/
def Event.slotOutcome (e : Event) (i : Slot) (x : Entry) (o : Outcome) : Event :=
  let e := e.updCall i fun c => { c with pending := c.pending - 1 }
  match (e.st.call i).state with
  | .free => e
  | .closing => (if x.handover ∧ o ≠ .ack then e.handoverFailed i else e).freeIfDone i
  | _ => e.liveOutcome i x.order o

/-- The outcome of an order is delivered, its entry having been removed (R134). -/
def Event.outcome (e : Event) (x : Entry) (o : Outcome) : Event :=
  let e := (e.ringLamp x.order o).ringDone x.order
  match x.slot with
  | some i => e.slotOutcome i x o
  | none => e

/-! ### Call events -/

/-- A call event or a failure that a block takes, in an order the world chooses (R136, R145). -/
inductive Delivery where
  | failed (x : Entry)
  | callerFault (k : Circuit) (why : EndReason)
  | targetFault (k : Circuit)
  | headsetFault (k : Circuit)
  | callerClear (k : Circuit)
  | targetClear (k : Circuit)
  deriving DecidableEq, Repr

/-- The Call Store closes the call whose caller circuit has cleared or failed (R20, R21). -/
def Event.callerEnds (e : Event) (k : Circuit) (why : EndReason) : Event :=
  match e.st.callerOf k with
  | some i => e.close i why false
  | none => e

/-- A block takes an event. -/
def Event.take (e : Event) : Delivery → Event
  | .failed x => e.outcome x (.lost false)
  | .callerFault k why => e.callerEnds k why
  | .targetFault k => e.targetFault k
  | .headsetFault k => e.headsetLost k
  | .callerClear k => e.callerEnds k .callerCleared
  | .targetClear k => e.targetClear k

/-- At most `n` events are taken in the order that the world gives: each number of the schedule picks, modulo their
count, one of those that can come next, 0 when the schedule has ended; the failures stay oldest first among themselves
(R136, notes/assumptions/7.md). -/
def Event.takeAll (e : Event) (schedule : List Nat) (failures others : List Delivery) : Nat → Event
  | 0 => e
  | n + 1 =>
    let first := failures.take 1
    let pool := first ++ others
    let k := schedule.headD 0 % pool.length
    match pool[k]? with
    | none => e
    | some d =>
      if k < first.length then (e.take d).takeAll schedule.tail failures.tail others n
      else (e.take d).takeAll schedule.tail failures (others.eraseIdx (k - first.length)) n

/-- The blocks take failures and other events. -/
def Event.deliverAll (e : Event) (schedule : List Nat) (failures others : List Delivery) : Event :=
  e.takeAll schedule failures others (failures.length + others.length)

/-- The circuit is the headset circuit of an OPEN position (R145). -/
def State.isHeadset (s : State) (k : Circuit) : Bool :=
  (List.finRange 8).any fun p => (s.pos p).isOpen && (s.pos p).headset == some k

/-- The FAULT events of a circuit that has become OUT_OF_SERVICE, one for each role it has (R149). -/
def State.faultEvents (s : State) (k : Circuit) (why : EndReason) : List Delivery :=
  (if (s.callerOf k).isSome then [.callerFault k why] else []) ++
  (if s.isTarget k || !(s.lamp k).camp.isEmpty then [.targetFault k] else []) ++
  (if s.isHeadset k then [.headsetFault k] else [])

/-- The events of a CLEAR (R147). -/
def State.clearEvents (s : State) (k : Circuit) : List Delivery :=
  (if (s.callerOf k).isSome then [.callerClear k] else []) ++ (if s.isTarget k then [.targetClear k] else [])

/-- A report is taken: the line state is set, then the report is dispatched (R143, R145 to R149). -/
def Event.report (e : Event) (k : Circuit) (r : ReportKind) (schedule : List Nat) : Event :=
  let before := (e.st.lamp k).line
  let e := e.setLine k r.line
  match r with
  | .seize attendant a => if attendant then e.arrive k a else e
  | .answer => e.targetAnswer k
  | .clear => e.deliverAll schedule [] (e.st.clearEvents k)
  | .idle => e.targetIdle k
  | .busy => e
  | .fault => if before = .outOfService then e else e.deliverAll schedule [] (e.st.faultEvents k .pathFault)

end Sys2Proof.Machine
end

