-- ==== Sys2Proof/Machine/Links.lean ====
section
/-! DEFINITION. The Link Controllers: frames and their bytes, the arbiter, answers, misses, loss and finding
(07_shelf_links.md, R178). -/

namespace Sys2Proof.Machine

/-! ### The engine's part of a frame (R124, R126, R178) -/

/-- The check byte of a sender's bytes (R126). -/
def checkByte (bs : List Byte) : Byte := bs.foldl (· ^^^ ·) 0x5C

/-- The code of a tone kind (R178). -/
def ToneKind.code : ToneKind → Nat | .quiet => 0 | .ringback => 1 | .hold => 2 | .congestion => 3

/-- The code of an order kind (R178). -/
def ShelfOrder.code : ShelfOrder → Nat
  | .join _ _ => 1 | .part _ _ => 2 | .ring _ => 3 | .unring _ => 4 | .tone _ _ => 5 | .drop _ => 6

/-- The last byte of an order body, if the kind has one (R178). -/
def ShelfOrder.operand : ShelfOrder → List Byte
  | .join _ b => [byteOf b.val] | .part _ b => [byteOf b.val] | .tone _ t => [byteOf t.code]
  | .ring _ => [] | .unring _ => [] | .drop _ => []

/-- The body of an ORDER (R124, R178). -/
def ShelfOrder.body (o : ShelfOrder) : List Byte := [byteOf o.code, byteOf (portOf o.first).val] ++ o.operand

/-- The bytes the engine sends: lead byte, body, check byte (R124, R178). -/
def frameBytes (a : Addr) (entry : Option Entry) (again : Bool) : List Byte :=
  let body := match entry with | some x => x.order.body | none => []
  let part := byteOf (bitNat entry.isSome 7 + bitNat again 6 + a.val) :: body
  part ++ [checkByte part]

/-! ### The shelf's part of a frame (R125, R178) -/

/-- A good answer. -/
inductive Answer where
  | order (o : Outcome)
  | poll (more : Bool) (reports : List Report)
  deriving DecidableEq, Repr

/-- The half bytes of some bytes, high half first. -/
def halves (bs : List Byte) : List Nat := bs.flatMap fun b => [b.toNat / 16, b.toNat % 16]

/-- The first `n` digits of some bytes, none when there are fewer or one is above 9 (R125). -/
def readDigits (n : Nat) (bs : List Byte) : Option (List (Fin 10)) :=
  let ds := (halves bs).take n
  if h : ∀ d ∈ ds, d < 10 then
    if ds.length = n then some (ds.attach.map fun d => ⟨d.1, h d.1 d.2⟩) else none
  else none

/-- The number that four digits spell. -/
def numberOf (ds : List (Fin 10)) : Word := BitVec.ofNat 16 (ds.foldl (fun n d => 10 * n + d.val) 0)

/-- The bytes of a SEIZE report after its first: the report and what follows it (R178). -/
def readSeize (bs : List Byte) : Option (ReportKind × List Byte) :=
  match bs with
  | [] => none
  | h :: rest =>
    let count := h.toNat % 16
    let bytes := (count + 1) / 2
    if 12 < count then none
    else
      match readDigits count rest with
      | none => none
      | some caller =>
        let rest := rest.drop bytes
        if h.getLsbD 6 then
          match readDigits 4 rest with
          | none => none
          | some called =>
            some (.seize (h.getLsbD 7) { caller := caller, called := some (numberOf called) }, rest.drop 2)
        else some (.seize (h.getLsbD 7) { caller := caller, called := none }, rest)

/-- The kind of a report and what follows it, from its kind code (R178); none for a kind the engine does not know. -/
def readKind (code : Nat) (rest : List Byte) : Option (ReportKind × List Byte) :=
  match code with
  | 1 => readSeize rest
  | 2 => some (.answer, rest)
  | 3 => some (.clear, rest)
  | 4 => some (.idle, rest)
  | 5 => some (.busy, rest)
  | 6 => some (.fault, rest)
  | _ => none

/-- `n` reports and what follows them (R127, R178). -/
def readReports : Nat → List Byte → Option (List Report × List Byte)
  | 0, bs => some ([], bs)
  | _ + 1, [] => none
  | n + 1, b :: bs =>
    match readKind (b.toNat / 32) bs with
    | none => none
    | some (kind, rest) =>
      match readReports n rest with
      | none => none
      | some (rs, rest) => some ({ port := ⟨b.toNat % 16, Nat.mod_lt _ (by decide)⟩, kind := kind } :: rs, rest)

/-- The outcome an order answer gives; a cause the engine does not know is read as REFUSED (R125). -/
def outcomeOf (b : Byte) : Outcome :=
  match b.toNat with | 0 => .ack | 1 => .nakBusy | 2 => .nakFault | _ => .nakRefused

/-- The contents of a body and the bytes that follow it, none when a field is out of range or bytes are missing (R125,
R178). -/
def readBody (bs : List Byte) : Option (Answer × List Byte) :=
  match bs with
  | kind :: second :: rest =>
    if kind = 1 then some (.order (outcomeOf second), rest)
    else if kind = 2 then
      if 4 < second.toNat % 8 then none
      else
        match readReports (second.toNat % 8) rest with
        | some (rs, rest) => some (.poll (second.getLsbD 7) rs, rest)
        | none => none
    else none
  | _ => none

/-- The answer that some bytes hold, none when it is spoiled for any reason but the kind of frame it answers (R125). -/
def readAnswer (bs : List Byte) : Option Answer :=
  match readBody bs with
  | some (a, check :: after) =>
    let body := bs.take (bs.length - (after.length + 1))
    if body.length ≤ Config.bodyMax ∧ check = checkByte body then some a else none
  | _ => none

/-! ### The arbiter (R131, R132) -/

/-- The polling period of a shelf, in ms (R132). -/
def Shelf.period (sh : Shelf) : Nat := if sh.state = .present then sh.interval else Config.searchMs

/-- Replace one shelf record of a link. -/
def Link.setShelf (k : Link) (a : Addr) (sh : Shelf) : Link := { k with shelves := k.shelves.set a sh }
/-- Set a poll deadline. -/
def Link.setPoll (k : Link) (a : Addr) (t : PollTimer) : Link := { k with polls := k.polls.set a t }

/-- A frame is sent: it is in flight with the present response window; a poll sets its shelf's deadline (R132, R133). -/
def Link.send (k : Link) (a : Addr) (entry : Option Entry) (again : Bool) : Link :=
  let k := { k with frame := some { addr := a, entry := entry, again := again, bytes := frameBytes a entry again,
                                    window := k.window, dead := false } }
  if entry.isSome then k else k.setPoll a (.running (k.shelves.get a).period)

/-- The shelf that the next poll goes to: a PRESENT shelf with more pending first, then a due one, the lowest address
first (R131). -/
def Link.nextPoll (k : Link) : Option Addr :=
  match (List.finRange 4).find? fun a => (k.shelves.get a).state == .present && k.more.get a with
  | some a => some a
  | none => (List.finRange 4).find? fun a => k.polls.get a == .due

/-- The shelf of an entry's first circuit is PRESENT. -/
def Link.reaches (k : Link) (x : Entry) : Bool := (k.shelves.get (addrOf x.order.first)).state == .present

/-- Orders at the head of the queue whose shelf is not PRESENT are removed and fail with LOST, each an event of its own
(R131, R134). -/
def State.failHeads (s : State) (l : LinkIx) : Nat → State
  | 0 => s
  | n + 1 =>
    match (s.link l).queue with
    | x :: xs =>
      if (s.link l).reaches x then s
      else
        let s := runEvent s fun e => (e.updLink l fun k => { k with queue := xs }).outcome x (.lost false)
        s.failHeads l n
    | [] => s

/-- The arbiter has nothing left to fail: it sends the head of the queue, else a poll, else waits (R131). -/
def Link.sendNext (k : Link) : Link :=
  match k.queue with
  | x :: xs => Link.send { k with queue := xs } (addrOf x.order.first) (some x) false
  | [] =>
    match k.nextPoll with
    | some a => k.send a none false
    | none => k

/-- The arbiter of a RUNNING link with no frame in flight chooses and sends (R131). Every failure at the head lets at
most a handful of orders follow it, once for each of the 64 calls, so 1024 are enough. -/
def State.sendFrame (s : State) (l : LinkIx) : State :=
  let k := s.link l
  if k.state = .running ∧ k.frame.isNone then
    match k.again with
    | some r => s.setLink l (Link.send { k with again := none } r.addr r.entry true)
    | none =>
      let s := s.failHeads l 1024
      s.setLink l (s.link l).sendNext
  else s

/-- A running poll deadline passes: the shelf is due (R132). -/
def Link.deadline (k : Link) (a : Addr) : Link :=
  match k.polls.get a with
  | .running _ => k.setPoll a .due
  | _ => k

/-! ### The end of a frame (R133, R135 to R138) -/

/-- Entries of a queue for a shelf address. -/
def forShelf (a : Addr) (x : Entry) : Bool := addrOf x.order.first == a

/-- The loss of a shelf (R136); `missed` is the order whose frame missed. -/
def Event.loseShelf (e : Event) (l : LinkIx) (a : Addr) (missed : Option Entry) (schedule : List Nat) : Event :=
  let queue := (e.st.link l).queue
  let e := e.updLink l fun k =>
    { ((k.setShelf a { k.shelves.get a with state := .lost }).setPoll a (.running Config.searchMs)) with
      more := k.more.set a false, queue := queue.filter fun x => !(forShelf a x) }
  let changed := (circuitsOf l a).filter fun k => (e.st.lamp k).line != .outOfService
  let e := changed.foldl (fun e k => e.setLine k .outOfService) e
  let failures := (missed.toList ++ queue.filter (forShelf a)).map .failed
  (e.deliverAll schedule failures (changed.flatMap fun k => e.st.faultEvents k .shelfLost)).upd fun s => s.raise .link

/-- A frame has missed (R135). -/
def Event.miss (e : Event) (l : LinkIx) (f : Frame) (schedule : List Nat) : Event :=
  let k := e.st.link l
  let sh := k.shelves.get f.addr
  if sh.state = .present then
    let e := e.updLink l fun k => k.setShelf f.addr { sh with misses := sh.misses + 1 }
    if sh.misses + 1 < k.missLimit then e.updLink l fun k => { k with again := some { addr := f.addr, entry := f.entry } }
    else e.loseShelf l f.addr f.entry schedule
  else
    match f.entry with
    | some x => e.outcome x (.lost false)
    | none => e

/-- A frame whose shelf has become ABSENT ends: its answer is not used and no miss is counted; an order fails with
LOST (R138). -/
def Event.deadFrame (e : Event) (f : Frame) : Event :=
  match f.entry with
  | some x => e.outcome x (.lost true)
  | none => e

/-- What a good answer does to the shelf record: the miss count is 0, and a shelf that was searched for is found (R133,
R137). -/
def Event.answered (e : Event) (l : LinkIx) (a : Addr) : Event :=
  let sh := (e.st.link l).shelves.get a
  if sh.state = .present then e.updLink l fun k => k.setShelf a { sh with misses := 0 }
  else
    (e.updLink l fun k =>
      (k.setShelf a { sh with state := .present, misses := 0 }).setPoll a (.running sh.interval)).upd fun s => s.raise .link

/-- The reports of an answer are handed on one at a time, each an event of its own (R128, notes/assumptions/6.md). -/
def State.handOn (s : State) (l : LinkIx) (a : Addr) : List Report → List (List Nat) → State
  | [], _ => s
  | r :: rs, orders =>
    (runEvent s fun e => e.report (circuitAt l a r.port) r.kind (orders.headD [])).handOn l a rs orders.tail

/-- A good answer ends its frame (R133). -/
def State.goodAnswer (s : State) (l : LinkIx) (f : Frame) (ans : Answer) (orders : List (List Nat)) : State :=
  match ans, f.entry with
  | .order o, some x => runEvent s fun e => (e.answered l f.addr).outcome x o
  | .order _, none => s
  | .poll more reports, _ =>
    let s := (runEvent s fun e => e.answered l f.addr).handOn l f.addr reports orders
    s.setLink l { s.link l with more := (s.link l).more.set f.addr more }

/-- The answer answers the frame (R125). -/
def Answer.answers (ans : Answer) (f : Frame) : Bool :=
  match ans with
  | .order _ => f.entry.isSome
  | .poll _ _ => f.entry.isNone

/-- The frame in flight on a link has ended. -/
def State.endFrame (s : State) (l : LinkIx) : State := s.setLink l { s.link l with frame := none }

/-- The bytes of a shelf's answer have arrived (R125, R133). -/
def State.shelfAnswer (s : State) (l : LinkIx) (bytes : List Byte) (orders : List (List Nat)) : State :=
  match (s.link l).frame with
  | none => s
  | some f =>
    let s := s.endFrame l
    if f.dead then runEvent s fun e => e.deadFrame f
    else
      match (readAnswer bytes).filter (·.answers f) with
      | some ans => s.goodAnswer l f ans orders
      | none => runEvent s fun e => e.miss l f (orders.headD [])

/-- The response window of the frame in flight closes without a whole answer (R133). -/
def State.windowClose (s : State) (l : LinkIx) (schedule : List Nat) : State :=
  match (s.link l).frame with
  | none => s
  | some f =>
    let s := s.endFrame l
    if f.dead then runEvent s fun e => e.deadFrame f else runEvent s fun e => e.miss l f schedule

end Sys2Proof.Machine
end

