-- ==== Sys2Proof/Machine/Cadence.lean ====
section
/-! DEFINITION. The Cadence Unit (R150 to R153). -/

namespace Sys2Proof.Machine

/-- Change the Cadence Unit. -/
def State.setCadence (s : State) (c : Cadence) : State := { s with cadence := c }

/-- The period timer restarts with the internal period in force (R151). -/
def Cadence.tick (c : Cadence) : Cadence := { c with periodTimer := some c.period }

/-- A rising edge while EXTERNAL is configured: the source in use is EXTERNAL and the loss timer starts with twice the
internal period (R152). -/
def Cadence.edge (c : Cadence) : Cadence :=
  { c with inUse := .external, periodTimer := none, lossTimer := some (2 * c.period) }

/-- The loss timer has expired: the source in use is INTERNAL and the period timer starts (R152). -/
def Cadence.lose (c : Cadence) : Cadence :=
  { c with inUse := .internal, lossTimer := none, periodTimer := some c.period }

/-- The Cadence Unit at an activation (R153). -/
def Cadence.activate (c : Cadence) (source : CadenceSource) (period : Nat) : Cadence :=
  let c := { c with period := period }
  match c.configured, source with
  | .internal, .internal => c
  | .internal, .external =>
    { c with configured := .external, inUse := .external, periodTimer := none, lossTimer := some (2 * period) }
  | .external, .internal =>
    { c with configured := .internal, inUse := .internal, lossTimer := none, periodTimer := some period }
  | .external, .external => c

/-- The period timer expires while it runs: a mark (R151, R97). -/
def State.periodExpiry (s : State) : State :=
  if s.cadence.periodTimer.isSome then runEvent (s.setCadence s.cadence.tick) Event.mark else s

/-- A rising edge on the cadence input: ignored while INTERNAL is configured; else a mark, and the Cadence flag when the
source in use returns to EXTERNAL (R151, R152). -/
def State.cadenceEdge (s : State) : State :=
  match s.cadence.configured, s.cadence.inUse with
  | .internal, _ => s
  | .external, .external => runEvent (s.setCadence s.cadence.edge) Event.mark
  | .external, .internal => runEvent ((s.setCadence s.cadence.edge).raise .cadence) Event.mark

/-- The loss timer expires while it runs: the source in use becomes INTERNAL, with a mark and the Cadence flag
(R152). -/
def State.lossExpiry (s : State) : State :=
  if s.cadence.lossTimer.isSome then runEvent ((s.setCadence s.cadence.lose).raise .cadence) Event.mark else s

end Sys2Proof.Machine
end

