-- ==== Sys2Proof/Machine/PlanUnit.lean ====
section
/-! DEFINITION. The Plan Unit: the eleven checks of an apply and the activation of a plan
(06_partitions_the_plan_and_night_service.md; R59, R60, R81, R105, R138). -/

namespace Sys2Proof.Machine

/-! ### The checks (R111) -/

/-- The circuit is held by a live call (R111). -/
def State.holds (s : State) (k : Circuit) : Bool :=
  allSlots.any fun i =>
    let c := s.call i
    c.live && (c.caller == k || c.targets k || (c.state == .announced && c.announcer == some k))

/-- The first index of a range that fails. -/
def firstIndex (n : Nat) (fails : Fin n → Bool) : Option Nat := ((List.finRange n).find? fails).map (·.val)

/-- Check 1: chief and deputy. -/
def Plan.check1 (pl : Plan) : Option Nat :=
  let bad (o : Option Pos) : Bool := match o with | some p => !pl.isMember p | none => false
  if bad pl.chief then some 0
  else if bad pl.deputy || (pl.deputy.isSome && pl.deputy == pl.chief) then some 1
  else none

/-- The position is a member of the partition, and the partition is enabled. -/
def Plan.serves (pl : Plan) (q : Part) (p : Pos) : Bool := (pl.parts.get q).enabled && (pl.parts.get q).has p

/-- Check 2: a position of two enabled partitions. -/
def Plan.check2 (pl : Plan) : Option Nat :=
  firstIndex 8 fun p => decide (1 < ((List.finRange 4).filter fun q => pl.serves q p).length)

/-- Check 3: an OPEN position would belong elsewhere. -/
def State.check3 (s : State) (pl : Plan) : Option Nat :=
  firstIndex 8 fun p => (s.pos p).isOpen && pl.partitionOf p != (s.pos p).partition

/-- Check 4: a partition in use would not be enabled. -/
def State.check4 (s : State) (pl : Plan) : Option Nat :=
  firstIndex 4 fun q =>
    (s.part q).enabled && !(pl.parts.get q).enabled &&
      (!(s.prt q).roster.isEmpty || (List.finRange 8).any fun p => (s.pos p).isOpen && (s.pos p).partition == some q)

/-- Check 5: a capacity below the NEW count. -/
def State.check5 (s : State) (pl : Plan) : Option Nat :=
  firstIndex 4 fun q => (pl.parts.get q).enabled && decide ((pl.parts.get q).capacity < s.newCount q)

/-- The first circuit whose number one of the circuits before it has; `seen` holds the numbers before it. -/
def Plan.repeated (pl : Plan) (seen : List Word) : List Circuit → Option Circuit
  | [] => none
  | c :: cs =>
    match (pl.directory.get c).kind, (pl.directory.get c).number with
    | .extension, some n => if seen.contains n then some c else pl.repeated (n :: seen) cs
    | _, _ => pl.repeated seen cs

/-- Check 6: two extensions with one number; the higher circuit of the lowest pair. -/
def Plan.check6 (pl : Plan) : Option Nat := (pl.repeated [] (List.finRange 256)).map (·.val)

/-- Check 7: a held circuit would change its kind or partition. -/
def State.check7 (s : State) (pl : Plan) : Option Nat :=
  firstIndex 256 fun k =>
    ((pl.directory.get k).kind != (s.dir k).kind || (pl.directory.get k).partition != (s.dir k).partition) && s.holds k

/-- Check 8: a night destination that is in no map. -/
def Plan.check8 (pl : Plan) : Option Nat :=
  firstIndex 4 fun q => (pl.parts.get q).enabled && (pl.lookup (pl.parts.get q).night).isNone

/-- Check 9: an overflow destination that is the partition itself or not enabled. -/
def Plan.check9 (pl : Plan) : Option Nat :=
  firstIndex 4 fun q => (pl.parts.get q).enabled &&
    match (pl.parts.get q).overflow with
    | .partition r => r == q || !(pl.parts.get r).enabled
    | .fallback => false

/-- Check 10: a shelf in use would not be fitted. -/
def State.check10 (s : State) (pl : Plan) : Option Nat :=
  firstIndex 16 fun n => !(pl.shelves.get n).fitted &&
    (List.finRange 16).any fun port =>
      let k : Circuit := ⟨16 * n.val + port.val, by omega⟩
      s.holds k || s.isHeadset k

/-- Check 11: the headset of a member position. -/
def Plan.check11 (pl : Plan) : Option Nat :=
  firstIndex 8 fun p => pl.isMember p &&
    match pl.headsets.get p with
    | none => true
    | some h => (pl.directory.get h).kind != .position ||
        (List.finRange 8).any fun q => q != p && pl.isMember q && pl.headsets.get q == some h

/-- The eleven checks, in order. -/
def State.checks (s : State) (pl : Plan) : List (Option Nat) :=
  [pl.check1, pl.check2, s.check3 pl, s.check4 pl, s.check5 pl, pl.check6, s.check7 pl, pl.check8, pl.check9,
    s.check10 pl, pl.check11]

/-- The first failure of a list of checks numbered from `n`: the check and its index. -/
def firstFailure (n : Nat) : List (Option Nat) → Option (Nat × Nat)
  | [] => none
  | some i :: _ => some (n, i)
  | none :: cs => firstFailure (n + 1) cs

/-- The first check that fails with its index, none when the plan passes (R111). -/
def State.invalid (s : State) (pl : Plan) : Option (Nat × Nat) := firstFailure 1 (s.checks pl)

/-! ### The steps of an activation (R113) -/

/-- The partition a lamp entry shows (R108, R141). -/
def lampPartition (d : DirEntry) : Byte := match d.partition with | some p => byteOf p.val | none => 0xFF

/-- The number a lamp entry shows (R108, R141). -/
def lampNumber (d : DirEntry) : Word := wordOr d.number

/-- Step 1: the plan is in force and the lamp entries take its directory (R109, R113). -/
def State.takeDirectory (s : State) (pl : Plan) : State :=
  { s with
    plan := some pl,
    lamps := .zip (fun d q => { q with kind := d.kind, partition := lampPartition d, number := lampNumber d })
      pl.directory s.lamps }

/-- What the fitted flag makes of a shelf (R114, R138). -/
def Shelf.refit (sh : Shelf) (fitted : Bool) (interval : Nat) : Shelf :=
  { state := if fitted then (if sh.state = .absent then .searching else sh.state) else .absent,
    misses := if fitted then sh.misses else 0, interval := interval }

/-- The shelf becomes ABSENT under the plan. -/
def Shelf.leaves (sh : Shelf) (fitted : Bool) : Bool := sh.state != .absent && !fitted

/-- A link under a new plan: shelves, response window and miss limit; what is queued for or waits for a shelf that
leaves is removed, and a frame in flight to it is dead (R114, R132, R138). -/
def Link.refit (k : Link) (l : LinkIx) (pl : Plan) : Link :=
  let fits (a : Addr) : Bool := (pl.shelves.get (shelfNumber l a)).fitted
  let leaves (a : Addr) : Bool := (k.shelves.get a).leaves (fits a)
  { k with
    window := pl.window, missLimit := pl.missLimit,
    shelves := .make fun a => (k.shelves.get a).refit (fits a) (pl.shelves.get (shelfNumber l a)).interval,
    polls := .make fun a =>
      if !fits a then .none else if (k.shelves.get a).state = .absent then .due else k.polls.get a,
    more := .make fun a => k.more.get a && fits a,
    queue := k.queue.filter fun x => !(leaves (addrOf x.order.first)),
    again := k.again.filter fun r => !(leaves r.addr),
    frame := k.frame.map fun f => { f with dead := f.dead || leaves f.addr } }

/-- The orders that fail because their shelf leaves: the order of a waiting repeat, then the queue's, oldest first. -/
def Link.unfitted (k : Link) (l : LinkIx) (pl : Plan) : List Entry :=
  let leaves (a : Addr) : Bool := (k.shelves.get a).leaves (pl.shelves.get (shelfNumber l a)).fitted
  (match k.again with
    | some r => if leaves r.addr then r.entry.toList else []
    | none => []) ++
  k.queue.filter fun x => leaves (addrOf x.order.first)

/-- The circuits of a link's shelves that leave become UNKNOWN (R114). -/
def Event.unfitCircuits (pl : Plan) (e : Event) (l : LinkIx) : Event :=
  (List.finRange 4).foldl (fun e a =>
    if ((e.st.link l).shelves.get a).leaves (pl.shelves.get (shelfNumber l a)).fitted then
      (circuitsOf l a).foldl (fun e k => e.setLine k .unknown) e
    else e) e

/-- One link in step 2. -/
def Event.refitLink (pl : Plan) (e : Event) (l : LinkIx) : Event :=
  let failed := (e.st.link l).unfitted l pl
  let e := (Event.unfitCircuits pl e l).updLink l fun k => k.refit l pl
  failed.foldl (fun e x => e.outcome x (.lost true)) e

/-- Step 2: shelves and links (R114, R138). -/
def Event.refitLinks (e : Event) (pl : Plan) : Event := (List.finRange 4).foldl (Event.refitLink pl) e

/-- Steps 4 and 5 for one partition: mode and estimator (R121, R59, R60); `old` are its settings before. -/
def Event.settlePartition (old : Part → PartPlan) (pl : Plan) (e : Event) (p : Part) : Event :=
  let was := old p
  let now := pl.parts.get p
  let e := if was.enabled ∧ now.enabled then e else e.updPrt p fun q => { q with mode := .day }
  let reseed := now.enabled &&
    (!was.enabled || was.seedRange != now.seedRange || was.seedSpacing != now.seedSpacing)
  let e := if reseed then
      (e.updPrt p fun q => { q with est := q.est.seed now.seedRange now.seedSpacing }).wantPass p
    else e
  if was.weight ≠ now.weight ∨ was.basis ≠ now.basis then e.wantPass p else e

/-- Step 6: a camp list whose circuit is no EXTENSION is dropped (R105). -/
def State.dropCamps (s : State) : State :=
  { s with lamps := s.lamps.map fun q => if q.kind = .extension then q else { q with camp := [] } }

/-- Step 7, first part: an OPEN position with another headset in the new plan is closed as on headset loss (R81). -/
def Event.closeMoved (pl : Plan) (e : Event) (p : Pos) : Event :=
  let q := e.st.pos p
  if q.isOpen ∧ pl.headsets.get p ≠ q.headset then e.closePosition p q.headset else e

/-- Step 7, second part: partitions, headsets and vacant roles (R81). -/
def State.seatPositions (s : State) (pl : Plan) : State :=
  { s with positions := .zip (fun p q =>
      { q with partition := pl.partitionOf p, headset := pl.headsets.get p, role := .none }) (.make id) s.positions }

/-- Step 7 (R81). The order in which several OPEN positions with changed headsets are closed, which decides the order of
their recalls in the roster, is the model's choice: ascending (DESIGN CHOICE, notes/assumptions/25.md). -/
def Event.seat (e : Event) (pl : Plan) : Event :=
  (((List.finRange 8).foldl (Event.closeMoved pl) e).upd fun s => s.seatPositions pl).fillRoles

/-- Step 9: the plan count, and the first activation takes the engine to SERVING and the links to RUNNING (R113,
R115, R122). -/
def State.count (s : State) : State :=
  let s := { s with planCount := s.planCount + 1 }
  if s.engine = .closed then
    { s with engine := .serving, links := s.links.map fun k => { k with state := .running } }
  else s

/-- The activation of a plan (R113). -/
def Event.activate (e : Event) (pl : Plan) : Event :=
  let old := e.st.part
  let e := e.upd fun s => s.takeDirectory pl
  let e := e.refitLinks pl
  let e := e.upd fun s => s.setCadence (s.cadence.activate pl.source pl.period)
  let e := (List.finRange 4).foldl (Event.settlePartition old pl) e
  let e := e.upd State.dropCamps
  let e := e.seat pl
  let e := (List.finRange 4).foldl Event.alertTest e
  e.upd State.count

/-! ### The completion (R111 to R113, R164) -/

/-- The apply under way ends: its cell is answered and a sweep starts (R110, R164). -/
def State.endApply (s : State) (cell : CellIx) (code : ResultCode) (detail : Word) : State :=
  let s := s.answer cell code detail
  { s with apply := none, taker := { s.taker with sweeping := true } }

/-- The detail of PLAN_INVALID: the check in the high byte, the index in the low byte (R177). -/
def invalidDetail (check index : Nat) : Word := BitVec.ofNat 16 (256 * check + index)

/-- The completion of the apply under way (R111 to R113). -/
def State.completeApply (s : State) : State :=
  match s.apply with
  | none => s
  | some a =>
    match s.invalid a.staged with
    | some (check, index) => s.endApply a.cell .planInvalid (invalidDetail check index)
    | none =>
      runEvent s fun e =>
        (e.activate a.staged).upd fun s => s.endApply a.cell .ok (s.planCount.setWidth 16)

end Sys2Proof.Machine
end

