-- ==== Sys2Proof/Machine/Orders.lean ====
section
/-! DEFINITION. The Order Taker: sweeps, number order, takes and their checks (09_the_order_board.md), and the orders of
the order board. -/

namespace Sys2Proof.Machine

/-! ### Number order (R158) -/

/-- The POSTED cells, ascending. -/
def State.posted (s : State) : List CellIx := (List.finRange 32).filter fun c => cellState s.mem c == .posted

/-- The cell's number is behind EXPECT (R158). -/
def State.behind (s : State) (c : CellIx) : Bool := decide (32768 ≤ (cellNumber s.mem c - s.taker.expect).toNat)

/-- A stale number is refused: taken time and done time now, EXPECT as the detail (R158). -/
def State.refuseStale (s : State) (c : CellIx) : State :=
  (s.setMem (writeCell s.mem c 8 (bytesOf16 (s.seconds.setWidth 16)))).answer c .staleNumber s.taker.expect

/-- Every stale number on the board is refused (R158, step 1). -/
def State.refuseStales (s : State) : State := (s.posted.filter s.behind).foldl State.refuseStale s

/-- The cell the next step takes: the lowest POSTED cell that carries EXPECT (R158, step 2). -/
def State.nextCell (s : State) : Option CellIx := s.posted.find? fun c => cellNumber s.mem c == s.taker.expect

/-- A sweep is running and no apply halts it (R157, R164). -/
def State.sweeps (s : State) : Bool := s.taker.sweeping && s.apply.isNone

/-- A sweep starts, unless one is running or an apply is in progress (R157, R164). -/
def State.startSweep (s : State) : State :=
  if s.apply.isSome then s else s.setTaker { s.taker with sweeping := true }

/-! ### A take (R159 to R162) -/

/-- A cell is taken: TAKEN, with the taken time, in the set of taken cells; EXPECT rises (R158, R159). -/
def State.takeCell (s : State) (c : CellIx) : State :=
  let m := writeCell s.mem c 8 (bytesOf16 (s.seconds.setWidth 16))
  { s with mem := setCellState m c 2,
           taker := { s.taker with expect := s.taker.expect + 1, taken := s.taker.taken ++ [c] } }

/-- The checks of length, position and engine state (R160, R161). -/
def State.formRefusal (s : State) (c : CellIx) (k : OrderKind) : Option (ResultCode × Word) :=
  if cellLength s.mem c ≠ k.bodyLength then some (.badLength, BitVec.ofNat 16 k.bodyLength)
  else if !k.accepts (cellPosition s.mem c) then some (.badPosition, 0)
  else
    match s.engine with
    | .serving => none
    | .closed => if k = .applyPlanK then none else some (.notServing, 0)
    | .bypassed => some (.notServing, 0)

/-- SET_NIGHT (R82, R118). -/
def Event.ownSetNight (e : Event) (p : Option Pos) (part mode : Byte) : Owned :=
  if !e.st.hasAuthority p then e.deny .noAuthority
  else
    match partitionOf part with
    | none => e.deny .wrongState
    | some q =>
      if !(e.st.part q).enabled then e.deny .wrongState
      else
        match (e.st.prt q).mode with
        | .day => if mode = 0 then e.grant else (e.goNight q).grant
        | .night => if mode = 0 then (e.goDay q).grant else e.grant

/-- APPLY_PLAN: the authority check while SERVING; then the apply begins with the staged copy of the plan area, the area
is write-locked and the sweep halts (R82, R110, R164). -/
def Event.ownApply (e : Event) (p : Option Pos) (cell : CellIx) : Owned :=
  if e.st.engine = .serving ∧ !e.st.hasAuthority p then e.deny .noAuthority
  else
    (e.upd fun s => { s with apply := some { cell := cell, staged := readPlan s.mem },
                             taker := { s.taker with sweeping := false } }, none)

/-- The owner of a kind acts on the order in a cell (R160, R162). -/
def Event.own (e : Event) (c : CellIx) (k : OrderKind) : Owned :=
  let m := e.st.mem
  let who := positionOf (cellPosition m c)
  let b := cellBody m c
  match k, who with
  | .setNightK, p => e.ownSetNight p (b 0) (b 1)
  | .applyPlanK, p => e.ownApply p c
  | .openK, some p => e.ownOpen p
  | .closeK, some p => e.ownClose p (b 0)
  | .pauseK, some p => e.ownPause p (b 0)
  | .answerK, some p => e.ownAnswer p
  | .pickK, some p => e.ownPick p (b 0)
  | .holdK, some p => e.ownHold p
  | .retrieveK, some p => e.ownRetrieve p (b 0)
  | .disconnectK, some p => e.ownDisconnect p
  | .extendK, some p => e.ownExtend p (b 1 ++ b 0) (b 2) c (cellNumber m c)
  | .transferK, some p => e.ownTransfer p
  | .cancelK, some p => e.ownCancel p
  | _, none => e.deny .badPosition

/-- The result an owner has reached is written; without one the order stays TAKEN (R163). -/
def Event.settleOrder (c : CellIx) (r : Owned) : Event :=
  match r.2 with
  | some (code, detail) => r.1.upd fun s => s.answer c code detail
  | none => r.1

/-- The order in a taken cell is checked and handed to its owner (R160 to R163). -/
def Event.order (e : Event) (c : CellIx) : Event :=
  match cellKind e.st.mem c with
  | none => e.upd fun s => s.answer c .badKind 0
  | some k =>
    match e.st.formRefusal c k with
    | some (code, detail) => e.upd fun s => s.answer c code detail
    | none => Event.settleOrder c (e.own c k)

/-- One event: a cell is taken and its order handed on (R159). -/
def State.takeOrder (s : State) (c : CellIx) : State := runEvent s fun e => (e.upd fun s => s.takeCell c).order c

/-- A step of a sweep (R158): stale numbers are refused; then the cell that carries EXPECT is taken, or the sweep
ends. -/
def State.sweepStep (s : State) : State :=
  if s.sweeps then
    let s := s.refuseStales
    match s.nextCell with
    | some c => s.takeOrder c
    | none => s.setTaker { s.taker with sweeping := false }
  else s

/-- The next step of the running sweep takes an order of this kind (none: of a kind the engine does not know). -/
def State.sweepTakes (s : State) (k : Option OrderKind) : Bool :=
  s.sweeps && match s.nextCell with | some c => cellKind s.mem c == k | none => false

/-- The step of a sweep that takes an order of this kind; any other step is not this command
(notes/assumptions/5.md). -/
def State.sweepFor (s : State) (k : Option OrderKind) : State := if s.sweepTakes k then s.sweepStep else s

end Sys2Proof.Machine
end

