-- ==== Sys2Proof/Machine/Control.lean ====
section
/-! DEFINITION. Engine Control and the window: resets, bypass, host writes and reads, the registers
(10_engine_control_memory_map_and_layouts.md). -/

namespace Sys2Proof.Machine

/-! ### Resets (R168, R169, R23) -/

/-- What a reset leaves of the model's own state: the waiting commands, the level of the bypass input and the count of
reads outside the window; everything else is as after a power-on reset. -/
def State.restart (s : State) : State :=
  { State.reset with pending := s.pending, bypassIn := s.bypassIn, port := { State.reset.port with outside := s.port.outside } }

/-- A reset has ended: with the bypass input active, entry to BYPASSED is the event that follows, before any command
that waits (R166; notes/assumptions/9.md). -/
def State.resetEnds (s : State) : State := if s.bypassIn then { s with pending := .bypassEntry :: s.pending } else s

/-- A power-on reset, the bypass input at a level when the pin is released (R166, R168). -/
def State.powerOn (s : State) (bypassActive : Bool) : State :=
  State.resetEnds { s.restart with bypassIn := bypassActive }

/-- The taken cells in ascending order. -/
def Taker.cells (t : Taker) : List CellIx := (List.finRange 32).filter t.taken.contains

/-- A soft reset (R169): the plan area, the order board and the free area stay; the taken cells are DONE with
NOT_SERVING and done time 0; the live calls show end reason RESET. -/
def State.softReset (s : State) : State :=
  State.resetEnds { s.restart with
    mem := s.taker.cells.foldl (fun m c => doneCell m c .notServing 0 0) s.mem,
    calls := s.calls.map fun c => if c.live then { Call.blank with endReason := some .reset } else Call.blank }

/-! ### Bypass (R166, R167) -/

/-- A partition at bypass entry (R47, R61). -/
def Partition.bypass (q : Partition) : Partition :=
  { q with roster := [], alert := false, est := { q.est.stop with clamped := false } }

/-- A position at bypass entry (R83). -/
def Position.bypass (q : Position) : Position :=
  { q with isOpen := false, pause := none, missed := 0, offered := none, speaking := none, loops := .fill none,
           flash := .fill false, extend := none, extendCell := none, role := .none }

/-- A call that is not FREE is freed at bypass entry (R22). -/
def Call.bypass (c : Call) (now : Seconds) : Call :=
  { c.enter .free now with endReason := some .bypass, pending := 0, extend := none }

/-- A slot at bypass entry: freed when it is not FREE, at the tail of the free list (R22). -/
def Event.bypassSlot (e : Event) (i : Slot) : Event :=
  let c := e.st.call i
  if c.state = .free then e
  else
    { e.upd (fun s => (s.setCall i (c.bypass s.seconds)).setFree (s.free ++ [i])) with changed := e.changed ++ [i] }

/-- A link at bypass entry (R139). -/
def Link.bypass (k : Link) : Link :=
  { k with state := .held, frame := none, again := none, queue := [], polls := .fill .none, more := .fill false,
           shelves := k.shelves.map fun sh => { sh with misses := 0 } }

/-- The taken cells are DONE with NOT_SERVING; an apply under way is abandoned, and its DONE starts a sweep (R116, R164,
R167). -/
def State.abandonOrders (s : State) : State :=
  let sweeping := s.taker.sweeping || s.apply.isSome
  let s := s.taker.cells.foldl (fun s c => s.answer c .notServing 0) s
  { s with apply := none, taker := { s.taker with sweeping := sweeping } }

/-- The steps of R167, in order. -/
def Event.enterBypass (e : Event) : Event :=
  let e := e.upd fun s => { s with parts := s.parts.map Partition.bypass }
  let e := e.upd fun s => { s with positions := s.positions.map Position.bypass }
  let e := e.upd fun s => { s with lamps := s.lamps.map fun q => { q with camp := [] }, rings := .fill 0 }
  let e := allSlots.foldl Event.bypassSlot e
  let e := e.upd fun s => { s with links := s.links.map Link.bypass }
  let e := e.upd State.abandonOrders
  e.upd fun s => ({ s with engine := .bypassed }).raise .bypass

/-- The bypass input is active: a CLOSED or SERVING engine enters BYPASSED (R166, R167). -/
def State.bypassEntry (s : State) : State :=
  let s := { s with bypassIn := true }
  if s.engine = .bypassed then s else (Event.begin s).enterBypass.commit

/-- A lamp entry when BYPASSED is left (R142). -/
def Lamp.discard (q : Lamp) : Lamp := { q with kind := .unused, line := .unknown, partition := 0xFF, number := 0xFFFF }

/-- A link when BYPASSED is left (R139). -/
def Link.discard (k : Link) : Link :=
  { k with window := 0, missLimit := 0, polls := .fill .none, more := .fill false,
           shelves := k.shelves.map fun sh => { sh with state := .absent, interval := 0 } }

/-- The active plan is discarded and the engine is CLOSED (R166, R47, R83, R139, R142, R150). -/
def State.discardPlan (s : State) : State :=
  { s with
    engine := .closed, plan := none, cadence := .blank,
    parts := s.parts.map fun q => { q with mode := .day },
    positions := s.positions.map fun q => { q with partition := none, headset := none },
    links := s.links.map Link.discard, lamps := s.lamps.map Lamp.discard }

/-- The bypass input is inactive: a BYPASSED engine becomes CLOSED; any other state stays. The records that change have
their revisions raised (R11, R142), but the board revision is not touched and no Summary flag is set (R166;
notes/assumptions/23.md). -/
def State.bypassExit (s : State) : State :=
  let s := { s with bypassIn := false }
  if s.engine = .bypassed then (((Event.begin s).upd State.discardPlan).upd State.retie).raiseRecords else s

/-! ### Registers (R173 to R175) -/

/-- Replace the registers. -/
def State.setRegs (s : State) (r : Regs) : State := { s with regs := r }

/-- Notice Enable takes the value written (R173). -/
def State.setNotice (s : State) (on : Bool) : State := s.setRegs { s.regs with noticeEnable := on }

/-- The effect of a write of Control's low byte (R169, R173). -/
def State.writeControl (s : State) (v : Byte) : State :=
  if v.getLsbD 1 then s.softReset
  else
    let s := s.setNotice (v.getLsbD 2)
    if v.getLsbD 0 then s.startSweep else s

/-- The effect of a write of Summary's low byte (R174, R175). -/
def State.writeSummary (s : State) (v : Byte) : State := s.setRegs (s.regs.clear v)

/-- The effect of a write of Mask's low byte (R173). -/
def State.writeMask (s : State) (v : Byte) : State := s.setRegs { s.regs with mask := v }

/-! ### Host writes (R171) -/

/-- What becomes of a byte that the host writes (R171). -/
inductive Destination where | dropped | stored | control | summary | mask | ignored deriving DecidableEq, Repr

/-- The cell an offset of the order board lies in. -/
def cellAt (a : Nat) : CellIx := .ofNat 32 ((a - 0x0500) / 32)

/-- The row of R171 that an offset falls under. -/
def State.destination (s : State) (a : Nat) : Destination :=
  if a < 0x0500 then .dropped
  else if a < 0x0900 then (if s.taker.taken.contains (cellAt a) then .dropped else .stored)
  else if a < 0x2100 then .dropped
  else if a < 0x2B40 then (if s.apply.isSome then .dropped else .stored)
  else if a < 0x3FE0 then .stored
  else if a < 0x3FE2 then .dropped
  else if a = 0x3FE2 then .control
  else if a = 0x3FE4 then .summary
  else if a = 0x3FE6 then .mask
  else if a = 0x3FE8 ∨ a = 0x3FE9 then .dropped
  else .ignored

/-- A host write of one byte (R171). The high bytes of Control, Summary and Mask have no effect (R173). -/
def State.writeByte (s : State) (a : Nat) (v : Byte) : State :=
  match s.destination a with
  | .dropped => s.raise .drop
  | .stored => s.setMem (s.mem.write a v)
  | .control => s.writeControl v
  | .summary => s.writeSummary v
  | .mask => s.writeMask v
  | .ignored => s

/-- The low byte of a word. -/
def lowByte (w : Word) : Byte := w.setWidth 8
/-- The high byte of a word. -/
def highByte (w : Word) : Byte := (w >>> 8).setWidth 8

/-- A host write of a byte or a word, byte by byte (R171). -/
def State.hostWrite (s : State) (a : Nat) (word : Bool) (v : Word) : State :=
  let s := s.writeByte a (lowByte v)
  if word then s.writeByte (a + 1) (highByte v) else s

/-! ### Host reads (R171, R172) -/

/-- Replace the read port. -/
def State.setPort (s : State) (p : ReadPort) : State := { s with port := p }

/-- A fresh copy of the record that begins at an offset (R172). -/
def State.latchRecord (s : State) (base size : Nat) : Latch :=
  { base := base, bytes := (List.range size).map fun k => s.windowByte (base + k), last := base }

/-- The copy serves a read of the offset (R172). -/
def Latch.serves (x : Latch) (a : Nat) : Bool := decide (x.base ≤ a ∧ a < x.base + x.bytes.length ∧ x.last < a)

/-- The copy after it has served an offset: given up at the record's last byte (R172). -/
def Latch.after (x : Latch) (a : Nat) : Option Latch :=
  if a + 1 = x.base + x.bytes.length then none else some { x with last := a }

/-- The offset is the first byte of a record of this size (R172). -/
def recordStart (a : Nat) : Option Nat :=
  match recordAt a with
  | some (base, size) => if a = base then some size else none
  | none => none

/-- A host read of one byte: the byte and the read port afterwards (R171, R172). -/
def State.readByte (s : State) (a : Nat) : Byte × ReadPort :=
  if a < 0x4000 then
    match recordStart a, s.port.latch with
    | some size, _ => (s.windowByte a, { s.port with latch := some (s.latchRecord a size) })
    | none, some x =>
      if x.serves a then (x.bytes.getD (a - x.base) 0, { s.port with latch := x.after a })
      else (s.windowByte a, { s.port with latch := none })
    | none, none => (s.windowByte a, s.port)
  else (Config.outsideWindow a s.port.outside, { s.port with latch := none, outside := s.port.outside + 1 })

/-- A host read of a byte or a word; the data stay at the port (R171, R172). That the two bytes of a word are read one after
the other, the lower offset first, is the model's choice: it decides whether the interlock holds a copy after an unaligned
word that straddles two records (DESIGN CHOICE, notes/assumptions/28.md). -/
def State.recordRead (s : State) (a : Nat) (word : Bool) : State :=
  let (lo, port) := s.readByte a
  let s := s.setPort { port with data := lo.setWidth 16 }
  if word then
    let (hi, port) := s.readByte (a + 1)
    s.setPort { port with data := hi ++ lo }
  else s

/-! ### Clocks and timers -/

/-- The release hold ends (R175). -/
def State.holdEnd (s : State) : State := s.setRegs { s.regs with hold := none }

/-- The sweep timer expires: it restarts and a sweep starts (R157). -/
def State.sweepTimer (s : State) : State := (s.setTaker { s.taker with sweepTimer := Config.sweepMs }).startSweep

/-- A whole second has passed. -/
def State.tick (s : State) : State := { s with seconds := s.seconds + 1 }

/-- The next advance of a partition's counter falls due while it runs (R50, R51); a rescale is followed by a pass of
estimates, a stall is not (R51, R57). -/
def State.counterAdvance (s : State) (p : Part) : State :=
  let t := (s.prt p).est
  if t.period.isSome then
    runEvent s fun e =>
      let e := e.updPrt p fun q => { q with est := q.est.advance }
      if t.advance.range = t.range then e else e.wantPass p
  else s

/-- The wait deadline of a NEW member passes while it is OFFERED: the expiry is held (R34). -/
def State.waitHeld (s : State) (i : Slot) : State :=
  let c := s.call i
  match c.waitDeadline with
  | some d =>
    if c.state = .offered ∧ reached d s.seconds then
      runEvent s fun e => e.updCall i fun c => { c with expiryHeld := true }
    else s
  | none => s

/-- A call timer of a kind expires: its owner acts (R4). -/
def State.timerExpiry (s : State) (i : Slot) (k : TimerKind) (owner : Event → Slot → Event) : State :=
  if s.timerDue i k then runEvent s fun e => owner e i else s

/-- The WAIT timer of a QUEUED call has expired (R33). -/
def Event.waitExpired (e : Event) (i : Slot) : Event := (e.updCall i fun c => { c with timer := none }).waitOver i

end Sys2Proof.Machine
end

