-- ==== Sys2Proof/Machine/Commands.lean ====
section
/-! DEFINITION. The meaning of each command of spec/opcode_table.json: everything but the queue of waiting commands. A
command whose event cannot happen in the state leaves it unchanged (notes/assumptions/1.md). -/

namespace Sys2Proof.Machine

/-- The outcome of a step. -/
abbrev Out := Host.Outcome State Fault Refusal

/-- POWER_ON_RESET (R168). -/
def execPowerOnReset (bypassActive : Bool) (s : State) : Out := .next (s.powerOn bypassActive)

/-- SOFT_RESET (R169). -/
def execSoftReset (s : State) : Out := .next s.softReset

/-- ATTENTION: a write of Control with Attention set and Soft Reset clear; Notice Enable takes its bit (R157, R173). -/
def execAttention (noticeEnable : Bool) (s : State) : Out := .next ((s.setNotice noticeEnable).startSweep)

/-- NOTICE_ENABLE (R173, R175). -/
def execNoticeEnable (on : Bool) (s : State) : Out := .next (s.setNotice on)

/-- SUMMARY_CLEAR: bits 15 to 8 have no effect (R174, R175). -/
def execSummaryClear (value : Word) (s : State) : Out := .next (s.writeSummary (lowByte value))

/-- MASK_WRITE: bits 15 to 8 are ignored (R173). -/
def execMaskWrite (value : Word) (s : State) : Out := .next (s.writeMask (lowByte value))

/-- HOST_WRITE (R171). -/
def execHostWrite (offset : Nat) (word : Bool) (value : Word) (s : State) : Out :=
  .next (s.hostWrite offset word value)

/-- RECORD_READ (R171, R172). -/
def execRecordRead (offset : Nat) (word : Bool) (s : State) : Out := .next (s.recordRead offset word)

/-- RELEASE_HOLD_END (R175). -/
def execReleaseHoldEnd (s : State) : Out := .next s.holdEnd

/-- BYPASS_ENTRY (R166, R167). -/
def execBypassEntry (s : State) : Out := .next s.bypassEntry

/-- BYPASS_EXIT (R166). -/
def execBypassExit (s : State) : Out := .next s.bypassExit

/-- SWEEP_TIMER_EXPIRY (R157). -/
def execSweepTimerExpiry (s : State) : Out := .next s.sweepTimer

/-- SWEEP_STEP (R158). -/
def execSweepStep (s : State) : Out := .next s.sweepStep

/-- UNKNOWN_KIND_ORDER (R160). -/
def execUnknownKindOrder (s : State) : Out := .next (s.sweepFor none)

/-- OPEN (R64). -/
def execOpenOrder (s : State) : Out := .next (s.sweepFor (some .openK))

/-- CLOSE (R65). -/
def execCloseOrder (s : State) : Out := .next (s.sweepFor (some .closeK))

/-- PAUSE (R67). -/
def execPauseOrder (s : State) : Out := .next (s.sweepFor (some .pauseK))

/-- ANSWER (R71). -/
def execAnswerOrder (s : State) : Out := .next (s.sweepFor (some .answerK))

/-- PICK (R72). -/
def execPickOrder (s : State) : Out := .next (s.sweepFor (some .pickK))

/-- HOLD (R73). -/
def execHoldOrder (s : State) : Out := .next (s.sweepFor (some .holdK))

/-- RETRIEVE (R74). -/
def execRetrieveOrder (s : State) : Out := .next (s.sweepFor (some .retrieveK))

/-- DISCONNECT (R77). -/
def execDisconnectOrder (s : State) : Out := .next (s.sweepFor (some .disconnectK))

/-- EXTEND (R86). -/
def execExtendOrder (s : State) : Out := .next (s.sweepFor (some .extendK))

/-- TRANSFER (R92). -/
def execTransferOrder (s : State) : Out := .next (s.sweepFor (some .transferK))

/-- CANCEL (R93). -/
def execCancelOrder (s : State) : Out := .next (s.sweepFor (some .cancelK))

/-- SET_NIGHT (R118). -/
def execSetNightOrder (s : State) : Out := .next (s.sweepFor (some .setNightK))

/-- APPLY_PLAN (R110). -/
def execApplyPlanOrder (s : State) : Out := .next (s.sweepFor (some .applyPlanK))

/-- APPLY_COMPLETION (R111 to R113). -/
def execApplyCompletion (s : State) : Out := .next s.completeApply

/-- SEND_FRAME (R131). -/
def execSendFrame (link : LinkIx) (s : State) : Out := .next (s.sendFrame link)

/-- POLL_DEADLINE (R132). -/
def execPollDeadline (link : LinkIx) (addr : Addr) (s : State) : Out :=
  .next (s.setLink link ((s.link link).deadline addr))

/-- SHELF_ANSWER (R133). -/
def execShelfAnswer (link : LinkIx) (bytes : List Byte) (orders : List (List Nat)) (s : State) : Out :=
  .next (s.shelfAnswer link bytes orders)

/-- RESPONSE_WINDOW_CLOSE (R133). -/
def execResponseWindowClose (link : LinkIx) (order : List Nat) (s : State) : Out := .next (s.windowClose link order)

/-- OFFER_EXPIRY (R40). -/
def execOfferExpiry (slot : Slot) (s : State) : Out := .next (s.timerExpiry slot .offer Event.offerExpired)

/-- WAIT_EXPIRY (R33). -/
def execWaitExpiry (slot : Slot) (s : State) : Out := .next (s.timerExpiry slot .wait Event.waitExpired)

/-- WAIT_DEADLINE_HELD (R34). -/
def execWaitDeadlineHeld (slot : Slot) (s : State) : Out := .next (s.waitHeld slot)

/-- ANNOUNCE_EXPIRY (R32). -/
def execAnnounceExpiry (slot : Slot) (s : State) : Out := .next (s.timerExpiry slot .announce Event.announceOver)

/-- HOLD1_EXPIRY (R75). -/
def execHold1Expiry (slot : Slot) (s : State) : Out := .next (s.timerExpiry slot .hold1 Event.hold1Over)

/-- HOLD2_EXPIRY (R76). -/
def execHold2Expiry (slot : Slot) (s : State) : Out := .next (s.timerExpiry slot .hold2 Event.hold2Over)

/-- CAMP_EXPIRY (R101). -/
def execCampExpiry (slot : Slot) (s : State) : Out := .next (s.timerExpiry slot .camp Event.campOver)

/-- COUNTER_ADVANCE (R50). -/
def execCounterAdvance (part : Part) (s : State) : Out := .next (s.counterAdvance part)

/-- PERIOD_TIMER_EXPIRY (R151). -/
def execPeriodTimerExpiry (s : State) : Out := .next s.periodExpiry

/-- CADENCE_EDGE (R152). -/
def execCadenceEdge (s : State) : Out := .next s.cadenceEdge

/-- LOSS_TIMER_EXPIRY (R152). -/
def execLossTimerExpiry (s : State) : Out := .next s.lossExpiry

/-- ENGINE_SECONDS_TICK. -/
def execEngineSecondsTick (s : State) : Out := .next s.tick

end Sys2Proof.Machine
end

