-- ==== Sys2Proof/Machine/Dispatch.lean ====
section
/-! DEFINITION. The command's effect on everything but the queue: one call of its meaning for each command. -/

namespace Sys2Proof.Machine

def exec (i : Instr) (s : State) : Host.Outcome State Fault Refusal :=
  match i with
  | .powerOnReset bypassActive => Sys2Proof.Machine.execPowerOnReset bypassActive s
  | .softReset => Sys2Proof.Machine.execSoftReset s
  | .attention noticeEnable => Sys2Proof.Machine.execAttention noticeEnable s
  | .noticeEnable on => Sys2Proof.Machine.execNoticeEnable on s
  | .summaryClear value => Sys2Proof.Machine.execSummaryClear value s
  | .maskWrite value => Sys2Proof.Machine.execMaskWrite value s
  | .hostWrite offset word value => Sys2Proof.Machine.execHostWrite offset word value s
  | .recordRead offset word => Sys2Proof.Machine.execRecordRead offset word s
  | .releaseHoldEnd => Sys2Proof.Machine.execReleaseHoldEnd s
  | .bypassEntry => Sys2Proof.Machine.execBypassEntry s
  | .bypassExit => Sys2Proof.Machine.execBypassExit s
  | .sweepTimerExpiry => Sys2Proof.Machine.execSweepTimerExpiry s
  | .sweepStep => Sys2Proof.Machine.execSweepStep s
  | .unknownKindOrder => Sys2Proof.Machine.execUnknownKindOrder s
  | .openOrder => Sys2Proof.Machine.execOpenOrder s
  | .closeOrder => Sys2Proof.Machine.execCloseOrder s
  | .pauseOrder => Sys2Proof.Machine.execPauseOrder s
  | .answerOrder => Sys2Proof.Machine.execAnswerOrder s
  | .pickOrder => Sys2Proof.Machine.execPickOrder s
  | .holdOrder => Sys2Proof.Machine.execHoldOrder s
  | .retrieveOrder => Sys2Proof.Machine.execRetrieveOrder s
  | .disconnectOrder => Sys2Proof.Machine.execDisconnectOrder s
  | .extendOrder => Sys2Proof.Machine.execExtendOrder s
  | .transferOrder => Sys2Proof.Machine.execTransferOrder s
  | .cancelOrder => Sys2Proof.Machine.execCancelOrder s
  | .setNightOrder => Sys2Proof.Machine.execSetNightOrder s
  | .applyPlanOrder => Sys2Proof.Machine.execApplyPlanOrder s
  | .applyCompletion => Sys2Proof.Machine.execApplyCompletion s
  | .sendFrame link => Sys2Proof.Machine.execSendFrame link s
  | .pollDeadline link addr => Sys2Proof.Machine.execPollDeadline link addr s
  | .shelfAnswer link bytes orders => Sys2Proof.Machine.execShelfAnswer link bytes orders s
  | .responseWindowClose link order => Sys2Proof.Machine.execResponseWindowClose link order s
  | .offerExpiry slot => Sys2Proof.Machine.execOfferExpiry slot s
  | .waitExpiry slot => Sys2Proof.Machine.execWaitExpiry slot s
  | .waitDeadlineHeld slot => Sys2Proof.Machine.execWaitDeadlineHeld slot s
  | .announceExpiry slot => Sys2Proof.Machine.execAnnounceExpiry slot s
  | .hold1Expiry slot => Sys2Proof.Machine.execHold1Expiry slot s
  | .hold2Expiry slot => Sys2Proof.Machine.execHold2Expiry slot s
  | .campExpiry slot => Sys2Proof.Machine.execCampExpiry slot s
  | .counterAdvance part => Sys2Proof.Machine.execCounterAdvance part s
  | .periodTimerExpiry => Sys2Proof.Machine.execPeriodTimerExpiry s
  | .cadenceEdge => Sys2Proof.Machine.execCadenceEdge s
  | .lossTimerExpiry => Sys2Proof.Machine.execLossTimerExpiry s
  | .engineSecondsTick => Sys2Proof.Machine.execEngineSecondsTick s

end Sys2Proof.Machine
end

