-- ==== Sys2Proof/Safety.lean ====
section
/-! DEFINITION. The terms in which claims about the FQ-64 are made: what an event leaves as it was, what the engine may
write of the board, and the conditions that every run keeps. -/

namespace Sys2Proof.Machine

/-! ### Parts of records that most events leave as they were -/

/-- What only the rules of R166 (engine), R113 (plan), R150 (cadence), R157 (sweeps), R172 and R173 (host) change. -/
def State.core (s : State) :=
  (s.pending, s.engine, s.bypassIn, s.seconds, s.planCount, s.plan, s.apply, s.cadence, s.port, s.taker.expect,
    s.taker.sweepTimer, s.taker.sweeping, s.regs.mask, s.regs.noticeEnable, s.regs.hold)

/-- The identity fields of a call, written at its allocation only (R1, R2, R9). -/
def Call.identity (c : Call) := (c.caller, c.callerDigits, c.called, c.cause)

/-- What only signing on and off, pausing, a missed offer, an answer and an activation change (R62, R81). -/
def Position.core (q : Position) := (q.isOpen, q.partition, q.headset, q.role, q.pause, q.missed)

/-- The mode and what the estimator has measured: changed by R117, a capture, a rescale or a seed only. -/
def Partition.core (q : Partition) := (q.mode, q.est.range, q.est.new, q.est.old)

/-- What only reports, ring outcomes, shelf losses and activations change of a lamp entry (R141). -/
def Lamp.core (q : Lamp) := (q.kind, q.line, q.partition, q.number)

/-- Everything of a link but its queue and revision. -/
def Link.core (k : Link) := (k.state, k.window, k.missLimit, k.shelves, k.frame, k.again, k.polls, k.more)

/-- The bytes of a cell that a result writes (R163, R177); the high half of the first is kept. -/
def resultByte (c : CellIx) (a : Nat) : Prop :=
  a = cellBase c ∨ a = cellBase c + 3 ∨ a = cellBase c + 6 ∨ a = cellBase c + 7 ∨ a = cellBase c + 0x0A ∨
    a = cellBase c + 0x0B

/-- The offset is a result byte of the cell of an EXTEND in flight. -/
def State.inFlightByte (s : State) (a : Nat) : Prop := ∃ p c, (s.pos p).extendCell = some c ∧ resultByte c a

/-- The free list holds the slot of every FREE call record and of no other, and none twice (R8). -/
def State.freeListed (s : State) : Prop := s.free.Nodup ∧ ∀ i, i ∈ s.free ↔ (s.call i).state = .free

/-- What routing a call, closing it, offering it and ending an event leave as it was: of a link's queue nothing is taken
away, of Summary no flag is cleared, of the board nothing is written but the results of EXTENDs in flight. -/
structure Keeps (s t : State) : Prop where
  core : t.core = s.core
  summary : s.regs.summary &&& t.regs.summary = s.regs.summary
  taken : ∀ c ∈ t.taker.taken, c ∈ s.taker.taken
  lost : ∀ c ∈ s.taker.taken, c ∉ t.taker.taken → ∃ p, (s.pos p).extendCell = some c ∧ (t.pos p).extendCell = none
  call : ∀ i, (t.call i).identity = (s.call i).identity
  pos : ∀ p, (t.pos p).core = (s.pos p).core
  extendCell : ∀ p, (t.pos p).extendCell = (s.pos p).extendCell ∨ (t.pos p).extendCell = none
  prt : ∀ p, (t.prt p).core = (s.prt p).core
  lamp : ∀ k, (t.lamp k).core = (s.lamp k).core
  link : ∀ l, (t.link l).core = (s.link l).core
  queue : ∀ l, (s.link l).queue <+: (t.link l).queue
  wf : Memory.wf s.mem = true → Memory.wf t.mem = true
  mem : Memory.wf s.mem = true → ∀ a, ¬ s.inFlightByte a → t.mem.read a = s.mem.read a
  place : Memory.wf s.mem = true → ∀ c, cellPosition t.mem c = cellPosition s.mem c
  still : Memory.wf s.mem = true → ∀ c ∈ t.taker.taken, ∀ k < 32, cellByte t.mem c k = cellByte s.mem c k
  slots : s.freeListed → t.freeListed
  board : t.boardRev ≠ s.boardRev → t.flag .board = true

/-! ### Records without what the end of an event may still write -/

/-- A call record without its revision. -/
def Call.bare (c : Call) : Call := { c with rev := 0, written := false }
/-- A panel without its offer, its idle-since and its revision. -/
def Position.bare (q : Position) : Position := { q with offered := none, idleSince := 0, rev := 0, written := false }
/-- A lamp entry without its tied slot and its revision. -/
def Lamp.bare (q : Lamp) : Lamp := { q with tied := none, rev := 0 }
/-- A link without its revision. -/
def Link.bare (k : Link) : Link := { k with rev := 0 }
/-- An estimator without its estimate-clamped mark. -/
def Estimator.bare (t : Estimator) : Estimator := { t with clamped := false }
/-- A partition's record without its estimate-clamped mark and its revision. -/
def Partition.bare (q : Partition) : Partition := { q with est := { q.est with clamped := false }, rev := 0 }
/-- What an offer leaves of a QUEUED call (R38). -/
def Call.waiting (c : Call) :=
  (c.identity, c.endReason, c.partition, c.cls, c.overflowed, c.origin, c.place, c.waitDeadline, c.pending, c.extend)

/-- What an event leaves of the calls, positions, partitions and lamp entries it does not name: its end may still offer QUEUED calls (R35), write estimates (R57) and idle-since times (R69), set tied slots (R141) and raise
revisions (R11). -/
structure Aside (s t : State) (call : Slot → Prop) (pos : Pos → Prop) (prt : Part → Prop)
    (lamp : Circuit → Prop) : Prop where
  calls : ∀ i, ¬ call i → (s.call i).state ≠ .queued → (t.call i).bare = (s.call i).bare
  queued : ∀ i, ¬ call i → (s.call i).state = .queued →
    ((t.call i).state = .queued ∨ (t.call i).state = .offered) ∧ (t.call i).waiting = (s.call i).waiting
  positions : ∀ p, ¬ pos p → (t.pos p).bare = (s.pos p).bare
  partitions : ∀ p, ¬ prt p → (t.prt p).bare = (s.prt p).bare
  lamps : ∀ k, ¬ lamp k → (t.lamp k).bare = (s.lamp k).bare
  free : t.free = s.free

/-! ### Shelf orders issued -/

/-- Queue entries for orders issued on behalf of a call. -/
def entries (i : Slot) (os : List ShelfOrder) : List Entry := os.map fun o => { order := o, slot := some i, handover := false }

/-- The links of these orders are RUNNING and their queues have room for all of them (R130). -/
def State.room (s : State) (os : List ShelfOrder) : Prop :=
  ∀ o ∈ os, (s.link (linkOf o.first)).state = .running ∧
    (s.link (linkOf o.first)).queue.length + os.length ≤ Config.queueMax

/-- From one state to the other these entries have entered the queues of their links, in this order, and nothing else
has entered or left a queue (R130); the call's pending order count has risen with them (R13), and the ring order counts
with their RINGs (R85). -/
def issued (s t : State) (i : Slot) (es : List Entry) : Prop :=
  (∀ l, (t.link l).queue = (s.link l).queue ++ es.filter fun x => linkOf x.order.first == l) ∧
  (t.call i).pending = (s.call i).pending + es.length ∧
  ∀ k, t.rings.get k = s.rings.get k + es.countP fun x => x.order == .ring k

/-! ### Orders of the order board -/

/-- The command that takes an order of a kind. -/
def orderCommand : OrderKind → Instr
  | .openK => .openOrder | .closeK => .closeOrder | .pauseK => .pauseOrder | .answerK => .answerOrder
  | .pickK => .pickOrder | .holdK => .holdOrder | .retrieveK => .retrieveOrder | .extendK => .extendOrder
  | .transferK => .transferOrder | .cancelK => .cancelOrder | .disconnectK => .disconnectOrder
  | .setNightK => .setNightOrder | .applyPlanK => .applyPlanOrder

/-- The next step of the running sweep takes the order in this cell, which is of this kind; no EXTEND in flight answers
to the cell. -/
structure NextOrder (s : State) (c : CellIx) (k : OrderKind) : Prop where
  sweeps : s.sweeps = true
  next : s.nextCell = some c
  kind : cellKind s.mem c = some k
  wf : Memory.wf s.mem = true
  apart : ∀ q, (s.pos q).extendCell ≠ some c

/-- The next step of the running sweep takes a well formed order of this kind for this position while the engine is
SERVING: it is handed to its owner (R160 to R162). -/
structure Takes (s : State) (c : CellIx) (k : OrderKind) (p : Pos) : Prop extends NextOrder s c k where
  length : cellLength s.mem c = k.bodyLength
  place : cellPosition s.mem c = p.val
  serving : s.engine = .serving

/-- The cell holds a result, written now (R163). -/
def State.answered (t : State) (c : CellIx) (code : ResultCode) (detail : Word) : Prop :=
  cellState t.mem c = .done ∧ cellByte t.mem c 3 = code.code ∧ t.mem.read16 (cellBase c + 6) = detail ∧
  t.mem.read16 (cellBase c + 0x0A) = t.seconds.setWidth 16 ∧ c ∉ t.taker.taken ∧ t.flag .order = true

/-- The cell has been taken now (R159). -/
def State.takenNow (t : State) (c : CellIx) : Prop := t.mem.read16 (cellBase c + 8) = t.seconds.setWidth 16

/-- The order in the cell has finished when taken, with this result (R163). -/
def State.finished (t : State) (c : CellIx) (code : ResultCode) (detail : Word) : Prop :=
  t.takenNow c ∧ t.answered c code detail

/-- A byte that the engine writes of a cell it takes or refuses: the result bytes and the taken time (R177). -/
def engineByte (c : CellIx) (a : Nat) : Prop := resultByte c a ∨ a = cellBase c + 8 ∨ a = cellBase c + 9

/-- What a step that takes the order in a cell leaves as it was: the board outside the engine's bytes of that cell, of
cells with stale numbers and of cells of EXTENDs in flight, and everything that no order kind but APPLY_PLAN changes. -/
structure OrderFrame (s t : State) (c : CellIx) : Prop where
  expect : t.taker.expect = s.taker.expect + 1
  kept : (t.pending, t.engine, t.bypassIn, t.seconds, t.planCount, t.plan, t.apply, t.cadence, t.port, t.taker.sweepTimer,
      t.taker.sweeping, t.regs.mask, t.regs.noticeEnable, t.regs.hold) =
    (s.pending, s.engine, s.bypassIn, s.seconds, s.planCount, s.plan, s.apply, s.cadence, s.port, s.taker.sweepTimer,
      s.taker.sweeping, s.regs.mask, s.regs.noticeEnable, s.regs.hold)
  mem : ∀ a, (∀ d, (d = c ∨ (d ∈ s.posted ∧ s.behind d = true) ∨ ∃ p, (s.pos p).extendCell = some d) →
    ¬ engineByte d a) → t.mem.read a = s.mem.read a
  identity : ∀ i, (t.call i).identity = (s.call i).identity
  lamps : ∀ k, (t.lamp k).core = (s.lamp k).core
  links : ∀ l, (t.link l).core = (s.link l).core
  queues : ∀ l, (s.link l).queue <+: (t.link l).queue

/-- Nothing of the engine's records but tied slots and lamp revisions has changed. -/
structure Untouched (s t : State) : Prop where
  calls : t.calls = s.calls
  positions : t.positions = s.positions
  parts : t.parts = s.parts
  links : t.links = s.links
  rings : t.rings = s.rings
  free : t.free = s.free
  lamps : ∀ k, (t.lamp k).bare = (s.lamp k).bare
  engine : (t.pending, t.engine, t.bypassIn, t.seconds, t.planCount, t.plan, t.apply, t.cadence, t.port) =
    (s.pending, s.engine, s.bypassIn, s.seconds, s.planCount, s.plan, s.apply, s.cadence, s.port)

/-! ### What a shelf sends (R125, R127, R178) -/

/-- Digits, two a byte, high half first, an unused half 0 (R178). -/
def packDigits : List (Fin 10) → List Byte
  | [] => []
  | [d] => [BitVec.ofNat 8 (16 * d.val)]
  | d :: e :: ds => BitVec.ofNat 8 (16 * d.val + e.val) :: packDigits ds

/-- A called number as four digits (R178). -/
def packNumber (w : Word) : List Byte :=
  [BitVec.ofNat 8 (16 * (w.toNat / 1000 % 10) + w.toNat / 100 % 10),
    BitVec.ofNat 8 (16 * (w.toNat / 10 % 10) + w.toNat % 10)]

/-- The bytes of a report (R178). -/
def sendReport (r : Report) : List Byte :=
  let first (code : Nat) : Byte := BitVec.ofNat 8 (32 * code + r.port.val)
  match r.kind with
  | .seize attendant a =>
    [first 1, BitVec.ofNat 8 ((if attendant then 128 else 0) + (if a.called.isSome then 64 else 0) + a.caller.length)] ++
      packDigits a.caller ++ (match a.called with | some w => packNumber w | none => [])
  | .answer => [first 2]
  | .clear => [first 3]
  | .idle => [first 4]
  | .busy => [first 5]
  | .fault => [first 6]

/-- The body of an answer (R178). -/
def sendBody : Answer → List Byte
  | .order .ack => [1, 0]
  | .order .nakBusy => [1, 1]
  | .order .nakFault => [1, 2]
  | .order .nakRefused => [1, 3]
  | .order (.lost _) => []
  | .poll more rs => [2, BitVec.ofNat 8 ((if more then 128 else 0) + rs.length)] ++ rs.flatMap sendReport

/-- The shelf's part of a frame: a body and its check byte (R126). -/
def sendAnswer (a : Answer) : List Byte := sendBody a ++ [(sendBody a).foldl (· ^^^ ·) 0x5C]

/-- An arrival that a report can carry: at most 12 caller digits, a called number of four digits (R127). -/
def Arrival.sendable (a : Arrival) : Prop := a.caller.length ≤ 12 ∧ ∀ w, a.called = some w → w.toNat ≤ 9999

/-- An answer that a shelf can send: an outcome of an order but LOST, or at most four reports in a body of at most 32
bytes (R125, R127). -/
def Answer.sendable : Answer → Prop
  | .order o => ∀ u, o ≠ .lost u
  | .poll more rs => rs.length ≤ 4 ∧ (sendBody (.poll more rs)).length ≤ 32 ∧
      ∀ r ∈ rs, ∀ x a, r.kind = .seize x a → a.sendable

end Sys2Proof.Machine
end

