-- ==== Sys2Proof/Certificates/Slice0/Obligations.lean ====
section
/-! DEFINITION. The statements about the FQ-64. Each hypothesis of a group of statements is a structure or a definition
in the first part; each statement stands after the heading it belongs to. -/

/-! ## Hypotheses and conclusions shared by statements -/

namespace Sys2Proof.Machine

/-- The command resets the part: a reset pin, or a write of Control that sets Soft Reset (R168, R169, R173). -/
def resets : Instr → Prop
  | .powerOnReset _ => True
  | .softReset => True
  | .hostWrite a word v =>
    (a = 0x3FE2 ∧ v.getLsbD 1 = true) ∨ (a = 0x3FE1 ∧ word = true ∧ v.getLsbD 9 = true)
  | _ => False

/-- The command is a host write, as a word or byte at a window offset or as one of the register rows. -/
def writesRegisters : Instr → Prop
  | .hostWrite _ _ _ => True
  | .attention _ => True
  | .noticeEnable _ => True
  | .summaryClear _ => True
  | .maskWrite _ => True
  | _ => False

/-- A host write of a byte at an offset is dropped with the Drop flag set (R171). -/
def dropsByte (s : State) (a : Nat) (v : Word) : Prop :=
  exec (.hostWrite a false v) s = .next { s with regs := { s.regs with summary := s.regs.summary ||| 0x80 } }

/-- A host write of a byte at an offset is written there and changes nothing else (R171). -/
def storesByte (s : State) (a : Nat) (v : Word) : Prop :=
  ∃ m, exec (.hostWrite a false v) s = .next { s with mem := m } ∧
    ∀ b, m.read b = if b = a then v.setWidth 8 else s.mem.read b

/-- The record of the window that begins at an offset, with its size (R170, R172). -/
def recordOf (base size : Nat) : Prop :=
  (base = 0 ∧ size = 64) ∨ (∃ l < 4, base = 0x40 + 32 * l ∧ size = 32) ∨ (∃ p < 4, base = 0xC0 + 128 * p ∧ size = 128) ∨
  (∃ p < 8, base = 0x2C0 + 64 * p ∧ size = 64) ∨ (∃ c < 32, base = 0x500 + 32 * c ∧ size = 32) ∨
  (∃ i < 64, base = 0x900 + 64 * i ∧ size = 64) ∨ (∃ k < 256, base = 0x1900 + 8 * k ∧ size = 8)

/-! ### The checks of orders, in the order of the tables of R63, R86, R92 and R93 -/

/-- The code of the first check that fails. -/
def firstRefusal (checks : List (Bool × ResultCode)) : Option ResultCode := (checks.find? fun x => !x.1).map (·.2)

/-- The call on the position's speaking loop has a property. -/
def speakingIs (s : State) (p : Pos) (f : Call → Bool) : Bool :=
  match (s.pos p).speakingCall with | some i => f (s.call i) | none => false

/-- The circuit a number names. -/
def namedCircuit (s : State) (n : Word) (f : Circuit → Bool) : Bool :=
  match s.lookup n with | some k => f k | none => false

/-- The line of a circuit is neither OUT_OF_SERVICE nor UNKNOWN. -/
def lineServes (s : State) (k : Circuit) : Bool := (s.lamp k).line != .outOfService && (s.lamp k).line != .unknown

/-- The checks an order's owner makes, each with its refusal code; `b` are the body bytes (R63, R82, R86, R92, R93,
R118). -/
def orderChecks (s : State) (p : Pos) (b : Nat → Byte) : OrderKind → List (Bool × ResultCode)
  | .openK =>
    [(!(s.pos p).isOpen, .alreadyOpen), ((s.pos p).partition.isSome, .badPosition),
      (match (s.pos p).headset with | some h => lineServes s h | none => false, .outOfService)]
  | .closeK => [((s.pos p).isOpen, .notOpen), (b 0 != 0 || (s.pos p).loops.list.all (·.isNone), .loopsInUse)]
  | .pauseK => [((s.pos p).isOpen, .notOpen)]
  | .answerK => [((s.pos p).isOpen, .notOpen), ((s.pos p).offered.isSome, .noOffer)]
  | .pickK =>
    [((s.pos p).isOpen, .notOpen), ((s.pos p).extend.isNone, .inProgress), ((s.pos p).speaking.isNone, .speaking),
      ((s.pos p).loops.list.any (·.isNone), .noLoop),
      ((List.finRange 64).any fun i => (b 0).toNat == i.val && (s.call i).state == .queued &&
        (s.pos p).partition == some (s.call i).partition, .wrongState)]
  | .holdK =>
    [((s.pos p).isOpen, .notOpen), ((s.pos p).extend.isNone, .inProgress), ((s.pos p).speakingCall.isSome, .noCall),
      (speakingIs s p fun c => c.state == .talking, .wrongState)]
  | .retrieveK =>
    [((s.pos p).isOpen, .notOpen), ((s.pos p).extend.isNone, .inProgress), (decide ((b 0).toNat < 4), .noLoop),
      ((s.pos p).speaking.isNone, .speaking),
      ((List.finRange 4).any fun l => (b 0).toNat == l.val &&
        (List.finRange 64).any fun i => (s.pos p).loops.get l == some i && (s.call i).state == .held, .noCall)]
  | .disconnectK =>
    [((s.pos p).isOpen, .notOpen), ((s.pos p).extend.isNone, .inProgress), ((s.pos p).speakingCall.isSome, .noCall)]
  | .extendK =>
    [((s.pos p).isOpen, .notOpen), ((s.pos p).extend.isNone, .inProgress), ((s.pos p).speakingCall.isSome, .noCall),
      (speakingIs s p fun c => c.state == .talking, .wrongState),
      (decide ((b 1 ++ b 0).toNat ≤ 9999) && (s.lookup (b 1 ++ b 0)).isSome, .noSuchNumber),
      (namedCircuit s (b 1 ++ b 0) fun k => speakingIs s p fun c => k != c.caller, .sameCircuit),
      (namedCircuit s (b 1 ++ b 0) fun k => lineServes s k, .outOfService)]
  | .transferK =>
    [((s.pos p).isOpen, .notOpen), ((s.pos p).speakingCall.isSome, .noCall),
      (speakingIs s p fun c => !((c.state == .consultRinging && !c.confirmed) || (c.state == .talking && c.extend.isSome)),
        .inProgress),
      (speakingIs s p fun c => c.state == .consultRinging || c.state == .consultTalking, .wrongState)]
  | .cancelK =>
    [((s.pos p).isOpen, .notOpen), ((s.pos p).speakingCall.isSome, .noCall),
      (speakingIs s p fun c => c.state == .consultRinging || c.state == .consultTalking ||
        (c.state == .talking && c.extend.isSome), .wrongState)]
  | .setNightK =>
    [((s.pos p).role == .chief, .noAuthority),
      ((List.finRange 4).any fun q => (b 0).toNat == q.val && (s.part q).enabled, .wrongState)]
  | .applyPlanK => [((s.pos p).role == .chief, .noAuthority)]

/-! ### What several groups of statements speak of -/

/-- The states of a call on a loop (R7, R70). -/
def loopState (st : CallState) : Prop :=
  st = .talking ∨ st = .held ∨ st = .consultRinging ∨ st = .consultTalking

/-- The states of the call on a speaking loop (R70). -/
def speakingState (st : CallState) : Prop := loopState st ∧ st ≠ .held

/-- The states of a roster member (R24). -/
def rosterState (st : CallState) : Prop := st = .queued ∨ st = .offered

/-- The partition takes recalls: it is enabled, in DAY, its roster has room and does not hold the call (R25, R26). -/
structure RecallOpen (s : State) (i : Slot) : Prop where
  enabled : (s.part (s.call i).partition).enabled = true
  day : (s.prt (s.call i).partition).mode = .day
  space : (s.prt (s.call i).partition).roster.length < 63
  absent : i ∉ (s.prt (s.call i).partition).roster
  once : (s.prt (s.call i).partition).roster.Nodup

/-- The EXTEND in flight at the position, if there was one, has been answered (R163). -/
def extendAnswered (s t : State) (p : Pos) (code : ResultCode) : Prop :=
  ∀ d, (s.pos p).extend ≠ none → (s.pos p).extendCell = some d → t.answered d code 0

/-- A call record that R7 has moved to a state of a loop; the fields that the causing rule fills besides stand as they
were. -/
def onLoop (c : Call) (st : CallState) (now : Seconds) : Call :=
  { c.bare with
    state := st, entered := now, place := none, estimate := none, waitDeadline := none, announcer := none, timer := none,
    expiryHeld := false, ringPending := false, ringLimit := false, ringCount := 0, confirmed := false }

/-- A call record that R7 has moved to a state without a position and a loop. -/
def offLoops (c : Call) (st : CallState) (now : Seconds) : Call :=
  { onLoop c st now with position := none, loop := none }

/-- The orders of these shelves are neither LOST nor ABSENT, so that teardown orders to them are issued (R16). -/
def reachable (s : State) (os : List ShelfOrder) : Prop :=
  ∀ o ∈ os, (s.shelfOf o.first).state ≠ .lost ∧ (s.shelfOf o.first).state ≠ .absent

/-- Nothing has been issued to a shelf and no ring order count has changed. -/
def silent (s t : State) : Prop := (∀ l, (t.link l).queue = (s.link l).queue) ∧ t.rings = s.rings

/-- From one state to the other these entries, and no others, have entered the queues of their links (R130). -/
def queuedAfter (s t : State) (es : List Entry) : Prop :=
  ∀ l, (t.link l).queue = (s.link l).queue ++ es.filter fun x => linkOf x.order.first == l

/-- Letting the circuit go starts no camp ring: nobody camps on it, or its line is not IDLE (R99). -/
def unserved (s : State) (k : Circuit) : Prop := (s.lamp k).camp = [] ∨ (s.lamp k).line ≠ .idle

/-- The partition's announcer can be joined (R31). -/
def announces (s : State) (q : Part) (a : Circuit) : Prop := (s.part q).announcer = some a ∧ lineServes s a = true

/-- The ANNOUNCE timer that starts now in a partition (R31). -/
def announceTimer (s : State) (q : Part) : Option (TimerKind × Seconds) :=
  some (.announce, s.seconds + BitVec.ofNat 32 (s.part q).announceTime)

/-- A member of its partition's roster. -/
structure Member (s : State) (i : Slot) (q : Part) : Prop where
  partition : (s.call i).partition = q
  member : i ∈ (s.prt q).roster
  once : (s.prt q).roster.Nodup

/-- The alert mark of a partition is as the alert test leaves it for its roster (R43). -/
def alertTested (s t : State) (q : Part) : Prop :=
  ((t.prt q).alert = true ↔ (s.part q).alertLevel ≠ 0 ∧ (s.part q).alertLevel ≤ (t.prt q).roster.length)

/-- The alert mark of a partition has been set (R43). -/
def alertSet (s t : State) (q : Part) : Prop := (s.prt q).alert = false ∧ (t.prt q).alert = true

/-- A roster that its call has left without an answer: the counter stops when it was the last member (R27, R53), and the
alert test has been made (R43). -/
def leftRoster (s t : State) (q : Part) (i : Slot) : Prop :=
  (t.prt q).roster = (s.prt q).roster.filter (· != i) ∧ alertTested s t q ∧
  (t.prt q).est.bare =
    if (t.prt q).roster = [] then { (s.prt q).est.bare with counter := 0, stall := false, period := none }
    else (s.prt q).est.bare

/-- A call that has joined the tail of a roster as an overflowed NEW member (R26, R30, R43). -/
structure JoinedTail (s t : State) (i : Slot) (q : Part) : Prop where
  state : (t.call i).state = .queued ∨ (t.call i).state = .offered
  call : (t.call i).partition = q ∧ (t.call i).cls = .new ∧ (t.call i).overflowed = true
  roster : (t.prt q).roster = (s.prt q).roster ++ [i]
  alert : alertTested s t q
  place : (t.call i).place = some ((s.prt q).roster.length + 1)
  wait : (t.call i).waitDeadline =
    if (s.part q).waitLimit = 0 then none else some (s.seconds + BitVec.ofNat 32 (s.part q).waitLimit)

/-- A roster that takes one more NEW member, which it does not hold yet (R25). -/
structure RoomForNew (s : State) (q : Part) (i : Slot) : Prop where
  day : (s.prt q).mode = .day
  new : s.newCount q < (s.part q).capacity
  space : (s.prt q).roster.length < 63
  once : (s.prt q).roster.Nodup
  absent : i ∉ (s.prt q).roster

/-- A call that is OFFERED to a position, and so has no target (R7, R27, R38). -/
structure OfferedTo (s : State) (i : Slot) (p : Pos) : Prop where
  state : (s.call i).state = .offered
  target : (s.call i).target = none
  position : (s.call i).position = some p
  offer : (s.pos p).offered = some i

/-- The call has been recalled to its partition's roster: placed directly behind the last RECALL member, or at the head
when there is none, without a wait deadline; it may have been offered at once (R26, R38, R43). -/
structure Recalled (s t : State) (i : Slot) : Prop where
  state : (t.call i).state = .queued ∨ (t.call i).state = .offered
  cls : (t.call i).cls = .recall
  partition : (t.call i).partition = (s.call i).partition
  wait : (t.call i).waitDeadline = none ∧ (t.call i).expiryHeld = false
  place : ∃ front back, (s.prt (s.call i).partition).roster = front ++ back ∧
    (t.prt (s.call i).partition).roster = front ++ i :: back ∧ (∀ j ∈ back, (s.call j).cls ≠ .recall) ∧
    (front = [] ∨ ∃ j, front.getLast? = some j ∧ (s.call j).cls = .recall)
  places : ∀ n j, (t.prt (s.call i).partition).roster[n]? = some j → (t.call j).place = some (n + 1)
  alert : alertTested s t (s.call i).partition
  counter : (t.prt (s.call i).partition).est.bare =
    if (s.prt (s.call i).partition).roster = [] then
      { (s.prt (s.call i).partition).est.bare with
        counter := 0, stall := false, period := some (2 ^ (s.prt (s.call i).partition).est.range) }
    else (s.prt (s.call i).partition).est.bare

/-! ### Held expiries that act when an offer ends (R34) -/

/-- The orders that overflowing from partition `q` gives a call: RINGBACK in another roster, or the announcer (R30,
R31; that RINGBACK is given on this way too is the model's reading, notes/assumptions/16.md). -/
def overflowOrders (s : State) (i : Slot) (q : Part) : List ShelfOrder :=
  match (s.part q).overflow, (s.part q).announcer with
  | .partition _, _ => [.tone (s.call i).caller .ringback]
  | .fallback, some a => [.tone (s.call i).caller .quiet, .join (s.call i).caller a]
  | .fallback, none => []

/-- A call of partition `q` OFFERED to position `p` whose wait has run out meanwhile; its overflow finds a place: the
other partition's roster takes it, or the announcer can be joined (R30, R31, R34). -/
structure HeldOffer (s : State) (i : Slot) (p : Pos) (q : Part) : Prop extends OfferedTo s i p, Member s i q where
  held : (s.call i).expiryHeld = true
  into : ∀ r, (s.part q).overflow = .partition r → r ≠ q ∧ (s.part r).enabled = true ∧ RoomForNew s r i
  announcer : (s.part q).overflow = .fallback → ∃ a, announces s q a

/-- The call has overflowed from partition `q` (R30, R31, R33). -/
structure Overflowed (s t : State) (i : Slot) (q : Part) : Prop where
  kept : (t.call i).identity = (s.call i).identity ∧ (t.call i).origin = (s.call i).origin ∧
    (t.call i).endReason = (s.call i).endReason
  pending : (t.call i).pending = (s.call i).pending + (overflowOrders s i q).length
  into : ∀ r, (s.part q).overflow = .partition r → JoinedTail s t i r
  announced : ∀ a, (s.part q).overflow = .fallback → announces s q a →
    (t.call i).bare =
      { offLoops (s.call i) .announced s.seconds with
        overflowed := true, announcer := some a, timer := announceTimer s q, pending := (s.call i).pending + 2 }

/-- The partitions whose rosters an overflow from partition `q` changes. -/
def overflowParts (s : State) (q x : Part) : Prop := x = q ∨ (s.part q).overflow = .partition x

/-- The calls whose records an overflow of call `i` from partition `q` may change: itself and the members there. -/
def overflowCalls (s : State) (i : Slot) (q : Part) (j : Slot) : Prop :=
  j = i ∨ ∃ x, overflowParts s q x ∧ j ∈ (s.prt x).roster

/-! ### The distribution arbiter (R35 to R38) -/

/-- The position is available to the partition (R35). -/
def canTake (u : State) (q : Part) (x : Pos) : Bool :=
  (u.pos x).partition == some q && (u.pos x).isOpen && (u.pos x).pause == none && (u.pos x).offered == none &&
    (u.pos x).speaking == none && (List.finRange 4).any fun l => (u.pos x).loops.get l == none

/-- The first QUEUED RECALL member in roster order whose origin is the position (R36). -/
def recallOf (u : State) (q : Part) (x : Pos) : Option Slot :=
  (u.prt q).roster.find? fun i =>
    (u.call i).state == .queued && (u.call i).cls == .recall && (u.call i).origin == some x

/-- The QUEUED members that Step A leaves to Step B, in roster order (R36, R37). -/
def leftToStepB (u : State) (q : Part) : List Slot :=
  (u.prt q).roster.filter fun i =>
    (u.call i).state == .queued && !((List.finRange 8).any fun x => canTake u q x && recallOf u q x == some i)

/-- The available positions that Step A leaves to Step B, the earliest idle-since first and of equal ones the lower number
(R37). -/
def inTurn (u : State) (q : Part) (xs : List Pos) : Prop :=
  xs.Pairwise (fun x y => (u.pos x).idleSince < (u.pos y).idleSince ∨
    ((u.pos x).idleSince = (u.pos y).idleSince ∧ x < y)) ∧
  ∀ x, x ∈ xs ↔ canTake u q x = true ∧ recallOf u q x = none

/-- What an offer makes of a QUEUED call (R38). -/
def offerOf (u : State) (q : Part) (i : Slot) (x : Pos) : Call :=
  { onLoop (u.call i) .offered u.seconds with
    position := some x, loop := none, target := none, place := (u.call i).place, waitDeadline := (u.call i).waitDeadline
    timer := some (.offer, u.seconds + BitVec.ofNat 32 (u.part q).offerTimeout) }

/-- From state `u`, the arbiter of partition `q` has run: Step A offers each available position the first RECALL member
that comes from it, Step B offers the other QUEUED members, head first, to the other positions in turn; whoever gets no
offer waits on (R35 to R38). -/
structure Distributed (u t : State) (q : Part) : Prop where
  stepA : ∀ x i, canTake u q x = true → recallOf u q x = some i → (t.pos x).offered = some i
  stepB : ∀ xs, inTurn u q xs → ∀ (n : Nat) (x : Pos), xs[n]? = some x → (t.pos x).offered = (leftToStepB u q)[n]?
  apart : ∀ x, canTake u q x = false → (t.pos x).offered = (u.pos x).offered
  offered : ∀ x i, canTake u q x = true → (t.pos x).offered = some i → (t.call i).bare = offerOf u q i x
  waiting : ∀ i ∈ (u.prt q).roster, (u.call i).state = .queued →
    (∀ x, canTake u q x = true → (t.pos x).offered ≠ some i) →
    (t.call i).bare = { (u.call i).bare with estimate := (t.call i).estimate }

/-- The roster of a partition holds calls of the partition, none twice, each with its place (R24). -/
structure RosterHolds (s : State) (q : Part) : Prop where
  once : (s.prt q).roster.Nodup
  members : ∀ j ∈ (s.prt q).roster, (s.call j).partition = q
  places : ∀ n j, (s.prt q).roster[n]? = some j → (s.call j).place = some (n + 1)

/-! ### Reports of a shelf (R127, R133, R145) -/

/-- The call rings, consults or camps on the circuit: a slot that is FREE or CLOSING only keeps its target in its record
(R7, R85, R94). -/
def engages (c : Call) (k : Circuit) : Prop :=
  (∃ n, c.target = some { number := n, circuit := k }) ∧
  (c.state = .consultRinging ∨ c.state = .consultTalking ∨ c.state = .ringingOut ∨ c.state = .camped ∨
    (c.state = .talking ∧ c.extend ≠ none))

/-- The frame in flight on a link is a poll of a PRESENT shelf. -/
structure PollFlies (s : State) (l : LinkIx) (f : Frame) : Prop where
  frame : (s.link l).frame = some f
  alive : f.dead = false
  entry : f.entry = none
  present : ((s.link l).shelves.get f.addr).state = .present
  wf : Memory.wf s.mem = true

/-- The frame of a link has ended with a good answer of its PRESENT shelf (R133). -/
def frameEnded (s t : State) (l : LinkIx) (a : Addr) : Prop :=
  (t.link l).frame = none ∧ (t.link l).again = (s.link l).again ∧ (t.link l).state = (s.link l).state ∧
  (t.link l).shelves = (s.link l).shelves.set a { (s.link l).shelves.get a with misses := 0 } ∧
  (t.link l).polls = (s.link l).polls ∧ ∀ m, m ≠ l → (t.link m).core = (s.link m).core

/-- A shelf's answer that hands over one report (R127, R178). -/
def reportOf (more : Bool) (port : Fin 16) (kind : ReportKind) : List Byte :=
  sendAnswer (.poll more [{ port := port, kind := kind }])

/-- The frame of a poll that brings one report has ended, and the line of its circuit is this (R133, R143). -/
def reported (s t : State) (l : LinkIx) (f : Frame) (k : Circuit) (line : LineState) : Prop :=
  frameEnded s t l f.addr ∧ (t.lamp k).line = line

/-- A poll is in flight to the shelf of circuit `h`, the headset of the OPEN position `p` and of no other OPEN position, which
is in service; no live call has it as its caller, and none rings, consults or camps on it (R78, R149). -/
structure HeadsetReports (s : State) (l : LinkIx) (f : Frame) (port : Fin 16) (p : Pos) (h : Circuit) : Prop
    extends PollFlies s l f where
  circuit : h = circuitAt l f.addr port
  served : (s.lamp h).line ≠ .outOfService
  isOpen : (s.pos p).isOpen = true
  only : ∀ x, x ≠ p → (s.pos x).isOpen = true → (s.pos x).headset ≠ some h
  noCaller : ∀ j, (s.call j).state ≠ .free → (s.call j).caller ≠ h
  noTarget : ∀ j, ¬ engages (s.call j) h
  noCamp : (s.lamp h).camp = []

/-! ### What the window shows (R171, R173, R176, R180) -/

/-- The 16-bit field at an offset, least significant byte first (R170). -/
def State.shows16 (s : State) (a : Nat) : Word := s.windowByte (a + 1) ++ s.windowByte a
/-- The 32-bit field at an offset (R170). -/
def State.shows32 (s : State) (a : Nat) : Seconds := s.shows16 (a + 2) ++ s.shows16 a
/-- A number as a byte that shows 255 while it is absent. -/
def orFF {n : Nat} : Option (Fin n) → Byte | some x => BitVec.ofNat 8 x.val | none => 255
/-- A yes or no as a byte. -/
def asBit (b : Bool) : Byte := if b = true then 1 else 0
/-- A byte shows a field under a coding: the pairs of value and code. -/
def coded {α : Type} (v : α) (b : Byte) (codes : List (α × Nat)) : Prop := ∀ x ∈ codes, v = x.1 → b = BitVec.ofNat 8 x.2
/-- The bits of a byte of marks, bit 0 first. -/
def marks (b : Byte) (ms : List Bool) : Prop := ∀ k < 8, b.getLsbD k = ms.getD k false
/-- The bytes from one offset to before another read 0. -/
def State.showsZero (s : State) (a e : Nat) : Prop := ∀ k, a ≤ k → k < e → s.windowByte k = 0

/-- The codings of an engine state and of the cadence source in use (R171). -/
def engineCodes : List (EngineState × Nat) := [(.closed, 0), (.serving, 1), (.bypassed, 2)]

/-- The engine header (R171). -/
structure ShowsHeader (s : State) : Prop where
  engine : coded s.engine (s.windowByte 0) engineCodes
  cadence : coded s.cadence.inUse (s.windowByte 1) [(.internal, 0), (.external, 1)]
  board : s.shows16 2 = s.boardRev
  seconds : s.shows32 4 = s.seconds
  expect : s.shows16 8 = s.taker.expect
  free : s.windowByte 0x0A = BitVec.ofNat 8 s.free.length
  plans : s.shows32 0x0C = s.planCount
  rest : s.windowByte 0x0B = 0 ∧ s.showsZero 0x10 0x40

/-- The registers (R173). -/
structure ShowsRegisters (s : State) : Prop where
  ident : s.shows16 0x3FE0 = 0x4A01
  control : s.shows16 0x3FE2 = if s.regs.noticeEnable = true then 4 else 0
  summary : s.windowByte 0x3FE4 = s.regs.summary ∧ s.windowByte 0x3FE5 = 0
  mask : s.windowByte 0x3FE6 = s.regs.mask ∧ s.windowByte 0x3FE7 = 0
  engine : coded s.engine (s.windowByte 0x3FE8) engineCodes ∧ s.windowByte 0x3FE9 = BitVec.ofNat 8 s.free.length
  rest : s.showsZero 0x3FEA 0x4000

/-- A call record at its offset: written since the last reset, all its fields; else its state and end reason (R176). -/
structure ShowsCall (s : State) (i : Slot) (b : Nat) (c : Call) : Prop where
  state : coded c.state (s.windowByte b)
    [(.free, 0), (.queued, 1), (.offered, 2), (.talking, 3), (.held, 4), (.consultRinging, 5), (.consultTalking, 6),
      (.ringingOut, 7), (.camped, 8), (.announced, 9), (.closing, 10)]
  reason : coded c.endReason (s.windowByte (b + 1))
    [(none, 0), (some .callerCleared, 1), (some .attendantDisconnect, 2), (some .delivered, 3), (some .congestion, 4),
      (some .unanswered, 5), (some .shelfLost, 6), (some .pathFault, 7), (some .bypass, 8), (some .reset, 9)]
  blank : c.written = false → s.showsZero (b + 2) (b + 64)
  written : c.written = true →
    s.shows16 (b + 2) = c.rev ∧ s.windowByte (b + 4) = BitVec.ofNat 8 c.partition.val ∧
    coded c.cls (s.windowByte (b + 5)) [(.new, 0), (.recall, 1)] ∧
    marks (s.windowByte (b + 6))
      [c.overflowed, c.confirmed, c.ringPending, c.ringLimit, c.expiryHeld, c.extend.isSome] ∧
    coded c.cause (s.windowByte (b + 7)) [(.trunk, 0), (.dialAttendant, 1), (.unansweredDial, 2)] ∧
    s.windowByte (b + 8) = BitVec.ofNat 8 c.caller.val ∧
    s.windowByte (b + 9) = BitVec.ofNat 8 c.callerDigits.length ∧
    (∀ k < 6, ∃ high low, s.windowByte (b + 0x0A + k) = BitVec.ofNat 8 (16 * high + low) ∧
      (c.callerDigits.map (·.val)).getD (2 * k) 0 = high ∧ (c.callerDigits.map (·.val)).getD (2 * k + 1) 0 = low) ∧
    s.shows16 (b + 0x10) = c.called.getD 0xFFFF ∧ s.windowByte (b + 0x12) = orFF c.position ∧
    s.windowByte (b + 0x13) = orFF c.loop ∧ s.windowByte (b + 0x14) = orFF c.origin ∧
    s.windowByte (b + 0x15) = orFF (c.target.map (·.circuit)) ∧
    s.shows16 (b + 0x16) = (c.target.map (·.number)).getD 0xFFFF ∧
    s.windowByte (b + 0x18) = BitVec.ofNat 8 (c.place.getD 255) ∧
    coded (c.timer.map (·.1)) (s.windowByte (b + 0x19))
      [(none, 0), (some .offer, 1), (some .hold1, 2), (some .hold2, 3), (some .camp, 4), (some .wait, 5),
        (some .announce, 6)] ∧
    s.shows16 (b + 0x1A) = BitVec.ofNat 16 (c.estimate.getD 0xFFFF) ∧ s.shows32 (b + 0x1C) = (c.timer.map (·.2)).getD 0 ∧
    s.shows32 (b + 0x20) = c.waitDeadline.getD 0 ∧ s.shows32 (b + 0x24) = c.entered ∧
    s.windowByte (b + 0x28) = BitVec.ofNat 8 c.ringCount ∧ s.windowByte (b + 0x29) = BitVec.ofNat 8 c.pending ∧
    (∀ n, c.extend = some n → s.shows16 (b + 0x2A) = n) ∧ s.windowByte (b + 0x2C) = orFF c.announcer ∧
    s.showsZero (b + 0x2D) (b + 64)

/-- A position panel at its offset: written since the last reset, all its fields; else zero throughout (R83, R180). -/
structure ShowsPanel (s : State) (p : Pos) (b : Nat) (q : Position) : Prop where
  blank : q.written = false → s.showsZero b (b + 64)
  written : q.written = true →
    s.windowByte b = asBit q.isOpen ∧
    marks (s.windowByte (b + 1))
      [q.pause.isSome, q.pause == some .missed, q.extend.isSome, false, q.flash.get 0, q.flash.get 1, q.flash.get 2,
        q.flash.get 3] ∧
    s.shows16 (b + 2) = q.rev ∧ s.windowByte (b + 4) = orFF q.partition ∧ s.windowByte (b + 5) = orFF q.headset ∧
    coded q.role (s.windowByte (b + 6)) [(.none, 0), (.chief, 1), (.deputy, 2)] ∧
    s.windowByte (b + 7) = orFF q.offered ∧ s.windowByte (b + 8) = orFF q.speaking ∧
    (∀ l : LoopIx, s.windowByte (b + 9 + l.val) = orFF (q.loops.get l)) ∧
    s.windowByte (b + 0x0D) = BitVec.ofNat 8 q.missed ∧ (∀ n, q.extend = some n → s.shows16 (b + 0x0E) = n) ∧
    s.shows32 (b + 0x10) = q.idleSince ∧ s.showsZero (b + 0x14) (b + 64)

/-- A partition status record at its offset: the partition's own fields, the settings of the active plan, or 0 without one,
and the roster, head first (R180). -/
structure ShowsPartition (s : State) (p : Part) (b : Nat) (q : Partition) : Prop where
  mode : coded q.mode (s.windowByte b) [(.day, 0), (.night, 1)]
  marks : marks (s.windowByte (b + 1))
    [(s.part p).enabled, q.alert, q.est.stall, q.est.clamped, (s.part p).autoNight]
  rev : s.shows16 (b + 2) = q.rev
  counts : s.windowByte (b + 4) = BitVec.ofNat 8 q.roster.length ∧
    s.windowByte (b + 5) = BitVec.ofNat 8 (q.roster.countP fun i => (s.call i).cls == .new)
  estimator : s.windowByte (b + 6) = BitVec.ofNat 8 q.est.range ∧ s.windowByte (b + 7) = BitVec.ofNat 8 q.est.new ∧
    s.windowByte (b + 8) = BitVec.ofNat 8 q.est.old
  noPlan : s.plan = none → s.showsZero (b + 9) (b + 0x1F)
  settings : ∀ pl pp, s.plan = some pl → pl.parts.get p = pp →
    s.windowByte (b + 9) = pp.members ∧ s.windowByte (b + 0x0A) = BitVec.ofNat 8 pp.capacity ∧
    s.windowByte (b + 0x0B) = BitVec.ofNat 8 pp.alertLevel ∧ s.shows16 (b + 0x0C) = BitVec.ofNat 16 pp.overflowLimit ∧
    coded pp.overflow (s.windowByte (b + 0x0E))
      [(.partition 0, 0), (.partition 1, 1), (.partition 2, 2), (.partition 3, 3), (.fallback, 255)] ∧
    s.windowByte (b + 0x0F) = orFF pp.announcer ∧ s.shows16 (b + 0x10) = pp.night ∧
    s.windowByte (b + 0x12) = BitVec.ofNat 8 pp.offerTimeout ∧ s.windowByte (b + 0x13) = BitVec.ofNat 8 pp.ringLimit ∧
    s.shows16 (b + 0x14) = BitVec.ofNat 16 pp.holdRecall ∧ s.shows16 (b + 0x16) = BitVec.ofNat 16 pp.campRecall ∧
    s.shows16 (b + 0x18) = BitVec.ofNat 16 pp.waitLimit ∧ s.windowByte (b + 0x1A) = BitVec.ofNat 8 pp.announceTime ∧
    s.windowByte (b + 0x1B) = BitVec.ofNat 8 pp.seedRange ∧ s.windowByte (b + 0x1C) = BitVec.ofNat 8 pp.seedSpacing ∧
    s.windowByte (b + 0x1D) = BitVec.ofNat 8 pp.weight ∧
    coded pp.basis (s.windowByte (b + 0x1E)) [(.newer, 1), (.older, 2), (.mean, 3)]
  roster : s.windowByte (b + 0x1F) = 0 ∧
    ∀ k < 96, s.windowByte (b + 0x20 + k) = match q.roster[k]? with | some i => BitVec.ofNat 8 i.val | none => 0

/-- A lamp entry at its offset (R180). -/
structure ShowsLamp (s : State) (b : Nat) (q : Lamp) : Prop where
  kind : ∀ x ∈ [(LineKind.unused, 0), (.trunk, 1), (.extension, 2), (.position, 3), (.announcer, 4)],
    q.kind = x.1 → s.windowByte b = BitVec.ofNat 8 (16 * q.camp.length + x.2)
  line : coded q.line (s.windowByte (b + 1)) [(.unknown, 0), (.idle, 1), (.busy, 2), (.ringing, 3), (.outOfService, 4)]
  rev : s.shows16 (b + 2) = q.rev
  partition : s.windowByte (b + 4) = q.partition
  tied : s.windowByte (b + 5) = match q.tied with | some i => BitVec.ofNat 8 (128 + i.val) | none => 0
  number : s.shows16 (b + 6) = q.number

/-- A link status record at its offset (R180). -/
structure ShowsLink (s : State) (b : Nat) (k : Link) : Prop where
  state : coded k.state (s.windowByte b) [(.held, 0), (.running, 1)]
  window : s.windowByte (b + 1) = BitVec.ofNat 8 k.window
  rev : s.shows16 (b + 2) = k.rev
  limit : s.windowByte (b + 4) = BitVec.ofNat 8 k.missLimit
  shelves : ∀ (a : Addr) (sh : Shelf), k.shelves.get a = sh →
    coded sh.state (s.windowByte (b + 8 + 4 * a.val)) [(.absent, 0), (.searching, 1), (.present, 2), (.lost, 3)] ∧
    s.windowByte (b + 9 + 4 * a.val) = BitVec.ofNat 8 sh.misses ∧
    s.windowByte (b + 10 + 4 * a.val) = BitVec.ofNat 8 sh.interval ∧ s.windowByte (b + 11 + 4 * a.val) = 0
  rest : s.showsZero (b + 5) (b + 8) ∧ s.showsZero (b + 0x18) (b + 32)

/-! ### Revisions (R11, R12) -/

/-- A panel without its revision; the cell of the EXTEND in flight is not published (R62). -/
def Position.shown (q : Position) : Position := { q with rev := 0, written := false, extendCell := none }
/-- The published fields of a partition status record but its revision (R180). -/
def State.shownPart (s : State) (q : Part) :=
  ((s.prt q).mode, (s.prt q).alert, (s.prt q).roster, s.newCount q, (s.prt q).est.range, (s.prt q).est.new,
    (s.prt q).est.old, (s.prt q).est.stall, (s.prt q).est.clamped, s.plan.map fun pl => pl.parts.get q)
/-- The published fields of a lamp entry but its revision (R141). -/
def Lamp.shown (q : Lamp) := (q.kind, q.line, q.partition, q.number, q.tied, q.camp.length)
/-- The published fields of a link status record but its revision (R123). -/
def Link.shown (k : Link) := (k.state, k.window, k.missLimit, k.shelves)

/-- How many events a command can be: the arbiter of a link fails up to 1024 orders at the head, each an event (R131); a
poll answer is one event and one more for each of its at most four reports (R128). -/
def eventsOf : Instr → Nat
  | .sendFrame _ => 1024
  | .shelfAnswer _ _ _ => 5
  | _ => 1

/-- The revision of a record has gone from `a` to `b` in at most `n` events, which have raised it by one each at most, and
have raised it if the record's fields differ; so one event that changes a field raises it by exactly one (R11). -/
def revised (n : Nat) (a b : Word) (differ : Prop) : Prop := (b - a).toNat ≤ n ∧ (differ → b ≠ a)

/-- How far the revisions of all records have risen together, modulo 65536. -/
def revisionsRaised (s t : State) : Word :=
  ((List.finRange 64).map fun i => (t.call i).rev - (s.call i).rev).sum +
    ((List.finRange 8).map fun p => (t.pos p).rev - (s.pos p).rev).sum +
    ((List.finRange 4).map fun q => (t.prt q).rev - (s.prt q).rev).sum +
    ((List.finRange 256).map fun k => (t.lamp k).rev - (s.lamp k).rev).sum +
    ((List.finRange 4).map fun l => (t.link l).rev - (s.link l).rev).sum

/-! ### Orders that pass their checks -/

/-- OPEN passes its checks at a closed position that holds nothing (R63, R64). -/
structure OpenReady (s : State) (c : CellIx) (p : Pos) (q : Part) : Prop extends Takes s c .openK p where
  closed : (s.pos p).isOpen = false
  partition : (s.pos p).partition = some q
  headset : ∃ h, (s.pos p).headset = some h ∧ lineServes s h = true
  bare : (s.pos p).offered = none ∧ (s.pos p).speaking = none ∧ ∀ l, (s.pos p).loops.get l = none

/-- CLOSE passes its checks (R63, R65). -/
structure CloseReady (s : State) (c : CellIx) (p : Pos) : Prop extends Takes s c .closeK p where
  isOpen : (s.pos p).isOpen = true
  loops : cellBody s.mem c 0 ≠ 0 ∨ ∀ l, (s.pos p).loops.get l = none

/-- The orders that undo a call's legs at a position that closes with force; `k` is its target circuit (R66). -/
def closeLegs (c : Call) (h k : Circuit) : List ShelfOrder :=
  match c.state with
  | .talking => if c.extend = none then [.part c.caller h] else [.unring k]
  | .consultRinging => [.unring k, .part h k]
  | .consultTalking => [.part h k]
  | _ => []

/-- Of those orders the ones that do not name the headset (R78). -/
def closeLegsSpared (c : Call) (k : Circuit) : List ShelfOrder :=
  match c.state with
  | .talking => if c.extend = none then [] else [.unring k]
  | .consultRinging => [.unring k]
  | _ => []

/-- A forced close finds call `i` on loop `l`, its position's only loop in use, with no call offered; it has its target `k`
where its state asks for one, the EXTEND in flight, if there is one, is the panel's and the call's alike, its partition
takes recalls, and the position's partition stays in DAY. -/
structure ForcedLoop (s : State) (p : Pos) (i : Slot) (l : LoopIx) (h k : Circuit) : Prop where
  headset : (s.pos p).headset = some h
  offer : (s.pos p).offered = none
  only : ∀ j, (s.pos p).loops.get j = if j = l then some i else none
  position : (s.call i).position = some p
  callLoop : (s.call i).loop = some l
  legs : ((s.call i).state = .held ∨ (s.call i).state = .talking) ∧ (s.call i).extend = none ∧
      (s.call i).target = none ∨
    ((s.call i).state = .consultRinging ∨ (s.call i).state = .consultTalking ∨
        ((s.call i).state = .talking ∧ (s.call i).extend ≠ none)) ∧
      (∃ n, (s.call i).target = some { number := n, circuit := k }) ∧ unserved s k
  extend : (s.pos p).extend = (s.call i).extend
  inFlight : (s.call i).extend = none → (s.pos p).extendCell = none
  takes : RecallOpen s i
  day : ∀ q, (s.pos p).partition = some q → (s.part q).autoNight = false ∨ (s.prt q).mode = .night ∨
    ∃ x, x ≠ p ∧ (s.pos x).partition = some q ∧ (s.pos x).isOpen = true

/-- A CLOSE finds that call (R65, R66). -/
structure ForcedCall (s : State) (c : CellIx) (p : Pos) (i : Slot) (l : LoopIx) (h k : Circuit) : Prop
    extends CloseReady s c p, ForcedLoop s p i l h k

/-- What a forced close, by whatever cause, makes of that call and its position; `os` are the orders issued (R66, R78). -/
structure ForcedBack (s t : State) (p : Pos) (i : Slot) (os : List ShelfOrder) : Prop where
  extend : extendAnswered s t p .cancelled
  recalled : Recalled s t i
  call : (t.call i).origin = none ∧ (t.call i).target = none ∧ (t.call i).extend = none ∧
    (t.call i).identity = (s.call i).identity
  panel : (t.pos p).extend = none ∧ (t.pos p).extendCell = none
  orders : issued s t i (entries i os)

/-- A CLOSE signs off the last OPEN position of a partition in DAY that has auto night; the members of its roster and the
calls on the position's loops are the partition's (R119). -/
structure LastClose (s : State) (c : CellIx) (p : Pos) (q : Part) : Prop extends CloseReady s c p where
  partition : (s.pos p).partition = some q
  auto : (s.part q).autoNight = true
  day : (s.prt q).mode = .day
  last : ∀ x, x ≠ p → (s.pos x).partition = some q → (s.pos x).isOpen = false
  once : (s.prt q).roster.Nodup
  members : ∀ i ∈ (s.prt q).roster, (s.call i).partition = q ∧ rosterState (s.call i).state
  loop : ∀ l i, (s.pos p).loops.get l = some i → loopState (s.call i).state ∧ (s.call i).position = some p ∧
    (s.call i).loop = some l ∧ (s.call i).partition = q
  offer : ∀ i, (s.pos p).offered = some i → (s.call i).state = .offered ∧ (s.call i).expiryHeld = false

/-- PAUSE passes its check (R63, R67). -/
structure PauseReady (s : State) (c : CellIx) (p : Pos) : Prop extends Takes s c .pauseK p where
  isOpen : (s.pos p).isOpen = true

/-- A call of a roster that an attendant takes: it stands in its partition's roster once, and it has no target (R24, R71,
R72). -/
structure FromRoster (s : State) (p : Pos) (i : Slot) (l : LoopIx) (h : Circuit) : Prop where
  isOpen : (s.pos p).isOpen = true
  headset : (s.pos p).headset = some h
  loop : (s.pos p).loops.get l = none
  lowest : ∀ j < l, (s.pos p).loops.get j ≠ none
  member : i ∈ (s.prt (s.call i).partition).roster
  once : (s.prt (s.call i).partition).roster.Nodup
  target : (s.call i).target = none

/-- There is room for the orders that join such a caller to the headset (R130). -/
structure RosterCall (s : State) (p : Pos) (i : Slot) (l : LoopIx) (h : Circuit) : Prop extends FromRoster s p i l h where
  room : s.room [.join (s.call i).caller h, .tone (s.call i).caller .quiet]

/-- The link of a circuit is RUNNING and its queue holds 32 entries, so that it refuses orders with CONGESTED (R130). -/
def fullLink (s : State) (k : Circuit) : Prop :=
  (s.link (linkOf k)).state = .running ∧ 32 ≤ (s.link (linkOf k)).queue.length

/-- ANSWER takes the call offered to its position (R71). -/
structure AnswerTakes (s : State) (c : CellIx) (p : Pos) (i : Slot) (l : LoopIx) (h : Circuit) : Prop
    extends Takes s c .answerK p, FromRoster s p i l h where
  offer : (s.pos p).offered = some i
  offered : (s.call i).state = .offered
  names : (s.call i).position = some p

/-- Such an ANSWER, with room for its orders (R71, R130). -/
structure AnswerReady (s : State) (c : CellIx) (p : Pos) (i : Slot) (l : LoopIx) (h : Circuit) : Prop
    extends AnswerTakes s c p i l h where
  room : s.room [.join (s.call i).caller h, .tone (s.call i).caller .quiet]

/-- A pending offer of the position, if there is one, goes back to QUEUED when it is withdrawn (R42); as every OFFERED
call, it has no target (R7). `HeldOffer` is the other case. -/
def withdrawable (s : State) (p : Pos) (i : Slot) : Prop :=
  ∀ j, (s.pos p).offered = some j → j ≠ i ∧ (s.call j).state = .offered ∧ (s.call j).expiryHeld = false ∧
    (s.call j).target = none

/-- PICK takes a QUEUED call of the position's partition (R72); the members of every roster have its partition (R24). -/
structure PickReady (s : State) (c : CellIx) (p : Pos) (i : Slot) (l : LoopIx) (h : Circuit) : Prop
    extends Takes s c .pickK p, RosterCall s p i l h where
  slot : (cellBody s.mem c 0).toNat = i.val
  queued : (s.call i).state = .queued
  partition : (s.pos p).partition = some (s.call i).partition
  noExtend : (s.pos p).extend = none
  silent : (s.pos p).speaking = none
  members : ∀ q, ∀ j ∈ (s.prt q).roster, (s.call j).partition = q

/-- What a change of the roster leaves of a member: all that an offer leaves of it but its place, and its state, which an
offer may have made OFFERED (R24, R38). -/
def memberStays (c d : Call) : Prop :=
  (d.identity, d.endReason, d.partition, d.cls, d.overflowed, d.origin, d.waitDeadline, d.pending, d.extend) =
    (c.identity, c.endReason, c.partition, c.cls, c.overflowed, c.origin, c.waitDeadline, c.pending, c.extend) ∧
  (d.state = c.state ∨ (c.state = .queued ∧ d.state = .offered))

/-- The quotient of the estimate for a roster place, from the partition's estimator and settings (R54, R55). -/
def quotientAt (s : State) (q : Part) (place : Nat) : Nat :=
  (s.part q).weight * place *
    (match (s.part q).basis with
      | .newer => (s.prt q).est.new
      | .older => (s.prt q).est.old
      | .mean => ((s.prt q).est.new + (s.prt q).est.old) / 2) * 2 ^ (s.prt q).est.range / 3200

/-- A pass of estimates has been made over a roster: every QUEUED member shows the estimate of its place, at most 999, and
the estimate-clamped mark tells whether one of them is clamped (R55 to R57). -/
def estimated (t : State) (q : Part) : Prop :=
  (∀ (n : Nat) (j : Slot), (t.prt q).roster[n]? = some j → (t.call j).state = .queued →
    (t.call j).estimate = some (min 999 (quotientAt t q (n + 1)))) ∧
  ((t.prt q).est.clamped = true ↔
    ∃ n j, (t.prt q).roster[n]? = some j ∧ (t.call j).state = .queued ∧ 999 < quotientAt t q (n + 1))

/-- What ANSWER and PICK make of the call, its roster, its estimator and the position (R27, R39, R52, R71, R72). `held` is
the call, if there is one, whose offer is withdrawn for it and whose held expiry then acts (R34). -/
structure TakenToLoop (s t : State) (p : Pos) (i : Slot) (l : LoopIx) (h : Circuit) (held : Option Slot) : Prop where
  alert : alertTested s t (s.call i).partition
  call : (t.call i).bare =
    { onLoop (s.call i) .talking s.seconds with
      position := some p, loop := some l, origin := some p, pending := (s.call i).pending + 2 }
  panel : (t.pos p).offered = none ∧ (t.pos p).bare =
    { (s.pos p).bare with
      speaking := some l, loops := (s.pos p).loops.set l (some i), missed := (t.pos p).missed }
  roster : (t.prt (s.call i).partition).roster =
    (s.prt (s.call i).partition).roster.filter fun j => j != i && some j != held
  places : ∀ n j, (t.prt (s.call i).partition).roster[n]? = some j → (t.call j).place = some (n + 1)
  estimates : estimated t (s.call i).partition
  members : ∀ j ∈ (s.prt (s.call i).partition).roster, j ≠ i → (s.pos p).offered ≠ some j →
    memberStays (s.call j) (t.call j)
  capture : (t.prt (s.call i).partition).est.bare =
    { (s.prt (s.call i).partition).est with
      range := if (s.prt (s.call i).partition).est.counter < 64 ∧ 0 < (s.prt (s.call i).partition).est.range then
        (s.prt (s.call i).partition).est.range - 1 else (s.prt (s.call i).partition).est.range
      new := if (s.prt (s.call i).partition).est.counter < 64 ∧ 0 < (s.prt (s.call i).partition).est.range then
        min 255 (2 * (s.prt (s.call i).partition).est.counter) else (s.prt (s.call i).partition).est.counter
      old := if (s.prt (s.call i).partition).est.counter < 64 ∧ 0 < (s.prt (s.call i).partition).est.range then
        min 255 (2 * (s.prt (s.call i).partition).est.new) else (s.prt (s.call i).partition).est.new
      counter := 0, stall := false, clamped := false
      period := if (t.prt (s.call i).partition).roster = [] then none
        else some (2 ^ (t.prt (s.call i).partition).est.range) }
  orders : queuedAfter s t
      ((match held with | some j => entries j (overflowOrders s j (s.call i).partition) | none => []) ++
        entries i [.join (s.call i).caller h, .tone (s.call i).caller .quiet]) ∧ t.rings = s.rings
  aside : Aside s t
    (fun j => j ∈ (s.prt (s.call i).partition).roster ∨ (s.pos p).offered = some j ∨
      (held ≠ none ∧ overflowCalls s i (s.call i).partition j))
    (· = p) (fun x => x = (s.call i).partition ∨ (held ≠ none ∧ overflowParts s (s.call i).partition x)) fun _ => False

/-- The position speaks to a call on its speaking loop, with no consultation order outstanding at the checks. -/
structure Speaking (s : State) (p : Pos) (i : Slot) (l : LoopIx) (h : Circuit) : Prop where
  isOpen : (s.pos p).isOpen = true
  headset : (s.pos p).headset = some h
  speaking : (s.pos p).speaking = some l
  loop : (s.pos p).loops.get l = some i
  position : (s.call i).position = some p
  callLoop : (s.call i).loop = some l

/-- HOLD passes its checks (R63, R73). -/
structure HoldReady (s : State) (c : CellIx) (p : Pos) (i : Slot) (l : LoopIx) (h : Circuit) : Prop
    extends Takes s c .holdK p, Speaking s p i l h where
  noExtend : (s.pos p).extend = none
  talking : (s.call i).state = .talking
  target : (s.call i).target = none
  room : s.room [.part (s.call i).caller h, .tone (s.call i).caller .hold]

/-- RETRIEVE passes its checks (R63, R74). -/
structure RetrieveReady (s : State) (c : CellIx) (p : Pos) (i : Slot) (l : LoopIx) (h : Circuit) : Prop
    extends Takes s c .retrieveK p where
  isOpen : (s.pos p).isOpen = true
  headset : (s.pos p).headset = some h
  noExtend : (s.pos p).extend = none
  loop : (cellBody s.mem c 0).toNat = l.val
  silent : (s.pos p).speaking = none
  call : (s.pos p).loops.get l = some i
  held : (s.call i).state = .held
  position : (s.call i).position = some p
  callLoop : (s.call i).loop = some l
  target : (s.call i).target = none
  room : s.room [.join (s.call i).caller h, .tone (s.call i).caller .quiet]

/-- The teardown and DROP of a DISCONNECT, by the state of the call; `k` is its target circuit (R16, R17). -/
def disconnectOrders (c : Call) (h k : Circuit) : List ShelfOrder :=
  match c.state with
  | .talking => [.part c.caller h, .drop c.caller]
  | .consultRinging => [.unring k, .part h k, .tone c.caller .quiet, .drop c.caller]
  | .consultTalking => [.part h k, .tone c.caller .quiet, .drop c.caller]
  | _ => []

/-- DISCONNECT passes its checks, on a call in a state that a speaking loop holds (R63, R70, R77). -/
structure DisconnectReady (s : State) (c : CellIx) (p : Pos) (i : Slot) (l : LoopIx) (h k : Circuit) : Prop
    extends Takes s c .disconnectK p, Speaking s p i l h where
  noExtend : (s.pos p).extend = none
  noOrder : (s.call i).extend = none
  state : (s.call i).state = .talking ∨
    (((s.call i).state = .consultRinging ∨ (s.call i).state = .consultTalking) ∧
      ∃ n, (s.call i).target = some { number := n, circuit := k })

/-- EXTEND passes the checks of R86 for the extension number `n` on circuit `k`. -/
structure ExtendReady (s : State) (c : CellIx) (p : Pos) (i : Slot) (l : LoopIx) (h k : Circuit) (n : Word) : Prop
    extends Takes s c .extendK p, Speaking s p i l h where
  noExtend : (s.pos p).extend = none
  talking : (s.call i).state = .talking
  number : cellBody s.mem c 1 ++ cellBody s.mem c 0 = n
  digits : n.toNat ≤ 9999
  named : s.lookup n = some k
  other : k ≠ (s.call i).caller

/-- The target is free (R86): its line is IDLE and it is the target of no live call. -/
def freeTarget (s : State) (k : Circuit) : Prop := (s.lamp k).line = .idle ∧ s.isTarget k = false

/-- The target is busy (R86). -/
def busyTarget (s : State) (k : Circuit) : Prop :=
  (s.lamp k).line = .busy ∨ (s.lamp k).line = .ringing ∨ ((s.lamp k).line = .idle ∧ s.isTarget k = true)

/-- The camp list of the circuit has room (R84). -/
def hasCampRoom (s : State) (k : Circuit) : Prop := (s.dir k).campAllowed = true ∧ (s.lamp k).camp.length < 3

/-- The EXTEND in a cell has been put in flight (R87). -/
structure InFlight (s t : State) (c : CellIx) (p : Pos) (i : Slot) : Prop where
  cell : cellState t.mem c = .taken ∧ t.takenNow c ∧ c ∈ t.taker.taken
  call : (t.call i).extend = some (cellNumber s.mem c)
  panel : (t.pos p).extend = some (cellNumber s.mem c) ∧ (t.pos p).extendCell = some c

/-- A call that has become TALKING on its loop again without a target (R93, R95, R98). -/
def backOnLoop (s t : State) (p : Pos) (i : Slot) (l : LoopIx) : Prop :=
  (t.call i).state = .talking ∧ (t.call i).target = none ∧ (t.call i).extend = none ∧ (t.call i).position = some p ∧
  (t.call i).loop = some l ∧ (t.call i).origin = (s.call i).origin ∧ (t.pos p).speaking = some l ∧
  (t.pos p).loops.get l = some i ∧ (t.pos p).extend = none

/-- A call that has left its loop, which was the speaking loop (R70). -/
def offLoop (s t : State) (p : Pos) (i : Slot) (l : LoopIx) : Prop :=
  (t.call i).position = none ∧ (t.call i).loop = none ∧ (t.call i).origin = (s.call i).origin ∧
  (t.pos p).speaking = none ∧ (t.pos p).loops.get l = none ∧ (t.pos p).flash.get l = false ∧
  ∀ j, j ≠ l → (t.pos p).loops.get j = (s.pos p).loops.get j

/-! ### Where calls stand (R4, R7, R8, R24, R70, R84) -/

/-- The state in which a timer of a kind runs (R4). -/
def timerState : TimerKind → CallState
  | .offer => .offered | .wait => .queued | .announce => .announced | .hold1 => .held | .hold2 => .held | .camp => .camped

/-- Rosters, panels and camp lists name the calls that name them, and no others; each call has a target where its state
asks for one; only the timers of its state run. -/
structure PlacesInv (s : State) : Prop where
  slots : s.freeListed
  serving : s.engine ≠ .serving → ∀ i, (s.call i).state = .free
  rosterOnce : ∀ q, (s.prt q).roster.Nodup ∧ (s.prt q).roster.length ≤ 63
  members : ∀ q i, i ∈ (s.prt q).roster ↔ rosterState (s.call i).state ∧ (s.call i).partition = q
  places : ∀ q n i, (s.prt q).roster[n]? = some i → (s.call i).place = some (n + 1)
  classes : ∀ q, (s.prt q).roster.Pairwise fun i j => (s.call j).cls = .recall → (s.call i).cls = .recall
  offers : ∀ p i, (s.pos p).offered = some i → (s.call i).state = .offered ∧ (s.call i).position = some p ∧
    (s.pos p).isOpen = true ∧ (s.pos p).partition = some (s.call i).partition ∧ (s.pos p).speaking = none
  offered : ∀ i, (s.call i).state = .offered → ∃ p, (s.pos p).offered = some i
  loops : ∀ p l i, (s.pos p).loops.get l = some i → loopState (s.call i).state ∧ (s.call i).position = some p ∧
    (s.call i).loop = some l ∧ (s.pos p).isOpen = true
  onLoop : ∀ i, loopState (s.call i).state → ∃ p l, (s.pos p).loops.get l = some i
  speaking : ∀ p l, (s.pos p).speaking = some l ↔
    ∃ i, (s.pos p).loops.get l = some i ∧ speakingState (s.call i).state
  campOnce : ∀ k, (s.lamp k).camp.Nodup ∧ (s.lamp k).camp.length ≤ 3
  camped : ∀ k i, i ∈ (s.lamp k).camp ↔
    (s.call i).state = .camped ∧ ∃ n, (s.call i).target = some { number := n, circuit := k }
  targetAbsent : ∀ i, rosterState (s.call i).state ∨ (s.call i).state = .held ∨ (s.call i).state = .announced ∨
    ((s.call i).state = .talking ∧ (s.call i).extend = none) → (s.call i).target = none
  targetPresent : ∀ i, (s.call i).state = .consultRinging ∨ (s.call i).state = .consultTalking ∨
    (s.call i).state = .ringingOut ∨ (s.call i).state = .camped → (s.call i).target ≠ none
  extension : ∀ i n k, (s.call i).state ≠ .free → (s.call i).target = some { number := n, circuit := k } →
    (s.dir k).kind = .extension
  timers : ∀ i k d, (s.call i).timer = some (k, d) → (s.call i).state = timerState k

end Sys2Proof.Machine

open Sys2Proof Sys2Proof.Machine

/-! ## Steps, resets, the window, the registers -/

/-- A step takes the command at the front of the queue and runs it with the queue's rest; on an empty queue the block
idles (the model's choice, notes/assumptions/2.md). -/
def Obligations.StepRunsFrontCommand : Prop :=
  (∀ (c : Instr) (rest : List Instr) (s : State), step { s with pending := c :: rest } = exec c { s with pending := rest }) ∧
  ∀ s : State, s.pending = [] → step s = .next s

/-- R168, R166: what a power-on reset leaves: exchange memory, the registers, the engine; and with the bypass input
active, the entry to BYPASSED is the event that follows, at the front of the queue (notes/assumptions/9.md). -/
def Obligations.PowerOnResetState : Prop :=
  ∀ (active : Bool) (s : State), ∃ t, exec (.powerOnReset active) s = .next t ∧
    (∀ a < 0x3FE0, t.windowByte a = if a = 0x0A then 64 else 0) ∧
    t.regs.summary = 1 ∧ t.regs.mask = 0 ∧ t.regs.noticeEnable = false ∧ t.noticeAsserted = false ∧ t.regs.hold = none ∧
    t.engine = .closed ∧ t.plan = none ∧ t.seconds = 0 ∧ t.taker.expect = 0 ∧ t.free = List.finRange 64 ∧
    (∀ l, (t.link l).state = .held ∧ ∀ a, ((t.link l).shelves.get a).state = .absent) ∧
    (∀ k, (t.lamp k).line = .unknown) ∧ t.cadence.inUse = .internal ∧
    (∀ c, cellState t.mem c = .empty) ∧ t.apply = none ∧ t.taker.taken = [] ∧ (∀ p, (t.pos p).extend = none) ∧
    t.bypassIn = active ∧ t.pending = (if active = true then .bypassEntry :: s.pending else s.pending) ∧
    (active = true → ∃ u, step t = .next u ∧ u.engine = .bypassed ∧ u.pending = s.pending)

/-- R169, R23, R166: what a soft reset leaves; with the bypass input active, the entry to BYPASSED is the event that
follows (notes/assumptions/9.md); and a write of Control that sets Soft Reset is one, whatever its other bits. That the
read port then holds no copy and data 0 is the model's choice (notes/assumptions/17.md). -/
def Obligations.SoftResetState : Prop :=
  (∀ s : State, Memory.wf s.mem = true → ∃ t, exec .softReset s = .next t ∧
    t = { State.reset with
      mem := t.mem, calls := t.calls, bypassIn := s.bypassIn,
      pending := if s.bypassIn = true then .bypassEntry :: s.pending else s.pending,
      port := { State.reset.port with outside := s.port.outside } } ∧
    (s.bypassIn = true → ∃ u, step t = .next u ∧ u.engine = .bypassed ∧ u.pending = s.pending) ∧
    (∀ i, t.call i = if (s.call i).state = .free then Call.blank else { Call.blank with endReason := some .reset }) ∧
    (∀ c ∈ s.taker.taken, cellState t.mem c = .done ∧ cellByte t.mem c 3 = ResultCode.notServing.code ∧
      t.mem.read16 (cellBase c + 6) = 0 ∧ t.mem.read16 (cellBase c + 0x0A) = 0 ∧
      t.mem.read16 (cellBase c + 8) = s.mem.read16 (cellBase c + 8)) ∧
    ∀ a, (∀ c ∈ s.taker.taken, ¬ resultByte c a) → t.mem.read a = s.mem.read a) ∧
  ∀ (s : State) (word : Bool) (v : Word), v.getLsbD 1 = true → exec (.hostWrite 0x3FE2 word v) s = exec .softReset s

/-- R157, R164, R173, R132: what Attention, the sweep timer, a poll deadline and a second of the clock do, and nothing
else. That the POLL_DEADLINE of a shelf without a deadline leaves it without one is the model's choice
(notes/assumptions/1.md). -/
def Obligations.TimersAndAttention : Prop :=
  (∀ (on : Bool) (s : State), exec (.attention on) s = .next { s with
    regs := { s.regs with noticeEnable := on },
    taker := { s.taker with sweeping := s.taker.sweeping || s.apply.isNone } }) ∧
  (∀ s : State, exec .sweepTimerExpiry s = .next { s with
    taker := { s.taker with sweepTimer := 100, sweeping := s.taker.sweeping || s.apply.isNone } }) ∧
  (∀ (l : LinkIx) (a : Addr) (s : State), ∃ t, exec (.pollDeadline l a) s = .next t ∧
    t = { s with links := t.links } ∧ (∀ m, m ≠ l → t.link m = s.link m) ∧
    t.link l = { s.link l with polls := (t.link l).polls } ∧
    (∀ b, b ≠ a → (t.link l).polls.get b = (s.link l).polls.get b) ∧
    (t.link l).polls.get a = if (s.link l).polls.get a = .none then .none else .due) ∧
  ∀ s : State, exec .engineSecondsTick s = .next { s with seconds := s.seconds + 1 }

/-- R175, R174, R173: the notice line follows its three conditions, and what a write of Summary, of Mask, of Notice
Enable and the end of the release hold do. -/
def Obligations.NoticeLineFollowsItsConditions : Prop :=
  (∀ s : State, s.noticeAsserted = true ↔
    s.regs.noticeEnable = true ∧ s.regs.summary &&& s.regs.mask ≠ 0 ∧ s.regs.hold = none) ∧
  (∀ (v : Word) (s : State), exec (.summaryClear v) s = .next { s with
    regs := { s.regs with
      summary := s.regs.summary &&& ~~~(v.setWidth 8),
      hold := if s.regs.summary &&& v.setWidth 8 = 0 then s.regs.hold else some 200 } }) ∧
  (∀ (s : State) (f : Flag), s.regs.hold ≠ none →
    (s.raise f).flag f = true ∧ (s.raise f).regs.hold = s.regs.hold ∧ (s.raise f).noticeAsserted = false) ∧
  (∀ s : State, exec .releaseHoldEnd s = .next { s with regs := { s.regs with hold := none } }) ∧
  (∀ (v : Word) (s : State), exec (.maskWrite v) s = .next { s with regs := { s.regs with mask := v.setWidth 8 } }) ∧
  (∀ (on : Bool) (s : State), exec (.noticeEnable on) s = .next { s with regs := { s.regs with noticeEnable := on } }) ∧
  (∀ (c : Instr) (s t : State), resets c → exec c s = .next t → t.regs.hold = none)

/-- R171, R155, R110: what becomes of a host write, by its destination; a word is taken byte by byte. That a write above
the 16 KiB window has no effect is the model's choice (notes/assumptions/3.md). -/
def Obligations.HostWritesByDestination : Prop :=
  (∀ (s : State) (a : Nat) (v : Word), a < 0x0500 ∨ (0x0900 ≤ a ∧ a < 0x2100) ∨ (0x3FE0 ≤ a ∧ a < 0x3FE2) ∨
    a = 0x3FE8 ∨ a = 0x3FE9 → dropsByte s a v) ∧
  (∀ (s : State) (c : CellIx) (k : Nat) (v : Word), k < 32 → c ∈ s.taker.taken → dropsByte s (cellBase c + k) v) ∧
  (∀ (s : State) (a : Nat) (v : Word), 0x2100 ≤ a → a < 0x2B40 → s.apply ≠ none → dropsByte s a v) ∧
  (∀ (s : State) (c : CellIx) (k : Nat) (v : Word), Memory.wf s.mem = true → k < 32 → c ∉ s.taker.taken →
    storesByte s (cellBase c + k) v) ∧
  (∀ (s : State) (a : Nat) (v : Word), Memory.wf s.mem = true → 0x2100 ≤ a → a < 0x3FE0 →
    (a < 0x2B40 → s.apply = none) → storesByte s a v) ∧
  (∀ (s : State) (a : Nat) (v : Word), 0x3FEA ≤ a ∨ a = 0x3FE3 ∨ a = 0x3FE5 ∨ a = 0x3FE7 →
    exec (.hostWrite a false v) s = .next s) ∧
  (∀ (s : State) (v : Word), exec (.hostWrite 0x3FE2 false v) s =
    if v.getLsbD 1 then exec .softReset s
    else if v.getLsbD 0 then exec (.attention (v.getLsbD 2)) s else exec (.noticeEnable (v.getLsbD 2)) s) ∧
  (∀ (s : State) (v : Word), exec (.hostWrite 0x3FE4 false v) s = exec (.summaryClear v) s) ∧
  (∀ (s : State) (v : Word), exec (.hostWrite 0x3FE6 false v) s = exec (.maskWrite v) s) ∧
  ∀ (s t : State) (a : Nat) (v : Word), exec (.hostWrite a false v) s = .next t →
    exec (.hostWrite a true v) s = exec (.hostWrite (a + 1) false (v >>> 8)) t

/-- R171, R172, R173, R176, R180: what a host read of a byte gives, and what it does to the copy that the access interlock
holds; a word is read byte by byte, the lower offset first (the model's choice, notes/assumptions/28.md); nothing but the
read port changes, and nothing but a read or a reset changes the read port. For a read above the 16 KiB window this is the
model's choice (notes/assumptions/3.md). And what the window holds: the engine header, the published records, the registers
(that their bits without a name read 0 is the model's choice, notes/assumptions/26.md) and the plain storage. -/
def Obligations.HostReadsThroughTheInterlock : Prop :=
  (∀ s : State, ShowsHeader s ∧ ShowsRegisters s ∧
    (∀ l : LinkIx, ShowsLink s (0x40 + 32 * l.val) (s.link l)) ∧
    (∀ p : Part, ShowsPartition s p (0xC0 + 128 * p.val) (s.prt p)) ∧
    (∀ p : Pos, ShowsPanel s p (0x2C0 + 64 * p.val) (s.pos p)) ∧
    (∀ i : Slot, ShowsCall s i (0x900 + 64 * i.val) (s.call i)) ∧
    (∀ k : Circuit, ShowsLamp s (0x1900 + 8 * k.val) (s.lamp k)) ∧
    ∀ a, (0x500 ≤ a ∧ a < 0x900) ∨ (0x2100 ≤ a ∧ a < 0x3FE0) → s.windowByte a = s.mem.read a) ∧
  (∀ (s : State) (a : Nat), ∃ t, exec (.recordRead a false) s = .next t ∧ t = { s with port := t.port }) ∧
  (∀ (s t : State) (base size : Nat), recordOf base size → exec (.recordRead base false) s = .next t →
    t.port.data = (s.windowByte base).setWidth 16 ∧
    ∃ x, t.port.latch = some x ∧ x.base = base ∧ x.last = base ∧ x.bytes.length = size ∧
      ∀ k < size, x.bytes[k]? = some (s.windowByte (base + k))) ∧
  (∀ (s t : State) (x : Latch) (a : Nat), s.port.latch = some x → recordOf x.base x.bytes.length → x.base ≤ x.last →
    x.last < a → a < x.base + x.bytes.length → exec (.recordRead a false) s = .next t →
    t.port.data = (x.bytes.getD (a - x.base) 0).setWidth 16 ∧
    t.port.latch = if a + 1 = x.base + x.bytes.length then none else some { x with last := a }) ∧
  (∀ (s t : State) (a : Nat), a < 0x4000 → (∀ size, ¬ recordOf a size) →
    (∀ x, s.port.latch = some x → a ≤ x.last ∨ a < x.base ∨ x.base + x.bytes.length ≤ a) →
    exec (.recordRead a false) s = .next t →
    t.port.data = (s.windowByte a).setWidth 16 ∧ t.port.latch = none) ∧
  (∀ (s t u : State) (a : Nat), exec (.recordRead a false) s = .next t → exec (.recordRead (a + 1) false) t = .next u →
    ∃ w, exec (.recordRead a true) s = .next w ∧
      w = { u with port := { u.port with data := u.port.data.setWidth 8 ++ t.port.data.setWidth 8 } }) ∧
  ∀ (c : Instr) (s t : State), exec c s = .next t → t.port ≠ s.port → resets c ∨ ∃ a word, c = .recordRead a word

/-! ## The engine as a whole -/

/-- R166, R106, R113, R12: the engine state, the active plan, the plan count, the clock, the mask and the bypass input
change at the commands that the rules name and at no other. Every command answers a next state and leaves the queue of
waiting commands alone, but that a reset with the bypass input active puts the entry to BYPASSED in front of it
(notes/assumptions/9.md). -/
def Obligations.OnlyTheirCommandsChange : Prop :=
  (∀ (c : Instr) (s : State), ∃ t, exec c s = .next t ∧ (¬ resets c → t.pending = s.pending) ∧
    (resets c → t.pending = if t.bypassIn = true then .bypassEntry :: s.pending else s.pending)) ∧
  ∀ (c : Instr) (s t : State), exec c s = .next t → ¬ resets c →
    (t.engine ≠ s.engine →
      (c = .applyCompletion ∧ s.engine = .closed ∧ t.engine = .serving) ∨
      (c = .bypassEntry ∧ s.engine ≠ .bypassed ∧ t.engine = .bypassed) ∨
      (c = .bypassExit ∧ s.engine = .bypassed ∧ t.engine = .closed)) ∧
    (t.plan ≠ s.plan → c = .applyCompletion ∨ c = .bypassExit) ∧
    (t.planCount ≠ s.planCount → c = .applyCompletion ∧ t.planCount = s.planCount + 1) ∧
    (t.seconds ≠ s.seconds → c = .engineSecondsTick) ∧
    (t.bypassIn ≠ s.bypassIn → c = .bypassEntry ∨ c = .bypassExit) ∧
    (t.regs.mask ≠ s.regs.mask ∨ t.regs.noticeEnable ≠ s.regs.noticeEnable → writesRegisters c) ∧
    (t.cadence.configured ≠ s.cadence.configured → c = .applyCompletion ∨ c = .bypassExit)

/-- R11, R12: the revision of a record whose fields a command changes rises, by one in each of the command's events; the
revisions of panels, lamp entries and link status records rise for nothing else. The board revision rises by as much as the
revisions of all records together, but at BYPASS_EXIT, where it stands (the model's reading of R166,
notes/assumptions/23.md), and a change of it sets the Board flag. -/
def Obligations.BoardRevisionRaisesBoardFlag : Prop :=
  ∀ (c : Instr) (s t : State), exec c s = .next t → ¬ resets c →
    (t.boardRev ≠ s.boardRev → t.flag .board = true) ∧
    (c ≠ .bypassExit → t.boardRev = s.boardRev + revisionsRaised s t) ∧
    (∀ i, revised (eventsOf c) (s.call i).rev (t.call i).rev ((t.call i).bare ≠ (s.call i).bare)) ∧
    (∀ p, revised (eventsOf c) (s.pos p).rev (t.pos p).rev ((t.pos p).shown ≠ (s.pos p).shown)) ∧
    (∀ q, revised (eventsOf c) (s.prt q).rev (t.prt q).rev (t.shownPart q ≠ s.shownPart q)) ∧
    (∀ k, revised (eventsOf c) (s.lamp k).rev (t.lamp k).rev ((t.lamp k).shown ≠ (s.lamp k).shown)) ∧
    (∀ l, revised (eventsOf c) (s.link l).rev (t.link l).rev ((t.link l).shown ≠ (s.link l).shown)) ∧
    (eventsOf c = 1 →
      (∀ p, (t.pos p).rev ≠ (s.pos p).rev → (t.pos p).shown ≠ (s.pos p).shown) ∧
      (∀ k, (t.lamp k).rev ≠ (s.lamp k).rev → (t.lamp k).shown ≠ (s.lamp k).shown) ∧
      ∀ l, (t.link l).rev ≠ (s.link l).rev → (t.link l).shown ≠ (s.link l).shown)

/-- R106, R177, R155: no command but a host write or a power-on reset changes a byte of the plan area or of the free
area, or a byte of the order board that is not one of the bytes the engine writes. -/
def Obligations.EngineWritesOnlyItsBytes : Prop :=
  ∀ (c : Instr) (s t : State), Memory.wf s.mem = true → exec c s = .next t → (∀ b, c ≠ .powerOnReset b) →
    (∀ a word v, c ≠ .hostWrite a word v) →
    (∀ a, 0x2100 ≤ a → t.mem.read a = s.mem.read a) ∧
    ∀ (d : CellIx) (k : Nat), k = 1 ∨ k = 2 ∨ k = 4 ∨ k = 5 ∨ (0x0C ≤ k ∧ k < 32) →
      cellByte t.mem d k = cellByte s.mem d k

/-- R167, R22, R47, R61, R83, R104, R116, R139: entry to BYPASSED. -/
def Obligations.BypassEntryReleasesEverything : Prop :=
  (∀ s : State, s.engine ≠ .bypassed → Memory.wf s.mem = true → ∃ t, exec .bypassEntry s = .next t ∧
    t.engine = .bypassed ∧ t.bypassIn = true ∧ t.bypassOut = true ∧ t.flag .bypass = true ∧
    (∀ p, (t.prt p).roster = [] ∧ (t.prt p).alert = false ∧ (t.prt p).mode = (s.prt p).mode ∧
      (t.prt p).est = { (s.prt p).est with counter := 0, stall := false, clamped := false, period := none }) ∧
    (∀ p, ∃ r w, t.pos p =
      { Position.blank with
        partition := (s.pos p).partition, headset := (s.pos p).headset, idleSince := (s.pos p).idleSince,
        rev := r, written := w }) ∧
    (∀ k, (t.lamp k).camp = [] ∧ (t.lamp k).core = (s.lamp k).core ∧ (t.lamp k).tied = none ∧ t.rings.get k = 0) ∧
    (∀ i, if (s.call i).state = .free then (t.call i).bare = (s.call i).bare
      else (t.call i).state = .free ∧ (t.call i).endReason = some .bypass ∧ (t.call i).timer = none ∧
        (t.call i).pending = 0 ∧ (t.call i).extend = none ∧ (t.call i).identity = (s.call i).identity ∧
        (t.call i).rev = (s.call i).rev + 1) ∧
    t.free = s.free ++ (List.finRange 64).filter (fun i => (s.call i).state != .free) ∧
    (∀ l, (t.link l).state = .held ∧ (t.link l).frame = none ∧ (t.link l).again = none ∧ (t.link l).queue = [] ∧
      ∀ a, (t.link l).polls.get a = .none ∧ (t.link l).more.get a = false ∧
        (t.link l).shelves.get a = { (s.link l).shelves.get a with misses := 0 }) ∧
    t.taker.taken = [] ∧ t.apply = none ∧ (∀ c ∈ s.taker.taken, t.answered c .notServing 0) ∧
    (s.apply ≠ none → t.taker.sweeping = true) ∧
    (∀ a, (∀ c ∈ s.taker.taken, ¬ resultByte c a) → t.mem.read a = s.mem.read a) ∧
    (t.plan, t.planCount, t.seconds, t.cadence, t.taker.expect, t.port, t.regs.mask, t.regs.noticeEnable) =
      (s.plan, s.planCount, s.seconds, s.cadence, s.taker.expect, s.port, s.regs.mask, s.regs.noticeEnable)) ∧
  ∀ s : State, s.engine = .bypassed → exec .bypassEntry s = .next { s with bypassIn := true }

/-- R166, R47, R83, R139, R142, R150: leaving BYPASSED. That the board revision does not rise although records change is
the model's reading of R166 (notes/assumptions/23.md). -/
def Obligations.BypassExitDiscardsThePlan : Prop :=
  (∀ s : State, s.engine = .bypassed → ∃ t, exec .bypassExit s = .next t ∧
    t.engine = .closed ∧ t.bypassIn = false ∧ t.bypassOut = false ∧ t.plan = none ∧
    (∀ p, t.part p = .none ∧ (t.prt p).bare = { (s.prt p).bare with mode := .day }) ∧
    (∀ p, (t.pos p).bare = { (s.pos p).bare with partition := none, headset := none }) ∧
    (∀ l, (t.link l).window = 0 ∧ (t.link l).missLimit = 0 ∧ (t.link l).state = (s.link l).state ∧
      ∀ a, (t.link l).shelves.get a = { (s.link l).shelves.get a with state := .absent, interval := 0 }) ∧
    (∀ k, (t.lamp k).kind = .unused ∧ (t.lamp k).line = .unknown ∧ (t.lamp k).partition = 0xFF ∧
      (t.lamp k).number = 0xFFFF) ∧
    t.cadence = Cadence.blank ∧ t.calls = s.calls ∧ t.mem = s.mem ∧
    (t.seconds, t.boardRev, t.taker, t.planCount, t.free, t.regs, t.apply, t.port) =
      (s.seconds, s.boardRev, s.taker, s.planCount, s.free, s.regs, s.apply, s.port)) ∧
  ∀ s : State, s.engine ≠ .bypassed → exec .bypassExit s = .next { s with bypassIn := false }

/-! ## Sweeps and the order board -/

namespace Sys2Proof.Machine

/-- A POSTED cell whose number is behind EXPECT (R158). -/
def staleCell (s : State) (c : CellIx) : Prop :=
  cellState s.mem c = .posted ∧ 32768 ≤ (cellNumber s.mem c - s.taker.expect).toNat

/-- The cell is POSTED and carries EXPECT (R158). -/
def dueCell (s : State) (c : CellIx) : Prop := cellState s.mem c = .posted ∧ cellNumber s.mem c = s.taker.expect

end Sys2Proof.Machine

/-- R158, R163: a sweep step with no cell that carries EXPECT refuses every stale number and ends the sweep; without a
sweep the command changes nothing (the model's choice, notes/assumptions/1.md). -/
def Obligations.SweepStepRefusesStaleNumbers : Prop :=
  (∀ s : State, s.taker.sweeping = true → s.apply = none → Memory.wf s.mem = true → (∀ c, ¬ dueCell s c) →
    ∃ t, exec .sweepStep s = .next t ∧
      (∀ c, staleCell s c → t.finished c .staleNumber s.taker.expect) ∧
      (∀ a, (∀ c, staleCell s c → ¬ engineByte c a) → t.mem.read a = s.mem.read a) ∧
      (∀ c, c ∈ t.taker.taken ↔ c ∈ s.taker.taken ∧ ¬ staleCell s c) ∧
      (∀ f : Flag, f ≠ .order → t.flag f = s.flag f) ∧
      t = { s with
        mem := t.mem, taker := { s.taker with sweeping := false, taken := t.taker.taken },
        regs := { s.regs with summary := t.regs.summary } }) ∧
  ∀ s : State, s.taker.sweeping = false ∨ s.apply ≠ none → exec .sweepStep s = .next s

/-- R158: the step takes the lowest POSTED cell that carries EXPECT, and runs as the command of that cell's kind; a
command of another kind is not the one that can happen (the model's choice, notes/assumptions/5.md). -/
def Obligations.SweepTakesOrdersInNumberOrder : Prop :=
  (∀ (s : State) (c : CellIx), s.nextCell = some c ↔ dueCell s c ∧ ∀ d, dueCell s d → c ≤ d) ∧
  (∀ (s : State) (c : CellIx), s.sweeps = true → s.nextCell = some c →
    (∀ k, cellKind s.mem c = some k → exec .sweepStep s = exec (orderCommand k) s) ∧
    (cellKind s.mem c = none → exec .sweepStep s = exec .unknownKindOrder s) ∧
    (∀ k, cellKind s.mem c ≠ some k → exec (orderCommand k) s = .next s) ∧
    (cellKind s.mem c ≠ none → exec .unknownKindOrder s = .next s)) ∧
  ∀ s : State, s.sweeps = false ∨ s.nextCell = none →
    exec .unknownKindOrder s = .next s ∧ ∀ k, exec (orderCommand k) s = .next s

/-- R158, R159, R163: whatever the order of a step, its cell is taken now, EXPECT rises by one, the order is answered or
stays TAKEN as an EXTEND in flight does, and the frame of every order kind but APPLY_PLAN holds. -/
def Obligations.TakenOrderIsMarkedAndFramed : Prop :=
  ∀ (s : State) (c : CellIx) (k : OrderKind), NextOrder s c k → k ≠ .applyPlanK →
    ∃ t, exec (orderCommand k) s = .next t ∧ OrderFrame s t c ∧ t.takenNow c ∧
      ((cellState t.mem c = .done ∧ c ∉ t.taker.taken ∧ t.flag .order = true) ∨
        (k = .extendK ∧ cellState t.mem c = .taken ∧ c ∈ t.taker.taken))

/-- R160, R161: orders of an unknown kind, of a wrong length, at a position their kind does not accept, or taken while
the engine is not SERVING are answered at once and change nothing else. -/
def Obligations.MalformedOrdersAreRefused : Prop :=
  (∀ (s : State) (c : CellIx), s.sweeps = true → s.nextCell = some c → cellKind s.mem c = none →
    Memory.wf s.mem = true → (∀ q, (s.pos q).extendCell ≠ some c) →
    ∃ t, exec .unknownKindOrder s = .next t ∧ t.finished c .badKind 0 ∧ Untouched s t ∧
      t.taker.expect = s.taker.expect + 1) ∧
  (∀ (s : State) (c : CellIx) (k : OrderKind), NextOrder s c k → cellLength s.mem c ≠ k.bodyLength →
    ∃ t, exec (orderCommand k) s = .next t ∧ t.finished c .badLength (BitVec.ofNat 16 k.bodyLength) ∧ Untouched s t) ∧
  (∀ (s : State) (c : CellIx) (k : OrderKind), NextOrder s c k → cellLength s.mem c = k.bodyLength →
    8 ≤ cellPosition s.mem c → (cellPosition s.mem c = 15 → k ≠ .setNightK ∧ k ≠ .applyPlanK) →
    ∃ t, exec (orderCommand k) s = .next t ∧ t.finished c .badPosition 0 ∧ Untouched s t) ∧
  ∀ (s : State) (c : CellIx) (k : OrderKind), NextOrder s c k → cellLength s.mem c = k.bodyLength →
    (cellPosition s.mem c < 8 ∨ cellPosition s.mem c = 15 ∧ (k = .setNightK ∨ k = .applyPlanK)) →
    s.engine = .bypassed ∨ s.engine = .closed ∧ k ≠ .applyPlanK →
    ∃ t, exec (orderCommand k) s = .next t ∧ t.finished c .notServing 0 ∧ Untouched s t

/-- R63, R82, R86, R92, R93, R118: an order is refused with the code of the first of its checks that fails, and changes
nothing else; but an EXTEND, refused or not, clears the ring-limit mark of the speaking loop's call. A SET_NIGHT or an
APPLY_PLAN in the name of no position has no authority. -/
def Obligations.RefusedOrdersChangeNothing : Prop :=
  (∀ (s : State) (c : CellIx) (k : OrderKind) (p : Pos) (code : ResultCode), Takes s c k p →
    firstRefusal (orderChecks s p (cellBody s.mem c) k) = some code →
    ∃ t, exec (orderCommand k) s = .next t ∧ t.finished c code 0 ∧
      (k ≠ .extendK → Untouched s t) ∧
      (k = .extendK →
        (∀ i, (t.call i).bare =
          if (s.pos p).speakingCall = some i then { (s.call i).bare with ringLimit := false } else (s.call i).bare) ∧
        t.positions = s.positions ∧ t.parts = s.parts ∧ t.links = s.links ∧ t.rings = s.rings ∧ t.free = s.free ∧
        ∀ j, (t.lamp j).bare = (s.lamp j).bare)) ∧
  ∀ (s : State) (c : CellIx) (k : OrderKind), NextOrder s c k → cellLength s.mem c = k.bodyLength →
    cellPosition s.mem c = 15 → k = .setNightK ∨ k = .applyPlanK → s.engine = .serving →
    ∃ t, exec (orderCommand k) s = .next t ∧ t.finished c .noAuthority 0 ∧ Untouched s t

/-! ## Signing on, signing off, pausing -/

namespace Sys2Proof.Machine

/-- The role that a position which signs on takes: a vacant role that the plan names it for, the chief role first
(R79). -/
def roleOnOpening (s : State) (p : Pos) : Role :=
  match s.plan with
  | none => .none
  | some pl =>
    if pl.chief = some p ∧ ∀ q, (s.pos q).role ≠ .chief then .chief
    else if pl.deputy = some p ∧ ∀ q, (s.pos q).role ≠ .deputy then .deputy
    else .none

/-- A call whose offer has been withdrawn: back in its place, its WAIT timer resumed unless it has been offered again at
another position (R5, R38, R42). -/
def offeredAgainOrWaits (s t : State) (p : Pos) (j : Slot) : Prop :=
  (t.call j).waiting = (s.call j).waiting ∧ (t.call j).expiryHeld = false ∧
  (((t.call j).state = .queued ∧ (t.call j).timer = (s.call j).waitDeadline.map fun d => (.wait, d)) ∨
    ((t.call j).state = .offered ∧ (t.call j).position ≠ some p))

end Sys2Proof.Machine

/-- R64, R69, R79, R120, R35 to R38: an OPEN that passes its checks; and where QUEUED members wait, the arbiter offers them
to the positions available, the opening one among them. -/
def Obligations.OpenSignsThePositionOn : Prop :=
  ∀ (s : State) (c : CellIx) (p : Pos) (q : Part), OpenReady s c p q → (s.pos p).role = .none →
    ∃ t, exec .openOrder s = .next t ∧ t.finished c .ok 0 ∧
      (t.pos p).bare = { (s.pos p).bare with isOpen := true, pause := none, missed := 0, role := roleOnOpening s p } ∧
      (t.pos p).idleSince = s.seconds ∧
      (∀ x, x ≠ p → (t.pos x).bare = { (s.pos x).bare with role := (t.pos x).role } ∧
        ((t.pos x).role = (s.pos x).role ∨ ((s.pos x).isOpen = true ∧ (s.pos x).role = .none))) ∧
      (t.prt q).bare = { (s.prt q).bare with mode := if (s.part q).autoNight = true then .day else (s.prt q).mode } ∧
      silent s t ∧ Aside s t (fun _ => False) (fun _ => True) (· = q) (fun _ => False) ∧
      (RosterHolds s q → Distributed
        (s.setPos p { s.pos p with isOpen := true, pause := none, idleSince := s.seconds }) t q)

/-- R65, R66, R70, R80: what a CLOSE that passes its checks leaves of its position, whatever the loops held; and the role
of a chief passes to the deputy. -/
def Obligations.CloseSignsThePositionOff : Prop :=
  ∀ (s : State) (c : CellIx) (p : Pos), CloseReady s c p →
    ∃ t, exec .closeOrder s = .next t ∧ t.finished c .ok 0 ∧
      (t.pos p).isOpen = false ∧ (t.pos p).pause = none ∧ (t.pos p).missed = 0 ∧ (t.pos p).speaking = none ∧
      (t.pos p).offered = none ∧ (t.pos p).role = .none ∧ (∀ l, (t.pos p).loops.get l = none ∧
      (t.pos p).flash.get l = false) ∧ (t.pos p).partition = (s.pos p).partition ∧
      (t.pos p).headset = (s.pos p).headset ∧
      (∀ d, (s.pos p).role = .chief → d ≠ p → (s.pos d).role = .deputy → (∀ x, (s.pos x).role = .deputy → x = d) →
        (∀ x, (s.pos x).role = .chief → x = p) → (t.pos d).role = .chief) ∧
      ∀ x, x ≠ p → (s.pos x).role = .none → (s.pos x).isOpen = false → (t.pos x).role = .none

/-- R65, R66, R78, R26, R119: a forced CLOSE answers the EXTEND in flight of the call of its only loop in use, undoes the
call's legs by its state, and sends it back to the roster as a RECALL member without an origin, with RINGBACK; a FAULT of
the headset of an OPEN position closes it so, but no order that names the headset is issued. The close of the last OPEN
position of an auto-night partition sends the partition to NIGHT: its roster is emptied, the calls of the loops among its
members, and each is rerouted without an origin. -/
def Obligations.ForcedCloseRecallsItsCall : Prop :=
  (∀ (s : State) (c : CellIx) (p : Pos) (i : Slot) (l : LoopIx) (h k : Circuit) (os : List ShelfOrder),
    ForcedCall s c p i l h k → os = closeLegs (s.call i) h k ++ [.tone (s.call i).caller .ringback] → s.room os →
    reachable s os →
    ∃ t, exec .closeOrder s = .next t ∧ t.finished c .ok 0 ∧ ForcedBack s t p i os ∧
      Aside s t (fun j => j = i ∨ j ∈ (s.prt (s.call i).partition).roster) (fun _ => True)
        (· = (s.call i).partition) fun _ => False) ∧
  (∀ (s : State) (a : LinkIx) (f : Frame) (more : Bool) (port : Fin 16) (p : Pos) (i : Slot) (l : LoopIx) (h k : Circuit)
    (os : List ShelfOrder) (orders : List (List Nat)), HeadsetReports s a f port p h → ForcedLoop s p i l h k →
    os = closeLegsSpared (s.call i) k ++ [.tone (s.call i).caller .ringback] → s.room os →
    reachable s os →
    ∃ t, exec (.shelfAnswer a (reportOf more port .fault) orders) s = .next t ∧ reported s t a f h .outOfService ∧
      ForcedBack s t p i os ∧
      (t.pos p).isOpen = false ∧ (t.pos p).pause = none ∧ (t.pos p).missed = 0 ∧ (t.pos p).speaking = none ∧
      (t.pos p).offered = none ∧ (t.pos p).role = .none ∧ (∀ j, (t.pos p).loops.get j = none ∧
      (t.pos p).flash.get j = false) ∧ (t.pos p).partition = (s.pos p).partition ∧ (t.pos p).headset = some h ∧
      Aside s t (fun j => j = i ∨ j ∈ (s.prt (s.call i).partition).roster) (fun _ => True)
        (· = (s.call i).partition) (· = h)) ∧
  ∀ (s : State) (c : CellIx) (p : Pos) (q : Part), LastClose s c p q →
    ∃ t, exec .closeOrder s = .next t ∧ t.finished c .ok 0 ∧ (t.prt q).mode = .night ∧ (t.prt q).roster = [] ∧
      ((s.prt q).roster ≠ [] → (t.prt q).est.bare =
        { (s.prt q).est with counter := 0, stall := false, clamped := false, period := none }) ∧
      ∀ i, i ∈ (s.prt q).roster ∨ (∃ l, (s.pos p).loops.get l = some i) →
        (t.call i).origin = none ∧ (t.call i).identity = (s.call i).identity ∧
        ((t.call i).state = .ringingOut ∨ (t.call i).state = .camped ∨ (t.call i).state = .announced ∨
          (t.call i).state = .closing ∨ (t.call i).state = .free)

/-- R67, R42, R69, R34: PAUSE; a held expiry of the withdrawn call acts at once (with RINGBACK,
notes/assumptions/16.md). -/
def Obligations.PauseStopsAndResumesOffers : Prop :=
  (∀ (s : State) (c : CellIx) (p : Pos) (i : Slot), PauseReady s c p → cellBody s.mem c 0 ≠ 0 →
    (∀ j, (s.pos p).offered = some j →
      j = i ∧ (s.call i).state = .offered ∧ (s.call i).expiryHeld = false ∧ (s.call i).target = none) →
    ∃ t, exec .pauseOrder s = .next t ∧ t.finished c .ok 0 ∧
      (t.pos p).bare = { (s.pos p).bare with pause := some .order } ∧ (t.pos p).offered = none ∧
      (t.pos p).idleSince = (s.pos p).idleSince ∧
      ((s.pos p).offered = some i → offeredAgainOrWaits s t p i) ∧ silent s t ∧
      Aside s t (fun j => (s.pos p).offered = some j) (· = p) (fun _ => False) fun _ => False) ∧
  (∀ (s : State) (c : CellIx) (p : Pos) (i : Slot) (q : Part), PauseReady s c p → cellBody s.mem c 0 ≠ 0 →
    HeldOffer s i p q → s.room (overflowOrders s i q) →
    ∃ t, exec .pauseOrder s = .next t ∧ t.finished c .ok 0 ∧
      (t.pos p).bare = { (s.pos p).bare with pause := some .order } ∧ (t.pos p).offered = none ∧
      (t.pos p).idleSince = (s.pos p).idleSince ∧ leftRoster s t q i ∧ Overflowed s t i q ∧
      issued s t i (entries i (overflowOrders s i q)) ∧
      Aside s t (overflowCalls s i q) (· = p) (overflowParts s q) fun _ => False) ∧
  ∀ (s : State) (c : CellIx) (p : Pos), PauseReady s c p → cellBody s.mem c 0 = 0 →
    ∃ t, exec .pauseOrder s = .next t ∧ t.finished c .ok 0 ∧
      (t.pos p).bare = { (s.pos p).bare with pause := none, missed := 0 } ∧
      ((s.pos p).pause ≠ none → (s.pos p).offered = none → (s.pos p).speaking = none →
        (∃ l, (s.pos p).loops.get l = none) → (t.pos p).idleSince = s.seconds) ∧
      silent s t ∧ Aside s t (fun _ => False) (· = p) (fun _ => False) fun _ => False

/-! ## Answering, picking, holding, retrieving, disconnecting -/

/-- R71, R27, R39, R52, R24, R130, R14 to R17: an ANSWER that passes its checks; and one whose orders a full queue refuses:
it is answered OK, the refused JOIN is a path fault of the call it has just put on its loop, the refused orders of the
teardown count as done, and a call with nothing pending is freed in the same event. -/
def Obligations.AnswerPutsTheOfferedCallOnALoop : Prop :=
  (∀ (s : State) (c : CellIx) (p : Pos) (i : Slot) (l : LoopIx) (h : Circuit), AnswerReady s c p i l h →
    ∃ t, exec .answerOrder s = .next t ∧ t.finished c .ok 0 ∧ TakenToLoop s t p i l h none ∧ (t.pos p).missed = 0) ∧
  ∀ (s : State) (c : CellIx) (p : Pos) (i : Slot) (l : LoopIx) (h : Circuit), AnswerTakes s c p i l h →
    fullLink s (s.call i).caller → (s.call i).extend = none →
    ∃ t, exec .answerOrder s = .next t ∧ t.finished c .ok 0 ∧
      (t.call i).bare =
        { offLoops (s.call i) (if (s.call i).pending = 0 then .free else .closing) s.seconds with
          origin := some p, endReason := some .pathFault } ∧
      t.free = (if (s.call i).pending = 0 then s.free ++ [i] else s.free) ∧
      (t.pos p).bare =
        { (s.pos p).bare with speaking := none, flash := (s.pos p).flash.set l false, missed := 0 } ∧
      (t.prt (s.call i).partition).roster = (s.prt (s.call i).partition).roster.filter (· != i) ∧ silent s t ∧
      Aside s { t with free := s.free } (· ∈ (s.prt (s.call i).partition).roster) (· = p)
        (· = (s.call i).partition) fun _ => False

/-- R72, R27, R39, R42, R52, R24, R34: a PICK that passes its checks; a pending offer goes back to its roster, or
overflows where its expiry is held (with RINGBACK, notes/assumptions/16.md). -/
def Obligations.PickPutsTheNamedCallOnALoop : Prop :=
  (∀ (s : State) (c : CellIx) (p : Pos) (i : Slot) (l : LoopIx) (h : Circuit), PickReady s c p i l h →
    withdrawable s p i →
    ∃ t, exec .pickOrder s = .next t ∧ t.finished c .ok 0 ∧ TakenToLoop s t p i l h none ∧
      (t.pos p).missed = (s.pos p).missed ∧
      ∀ j, (s.pos p).offered = some j →
        (t.call j).expiryHeld = false ∧ memberStays { s.call j with state := .queued } (t.call j) ∧
        (t.call j).waitDeadline = (s.call j).waitDeadline) ∧
  ∀ (s : State) (c : CellIx) (p : Pos) (i j : Slot) (l : LoopIx) (h : Circuit), PickReady s c p i l h →
    HeldOffer s j p (s.call i).partition →
    s.room (overflowOrders s j (s.call i).partition ++ [.join (s.call i).caller h, .tone (s.call i).caller .quiet]) →
    ∃ t, exec .pickOrder s = .next t ∧ t.finished c .ok 0 ∧ TakenToLoop s t p i l h (some j) ∧
      (t.pos p).missed = (s.pos p).missed ∧ Overflowed s t j (s.call i).partition

/-- R73, R69, R7: a HOLD that passes its checks. -/
def Obligations.HoldKeepsTheCallOnItsLoop : Prop :=
  ∀ (s : State) (c : CellIx) (p : Pos) (i : Slot) (l : LoopIx) (h : Circuit), HoldReady s c p i l h →
    ∃ t, exec .holdOrder s = .next t ∧ t.finished c .ok 0 ∧
      (t.call i).bare =
        { onLoop (s.call i) .held s.seconds with
          timer := if (s.part (s.call i).partition).holdRecall = 0 then none
            else some (.hold1, s.seconds + BitVec.ofNat 32 (s.part (s.call i).partition).holdRecall)
          pending := (s.call i).pending + 2 } ∧
      (t.pos p).bare = { (s.pos p).bare with speaking := none } ∧
      ((s.pos p).pause = none → (s.pos p).offered = none → (∃ j, (s.pos p).loops.get j = none) →
        (t.pos p).idleSince = s.seconds) ∧
      issued s t i (entries i [.part (s.call i).caller h, .tone (s.call i).caller .hold]) ∧
      Aside s t (· = i) (· = p) (fun _ => False) fun _ => False

/-- R74, R42, R7, R34: a RETRIEVE that passes its checks; a pending offer goes back to its roster, or overflows where its
expiry is held (with RINGBACK, notes/assumptions/16.md). -/
def Obligations.RetrieveSpeaksToTheHeldCall : Prop :=
  ∀ (s : State) (c : CellIx) (p : Pos) (i : Slot) (l : LoopIx) (h : Circuit), RetrieveReady s c p i l h →
    (withdrawable s p i →
      ∃ t, exec .retrieveOrder s = .next t ∧ t.finished c .ok 0 ∧
        (t.call i).bare = { onLoop (s.call i) .talking s.seconds with pending := (s.call i).pending + 2 } ∧
        (t.pos p).bare =
          { (s.pos p).bare with speaking := some l, flash := (s.pos p).flash.set l false } ∧
        (t.pos p).offered = none ∧ (∀ j, (s.pos p).offered = some j → offeredAgainOrWaits s t p j) ∧
        issued s t i (entries i [.join (s.call i).caller h, .tone (s.call i).caller .quiet]) ∧
        Aside s t (fun j => j = i ∨ (s.pos p).offered = some j) (· = p) (fun _ => False) fun _ => False) ∧
    ∀ (j : Slot) (q : Part), HeldOffer s j p q →
      s.room (overflowOrders s j q ++ [.join (s.call i).caller h, .tone (s.call i).caller .quiet]) →
      ∃ t, exec .retrieveOrder s = .next t ∧ t.finished c .ok 0 ∧
        (t.call i).bare = { onLoop (s.call i) .talking s.seconds with pending := (s.call i).pending + 2 } ∧
        (t.pos p).bare =
          { (s.pos p).bare with speaking := some l, flash := (s.pos p).flash.set l false } ∧
        (t.pos p).offered = none ∧ leftRoster s t q j ∧ Overflowed s t j q ∧ t.rings = s.rings ∧
        queuedAfter s t (entries j (overflowOrders s j q) ++
          entries i [.join (s.call i).caller h, .tone (s.call i).caller .quiet]) ∧
        Aside s t (fun x => x = i ∨ overflowCalls s j q x) (· = p) (overflowParts s q) fun _ => False

/-- R77, R15, R16, R17, R70: a DISCONNECT that passes its checks closes the call; its teardown and DROP are issued where
their links take them; and a call with nothing pending whose orders are all withheld, because their shelves are LOST or
ABSENT, is freed in the same event (R19). -/
def Obligations.DisconnectClosesTheSpeakingCall : Prop :=
  (∀ (s : State) (c : CellIx) (p : Pos) (i : Slot) (l : LoopIx) (h k : Circuit), DisconnectReady s c p i l h k →
    s.room (disconnectOrders (s.call i) h k) → reachable s (disconnectOrders (s.call i) h k) →
    ∃ t, exec .disconnectOrder s = .next t ∧ t.finished c .ok 0 ∧
      (t.call i).bare =
        { onLoop (s.call i) .closing s.seconds with
          endReason := some .attendantDisconnect, position := none, loop := none,
          announcer := (s.call i).announcer,
          pending := (s.call i).pending + (disconnectOrders (s.call i) h k).length } ∧
      offLoop s t p i l ∧ issued s t i (entries i (disconnectOrders (s.call i) h k)) ∧
      Aside s t (· = i) (· = p) (fun _ => False) fun _ => False) ∧
  ∀ (s : State) (c : CellIx) (p : Pos) (i : Slot) (l : LoopIx) (h k : Circuit), DisconnectReady s c p i l h k →
    (s.call i).state = .talking → (s.call i).target = none → (s.call i).pending = 0 →
    (s.shelfOf (s.call i).caller).state = .lost ∨ (s.shelfOf (s.call i).caller).state = .absent →
    ∃ t, exec .disconnectOrder s = .next t ∧ t.finished c .ok 0 ∧ (t.call i).state = .free ∧
      (t.call i).endReason = some .attendantDisconnect ∧ (t.call i).identity = (s.call i).identity ∧
      t.free = s.free ++ [i] ∧ offLoop s t p i l ∧ silent s t

/-! ## Extending, transferring, cancelling -/

/-- R86, R88, R87: an EXTEND with mode SCREENED that passes the checks of R86: a free target is rung and consulted, a
busy one is answered BUSY. -/
def Obligations.ScreenedExtendRingsItsTarget : Prop :=
  (∀ (s : State) (c : CellIx) (p : Pos) (i : Slot) (l : LoopIx) (h k : Circuit) (n : Word),
    ExtendReady s c p i l h k n → cellBody s.mem c 2 = 0 → freeTarget s k → (s.call i).target = none →
    s.room [.part (s.call i).caller h, .tone (s.call i).caller .hold, .ring k, .join h k] →
    ∃ t, exec .extendOrder s = .next t ∧ InFlight s t c p i ∧
      (t.call i).bare =
        { onLoop (s.call i) .consultRinging s.seconds with
          target := some { number := n, circuit := k }, extend := some (cellNumber s.mem c),
          pending := (s.call i).pending + 4 } ∧
      (t.pos p).bare =
        { (s.pos p).bare with extend := some (cellNumber s.mem c), extendCell := some c } ∧
      issued s t i (entries i [.part (s.call i).caller h, .tone (s.call i).caller .hold, .ring k, .join h k]) ∧
      Aside s t (· = i) (· = p) (fun _ => False) fun _ => False) ∧
  ∀ (s : State) (c : CellIx) (p : Pos) (i : Slot) (l : LoopIx) (h k : Circuit) (n : Word),
    ExtendReady s c p i l h k n → cellBody s.mem c 2 = 0 → busyTarget s k →
    ∃ t, exec .extendOrder s = .next t ∧ t.finished c .busy 0 ∧
      (t.call i).bare = { (s.call i).bare with ringLimit := false } ∧ silent s t ∧
      Aside s t (· = i) (fun _ => False) (fun _ => False) fun _ => False

/-- R86, R90, R87, R84: an EXTEND with mode DIRECT that passes the checks of R86: a free target is rung, a busy one is
camped on where its camp list has room, else the order is answered CAMP_FULL. -/
def Obligations.DirectExtendRingsOrCamps : Prop :=
  (∀ (s : State) (c : CellIx) (p : Pos) (i : Slot) (l : LoopIx) (h k : Circuit) (n : Word),
    ExtendReady s c p i l h k n → cellBody s.mem c 2 ≠ 0 → freeTarget s k →
    s.room [.part (s.call i).caller h, .tone (s.call i).caller .ringback, .ring k] →
    ∃ t, exec .extendOrder s = .next t ∧ InFlight s t c p i ∧
      (t.call i).bare =
        { (s.call i).bare with
          ringLimit := false, target := some { number := n, circuit := k }, extend := some (cellNumber s.mem c),
          pending := (s.call i).pending + 3 } ∧
      (t.pos p).bare =
        { (s.pos p).bare with extend := some (cellNumber s.mem c), extendCell := some c } ∧
      issued s t i (entries i [.part (s.call i).caller h, .tone (s.call i).caller .ringback, .ring k]) ∧
      Aside s t (· = i) (· = p) (fun _ => False) fun _ => False) ∧
  (∀ (s : State) (c : CellIx) (p : Pos) (i : Slot) (l : LoopIx) (h k : Circuit) (n : Word),
    ExtendReady s c p i l h k n → cellBody s.mem c 2 ≠ 0 → busyTarget s k → hasCampRoom s k →
    (s.call i).target = none → s.room [.part (s.call i).caller h, .tone (s.call i).caller .hold] →
    ∃ t, exec .extendOrder s = .next t ∧ t.finished c .camped 0 ∧
      (t.call i).bare =
        { onLoop (s.call i) .camped s.seconds with
          target := some { number := n, circuit := k }, position := none, loop := none,
          timer := some (.camp, s.seconds + BitVec.ofNat 32 (s.part (s.call i).partition).campRecall),
          pending := (s.call i).pending + 2 } ∧
      (t.lamp k).camp = (s.lamp k).camp ++ [i] ∧ (t.lamp k).core = (s.lamp k).core ∧ offLoop s t p i l ∧
      issued s t i (entries i [.part (s.call i).caller h, .tone (s.call i).caller .hold]) ∧
      Aside s t (· = i) (· = p) (fun _ => False) (· = k)) ∧
  ∀ (s : State) (c : CellIx) (p : Pos) (i : Slot) (l : LoopIx) (h k : Circuit) (n : Word),
    ExtendReady s c p i l h k n → cellBody s.mem c 2 ≠ 0 → busyTarget s k → ¬ hasCampRoom s k →
    ∃ t, exec .extendOrder s = .next t ∧ t.finished c .campFull 0 ∧
      (t.call i).bare = { (s.call i).bare with ringLimit := false } ∧ silent s t ∧
      Aside s t (· = i) (fun _ => False) (fun _ => False) fun _ => False

namespace Sys2Proof.Machine

/-- TRANSFER or CANCEL reaches a call that consults or extends to circuit `k`; the EXTEND in flight, if there is one, is
the panel's and the call's alike. -/
structure ConsultReady (s : State) (c : CellIx) (kind : OrderKind) (p : Pos) (i : Slot) (l : LoopIx) (h k : Circuit) : Prop
    extends Takes s c kind p, Speaking s p i l h where
  target : ∃ n, (s.call i).target = some { number := n, circuit := k }
  extend : (s.pos p).extend = (s.call i).extend
  inFlight : (s.call i).extend = none → (s.pos p).extendCell = none

/-- The orders of a CANCEL, by the state of the call (R93). -/
def cancelOrders (c : Call) (h k : Circuit) : List ShelfOrder :=
  match c.state with
  | .consultRinging => [.unring k, .part h k, .join c.caller h, .tone c.caller .quiet]
  | .consultTalking => [.part h k, .join c.caller h, .tone c.caller .quiet]
  | _ => [.unring k, .join c.caller h, .tone c.caller .quiet]

end Sys2Proof.Machine

/-- R92, R94, R17, R70: a TRANSFER of a confirmed ring leaves the call ringing out; one of a consultation hands the call
over with the hand-over JOIN and closes it as DELIVERED, without a teardown. -/
def Obligations.TransferLetsTheCallGo : Prop :=
  (∀ (s : State) (c : CellIx) (p : Pos) (i : Slot) (l : LoopIx) (h k : Circuit),
    ConsultReady s c .transferK p i l h k → (s.call i).state = .consultRinging → (s.call i).confirmed = true →
    s.room [.part h k, .tone (s.call i).caller .ringback] →
    ∃ t, exec .transferOrder s = .next t ∧ t.finished c .ok 0 ∧
      (t.call i).bare =
        { onLoop (s.call i) .ringingOut s.seconds with
          position := none, loop := none, ringCount := (s.call i).ringCount, confirmed := true,
          pending := (s.call i).pending + 2 } ∧
      offLoop s t p i l ∧ issued s t i (entries i [.part h k, .tone (s.call i).caller .ringback]) ∧
      Aside s t (· = i) (· = p) (fun _ => False) fun _ => False) ∧
  ∀ (s : State) (c : CellIx) (p : Pos) (i : Slot) (l : LoopIx) (h k : Circuit),
    ConsultReady s c .transferK p i l h k → (s.call i).state = .consultTalking → (s.call i).extend = none →
    s.room [.part h k, .join (s.call i).caller k] →
    ∃ t, exec .transferOrder s = .next t ∧ t.finished c .ok 0 ∧
      (t.call i).bare =
        { onLoop (s.call i) .closing s.seconds with
          endReason := some .delivered, position := none, loop := none, announcer := (s.call i).announcer,
          pending := (s.call i).pending + 2 } ∧
      offLoop s t p i l ∧
      issued s t i
        [{ order := .part h k, slot := some i, handover := false },
          { order := .join (s.call i).caller k, slot := some i, handover := true }] ∧
      Aside s t (· = i) (· = p) (fun _ => False) fun _ => False

/-- R93, R87, R163: a CANCEL gives the caller back to the attendant, and answers an EXTEND in flight CANCELLED. -/
def Obligations.CancelGivesTheCallerBack : Prop :=
  ∀ (s : State) (c : CellIx) (p : Pos) (i : Slot) (l : LoopIx) (h k : Circuit),
    ConsultReady s c .cancelK p i l h k →
    (s.call i).state = .consultRinging ∨ (s.call i).state = .consultTalking ∨
      ((s.call i).state = .talking ∧ (s.call i).extend ≠ none) →
    (s.lamp k).camp = [] → s.room (cancelOrders (s.call i) h k) →
    ∃ t, exec .cancelOrder s = .next t ∧ t.finished c .ok 0 ∧ extendAnswered s t p .cancelled ∧
      backOnLoop s t p i l ∧ (t.call i).identity = (s.call i).identity ∧
      (t.pos p).bare = { (s.pos p).bare with extend := none, extendCell := none } ∧
      issued s t i (entries i (cancelOrders (s.call i) h k)) ∧
      Aside s t (· = i) (· = p) (fun _ => False) fun _ => False

/-! ## Night service and the plan -/

namespace Sys2Proof.Machine

/-- SET_NIGHT passes its checks for partition `q` (R118). -/
structure SetNightReady (s : State) (c : CellIx) (p : Pos) (q : Part) : Prop extends Takes s c .setNightK p where
  chief : (s.pos p).role = .chief
  number : (cellBody s.mem c 0).toNat = q.val
  enabled : (s.part q).enabled = true

/-- A numeric field of the plan area with this value is read as `r` (R107). -/
def readsAs (lo hi v r : Nat) : Prop :=
  lo ≤ r ∧ r ≤ hi ∧ (lo ≤ v → v ≤ hi → r = v) ∧ (v < lo → r = lo) ∧ (hi < v → r = hi)

/-- The same for a field whose value 0 is off (R107). -/
def readsAsOrOff (lo hi v r : Nat) : Prop := (v = 0 → r = 0) ∧ (v ≠ 0 → readsAs lo hi v r)

/-- The position is a member of the partition, which is enabled (R62, R111). -/
def memberOf (pl : Plan) (q : Part) (p : Pos) : Prop :=
  (pl.parts.get q).enabled = true ∧ (pl.parts.get q).members.getLsbD p.val = true

/-- The circuit is held by a live call (R111). -/
def heldByCall (s : State) (k : Circuit) : Prop :=
  ∃ i, (s.call i).state ≠ .free ∧
    ((s.call i).caller = k ∨ (∃ n, (s.call i).target = some { number := n, circuit := k }) ∨
      ((s.call i).state = .announced ∧ (s.call i).announcer = some k))

/-- The circuit is an EXTENSION with this number (R109). -/
def hasNumber (pl : Plan) (k : Circuit) (n : Word) : Prop :=
  (pl.directory.get k).kind = .extension ∧ (pl.directory.get k).number = some n

/-- What a check of R111, by its number, asks of the plan at an index of the table: of a role, a position, a partition, a
circuit or a shelf. Check 6 asks it of the higher of two circuits. -/
def planHolds (s : State) (pl : Plan) (check index : Nat) : Prop :=
  match check with
  | 1 => (index = 0 → ∀ p, pl.chief = some p → ∃ q, memberOf pl q p) ∧
      (index = 1 → ∀ p, pl.deputy = some p → (∃ q, memberOf pl q p) ∧ pl.chief ≠ some p)
  | 2 => ∀ p q r, p.val = index → memberOf pl q p → memberOf pl r p → q = r
  | 3 => ∀ p, p.val = index → (s.pos p).isOpen = true → ∃ q, (s.pos p).partition = some q ∧ memberOf pl q p
  | 4 => ∀ q, q.val = index → (s.part q).enabled = true → (pl.parts.get q).enabled = false →
      (s.prt q).roster = [] ∧ ∀ p, (s.pos p).isOpen = true → (s.pos p).partition ≠ some q
  | 5 => ∀ q, q.val = index → (pl.parts.get q).enabled = true →
      ((s.prt q).roster.filter fun i => (s.call i).cls == .new).length ≤ (pl.parts.get q).capacity
  | 6 => ∀ j k n, k.val = index → j < k → hasNumber pl j n → ¬ hasNumber pl k n
  | 7 => ∀ k, k.val = index → heldByCall s k →
      (pl.directory.get k).kind = (s.dir k).kind ∧ (pl.directory.get k).partition = (s.dir k).partition
  | 8 => ∀ q, q.val = index → (pl.parts.get q).enabled = true → ∃ k, hasNumber pl k (pl.parts.get q).night
  | 9 => ∀ q r, q.val = index → (pl.parts.get q).enabled = true → (pl.parts.get q).overflow = .partition r →
      r ≠ q ∧ (pl.parts.get r).enabled = true
  | 10 => ∀ (n : Fin 16) (k : Circuit), n.val = index → k.val / 16 = n.val → (pl.shelves.get n).fitted = false →
      ¬ heldByCall s k ∧ ∀ p, (s.pos p).isOpen = true → (s.pos p).headset ≠ some k
  | 11 => ∀ p q, p.val = index → memberOf pl q p → ∃ h, pl.headsets.get p = some h ∧
      (pl.directory.get h).kind = .position ∧ ∀ x r, x ≠ p → memberOf pl r x → pl.headsets.get x ≠ some h
  | _ => True

/-- The plan passes the eleven checks (R111). -/
def PlanFits (s : State) (pl : Plan) : Prop := ∀ check index, planHolds s pl check index

/-- The check is the first that fails, at the lowest index at which it does (R111). -/
def firstToFail (s : State) (pl : Plan) (check index : Nat) : Prop :=
  ¬ planHolds s pl check index ∧ ∀ c x, c < check ∨ c = check ∧ x < index → planHolds s pl c x

end Sys2Proof.Machine

/-- R118, R117, R46: SET_NIGHT. A partition sent to NIGHT loses its whole roster and its counter stops; every member is
rerouted without its origin; every position stays as it was signed on. A partition sent to DAY moves no call; a mode that
is already there changes nothing. -/
def Obligations.SetNightChangesTheMode : Prop :=
  (∀ (s : State) (c : CellIx) (p : Pos) (q : Part), SetNightReady s c p q → cellBody s.mem c 1 ≠ 0 →
    (s.prt q).mode = .day → (s.prt q).roster.Nodup →
    (∀ i ∈ (s.prt q).roster, (s.call i).partition = q ∧ ((s.call i).state = .queued ∨ (s.call i).state = .offered)) →
    ∃ t, exec .setNightOrder s = .next t ∧ t.finished c .ok 0 ∧ (t.prt q).mode = .night ∧ (t.prt q).roster = [] ∧
      ((s.prt q).roster ≠ [] → (t.prt q).est.bare =
        { (s.prt q).est with counter := 0, stall := false, clamped := false, period := none }) ∧
      (∀ i ∈ (s.prt q).roster, (t.call i).origin = none ∧
        ((t.call i).state = .ringingOut ∨ (t.call i).state = .camped ∨ (t.call i).state = .announced ∨
          (t.call i).state = .closing ∨ (t.call i).state = .free)) ∧
      ∀ x, (t.pos x).core = (s.pos x).core) ∧
  (∀ (s : State) (c : CellIx) (p : Pos) (q : Part), SetNightReady s c p q → cellBody s.mem c 1 = 0 →
    (s.prt q).mode = .night →
    ∃ t, exec .setNightOrder s = .next t ∧ t.finished c .ok 0 ∧ (t.prt q).bare = { (s.prt q).bare with mode := .day } ∧
      silent s t ∧ t.calls = s.calls ∧ t.positions = s.positions ∧
      Aside s t (fun _ => False) (fun _ => False) (· = q) fun _ => False) ∧
  ∀ (s : State) (c : CellIx) (p : Pos) (q : Part), SetNightReady s c p q →
    (cellBody s.mem c 1 = 0 ↔ (s.prt q).mode = .day) →
    ∃ t, exec .setNightOrder s = .next t ∧ t.finished c .ok 0 ∧ Untouched s t

/-- R110, R164, R159: an APPLY_PLAN that passes its checks begins the apply with the plan area's staged copy: its cell
stays TAKEN, the sweep halts, the plan area is write-locked, and no block sees the plan yet. -/
def Obligations.ApplyBeginsWithAStagedCopy : Prop :=
  ∀ (s : State) (c : CellIx), NextOrder s c .applyPlanK → cellLength s.mem c = 0 →
    (s.engine = .closed ∧ (cellPosition s.mem c < 8 ∨ cellPosition s.mem c = 15)) ∨
      (s.engine = .serving ∧ ∃ p : Pos, cellPosition s.mem c = p.val ∧ (s.pos p).role = .chief) →
    ∃ t, exec .applyPlanOrder s = .next t ∧ t.apply = some { cell := c, staged := readPlan s.mem } ∧
      cellState t.mem c = .taken ∧ t.takenNow c ∧ c ∈ t.taker.taken ∧ t.taker.sweeping = false ∧
      t.taker.expect = s.taker.expect + 1 ∧ Untouched s { t with apply := s.apply } ∧
      (∀ a v, 0x2100 ≤ a → a < 0x2B40 → dropsByte t a v) ∧ exec .sweepStep t = .next t ∧
      ∀ on, ∃ u, exec (.attention on) t = .next u ∧ u.taker.sweeping = false

/-- R107, R108, R179: every field of the plan area: a numeric one is read within its range, a coded one by its coding. -/
def Obligations.PlanFieldsAreReadWithinTheirRanges : Prop :=
  (∀ m : Memory,
    (∀ p : Pos, ((readPlan m).chief = some p ↔ (m.read 0x2100).toNat = p.val) ∧
      ((readPlan m).deputy = some p ↔ (m.read 0x2101).toNat = p.val) ∧
      ∀ h : Circuit, (readPlan m).headsets.get p = some h ↔ (m.read (0x2240 + 16 * p.val)).toNat = h.val ∧ h ≠ 255) ∧
    ((readPlan m).source = .internal ↔ m.read 0x2102 = 0) ∧
    (∀ n : Fin 16, ((readPlan m).shelves.get n).fitted = true ↔ m.read (0x22C0 + 8 * n.val) ≠ 0) ∧
    (∀ (k : Circuit) (d : DirEntry), (readPlan m).directory.get k = d → ∃ b, b = 0x2340 + 8 * k.val ∧
      (∀ x ∈ [(LineKind.trunk, 1), (.extension, 2), (.position, 3), (.announcer, 4)],
        d.kind = x.1 ↔ (m.read b).toNat = x.2) ∧
      (∀ q : Part, d.partition = some q ↔ (m.read (b + 1)).toNat = q.val) ∧
      (∀ n : Word, d.number = some n ↔ d.kind = .extension ∧ m.read (b + 3) ++ m.read (b + 2) = n ∧ n.toNat ≤ 9999) ∧
      (d.campAllowed = true ↔ m.read (b + 4) ≠ 0)) ∧
    ∀ (p : Part) (pp : PartPlan), (readPlan m).parts.get p = pp → ∃ b, b = 0x2140 + 64 * p.val ∧
      (pp.enabled = true ↔ m.read b ≠ 0) ∧ pp.members = m.read (b + 1) ∧
      (∀ q : Part, pp.overflow = .partition q ↔ (m.read (b + 6)).toNat = q.val) ∧
      (∀ a : Circuit, pp.announcer = some a ↔ (m.read (b + 7)).toNat = a.val ∧ a ≠ 255 ∧
        ((readPlan m).directory.get a).kind = .announcer) ∧
      pp.night = m.read (b + 9) ++ m.read (b + 8) ∧ (pp.autoNight = true ↔ m.read (b + 0x0A) ≠ 0) ∧
      (pp.basis = .newer ↔ m.read (b + 0x17) = 1) ∧ (pp.basis = .older ↔ m.read (b + 0x17) = 2)) ∧
  ∀ m : Memory,
    readsAs 2 8 (m.read 0x2103).toNat (readPlan m).period ∧ readsAs 2 20 (m.read 0x2104).toNat (readPlan m).window ∧
    readsAs 1 7 (m.read 0x2105).toNat (readPlan m).missLimit ∧
    (∀ n : Fin 16, readsAs 10 200 (m.read (0x22C1 + 8 * n.val)).toNat ((readPlan m).shelves.get n).interval) ∧
    ∀ p : Part, ∃ pp, (readPlan m).parts.get p = pp ∧ ∃ b, b = 0x2140 + 64 * p.val ∧
      readsAs 1 48 (m.read (b + 0x02)).toNat pp.capacity ∧
      readsAsOrOff 1 pp.capacity (m.read (b + 0x03)).toNat pp.alertLevel ∧
      readsAsOrOff 1 999 (m.read16 (b + 0x04)).toNat pp.overflowLimit ∧
      readsAs 4 60 (m.read (b + 0x0B)).toNat pp.offerTimeout ∧
      readsAsOrOff 10 900 (m.read16 (b + 0x0C)).toNat pp.holdRecall ∧
      readsAs 10 900 (m.read16 (b + 0x0E)).toNat pp.campRecall ∧
      readsAsOrOff 10 900 (m.read16 (b + 0x10)).toNat pp.waitLimit ∧
      readsAs 1 15 (m.read (b + 0x12)).toNat pp.ringLimit ∧ readsAs 10 120 (m.read (b + 0x13)).toNat pp.announceTime ∧
      readsAs 0 7 (m.read (b + 0x14)).toNat pp.seedRange ∧ readsAs 0 255 (m.read (b + 0x15)).toNat pp.seedSpacing ∧
      readsAs 1 255 (m.read (b + 0x16)).toNat pp.weight

/-- R111, R177: the apply under way is decided by the eleven checks, and a failed one is answered with the first check that
fails and the lowest index at which it does. The premise is part of the invariant of StepsKeepOpenPositionsSeated. -/
def Obligations.ApplyIsDecidedByTheElevenChecks : Prop :=
  ∀ (s : State) (a : Apply), s.apply = some a → Memory.wf s.mem = true →
    (∀ p, (s.pos p).isOpen = true → (s.pos p).partition ≠ none) →
    ∃ t, exec .applyCompletion s = .next t ∧ t.apply = none ∧
      (PlanFits s a.staged → t.plan = some a.staged ∧ t.planCount = s.planCount + 1) ∧
      (¬ PlanFits s a.staged → t.plan = s.plan ∧ t.planCount = s.planCount ∧
        ∃ check index, 1 ≤ check ∧ check ≤ 11 ∧ index < 256 ∧ firstToFail s a.staged check index ∧
          t.answered a.cell .planInvalid (BitVec.ofNat 16 (256 * check + index)))

/-- R112: a failed apply. -/
def Obligations.FailedApplyChangesNothing : Prop :=
  ∀ (s : State) (a : Apply) (check index : Nat), s.apply = some a → Memory.wf s.mem = true →
    s.invalid a.staged = some (check, index) →
    ∃ t, exec .applyCompletion s = .next t ∧
      t.answered a.cell .planInvalid (BitVec.ofNat 16 (256 * check + index)) ∧
      (∀ x, ¬ resultByte a.cell x → t.mem.read x = s.mem.read x) ∧
      t = { s with
        mem := t.mem, apply := none,
        taker := { s.taker with sweeping := true, taken := s.taker.taken.filter (· != a.cell) },
        regs := { s.regs with summary := s.regs.summary ||| 0x04 } }

/-- R113, R114, R115, R121, R59, R81, R105, R153: what an activation makes of the engine, the plan count, the links and
shelves, the circuits, the cadence unit, the partitions and the positions. The premises exclude only states that no run
reaches: no EXTEND in flight answers to the apply's cell, and no position is OPEN for a partition that is not enabled.
That both roles go to the new plan's OPEN holders whatever R80 has passed on before is the model's reading of R81
(notes/assumptions/22.md). -/
def Obligations.ActivationBringsThePlanIntoForce : Prop :=
  ∀ (s : State) (a : Apply) (pl : Plan), s.apply = some a → pl = a.staged → Memory.wf s.mem = true →
    s.invalid pl = none → (∀ p, (s.pos p).extendCell ≠ some a.cell) →
    (∀ p q, (s.pos p).isOpen = true → (s.pos p).partition = some q → (s.part q).enabled = true) →
    ∃ t, exec .applyCompletion s = .next t ∧ t.plan = some pl ∧ t.apply = none ∧ t.taker.sweeping = true ∧
      t.planCount = s.planCount + 1 ∧ t.answered a.cell .ok ((s.planCount + 1).setWidth 16) ∧
      t.engine = (if s.engine = .closed then .serving else s.engine) ∧
      (∀ k, (t.lamp k).kind = (pl.directory.get k).kind ∧ (t.lamp k).number = (pl.directory.get k).number.getD 0xFFFF ∧
        (t.lamp k).partition = (match (pl.directory.get k).partition with | some q => BitVec.ofNat 8 q.val | none => 255) ∧
        (t.lamp k).line =
          (if (s.shelfOf k).state ≠ .absent ∧ (pl.shelves.get (shelfNumber (linkOf k) (addrOf k))).fitted = false then .unknown
            else (s.lamp k).line) ∧
        ((pl.directory.get k).kind ≠ .extension → (t.lamp k).camp = [])) ∧
      (∀ l, (t.link l).window = pl.window ∧ (t.link l).missLimit = pl.missLimit ∧
        (t.link l).state = (if s.engine = .closed then .running else (s.link l).state) ∧
        ∀ d, ∃ sh, (s.link l).shelves.get d = sh ∧ ∃ plan, pl.shelves.get (shelfNumber l d) = plan ∧
          ((t.link l).shelves.get d).interval = plan.interval ∧
          (plan.fitted = false → ((t.link l).shelves.get d).state = .absent ∧ (t.link l).polls.get d = .none) ∧
          (plan.fitted = true → sh.state = .absent →
            ((t.link l).shelves.get d).state = .searching ∧ (t.link l).polls.get d = .due) ∧
          (plan.fitted = true → sh.state ≠ .absent → ((t.link l).shelves.get d).state = sh.state)) ∧
      t.cadence =
        (match s.cadence.configured, pl.source with
          | .internal, .external =>
            { configured := .external, inUse := .external, period := pl.period, periodTimer := none,
              lossTimer := some (2 * pl.period) }
          | .external, .internal =>
            { configured := .internal, inUse := .internal, period := pl.period, periodTimer := some pl.period,
              lossTimer := none }
          | _, _ => { s.cadence with period := pl.period }) ∧
      t.flag .cadence = s.flag .cadence ∧
      (∀ q, ((s.part q).enabled = false ∨ (pl.parts.get q).enabled = false → (t.prt q).mode = .day) ∧
        ((t.prt q).est.range, (t.prt q).est.new, (t.prt q).est.old) =
          if (pl.parts.get q).enabled = true ∧ ((s.part q).enabled = false ∨
              (s.part q).seedRange ≠ (pl.parts.get q).seedRange ∨ (s.part q).seedSpacing ≠ (pl.parts.get q).seedSpacing) then
            ((pl.parts.get q).seedRange, (pl.parts.get q).seedSpacing, (pl.parts.get q).seedSpacing)
          else ((s.prt q).est.range, (s.prt q).est.new, (s.prt q).est.old)) ∧
      ∀ p, (∀ q, memberOf pl q p → (t.pos p).partition = some q) ∧
        ((∀ q, ¬ memberOf pl q p) → (t.pos p).partition = none) ∧ (t.pos p).headset = pl.headsets.get p ∧
        (t.pos p).isOpen = ((s.pos p).isOpen && (s.pos p).headset == pl.headsets.get p) ∧
        (t.pos p).role =
          (if (t.pos p).isOpen = true ∧ pl.chief = some p then .chief
            else if (t.pos p).isOpen = true ∧ pl.deputy = some p then .deputy else .none)

/-! ## Shelf links -/

namespace Sys2Proof.Machine

/-- The bytes of a frame: the lead byte, the body and the check byte (R124, R126, R178). -/
def frameSpelled (a : Addr) (entry : Option Entry) (again : Bool) : List Byte :=
  let lead : Byte := BitVec.ofNat 8 ((if entry.isSome then 128 else 0) + (if again then 64 else 0) + a.val)
  let port (k : Circuit) : Byte := BitVec.ofNat 8 (k.val % 16)
  let body : List Byte :=
    match entry with
    | none => []
    | some x =>
      match x.order with
      | .join j k => [1, port j, BitVec.ofNat 8 k.val]
      | .part j k => [2, port j, BitVec.ofNat 8 k.val]
      | .ring k => [3, port k]
      | .unring k => [4, port k]
      | .tone k .quiet => [5, port k, 0]
      | .tone k .ringback => [5, port k, 1]
      | .tone k .hold => [5, port k, 2]
      | .tone k .congestion => [5, port k, 3]
      | .drop k => [6, port k]
  lead :: body ++ [(lead :: body).foldl (· ^^^ ·) 0x5C]

/-- A frame has been sent on a link, and its queue is now `queue`: the response window opens, a waiting repeat is gone,
and a poll restarts its shelf's deadline (R131 to R133). -/
structure Sends (s t : State) (l : LinkIx) (a : Addr) (entry : Option Entry) (again : Bool) (queue : List Entry) : Prop where
  shape : t = { s with links := t.links }
  others : ∀ m, m ≠ l → t.link m = s.link m
  link : t.link l = { s.link l with
    queue := queue, again := none, polls := (t.link l).polls,
    frame := some { addr := a, entry := entry, again := again, bytes := frameSpelled a entry again,
                    window := (s.link l).window, dead := false } }
  polls : ∀ b, (t.link l).polls.get b =
    if b = a ∧ entry = none then
      .running (if ((s.link l).shelves.get a).state = .present then ((s.link l).shelves.get a).interval else 1000)
    else (s.link l).polls.get b

/-- The link may send (R131). -/
structure MaySend (s : State) (l : LinkIx) : Prop where
  running : (s.link l).state = .running
  quiet : (s.link l).frame = none

/-- A shelf to be polled for more, or a due one (R131). -/
def asksMore (k : Link) (a : Addr) : Prop := (k.shelves.get a).state = .present ∧ k.more.get a = true

/-- The shelf that the link polls next (R131). -/
def pollsNext (k : Link) (a : Addr) : Prop :=
  (asksMore k a ∧ ∀ b < a, ¬ asksMore k b) ∨
  ((∀ b, ¬ asksMore k b) ∧ k.polls.get a = .due ∧ ∀ b < a, k.polls.get b ≠ .due)

/-- The link may send, and the order at the head of its queue, of call `i`, is for a shelf that is not PRESENT (R131). -/
structure FailsAtHead (s : State) (l : LinkIx) (x : Entry) (xs : List Entry) (i : Slot) : Prop extends MaySend s l where
  again : (s.link l).again = none
  queue : (s.link l).queue = x :: xs
  shelf : ((s.link l).shelves.get (addrOf x.order.first)).state ≠ .present
  slot : x.slot = some i

/-- That order, the only one of its link, has left the queue, the link sends nothing, and a RING has lowered the ring order
count of its circuit (R85, R131). -/
def onlyFailed (s t : State) (l : LinkIx) (x : Entry) : Prop :=
  (t.link l).queue = [] ∧ (t.link l).frame = none ∧
  ∀ k, t.rings.get k = if x.order = .ring k then s.rings.get k - 1 else s.rings.get k

/-- The frame in flight on a link carries this order of a call, to a PRESENT shelf. -/
structure OrderFlies (s : State) (l : LinkIx) (f : Frame) (x : Entry) (i : Slot) : Prop where
  frame : (s.link l).frame = some f
  alive : f.dead = false
  entry : f.entry = some x
  slot : x.slot = some i
  present : ((s.link l).shelves.get f.addr).state = .present
  wf : Memory.wf s.mem = true

/-- No call but `i` rings, consults or camps on circuit `k`. -/
def onlyTarget (s : State) (k : Circuit) (i : Slot) : Prop := ∀ j, j ≠ i → ¬ engages (s.call j) k

/-- The CAMP timer that starts now in a partition (R84). -/
def campTimer (s : State) (q : Part) : Option (TimerKind × Seconds) :=
  some (.camp, s.seconds + BitVec.ofNat 32 (s.part q).campRecall)

/-- The frame in flight carries the only RING of the target circuit of its call (R85). -/
structure RingFlies (s : State) (l : LinkIx) (f : Frame) (x : Entry) (i : Slot) (n : Word) (k : Circuit) : Prop
    extends OrderFlies s l f x i where
  order : x.order = .ring k
  target : (s.call i).target = some { number := n, circuit := k }
  pending : 0 < (s.call i).pending
  count : s.rings.get k = 1

/-- The frame of that RING has ended: the ring order count of its circuit is 0, and the line of the circuit is this
(R133, R85, R144). -/
def rung (s t : State) (l : LinkIx) (f : Frame) (k : Circuit) (line : LineState) : Prop :=
  frameEnded s t l f.addr ∧ (∀ j, t.rings.get j = if j = k then 0 else s.rings.get j) ∧ (t.lamp k).line = line

/-- The line of a circuit after an acknowledged RING (R144). -/
def afterRing (s : State) (k : Circuit) : LineState := if (s.lamp k).line = .idle then .ringing else (s.lamp k).line

/-- The call's EXTEND with mode DIRECT is in flight at position `p`, from cell `d` (R87, R90). -/
structure DirectFlies (s : State) (p : Pos) (i : Slot) (j : LoopIx) (h : Circuit) (d : CellIx) : Prop
    extends Speaking s p i j h where
  talking : (s.call i).state = .talking
  extend : (s.call i).extend ≠ none
  panel : (s.pos p).extend = (s.call i).extend ∧ (s.pos p).extendCell = some d

/-- The order is neither RING nor UNRING. -/
def plainOrder (o : ShelfOrder) : Prop := ∀ k, o ≠ .ring k ∧ o ≠ .unring k

/-- The circuit has no role: it is neither caller nor target of a live call, nobody camps on it, and it is no headset of
an OPEN position (R145). -/
def noRole (s : State) (k : Circuit) : Prop :=
  (∀ i, (s.call i).state ≠ .free →
    (s.call i).caller ≠ k ∧ ∀ n, (s.call i).target ≠ some { number := n, circuit := k }) ∧
  (s.lamp k).camp = [] ∧ ∀ p, (s.pos p).isOpen = true → (s.pos p).headset ≠ some k

/-- A poll is in flight to the shelf of circuit `k`, which is the target circuit of call `i`; no other call rings, consults
or camps on it. -/
structure TargetReports (s : State) (l : LinkIx) (f : Frame) (port : Fin 16) (k : Circuit) (i : Slot) (n : Word) : Prop
    extends PollFlies s l f where
  circuit : k = circuitAt l f.addr port
  target : (s.call i).target = some { number := n, circuit := k }
  only : onlyTarget s k i

/-- The line state after a report (R143). -/
def lineAfter : ReportKind → LineState
  | .seize _ _ | .answer | .busy => .busy
  | .clear | .idle => .idle
  | .fault => .outOfService

/-- A SEIZE that is taken for admission is on its way: a poll is in flight to the shelf of circuit `k` (R28, R127). -/
structure Arrives (s : State) (l : LinkIx) (f : Frame) (port : Fin 16) (a : Arrival) (k : Circuit) (q : Part) : Prop
    extends PollFlies s l f where
  sendable : a.sendable
  circuit : k = circuitAt l f.addr port
  serving : s.engine = .serving
  kind : (s.dir k).kind = .trunk ∨ (s.dir k).kind = .extension
  partition : (s.dir k).partition = some q
  enabled : (s.part q).enabled = true
  noCall : ∀ j, (s.call j).state ≠ .free → (s.call j).caller ≠ k

/-- The slot at the head of the free list, which is FREE (R9). -/
def TakesSlot (s : State) (i : Slot) (rest : List Slot) : Prop := s.free = i :: rest ∧ (s.call i).state = .free

/-- The record of the call that an arrival makes, but for the state that admission chooses (R1, R2, R9). -/
def freshCall (s : State) (k : Circuit) (q : Part) (a : Arrival) : Call :=
  { Call.blank with
    partition := q, caller := k, callerDigits := a.caller, entered := s.seconds
    called := if (s.dir k).kind = .trunk then a.called else none
    cause := if (s.dir k).kind = .extension then .dialAttendant else if a.called = none then .trunk else .unansweredDial }

/-- The state in which a call has joined the tail of a roster as a NEW member, before the arbiter runs (R26). -/
def joined (s : State) (q : Part) (i : Slot) (c : Call) : State :=
  let deadline := s.seconds + BitVec.ofNat 32 (s.part q).waitLimit
  (s.setCall i { c with
    state := .queued, cls := .new, place := some ((s.prt q).roster.length + 1),
    waitDeadline := if (s.part q).waitLimit = 0 then none else some deadline,
    timer := if (s.part q).waitLimit = 0 then none else some (.wait, deadline) }).setPrt q
    { s.prt q with roster := (s.prt q).roster ++ [i] }

/-- The call is the only live call of the circuit, as its caller, and is not closing yet. -/
structure CallerOf (s : State) (k : Circuit) (i : Slot) : Prop where
  live : (s.call i).state ≠ .free ∧ (s.call i).state ≠ .closing
  caller : (s.call i).caller = k
  alone : ∀ j, j ≠ i → (s.call j).state ≠ .free → (s.call j).caller ≠ k

/-- A poll is in flight to the shelf of circuit `k`, which is the caller circuit of call `i`; no call rings, consults or
camps on it, and it is no headset. -/
structure CallerReports (s : State) (l : LinkIx) (f : Frame) (port : Fin 16) (k : Circuit) (i : Slot) : Prop
    extends PollFlies s l f, CallerOf s k i where
  circuit : k = circuitAt l f.addr port
  noTarget : ∀ j, ¬ engages (s.call j) k
  noCamp : (s.lamp k).camp = []
  noHeadset : ∀ p, (s.pos p).headset ≠ some k

/-- The teardown of a call that closes; `h`, `g` and `a` are its headset, target and announcer circuits (R16, and the UNRING
of a camped call's pending ring, R102). -/
def teardownOrders (c : Call) (h g a : Circuit) : List ShelfOrder :=
  match c.state with
  | .talking => if c.extend = none then [.part c.caller h] else [.unring g, .tone c.caller .quiet]
  | .consultRinging => [.unring g, .part h g, .tone c.caller .quiet]
  | .consultTalking => [.part h g, .tone c.caller .quiet]
  | .ringingOut => [.unring g, .tone c.caller .quiet]
  | .camped => if c.ringPending = true then [.unring g, .tone c.caller .quiet] else [.tone c.caller .quiet]
  | .announced => [.part c.caller a]
  | .queued => [.tone c.caller .quiet]
  | .offered => [.tone c.caller .quiet]
  | .held => [.tone c.caller .quiet]
  | .free => []
  | .closing => []

/-- Where a call's state joins it to a headset, a target or an announcer, these are they; it has an EXTEND in flight only at
its position (R3, R7, R16). -/
structure CallerLegs (s : State) (i : Slot) (p : Pos) (h g a : Circuit) : Prop where
  headset : loopState (s.call i).state → (s.call i).position = some p ∧ (s.pos p).headset = some h
  target : (s.call i).state = .consultRinging ∨ (s.call i).state = .consultTalking ∨
    (s.call i).state = .ringingOut ∨ (s.call i).state = .camped ∨
    ((s.call i).state = .talking ∧ (s.call i).extend ≠ none) →
    ∃ n, (s.call i).target = some { number := n, circuit := g }
  camp : (s.call i).state ≠ .camped → i ∉ (s.lamp g).camp
  announcer : (s.call i).state = .announced → (s.call i).announcer = some a
  extend : (s.call i).extend ≠ none → (s.call i).position = some p

/-- The circuit is one of the shelf's (R123). -/
def onShelf (l : LinkIx) (a : Addr) (k : Circuit) : Prop := linkOf k = l ∧ addrOf k = a

/-- Of the events of a shelf's loss only the FAULT of its caller reaches call `i`: the shelf carries no headset of an OPEN
position and not the call's target; the orders of the link and of its frame are for shelves of the link. -/
structure LossEndsIt (s : State) (l : LinkIx) (f : Frame) (i : Slot) : Prop where
  headsets : ∀ p h, (s.pos p).isOpen = true → (s.pos p).headset = some h → ¬ onShelf l f.addr h
  target : ∀ g, (s.call i).target = some g → ¬ onShelf l f.addr g.circuit
  queue : ∀ x ∈ (s.link l).queue, linkOf x.order.first = l
  entry : ∀ x, f.entry = some x → onShelf l f.addr x.order.first

end Sys2Proof.Machine

/-- R131, R132, R133, R134, R124, R178: what the arbiter of a link sends: a repeat, else the order at the head of the
queue, else a poll; that it waits when there is nothing to send; that a HELD or busy link sends nothing (the model's
choice, notes/assumptions/1.md); and that an order at the head whose shelf is not PRESENT fails at once with LOST: it
lowers the count of a closing call, and frees one whose last order it was (R13, R18, R19); it is a path fault of a live
call, unless its first circuit is OUT_OF_SERVICE, when it only lowers the count (R14). -/
def Obligations.ArbiterSendsRepeatOrderPoll : Prop :=
  (∀ (s : State) (l : LinkIx) (r : Again), MaySend s l → (s.link l).again = some r →
    ∃ t, exec (.sendFrame l) s = .next t ∧ Sends s t l r.addr r.entry true (s.link l).queue) ∧
  (∀ (s : State) (l : LinkIx) (x : Entry) (xs : List Entry), MaySend s l → (s.link l).again = none →
    (s.link l).queue = x :: xs → ((s.link l).shelves.get (addrOf x.order.first)).state = .present →
    ∃ t, exec (.sendFrame l) s = .next t ∧ Sends s t l (addrOf x.order.first) (some x) false xs) ∧
  (∀ (s : State) (l : LinkIx) (a : Addr), MaySend s l → (s.link l).again = none → (s.link l).queue = [] →
    pollsNext (s.link l) a → ∃ t, exec (.sendFrame l) s = .next t ∧ Sends s t l a none false []) ∧
  (∀ (s : State) (l : LinkIx), MaySend s l → (s.link l).again = none → (s.link l).queue = [] →
    (∀ a, ¬ pollsNext (s.link l) a) → exec (.sendFrame l) s = .next s) ∧
  (∀ (s : State) (l : LinkIx), (s.link l).state = .held ∨ (s.link l).frame ≠ none → exec (.sendFrame l) s = .next s) ∧
  (∀ (s : State) (l : LinkIx) (x : Entry) (xs : List Entry) (i : Slot), FailsAtHead s l x xs i → xs = [] →
    (∀ a, ¬ pollsNext (s.link l) a) → x.handover = false → (s.call i).state = .closing → (s.call i).pending = 1 →
    (s.call i).target = none →
    ∃ t, exec (.sendFrame l) s = .next t ∧ onlyFailed s t l x ∧
      (t.call i).state = .free ∧ (t.call i).pending = 0 ∧ (t.call i).endReason = (s.call i).endReason ∧
      t.free = s.free ++ [i]) ∧
  (∀ (s : State) (l : LinkIx) (x : Entry) (xs : List Entry) (i : Slot), FailsAtHead s l x xs i → xs = [] →
    (∀ a, ¬ pollsNext (s.link l) a) →
    x.handover = false ∧ (s.call i).state = .closing ∧ 1 < (s.call i).pending ∨
      (s.call i).state ≠ .free ∧ (s.call i).state ≠ .closing ∧ (s.lamp x.order.first).line = .outOfService →
    ∃ t, exec (.sendFrame l) s = .next t ∧ onlyFailed s t l x ∧
      (t.call i).bare = { (s.call i).bare with pending := (s.call i).pending - 1 } ∧
      Aside s t (· = i) (fun _ => False) (fun _ => False) fun _ => False) ∧
  ∀ (s : State) (l : LinkIx) (x : Entry) (xs : List Entry) (i : Slot), FailsAtHead s l x xs i →
    (s.call i).state ≠ .free → (s.call i).state ≠ .closing → (s.lamp x.order.first).line ≠ .outOfService →
    ∃ t, exec (.sendFrame l) s = .next t ∧ ((t.call i).state = .closing ∨ (t.call i).state = .free) ∧
      (t.call i).endReason = some .pathFault ∧ (t.call i).identity = (s.call i).identity

/-- R133, R134, R13, R14, R18, R19: what the answer to an order other than RING or UNRING does: an ACK lowers its call's
count, and frees a closing call whose last order it was; a NAK is a path fault of a live call; a NAK of the hand-over
JOIN makes the end reason PATH_FAULT and drops the caller. -/
def Obligations.OrderAnswersReachTheirCall : Prop :=
  (∀ (s : State) (l : LinkIx) (f : Frame) (x : Entry) (i : Slot) (orders : List (List Nat)), OrderFlies s l f x i →
    plainOrder x.order → (s.call i).state ≠ .free → (s.call i).state ≠ .closing →
    ∃ t, exec (.shelfAnswer l [1, 0, 0x5D] orders) s = .next t ∧ frameEnded s t l f.addr ∧
      (t.call i).bare = { (s.call i).bare with pending := (s.call i).pending - 1 } ∧ silent s t ∧
      Aside s t (· = i) (fun _ => False) (fun _ => False) fun _ => False) ∧
  (∀ (s : State) (l : LinkIx) (f : Frame) (x : Entry) (i : Slot) (orders : List (List Nat)), OrderFlies s l f x i →
    plainOrder x.order → (s.call i).state = .closing → (s.call i).pending = 1 →
    (∀ g, (s.call i).target = some g → (s.lamp g.circuit).camp = []) →
    ∃ t, exec (.shelfAnswer l [1, 0, 0x5D] orders) s = .next t ∧ frameEnded s t l f.addr ∧
      (t.call i).state = .free ∧ (t.call i).endReason = (s.call i).endReason ∧ t.free = s.free ++ [i] ∧ silent s t) ∧
  (∀ (s : State) (l : LinkIx) (f : Frame) (x : Entry) (i : Slot) (orders : List (List Nat)) (b : Byte),
    OrderFlies s l f x i → plainOrder x.order → (s.call i).state ≠ .free → (s.call i).state ≠ .closing → b ≠ 0 →
    ∃ t, exec (.shelfAnswer l [1, b, 0x5D ^^^ b] orders) s = .next t ∧ frameEnded s t l f.addr ∧
      ((t.call i).state = .closing ∨ (t.call i).state = .free) ∧ (t.call i).endReason = some .pathFault ∧
      (t.call i).identity = (s.call i).identity) ∧
  ∀ (s : State) (l : LinkIx) (f : Frame) (x : Entry) (i : Slot) (orders : List (List Nat)) (b : Byte),
    OrderFlies s l f x i → plainOrder x.order → x.handover = true → (s.call i).state = .closing →
    0 < (s.call i).pending → b ≠ 0 → s.room [.drop (s.call i).caller] → reachable s [.drop (s.call i).caller] →
    ∃ t, exec (.shelfAnswer l [1, b, 0x5D ^^^ b] orders) s = .next t ∧ frameEnded s t l f.addr ∧
      (t.call i).state = .closing ∧ (t.call i).endReason = some .pathFault ∧ (t.call i).pending = (s.call i).pending ∧
      queuedAfter s t (entries i [.drop (s.call i).caller])

/-- R89, R91, R45, R100, R85, R87, R144: the current outcome of a RING. Of a SCREENED EXTEND: ACK confirms the ring and
answers the order OK; NAK BUSY and NAK FAULT answer it BUSY and OUT_OF_SERVICE and give the caller back to the attendant.
Of a DIRECT EXTEND: the call rings out, camps, or stays TALKING. Of night routing: it is confirmed, camps, or goes to the
announcer. For a camped call: it rings out, waits on, or is recalled, and no UNRING follows even where the recall ends in
congestion. And the ACK of an UNRING. -/
def Obligations.RingOutcomeSettlesAScreenedExtend : Prop :=
  (∀ (s : State) (l : LinkIx) (f : Frame) (x : Entry) (i : Slot) (p : Pos) (j : LoopIx) (h k : Circuit) (n : Word)
    (d : CellIx) (orders : List (List Nat)), OrderFlies s l f x i → x.order = .ring k → Speaking s p i j h →
    (s.call i).state = .consultRinging → (s.call i).confirmed = false → 0 < (s.call i).pending →
    (s.call i).target = some { number := n, circuit := k } → (s.call i).extend ≠ none →
    (s.pos p).extend = (s.call i).extend → (s.pos p).extendCell = some d → s.rings.get k = 1 →
    (∃ t, exec (.shelfAnswer l [1, 0, 0x5D] orders) s = .next t ∧ frameEnded s t l f.addr ∧ t.answered d .ok 0 ∧
      (t.call i).bare =
        { (s.call i).bare with confirmed := true, extend := none, pending := (s.call i).pending - 1 } ∧
      (t.pos p).bare = { (s.pos p).bare with extend := none, extendCell := none } ∧ t.rings.get k = 0 ∧
      (t.lamp k).line = (if (s.lamp k).line = .idle then .ringing else (s.lamp k).line) ∧ queuedAfter s t [] ∧
      Aside s t (· = i) (· = p) (fun _ => False) (· = k)) ∧
    ((s.lamp k).camp = [] → s.room [.unring k, .part h k, .join (s.call i).caller h, .tone (s.call i).caller .quiet] →
      ∃ t, exec (.shelfAnswer l [1, 1, 0x5C] orders) s = .next t ∧ frameEnded s t l f.addr ∧ t.answered d .busy 0 ∧
        backOnLoop s t p i j ∧ t.rings.get k = 0 ∧ (t.call i).pending = (s.call i).pending + 3 ∧
        queuedAfter s t
          (entries i [.unring k, .part h k, .join (s.call i).caller h, .tone (s.call i).caller .quiet])) ∧
    ((s.lamp k).camp = [] → s.room [.part h k, .join (s.call i).caller h, .tone (s.call i).caller .quiet] →
      ∃ t, exec (.shelfAnswer l [1, 2, 0x5F] orders) s = .next t ∧ frameEnded s t l f.addr ∧
        t.answered d .outOfService 0 ∧ backOnLoop s t p i j ∧ t.rings.get k = 0 ∧
        (t.call i).pending = (s.call i).pending + 2 ∧
        queuedAfter s t (entries i [.part h k, .join (s.call i).caller h, .tone (s.call i).caller .quiet]))) ∧
  (∀ (s : State) (l : LinkIx) (f : Frame) (x : Entry) (i : Slot) (p : Pos) (j : LoopIx) (h k : Circuit) (n : Word)
    (d : CellIx) (orders : List (List Nat)), RingFlies s l f x i n k → DirectFlies s p i j h d →
    (∃ t, exec (.shelfAnswer l [1, 0, 0x5D] orders) s = .next t ∧ rung s t l f k (afterRing s k) ∧ t.answered d .ok 0 ∧
      (t.call i).bare =
        { offLoops (s.call i) .ringingOut s.seconds with
          confirmed := true, extend := none, pending := (s.call i).pending - 1 } ∧
      offLoop s t p i j ∧ (t.pos p).extend = none ∧ (t.pos p).extendCell = none ∧ queuedAfter s t [] ∧
      Aside s t (· = i) (· = p) (fun _ => False) (· = k)) ∧
    (hasCampRoom s k → s.room [.tone (s.call i).caller .hold] →
      ∃ t, exec (.shelfAnswer l [1, 1, 0x5C] orders) s = .next t ∧ rung s t l f k (s.lamp k).line ∧
        t.answered d .camped 0 ∧
        (t.call i).bare =
          { offLoops (s.call i) .camped s.seconds with timer := campTimer s (s.call i).partition, extend := none } ∧
        (t.lamp k).camp = (s.lamp k).camp ++ [i] ∧ offLoop s t p i j ∧ (t.pos p).extend = none ∧
        (t.pos p).extendCell = none ∧ queuedAfter s t (entries i [.tone (s.call i).caller .hold]) ∧
        Aside s t (· = i) (· = p) (fun _ => False) (· = k)) ∧
    ∀ (cause : Byte) (code : ResultCode), cause = 1 ∧ code = .campFull ∧ ¬ hasCampRoom s k ∨
        cause = 2 ∧ code = .outOfService → unserved s k →
      s.room [.join (s.call i).caller h, .tone (s.call i).caller .quiet] →
      ∃ t, exec (.shelfAnswer l [1, cause, 0x5D ^^^ cause] orders) s = .next t ∧ rung s t l f k (s.lamp k).line ∧
        t.answered d code 0 ∧
        (t.call i).bare =
          { (s.call i).bare with target := none, extend := none, pending := (s.call i).pending + 1 } ∧
        (t.pos p).bare = { (s.pos p).bare with extend := none, extendCell := none } ∧
        queuedAfter s t (entries i [.join (s.call i).caller h, .tone (s.call i).caller .quiet]) ∧
        Aside s t (· = i) (· = p) (fun _ => False) fun _ => False) ∧
  (∀ (s : State) (l : LinkIx) (f : Frame) (x : Entry) (i : Slot) (k : Circuit) (n : Word) (orders : List (List Nat)),
    RingFlies s l f x i n k → (s.call i).state = .ringingOut → (s.call i).confirmed = false →
    (∃ t, exec (.shelfAnswer l [1, 0, 0x5D] orders) s = .next t ∧ rung s t l f k (afterRing s k) ∧
      (t.call i).bare = { (s.call i).bare with confirmed := true, pending := (s.call i).pending - 1 } ∧
      queuedAfter s t [] ∧ Aside s t (· = i) (fun _ => False) (fun _ => False) (· = k)) ∧
    (hasCampRoom s k → s.room [.tone (s.call i).caller .hold] →
      ∃ t, exec (.shelfAnswer l [1, 1, 0x5C] orders) s = .next t ∧ rung s t l f k (s.lamp k).line ∧
        (t.call i).bare =
          { offLoops (s.call i) .camped s.seconds with timer := campTimer s (s.call i).partition } ∧
        (t.lamp k).camp = (s.lamp k).camp ++ [i] ∧ queuedAfter s t (entries i [.tone (s.call i).caller .hold]) ∧
        Aside s t (· = i) (fun _ => False) (fun _ => False) (· = k)) ∧
    ∀ (cause : Byte) (a : Circuit), cause = 1 ∧ ¬ hasCampRoom s k ∨ cause = 2 → unserved s k →
      announces s (s.call i).partition a → s.room [.tone (s.call i).caller .quiet, .join (s.call i).caller a] →
      ∃ t, exec (.shelfAnswer l [1, cause, 0x5D ^^^ cause] orders) s = .next t ∧ rung s t l f k (s.lamp k).line ∧
        (t.call i).bare =
          { offLoops (s.call i) .announced s.seconds with
            target := none, announcer := some a, timer := announceTimer s (s.call i).partition,
            pending := (s.call i).pending + 1 } ∧
        queuedAfter s t (entries i [.tone (s.call i).caller .quiet, .join (s.call i).caller a]) ∧
        Aside s t (· = i) (fun _ => False) (fun _ => False) fun _ => False) ∧
  (∀ (s : State) (l : LinkIx) (f : Frame) (x : Entry) (i : Slot) (k : Circuit) (n : Word) (orders : List (List Nat)),
    RingFlies s l f x i n k → (s.call i).state = .camped → (s.call i).ringPending = true →
    (s.room [.tone (s.call i).caller .ringback] →
      ∃ t, exec (.shelfAnswer l [1, 0, 0x5D] orders) s = .next t ∧ rung s t l f k (afterRing s k) ∧
        (t.call i).bare = { offLoops (s.call i) .ringingOut s.seconds with confirmed := true } ∧
        (t.lamp k).camp = (s.lamp k).camp.filter (· != i) ∧
        queuedAfter s t (entries i [.tone (s.call i).caller .ringback]) ∧
        Aside s t (· = i) (fun _ => False) (fun _ => False) (· = k)) ∧
    ((s.call i).expiryHeld = false →
      ∃ t, exec (.shelfAnswer l [1, 1, 0x5C] orders) s = .next t ∧ rung s t l f k (s.lamp k).line ∧
        (t.call i).bare = { (s.call i).bare with ringPending := false, pending := (s.call i).pending - 1 } ∧
        (t.lamp k).camp = (s.lamp k).camp ∧ queuedAfter s t [] ∧
        Aside s t (· = i) (fun _ => False) (fun _ => False) fun _ => False) ∧
    ∀ cause : Byte, cause = 1 ∧ (s.call i).expiryHeld = true ∨ cause = 2 →
      ((s.call i).origin ≠ none → RecallOpen s i → s.room [.tone (s.call i).caller .ringback] →
        ∃ t, exec (.shelfAnswer l [1, cause, 0x5D ^^^ cause] orders) s = .next t ∧ rung s t l f k (s.lamp k).line ∧
          Recalled s t i ∧ (t.call i).target = none ∧ (t.call i).origin = (s.call i).origin ∧
          (t.call i).pending = (s.call i).pending ∧ (t.lamp k).camp = (s.lamp k).camp.filter (· != i) ∧
          queuedAfter s t (entries i [.tone (s.call i).caller .ringback])) ∧
      ((s.call i).origin = none → (s.part (s.call i).partition).announcer = none → (s.call i).extend = none →
        s.room [.tone (s.call i).caller .congestion] →
        ∃ t, exec (.shelfAnswer l [1, cause, 0x5D ^^^ cause] orders) s = .next t ∧ rung s t l f k (s.lamp k).line ∧
          (t.call i).state = .closing ∧ (t.call i).endReason = some .congestion ∧
          (t.call i).pending = (s.call i).pending ∧ (t.lamp k).camp = (s.lamp k).camp.filter (· != i) ∧
          queuedAfter s t (entries i [.tone (s.call i).caller .congestion]))) ∧
  ∀ (s : State) (l : LinkIx) (f : Frame) (x : Entry) (i : Slot) (k : Circuit) (orders : List (List Nat)),
    OrderFlies s l f x i → x.order = .unring k → (s.call i).state ≠ .free → (s.call i).state ≠ .closing →
    ((s.lamp k).camp = [] →
      ∃ t, exec (.shelfAnswer l [1, 0, 0x5D] orders) s = .next t ∧ frameEnded s t l f.addr ∧
        (t.call i).bare = { (s.call i).bare with pending := (s.call i).pending - 1 } ∧
        (t.lamp k).line = (if (s.lamp k).line = .ringing then .idle else (s.lamp k).line) ∧ silent s t ∧
        Aside s t (· = i) (fun _ => False) (fun _ => False) (· = k)) ∧
    ∀ (j : Slot) (behind : List Slot), (s.lamp k).line = .ringing → (s.lamp k).camp = j :: behind → j ≠ i →
      (s.call j).ringPending = false → s.room [.ring k] →
      (∀ m n, (s.call m).state ≠ .free → (s.call m).target = some { number := n, circuit := k } → m ∈ (s.lamp k).camp) →
      ∃ t, exec (.shelfAnswer l [1, 0, 0x5D] orders) s = .next t ∧ frameEnded s t l f.addr ∧
        (t.call i).bare = { (s.call i).bare with pending := (s.call i).pending - 1 } ∧
        (t.lamp k).line = .idle ∧
        (t.call j).bare = { (s.call j).bare with ringPending := true, pending := (s.call j).pending + 1 } ∧
        (t.lamp k).camp = (s.lamp k).camp ∧ t.rings.get k = s.rings.get k + 1 ∧
        queuedAfter s t (entries j [.ring k]) ∧
        Aside s t (fun m => m = i ∨ m = j) (fun _ => False) (fun _ => False) (· = k)

/-- R133, R137, R143, R128: a poll answer without reports, from a PRESENT shelf and from one that it finds; and one
report on a circuit without a role, which sets the line state and nothing else. -/
def Obligations.PollAnswersSetLineStates : Prop :=
  (∀ (s : State) (l : LinkIx) (f : Frame) (more : Bool) (orders : List (List Nat)), PollFlies s l f →
    ∃ t, exec (.shelfAnswer l (sendAnswer (.poll more [])) orders) s = .next t ∧ frameEnded s t l f.addr ∧
      (t.link l).more.get f.addr = more ∧ silent s t ∧
      Aside s t (fun _ => False) (fun _ => False) (fun _ => False) fun _ => False) ∧
  (∀ (s : State) (l : LinkIx) (f : Frame) (more : Bool) (orders : List (List Nat)), (s.link l).frame = some f →
    f.dead = false → f.entry = none →
    ((s.link l).shelves.get f.addr).state = .searching ∨ ((s.link l).shelves.get f.addr).state = .lost →
    ∃ t, exec (.shelfAnswer l (sendAnswer (.poll more [])) orders) s = .next t ∧ (t.link l).frame = none ∧
      (t.link l).shelves.get f.addr =
        { state := .present, misses := 0, interval := ((s.link l).shelves.get f.addr).interval } ∧
      (t.link l).polls.get f.addr = .running ((s.link l).shelves.get f.addr).interval ∧
      (t.link l).more.get f.addr = more ∧ t.flag .link = true ∧ silent s t ∧
      Aside s t (fun _ => False) (fun _ => False) (fun _ => False) fun _ => False) ∧
  ∀ (s : State) (l : LinkIx) (f : Frame) (more : Bool) (r : Report) (k : Circuit) (orders : List (List Nat)),
    PollFlies s l f → Answer.sendable (.poll more [r]) → k = circuitAt l f.addr r.port → noRole s k →
    (∀ a, r.kind ≠ .seize true a) →
    ∃ t, exec (.shelfAnswer l (sendAnswer (.poll more [r])) orders) s = .next t ∧ frameEnded s t l f.addr ∧
      (t.link l).more.get f.addr = more ∧ (t.lamp k).line = lineAfter r.kind ∧ (t.lamp k).kind = (s.lamp k).kind ∧
      (t.lamp k).camp = [] ∧ silent s t ∧ Aside s t (fun _ => False) (fun _ => False) (fun _ => False) (· = k)

/-- R20, R21, R15, R16, R17, R94, R95, R96, R99, R147, R148, R149, R143: what reports do to the calls of their circuit. A
CLEAR of a caller closes its call as CALLER_CLEARED, a FAULT that takes its line out of service closes it as PATH_FAULT;
where their links take them, the teardown of the call's state is issued, with DROP after a FAULT, and an EXTEND in flight
is answered CALLER_GONE or OUT_OF_SERVICE. An ANSWER of a target lets the consultation begin, or hands the caller over;
taken before the ACK of the ring, it stands for the ACK. A CLEAR of a target ends a consultation and changes no call
otherwise; a BUSY changes none; an IDLE rings for the head of the camp list; a FAULT recalls the calls that ring out to it
or camp on it, and gives the caller of a consultation or of a DIRECT EXTEND back to the attendant. No EXTEND is in flight
for a consultation that has begun, since its answer or its ACK has answered the order (R87, R89, R94): a premise there. -/
def Obligations.CallerReportsEndTheCall : Prop :=
  (∀ (s : State) (l : LinkIx) (f : Frame) (more : Bool) (port : Fin 16) (k : Circuit) (i : Slot)
    (orders : List (List Nat)), CallerReports s l f port k i →
    (∃ t, exec (.shelfAnswer l (reportOf more port .clear) orders) s = .next t ∧
      ((t.call i).state = .closing ∨ (t.call i).state = .free) ∧ (t.call i).endReason = some .callerCleared ∧
      (t.lamp k).line = .idle) ∧
    ((s.lamp k).line ≠ .outOfService →
      ∃ t, exec (.shelfAnswer l (reportOf more port .fault) orders) s = .next t ∧
        ((t.call i).state = .closing ∨ (t.call i).state = .free) ∧ (t.call i).endReason = some .pathFault ∧
        (t.lamp k).line = .outOfService)) ∧
  (∀ (s : State) (l : LinkIx) (f : Frame) (more : Bool) (port : Fin 16) (k : Circuit) (i : Slot) (p : Pos)
    (h g a : Circuit) (r : ReportKind) (why : EndReason) (code : ResultCode) (os : List ShelfOrder)
    (orders : List (List Nat)), CallerReports s l f port k i → CallerLegs s i p h g a →
    r = .clear ∧ why = .callerCleared ∧ code = .callerGone ∧ os = teardownOrders (s.call i) h g a ∨
      r = .fault ∧ (s.lamp k).line ≠ .outOfService ∧ why = .pathFault ∧ code = .outOfService ∧
        os = teardownOrders (s.call i) h g a ++ [.drop (s.call i).caller] →
    s.room os → reachable s os →
    ∃ t, exec (.shelfAnswer l (reportOf more port r) orders) s = .next t ∧ reported s t l f k (lineAfter r) ∧
      (t.call i).bare =
        { offLoops (s.call i) .closing s.seconds with
          endReason := some why, announcer := (s.call i).announcer, extend := none,
          pending := (s.call i).pending + os.length } ∧
      ((s.call i).extend ≠ none → (t.pos p).extend = none ∧ (t.pos p).extendCell = none ∧
        ∀ d, (s.pos p).extendCell = some d → t.answered d code 0) ∧
      (loopState (s.call i).state → ∀ m, (s.call i).loop = some m → (t.pos p).loops.get m ≠ some i) ∧
      i ∉ (t.lamp g).camp ∧ t.rings = s.rings ∧ queuedAfter s t (entries i os) ∧
      Aside s t (fun j => j = i ∨ j ∈ (s.prt (s.call i).partition).roster) (fun x => (s.call i).position = some x)
        (· = (s.call i).partition) fun x => x = k ∨ x = g) ∧
  (∀ (s : State) (l : LinkIx) (f : Frame) (more : Bool) (port : Fin 16) (k : Circuit) (i : Slot) (n : Word)
    (orders : List (List Nat)), TargetReports s l f port k i n →
    ((s.call i).state = .consultRinging → (s.call i).confirmed = true →
      ∃ t, exec (.shelfAnswer l (reportOf more port .answer) orders) s = .next t ∧ reported s t l f k .busy ∧
        (t.call i).bare = onLoop (s.call i) .consultTalking s.seconds ∧ silent s t ∧
        Aside s t (· = i) (fun _ => False) (fun _ => False) (· = k)) ∧
    (∀ (p : Pos) (j : LoopIx) (h : Circuit) (d : CellIx), (s.call i).state = .consultRinging →
      (s.call i).confirmed = false → Speaking s p i j h → (s.call i).extend ≠ none →
      (s.pos p).extend = (s.call i).extend → (s.pos p).extendCell = some d →
      ∃ t, exec (.shelfAnswer l (reportOf more port .answer) orders) s = .next t ∧ reported s t l f k .busy ∧
        t.answered d .ok 0 ∧ (t.call i).bare = { onLoop (s.call i) .consultTalking s.seconds with extend := none } ∧
        (t.pos p).bare = { (s.pos p).bare with extend := none, extendCell := none } ∧ silent s t ∧
        Aside s t (· = i) (· = p) (fun _ => False) (· = k)) ∧
    ((s.call i).state = .ringingOut → (s.call i).extend = none → s.room [.join (s.call i).caller k] →
      ∃ t, exec (.shelfAnswer l (reportOf more port .answer) orders) s = .next t ∧ reported s t l f k .busy ∧
        (t.call i).bare =
          { offLoops (s.call i) .closing s.seconds with
            endReason := some .delivered, announcer := (s.call i).announcer, pending := (s.call i).pending + 1 } ∧
        t.rings = s.rings ∧ queuedAfter s t [{ order := .join (s.call i).caller k, slot := some i, handover := true }] ∧
        Aside s t (· = i) (fun _ => False) (fun _ => False) (· = k)) ∧
    (∀ (p : Pos) (j : LoopIx) (h : Circuit) (d : CellIx), DirectFlies s p i j h d →
      s.room [.join (s.call i).caller k] →
      ∃ t, exec (.shelfAnswer l (reportOf more port .answer) orders) s = .next t ∧ reported s t l f k .busy ∧
        t.answered d .ok 0 ∧ (t.call i).state = .closing ∧ (t.call i).endReason = some .delivered ∧
        (t.call i).extend = none ∧ (t.call i).pending = (s.call i).pending + 1 ∧ offLoop s t p i j ∧
        (t.pos p).extend = none ∧ (t.pos p).extendCell = none ∧ t.rings = s.rings ∧
        queuedAfter s t [{ order := .join (s.call i).caller k, slot := some i, handover := true }] ∧
        Aside s t (· = i) (· = p) (fun _ => False) (· = k)) ∧
    ((s.call i).state = .camped → (s.call i).ringPending = true → (s.lamp k).camp = [i] → (s.call i).extend = none →
      s.room [.tone (s.call i).caller .ringback, .join (s.call i).caller k] →
      ∃ t, exec (.shelfAnswer l (reportOf more port .answer) orders) s = .next t ∧ reported s t l f k .busy ∧
        (t.call i).state = .closing ∧ (t.call i).endReason = some .delivered ∧ (t.call i).timer = none ∧
        (t.call i).pending = (s.call i).pending + 2 ∧ (t.lamp k).camp = [] ∧ t.rings = s.rings ∧
        queuedAfter s t
          [{ order := .tone (s.call i).caller .ringback, slot := some i, handover := false },
            { order := .join (s.call i).caller k, slot := some i, handover := true }] ∧
        Aside s t (· = i) (fun _ => False) (fun _ => False) (· = k)) ∧
    (∀ (p : Pos) (j : LoopIx) (h : Circuit), (s.call i).state = .consultTalking → Speaking s p i j h →
      (s.lamp k).camp = [] → (∀ m, (s.call m).state ≠ .free → (s.call m).caller ≠ k) →
      s.room [.part h k, .join (s.call i).caller h, .tone (s.call i).caller .quiet] →
      ∃ t, exec (.shelfAnswer l (reportOf more port .clear) orders) s = .next t ∧ reported s t l f k .idle ∧
        (t.call i).bare =
          { onLoop (s.call i) .talking s.seconds with target := none, pending := (s.call i).pending + 3 } ∧
        (t.pos p).speaking = some j ∧ (t.pos p).loops.get j = some i ∧ t.rings = s.rings ∧
        queuedAfter s t (entries i [.part h k, .join (s.call i).caller h, .tone (s.call i).caller .quiet]) ∧
        Aside s t (· = i) (fun _ => False) (fun _ => False) (· = k)) ∧
    ((s.lamp k).line ≠ .outOfService → (∀ m, (s.call m).state ≠ .free → (s.call m).caller ≠ k) →
      (∀ p, (s.pos p).headset ≠ some k) → (s.call i).origin ≠ none → RecallOpen s i →
      (s.call i).state = .ringingOut ∧ (s.lamp k).camp = [] ∨ (s.call i).state = .camped ∧ (s.lamp k).camp = [i] →
      s.room [.tone (s.call i).caller .ringback] → (s.shelfOf (s.call i).caller).state = .present →
      ∃ t, exec (.shelfAnswer l (reportOf more port .fault) orders) s = .next t ∧ reported s t l f k .outOfService ∧
        Recalled s t i ∧ (t.call i).target = none ∧ (t.call i).origin = (s.call i).origin ∧ (t.lamp k).camp = [] ∧
        (t.call i).pending = (s.call i).pending + 1 ∧ t.rings = s.rings ∧
        queuedAfter s t (entries i [.tone (s.call i).caller .ringback])) ∧
    (∀ (p : Pos) (j : LoopIx) (h : Circuit), (s.lamp k).line ≠ .outOfService →
      (∀ m, (s.call m).state ≠ .free → (s.call m).caller ≠ k) → (∀ x, (s.pos x).headset ≠ some k) →
      (s.lamp k).camp = [] → Speaking s p i j h → (s.pos p).extend = (s.call i).extend →
      ((s.call i).extend = none → (s.pos p).extendCell = none) →
      (s.call i).state = .consultRinging ∨ (s.call i).state = .consultTalking →
      ((s.call i).state = .consultTalking → (s.call i).extend = none) →
      s.room [.part h k, .join (s.call i).caller h, .tone (s.call i).caller .quiet] →
      reachable s [.part h k, .join (s.call i).caller h] →
      ∃ t, exec (.shelfAnswer l (reportOf more port .fault) orders) s = .next t ∧ reported s t l f k .outOfService ∧
        extendAnswered s t p .outOfService ∧
        (t.call i).bare =
          { onLoop (s.call i) .talking s.seconds with
            target := none, extend := none, pending := (s.call i).pending + 3 } ∧
        (t.pos p).bare = { (s.pos p).bare with extend := none, extendCell := none } ∧ t.rings = s.rings ∧
        queuedAfter s t (entries i [.part h k, .join (s.call i).caller h, .tone (s.call i).caller .quiet]) ∧
        Aside s t (· = i) (· = p) (fun _ => False) (· = k)) ∧
    ∀ (p : Pos) (j : LoopIx) (h : Circuit) (d : CellIx), (s.lamp k).line ≠ .outOfService →
      (∀ m, (s.call m).state ≠ .free → (s.call m).caller ≠ k) → (∀ x, (s.pos x).headset ≠ some k) →
      (s.lamp k).camp = [] → DirectFlies s p i j h d →
      s.room [.join (s.call i).caller h, .tone (s.call i).caller .quiet] → reachable s [.join (s.call i).caller h] →
      ∃ t, exec (.shelfAnswer l (reportOf more port .fault) orders) s = .next t ∧ reported s t l f k .outOfService ∧
        t.answered d .outOfService 0 ∧
        (t.call i).bare =
          { (s.call i).bare with target := none, extend := none, pending := (s.call i).pending + 2 } ∧
        (t.pos p).bare = { (s.pos p).bare with extend := none, extendCell := none } ∧ t.rings = s.rings ∧
        queuedAfter s t (entries i [.join (s.call i).caller h, .tone (s.call i).caller .quiet]) ∧
        Aside s t (· = i) (· = p) (fun _ => False) (· = k)) ∧
  (∀ (s : State) (l : LinkIx) (f : Frame) (more : Bool) (port : Fin 16) (k : Circuit) (r : ReportKind)
    (orders : List (List Nat)), PollFlies s l f → k = circuitAt l f.addr port →
    r = .busy ∨
      (r = .answer ∧ ∀ i, engages (s.call i) k →
        (s.call i).state = .consultTalking ∨ ((s.call i).state = .camped ∧ (s.call i).ringPending = false)) ∨
      (r = .clear ∧ (∀ i, (s.call i).state ≠ .free → (s.call i).caller ≠ k) ∧
        ∀ i n, (s.call i).target = some { number := n, circuit := k } → (s.call i).state ≠ .consultTalking) →
    ∃ t, exec (.shelfAnswer l (reportOf more port r) orders) s = .next t ∧ reported s t l f k (lineAfter r) ∧
      (t.lamp k).camp = (s.lamp k).camp ∧ silent s t ∧
      Aside s t (fun _ => False) (fun _ => False) (fun _ => False) (· = k)) ∧
  ∀ (s : State) (l : LinkIx) (f : Frame) (more : Bool) (port : Fin 16) (k : Circuit) (j : Slot) (behind : List Slot)
    (orders : List (List Nat)), PollFlies s l f → k = circuitAt l f.addr port → (s.dir k).kind = .extension →
    (s.lamp k).camp = j :: behind → (s.call j).ringPending = false → s.room [.ring k] →
    (∀ m n, (s.call m).state ≠ .free → (s.call m).target = some { number := n, circuit := k } → m ∈ (s.lamp k).camp) →
    ∃ t, exec (.shelfAnswer l (reportOf more port .idle) orders) s = .next t ∧ reported s t l f k .idle ∧
      (t.call j).bare = { (s.call j).bare with ringPending := true, pending := (s.call j).pending + 1 } ∧
      (t.lamp k).camp = (s.lamp k).camp ∧ t.rings.get k = s.rings.get k + 1 ∧ queuedAfter s t (entries j [.ring k]) ∧
      Aside s t (· = j) (fun _ => False) (fun _ => False) (· = k)

/-- R9, R10, R26, R28 to R31, R35 to R38, R43, R44, R1, R2: an arrival gets the head of the free list, and the first case of
R29 that applies places it. In NIGHT it rings the free night destination, camps on a busy one, or goes to the announcer;
full, or over its overflow limit, it overflows into another partition's roster or to the announcer; else it joins the tail
of its partition's roster as a NEW member, with RINGBACK, the alert test is made, and the arbiter offers it, or members
before it, to the positions available; without an announcer the fallback is congestion. With an empty free
list it leaves no trace but CONGESTION on its line. That a destination out of reach is so even as another call's target,
and that the overflowing call is given RINGBACK, are the model's readings of R44 and R30 (notes/assumptions/14.md and
16.md). -/
def Obligations.ArrivalJoinsTheRoster : Prop :=
  (∀ (s : State) (l : LinkIx) (f : Frame) (more : Bool) (port : Fin 16) (a : Arrival) (k g : Circuit) (q : Part) (i : Slot)
    (rest : List Slot) (orders : List (List Nat)), Arrives s l f port a k q → TakesSlot s i rest →
    (s.prt q).mode = .night → s.lookup (s.part q).night = some g →
    (g ≠ k → freeTarget s g → s.room [.ring g, .tone k .ringback] →
      ∃ t, exec (.shelfAnswer l (reportOf more port (.seize true a)) orders) s = .next t ∧ reported s t l f k .busy ∧
        t.free = rest ∧
        (t.call i).bare =
          { freshCall s k q a with
            state := .ringingOut, target := some { number := (s.part q).night, circuit := g }, pending := 2 } ∧
        (∀ j, t.rings.get j = if j = g then s.rings.get j + 1 else s.rings.get j) ∧
        queuedAfter s t (entries i [.ring g, .tone k .ringback]) ∧
        Aside s { t with free := s.free } (· = i) (fun _ => False) (fun _ => False) (· = k)) ∧
    (g = k ∨ busyTarget s g → hasCampRoom s g → s.room [.tone k .hold] →
      ∃ t, exec (.shelfAnswer l (reportOf more port (.seize true a)) orders) s = .next t ∧ reported s t l f k .busy ∧
        t.free = rest ∧
        (t.call i).bare =
          { freshCall s k q a with
            state := .camped, target := some { number := (s.part q).night, circuit := g }, timer := campTimer s q,
            pending := 1 } ∧
        (t.lamp g).camp = (s.lamp g).camp ++ [i] ∧ t.rings = s.rings ∧ queuedAfter s t (entries i [.tone k .hold]) ∧
        Aside s { t with free := s.free } (· = i) (fun _ => False) (fun _ => False) fun c => c = k ∨ c = g) ∧
    ((g = k ∨ busyTarget s g) ∧ ¬ hasCampRoom s g ∨
        g ≠ k ∧ ((s.lamp g).line = .outOfService ∨ (s.lamp g).line = .unknown) →
      (∀ x, announces s q x → s.room [.tone k .quiet, .join k x] →
        ∃ t, exec (.shelfAnswer l (reportOf more port (.seize true a)) orders) s = .next t ∧ reported s t l f k .busy ∧
          t.free = rest ∧
          (t.call i).bare =
            { freshCall s k q a with
              state := .announced, announcer := some x, timer := announceTimer s q, pending := 2 } ∧
          t.rings = s.rings ∧ queuedAfter s t (entries i [.tone k .quiet, .join k x]) ∧
          Aside s { t with free := s.free } (· = i) (fun _ => False) (fun _ => False) (· = k)) ∧
      ((s.part q).announcer = none → s.room [.tone k .congestion] →
        ∃ t, exec (.shelfAnswer l (reportOf more port (.seize true a)) orders) s = .next t ∧ reported s t l f k .busy ∧
          t.free = rest ∧
          (t.call i).bare =
            { freshCall s k q a with state := .closing, endReason := some .congestion, pending := 1 } ∧
          t.rings = s.rings ∧ queuedAfter s t (entries i [.tone k .congestion]) ∧
          Aside s { t with free := s.free } (· = i) (fun _ => False) (fun _ => False) (· = k)))) ∧
  (∀ (s : State) (l : LinkIx) (f : Frame) (more : Bool) (port : Fin 16) (a : Arrival) (k : Circuit) (q : Part) (i : Slot)
    (rest : List Slot) (orders : List (List Nat)), Arrives s l f port a k q → TakesSlot s i rest →
    (s.prt q).mode = .day → i ∉ (s.prt q).roster →
    s.newCount q = (s.part q).capacity ∨
      ((s.part q).overflowLimit ≠ 0 ∧ (s.part q).overflowLimit < s.estimate q ((s.prt q).roster.length + 1)) →
    (∀ r, (s.part q).overflow = .partition r → r ≠ q → (s.part r).enabled = true → RoomForNew s r i →
      s.room [.tone k .ringback] →
      ∃ t, exec (.shelfAnswer l (reportOf more port (.seize true a)) orders) s = .next t ∧ reported s t l f k .busy ∧
        t.free = rest ∧ JoinedTail s t i r ∧ (t.call i).identity = (freshCall s k q a).identity ∧
        (t.call i).endReason = none ∧ (t.call i).origin = none ∧ (t.call i).entered = s.seconds ∧
        (t.call i).pending = 1 ∧ t.rings = s.rings ∧ queuedAfter s t (entries i [.tone k .ringback]) ∧
        Aside s { t with free := s.free } (fun j => j = i ∨ j ∈ (s.prt r).roster) (fun _ => False) (· = r) (· = k)) ∧
    ((s.part q).overflow = .fallback ∨
        (∃ r, (s.part q).overflow = .partition r ∧ r ≠ q ∧ i ∉ (s.prt r).roster ∧
          ((s.prt r).mode = .night ∨ (s.part r).capacity ≤ s.newCount r)) →
      (∀ x, announces s q x → s.room [.tone k .quiet, .join k x] →
        ∃ t, exec (.shelfAnswer l (reportOf more port (.seize true a)) orders) s = .next t ∧ reported s t l f k .busy ∧
          t.free = rest ∧
          (t.call i).bare =
            { freshCall s k q a with
              state := .announced, overflowed := true, announcer := some x, timer := announceTimer s q, pending := 2 } ∧
          t.rings = s.rings ∧ queuedAfter s t (entries i [.tone k .quiet, .join k x]) ∧
          Aside s { t with free := s.free } (· = i) (fun _ => False) (fun _ => False) (· = k)) ∧
      ((s.part q).announcer = none → s.room [.tone k .congestion] →
        ∃ t, exec (.shelfAnswer l (reportOf more port (.seize true a)) orders) s = .next t ∧ reported s t l f k .busy ∧
          t.free = rest ∧
          (t.call i).bare =
            { freshCall s k q a with
              state := .closing, overflowed := true, endReason := some .congestion, pending := 1 } ∧
          t.rings = s.rings ∧ queuedAfter s t (entries i [.tone k .congestion]) ∧
          Aside s { t with free := s.free } (· = i) (fun _ => False) (fun _ => False) (· = k)))) ∧
  (∀ (s : State) (l : LinkIx) (f : Frame) (more : Bool) (port : Fin 16) (a : Arrival) (k : Circuit) (q : Part) (i : Slot)
    (rest : List Slot) (orders : List (List Nat)), Arrives s l f port a k q → TakesSlot s i rest →
    RoomForNew s q i →
    (s.part q).overflowLimit = 0 ∨ s.estimate q ((s.prt q).roster.length + 1) ≤ (s.part q).overflowLimit →
    s.room [.tone k .ringback] →
    ∃ t, exec (.shelfAnswer l (reportOf more port (.seize true a)) orders) s = .next t ∧ reported s t l f k .busy ∧
      ((t.call i).state = .queued ∨ (t.call i).state = .offered) ∧
      (t.call i).identity = (freshCall s k q a).identity ∧
      (t.call i).partition = q ∧ (t.call i).cls = .new ∧ (t.call i).overflowed = false ∧ (t.call i).endReason = none ∧
      (t.call i).origin = none ∧ (t.call i).place = some ((s.prt q).roster.length + 1) ∧
      (t.call i).entered = s.seconds ∧ (t.call i).pending = 1 ∧
      (t.call i).waitDeadline =
        (if (s.part q).waitLimit = 0 then none else some (s.seconds + BitVec.ofNat 32 (s.part q).waitLimit)) ∧
      t.free = rest ∧ (t.prt q).roster = (s.prt q).roster ++ [i] ∧
      (t.prt q).est.bare =
        (if (s.prt q).roster = [] then
          { (s.prt q).est.bare with counter := 0, stall := false, period := some (2 ^ (s.prt q).est.range) }
        else (s.prt q).est.bare) ∧
      t.rings = s.rings ∧ queuedAfter s t (entries i [.tone k .ringback]) ∧
      Aside s { t with free := s.free } (fun j => j = i ∨ j ∈ (s.prt q).roster) (fun _ => False) (· = q) (· = k) ∧
      alertTested s t q ∧ (t.flag .alert = true ↔ s.flag .alert = true ∨ alertSet s t q) ∧
      (RosterHolds s q → Distributed (joined s q i { freshCall s k q a with pending := 1 }) t q)) ∧
  ∀ (s : State) (l : LinkIx) (f : Frame) (more : Bool) (port : Fin 16) (a : Arrival) (k : Circuit) (q : Part)
    (orders : List (List Nat)), Arrives s l f port a k q → s.free = [] → s.room [.tone k .congestion] →
    ∃ t, exec (.shelfAnswer l (reportOf more port (.seize true a)) orders) s = .next t ∧ reported s t l f k .busy ∧
      t.calls = s.calls ∧ t.positions = s.positions ∧ t.parts = s.parts ∧ t.rings = s.rings ∧
      queuedAfter s t [{ order := .tone k .congestion, slot := none, handover := false }] ∧
      Aside s t (fun _ => False) (fun _ => False) (fun _ => False) (· = k)

/-- R125, R127, R178: the answer that a shelf's bytes spell is the one it has sent, whatever bytes follow. -/
def Obligations.ShelfAnswersAreReadAsSent : Prop :=
  ∀ (a : Answer) (after : List Byte), a.sendable → readAnswer (sendAnswer a ++ after) = some a

/-- R126: the check byte of both parts of a frame. -/
def Obligations.CheckByteOfEachPart : Prop :=
  (∀ (a : Addr) (entry : Option Entry) (again : Bool), ∃ before, before ≠ [] ∧
    frameBytes a entry again = before ++ [before.foldl (· ^^^ ·) 0x5C]) ∧
  (∀ (bytes : List Byte) (ans : Answer), readAnswer bytes = some ans →
    ∃ body after, bytes = body ++ body.foldl (· ^^^ ·) 0x5C :: after ∧ 2 ≤ body.length ∧ body.length ≤ 32) ∧
  ∀ (body : List Byte) (b : Byte) (ans : Answer) (after : List Byte), ans.sendable → body = sendBody ans →
    b ≠ body.foldl (· ^^^ ·) 0x5C → readAnswer (body ++ b :: after) = none

namespace Sys2Proof.Machine

/-- The frame of a link has ended, and nothing else of the links has changed. -/
def frameDropped (s t : State) (l : LinkIx) : Prop :=
  (t.link l).bare = { (s.link l).bare with frame := none } ∧ ∀ m, m ≠ l → t.link m = s.link m

/-- An order has ended: a RING has lowered the ring order count of its circuit (R85). -/
def ringLowered (s t : State) (x : Entry) : Prop :=
  ∀ k, t.rings.get k = if x.order = .ring k then s.rings.get k - 1 else s.rings.get k

end Sys2Proof.Machine

/-- R133, R135, R125: a miss below the limit is counted and its frame waits to be repeated; a spoiled answer is a miss; a
missed search poll changes nothing. That a window which closes on a link without a frame changes nothing is the model's
choice (notes/assumptions/1.md). A frame whose shelf has become ABSENT ends without a miss and its answer is not used; its
order fails with LOST, which only lowers the count of a live call (R14) and frees a closing one whose last order it was; the
failed hand-over JOIN makes the end reason PATH_FAULT and drops the caller, unless the caller's shelf is LOST or ABSENT (R138,
R16, R18, R19). -/
def Obligations.MissedFramesAreRepeated : Prop :=
  (∀ (s : State) (l : LinkIx) (f : Frame), (s.link l).frame = some f → f.dead = true →
    (∀ bytes orders order, exec (.shelfAnswer l bytes orders) s = exec (.responseWindowClose l order) s) ∧
    ∀ order,
      (f.entry = none →
        ∃ t, exec (.responseWindowClose l order) s = .next t ∧ frameDropped s t l ∧ silent s t ∧
          Aside s t (fun _ => False) (fun _ => False) (fun _ => False) fun _ => False) ∧
      ∀ (x : Entry) (i : Slot), f.entry = some x → x.slot = some i →
        ((s.call i).state ≠ .free → (s.call i).state ≠ .closing ∨ 1 < (s.call i).pending ∧ x.handover = false →
          ∃ t, exec (.responseWindowClose l order) s = .next t ∧ frameDropped s t l ∧ ringLowered s t x ∧
            (t.call i).bare = { (s.call i).bare with pending := (s.call i).pending - 1 } ∧ queuedAfter s t [] ∧
            Aside s t (· = i) (fun _ => False) (fun _ => False) fun _ => False) ∧
        ((s.call i).state = .closing → (s.call i).pending = 1 → x.handover = false →
          (∀ g, (s.call i).target = some g → unserved s g.circuit) →
          ∃ t, exec (.responseWindowClose l order) s = .next t ∧ frameDropped s t l ∧ ringLowered s t x ∧
            (t.call i).state = .free ∧ (t.call i).pending = 0 ∧ (t.call i).endReason = (s.call i).endReason ∧
            t.free = s.free ++ [i] ∧ queuedAfter s t [] ∧
            Aside s { t with free := s.free } (· = i) (fun _ => False) (fun _ => False) fun _ => False) ∧
        ((s.call i).state = .closing → 0 < (s.call i).pending → x.handover = true → s.room [.drop (s.call i).caller] →
          reachable s [.drop (s.call i).caller] →
          ∃ t, exec (.responseWindowClose l order) s = .next t ∧ (t.link l).frame = none ∧ ringLowered s t x ∧
            (t.call i).bare = { (s.call i).bare with endReason := some .pathFault } ∧
            queuedAfter s t (entries i [.drop (s.call i).caller]) ∧
            Aside s t (· = i) (fun _ => False) (fun _ => False) fun _ => False) ∧
        ((s.call i).state = .closing → 0 < (s.call i).pending → x.handover = true →
          (s.shelfOf (s.call i).caller).state = .lost ∨ (s.shelfOf (s.call i).caller).state = .absent →
          (∀ g, (s.call i).target = some g → unserved s g.circuit) →
          ∃ t, exec (.responseWindowClose l order) s = .next t ∧ frameDropped s t l ∧ ringLowered s t x ∧
            (t.call i).state = (if (s.call i).pending = 1 then .free else .closing) ∧
            (t.call i).pending = (s.call i).pending - 1 ∧ (t.call i).endReason = some .pathFault ∧
            t.free = (if (s.call i).pending = 1 then s.free ++ [i] else s.free) ∧ queuedAfter s t [] ∧
            Aside s { t with free := s.free } (· = i) (fun _ => False) (fun _ => False) fun _ => False)) ∧
  (∀ (s : State) (l : LinkIx) (f : Frame) (order : List Nat), (s.link l).frame = some f → f.dead = false →
    ((s.link l).shelves.get f.addr).state = .present →
    ((s.link l).shelves.get f.addr).misses + 1 < (s.link l).missLimit →
    ∃ t, exec (.responseWindowClose l order) s = .next t ∧
      (t.link l).bare =
        { (s.link l).bare with
          frame := none, again := some { addr := f.addr, entry := f.entry },
          shelves := (s.link l).shelves.set f.addr
            { (s.link l).shelves.get f.addr with misses := ((s.link l).shelves.get f.addr).misses + 1 } } ∧
      (∀ m, m ≠ l → t.link m = s.link m) ∧ t.rings = s.rings ∧ t.mem = s.mem ∧
      Aside s t (fun _ => False) (fun _ => False) (fun _ => False) fun _ => False) ∧
  (∀ (s : State) (l : LinkIx) (f : Frame) (bytes : List Byte) (orders : List (List Nat)),
    (s.link l).frame = some f → f.dead = false →
    readAnswer bytes = none ∨ (∃ o, readAnswer bytes = some (.order o) ∧ f.entry = none) ∨
      (∃ more rs, readAnswer bytes = some (.poll more rs) ∧ f.entry ≠ none) →
    exec (.shelfAnswer l bytes orders) s = exec (.responseWindowClose l (orders.headD [])) s) ∧
  (∀ (s : State) (l : LinkIx) (f : Frame) (order : List Nat), (s.link l).frame = some f → f.dead = false →
    f.entry = none → ((s.link l).shelves.get f.addr).state ≠ .present →
    ∃ t, exec (.responseWindowClose l order) s = .next t ∧ (t.link l).bare = { (s.link l).bare with frame := none } ∧
      (∀ m, m ≠ l → t.link m = s.link m) ∧ t.rings = s.rings ∧ t.mem = s.mem ∧
      Aside s t (fun _ => False) (fun _ => False) (fun _ => False) fun _ => False) ∧
  ∀ (s : State) (l : LinkIx) (bytes : List Byte) (orders : List (List Nat)) (order : List Nat),
    (s.link l).frame = none →
    exec (.shelfAnswer l bytes orders) s = .next s ∧ exec (.responseWindowClose l order) s = .next s

/-- R136: a shelf that reaches its miss limit is LOST: its circuits are out of service, the orders queued for other
shelves keep their places, the calls whose callers it carries end, as SHELF_LOST (R21), and the Link flag is set; whatever
the order in which the failures and FAULT events are taken. A premise of the last clause is the invariant of
StepsKeepCallsInTheirPlaces; its end reason is that of a call which no other event of the loss reaches, since a recall by
the FAULT of its target or of its headset, taken first, may end in congestion. -/
def Obligations.MissLimitLosesTheShelf : Prop :=
  ∀ (s : State) (l : LinkIx) (f : Frame) (order : List Nat), (s.link l).frame = some f → f.dead = false →
    ((s.link l).shelves.get f.addr).state = .present →
    (s.link l).missLimit ≤ ((s.link l).shelves.get f.addr).misses + 1 →
    ∃ t, exec (.responseWindowClose l order) s = .next t ∧ t.flag .link = true ∧ (t.link l).frame = none ∧
      (t.link l).again = (s.link l).again ∧
      (t.link l).shelves = (s.link l).shelves.set f.addr
        { (s.link l).shelves.get f.addr with
          state := .lost, misses := ((s.link l).shelves.get f.addr).misses + 1 } ∧
      (t.link l).polls = (s.link l).polls.set f.addr (.running 1000) ∧
      (t.link l).more = (s.link l).more.set f.addr false ∧
      (s.link l).queue.filter (fun x => addrOf x.order.first != f.addr) <+: (t.link l).queue ∧
      (∀ k, (t.lamp k).line =
        if linkOf k = l ∧ addrOf k = f.addr then .outOfService else (s.lamp k).line) ∧
      (PlacesInv s → ∀ k i, linkOf k = l → addrOf k = f.addr → (s.lamp k).line ≠ .outOfService → CallerOf s k i →
        ((t.call i).state = .closing ∨ (t.call i).state = .free) ∧
        (LossEndsIt s l f i → (t.call i).endReason = some .shelfLost))

/-! ## Timers, the estimator, the cadence -/

namespace Sys2Proof.Machine

/-- The call's timer is of this kind and has reached its deadline (R4). -/
def timerReached (s : State) (i : Slot) (k : TimerKind) : Prop :=
  ∃ d, (s.call i).timer = some (k, d) ∧ (s.seconds - d).toNat < 2 ^ 31

/-- The state in which the OFFER timer of call `i` at position `p` has expired, before the arbiter runs (R40, R41). -/
def unanswered (s : State) (i : Slot) (p : Pos) : State :=
  (s.setCall i { offLoops (s.call i) .queued s.seconds with
    place := (s.call i).place, waitDeadline := (s.call i).waitDeadline,
    timer := (s.call i).waitDeadline.map fun d => (.wait, d) }).setPos p
    { s.pos p with
      offered := none, missed := (s.pos p).missed + 1, idleSince := s.seconds,
      pause := if 1 ≤ (s.pos p).missed then some .missed else (s.pos p).pause }

/-- A call on a loop of a position. -/
structure OnLoop (s : State) (i : Slot) (p : Pos) (l : LoopIx) : Prop where
  position : (s.call i).position = some p
  loop : (s.call i).loop = some l
  call : (s.pos p).loops.get l = some i

/-- An ANNOUNCED call whose time with the announcer is over (R32). -/
structure AnnounceOver (s : State) (i : Slot) (a : Circuit) : Prop where
  timer : timerReached s i .announce
  state : (s.call i).state = .announced
  announcer : (s.call i).announcer = some a
  target : (s.call i).target = none
  extend : (s.call i).extend = none

/-- The call is closing for a reason, with these orders pending besides (R15). -/
def closesWith (s t : State) (i : Slot) (why : EndReason) (os : List ShelfOrder) : Prop :=
  (t.call i).state = .closing ∧ (t.call i).endReason = some why ∧ (t.call i).identity = (s.call i).identity ∧
  (t.call i).timer = none ∧ issued s t i (entries i os)

/-- The command makes a cadence mark (R151, R152). -/
def makesMark (s : State) (c : Instr) : Prop :=
  c = .periodTimerExpiry ∧ s.cadence.periodTimer ≠ none ∨ c = .cadenceEdge ∧ s.cadence.configured = .external ∨
    c = .lossTimerExpiry ∧ s.cadence.lossTimer ≠ none

/-- A call that the ring limit can act on: its ringing is confirmed and the next mark makes its count the limit (R97). -/
structure AtLimit (s : State) (i : Slot) : Prop where
  confirmed : (s.call i).confirmed = true
  limit : (s.part (s.call i).partition).ringLimit ≤ (s.call i).ringCount + 1
  alone : ∀ j, j ≠ i → (s.call j).state ≠ .consultRinging ∧ (s.call j).state ≠ .ringingOut

end Sys2Proof.Machine

/-- R40, R41, R69, R34 to R38: the OFFER timer expires: the call returns to its place, and the arbiter runs, in which its
position competes as the last to become idle; or it overflows at once where its expiry is held; the miss is counted, and
two misses in a row pause the position; and the wait deadline of an OFFERED call passes: the
expiry is held. That an expiry command without its timer changes nothing is the model's choice (notes/assumptions/1.md);
that an overflowing call is given RINGBACK again, its reading of R30 (16.md). -/
def Obligations.OfferAndHeldWaitExpiries : Prop :=
  (∀ (s : State) (i : Slot) (p : Pos), OfferedTo s i p → timerReached s i .offer → (s.call i).expiryHeld = false →
    ∃ t, exec (.offerExpiry i) s = .next t ∧ (t.call i).waiting = (s.call i).waiting ∧
      (t.call i).expiryHeld = false ∧
      (((t.call i).state = .queued ∧ (t.call i).timer = (s.call i).waitDeadline.map fun d => (.wait, d)) ∨
        ((t.call i).state = .offered ∧ ((t.pos p).pause ≠ none → (t.call i).position ≠ some p))) ∧
      (t.pos p).bare =
        { (s.pos p).bare with
          missed := (s.pos p).missed + 1,
          pause := if 1 ≤ (s.pos p).missed then some .missed else (s.pos p).pause } ∧
      (t.pos p).idleSince = s.seconds ∧ silent s t ∧
      Aside s t (· = i) (· = p) (fun _ => False) (fun _ => False) ∧
      ∀ q, Member s i q → (s.pos p).partition = some q → RosterHolds s q → Distributed (unanswered s i p) t q) ∧
  (∀ (s : State) (i : Slot) (p : Pos) (q : Part), HeldOffer s i p q → timerReached s i .offer →
    s.room (overflowOrders s i q) →
    ∃ t, exec (.offerExpiry i) s = .next t ∧ leftRoster s t q i ∧ Overflowed s t i q ∧
      (t.pos p).bare =
        { (s.pos p).bare with
          missed := (s.pos p).missed + 1,
          pause := if 1 ≤ (s.pos p).missed then some .missed else (s.pos p).pause } ∧
      (t.pos p).idleSince = s.seconds ∧ issued s t i (entries i (overflowOrders s i q)) ∧
      Aside s t (overflowCalls s i q) (· = p) (overflowParts s q) fun _ => False) ∧
  (∀ (s : State) (i : Slot) (d : Seconds), (s.call i).state = .offered → (s.call i).waitDeadline = some d →
    (s.seconds - d).toNat < 2 ^ 31 →
    ∃ t, exec (.waitDeadlineHeld i) s = .next t ∧ (t.call i).bare = { (s.call i).bare with expiryHeld := true } ∧
      silent s t ∧ t.positions = s.positions ∧ t.parts = s.parts ∧
      Aside s t (· = i) (fun _ => False) (fun _ => False) fun _ => False) ∧
  ∀ (s : State) (i : Slot), (s.call i).timer = none →
    exec (.offerExpiry i) s = .next s ∧ exec (.waitExpiry i) s = .next s ∧ exec (.announceExpiry i) s = .next s ∧
    exec (.hold1Expiry i) s = .next s ∧ exec (.hold2Expiry i) s = .next s ∧ exec (.campExpiry i) s = .next s

/-- R33, R30, R31, R27, R53, R43: the WAIT timer of a QUEUED member expires: it leaves its roster and overflows, into another
partition's roster or to the announcer; the alert test is made of each roster that it leaves or joins, and an alert mark
that it sets raises the Alert flag. That the placed call is given RINGBACK again is the model's reading of R30
(notes/assumptions/16.md). -/
def Obligations.WaitExpiryOverflows : Prop :=
  (∀ (s : State) (i : Slot) (p q : Part), timerReached s i .wait → (s.call i).state = .queued → Member s i p →
    (s.call i).target = none → p ≠ q → (s.part p).overflow = .partition q → (s.part q).enabled = true →
    RoomForNew s q i → s.room [.tone (s.call i).caller .ringback] →
    ∃ t, exec (.waitExpiry i) s = .next t ∧ JoinedTail s t i q ∧ leftRoster s t p i ∧
      (t.call i).identity = (s.call i).identity ∧
      (t.flag .alert = true ↔ s.flag .alert = true ∨ alertSet s t p ∨ alertSet s t q) ∧
      issued s t i (entries i [.tone (s.call i).caller .ringback])) ∧
  ∀ (s : State) (i : Slot) (p : Part) (a : Circuit), timerReached s i .wait → (s.call i).state = .queued →
    Member s i p → (s.call i).target = none → (s.part p).overflow = .fallback → (s.part p).announcer = some a →
    lineServes s a = true → s.room [.tone (s.call i).caller .quiet, .join (s.call i).caller a] →
    ∃ t, exec (.waitExpiry i) s = .next t ∧ leftRoster s t p i ∧ (t.call i).state = .announced ∧
      (t.call i).announcer = some a ∧ (t.call i).partition = p ∧ (t.call i).overflowed = true ∧
      (t.call i).timer = some (.announce, s.seconds + BitVec.ofNat 32 (s.part p).announceTime) ∧
      (t.call i).place = none ∧ (t.flag .alert = true ↔ s.flag .alert = true ∨ alertSet s t p) ∧
      issued s t i (entries i [.tone (s.call i).caller .quiet, .join (s.call i).caller a])

/-- R32, R15, R16, R26: the ANNOUNCE timer expires: the four states of the call's partition. -/
def Obligations.AnnounceExpiryByPartition : Prop :=
  (∀ (s : State) (i : Slot) (a : Circuit), AnnounceOver s i a → (s.part (s.call i).partition).enabled = true →
    RoomForNew s (s.call i).partition i →
    s.room [.part (s.call i).caller a, .tone (s.call i).caller .ringback] →
    ∃ t, exec (.announceExpiry i) s = .next t ∧ JoinedTail s t i (s.call i).partition ∧ (t.call i).announcer = none ∧
      issued s t i (entries i [.part (s.call i).caller a, .tone (s.call i).caller .ringback])) ∧
  (∀ (s : State) (i : Slot) (a : Circuit), AnnounceOver s i a → (s.part (s.call i).partition).enabled = true →
    (s.prt (s.call i).partition).mode = .day →
    (s.part (s.call i).partition).capacity ≤ s.newCount (s.call i).partition →
    s.room [.part (s.call i).caller a, .tone (s.call i).caller .congestion] →
    ∃ t, exec (.announceExpiry i) s = .next t ∧
      closesWith s t i .congestion [.part (s.call i).caller a, .tone (s.call i).caller .congestion]) ∧
  (∀ (s : State) (i : Slot) (a : Circuit), AnnounceOver s i a → (s.part (s.call i).partition).enabled = true →
    (s.prt (s.call i).partition).mode = .night → s.room [.drop (s.call i).caller, .part (s.call i).caller a] →
    reachable s [.part (s.call i).caller a] →
    ∃ t, exec (.announceExpiry i) s = .next t ∧
      closesWith s t i .unanswered [.drop (s.call i).caller, .part (s.call i).caller a]) ∧
  ∀ (s : State) (i : Slot) (a : Circuit), AnnounceOver s i a → (s.part (s.call i).partition).enabled = false →
    s.room [.tone (s.call i).caller .congestion, .part (s.call i).caller a] →
    reachable s [.part (s.call i).caller a] →
    ∃ t, exec (.announceExpiry i) s = .next t ∧
      closesWith s t i .congestion [.tone (s.call i).caller .congestion, .part (s.call i).caller a]

/-- R75, R76, R26, R70: HOLD1 flashes the loop and starts HOLD2; HOLD2 takes the call off its loop and recalls it, with
RINGBACK. -/
def Obligations.HoldTimersFlashAndRecall : Prop :=
  (∀ (s : State) (i : Slot) (p : Pos) (l : LoopIx), timerReached s i .hold1 → (s.call i).state = .held →
    OnLoop s i p l →
    ∃ t, exec (.hold1Expiry i) s = .next t ∧
      (t.call i).bare =
        { (s.call i).bare with
          timer := if (s.part (s.call i).partition).holdRecall = 0 then none
            else some (.hold2, s.seconds + BitVec.ofNat 32 (s.part (s.call i).partition).holdRecall) } ∧
      (t.pos p).bare = { (s.pos p).bare with flash := (s.pos p).flash.set l true } ∧ silent s t ∧
      Aside s t (· = i) (· = p) (fun _ => False) fun _ => False) ∧
  ∀ (s : State) (i : Slot) (p : Pos) (l : LoopIx), timerReached s i .hold2 → (s.call i).state = .held →
    OnLoop s i p l → (s.call i).target = none → RecallOpen s i → s.room [.tone (s.call i).caller .ringback] →
    ∃ t, exec (.hold2Expiry i) s = .next t ∧ Recalled s t i ∧ (t.call i).origin = (s.call i).origin ∧
      (t.call i).loop = none ∧ (t.pos p).loops.get l = none ∧ (t.pos p).flash.get l = false ∧
      (∀ m, m ≠ l → (t.pos p).loops.get m = (s.pos p).loops.get m) ∧
      issued s t i (entries i [.tone (s.call i).caller .ringback])

/-- R101, R84, R103, R26: the CAMP timer expires: a call with no ring pending leaves the camp list and is recalled; with
one, the expiry is held. -/
def Obligations.CampExpiryRecallsOrIsHeld : Prop :=
  (∀ (s : State) (i : Slot) (n : Word) (k : Circuit), timerReached s i .camp → (s.call i).state = .camped →
    (s.call i).target = some { number := n, circuit := k } → (s.call i).ringPending = false →
    (s.call i).origin ≠ none → RecallOpen s i → s.room [.tone (s.call i).caller .ringback] →
    ∃ t, exec (.campExpiry i) s = .next t ∧ Recalled s t i ∧ (t.call i).target = none ∧
      (t.call i).origin = (s.call i).origin ∧ (t.lamp k).camp = (s.lamp k).camp.filter (· != i) ∧
      issued s t i (entries i [.tone (s.call i).caller .ringback])) ∧
  ∀ (s : State) (i : Slot), timerReached s i .camp → (s.call i).state = .camped → (s.call i).ringPending = true →
    ∃ t, exec (.campExpiry i) s = .next t ∧
      (t.call i).bare = { (s.call i).bare with timer := none, expiryHeld := true } ∧ silent s t ∧
      t.positions = s.positions ∧ t.parts = s.parts ∧
      Aside s t (· = i) (fun _ => False) (fun _ => False) fun _ => False

/-- R50, R51, R49: an advance of the counter: one count, a rescale at 255, a stall at 255 in range 7; a stalled counter
holds and a stopped one does not advance. That the command of a stopped counter changes nothing is the model's choice
(notes/assumptions/1.md). -/
def Obligations.CounterAdvancesRescalesAndStalls : Prop :=
  (∀ (s : State) (q : Part) (e : Estimator), (s.prt q).est = e → e.period ≠ none →
    ∃ t, exec (.counterAdvance q) s = .next t ∧
      (t.prt q).bare = { (s.prt q).bare with est := (t.prt q).est.bare } ∧
      (t.prt q).est.bare =
        (if e.stall = true then { e.bare with period := some (2 ^ e.range) }
        else if e.counter + 1 < 255 then { e.bare with counter := e.counter + 1, period := some (2 ^ e.range) }
        else if e.range < 7 then
          { e.bare with
            range := e.range + 1, counter := 127, new := e.new / 2, old := e.old / 2,
            period := some (2 ^ (e.range + 1)) }
        else { e.bare with counter := 255, stall := true, period := some (2 ^ e.range) }) ∧
      (e.stall = true ∨ e.counter + 1 < 255 →
        (t.prt q).rev = (s.prt q).rev ∧ t.calls = s.calls ∧ (t.prt q).est.clamped = e.clamped) ∧
      silent s t ∧ t.positions = s.positions ∧
      Aside s t (fun _ => False) (fun _ => False) (· = q) fun _ => False) ∧
  (∀ (s t : State) (q : Part), (s.prt q).est.period ≠ none → (s.prt q).est.stall = false →
    255 ≤ (s.prt q).est.counter + 1 → (s.prt q).est.range < 7 →
    (∀ n j, (s.prt q).roster[n]? = some j → (s.call j).place = some (n + 1)) →
    exec (.counterAdvance q) s = .next t → estimated t q) ∧
  ∀ (s : State) (q : Part), (s.prt q).est.period = none → exec (.counterAdvance q) s = .next s

/-- R151, R152: the period timer, the rising edge and the loss timer: what they make of the cadence unit and of the
Cadence flag, and that an edge is ignored while INTERNAL is configured. A mark when no call is ringing changes nothing
else (R97). That the expiry of a stopped timer changes nothing is the model's choice (notes/assumptions/1.md). -/
def Obligations.CadenceFollowsItsSource : Prop :=
  ∀ s : State, (∀ i, (s.call i).confirmed = false ∨
      ((s.call i).state ≠ .consultRinging ∧ (s.call i).state ≠ .ringingOut)) →
    (s.cadence.periodTimer ≠ none → ∃ t, exec .periodTimerExpiry s = .next t ∧
      t.cadence = { s.cadence with periodTimer := some s.cadence.period } ∧ t.flag .cadence = s.flag .cadence ∧
      t.calls = s.calls ∧ silent s t) ∧
    (s.cadence.configured = .external → ∃ t, exec .cadenceEdge s = .next t ∧
      t.cadence =
        { s.cadence with inUse := .external, periodTimer := none, lossTimer := some (2 * s.cadence.period) } ∧
      t.flag .cadence = (s.flag .cadence || s.cadence.inUse == .internal) ∧ t.calls = s.calls ∧ silent s t) ∧
    (s.cadence.lossTimer ≠ none → ∃ t, exec .lossTimerExpiry s = .next t ∧
      t.cadence =
        { s.cadence with inUse := .internal, lossTimer := none, periodTimer := some s.cadence.period } ∧
      t.flag .cadence = true ∧ t.calls = s.calls ∧ silent s t) ∧
    (s.cadence.configured = .internal → exec .cadenceEdge s = .next s) ∧
    (s.cadence.periodTimer = none → exec .periodTimerExpiry s = .next s) ∧
    (s.cadence.lossTimer = none → exec .lossTimerExpiry s = .next s)

/-- R97, R98, R103, R31: a cadence mark, whichever command makes it: every ringing call below its limit counts one more
ring, every other call is passed over; and at the limit a consulting call is given back to the attendant with its
ring-limit mark set, and a call that rings out has its ring undone and is recalled to its origin, or without an origin goes
to the announcer. -/
def Obligations.MarksCountRingsToTheLimit : Prop :=
  (∀ (s : State) (c : Instr), makesMark s c →
    (∀ i, (s.call i).confirmed = true → (s.call i).state = .consultRinging ∨ (s.call i).state = .ringingOut →
      (s.call i).ringCount + 1 < (s.part (s.call i).partition).ringLimit) →
    ∃ t, exec c s = .next t ∧ silent s t ∧
      ∀ i, (t.call i).bare =
        if (s.call i).confirmed = true ∧ ((s.call i).state = .consultRinging ∨ (s.call i).state = .ringingOut) then
          { (s.call i).bare with ringCount := (s.call i).ringCount + 1 }
        else (s.call i).bare) ∧
  (∀ (s : State) (c : Instr) (i : Slot) (p : Pos) (l : LoopIx) (h k : Circuit) (n : Word), makesMark s c →
    AtLimit s i → (s.call i).state = .consultRinging → Speaking s p i l h →
    (s.call i).target = some { number := n, circuit := k } → unserved s k → (s.call i).extend = none →
    (s.pos p).extend = none →
    s.room [.unring k, .part h k, .join (s.call i).caller h, .tone (s.call i).caller .quiet] →
    ∃ t, exec c s = .next t ∧ backOnLoop s t p i l ∧ (t.call i).ringLimit = true ∧
      issued s t i (entries i [.unring k, .part h k, .join (s.call i).caller h, .tone (s.call i).caller .quiet]) ∧
      Aside s t (· = i) (fun _ => False) (fun _ => False) fun _ => False) ∧
  ∀ (s : State) (c : Instr) (i : Slot) (k : Circuit) (n : Word), makesMark s c → AtLimit s i →
    (s.call i).state = .ringingOut → (s.call i).target = some { number := n, circuit := k } → unserved s k →
    ((s.call i).origin ≠ none → RecallOpen s i → s.room [.unring k, .tone (s.call i).caller .ringback] →
      ∃ t, exec c s = .next t ∧ Recalled s t i ∧ (t.call i).target = none ∧ (t.call i).origin = (s.call i).origin ∧
        (t.call i).identity = (s.call i).identity ∧
        issued s t i (entries i [.unring k, .tone (s.call i).caller .ringback]) ∧
        Aside s t (fun j => j = i ∨ j ∈ (s.prt (s.call i).partition).roster) (fun _ => False)
          (· = (s.call i).partition) fun _ => False) ∧
    ∀ a, (s.call i).origin = none → announces s (s.call i).partition a →
      s.room [.unring k, .tone (s.call i).caller .quiet, .join (s.call i).caller a] →
      ∃ t, exec c s = .next t ∧
        (t.call i).bare =
          { offLoops (s.call i) .announced s.seconds with
            target := none, announcer := some a, timer := announceTimer s (s.call i).partition,
            pending := (s.call i).pending + 3 } ∧
        issued s t i (entries i [.unring k, .tone (s.call i).caller .quiet, .join (s.call i).caller a]) ∧
        Aside s t (· = i) (fun _ => False) (fun _ => False) fun _ => False

/-! ## Invariants that every step keeps -/

namespace Sys2Proof.Machine

/-- The taken cells read TAKEN; the cell of every EXTEND in flight is one of them, each its own; so is the cell of the
apply under way (R159, R163, R164, R87). -/
structure CellsInv (s : State) : Prop where
  wf : Memory.wf s.mem = true
  taken : ∀ c ∈ s.taker.taken, cellState s.mem c = .taken
  extend : ∀ p c, (s.pos p).extendCell = some c → c ∈ s.taker.taken
  apart : ∀ p q c, (s.pos p).extendCell = some c → (s.pos q).extendCell = some c → p = q
  apply : ∀ a, s.apply = some a → a.cell ∈ s.taker.taken ∧ ∀ p, (s.pos p).extendCell ≠ some a.cell

/-- Only a SERVING engine has OPEN positions, and each belongs to a partition and has a headset (R62, R64, R81, R167). -/
def SeatsInv (s : State) : Prop :=
  ∀ p, (s.pos p).isOpen = true → s.engine = .serving ∧ (s.pos p).partition ≠ none ∧ (s.pos p).headset ≠ none

end Sys2Proof.Machine

/-- Every step keeps the plain storage in its one canonical form, so that equal memories are equal data (the form is the
model's choice, notes/assumptions/24.md). -/
def Obligations.StepsKeepMemoryCanonical : Prop :=
  ∀ s t : State, Memory.wf s.mem = true → step s = .next t → Memory.wf t.mem = true

/-- R8, R9, R19: every step keeps the free list: it holds the slot of every FREE record and of no other, none twice. -/
def Obligations.StepsKeepTheFreeList : Prop :=
  ∀ s t : State, s.freeListed → step s = .next t → t.freeListed

/-- R159, R163, R164, R87: every step keeps the taken cells. -/
def Obligations.StepsKeepTakenCells : Prop := ∀ s t : State, CellsInv s → step s = .next t → CellsInv t

/-- R62, R64, R81, R167: every step keeps the OPEN positions seated. -/
def Obligations.StepsKeepOpenPositionsSeated : Prop := ∀ s t : State, SeatsInv s → step s = .next t → SeatsInv t

/-- R24, R25, R7, R4, R8, R70, R84: every step keeps the calls in their places: roster members have their partition, a state,
a place and no target; panels and camp lists name calls that name them back. -/
def Obligations.StepsKeepCallsInTheirPlaces : Prop := ∀ s t : State, PlacesInv s → step s = .next t → PlacesInv t

/-- R168: the five invariants hold after a power-on reset. -/
def Obligations.InvariantsHoldAfterReset : Prop :=
  Memory.wf State.reset.mem = true ∧ State.reset.freeListed ∧ CellsInv State.reset ∧ SeatsInv State.reset ∧
  PlacesInv State.reset
end

