-- ==== Sys2Proof/Laws/State.lean ====
section
/-! SUPPORT. The small lemmas of the tables and of the state: what each update leaves alone, and what reading a record after
replacing one gives. -/

namespace Sys2Proof.Machine

/-! ### Tables -/

section TableLaws

variable {α β γ : Type} {n : Nat}

theorem Table.ext_list {t u : Table α n} (h : t.list = u.list) : t = u := by
  cases t; cases u; simp_all

theorem Table.get_def (t : Table α n) (i : Fin n) : t.get i = t.list[i.val]'(by rw [t.len]; exact i.isLt) := rfl

theorem Table.ext_get {t u : Table α n} (h : ∀ i, t.get i = u.get i) : t = u := by
  apply Table.ext_list
  apply List.ext_getElem (by rw [t.len, u.len])
  intro k hk _
  exact h ⟨k, by rw [← t.len]; exact hk⟩

@[simp] theorem Table.get_fill (a : α) (i : Fin n) : (Table.fill a : Table α n).get i = a := by
  simp [Table.get_def, Table.fill]

@[simp] theorem Table.get_set_self (t : Table α n) (i : Fin n) (a : α) : (t.set i a).get i = a := by
  simp [Table.get_def, Table.set]

@[simp] theorem Table.get_set_ne (t : Table α n) {i j : Fin n} (a : α) (h : i ≠ j) : (t.set i a).get j = t.get j := by
  have : i.val ≠ j.val := fun e => h (Fin.ext e)
  simp [Table.get_def, Table.set, this]

theorem Table.get_set (t : Table α n) (i j : Fin n) (a : α) : (t.set i a).get j = if i = j then a else t.get j := by
  by_cases h : i = j
  · subst h; simp
  · simp [h]

@[simp] theorem Table.get_map (f : α → β) (t : Table α n) (i : Fin n) : (t.map f).get i = f (t.get i) := by
  simp [Table.get_def, Table.map]

@[simp] theorem Table.get_zip (f : α → β → γ) (t : Table α n) (u : Table β n) (i : Fin n) :
    (Table.zip f t u).get i = f (t.get i) (u.get i) := by
  simp [Table.get_def, Table.zip]

@[simp] theorem Table.get_make (f : Fin n → α) (i : Fin n) : (Table.make f).get i = f i := by
  simp [Table.get_def, Table.make]

@[simp] theorem Table.set_get (t : Table α n) (i : Fin n) : t.set i (t.get i) = t := by
  apply Table.ext_get
  intro j
  rw [Table.get_set]
  split
  · next h => rw [h]
  · rfl

end TableLaws

/-! ### What an update leaves alone -/

section Updates

variable (s : State)

@[simp] theorem State.setCall_pending (i : Slot) (c : Call) : (s.setCall i c).pending = s.pending := rfl
@[simp] theorem State.setCall_engine (i : Slot) (c : Call) : (s.setCall i c).engine = s.engine := rfl
@[simp] theorem State.setCall_bypassIn (i : Slot) (c : Call) : (s.setCall i c).bypassIn = s.bypassIn := rfl
@[simp] theorem State.setCall_seconds (i : Slot) (c : Call) : (s.setCall i c).seconds = s.seconds := rfl
@[simp] theorem State.setCall_boardRev (i : Slot) (c : Call) : (s.setCall i c).boardRev = s.boardRev := rfl
@[simp] theorem State.setCall_planCount (i : Slot) (c : Call) : (s.setCall i c).planCount = s.planCount := rfl
@[simp] theorem State.setCall_plan (i : Slot) (c : Call) : (s.setCall i c).plan = s.plan := rfl
@[simp] theorem State.setCall_apply (i : Slot) (c : Call) : (s.setCall i c).apply = s.apply := rfl
@[simp] theorem State.setCall_free (i : Slot) (c : Call) : (s.setCall i c).free = s.free := rfl
@[simp] theorem State.setCall_parts (i : Slot) (c : Call) : (s.setCall i c).parts = s.parts := rfl
@[simp] theorem State.setCall_positions (i : Slot) (c : Call) : (s.setCall i c).positions = s.positions := rfl
@[simp] theorem State.setCall_lamps (i : Slot) (c : Call) : (s.setCall i c).lamps = s.lamps := rfl
@[simp] theorem State.setCall_rings (i : Slot) (c : Call) : (s.setCall i c).rings = s.rings := rfl
@[simp] theorem State.setCall_links (i : Slot) (c : Call) : (s.setCall i c).links = s.links := rfl
@[simp] theorem State.setCall_cadence (i : Slot) (c : Call) : (s.setCall i c).cadence = s.cadence := rfl
@[simp] theorem State.setCall_taker (i : Slot) (c : Call) : (s.setCall i c).taker = s.taker := rfl
@[simp] theorem State.setCall_regs (i : Slot) (c : Call) : (s.setCall i c).regs = s.regs := rfl
@[simp] theorem State.setCall_port (i : Slot) (c : Call) : (s.setCall i c).port = s.port := rfl
@[simp] theorem State.setCall_mem (i : Slot) (c : Call) : (s.setCall i c).mem = s.mem := rfl

@[simp] theorem State.setPos_pending (p : Pos) (q : Position) : (s.setPos p q).pending = s.pending := rfl
@[simp] theorem State.setPos_engine (p : Pos) (q : Position) : (s.setPos p q).engine = s.engine := rfl
@[simp] theorem State.setPos_bypassIn (p : Pos) (q : Position) : (s.setPos p q).bypassIn = s.bypassIn := rfl
@[simp] theorem State.setPos_seconds (p : Pos) (q : Position) : (s.setPos p q).seconds = s.seconds := rfl
@[simp] theorem State.setPos_boardRev (p : Pos) (q : Position) : (s.setPos p q).boardRev = s.boardRev := rfl
@[simp] theorem State.setPos_planCount (p : Pos) (q : Position) : (s.setPos p q).planCount = s.planCount := rfl
@[simp] theorem State.setPos_plan (p : Pos) (q : Position) : (s.setPos p q).plan = s.plan := rfl
@[simp] theorem State.setPos_apply (p : Pos) (q : Position) : (s.setPos p q).apply = s.apply := rfl
@[simp] theorem State.setPos_calls (p : Pos) (q : Position) : (s.setPos p q).calls = s.calls := rfl
@[simp] theorem State.setPos_free (p : Pos) (q : Position) : (s.setPos p q).free = s.free := rfl
@[simp] theorem State.setPos_parts (p : Pos) (q : Position) : (s.setPos p q).parts = s.parts := rfl
@[simp] theorem State.setPos_lamps (p : Pos) (q : Position) : (s.setPos p q).lamps = s.lamps := rfl
@[simp] theorem State.setPos_rings (p : Pos) (q : Position) : (s.setPos p q).rings = s.rings := rfl
@[simp] theorem State.setPos_links (p : Pos) (q : Position) : (s.setPos p q).links = s.links := rfl
@[simp] theorem State.setPos_cadence (p : Pos) (q : Position) : (s.setPos p q).cadence = s.cadence := rfl
@[simp] theorem State.setPos_taker (p : Pos) (q : Position) : (s.setPos p q).taker = s.taker := rfl
@[simp] theorem State.setPos_regs (p : Pos) (q : Position) : (s.setPos p q).regs = s.regs := rfl
@[simp] theorem State.setPos_port (p : Pos) (q : Position) : (s.setPos p q).port = s.port := rfl
@[simp] theorem State.setPos_mem (p : Pos) (q : Position) : (s.setPos p q).mem = s.mem := rfl

@[simp] theorem State.setPrt_pending (p : Part) (q : Partition) : (s.setPrt p q).pending = s.pending := rfl
@[simp] theorem State.setPrt_engine (p : Part) (q : Partition) : (s.setPrt p q).engine = s.engine := rfl
@[simp] theorem State.setPrt_bypassIn (p : Part) (q : Partition) : (s.setPrt p q).bypassIn = s.bypassIn := rfl
@[simp] theorem State.setPrt_seconds (p : Part) (q : Partition) : (s.setPrt p q).seconds = s.seconds := rfl
@[simp] theorem State.setPrt_boardRev (p : Part) (q : Partition) : (s.setPrt p q).boardRev = s.boardRev := rfl
@[simp] theorem State.setPrt_planCount (p : Part) (q : Partition) : (s.setPrt p q).planCount = s.planCount := rfl
@[simp] theorem State.setPrt_plan (p : Part) (q : Partition) : (s.setPrt p q).plan = s.plan := rfl
@[simp] theorem State.setPrt_apply (p : Part) (q : Partition) : (s.setPrt p q).apply = s.apply := rfl
@[simp] theorem State.setPrt_calls (p : Part) (q : Partition) : (s.setPrt p q).calls = s.calls := rfl
@[simp] theorem State.setPrt_free (p : Part) (q : Partition) : (s.setPrt p q).free = s.free := rfl
@[simp] theorem State.setPrt_positions (p : Part) (q : Partition) : (s.setPrt p q).positions = s.positions := rfl
@[simp] theorem State.setPrt_lamps (p : Part) (q : Partition) : (s.setPrt p q).lamps = s.lamps := rfl
@[simp] theorem State.setPrt_rings (p : Part) (q : Partition) : (s.setPrt p q).rings = s.rings := rfl
@[simp] theorem State.setPrt_links (p : Part) (q : Partition) : (s.setPrt p q).links = s.links := rfl
@[simp] theorem State.setPrt_cadence (p : Part) (q : Partition) : (s.setPrt p q).cadence = s.cadence := rfl
@[simp] theorem State.setPrt_taker (p : Part) (q : Partition) : (s.setPrt p q).taker = s.taker := rfl
@[simp] theorem State.setPrt_regs (p : Part) (q : Partition) : (s.setPrt p q).regs = s.regs := rfl
@[simp] theorem State.setPrt_port (p : Part) (q : Partition) : (s.setPrt p q).port = s.port := rfl
@[simp] theorem State.setPrt_mem (p : Part) (q : Partition) : (s.setPrt p q).mem = s.mem := rfl

@[simp] theorem State.setLamp_pending (k : Circuit) (q : Lamp) : (s.setLamp k q).pending = s.pending := rfl
@[simp] theorem State.setLamp_engine (k : Circuit) (q : Lamp) : (s.setLamp k q).engine = s.engine := rfl
@[simp] theorem State.setLamp_bypassIn (k : Circuit) (q : Lamp) : (s.setLamp k q).bypassIn = s.bypassIn := rfl
@[simp] theorem State.setLamp_seconds (k : Circuit) (q : Lamp) : (s.setLamp k q).seconds = s.seconds := rfl
@[simp] theorem State.setLamp_boardRev (k : Circuit) (q : Lamp) : (s.setLamp k q).boardRev = s.boardRev := rfl
@[simp] theorem State.setLamp_planCount (k : Circuit) (q : Lamp) : (s.setLamp k q).planCount = s.planCount := rfl
@[simp] theorem State.setLamp_plan (k : Circuit) (q : Lamp) : (s.setLamp k q).plan = s.plan := rfl
@[simp] theorem State.setLamp_apply (k : Circuit) (q : Lamp) : (s.setLamp k q).apply = s.apply := rfl
@[simp] theorem State.setLamp_calls (k : Circuit) (q : Lamp) : (s.setLamp k q).calls = s.calls := rfl
@[simp] theorem State.setLamp_free (k : Circuit) (q : Lamp) : (s.setLamp k q).free = s.free := rfl
@[simp] theorem State.setLamp_parts (k : Circuit) (q : Lamp) : (s.setLamp k q).parts = s.parts := rfl
@[simp] theorem State.setLamp_positions (k : Circuit) (q : Lamp) : (s.setLamp k q).positions = s.positions := rfl
@[simp] theorem State.setLamp_rings (k : Circuit) (q : Lamp) : (s.setLamp k q).rings = s.rings := rfl
@[simp] theorem State.setLamp_links (k : Circuit) (q : Lamp) : (s.setLamp k q).links = s.links := rfl
@[simp] theorem State.setLamp_cadence (k : Circuit) (q : Lamp) : (s.setLamp k q).cadence = s.cadence := rfl
@[simp] theorem State.setLamp_taker (k : Circuit) (q : Lamp) : (s.setLamp k q).taker = s.taker := rfl
@[simp] theorem State.setLamp_regs (k : Circuit) (q : Lamp) : (s.setLamp k q).regs = s.regs := rfl
@[simp] theorem State.setLamp_port (k : Circuit) (q : Lamp) : (s.setLamp k q).port = s.port := rfl
@[simp] theorem State.setLamp_mem (k : Circuit) (q : Lamp) : (s.setLamp k q).mem = s.mem := rfl

@[simp] theorem State.setLink_pending (l : LinkIx) (q : Link) : (s.setLink l q).pending = s.pending := rfl
@[simp] theorem State.setLink_engine (l : LinkIx) (q : Link) : (s.setLink l q).engine = s.engine := rfl
@[simp] theorem State.setLink_bypassIn (l : LinkIx) (q : Link) : (s.setLink l q).bypassIn = s.bypassIn := rfl
@[simp] theorem State.setLink_seconds (l : LinkIx) (q : Link) : (s.setLink l q).seconds = s.seconds := rfl
@[simp] theorem State.setLink_boardRev (l : LinkIx) (q : Link) : (s.setLink l q).boardRev = s.boardRev := rfl
@[simp] theorem State.setLink_planCount (l : LinkIx) (q : Link) : (s.setLink l q).planCount = s.planCount := rfl
@[simp] theorem State.setLink_plan (l : LinkIx) (q : Link) : (s.setLink l q).plan = s.plan := rfl
@[simp] theorem State.setLink_apply (l : LinkIx) (q : Link) : (s.setLink l q).apply = s.apply := rfl
@[simp] theorem State.setLink_calls (l : LinkIx) (q : Link) : (s.setLink l q).calls = s.calls := rfl
@[simp] theorem State.setLink_free (l : LinkIx) (q : Link) : (s.setLink l q).free = s.free := rfl
@[simp] theorem State.setLink_parts (l : LinkIx) (q : Link) : (s.setLink l q).parts = s.parts := rfl
@[simp] theorem State.setLink_positions (l : LinkIx) (q : Link) : (s.setLink l q).positions = s.positions := rfl
@[simp] theorem State.setLink_lamps (l : LinkIx) (q : Link) : (s.setLink l q).lamps = s.lamps := rfl
@[simp] theorem State.setLink_rings (l : LinkIx) (q : Link) : (s.setLink l q).rings = s.rings := rfl
@[simp] theorem State.setLink_cadence (l : LinkIx) (q : Link) : (s.setLink l q).cadence = s.cadence := rfl
@[simp] theorem State.setLink_taker (l : LinkIx) (q : Link) : (s.setLink l q).taker = s.taker := rfl
@[simp] theorem State.setLink_regs (l : LinkIx) (q : Link) : (s.setLink l q).regs = s.regs := rfl
@[simp] theorem State.setLink_port (l : LinkIx) (q : Link) : (s.setLink l q).port = s.port := rfl
@[simp] theorem State.setLink_mem (l : LinkIx) (q : Link) : (s.setLink l q).mem = s.mem := rfl

@[simp] theorem State.setRing_pending (k : Circuit) (n : Nat) : (s.setRing k n).pending = s.pending := rfl
@[simp] theorem State.setRing_engine (k : Circuit) (n : Nat) : (s.setRing k n).engine = s.engine := rfl
@[simp] theorem State.setRing_bypassIn (k : Circuit) (n : Nat) : (s.setRing k n).bypassIn = s.bypassIn := rfl
@[simp] theorem State.setRing_seconds (k : Circuit) (n : Nat) : (s.setRing k n).seconds = s.seconds := rfl
@[simp] theorem State.setRing_boardRev (k : Circuit) (n : Nat) : (s.setRing k n).boardRev = s.boardRev := rfl
@[simp] theorem State.setRing_planCount (k : Circuit) (n : Nat) : (s.setRing k n).planCount = s.planCount := rfl
@[simp] theorem State.setRing_plan (k : Circuit) (n : Nat) : (s.setRing k n).plan = s.plan := rfl
@[simp] theorem State.setRing_apply (k : Circuit) (n : Nat) : (s.setRing k n).apply = s.apply := rfl
@[simp] theorem State.setRing_calls (k : Circuit) (n : Nat) : (s.setRing k n).calls = s.calls := rfl
@[simp] theorem State.setRing_free (k : Circuit) (n : Nat) : (s.setRing k n).free = s.free := rfl
@[simp] theorem State.setRing_parts (k : Circuit) (n : Nat) : (s.setRing k n).parts = s.parts := rfl
@[simp] theorem State.setRing_positions (k : Circuit) (n : Nat) : (s.setRing k n).positions = s.positions := rfl
@[simp] theorem State.setRing_lamps (k : Circuit) (n : Nat) : (s.setRing k n).lamps = s.lamps := rfl
@[simp] theorem State.setRing_links (k : Circuit) (n : Nat) : (s.setRing k n).links = s.links := rfl
@[simp] theorem State.setRing_cadence (k : Circuit) (n : Nat) : (s.setRing k n).cadence = s.cadence := rfl
@[simp] theorem State.setRing_taker (k : Circuit) (n : Nat) : (s.setRing k n).taker = s.taker := rfl
@[simp] theorem State.setRing_regs (k : Circuit) (n : Nat) : (s.setRing k n).regs = s.regs := rfl
@[simp] theorem State.setRing_port (k : Circuit) (n : Nat) : (s.setRing k n).port = s.port := rfl
@[simp] theorem State.setRing_mem (k : Circuit) (n : Nat) : (s.setRing k n).mem = s.mem := rfl

@[simp] theorem State.setMem_pending (m : Memory) : (s.setMem m).pending = s.pending := rfl
@[simp] theorem State.setMem_engine (m : Memory) : (s.setMem m).engine = s.engine := rfl
@[simp] theorem State.setMem_bypassIn (m : Memory) : (s.setMem m).bypassIn = s.bypassIn := rfl
@[simp] theorem State.setMem_seconds (m : Memory) : (s.setMem m).seconds = s.seconds := rfl
@[simp] theorem State.setMem_boardRev (m : Memory) : (s.setMem m).boardRev = s.boardRev := rfl
@[simp] theorem State.setMem_planCount (m : Memory) : (s.setMem m).planCount = s.planCount := rfl
@[simp] theorem State.setMem_plan (m : Memory) : (s.setMem m).plan = s.plan := rfl
@[simp] theorem State.setMem_apply (m : Memory) : (s.setMem m).apply = s.apply := rfl
@[simp] theorem State.setMem_calls (m : Memory) : (s.setMem m).calls = s.calls := rfl
@[simp] theorem State.setMem_free (m : Memory) : (s.setMem m).free = s.free := rfl
@[simp] theorem State.setMem_parts (m : Memory) : (s.setMem m).parts = s.parts := rfl
@[simp] theorem State.setMem_positions (m : Memory) : (s.setMem m).positions = s.positions := rfl
@[simp] theorem State.setMem_lamps (m : Memory) : (s.setMem m).lamps = s.lamps := rfl
@[simp] theorem State.setMem_rings (m : Memory) : (s.setMem m).rings = s.rings := rfl
@[simp] theorem State.setMem_links (m : Memory) : (s.setMem m).links = s.links := rfl
@[simp] theorem State.setMem_cadence (m : Memory) : (s.setMem m).cadence = s.cadence := rfl
@[simp] theorem State.setMem_taker (m : Memory) : (s.setMem m).taker = s.taker := rfl
@[simp] theorem State.setMem_regs (m : Memory) : (s.setMem m).regs = s.regs := rfl
@[simp] theorem State.setMem_port (m : Memory) : (s.setMem m).port = s.port := rfl

@[simp] theorem State.setFree_pending (f : List Slot) : (s.setFree f).pending = s.pending := rfl
@[simp] theorem State.setFree_engine (f : List Slot) : (s.setFree f).engine = s.engine := rfl
@[simp] theorem State.setFree_bypassIn (f : List Slot) : (s.setFree f).bypassIn = s.bypassIn := rfl
@[simp] theorem State.setFree_seconds (f : List Slot) : (s.setFree f).seconds = s.seconds := rfl
@[simp] theorem State.setFree_boardRev (f : List Slot) : (s.setFree f).boardRev = s.boardRev := rfl
@[simp] theorem State.setFree_planCount (f : List Slot) : (s.setFree f).planCount = s.planCount := rfl
@[simp] theorem State.setFree_plan (f : List Slot) : (s.setFree f).plan = s.plan := rfl
@[simp] theorem State.setFree_apply (f : List Slot) : (s.setFree f).apply = s.apply := rfl
@[simp] theorem State.setFree_calls (f : List Slot) : (s.setFree f).calls = s.calls := rfl
@[simp] theorem State.setFree_parts (f : List Slot) : (s.setFree f).parts = s.parts := rfl
@[simp] theorem State.setFree_positions (f : List Slot) : (s.setFree f).positions = s.positions := rfl
@[simp] theorem State.setFree_lamps (f : List Slot) : (s.setFree f).lamps = s.lamps := rfl
@[simp] theorem State.setFree_rings (f : List Slot) : (s.setFree f).rings = s.rings := rfl
@[simp] theorem State.setFree_links (f : List Slot) : (s.setFree f).links = s.links := rfl
@[simp] theorem State.setFree_cadence (f : List Slot) : (s.setFree f).cadence = s.cadence := rfl
@[simp] theorem State.setFree_taker (f : List Slot) : (s.setFree f).taker = s.taker := rfl
@[simp] theorem State.setFree_regs (f : List Slot) : (s.setFree f).regs = s.regs := rfl
@[simp] theorem State.setFree_port (f : List Slot) : (s.setFree f).port = s.port := rfl
@[simp] theorem State.setFree_mem (f : List Slot) : (s.setFree f).mem = s.mem := rfl

@[simp] theorem State.setTaker_pending (x : Taker) : (s.setTaker x).pending = s.pending := rfl
@[simp] theorem State.setTaker_engine (x : Taker) : (s.setTaker x).engine = s.engine := rfl
@[simp] theorem State.setTaker_bypassIn (x : Taker) : (s.setTaker x).bypassIn = s.bypassIn := rfl
@[simp] theorem State.setTaker_seconds (x : Taker) : (s.setTaker x).seconds = s.seconds := rfl
@[simp] theorem State.setTaker_boardRev (x : Taker) : (s.setTaker x).boardRev = s.boardRev := rfl
@[simp] theorem State.setTaker_planCount (x : Taker) : (s.setTaker x).planCount = s.planCount := rfl
@[simp] theorem State.setTaker_plan (x : Taker) : (s.setTaker x).plan = s.plan := rfl
@[simp] theorem State.setTaker_apply (x : Taker) : (s.setTaker x).apply = s.apply := rfl
@[simp] theorem State.setTaker_calls (x : Taker) : (s.setTaker x).calls = s.calls := rfl
@[simp] theorem State.setTaker_free (x : Taker) : (s.setTaker x).free = s.free := rfl
@[simp] theorem State.setTaker_parts (x : Taker) : (s.setTaker x).parts = s.parts := rfl
@[simp] theorem State.setTaker_positions (x : Taker) : (s.setTaker x).positions = s.positions := rfl
@[simp] theorem State.setTaker_lamps (x : Taker) : (s.setTaker x).lamps = s.lamps := rfl
@[simp] theorem State.setTaker_rings (x : Taker) : (s.setTaker x).rings = s.rings := rfl
@[simp] theorem State.setTaker_links (x : Taker) : (s.setTaker x).links = s.links := rfl
@[simp] theorem State.setTaker_cadence (x : Taker) : (s.setTaker x).cadence = s.cadence := rfl
@[simp] theorem State.setTaker_regs (x : Taker) : (s.setTaker x).regs = s.regs := rfl
@[simp] theorem State.setTaker_port (x : Taker) : (s.setTaker x).port = s.port := rfl
@[simp] theorem State.setTaker_mem (x : Taker) : (s.setTaker x).mem = s.mem := rfl

@[simp] theorem State.setCadence_pending (x : Cadence) : (s.setCadence x).pending = s.pending := rfl
@[simp] theorem State.setCadence_engine (x : Cadence) : (s.setCadence x).engine = s.engine := rfl
@[simp] theorem State.setCadence_bypassIn (x : Cadence) : (s.setCadence x).bypassIn = s.bypassIn := rfl
@[simp] theorem State.setCadence_seconds (x : Cadence) : (s.setCadence x).seconds = s.seconds := rfl
@[simp] theorem State.setCadence_boardRev (x : Cadence) : (s.setCadence x).boardRev = s.boardRev := rfl
@[simp] theorem State.setCadence_planCount (x : Cadence) : (s.setCadence x).planCount = s.planCount := rfl
@[simp] theorem State.setCadence_plan (x : Cadence) : (s.setCadence x).plan = s.plan := rfl
@[simp] theorem State.setCadence_apply (x : Cadence) : (s.setCadence x).apply = s.apply := rfl
@[simp] theorem State.setCadence_calls (x : Cadence) : (s.setCadence x).calls = s.calls := rfl
@[simp] theorem State.setCadence_free (x : Cadence) : (s.setCadence x).free = s.free := rfl
@[simp] theorem State.setCadence_parts (x : Cadence) : (s.setCadence x).parts = s.parts := rfl
@[simp] theorem State.setCadence_positions (x : Cadence) : (s.setCadence x).positions = s.positions := rfl
@[simp] theorem State.setCadence_lamps (x : Cadence) : (s.setCadence x).lamps = s.lamps := rfl
@[simp] theorem State.setCadence_rings (x : Cadence) : (s.setCadence x).rings = s.rings := rfl
@[simp] theorem State.setCadence_links (x : Cadence) : (s.setCadence x).links = s.links := rfl
@[simp] theorem State.setCadence_taker (x : Cadence) : (s.setCadence x).taker = s.taker := rfl
@[simp] theorem State.setCadence_regs (x : Cadence) : (s.setCadence x).regs = s.regs := rfl
@[simp] theorem State.setCadence_port (x : Cadence) : (s.setCadence x).port = s.port := rfl
@[simp] theorem State.setCadence_mem (x : Cadence) : (s.setCadence x).mem = s.mem := rfl

@[simp] theorem State.setRegs_pending (x : Regs) : (s.setRegs x).pending = s.pending := rfl
@[simp] theorem State.setRegs_engine (x : Regs) : (s.setRegs x).engine = s.engine := rfl
@[simp] theorem State.setRegs_bypassIn (x : Regs) : (s.setRegs x).bypassIn = s.bypassIn := rfl
@[simp] theorem State.setRegs_seconds (x : Regs) : (s.setRegs x).seconds = s.seconds := rfl
@[simp] theorem State.setRegs_boardRev (x : Regs) : (s.setRegs x).boardRev = s.boardRev := rfl
@[simp] theorem State.setRegs_planCount (x : Regs) : (s.setRegs x).planCount = s.planCount := rfl
@[simp] theorem State.setRegs_plan (x : Regs) : (s.setRegs x).plan = s.plan := rfl
@[simp] theorem State.setRegs_apply (x : Regs) : (s.setRegs x).apply = s.apply := rfl
@[simp] theorem State.setRegs_calls (x : Regs) : (s.setRegs x).calls = s.calls := rfl
@[simp] theorem State.setRegs_free (x : Regs) : (s.setRegs x).free = s.free := rfl
@[simp] theorem State.setRegs_parts (x : Regs) : (s.setRegs x).parts = s.parts := rfl
@[simp] theorem State.setRegs_positions (x : Regs) : (s.setRegs x).positions = s.positions := rfl
@[simp] theorem State.setRegs_lamps (x : Regs) : (s.setRegs x).lamps = s.lamps := rfl
@[simp] theorem State.setRegs_rings (x : Regs) : (s.setRegs x).rings = s.rings := rfl
@[simp] theorem State.setRegs_links (x : Regs) : (s.setRegs x).links = s.links := rfl
@[simp] theorem State.setRegs_cadence (x : Regs) : (s.setRegs x).cadence = s.cadence := rfl
@[simp] theorem State.setRegs_taker (x : Regs) : (s.setRegs x).taker = s.taker := rfl
@[simp] theorem State.setRegs_port (x : Regs) : (s.setRegs x).port = s.port := rfl
@[simp] theorem State.setRegs_mem (x : Regs) : (s.setRegs x).mem = s.mem := rfl

@[simp] theorem State.setPort_pending (x : ReadPort) : (s.setPort x).pending = s.pending := rfl
@[simp] theorem State.setPort_engine (x : ReadPort) : (s.setPort x).engine = s.engine := rfl
@[simp] theorem State.setPort_bypassIn (x : ReadPort) : (s.setPort x).bypassIn = s.bypassIn := rfl
@[simp] theorem State.setPort_seconds (x : ReadPort) : (s.setPort x).seconds = s.seconds := rfl
@[simp] theorem State.setPort_boardRev (x : ReadPort) : (s.setPort x).boardRev = s.boardRev := rfl
@[simp] theorem State.setPort_planCount (x : ReadPort) : (s.setPort x).planCount = s.planCount := rfl
@[simp] theorem State.setPort_plan (x : ReadPort) : (s.setPort x).plan = s.plan := rfl
@[simp] theorem State.setPort_apply (x : ReadPort) : (s.setPort x).apply = s.apply := rfl
@[simp] theorem State.setPort_calls (x : ReadPort) : (s.setPort x).calls = s.calls := rfl
@[simp] theorem State.setPort_free (x : ReadPort) : (s.setPort x).free = s.free := rfl
@[simp] theorem State.setPort_parts (x : ReadPort) : (s.setPort x).parts = s.parts := rfl
@[simp] theorem State.setPort_positions (x : ReadPort) : (s.setPort x).positions = s.positions := rfl
@[simp] theorem State.setPort_lamps (x : ReadPort) : (s.setPort x).lamps = s.lamps := rfl
@[simp] theorem State.setPort_rings (x : ReadPort) : (s.setPort x).rings = s.rings := rfl
@[simp] theorem State.setPort_links (x : ReadPort) : (s.setPort x).links = s.links := rfl
@[simp] theorem State.setPort_cadence (x : ReadPort) : (s.setPort x).cadence = s.cadence := rfl
@[simp] theorem State.setPort_taker (x : ReadPort) : (s.setPort x).taker = s.taker := rfl
@[simp] theorem State.setPort_regs (x : ReadPort) : (s.setPort x).regs = s.regs := rfl
@[simp] theorem State.setPort_mem (x : ReadPort) : (s.setPort x).mem = s.mem := rfl

@[simp] theorem State.raise_pending (f : Flag) : (s.raise f).pending = s.pending := rfl
@[simp] theorem State.raise_engine (f : Flag) : (s.raise f).engine = s.engine := rfl
@[simp] theorem State.raise_bypassIn (f : Flag) : (s.raise f).bypassIn = s.bypassIn := rfl
@[simp] theorem State.raise_seconds (f : Flag) : (s.raise f).seconds = s.seconds := rfl
@[simp] theorem State.raise_boardRev (f : Flag) : (s.raise f).boardRev = s.boardRev := rfl
@[simp] theorem State.raise_planCount (f : Flag) : (s.raise f).planCount = s.planCount := rfl
@[simp] theorem State.raise_plan (f : Flag) : (s.raise f).plan = s.plan := rfl
@[simp] theorem State.raise_apply (f : Flag) : (s.raise f).apply = s.apply := rfl
@[simp] theorem State.raise_calls (f : Flag) : (s.raise f).calls = s.calls := rfl
@[simp] theorem State.raise_free (f : Flag) : (s.raise f).free = s.free := rfl
@[simp] theorem State.raise_parts (f : Flag) : (s.raise f).parts = s.parts := rfl
@[simp] theorem State.raise_positions (f : Flag) : (s.raise f).positions = s.positions := rfl
@[simp] theorem State.raise_lamps (f : Flag) : (s.raise f).lamps = s.lamps := rfl
@[simp] theorem State.raise_rings (f : Flag) : (s.raise f).rings = s.rings := rfl
@[simp] theorem State.raise_links (f : Flag) : (s.raise f).links = s.links := rfl
@[simp] theorem State.raise_cadence (f : Flag) : (s.raise f).cadence = s.cadence := rfl
@[simp] theorem State.raise_taker (f : Flag) : (s.raise f).taker = s.taker := rfl
@[simp] theorem State.raise_port (f : Flag) : (s.raise f).port = s.port := rfl
@[simp] theorem State.raise_mem (f : Flag) : (s.raise f).mem = s.mem := rfl

/-! ### What an update gives -/

@[simp] theorem State.setCall_calls (i : Slot) (c : Call) : (s.setCall i c).calls = s.calls.set i c := rfl
@[simp] theorem State.setPos_positions (p : Pos) (q : Position) : (s.setPos p q).positions = s.positions.set p q := rfl
@[simp] theorem State.setPrt_parts (p : Part) (q : Partition) : (s.setPrt p q).parts = s.parts.set p q := rfl
@[simp] theorem State.setLamp_lamps (k : Circuit) (q : Lamp) : (s.setLamp k q).lamps = s.lamps.set k q := rfl
@[simp] theorem State.setLink_links (l : LinkIx) (q : Link) : (s.setLink l q).links = s.links.set l q := rfl
@[simp] theorem State.setRing_rings (k : Circuit) (n : Nat) : (s.setRing k n).rings = s.rings.set k n := rfl
@[simp] theorem State.setMem_mem (m : Memory) : (s.setMem m).mem = m := rfl
@[simp] theorem State.setFree_free (f : List Slot) : (s.setFree f).free = f := rfl
@[simp] theorem State.setTaker_taker (x : Taker) : (s.setTaker x).taker = x := rfl
@[simp] theorem State.setCadence_cadence (x : Cadence) : (s.setCadence x).cadence = x := rfl
@[simp] theorem State.setRegs_regs (x : Regs) : (s.setRegs x).regs = x := rfl
@[simp] theorem State.setPort_port (x : ReadPort) : (s.setPort x).port = x := rfl
@[simp] theorem State.raise_summary (f : Flag) : (s.raise f).regs.summary = s.regs.summary ||| f.bit := rfl
@[simp] theorem State.raise_mask (f : Flag) : (s.raise f).regs.mask = s.regs.mask := rfl
@[simp] theorem State.raise_noticeEnable (f : Flag) : (s.raise f).regs.noticeEnable = s.regs.noticeEnable := rfl
@[simp] theorem State.raise_hold (f : Flag) : (s.raise f).regs.hold = s.regs.hold := rfl

end Updates

/-! ### One record after an update -/

section Records

variable (s : State)

theorem State.call_setCall (i j : Slot) (c : Call) : (s.setCall i c).call j = if i = j then c else s.call j :=
  Table.get_set _ _ _ _
@[simp] theorem State.call_setCall_self (i : Slot) (c : Call) : (s.setCall i c).call i = c := Table.get_set_self _ _ _
@[simp] theorem State.call_setCall_ne {i j : Slot} (c : Call) (h : i ≠ j) : (s.setCall i c).call j = s.call j :=
  Table.get_set_ne _ _ h
@[simp] theorem State.pos_setCall (i : Slot) (c : Call) (j : Pos) : (s.setCall i c).pos j = s.pos j := rfl
@[simp] theorem State.prt_setCall (i : Slot) (c : Call) (j : Part) : (s.setCall i c).prt j = s.prt j := rfl
@[simp] theorem State.lamp_setCall (i : Slot) (c : Call) (j : Circuit) : (s.setCall i c).lamp j = s.lamp j := rfl
@[simp] theorem State.link_setCall (i : Slot) (c : Call) (j : LinkIx) : (s.setCall i c).link j = s.link j := rfl
@[simp] theorem State.call_setPos (p : Pos) (q : Position) (j : Slot) : (s.setPos p q).call j = s.call j := rfl
theorem State.pos_setPos (i j : Pos) (c : Position) : (s.setPos i c).pos j = if i = j then c else s.pos j :=
  Table.get_set _ _ _ _
@[simp] theorem State.pos_setPos_self (i : Pos) (c : Position) : (s.setPos i c).pos i = c := Table.get_set_self _ _ _
@[simp] theorem State.pos_setPos_ne {i j : Pos} (c : Position) (h : i ≠ j) : (s.setPos i c).pos j = s.pos j :=
  Table.get_set_ne _ _ h
@[simp] theorem State.prt_setPos (p : Pos) (q : Position) (j : Part) : (s.setPos p q).prt j = s.prt j := rfl
@[simp] theorem State.lamp_setPos (p : Pos) (q : Position) (j : Circuit) : (s.setPos p q).lamp j = s.lamp j := rfl
@[simp] theorem State.link_setPos (p : Pos) (q : Position) (j : LinkIx) : (s.setPos p q).link j = s.link j := rfl
@[simp] theorem State.call_setPrt (p : Part) (q : Partition) (j : Slot) : (s.setPrt p q).call j = s.call j := rfl
@[simp] theorem State.pos_setPrt (p : Part) (q : Partition) (j : Pos) : (s.setPrt p q).pos j = s.pos j := rfl
theorem State.prt_setPrt (i j : Part) (c : Partition) : (s.setPrt i c).prt j = if i = j then c else s.prt j :=
  Table.get_set _ _ _ _
@[simp] theorem State.prt_setPrt_self (i : Part) (c : Partition) : (s.setPrt i c).prt i = c := Table.get_set_self _ _ _
@[simp] theorem State.prt_setPrt_ne {i j : Part} (c : Partition) (h : i ≠ j) : (s.setPrt i c).prt j = s.prt j :=
  Table.get_set_ne _ _ h
@[simp] theorem State.lamp_setPrt (p : Part) (q : Partition) (j : Circuit) : (s.setPrt p q).lamp j = s.lamp j := rfl
@[simp] theorem State.link_setPrt (p : Part) (q : Partition) (j : LinkIx) : (s.setPrt p q).link j = s.link j := rfl
@[simp] theorem State.call_setLamp (k : Circuit) (q : Lamp) (j : Slot) : (s.setLamp k q).call j = s.call j := rfl
@[simp] theorem State.pos_setLamp (k : Circuit) (q : Lamp) (j : Pos) : (s.setLamp k q).pos j = s.pos j := rfl
@[simp] theorem State.prt_setLamp (k : Circuit) (q : Lamp) (j : Part) : (s.setLamp k q).prt j = s.prt j := rfl
theorem State.lamp_setLamp (i j : Circuit) (c : Lamp) : (s.setLamp i c).lamp j = if i = j then c else s.lamp j :=
  Table.get_set _ _ _ _
@[simp] theorem State.lamp_setLamp_self (i : Circuit) (c : Lamp) : (s.setLamp i c).lamp i = c := Table.get_set_self _ _ _
@[simp] theorem State.lamp_setLamp_ne {i j : Circuit} (c : Lamp) (h : i ≠ j) : (s.setLamp i c).lamp j = s.lamp j :=
  Table.get_set_ne _ _ h
@[simp] theorem State.link_setLamp (k : Circuit) (q : Lamp) (j : LinkIx) : (s.setLamp k q).link j = s.link j := rfl
@[simp] theorem State.call_setLink (l : LinkIx) (q : Link) (j : Slot) : (s.setLink l q).call j = s.call j := rfl
@[simp] theorem State.pos_setLink (l : LinkIx) (q : Link) (j : Pos) : (s.setLink l q).pos j = s.pos j := rfl
@[simp] theorem State.prt_setLink (l : LinkIx) (q : Link) (j : Part) : (s.setLink l q).prt j = s.prt j := rfl
@[simp] theorem State.lamp_setLink (l : LinkIx) (q : Link) (j : Circuit) : (s.setLink l q).lamp j = s.lamp j := rfl
theorem State.link_setLink (i j : LinkIx) (c : Link) : (s.setLink i c).link j = if i = j then c else s.link j :=
  Table.get_set _ _ _ _
@[simp] theorem State.link_setLink_self (i : LinkIx) (c : Link) : (s.setLink i c).link i = c := Table.get_set_self _ _ _
@[simp] theorem State.link_setLink_ne {i j : LinkIx} (c : Link) (h : i ≠ j) : (s.setLink i c).link j = s.link j :=
  Table.get_set_ne _ _ h
@[simp] theorem State.call_setRing (k : Circuit) (n : Nat) (j : Slot) : (s.setRing k n).call j = s.call j := rfl
@[simp] theorem State.pos_setRing (k : Circuit) (n : Nat) (j : Pos) : (s.setRing k n).pos j = s.pos j := rfl
@[simp] theorem State.prt_setRing (k : Circuit) (n : Nat) (j : Part) : (s.setRing k n).prt j = s.prt j := rfl
@[simp] theorem State.lamp_setRing (k : Circuit) (n : Nat) (j : Circuit) : (s.setRing k n).lamp j = s.lamp j := rfl
@[simp] theorem State.link_setRing (k : Circuit) (n : Nat) (j : LinkIx) : (s.setRing k n).link j = s.link j := rfl
@[simp] theorem State.call_setMem (m : Memory) (j : Slot) : (s.setMem m).call j = s.call j := rfl
@[simp] theorem State.pos_setMem (m : Memory) (j : Pos) : (s.setMem m).pos j = s.pos j := rfl
@[simp] theorem State.prt_setMem (m : Memory) (j : Part) : (s.setMem m).prt j = s.prt j := rfl
@[simp] theorem State.lamp_setMem (m : Memory) (j : Circuit) : (s.setMem m).lamp j = s.lamp j := rfl
@[simp] theorem State.link_setMem (m : Memory) (j : LinkIx) : (s.setMem m).link j = s.link j := rfl
@[simp] theorem State.call_setFree (f : List Slot) (j : Slot) : (s.setFree f).call j = s.call j := rfl
@[simp] theorem State.pos_setFree (f : List Slot) (j : Pos) : (s.setFree f).pos j = s.pos j := rfl
@[simp] theorem State.prt_setFree (f : List Slot) (j : Part) : (s.setFree f).prt j = s.prt j := rfl
@[simp] theorem State.lamp_setFree (f : List Slot) (j : Circuit) : (s.setFree f).lamp j = s.lamp j := rfl
@[simp] theorem State.link_setFree (f : List Slot) (j : LinkIx) : (s.setFree f).link j = s.link j := rfl
@[simp] theorem State.call_setTaker (x : Taker) (j : Slot) : (s.setTaker x).call j = s.call j := rfl
@[simp] theorem State.pos_setTaker (x : Taker) (j : Pos) : (s.setTaker x).pos j = s.pos j := rfl
@[simp] theorem State.prt_setTaker (x : Taker) (j : Part) : (s.setTaker x).prt j = s.prt j := rfl
@[simp] theorem State.lamp_setTaker (x : Taker) (j : Circuit) : (s.setTaker x).lamp j = s.lamp j := rfl
@[simp] theorem State.link_setTaker (x : Taker) (j : LinkIx) : (s.setTaker x).link j = s.link j := rfl
@[simp] theorem State.call_setCadence (x : Cadence) (j : Slot) : (s.setCadence x).call j = s.call j := rfl
@[simp] theorem State.pos_setCadence (x : Cadence) (j : Pos) : (s.setCadence x).pos j = s.pos j := rfl
@[simp] theorem State.prt_setCadence (x : Cadence) (j : Part) : (s.setCadence x).prt j = s.prt j := rfl
@[simp] theorem State.lamp_setCadence (x : Cadence) (j : Circuit) : (s.setCadence x).lamp j = s.lamp j := rfl
@[simp] theorem State.link_setCadence (x : Cadence) (j : LinkIx) : (s.setCadence x).link j = s.link j := rfl
@[simp] theorem State.call_setRegs (x : Regs) (j : Slot) : (s.setRegs x).call j = s.call j := rfl
@[simp] theorem State.pos_setRegs (x : Regs) (j : Pos) : (s.setRegs x).pos j = s.pos j := rfl
@[simp] theorem State.prt_setRegs (x : Regs) (j : Part) : (s.setRegs x).prt j = s.prt j := rfl
@[simp] theorem State.lamp_setRegs (x : Regs) (j : Circuit) : (s.setRegs x).lamp j = s.lamp j := rfl
@[simp] theorem State.link_setRegs (x : Regs) (j : LinkIx) : (s.setRegs x).link j = s.link j := rfl
@[simp] theorem State.call_setPort (x : ReadPort) (j : Slot) : (s.setPort x).call j = s.call j := rfl
@[simp] theorem State.pos_setPort (x : ReadPort) (j : Pos) : (s.setPort x).pos j = s.pos j := rfl
@[simp] theorem State.prt_setPort (x : ReadPort) (j : Part) : (s.setPort x).prt j = s.prt j := rfl
@[simp] theorem State.lamp_setPort (x : ReadPort) (j : Circuit) : (s.setPort x).lamp j = s.lamp j := rfl
@[simp] theorem State.link_setPort (x : ReadPort) (j : LinkIx) : (s.setPort x).link j = s.link j := rfl
@[simp] theorem State.call_raise (f : Flag) (x : Slot) : (s.raise f).call x = s.call x := rfl
@[simp] theorem State.pos_raise (f : Flag) (x : Pos) : (s.raise f).pos x = s.pos x := rfl
@[simp] theorem State.prt_raise (f : Flag) (x : Part) : (s.raise f).prt x = s.prt x := rfl
@[simp] theorem State.lamp_raise (f : Flag) (x : Circuit) : (s.raise f).lamp x = s.lamp x := rfl
@[simp] theorem State.link_raise (f : Flag) (x : LinkIx) : (s.raise f).link x = s.link x := rfl

end Records

end Sys2Proof.Machine
end

