-- ==== Sys2Proof/Laws/Memory.lean ====
section
/-! SUPPORT. The plain storage: the canonical form is kept by every write, and a read gives what the last write of its
offset stored. -/

namespace Sys2Proof.Machine

theorem Memory.wf_cons {k : Nat} {b : Byte} {m : Memory} :
    Memory.wf ((k, b) :: m) = true ↔ b ≠ 0 ∧ Memory.above k m = true ∧ Memory.wf m = true := by
  simp [Memory.wf, and_assoc]

/-- Below the first listed offset every byte reads 0. -/
theorem Memory.read_below : ∀ (m : Memory) (a b : Nat), Memory.wf m = true → Memory.above a m = true → b ≤ a → m.read b = 0
  | [], _, _, _, _, _ => rfl
  | (k, x) :: m, a, b, _, ha, hb => by
    have hk : a < k := by simpa [Memory.above] using ha
    have h1 : ¬ k = b := by omega
    have h2 : b < k := by omega
    simp [Memory.read, h1, h2]

theorem Memory.above_mono {m : Memory} {a b : Nat} (h : Memory.above a m = true) (hb : b ≤ a) : Memory.above b m = true := by
  cases m with
  | nil => rfl
  | cons p m => simp [Memory.above] at *; omega

theorem Memory.above_write : ∀ (m : Memory) (k a : Nat) (v : Byte), Memory.wf m = true → Memory.above k m = true → k < a →
    Memory.above k (m.write a v) = true
  | [], k, a, v, _, _, h => by
    unfold Memory.write; split <;> simp [Memory.above, h]
  | (j, x) :: m, k, a, v, hw, hk, h => by
    have hj : k < j := by simpa [Memory.above] using hk
    have hm := (Memory.wf_cons.1 hw).2.1
    unfold Memory.write
    split
    · split
      · exact Memory.above_mono hm (by omega)
      · simp [Memory.above, h]
    · split
      · split <;> simp [Memory.above, h, hj]
      · simp [Memory.above, hj]

/-- A write keeps the canonical form. -/
theorem Memory.write_wf : ∀ (m : Memory) (a : Nat) (v : Byte), Memory.wf m = true → Memory.wf (m.write a v) = true
  | [], a, v, _ => by
    unfold Memory.write; split
    · rfl
    · next h => exact Memory.wf_cons.2 ⟨h, rfl, rfl⟩
  | (k, x) :: m, a, v, hw => by
    obtain ⟨hx, hk, hm⟩ := Memory.wf_cons.1 hw
    unfold Memory.write
    split
    · next e =>
      subst e
      split
      · exact hm
      · next h => exact Memory.wf_cons.2 ⟨h, hk, hm⟩
    · next e =>
      split
      · next lt =>
        split
        · exact hw
        · next h => exact Memory.wf_cons.2 ⟨h, by simp [Memory.above, lt], hw⟩
      · next lt =>
        exact Memory.wf_cons.2 ⟨hx, Memory.above_write m k a v hm hk (by omega), Memory.write_wf m a v hm⟩

/-- Reading an offset after a write gives the value written there, and every other offset reads as before. -/
theorem Memory.read_write : ∀ (m : Memory) (a : Nat) (v : Byte) (b : Nat), Memory.wf m = true →
    (m.write a v).read b = if a = b then v else m.read b
  | [], a, v, b, _ => by
    unfold Memory.write
    by_cases hv : v = 0#8
    · simp [hv, Memory.read]
    · by_cases hab : a = b
      · simp [hv, Memory.read, hab]
      · simp [hv, Memory.read, hab]
  | (k, x) :: m, a, v, b, hw => by
    obtain ⟨hx, hk, hm⟩ := Memory.wf_cons.1 hw
    unfold Memory.write
    by_cases hka : k = a
    · subst hka
      by_cases hv : v = 0#8
      · by_cases hb : k = b
        · subst hb; simp [hv, Memory.read_below m k k hm hk (Nat.le_refl _)]
        · by_cases hlt : b < k
          · simp [hv, hb, Memory.read, hlt, Memory.read_below m k b hm hk (by omega)]
          · simp [hv, hb, Memory.read, hlt]
      · by_cases hb : k = b
        · simp [hv, Memory.read, hb]
        · simp [hv, Memory.read, hb]
    · by_cases hlt : a < k
      · by_cases hv : v = 0#8
        · by_cases hb : a = b
          · subst hb; simp [hka, hlt, hv, Memory.read]
          · simp [hka, hlt, hv, hb]
        · by_cases hb : a = b
          · subst hb; simp [hka, hlt, hv, Memory.read]
          · by_cases hba : b < a
            · have h1 : ¬ k = b := by omega
              have h2 : b < k := by omega
              simp [hka, hlt, hv, hb, Memory.read, hba, h1, h2]
            · simp [hka, hlt, hv, hb, Memory.read, hba]
      · have ih := Memory.read_write m a v b hm
        by_cases hb : k = b
        · subst hb
          have : ¬ a = k := fun e => hka e.symm
          simp [hka, hlt, Memory.read, this]
        · by_cases hbk : b < k
          · have : ¬ a = b := by omega
            simp [hka, hlt, Memory.read, hb, hbk, this]
          · simp [hka, hlt, Memory.read, hb, hbk, ih]

@[simp] theorem Memory.read_write_self (m : Memory) (a : Nat) (v : Byte) (h : Memory.wf m = true) :
    (m.write a v).read a = v := by simp [Memory.read_write m a v a h]

theorem Memory.read_write_ne (m : Memory) {a b : Nat} (v : Byte) (h : Memory.wf m = true) (hab : a ≠ b) :
    (m.write a v).read b = m.read b := by simp [Memory.read_write m a v b h, hab]

theorem Memory.writeAll_wf : ∀ (vs : List Byte) (m : Memory) (a : Nat), Memory.wf m = true →
    Memory.wf (m.writeAll a vs) = true
  | [], _, _, h => h
  | v :: vs, m, a, h => Memory.writeAll_wf vs (m.write a v) (a + 1) (Memory.write_wf m a v h)

/-- Reading after writing consecutive bytes. -/
theorem Memory.read_writeAll : ∀ (vs : List Byte) (m : Memory) (a b : Nat), Memory.wf m = true →
    (m.writeAll a vs).read b = if a ≤ b ∧ b < a + vs.length then vs.getD (b - a) 0 else m.read b
  | [], m, a, b, _ => by
    have : ¬ (a ≤ b ∧ b < a + ([] : List Byte).length) := by simp only [List.length_nil]; omega
    rw [if_neg this]; rfl
  | v :: vs, m, a, b, h => by
    have ih := Memory.read_writeAll vs (m.write a v) (a + 1) b (Memory.write_wf m a v h)
    show ((m.write a v).writeAll (a + 1) vs).read b = _
    rw [ih]
    by_cases hb : a = b
    · subst hb
      have h1 : ¬ (a + 1 ≤ a ∧ a < a + 1 + vs.length) := by omega
      have h2 : a ≤ a ∧ a < a + (v :: vs).length := by simp only [List.length_cons]; omega
      rw [if_neg h1, if_pos h2]
      simp [Memory.read_write_self m a v h]
    · by_cases hr : a + 1 ≤ b ∧ b < a + 1 + vs.length
      · have h2 : a ≤ b ∧ b < a + (v :: vs).length := by simp only [List.length_cons]; omega
        have h3 : b - a = (b - (a + 1)) + 1 := by omega
        rw [if_pos hr, if_pos h2, h3, List.getD_cons_succ]
      · have h2 : ¬ (a ≤ b ∧ b < a + (v :: vs).length) := by simp only [List.length_cons]; omega
        rw [if_neg hr, if_neg h2, Memory.read_write_ne m v h hb]

theorem writeCell_wf (m : Memory) (c : CellIx) (k : Nat) (bs : List Byte) (h : Memory.wf m = true) :
    Memory.wf (writeCell m c k bs) = true := Memory.writeAll_wf bs m _ h

/-- What a write of some bytes of a cell leaves alone: every offset but theirs. -/
theorem read_writeCell_outside (m : Memory) (c : CellIx) (k : Nat) (bs : List Byte) (b : Nat) (h : Memory.wf m = true)
    (hb : ¬ (cellBase c + k ≤ b ∧ b < cellBase c + k + bs.length)) : (writeCell m c k bs).read b = m.read b := by
  unfold writeCell; rw [Memory.read_writeAll bs m _ b h, if_neg hb]

theorem setCellState_wf (m : Memory) (c : CellIx) (x : Byte) (h : Memory.wf m = true) :
    Memory.wf (setCellState m c x) = true := writeCell_wf _ _ _ _ h

theorem doneCell_wf (m : Memory) (c : CellIx) (code : ResultCode) (d : Word) (t : Seconds) (h : Memory.wf m = true) :
    Memory.wf (doneCell m c code d t) = true :=
  setCellState_wf _ _ _ (writeCell_wf _ _ _ _ (writeCell_wf _ _ _ _ (writeCell_wf _ _ _ _ h)))

theorem bytesOf16_length (w : Word) : (bytesOf16 w).length = 2 := rfl

/-- The bytes a result writes: 0x00, 0x03, 0x06, 0x07, 0x0A and 0x0B of its cell; every other offset reads as before. -/
theorem read_doneCell_outside (m : Memory) (c : CellIx) (code : ResultCode) (d : Word) (t : Seconds) (b : Nat)
    (h : Memory.wf m = true)
    (hb : ∀ k, k = 0 ∨ k = 3 ∨ k = 6 ∨ k = 7 ∨ k = 0x0A ∨ k = 0x0B → b ≠ cellBase c + k) :
    (doneCell m c code d t).read b = m.read b := by
  have h0 := hb 0 (by simp); have h3 := hb 3 (by simp); have h6 := hb 6 (by simp); have h7 := hb 7 (by simp)
  have hA := hb 0x0A (by simp); have hB := hb 0x0B (by simp)
  have w1 := writeCell_wf m c 3 [code.code] h
  have w2 := writeCell_wf _ c 6 (bytesOf16 d) w1
  have w3 := writeCell_wf _ c 0x0A (bytesOf16 (t.setWidth 16)) w2
  unfold doneCell setCellState
  rw [read_writeCell_outside _ c 0 _ b w3 (by simp only [List.length_cons, List.length_nil]; omega),
    read_writeCell_outside _ c 0x0A _ b w2 (by simp only [bytesOf16_length]; omega),
    read_writeCell_outside _ c 6 _ b w1 (by simp only [bytesOf16_length]; omega),
    read_writeCell_outside _ c 3 _ b h (by simp only [List.length_cons, List.length_nil]; omega)]

theorem reset_mem_wf : Memory.wf State.reset.mem = true := rfl

end Sys2Proof.Machine
end

