-- ==== Sys2Proof/Laws/Keeps.lean ====
section
/-! SUPPORT. Every shared operation of an event keeps what Safety.lean's `Keeps` names. -/

namespace Sys2Proof.Machine

theorem Keeps.refl (s : State) : Keeps s s where
  core := rfl
  summary := BitVec.and_self
  taken := fun _ h => h
  lost := fun _ h h' => absurd h h'
  call := fun _ => rfl
  pos := fun _ => rfl
  extendCell := fun _ => .inl rfl
  prt := fun _ => rfl
  lamp := fun _ => rfl
  link := fun _ => rfl
  queue := fun _ => List.prefix_refl _
  wf := fun h => h
  mem := fun _ _ _ => rfl
  place := fun _ _ => rfl
  still := fun _ _ _ _ _ => rfl
  slots := fun h => h
  board := fun h => absurd rfl h

/-- A flag that an event leaves set. -/
theorem State.flag_mono {s t : State} (h : s.regs.summary &&& t.regs.summary = s.regs.summary) {f : Flag}
    (hf : s.flag f = true) : t.flag f = true := by
  unfold State.flag at *
  simp only [bne_iff_ne, ne_eq] at *
  intro h2
  apply hf
  rw [← h, BitVec.and_assoc, h2]
  exact BitVec.and_zero

theorem Keeps.trans {s t u : State} (h : Keeps s t) (k : Keeps t u) : Keeps s u where
  core := k.core.trans h.core
  summary := by
    have h1 := h.summary; have h2 := k.summary
    calc s.regs.summary &&& u.regs.summary
        = (s.regs.summary &&& t.regs.summary) &&& u.regs.summary := by rw [h1]
      _ = s.regs.summary &&& (t.regs.summary &&& u.regs.summary) := BitVec.and_assoc ..
      _ = s.regs.summary := by rw [h2, h1]
  taken := fun c hc => h.taken c (k.taken c hc)
  lost := fun c hs hu => by
    by_cases ht : c ∈ t.taker.taken
    · obtain ⟨p, hp, hn⟩ := k.lost c ht hu
      rcases h.extendCell p with e | e
      · exact ⟨p, by rw [← e, hp], hn⟩
      · rw [e] at hp; cases hp
    · obtain ⟨p, hp, hn⟩ := h.lost c hs ht
      rcases k.extendCell p with e | e
      · exact ⟨p, hp, by rw [e, hn]⟩
      · exact ⟨p, hp, e⟩
  call := fun i => (k.call i).trans (h.call i)
  pos := fun i => (k.pos i).trans (h.pos i)
  extendCell := fun p => by
    rcases k.extendCell p with e | e
    · rw [e]; exact h.extendCell p
    · exact .inr e
  prt := fun i => (k.prt i).trans (h.prt i)
  lamp := fun i => (k.lamp i).trans (h.lamp i)
  link := fun i => (k.link i).trans (h.link i)
  queue := fun l => (h.queue l).trans (k.queue l)
  wf := fun w => k.wf (h.wf w)
  mem := fun w a ha => by
    rw [k.mem (h.wf w) a, h.mem w a ha]
    rintro ⟨p, c, hp, hc⟩
    rcases h.extendCell p with e | e
    · exact ha ⟨p, c, by rw [← e, hp], hc⟩
    · rw [e] at hp; cases hp
  place := fun w c => by rw [k.place (h.wf w) c, h.place w c]
  still := fun w c hc j hj => by rw [k.still (h.wf w) c hc j hj, h.still w c (k.taken c hc) j hj]
  slots := fun f => k.slots (h.slots f)
  board := fun hb => by
    by_cases e : t.boardRev = s.boardRev
    · exact k.board (by rw [e]; exact hb)
    · exact State.flag_mono k.summary (h.board e)

/-- A change of one call record that leaves the identity fields alone, between states that are both FREE or both
not. -/
theorem Keeps.setCall' (s : State) (i : Slot) (c : Call) (h : c.identity = (s.call i).identity)
    (hs : c.state = .free ↔ (s.call i).state = .free) : Keeps s (s.setCall i c) :=
  { Keeps.refl s with
    call := fun j => by
      rw [State.call_setCall]; split
      · next e => rw [← e]; exact h
      · rfl
    slots := fun ⟨hn, hf⟩ => ⟨hn, fun j => by
      rw [State.call_setCall]; split
      · next e => subst e; rw [hs]; exact hf _
      · exact hf _⟩ }

/-- A change of one call record that leaves the identity fields and the state alone. -/
theorem Keeps.setCall (s : State) (i : Slot) (c : Call)
    (h : (c.identity, c.state) = ((s.call i).identity, (s.call i).state)) : Keeps s (s.setCall i c) :=
  Keeps.setCall' s i c (congrArg Prod.fst h) (by rw [show c.state = _ from congrArg Prod.snd h])

/-- A change of one panel that leaves its core and its EXTEND in flight alone. -/
theorem Keeps.setPos (s : State) (p : Pos) (q : Position) (h : q.core = (s.pos p).core)
    (hx : q.extendCell = (s.pos p).extendCell) : Keeps s (s.setPos p q) :=
  { Keeps.refl s with
    lost := fun _ h h' => absurd h h'
    pos := fun j => by
      rw [State.pos_setPos]; split
      · next e => rw [← e]; exact h
      · rfl
    extendCell := fun j => by
      rw [State.pos_setPos]; split
      · next e => rw [← e]; exact .inl hx
      · exact .inl rfl }

theorem Keeps.setPrt (s : State) (p : Part) (q : Partition) (h : q.core = (s.prt p).core) : Keeps s (s.setPrt p q) :=
  { Keeps.refl s with
    prt := fun j => by
      rw [State.prt_setPrt]; split
      · next e => rw [← e]; exact h
      · rfl }

theorem Keeps.setLamp (s : State) (k : Circuit) (q : Lamp) (h : q.core = (s.lamp k).core) : Keeps s (s.setLamp k q) :=
  { Keeps.refl s with
    lamp := fun j => by
      rw [State.lamp_setLamp]; split
      · next e => rw [← e]; exact h
      · rfl }

theorem Keeps.setLink (s : State) (l : LinkIx) (q : Link) (h : q.core = (s.link l).core)
    (hq : (s.link l).queue <+: q.queue) : Keeps s (s.setLink l q) :=
  { Keeps.refl s with
    link := fun j => by
      rw [State.link_setLink]; split
      · next e => rw [← e]; exact h
      · rfl
    queue := fun j => by
      rw [State.link_setLink]; split
      · next e => rw [← e]; exact hq
      · exact List.prefix_refl _ }

theorem Keeps.setRing (s : State) (k : Circuit) (n : Nat) : Keeps s (s.setRing k n) := { Keeps.refl s with }

theorem State.flag_raise (s : State) (f : Flag) : (s.raise f).flag f = true := by
  unfold State.flag
  rw [State.raise_summary]
  generalize s.regs.summary = x
  cases f <;> (revert x; decide)

theorem Keeps.raise (s : State) (f : Flag) : Keeps s (s.raise f) :=
  { Keeps.refl s with
    slots := fun h => h
    board := fun h => absurd rfl h
    summary := by
      rw [State.raise_summary]
      ext i
      simp only [BitVec.getElem_and, BitVec.getElem_or]
      cases s.regs.summary[i] <;> simp }

/-! ### Small operations

Each lemma says: when everything so far has kept what stood at `s`, so has one more operation. -/

section Chain

variable {s : State} {e : Event}

theorem Event.foldl_keeps {α : Type} {f : Event → α → Event} (h : ∀ e x, Keeps s e.st → Keeps s (f e x).st)
    {xs : List α} (k : Keeps s e.st) : Keeps s (xs.foldl f e).st := by
  induction xs generalizing e with
  | nil => exact k
  | cons x xs ih => exact ih (h e x k)

theorem Event.updCall_keeps {i : Slot} {f : Call → Call} (k : Keeps s e.st)
    (h : ∀ c, ((f c).identity, (f c).state) = (c.identity, c.state)) :
    Keeps s (e.updCall i f).st := k.trans (Keeps.setCall _ _ _ (h _))

theorem Event.updPos_keeps {p : Pos} {f : Position → Position} (k : Keeps s e.st) (h : ∀ q, (f q).core = q.core)
    (hx : ∀ q, (f q).extendCell = q.extendCell) : Keeps s (e.updPos p f).st := k.trans (Keeps.setPos _ _ _ (h _) (hx _))

theorem Event.updPrt_keeps {p : Part} {f : Partition → Partition} (k : Keeps s e.st) (h : ∀ q, (f q).core = q.core) :
    Keeps s (e.updPrt p f).st := k.trans (Keeps.setPrt _ _ _ (h _))

theorem Event.updLamp_keeps {c : Circuit} {f : Lamp → Lamp} (k : Keeps s e.st) (h : ∀ q, (f q).core = q.core) :
    Keeps s (e.updLamp c f).st := k.trans (Keeps.setLamp _ _ _ (h _))

theorem Event.updLink_keeps {l : LinkIx} {f : Link → Link} (k : Keeps s e.st) (h : ∀ q, (f q).core = q.core)
    (hq : ∀ q : Link, q.queue <+: (f q).queue) : Keeps s (e.updLink l f).st := k.trans (Keeps.setLink _ _ _ (h _) (hq _))

theorem Event.raise_keeps {f : Flag} (k : Keeps s e.st) : Keeps s (e.upd fun s => s.raise f).st := k.trans (Keeps.raise _ _)

theorem Event.ring_keeps {c : Circuit} {n : State → Nat} (k : Keeps s e.st) :
    Keeps s (e.upd fun s => s.setRing c (n s)).st := k.trans (Keeps.setRing _ _ _)

theorem Event.upd_keeps {f : State → State} (k : Keeps s e.st) (h : ∀ t, Keeps t (f t)) : Keeps s (e.upd f).st :=
  k.trans (h _)

theorem Event.ite_keeps {c : Prop} [Decidable c] {a b : Event} (ha : c → Keeps s a.st) (hb : ¬ c → Keeps s b.st) :
    Keeps s (if c then a else b).st := by
  split
  · next h => exact ha h
  · next h => exact hb h

theorem Event.rosterMoved_keeps {p : Part} (k : Keeps s e.st) : Keeps s (e.rosterMoved p).st := k
theorem Event.wantPass_keeps {p : Part} (k : Keeps s e.st) : Keeps s (e.wantPass p).st := k
theorem Event.gain_keeps {p : Part} (k : Keeps s e.st) : Keeps s (e.gain p).st := k
theorem Event.look_keeps {c : Circuit} (k : Keeps s e.st) : Keeps s (e.look c).st := k

theorem Event.letGo_keeps {c : Call} (k : Keeps s e.st) : Keeps s (e.letGo c).st := by
  unfold Event.letGo; split
  · exact Event.ite_keeps (fun _ => k) (fun _ => k)
  · exact k

theorem Event.note_keeps {i : Option Slot} {o : ShelfOrder} (k : Keeps s e.st) : Keeps s (e.note i o).st := by
  unfold Event.note; split <;> exact k

theorem Event.refuse_keeps {m : Issue} {i : Option Slot} {o : ShelfOrder} {h l : Bool} (k : Keeps s e.st) :
    Keeps s (e.refuse m i o h l).st := by
  unfold Event.refuse; split
  · exact Event.ite_keeps (fun _ => k) (fun _ => k)
  · exact k

theorem Event.letGo_st (e : Event) (c : Call) : (e.letGo c).st = e.st := by
  unfold Event.letGo; split
  · split <;> rfl
  · rfl

theorem Event.toState_keeps {i : Slot} {st : CallState} (k : Keeps s e.st) (hst : st ≠ .free := by decide) :
    Keeps s (e.toState i st).st := by
  unfold Event.toState
  dsimp only
  split
  · exact k
  · next hf =>
    have hi : (if (st.keepsTarget && st != .free) = true then e else e.letGo (e.st.call i)).st = e.st := by
      split
      · rfl
      · exact Event.letGo_st _ _
    simp only [Event.upd, hi]
    exact k.trans (Keeps.setCall' _ _ _ rfl (by simp only [Call.enter]; exact iff_of_false hst hf))

theorem Event.startTimer_keeps {i : Slot} {t : TimerKind} {n : Nat} (k : Keeps s e.st) :
    Keeps s (e.startTimer i t n).st := k.trans (Keeps.setCall _ _ _ rfl)

theorem Event.dropTarget_keeps {i : Slot} (k : Keeps s e.st) : Keeps s (e.dropTarget i).st :=
  Event.updCall_keeps (Event.letGo_keeps k) fun _ => rfl

theorem Event.enqueue_keeps {i : Option Slot} {o : ShelfOrder} {h : Bool} (k : Keeps s e.st) :
    Keeps s (e.enqueue i o h).st := by
  unfold Event.enqueue
  dsimp only
  have k1 := Event.updLink_keeps (l := linkOf o.first)
    (f := fun q => { q with queue := q.queue ++ [{ order := o, slot := i, handover := h }] }) k
    (fun _ => rfl) (fun _ => List.prefix_append _ _)
  have k2 := fun j => Event.updCall_keeps (i := j) (f := fun x => { x with pending := x.pending + 1 }) k1 fun _ => rfl
  cases i
  · exact Event.ite_keeps (fun _ => Event.ring_keeps k1) (fun _ => k1)
  · exact Event.ite_keeps (fun _ => Event.ring_keeps (k2 _)) (fun _ => k2 _)

theorem Event.issueAs_keeps {m : Issue} {i : Option Slot} {o : ShelfOrder} {h : Bool} (k : Keeps s e.st) :
    Keeps s (e.issueAs m i o h).st := by
  unfold Event.issueAs
  dsimp only
  have k1 := Event.note_keeps (i := i) (o := o) k
  exact Event.ite_keeps (fun _ => k1) fun _ => Event.ite_keeps (fun _ => Event.refuse_keeps k1) fun _ =>
    Event.ite_keeps (fun _ => Event.enqueue_keeps k1) fun _ => Event.refuse_keeps k1

theorem Event.issue_keeps {i : Slot} {o : ShelfOrder} (k : Keeps s e.st) : Keeps s (e.issue i o).st := Event.issueAs_keeps k
theorem Event.issueAll_keeps {how : Issue} {i : Slot} {os : List ShelfOrder} (k : Keeps s e.st) :
    Keeps s (e.issueAll how i os).st := Event.foldl_keeps (fun _ _ => Event.issueAs_keeps) k
theorem Event.issueList_keeps {i : Slot} {os : List ShelfOrder} (k : Keeps s e.st) : Keeps s (e.issueList i os).st :=
  Event.issueAll_keeps k
theorem Event.issueSpared_keeps {i : Slot} {os : List ShelfOrder} (k : Keeps s e.st) : Keeps s (e.issueSpared i os).st :=
  Event.issueAll_keeps k
theorem Event.issueTeardown_keeps {i : Slot} {os : List ShelfOrder} (k : Keeps s e.st) :
    Keeps s (e.issueTeardown i os).st := Event.issueAll_keeps k

end Chain

/-! ### Results -/

theorem withCellState_high (b x : Byte) (h : x.toNat < 16) : (withCellState b x).toNat / 16 = b.toNat / 16 := by
  have hx : x.toNat / 16 = 0 := by omega
  unfold withCellState
  rw [BitVec.toNat_or, BitVec.toNat_and]
  have e : (0xF0 : Byte).toNat = 15 * 2 ^ 4 := rfl
  have d (n : Nat) : n / 16 = n >>> 4 := by rw [Nat.shiftRight_eq_div_pow]
  rw [d] at hx
  rw [d, d, Nat.shiftRight_or_distrib, hx, Nat.or_zero, Nat.shiftRight_and_distrib, e]
  have f : (15 * 2 ^ 4) >>> 4 = 2 ^ 4 - 1 := rfl
  rw [f, Nat.and_two_pow_sub_one_eq_mod, Nat.mod_eq_of_lt]
  rw [Nat.shiftRight_eq_div_pow]
  have := b.isLt
  omega

theorem cellBase_disjoint {c d : CellIx} {j k : Nat} (hj : j < 32) (hk : k < 32) (h : c ≠ d) :
    cellBase c + j ≠ cellBase d + k := by
  have : c.val ≠ d.val := fun e => h (Fin.ext e)
  unfold cellBase; omega

theorem cellByte_setCellState_zero (m : Memory) (c : CellIx) (x : Byte) (h : Memory.wf m = true) :
    cellByte (setCellState m c x) c 0 = withCellState (cellByte m c 0) x := by
  unfold setCellState writeCell cellByte
  rw [Memory.read_writeAll _ _ _ _ h, if_pos (by simp)]
  simp

theorem cellPosition_doneCell (m : Memory) (c d : CellIx) (code : ResultCode) (x : Word) (t : Seconds)
    (h : Memory.wf m = true) : cellPosition (doneCell m c code x t) d = cellPosition m d := by
  unfold cellPosition
  by_cases e : c = d
  · subst e
    have w1 := writeCell_wf m c 3 [code.code] h
    have w2 := writeCell_wf _ c 6 (bytesOf16 x) w1
    have w3 := writeCell_wf _ c 0x0A (bytesOf16 (t.setWidth 16)) w2
    have key : cellByte (doneCell m c code x t) c 0 = withCellState (cellByte m c 0) 3 := by
      unfold doneCell
      rw [cellByte_setCellState_zero _ _ _ w3]
      congr 1
      show Memory.read _ (cellBase c + 0) = Memory.read m (cellBase c + 0)
      rw [read_writeCell_outside _ c 0x0A _ _ w2 (by simp only [bytesOf16_length]; omega),
        read_writeCell_outside _ c 6 _ _ w1 (by simp only [bytesOf16_length]; omega),
        read_writeCell_outside _ c 3 _ _ h (by simp only [List.length_cons, List.length_nil]; omega)]
    rw [key, withCellState_high _ _ (by decide)]
  · have key : cellByte (doneCell m c code x t) d 0 = cellByte m d 0 := by
      apply read_doneCell_outside m c code x t _ h
      intro k hk
      exact cellBase_disjoint (by omega) (by omega) (fun h => e h.symm)
    rw [key]

/-- The result of an order in a cell changes nothing but its result bytes, the set of taken cells and the Order flag. -/
theorem State.answer_outside (s : State) (c : CellIx) (code : ResultCode) (d : Word) (a : Nat)
    (h : Memory.wf s.mem = true) (ha : ¬ resultByte c a) : (s.answer c code d).mem.read a = s.mem.read a :=
  read_doneCell_outside _ _ _ _ _ _ h fun k hk e => ha (by unfold resultByte; omega)

/-- A panel's and a call's EXTEND fields made absent. -/
theorem State.clearExtend_keeps (t : State) (p : Pos) (i : Slot) :
    Keeps t ((t.setPos p { t.pos p with extend := none, extendCell := none }).setCall i
      { t.call i with extend := none }) := by
  refine Keeps.trans (t := t.setPos p { t.pos p with extend := none, extendCell := none }) ?_ (Keeps.setCall _ _ _ rfl)
  exact { Keeps.refl t with
    lost := fun _ h h' => absurd h h'
    pos := fun j => by
      rw [State.pos_setPos]; split
      · next h => rw [← h]; rfl
      · rfl
    extendCell := fun j => by
      rw [State.pos_setPos]; split
      · exact .inr rfl
      · exact .inl rfl }

/-- An order's result written for the EXTEND in flight at a position that has let it go. -/
theorem Keeps.done {t u : State} (k : Keeps t u) {p : Pos} {c : CellIx} (code : ResultCode) (d : Word)
    (h : (u.mem, u.taker, u.regs, u.boardRev) = (t.mem, t.taker, t.regs, t.boardRev))
    (hc : (t.pos p).extendCell = some c) (hp : (u.pos p).extendCell = none) : Keeps t (u.answer c code d) := by
  simp only [Prod.mk.injEq] at h
  obtain ⟨hm, ht, hr, hb⟩ := h
  have r := Keeps.raise t .order
  exact {
    core := k.core
    summary := by
      have e : (u.answer c code d).regs.summary = (t.raise .order).regs.summary := by
        show u.regs.summary ||| _ = t.regs.summary ||| _
        rw [hr]
      rw [e]; exact r.summary
    taken := fun x hx => by rw [← ht]; exact List.mem_of_mem_filter hx
    lost := fun x hx hn => by
      have hxc : x = c := by
        by_contra hne
        exact hn (List.mem_filter.mpr ⟨by rw [ht]; exact hx, by simpa using hne⟩)
      exact ⟨p, by rw [hxc, hc], hp⟩
    call := k.call
    pos := k.pos
    extendCell := k.extendCell
    prt := k.prt
    lamp := k.lamp
    link := k.link
    queue := k.queue
    wf := fun w => doneCell_wf _ _ _ _ _ (k.wf w)
    mem := fun w a ha => by
      rw [State.answer_outside u c code d a (k.wf w) fun x => ha ⟨p, c, hc, x⟩, hm]
    place := fun w x => (cellPosition_doneCell _ _ _ _ _ _ (k.wf w)).trans (k.place w x)
    still := fun w x hx n hn => by
      have hxc : x ≠ c := by
        have := (List.mem_filter.mp hx).2
        simpa using this
      have e : cellByte (u.answer c code d).mem x n = cellByte u.mem x n :=
        read_doneCell_outside _ _ _ _ _ _ (k.wf w) fun j hj => cellBase_disjoint hn (by omega) hxc
      rw [e, hm]
    slots := k.slots
    board := fun x => absurd hb x }

/-- Answering an EXTEND and then making its fields absent is the same as doing both in the other order. -/
theorem State.answer_clear (t : State) (p : Pos) (i : Slot) (c : CellIx) (code : ResultCode) (d : Word) :
    (((t.answer c code d).setPos p { (t.answer c code d).pos p with extend := none, extendCell := none }).setCall i
      { (t.answer c code d).call i with extend := none }) =
    ((t.setPos p { t.pos p with extend := none, extendCell := none }).setCall i
      { t.call i with extend := none }).answer c code d := rfl

theorem Event.answerExtend_keeps (e : Event) (p : Pos) (i : Slot) (code : ResultCode) :
    Keeps e.st (e.answerExtend p i code).st := by
  unfold Event.answerExtend
  cases hc : (e.st.pos p).extendCell with
  | none => exact State.clearExtend_keeps e.st p i
  | some c =>
    have h := (State.clearExtend_keeps e.st p i).done code 0 rfl hc
      (by show ((e.st.setPos p _).pos p).extendCell = none; rw [State.pos_setPos_self])
    rw [← State.answer_clear] at h
    exact h

section Chain

variable {s : State} {e : Event}

theorem Event.answerExtend_chain {p : Pos} {i : Slot} {code : ResultCode} (k : Keeps s e.st) :
    Keeps s (e.answerExtend p i code).st := k.trans (e.answerExtend_keeps p i code)

theorem Event.answerExtendOf_keeps {i : Slot} {code : ResultCode} (k : Keeps s e.st) :
    Keeps s (e.answerExtendOf i code).st := by
  unfold Event.answerExtendOf; dsimp only; split
  · exact Event.answerExtend_chain k
  · exact k

/-! ### Loops and camp lists -/

theorem Event.leaveLoop_keeps {i : Slot} (k : Keeps s e.st) : Keeps s (e.leaveLoop i).st := by
  unfold Event.leaveLoop; dsimp only; split
  · exact Event.updPos_keeps k (fun q => by split <;> rfl) (fun q => by split <;> rfl)
  · exact k

theorem Event.placeOnLoop_keeps {i : Slot} {p : Pos} {l : LoopIx} (k : Keeps s e.st) :
    Keeps s (e.placeOnLoop i p l).st :=
  Event.updPos_keeps (Event.updCall_keeps (Event.toState_keeps k) fun _ => rfl) (fun _ => rfl) fun _ => rfl

theorem Event.leaveCamp_keeps {i : Slot} (k : Keeps s e.st) : Keeps s (e.leaveCamp i).st := by
  unfold Event.leaveCamp; split
  · exact Event.updCall_keeps (Event.updLamp_keeps k fun _ => rfl) fun _ => rfl
  · exact k

theorem Event.camp_keeps {i : Slot} {t : Target} (k : Keeps s e.st) : Keeps s (e.camp i t).st := by
  unfold Event.camp
  exact Event.ite_keeps (fun _ => k) fun _ => Event.startTimer_keeps
    (Event.updLamp_keeps (Event.updCall_keeps (Event.toState_keeps k) fun _ => rfl) fun _ => rfl)

/-! ### Estimates and rosters -/

theorem Event.passMember_keeps {p : Part} {i : Slot} (k : Keeps s e.st) : Keeps s (e.passMember p i).st := by
  unfold Event.passMember; dsimp only; split
  · exact Event.updCall_keeps k fun _ => rfl
  · exact k

theorem Event.pass_keeps {p : Part} (k : Keeps s e.st) : Keeps s (e.pass p).st :=
  Event.updPrt_keeps (Event.foldl_keeps (fun _ _ => Event.passMember_keeps) k) fun _ => rfl

theorem Event.runPasses_keeps (k : Keeps s e.st) : Keeps s e.runPasses.st :=
  Event.foldl_keeps (fun _ _ k => Event.ite_keeps (fun _ => Event.pass_keeps k) fun _ => k) k

theorem Event.alertTest_keeps {p : Part} (k : Keeps s e.st) : Keeps s (e.alertTest p).st := by
  unfold Event.alertTest; dsimp only
  exact Event.ite_keeps
    (fun _ => Event.ite_keeps (fun _ => k) fun _ => Event.raise_keeps (Event.updPrt_keeps k fun _ => rfl))
    fun _ => Event.updPrt_keeps k fun _ => rfl

theorem Event.renumberFrom_keeps {n : Nat} {is : List Slot} (k : Keeps s e.st) : Keeps s (e.renumberFrom n is).st := by
  induction is generalizing e n with
  | nil => exact k
  | cons i is ih => exact ih (Event.updCall_keeps k fun _ => rfl)

theorem Event.renumber_keeps {p : Part} (k : Keeps s e.st) : Keeps s (e.renumber p).st := Event.renumberFrom_keeps k

theorem Event.clearOffer_keeps {i : Slot} (k : Keeps s e.st) : Keeps s (e.clearOffer i).st := by
  unfold Event.clearOffer; split
  · exact Event.ite_keeps (fun _ => Event.updPos_keeps k (fun _ => rfl) fun _ => rfl) fun _ => k
  · exact k

/-- A leave that is no answer: the estimator measures nothing. -/
theorem Event.leaveRoster_keeps {i : Slot} (k : Keeps s e.st) : Keeps s (e.leaveRoster i false).st := by
  unfold Event.leaveRoster
  extract_lets c p e1 e2 e3 e4 left e5
  refine Event.ite_keeps (fun _ => ?_) fun _ => k
  have k1 : Keeps s e1.st := Event.ite_keeps (fun _ => Event.clearOffer_keeps k) fun _ => k
  have k2 : Keeps s e2.st := Event.updPrt_keeps k1 fun _ => rfl
  have k3 : Keeps s e3.st := Event.renumber_keeps k2
  have k4 : Keeps s e4.st := Event.updCall_keeps k3 fun _ => rfl
  have k5 : Keeps s e5.st := Event.ite_keeps (fun h => absurd h (by decide)) fun _ =>
    Event.ite_keeps (fun _ => k4) fun _ => Event.updPrt_keeps k4 fun _ => rfl
  exact Event.alertTest_keeps (Event.rosterMoved_keeps k5)

theorem Event.enterRoster_keeps {i : Slot} {cls : CallClass} (k : Keeps s e.st) :
    Keeps s (e.enterRoster i cls).st := by
  unfold Event.enterRoster
  extract_lets p roster e1 members e2 e3 e4 e5 wait e6
  refine Event.ite_keeps (fun _ => k) fun _ => ?_
  have k1 : Keeps s e1.st := Event.ite_keeps (fun _ => Event.updPrt_keeps k fun _ => rfl) fun _ => k
  have k2 : Keeps s e2.st := Event.updPrt_keeps k1 fun _ => rfl
  have k3 : Keeps s e3.st := Event.toState_keeps k2
  have k4 : Keeps s e4.st := Event.updCall_keeps k3 fun _ => rfl
  have k5 : Keeps s e5.st := Event.renumber_keeps k4
  have k6 : Keeps s e6.st := Event.ite_keeps
    (fun _ => Event.upd_keeps (Event.startTimer_keeps k5) fun _ => Keeps.setCall _ _ _ rfl) fun _ => k5
  exact Event.alertTest_keeps (Event.gain_keeps (Event.rosterMoved_keeps k6))

theorem Event.backToQueue_keeps {i : Slot} (k : Keeps s e.st) : Keeps s (e.backToQueue i).st := by
  unfold Event.backToQueue
  extract_lets c e1 e2
  have k1 : Keeps s e1.st := Event.toState_keeps k
  have k2 : Keeps s e2.st := by
    simp only [e2]; split
    · exact Event.ite_keeps (fun _ => k1) fun _ => Event.updCall_keeps k1 fun _ => rfl
    · exact k1
  exact Event.gain_keeps (Event.rosterMoved_keeps k2)

theorem Event.offer_keeps {i : Slot} {p : Pos} (k : Keeps s e.st) : Keeps s (e.offer i p).st :=
  Event.rosterMoved_keeps (Event.updPos_keeps
    (Event.startTimer_keeps (Event.updCall_keeps (Event.toState_keeps k) fun _ => rfl)) (fun _ => rfl) fun _ => rfl)

theorem Event.stepA_keeps {p : Part} {i : Slot} (k : Keeps s e.st) : Keeps s (e.stepA p i).st := by
  unfold Event.stepA; dsimp only; split
  · exact Event.ite_keeps (fun _ => Event.offer_keeps k) fun _ => k
  · exact k

theorem Event.stepB_keeps {p : Part} {n : Nat} (k : Keeps s e.st) : Keeps s (e.stepB p n).st := by
  induction n generalizing e with
  | zero => exact k
  | succ n ih =>
    unfold Event.stepB; split
    · exact ih (Event.offer_keeps k)
    · exact k

theorem Event.arbiter_keeps {p : Part} (k : Keeps s e.st) : Keeps s (e.arbiter p).st :=
  Event.stepB_keeps (Event.foldl_keeps (fun _ _ => Event.stepA_keeps) k)

theorem Event.testPosition_keeps {x : Pos} (k : Keeps s e.st) : Keeps s (e.testPosition x).st := by
  unfold Event.testPosition
  refine Event.ite_keeps (fun _ => ?_) fun _ => k
  dsimp only
  have k1 : Keeps s (if e.keepIdle.contains x = true then e
      else e.upd fun s => s.setPos x { s.pos x with idleSince := s.seconds }).st :=
    Event.ite_keeps (fun _ => k) fun _ => Event.upd_keeps k fun _ => Keeps.setPos _ _ _ rfl rfl
  split
  · exact Event.gain_keeps k1
  · exact k1

theorem Event.testPositions_keeps (k : Keeps s e.st) : Keeps s e.testPositions.st :=
  Event.foldl_keeps (fun _ _ => Event.testPosition_keeps) k

theorem Event.runArbiters_keeps (k : Keeps s e.st) : Keeps s e.runArbiters.st :=
  Event.foldl_keeps (fun _ _ k => Event.ite_keeps (fun _ => Event.arbiter_keeps k) fun _ => k) k

/-! ### Closing -/

theorem Event.freeSlot_keeps {i : Slot} (k : Keeps s e.st) : Keeps s (e.freeSlot i).st := by
  unfold Event.freeSlot
  extract_lets c e1
  refine Event.ite_keeps (fun _ => ?_) fun _ => k
  have k1 : Keeps s e1.st := Event.letGo_keeps k
  have he : e1.st = e.st := Event.letGo_st _ _
  refine k1.trans ?_
  have hc : c = e1.st.call i := by rw [he]
  refine { Keeps.refl e1.st with
    call := fun j => by
      show ((e1.st.setCall i _).call j).identity = _
      rw [State.call_setCall]; split
      · next h => subst h; rw [hc]; rfl
      · rfl
    slots := fun ⟨hn, hf⟩ => ?_ }
  have hni : i ∉ e1.st.free := by rw [hf, ← hc, ‹c.state = _ ∧ _›.1]; decide
  refine ⟨?_, fun j => ?_⟩
  · show (e1.st.free ++ [i]).Nodup
    exact List.nodup_append.mpr ⟨hn, by simp, by intro a ha b hb; simp at hb; subst hb; exact fun h => hni (h ▸ ha)⟩
  · show j ∈ e1.st.free ++ [i] ↔ ((e1.st.setCall i _).call j).state = .free
    rw [State.call_setCall, List.mem_append, List.mem_singleton, hf]; split
    · next h => subst h; exact iff_of_true (.inr rfl) rfl
    · next h => exact ⟨fun h' => h'.elim id fun h' => absurd h'.symm h, .inl⟩

theorem Event.freeIfDone_keeps {i : Slot} (k : Keeps s e.st) : Keeps s (e.freeIfDone i).st :=
  Event.ite_keeps (fun _ => k) fun _ => Event.freeSlot_keeps k

theorem Event.removeCall_keeps {i : Slot} (k : Keeps s e.st) : Keeps s (e.removeCall i).st := by
  unfold Event.removeCall; dsimp only; split
  · exact Event.leaveRoster_keeps k
  · exact Event.leaveRoster_keeps k
  · exact Event.leaveLoop_keeps k
  · exact Event.leaveLoop_keeps k
  · exact Event.leaveLoop_keeps k
  · exact Event.leaveLoop_keeps k
  · exact Event.ite_keeps (fun _ => Event.issueTeardown_keeps (Event.leaveCamp_keeps k)) fun _ => Event.leaveCamp_keeps k
  · exact k

theorem Event.close_keeps {i : Slot} {why : EndReason} {moved : Bool} (k : Keeps s e.st) :
    Keeps s (e.close i why moved).st := by
  unfold Event.close
  extract_lets c orders done orders2 e1 e2 e3 e4 e5
  refine Event.ite_keeps (fun _ => k) fun _ => ?_
  have k1 : Keeps s e1.st := Event.removeCall_keeps k
  have k2 : Keeps s e2.st := Event.answerExtendOf_keeps k1
  have k3 : Keeps s e3.st := Event.updCall_keeps (Event.toState_keeps k2) fun _ => rfl
  have k4 : Keeps s e4.st := Event.ite_keeps (fun _ => Event.issueTeardown_keeps k3) fun _ => k3
  have k5 : Keeps s e5.st := Event.ite_keeps (fun _ => Event.issueTeardown_keeps k4) fun _ => k4
  exact Event.freeIfDone_keeps k5

theorem Event.pathFault_keeps {i : Slot} (k : Keeps s e.st) : Keeps s (e.pathFault i).st := Event.close_keeps k

theorem Event.handoverFailed_keeps {i : Slot} (k : Keeps s e.st) : Keeps s (e.handoverFailed i).st :=
  Event.issueTeardown_keeps (Event.updCall_keeps k fun _ => rfl)

theorem Event.takeRefusal_keeps {r : Refused} (k : Keeps s e.st) : Keeps s (e.takeRefusal r).st := by
  unfold Event.takeRefusal; dsimp only; split
  · exact k
  · exact Event.ite_keeps (fun _ => Event.handoverFailed_keeps k) fun _ => k
  · exact Event.ite_keeps (fun _ => k) fun _ => Event.pathFault_keeps k

theorem Event.takeRefusals_keeps (k : Keeps s e.st) : Keeps s e.takeRefusals.st :=
  Event.foldl_keeps (fun _ _ => Event.freeIfDone_keeps)
    (Event.foldl_keeps (e := { e with refusals := [] }) (fun _ _ => Event.takeRefusal_keeps) k)

theorem Event.ringHead_keeps {c : Circuit} (k : Keeps s e.st) : Keeps s (e.ringHead c).st := by
  unfold Event.ringHead; split
  · exact Event.ite_keeps (fun _ => k) fun _ => Event.updCall_keeps (Event.issue_keeps k) fun _ => rfl
  · exact k

theorem Event.serveCamps_keeps (k : Keeps s e.st) : Keeps s e.serveCamps.st :=
  Event.foldl_keeps (fun _ _ k => Event.ite_keeps (fun _ => Event.ringHead_keeps k) fun _ => k) k

theorem Event.settle_keeps {n : Nat} (k : Keeps s e.st) : Keeps s (e.settle n).st := by
  induction n generalizing e with
  | zero => exact k
  | succ n ih =>
    unfold Event.settle; dsimp only
    have k1 := Event.serveCamps_keeps (Event.takeRefusals_keeps k)
    exact Event.ite_keeps (fun _ => k1) fun _ => ih k1

/-! ### The end of an event -/

theorem State.lamp_retie (t : State) (k : Circuit) : t.retie.lamp k = { t.lamp k with tied := t.ties.get k } :=
  Table.get_zip _ _ _ _

theorem Event.call_raiseRecords (e : Event) (i : Slot) : e.raiseRecords.call i =
    if e.callRaises.get i then { e.st.call i with rev := (e.st.call i).rev + 1, written := true } else e.st.call i :=
  Table.get_zip _ _ _ _

theorem Event.pos_raiseRecords (e : Event) (p : Pos) : e.raiseRecords.pos p =
    if e.posRaises.get p then { e.st.pos p with rev := (e.st.pos p).rev + 1, written := true } else e.st.pos p :=
  Table.get_zip _ _ _ _

theorem Event.prt_raiseRecords (e : Event) (p : Part) : e.raiseRecords.prt p =
    if e.prtRaises.get p then { e.st.prt p with rev := (e.st.prt p).rev + 1 } else e.st.prt p :=
  Table.get_zip _ _ _ _

theorem Event.lamp_raiseRecords (e : Event) (k : Circuit) : e.raiseRecords.lamp k =
    if e.lampRaises.get k then { e.st.lamp k with rev := (e.st.lamp k).rev + 1 } else e.st.lamp k :=
  Table.get_zip _ _ _ _

theorem Event.link_raiseRecords (e : Event) (l : LinkIx) : e.raiseRecords.link l =
    if e.linkRaises.get l then { e.st.link l with rev := (e.st.link l).rev + 1 } else e.st.link l :=
  Table.get_zip _ _ _ _

theorem State.retie_keeps (t : State) : Keeps t t.retie :=
  { Keeps.refl t with lamp := fun i => by rw [State.lamp_retie]; rfl }

theorem Event.raiseRecords_keeps (e : Event) : Keeps e.st e.raiseRecords :=
  { Keeps.refl e.st with
    lost := fun _ h h' => absurd h h'
    slots := fun ⟨hn, hf⟩ => ⟨hn, fun i => by rw [Event.call_raiseRecords]; split <;> exact hf i⟩
    call := fun i => by rw [Event.call_raiseRecords]; split <;> rfl
    pos := fun i => by rw [Event.pos_raiseRecords]; split <;> rfl
    extendCell := fun i => by rw [Event.pos_raiseRecords]; split <;> exact .inl rfl
    prt := fun i => by rw [Event.prt_raiseRecords]; split <;> rfl
    lamp := fun i => by rw [Event.lamp_raiseRecords]; split <;> rfl
    link := fun i => by rw [Event.link_raiseRecords]; split <;> rfl
    queue := fun i => by rw [Event.link_raiseRecords]; split <;> exact List.prefix_refl _ }

theorem State.bumpBoard_keeps (t : State) (n : Nat) : Keeps t (t.bumpBoard n) := by
  unfold State.bumpBoard; split
  · exact Keeps.refl _
  · exact { Keeps.raise t .board with
      slots := fun h => h
      board := fun _ => State.flag_raise _ _ }

theorem Event.commit_keeps (k : Keeps s e.st) : Keeps s e.commit :=
  ((k.trans (State.retie_keeps _)).trans (Event.raiseRecords_keeps (e.upd State.retie))).trans (State.bumpBoard_keeps _ _)

/-- What the end of an event leaves as it was. -/
theorem Event.finish_keeps (k : Keeps s e.st) : Keeps s e.finish :=
  Event.commit_keeps (Event.runPasses_keeps (Event.runArbiters_keeps (Event.testPositions_keeps (Event.settle_keeps k))))

/-! ### Routing -/

theorem Event.congest_keeps {i : Slot} {how : Issue} (k : Keeps s e.st) : Keeps s (e.congest i how).st :=
  Event.close_keeps (Event.issueAll_keeps k)

theorem Event.fallback_keeps {i : Slot} {how : Issue} (k : Keeps s e.st) : Keeps s (e.fallback i how).st := by
  unfold Event.fallback; dsimp only; split
  · exact Event.startTimer_keeps (Event.updCall_keeps (Event.toState_keeps (Event.issueAll_keeps k)) fun _ => rfl)
  · exact Event.congest_keeps k

theorem Event.ringback_keeps {i : Slot} {how : Issue} (k : Keeps s e.st) : Keeps s (e.ringback i how).st :=
  Event.issueAll_keeps k

theorem Event.joinRoster_keeps {i : Slot} {cls : CallClass} {how : Issue} (k : Keeps s e.st) :
    Keeps s (e.joinRoster i cls how).st := by
  unfold Event.joinRoster; dsimp only
  exact Event.ite_keeps (fun _ => Event.congest_keeps k) fun _ => Event.ite_keeps (fun _ => Event.fallback_keeps k) fun _ =>
    Event.ite_keeps (fun _ => Event.fallback_keeps k) fun _ => Event.ringback_keeps (Event.enterRoster_keeps k)

theorem Event.overflow_keeps {i : Slot} (k : Keeps s e.st) : Keeps s (e.overflow i).st := by
  unfold Event.overflow
  extract_lets p e1
  have k1 : Keeps s e1.st := Event.updCall_keeps k fun _ => rfl
  split
  · exact Event.ite_keeps
      (fun _ => Event.joinRoster_keeps (Event.updCall_keeps k1 fun _ => rfl))
      fun _ => Event.fallback_keeps k1
  · exact Event.fallback_keeps k1

theorem Event.waitOver_keeps {i : Slot} (k : Keeps s e.st) : Keeps s (e.waitOver i).st :=
  Event.overflow_keeps (Event.leaveRoster_keeps k)

theorem Event.returnCall_keeps {i : Slot} (k : Keeps s e.st) : Keeps s (e.returnCall i).st := by
  unfold Event.returnCall; dsimp only
  exact Event.ite_keeps (fun _ => Event.waitOver_keeps (Event.backToQueue_keeps k)) fun _ => Event.backToQueue_keeps k

theorem Event.withdraw_keeps {p : Pos} (k : Keeps s e.st) : Keeps s (e.withdraw p).st := by
  unfold Event.withdraw; split
  · exact Event.returnCall_keeps (Event.updPos_keeps k (fun _ => rfl) fun _ => rfl)
  · exact k

theorem Event.withdrawForNight_keeps {i : Slot} (k : Keeps s e.st) : Keeps s (e.withdrawForNight i).st := by
  unfold Event.withdrawForNight; split
  · next p _ =>
    exact Event.backToQueue_keeps (Event.updPos_keeps (e := { e with keepIdle := e.keepIdle ++ [p] }) k (fun _ => rfl)
      fun _ => rfl)
  · exact Event.backToQueue_keeps k

theorem Event.nightRoute_keeps {i : Slot} (k : Keeps s e.st) : Keeps s (e.nightRoute i).st := by
  unfold Event.nightRoute
  extract_lets e1 c number
  have k1 : Keeps s e1.st := Event.updCall_keeps k fun _ => rfl
  split
  · exact Event.fallback_keeps k1
  · split
    · exact Event.updCall_keeps (Event.toState_keeps (Event.issueList_keeps k1)) fun _ => rfl
    · exact Event.ite_keeps (fun _ => Event.issue_keeps (Event.camp_keeps k1)) fun _ => Event.fallback_keeps k1
    · exact Event.fallback_keeps k1

theorem Event.rerouteMember_keeps {i : Slot} (k : Keeps s e.st) : Keeps s (e.rerouteMember i).st := by
  unfold Event.rerouteMember; dsimp only
  exact Event.nightRoute_keeps (Event.leaveRoster_keeps
    (Event.ite_keeps (fun _ => Event.withdrawForNight_keeps k) fun _ => k))

theorem Event.recall_keeps {i : Slot} {how : Issue} (k : Keeps s e.st) : Keeps s (e.recall i how).st :=
  Event.ite_keeps (fun _ => Event.joinRoster_keeps k) fun _ => Event.fallback_keeps k

theorem Event.announceOver_keeps {i : Slot} (k : Keeps s e.st) : Keeps s (e.announceOver i).st := by
  unfold Event.announceOver
  extract_lets e1 c p leave
  have k1 : Keeps s e1.st := Event.updCall_keeps k fun _ => rfl
  refine Event.ite_keeps (fun _ => Event.congest_keeps k1) fun _ => Event.ite_keeps
    (fun _ => Event.close_keeps (Event.issue_keeps k1)) fun _ => Event.ite_keeps (fun _ => ?_)
    fun _ => Event.congest_keeps (Event.issueList_keeps k1)
  exact Event.joinRoster_keeps (Event.updCall_keeps (Event.issueList_keeps k1) fun _ => rfl)

/-! ### Holding and extending -/

theorem Event.hold1Over_keeps {i : Slot} (k : Keeps s e.st) : Keeps s (e.hold1Over i).st := by
  unfold Event.hold1Over
  extract_lets e1 c e2 length
  have k1 : Keeps s e1.st := Event.updCall_keeps k fun _ => rfl
  have k2 : Keeps s e2.st := by
    simp only [e2]; split
    · exact Event.updPos_keeps k1 (fun _ => rfl) fun _ => rfl
    · exact k1
  exact Event.ite_keeps (fun _ => k2) fun _ => Event.startTimer_keeps k2

theorem Event.hold2Over_keeps {i : Slot} (k : Keeps s e.st) : Keeps s (e.hold2Over i).st :=
  Event.joinRoster_keeps (Event.leaveLoop_keeps k)

theorem Event.campOver_keeps {i : Slot} (k : Keeps s e.st) : Keeps s (e.campOver i).st := by
  unfold Event.campOver; dsimp only
  have k1 := Event.updCall_keeps (i := i) (f := fun c => { c with timer := none }) k fun _ => rfl
  exact Event.ite_keeps (fun _ => Event.updCall_keeps k1 fun _ => rfl) fun _ =>
    Event.recall_keeps (Event.leaveCamp_keeps k1)

theorem Event.waitExpired_keeps {i : Slot} (k : Keeps s e.st) : Keeps s (e.waitExpired i).st :=
  Event.waitOver_keeps (Event.updCall_keeps k fun _ => rfl)

theorem Event.ringOut_keeps {i : Slot} (k : Keeps s e.st) : Keeps s (e.ringOut i).st :=
  Event.updCall_keeps (Event.toState_keeps k) fun _ => rfl

theorem Event.backToTalk_keeps {i : Slot} (k : Keeps s e.st) : Keeps s (e.backToTalk i).st := Event.toState_keeps k

theorem Event.deliver_keeps {i : Slot} (k : Keeps s e.st) : Keeps s (e.deliver i).st := by
  unfold Event.deliver; dsimp only
  refine Event.close_keeps ?_
  split
  · exact Event.issueAs_keeps k
  · exact k

theorem Event.screenedRing_keeps {i : Slot} {o : RingOutcome} (k : Keeps s e.st) : Keeps s (e.screenedRing i o).st := by
  unfold Event.screenedRing; dsimp only; split
  · exact Event.answerExtendOf_keeps (Event.updCall_keeps k fun _ => rfl)
  · exact Event.backToTalk_keeps (Event.answerExtendOf_keeps (Event.issueList_keeps k))
  · exact Event.backToTalk_keeps (Event.answerExtendOf_keeps (Event.issueList_keeps k))

theorem Event.directRing_keeps {i : Slot} {c : Circuit} {o : RingOutcome} (k : Keeps s e.st) :
    Keeps s (e.directRing i c o).st := by
  unfold Event.directRing; dsimp only; split
  · exact Event.ringOut_keeps (Event.leaveLoop_keeps (Event.answerExtendOf_keeps k))
  · refine Event.ite_keeps (fun _ => ?_) fun _ =>
      Event.dropTarget_keeps (Event.answerExtendOf_keeps (Event.issueList_keeps k))
    split
    · exact Event.camp_keeps (Event.leaveLoop_keeps (Event.answerExtendOf_keeps (Event.issue_keeps k)))
    · exact k
  · exact Event.dropTarget_keeps (Event.answerExtendOf_keeps (Event.issueList_keeps k))

theorem Event.nightRing_keeps {i : Slot} {c : Circuit} {o : RingOutcome} (k : Keeps s e.st) :
    Keeps s (e.nightRing i c o).st := by
  unfold Event.nightRing; dsimp only; split
  · exact Event.updCall_keeps k fun _ => rfl
  · refine Event.ite_keeps (fun _ => ?_) fun _ => Event.fallback_keeps k
    split
    · exact Event.issue_keeps (Event.camp_keeps k)
    · exact k
  · exact Event.fallback_keeps k

theorem Event.campRing_keeps {i : Slot} {o : RingOutcome} (k : Keeps s e.st) : Keeps s (e.campRing i o).st := by
  unfold Event.campRing; dsimp only; split
  · exact Event.ringOut_keeps (Event.issue_keeps (Event.leaveCamp_keeps k))
  · exact Event.ite_keeps (fun _ => Event.recall_keeps (Event.leaveCamp_keeps k)) fun _ =>
      Event.updCall_keeps k fun _ => rfl
  · exact Event.recall_keeps (Event.leaveCamp_keeps k)

theorem Event.currentRing_keeps {i : Slot} {c : Circuit} {o : RingOutcome} (k : Keeps s e.st) :
    Keeps s (e.currentRing i c o).st := by
  unfold Event.currentRing; split
  · exact Event.screenedRing_keeps k
  · exact Event.directRing_keeps k
  · exact Event.nightRing_keeps k
  · exact Event.campRing_keeps k
  · exact k

theorem Event.ringResult_keeps {i : Slot} {c : Circuit} {o : RingOutcome} (k : Keeps s e.st) :
    Keeps s (e.ringResult i c o).st := Event.ite_keeps (fun _ => Event.currentRing_keeps k) fun _ => k

theorem Event.targetAnswer_keeps {c : Circuit} (k : Keeps s e.st) : Keeps s (e.targetAnswer c).st := by
  unfold Event.targetAnswer
  split
  · exact k
  · next i _ =>
    dsimp only
    have k1 : Keeps s (if (e.st.call i).awaits c = true then e.currentRing i c .ack else e).st :=
      Event.ite_keeps (fun _ => Event.currentRing_keeps k) fun _ => k
    split
    · exact Event.toState_keeps k1
    · exact Event.deliver_keeps k1
    · exact k1

theorem Event.targetClear_keeps {c : Circuit} (k : Keeps s e.st) : Keeps s (e.targetClear c).st := by
  unfold Event.targetClear; split
  · exact Event.ite_keeps (fun _ => Event.backToTalk_keeps (Event.issueList_keeps k)) fun _ => k
  · exact k

theorem Event.ringerFault_keeps {i : Slot} {c : Circuit} (k : Keeps s e.st) : Keeps s (e.ringerFault i c).st := by
  unfold Event.ringerFault; dsimp only; split
  · exact Event.backToTalk_keeps (Event.answerExtendOf_keeps (Event.issueSpared_keeps k))
  · exact Event.backToTalk_keeps (Event.issueSpared_keeps k)
  · exact Event.dropTarget_keeps (Event.answerExtendOf_keeps (Event.issueSpared_keeps k))
  · exact Event.recall_keeps (Event.note_keeps k)
  · exact k

theorem Event.targetFault_keeps {c : Circuit} (k : Keeps s e.st) : Keeps s (e.targetFault c).st := by
  unfold Event.targetFault
  extract_lets e1
  have k1 : Keeps s e1.st := by
    simp only [e1]; split
    · exact Event.ringerFault_keeps k
    · exact k
  exact Event.foldl_keeps (fun _ _ k => Event.recall_keeps (Event.leaveCamp_keeps k)) k1

theorem Event.targetIdle_keeps {c : Circuit} (k : Keeps s e.st) : Keeps s (e.targetIdle c).st :=
  Event.ite_keeps (fun _ => Event.ringHead_keeps k) fun _ => k

theorem Event.markCall_keeps {i : Slot} (k : Keeps s e.st) : Keeps s (e.markCall i).st := by
  unfold Event.markCall
  refine Event.ite_keeps (fun _ => ?_) fun _ => k
  dsimp only
  have k1 := Event.updCall_keeps (i := i) (f := fun c => { c with ringCount := c.ringCount + 1 }) k fun _ => rfl
  refine Event.ite_keeps (fun _ => ?_) fun _ => k1
  unfold Event.ringLimitActs; dsimp only; split
  · exact Event.updCall_keeps (Event.backToTalk_keeps (Event.issueList_keeps k1)) fun _ => rfl
  · exact Event.recall_keeps (Event.issueList_keeps k1)
  · exact k1

theorem Event.mark_keeps (k : Keeps s e.st) : Keeps s e.mark.st :=
  Event.foldl_keeps (fun _ _ => Event.markCall_keeps) k

end Chain

/-- An event whose body keeps, keeps. -/
theorem runEvent_keeps {s : State} {body : Event → Event} (h : ∀ e : Event, Keeps s e.st → Keeps s (body e).st) :
    Keeps s (runEvent s body) := Event.finish_keeps (h _ (Keeps.refl s))

end Sys2Proof.Machine
end

