-- ==== Sys2Proof/Laws/Quiet.lean ====
section
/-! SUPPORT. What the end of an event can do when no order was refused in it and no camp list is looked at: offers of
QUEUED calls, estimates, idle-since times, tied slots and revisions, and nothing else. -/

namespace Sys2Proof.Machine

/-- The changes that an event's end makes when it is quiet. -/
structure Quiet (s t : State) : Prop where
  mem : t.mem = s.mem
  taker : t.taker = s.taker
  rings : t.rings = s.rings
  free : t.free = s.free
  call : ∀ i, (s.call i).state ≠ .queued → (t.call i).bare = (s.call i).bare
  queued : ∀ i, (s.call i).state = .queued → (t.call i).state = .queued ∨ (t.call i).state = .offered
  waiting : ∀ i, (t.call i).waiting = (s.call i).waiting
  pos : ∀ p, (t.pos p).bare = (s.pos p).bare
  offered : ∀ p, (s.pos p).offered.isSome = true → (t.pos p).offered = (s.pos p).offered
  prt : ∀ p, (t.prt p).bare = (s.prt p).bare
  lamp : ∀ k, (t.lamp k).bare = (s.lamp k).bare
  link : ∀ l, (t.link l).bare = (s.link l).bare

theorem Quiet.refl (s : State) : Quiet s s where
  mem := rfl
  taker := rfl
  rings := rfl
  free := rfl
  call := fun _ _ => rfl
  queued := fun _ h => .inl h
  waiting := fun _ => rfl
  pos := fun _ => rfl
  offered := fun _ _ => rfl
  prt := fun _ => rfl
  lamp := fun _ => rfl
  link := fun _ => rfl

theorem Call.state_of_bare {c d : Call} (h : c.bare = d.bare) : c.state = d.state :=
  (show c.bare.state = d.bare.state by rw [h])

theorem Quiet.trans {s t u : State} (h : Quiet s t) (k : Quiet t u) : Quiet s u where
  mem := k.mem.trans h.mem
  taker := k.taker.trans h.taker
  rings := k.rings.trans h.rings
  free := k.free.trans h.free
  call := fun i hi => by
    have e := h.call i hi
    rw [k.call i (by rw [Call.state_of_bare e]; exact hi), e]
  queued := fun i hi => by
    rcases h.queued i hi with e | e
    · exact k.queued i e
    · have := k.call i (by rw [e]; decide)
      exact .inr (by rw [Call.state_of_bare this, e])
  waiting := fun i => (k.waiting i).trans (h.waiting i)
  pos := fun p => (k.pos p).trans (h.pos p)
  offered := fun p hp => by
    have e := h.offered p hp
    rw [k.offered p (by rw [e]; exact hp), e]
  prt := fun p => (k.prt p).trans (h.prt p)
  lamp := fun p => (k.lamp p).trans (h.lamp p)
  link := fun p => (k.link p).trans (h.link p)

/-! ### The changes of one record -/

/-- A QUEUED call may become OFFERED or have its estimate written. -/
theorem Quiet.setQueued (s : State) (i : Slot) (c : Call) (hq : (s.call i).state = .queued)
    (hs : c.state = .queued ∨ c.state = .offered) (hw : c.waiting = (s.call i).waiting) : Quiet s (s.setCall i c) :=
  { Quiet.refl s with
    call := fun j hj => by
      rw [State.call_setCall]; split
      · next e => subst e; exact absurd hq hj
      · rfl
    queued := fun j hj => by
      rw [State.call_setCall]; split
      · exact hs
      · exact .inl hj
    waiting := fun j => by
      rw [State.call_setCall]; split
      · next e => subst e; exact hw
      · rfl }

theorem Quiet.setPos (s : State) (p : Pos) (q : Position) (h : q.bare = (s.pos p).bare)
    (ho : (s.pos p).offered.isSome = true → q.offered = (s.pos p).offered) : Quiet s (s.setPos p q) :=
  { Quiet.refl s with
    pos := fun j => by
      rw [State.pos_setPos]; split
      · next e => subst e; exact h
      · rfl
    offered := fun j hj => by
      rw [State.pos_setPos]; split
      · next e => subst e; exact ho hj
      · rfl }

theorem Quiet.setPrt (s : State) (p : Part) (q : Partition) (h : q.bare = (s.prt p).bare) : Quiet s (s.setPrt p q) :=
  { Quiet.refl s with
    prt := fun j => by
      rw [State.prt_setPrt]; split
      · next e => subst e; exact h
      · rfl }

/-! ### Estimates -/

section Chain

variable {s : State} {e : Event}

theorem Event.quiet_foldl {α : Type} {f : Event → α → Event} (h : ∀ e x, Quiet s e.st → Quiet s (f e x).st)
    {xs : List α} (k : Quiet s e.st) : Quiet s (xs.foldl f e).st := by
  induction xs generalizing e with
  | nil => exact k
  | cons x xs ih => exact ih (h e x k)

theorem Event.quiet_ite {c : Prop} [Decidable c] {a b : Event} (ha : c → Quiet s a.st) (hb : ¬ c → Quiet s b.st) :
    Quiet s (if c then a else b).st := by
  split
  · next h => exact ha h
  · next h => exact hb h

theorem Event.passMember_quiet {p : Part} {i : Slot} (k : Quiet s e.st) : Quiet s (e.passMember p i).st := by
  unfold Event.passMember; dsimp only; split
  · next hs hp => exact k.trans (Quiet.setQueued _ _ _ hs (.inl hs) rfl)
  · exact k

theorem Event.pass_quiet {p : Part} (k : Quiet s e.st) : Quiet s (e.pass p).st :=
  (Event.quiet_foldl (fun _ _ => Event.passMember_quiet) k).trans (Quiet.setPrt _ _ _ rfl)

theorem Event.runPasses_quiet (k : Quiet s e.st) : Quiet s e.runPasses.st :=
  Event.quiet_foldl (fun _ _ k => Event.quiet_ite (fun _ => Event.pass_quiet k) fun _ => k) k

/-! ### Changes of call state and offers -/

theorem State.setCall_setCall (t : State) (i : Slot) (c d : Call) : (t.setCall i c).setCall i d = t.setCall i d := by
  unfold State.setCall
  dsimp only
  congr 1
  apply Table.ext_list
  simp [Table.set]

/-- What a change of call state writes: the one record, under R7. -/
theorem Event.toState_st (e : Event) {i : Slot} {st : CallState} (h : ¬ (e.st.call i).state = .free) :
    (e.toState i st).st = e.st.setCall i ((e.st.call i).enter st e.st.seconds) := by
  have hl : (e.letGo (e.st.call i)).st = e.st := by
    unfold Event.letGo; split
    · split <;> rfl
    · rfl
  have hi : (if (st.keepsTarget && st != .free) = true then e else e.letGo (e.st.call i)).st = e.st := by
    split
    · rfl
    · exact hl
  unfold Event.toState
  dsimp only
  rw [if_neg h]
  simp only [Event.upd, hi]

theorem Event.toState_free (e : Event) {i : Slot} {st : CallState} (h : (e.st.call i).state = .free) :
    e.toState i st = e := by
  unfold Event.toState
  dsimp only
  rw [if_pos h]


/-- The state in which an offer leaves the call (R38): the call record and the panel, nothing else. -/
theorem Event.offer_st (e : Event) (i : Slot) (p : Pos) (hq : (e.st.call i).state = .queued) :
    ∃ c : Call, c.state = .offered ∧ c.waiting = (e.st.call i).waiting ∧
      (e.offer i p).st = (e.st.setCall i c).setPos p { e.st.pos p with offered := some i } := by
  have hne : ¬ (e.st.call i).state = .free := by rw [hq]; decide
  have ht : (e.toState i .offered).st = e.st.setCall i ((e.st.call i).enter .offered e.st.seconds) :=
    Event.toState_st e hne
  refine ⟨{ (e.st.call i).enter .offered e.st.seconds with
    position := some p,
    timer := some (.offer, e.st.seconds + BitVec.ofNat 32 (e.st.part (e.st.call i).partition).offerTimeout) }, rfl, ?_, ?_⟩
  · rfl
  · simp only [Event.offer, Event.startTimer, Event.updCall, Event.updPos, Event.upd, Event.rosterMoved, ht,
      State.call_setCall_self, State.setCall_seconds, State.pos_setCall, State.setCall_setCall]
    rfl

theorem Event.offer_quiet {i : Slot} {p : Pos} (k : Quiet s e.st) (hq : (e.st.call i).state = .queued)
    (hp : (e.st.pos p).offered = none) : Quiet s (e.offer i p).st := by
  obtain ⟨c, hc, hw, he⟩ := e.offer_st i p hq
  rw [he]
  refine (k.trans (Quiet.setQueued _ _ _ hq (.inr hc) hw)).trans (Quiet.setPos _ _ _ ?_ ?_)
  · rfl
  · intro h
    rw [State.pos_setCall] at h
    rw [hp] at h; cases h

theorem Position.available_offered {q : Position} (h : q.available = true) : q.offered = none := by
  unfold Position.available at h
  cases ho : q.offered with
  | none => rfl
  | some i => simp [ho] at h

theorem State.availableIn_offered {t : State} {p : Part} {x : Pos} (h : t.availableIn p x = true) :
    (t.pos x).offered = none := by
  unfold State.availableIn at h
  rw [Bool.and_eq_true] at h
  exact Position.available_offered h.2

theorem Event.stepA_quiet {p : Part} {i : Slot} (k : Quiet s e.st) : Quiet s (e.stepA p i).st := by
  unfold Event.stepA; dsimp only; split
  · next o _ => exact Event.quiet_ite (fun h => Event.offer_quiet k h.1 (State.availableIn_offered h.2.2)) fun _ => k
  · exact k

/-- The position that Step B names is available in the partition (R37). -/
theorem State.longestIdle_available {t : State} {p : Part} {x : Pos} (h : t.longestIdle p = some x) :
    t.availableIn p x = true := by
  unfold State.longestIdle at h
  have key : ∀ (xs : List Pos) (best : Option Pos), (∀ b, best = some b → t.availableIn p b = true) →
      ∀ b, xs.foldl (fun best x => if t.availableIn p x then
        match best with
        | some b => if (t.pos x).idleSince < (t.pos b).idleSince then some x else some b
        | none => some x
        else best) best = some b → t.availableIn p b = true := by
    intro xs
    induction xs with
    | nil => exact fun best hb => hb
    | cons y ys ih =>
      intro best hb
      refine ih _ ?_
      intro b hb'
      dsimp only at hb'
      split at hb'
      · next hy =>
        split at hb'
        · split at hb'
          · cases hb'; exact hy
          · cases hb'; exact hb _ rfl
        · cases hb'; exact hy
      · exact hb _ hb'
  exact key _ none (fun _ h => by cases h) x h

theorem State.firstQueued_queued {t : State} {p : Part} {i : Slot} (h : t.firstQueued p = some i) :
    (t.call i).state = .queued := by
  have := List.find?_some h
  exact eq_of_beq this

theorem Event.stepB_quiet {p : Part} {n : Nat} (k : Quiet s e.st) : Quiet s (e.stepB p n).st := by
  induction n generalizing e with
  | zero => exact k
  | succ n ih =>
    unfold Event.stepB; split
    · next i x hi hx =>
      exact ih (Event.offer_quiet k (State.firstQueued_queued hi) (State.availableIn_offered (State.longestIdle_available hx)))
    · exact k

theorem Event.arbiter_quiet {p : Part} (k : Quiet s e.st) : Quiet s (e.arbiter p).st :=
  Event.stepB_quiet (Event.quiet_foldl (fun _ _ => Event.stepA_quiet) k)

theorem Event.runArbiters_quiet (k : Quiet s e.st) : Quiet s e.runArbiters.st :=
  Event.quiet_foldl (fun _ _ k => Event.quiet_ite (fun _ => Event.arbiter_quiet k) fun _ => k) k

theorem Event.testPosition_quiet {x : Pos} (k : Quiet s e.st) : Quiet s (e.testPosition x).st := by
  unfold Event.testPosition
  refine Event.quiet_ite (fun _ => ?_) fun _ => k
  dsimp only
  have k1 : Quiet s (if e.keepIdle.contains x = true then e
      else e.upd fun s => s.setPos x { s.pos x with idleSince := s.seconds }).st :=
    Event.quiet_ite (fun _ => k) fun _ => k.trans (Quiet.setPos _ _ _ rfl fun _ => rfl)
  split
  · exact k1
  · exact k1

theorem Event.testPositions_quiet (k : Quiet s e.st) : Quiet s e.testPositions.st :=
  Event.quiet_foldl (fun _ _ => Event.testPosition_quiet) k

/-! ### The commit -/

theorem State.retie_quiet (t : State) : Quiet t t.retie :=
  { Quiet.refl t with lamp := fun i => by rw [State.lamp_retie]; rfl }

theorem Event.raiseRecords_quiet (e : Event) : Quiet e.st e.raiseRecords :=
  { Quiet.refl e.st with
    call := fun i _ => by rw [Event.call_raiseRecords]; split <;> rfl
    queued := fun i h => by rw [Event.call_raiseRecords]; split <;> exact .inl h
    waiting := fun i => by rw [Event.call_raiseRecords]; split <;> rfl
    pos := fun i => by rw [Event.pos_raiseRecords]; split <;> rfl
    offered := fun i _ => by rw [Event.pos_raiseRecords]; split <;> rfl
    prt := fun i => by rw [Event.prt_raiseRecords]; split <;> rfl
    lamp := fun i => by rw [Event.lamp_raiseRecords]; split <;> rfl
    link := fun i => by rw [Event.link_raiseRecords]; split <;> rfl }

theorem State.bumpBoard_quiet (t : State) (n : Nat) : Quiet t (t.bumpBoard n) := by
  unfold State.bumpBoard; split
  · exact Quiet.refl _
  · exact { Quiet.refl t with }

theorem Event.commit_quiet (k : Quiet s e.st) : Quiet s e.commit :=
  ((k.trans (State.retie_quiet _)).trans (Event.raiseRecords_quiet (e.upd State.retie))).trans (State.bumpBoard_quiet _ _)

/-! ### The end of a quiet event -/

theorem Event.serveCamps_nil (h : e.serve = []) : e.serveCamps = e := by
  unfold Event.serveCamps
  have : ∀ ks : List Circuit, ks.filter (([] : List Circuit).contains ·) = [] := by
    intro ks; simp
  rw [h]; dsimp only; rw [this]; rfl

theorem Event.takeRefusals_nil (h : e.refusals = []) : e.takeRefusals = e := by
  unfold Event.takeRefusals
  rw [h]
  show { e with refusals := [] } = e
  rw [← h]

/-- Refusals and camp service do nothing when there is nothing to take and nothing to look at. -/
theorem Event.settle_nil (n : Nat) (hr : e.refusals = []) (hs : e.serve = []) : e.settle n = e := by
  cases n with
  | zero => rfl
  | succ n =>
    unfold Event.settle
    dsimp only
    rw [Event.takeRefusals_nil hr, Event.serveCamps_nil hs]
    simp [hr]

/-- The end of an event in which no order was refused and no camp list is looked at. -/
theorem Event.finish_quiet (hr : e.refusals = []) (hs : e.serve = []) (k : Quiet s e.st) : Quiet s e.finish := by
  unfold Event.finish
  rw [Event.settle_nil 80 hr hs]
  exact Event.commit_quiet (Event.runPasses_quiet (Event.runArbiters_quiet (Event.testPositions_quiet k)))

end Chain

end Sys2Proof.Machine
end

