-- ==== Sys2Proof/Laws/Issue.lean ====
section
/-! SUPPORT. What issuing shelf orders on RUNNING links with room does, said once. -/

namespace Sys2Proof.Machine

/-- What issuing these orders for a call makes of an event when every order enters its queue (R13, R85, R130). -/
structure Entered (e f : Event) (i : Slot) (os : List ShelfOrder) : Prop where
  call : ∀ j, f.st.call j =
    if i = j then { e.st.call j with pending := (e.st.call j).pending + os.length } else e.st.call j
  link : ∀ l, f.st.link l =
    { e.st.link l with queue := (e.st.link l).queue ++ (entries i os).filter fun x => linkOf x.order.first == l }
  ring : ∀ k, f.st.rings.get k = e.st.rings.get k + (entries i os).countP fun x => x.order == .ring k
  rest : f.st = { e.st with calls := f.st.calls, links := f.st.links, rings := f.st.rings }
  event : f = { e with st := f.st, log := f.log }

theorem Entered.nil (e : Event) (i : Slot) : Entered e e i [] where
  call := fun j => by split <;> rfl
  link := fun l => by simp [entries]
  ring := fun k => by simp [entries]
  rest := rfl
  event := rfl

theorem Entered.cons {e f g : Event} {i : Slot} {o : ShelfOrder} {os : List ShelfOrder} (h : Entered e f i [o])
    (k : Entered f g i os) : Entered e g i (o :: os) where
  call := fun j => by
    rw [k.call, h.call]; split
    · simp only [List.length_cons, List.length_nil, Nat.add_assoc, Nat.zero_add, Nat.add_comm 1]
    · rfl
  link := fun l => by
    rw [k.link, h.link]
    simp only [entries, List.map_cons, List.map_nil, List.filter_cons, List.filter_nil]
    split <;> simp
  ring := fun c => by
    rw [k.ring, h.ring]
    simp only [entries, List.map_cons, List.map_nil, List.countP_cons, List.countP_nil]
    omega
  rest := by
    have h1 := h.rest
    have h2 := k.rest
    generalize f.st.calls = a at h1; generalize f.st.links = b at h1; generalize f.st.rings = c at h1
    rw [h1] at h2
    exact h2
  event := by
    have h1 := h.event
    have h2 := k.event
    generalize f.st = a at h1; generalize f.log = b at h1
    rw [h1] at h2
    exact h2

/-- One order enters the queue of its RUNNING link, which has room. -/
theorem Event.issue_entered (e : Event) (i : Slot) (o : ShelfOrder)
    (hr : (e.st.link (linkOf o.first)).state = .running)
    (hq : (e.st.link (linkOf o.first)).queue.length < Config.queueMax) : Entered e (e.issue i o) i [o] := by
  have hi : e.issue i o = (e.note (some i) o).enqueue (some i) o false := by
    unfold Event.issue Event.issueAs
    dsimp only
    rw [if_neg (by simp)]
    have h1 : ((e.note (some i) o).st.link (linkOf o.first)) = e.st.link (linkOf o.first) := rfl
    rw [h1, hr, if_neg (by simp), if_pos hq]
  rw [hi]
  unfold Event.enqueue
  dsimp only
  by_cases ho : o.isRing = true
  · rw [if_pos ho]
    obtain ⟨k, rfl⟩ : ∃ k, o = .ring k := by cases o <;> simp [ShelfOrder.isRing] at ho ⊢
    refine ⟨fun j => ?_, fun l => ?_, fun c => ?_, rfl, rfl⟩
    · show ((State.setLink _ _ _).setCall i _).call j = _
      rw [State.call_setCall]; split
      · next h => subst h; rfl
      · rfl
    · show (State.setLink _ (linkOf k) _).link l = _
      rw [State.link_setLink]
      simp only [entries, List.map_cons, List.map_nil, List.filter_cons, List.filter_nil, ShelfOrder.first]
      split
      · next h => subst h; rw [if_pos (by simp)]; rfl
      · next h => rw [if_neg (by simpa using h), List.append_nil]; rfl
    · show (Table.set _ k _).get c = _
      simp only [entries, List.map_cons, List.map_nil, List.countP_cons, List.countP_nil]
      by_cases h : k = c
      · subst h; rw [Table.get_set_self]; simp; rfl
      · rw [Table.get_set_ne _ _ h]; simp [h]; rfl
  · rw [if_neg ho]
    have hc : ∀ k, ¬ o = .ring k := fun k h => by subst h; exact ho rfl
    refine ⟨fun j => ?_, fun l => ?_, fun c => ?_, rfl, rfl⟩
    · show ((State.setLink _ _ _).setCall i _).call j = _
      rw [State.call_setCall]; split
      · next h => subst h; rfl
      · rfl
    · show (State.setLink _ (linkOf o.first) _).link l = _
      rw [State.link_setLink]
      simp only [entries, List.map_cons, List.map_nil, List.filter_cons, List.filter_nil]
      split
      · next h => subst h; rw [if_pos (by simp)]; rfl
      · next h => rw [if_neg (by simpa using h), List.append_nil]; rfl
    · simp only [entries, List.map_cons, List.map_nil, List.countP_cons, List.countP_nil]
      simp [hc c]; rfl

/-- Orders issued with room for all of them enter their queues, in order. -/
theorem Event.issueList_entered (os : List ShelfOrder) (e : Event) (i : Slot) (hr : e.st.room os) :
    Entered e (e.issueList i os) i os := by
  induction os generalizing e with
  | nil => exact Entered.nil e i
  | cons o os ih =>
    have h0 := hr o List.mem_cons_self
    have h1 := e.issue_entered i o h0.1 (by have := h0.2; simp only [List.length_cons] at this; omega)
    refine h1.cons (ih _ fun x hx => ?_)
    have hx' := hr x (List.mem_cons_of_mem _ hx)
    rw [h1.link]
    refine ⟨hx'.1, ?_⟩
    have := hx'.2
    simp only [List.length_cons] at this
    simp only [List.length_append]
    have hl := List.length_filter_le (fun x' : Entry => linkOf x'.order.first == linkOf x.first) (entries i [o])
    simp only [entries, List.length_map, List.length_cons, List.length_nil] at hl ⊢
    omega

end Sys2Proof.Machine
end

