-- ==== Sys2Proof/Laws/Orders.lean ====
section
/-! SUPPORT. What the Order Taker's part of a step does: refusing stale numbers, taking a cell, writing a result. -/

namespace Sys2Proof.Machine

/-! ### Bytes of cells -/

theorem engineByte_cell {c d : CellIx} {k : Nat} (hk : k < 32) (h : engineByte d (cellBase c + k)) :
    d = c ∧ (k = 0 ∨ k = 3 ∨ k = 6 ∨ k = 7 ∨ k = 8 ∨ k = 9 ∨ k = 0x0A ∨ k = 0x0B) := by
  have hd : d = c := by
    by_contra hne
    rcases h with (h | h | h | h | h | h) | h | h
    · exact cellBase_disjoint (c := c) (d := d) (k := 0) hk (by omega) (fun e => hne e.symm) h
    all_goals exact cellBase_disjoint (c := c) (d := d) hk (by omega) (fun e => hne e.symm) h
  subst hd
  refine ⟨rfl, ?_⟩
  unfold engineByte resultByte at h
  omega

theorem read_writeCell (m : Memory) (c : CellIx) (k j : Nat) (bs : List Byte) (h : Memory.wf m = true)
    (hj : k ≤ j ∧ j < k + bs.length) : (writeCell m c k bs).read (cellBase c + j) = bs.getD (j - k) 0 := by
  unfold writeCell
  rw [Memory.read_writeAll _ _ _ _ h, if_pos (by omega)]
  congr 1; omega

theorem read16_bytesOf16 (m : Memory) (c : CellIx) (k : Nat) (w : Word) (h : Memory.wf m = true) :
    (writeCell m c k (bytesOf16 w)).read16 (cellBase c + k) = w := by
  unfold Memory.read16
  rw [show cellBase c + k + 1 = cellBase c + (k + 1) by omega,
    read_writeCell m c k (k + 1) _ h (by simp only [bytesOf16_length]; omega),
    read_writeCell m c k k _ h (by simp only [bytesOf16_length]; omega)]
  simp only [bytesOf16, Nat.add_sub_cancel_left, Nat.sub_self, List.getD_cons_zero, List.getD_cons_succ]
  revert w; intro w; ext i hi
  simp only [BitVec.getElem_append, BitVec.getElem_setWidth, BitVec.getLsbD_ushiftRight]
  split
  · exact BitVec.getLsbD_eq_getElem hi
  · next hh => rw [show 8 + (i - 8) = i by omega]; exact BitVec.getLsbD_eq_getElem hi

/-! ### What a written result reads as -/

theorem cellState_withCellState (b : Byte) : (withCellState b 3).toNat % 16 = 3 ∧ (withCellState b 2).toNat % 16 = 2 := by
  revert b; decide

/-- The fields of an answered cell (R163). -/
theorem doneCell_fields (m : Memory) (c : CellIx) (code : ResultCode) (d : Word) (t : Seconds) (h : Memory.wf m = true) :
    cellState (doneCell m c code d t) c = .done ∧ cellByte (doneCell m c code d t) c 3 = code.code ∧
    (doneCell m c code d t).read16 (cellBase c + 6) = d ∧
    (doneCell m c code d t).read16 (cellBase c + 0x0A) = t.setWidth 16 := by
  have w1 := writeCell_wf m c 3 [code.code] h
  have w2 := writeCell_wf _ c 6 (bytesOf16 d) w1
  have w3 := writeCell_wf _ c 0x0A (bytesOf16 (t.setWidth 16)) w2
  have out0 : ∀ b, b ≠ cellBase c → (doneCell m c code d t).read b =
      (writeCell (writeCell (writeCell m c 3 [code.code]) c 6 (bytesOf16 d)) c 0x0A (bytesOf16 (t.setWidth 16))).read b := by
    intro b hb
    unfold doneCell setCellState
    exact read_writeCell_outside _ c 0 _ b w3 (by simp only [List.length_cons, List.length_nil]; omega)
  refine ⟨?_, ?_, ?_, ?_⟩
  · unfold cellState doneCell
    rw [cellByte_setCellState_zero _ _ _ w3, (cellState_withCellState _).1]; rfl
  · unfold cellByte
    rw [out0 _ (by omega), read_writeCell_outside _ c 0x0A _ _ w2 (by simp only [bytesOf16_length]; omega),
      read_writeCell_outside _ c 6 _ _ w1 (by simp only [bytesOf16_length]; omega),
      read_writeCell m c 3 3 _ h (by simp only [List.length_cons, List.length_nil]; omega)]
    rfl
  · unfold Memory.read16
    rw [out0 _ (by omega), out0 _ (by omega),
      read_writeCell_outside _ c 0x0A _ _ w2 (by simp only [bytesOf16_length]; omega),
      read_writeCell_outside _ c 0x0A _ _ w2 (by simp only [bytesOf16_length]; omega)]
    exact read16_bytesOf16 _ c 6 d w1
  · unfold Memory.read16
    rw [out0 _ (by omega), out0 _ (by omega)]
    exact read16_bytesOf16 _ c 0x0A _ w2

/-! ### Stale numbers -/

/-- What refusing stale numbers can do (R158, step 1). -/
structure StaleOnly (s t : State) : Prop where
  shape : t = { s with mem := t.mem, taker := { s.taker with taken := t.taker.taken },
                       regs := { s.regs with summary := t.regs.summary } }
  wf : Memory.wf s.mem = true → Memory.wf t.mem = true
  taken : ∀ d ∈ t.taker.taken, d ∈ s.taker.taken
  summary : s.regs.summary &&& t.regs.summary = s.regs.summary

theorem StaleOnly.trans {s t u : State} (h : StaleOnly s t) (k : StaleOnly t u) : StaleOnly s u where
  shape := by
    have e1 := h.shape; have e2 := k.shape
    generalize t.mem = m1 at e1; generalize t.taker.taken = k1 at e1; generalize t.regs.summary = f1 at e1
    subst e1
    exact e2
  wf := fun w => k.wf (h.wf w)
  taken := fun d hd => h.taken d (k.taken d hd)
  summary := by
    have h1 := h.summary; have h2 := k.summary
    calc s.regs.summary &&& u.regs.summary
        = (s.regs.summary &&& t.regs.summary) &&& u.regs.summary := by rw [h1]
      _ = s.regs.summary &&& (t.regs.summary &&& u.regs.summary) := BitVec.and_assoc ..
      _ = s.regs.summary := by rw [h2, h1]

theorem State.refuseStale_only (s : State) (c : CellIx) : StaleOnly s (s.refuseStale c) where
  shape := rfl
  wf := fun w => doneCell_wf _ _ _ _ _ (writeCell_wf _ _ _ _ w)
  taken := fun _ hd => List.mem_of_mem_filter hd
  summary := (Keeps.raise s .order).summary

theorem State.refuseStale_read (s : State) (c : CellIx) (a : Nat) (h : Memory.wf s.mem = true) (ha : ¬ engineByte c a) :
    (s.refuseStale c).mem.read a = s.mem.read a := by
  unfold engineByte at ha
  have h1 : ¬ resultByte c a := fun x => ha (.inl x)
  show (doneCell (writeCell s.mem c 8 (bytesOf16 (s.seconds.setWidth 16))) c _ _ _).read a = _
  rw [read_doneCell_outside _ _ _ _ _ _ (writeCell_wf _ _ _ _ h) (fun k hk e => h1 (by unfold resultByte; omega)),
    read_writeCell_outside _ _ _ _ _ h (by simp only [bytesOf16_length]; omega)]

theorem State.refuseStaleList (cs : List CellIx) (s : State) :
    StaleOnly s (cs.foldl State.refuseStale s) ∧
    (Memory.wf s.mem = true → ∀ a, (∀ d ∈ cs, ¬ engineByte d a) →
      (cs.foldl State.refuseStale s).mem.read a = s.mem.read a) := by
  induction cs generalizing s with
  | nil => exact ⟨⟨rfl, fun h => h, fun _ h => h, BitVec.and_self⟩, fun _ _ _ => rfl⟩
  | cons c cs ih =>
    obtain ⟨h1, h2⟩ := ih (s.refuseStale c)
    refine ⟨(s.refuseStale_only c).trans h1, fun w a ha => ?_⟩
    have := h2 ((s.refuseStale_only c).wf w) a fun d hd => ha d (List.mem_cons_of_mem _ hd)
    exact this.trans (s.refuseStale_read c a w (ha c List.mem_cons_self))

theorem State.refuseStales_only (s : State) : StaleOnly s s.refuseStales := (State.refuseStaleList _ s).1

/-- Refusing stale numbers changes no byte but the engine's bytes of POSTED cells behind EXPECT. -/
theorem State.refuseStales_read (s : State) (a : Nat) (h : Memory.wf s.mem = true)
    (ha : ∀ d, d ∈ s.posted → s.behind d = true → ¬ engineByte d a) : s.refuseStales.mem.read a = s.mem.read a :=
  (State.refuseStaleList _ s).2 h a fun d hd => ha d (List.mem_of_mem_filter hd) (List.mem_filter.mp hd).2

theorem State.refuseStales_number (s : State) (c : CellIx) (h : Memory.wf s.mem = true) :
    cellNumber s.refuseStales.mem c = cellNumber s.mem c := by
  unfold cellNumber Memory.read16
  rw [s.refuseStales_read _ h fun d _ _ hd => by
      have := engineByte_cell (c := c) (k := 4 + 1) (by omega) (by simpa [Nat.add_assoc] using hd); omega,
    s.refuseStales_read _ h fun d _ _ hd => by
      have := engineByte_cell (c := c) (k := 4) (by omega) hd; omega]

/-- A cell that is not POSTED behind EXPECT keeps all its bytes. -/
theorem State.refuseStales_cell (s : State) (c : CellIx) (h : Memory.wf s.mem = true)
    (hc : ¬ (c ∈ s.posted ∧ s.behind c = true)) {k : Nat} (hk : k < 32) :
    cellByte s.refuseStales.mem c k = cellByte s.mem c k :=
  s.refuseStales_read _ h fun d hd hb he => by
    have := (engineByte_cell hk he).1
    subst this
    exact hc ⟨hd, hb⟩

theorem State.refuseStales_expect (s : State) : s.refuseStales.taker.expect = s.taker.expect := by
  rw [s.refuseStales_only.shape]

theorem State.mem_posted {s : State} {c : CellIx} : c ∈ s.posted ↔ cellState s.mem c = .posted := by
  unfold State.posted
  rw [List.mem_filter]
  simp

theorem cellState_congr {m n : Memory} {c : CellIx} (h : cellByte m c 0 = cellByte n c 0) :
    cellState m c = cellState n c := by unfold cellState; rw [h]

/-- Refusing stale numbers does not change which cell the step takes. -/
theorem State.refuseStales_nextCell (s : State) (h : Memory.wf s.mem = true) : s.refuseStales.nextCell = s.nextCell := by
  have key : ∀ c, (cellState s.refuseStales.mem c == .posted &&
      cellNumber s.refuseStales.mem c == s.refuseStales.taker.expect) =
      (cellState s.mem c == .posted && cellNumber s.mem c == s.taker.expect) := by
    intro c
    rw [s.refuseStales_number c h, s.refuseStales_expect]
    by_cases hc : c ∈ s.posted ∧ s.behind c = true
    · have hn : (cellNumber s.mem c == s.taker.expect) = false := by
        have := hc.2
        unfold State.behind at this
        rw [beq_eq_false_iff_ne]
        intro e
        rw [e] at this
        simp at this
      rw [hn, Bool.and_false, Bool.and_false]
    · rw [cellState_congr (s.refuseStales_cell c h hc (by omega))]
  unfold State.nextCell State.posted
  rw [List.find?_filter, List.find?_filter]
  congr 1
  funext c
  rw [← Bool.and_eq_decide, ← Bool.and_eq_decide]
  exact key c

theorem State.nextCell_spec {s : State} {c : CellIx} (h : s.nextCell = some c) :
    cellState s.mem c = .posted ∧ cellNumber s.mem c = s.taker.expect ∧ s.behind c = false := by
  have h1 := List.mem_of_find?_eq_some h
  have h2 := List.find?_some h
  have h3 : cellNumber s.mem c = s.taker.expect := by simpa using h2
  refine ⟨State.mem_posted.mp h1, h3, ?_⟩
  unfold State.behind
  rw [h3]
  simp

/-! ### Taking a cell -/

theorem State.takeCell_read (s : State) (c : CellIx) (a : Nat) (h : Memory.wf s.mem = true) (ha : ¬ engineByte c a) :
    (s.takeCell c).mem.read a = s.mem.read a := by
  have h0 : a ≠ cellBase c := fun e => ha (.inl (.inl e))
  have h8 : a ≠ cellBase c + 8 := fun e => ha (.inr (.inl e))
  have h9 : a ≠ cellBase c + 9 := fun e => ha (.inr (.inr e))
  show (setCellState (writeCell s.mem c 8 (bytesOf16 (s.seconds.setWidth 16))) c 2).read a = _
  unfold setCellState
  rw [read_writeCell_outside _ c 0 _ _ (writeCell_wf _ _ _ _ h)
      (by simp only [List.length_cons, List.length_nil]; omega),
    read_writeCell_outside _ c 8 _ _ h (by simp only [bytesOf16_length]; omega)]

theorem State.takeCell_wf (s : State) (c : CellIx) (h : Memory.wf s.mem = true) : Memory.wf (s.takeCell c).mem = true :=
  setCellState_wf _ _ _ (writeCell_wf _ _ _ _ h)

/-- A cell just taken reads TAKEN, with the taken time now (R159). -/
theorem State.takeCell_cell (s : State) (c : CellIx) (h : Memory.wf s.mem = true) :
    cellState (s.takeCell c).mem c = .taken ∧ (s.takeCell c).takenNow c := by
  have w := writeCell_wf s.mem c 8 (bytesOf16 (s.seconds.setWidth 16)) h
  refine ⟨?_, ?_⟩
  · unfold cellState
    show (match (cellByte (setCellState (writeCell s.mem c 8 (bytesOf16 (s.seconds.setWidth 16))) c 2) c 0).toNat % 16 with
      | 1 => CellState.posted | 2 => .taken | 3 => .done | _ => .empty) = _
    rw [cellByte_setCellState_zero _ _ _ w, (cellState_withCellState _).2]; rfl
  · unfold State.takenNow
    show Memory.read16 (setCellState (writeCell s.mem c 8 (bytesOf16 (s.seconds.setWidth 16))) c 2) _ = s.seconds.setWidth 16
    unfold Memory.read16 setCellState
    rw [read_writeCell_outside _ c 0 _ _ w (by simp only [List.length_cons, List.length_nil]; omega),
      read_writeCell_outside _ c 0 _ _ w (by simp only [List.length_cons, List.length_nil]; omega)]
    exact read16_bytesOf16 _ c 8 _ h

/-- Taking a cell keeps the processor's bytes of every cell (R177). -/
theorem State.takeCell_byte (s : State) (c d : CellIx) (k : Nat) (h : Memory.wf s.mem = true) (hk : k < 32)
    (ho : k = 1 ∨ k = 2 ∨ k = 4 ∨ k = 5 ∨ 0x0C ≤ k) :
    cellByte (s.takeCell c).mem d k = cellByte s.mem d k :=
  s.takeCell_read c _ h fun he => by have := engineByte_cell hk he; omega

theorem State.takeCell_position (s : State) (c : CellIx) (h : Memory.wf s.mem = true) (d : CellIx) :
    cellPosition (s.takeCell c).mem d = cellPosition s.mem d := by
  unfold cellPosition
  by_cases e : c = d
  · subst e
    have w := writeCell_wf s.mem c 8 (bytesOf16 (s.seconds.setWidth 16)) h
    show (cellByte (setCellState (writeCell s.mem c 8 (bytesOf16 (s.seconds.setWidth 16))) c 2) c 0).toNat / 16 = _
    rw [cellByte_setCellState_zero _ _ _ w, withCellState_high _ _ (by decide)]
    congr 2
    exact read_writeCell_outside _ c 8 _ _ h (by simp only [bytesOf16_length]; omega)
  · congr 2
    exact s.takeCell_read c _ h fun he => e (engineByte_cell (k := 0) (by omega) (by simpa using he)).1

/-- The form of an order is the same when it is read after the stale numbers are refused and its cell is taken. -/
theorem State.taken_form (s : State) (c : CellIx) (h : Memory.wf s.mem = true) (hc : s.nextCell = some c) :
    cellKind (s.refuseStales.takeCell c).mem c = cellKind s.mem c ∧
    cellLength (s.refuseStales.takeCell c).mem c = cellLength s.mem c ∧
    cellPosition (s.refuseStales.takeCell c).mem c = cellPosition s.mem c ∧
    cellNumber (s.refuseStales.takeCell c).mem c = cellNumber s.mem c ∧
    ∀ k < 20, cellBody (s.refuseStales.takeCell c).mem c k = cellBody s.mem c k := by
  have hn : ¬ (c ∈ s.posted ∧ s.behind c = true) := fun x => by rw [(State.nextCell_spec hc).2.2] at x; cases x.2
  have w := s.refuseStales_only.wf h
  have byte : ∀ k < 32, (k = 1 ∨ k = 2 ∨ k = 4 ∨ k = 5 ∨ 0x0C ≤ k) →
      cellByte (s.refuseStales.takeCell c).mem c k = cellByte s.mem c k := fun k hk ho =>
    (s.refuseStales.takeCell_byte c c k w hk ho).trans (s.refuseStales_cell c h hn hk)
  refine ⟨?_, ?_, ?_, ?_, ?_⟩
  · unfold cellKind; rw [byte 1 (by omega) (by omega)]
  · unfold cellLength; rw [byte 2 (by omega) (by omega)]
  · rw [s.refuseStales.takeCell_position c w]
    unfold cellPosition; rw [s.refuseStales_cell c h hn (by omega)]
  · have b4 := byte 4 (by omega) (by omega)
    have b5 := byte 5 (by omega) (by omega)
    unfold cellByte at b4 b5
    unfold cellNumber Memory.read16
    rw [show cellBase c + 4 + 1 = cellBase c + 5 by omega, b4, b5]
  · intro k hk
    exact byte (0x0C + k) (by omega) (by omega)

/-- The command of an order kind that the next step takes is one event: the stale numbers are refused, the cell is taken
and its order is handed on (R158, R159). -/
theorem NextOrder.exec_eq {s : State} {c : CellIx} {k : OrderKind} (h : NextOrder s c k) :
    exec (orderCommand k) s = .next (s.refuseStales.takeOrder c) := by
  have ht : s.sweepFor (some k) = s.refuseStales.takeOrder c := by
    unfold State.sweepFor State.sweepTakes
    rw [h.sweeps, h.next]
    simp only [h.kind, beq_self_eq_true, Bool.and_self, if_true]
    unfold State.sweepStep
    rw [if_pos h.sweeps]
    dsimp only
    rw [s.refuseStales_nextCell h.wf, h.next]
  rw [← ht]
  cases k <;> rfl

/-- The order of a `Takes` is handed to its owner (R162). -/
theorem Takes.takeOrder_eq {s : State} {c : CellIx} {k : OrderKind} {p : Pos} (h : Takes s c k p) :
    s.refuseStales.takeOrder c = runEvent s.refuseStales fun e =>
      Event.settleOrder c ((e.upd fun t => t.takeCell c).own c k) := by
  obtain ⟨hk, hl, hp, _, _⟩ := s.taken_form c h.wf h.next
  unfold State.takeOrder runEvent
  congr 1
  unfold Event.order
  have he : ((Event.begin s.refuseStales).upd fun t => t.takeCell c).st = s.refuseStales.takeCell c := rfl
  dsimp only
  rw [he, hk, h.kind]
  have hf : (s.refuseStales.takeCell c).formRefusal c k = none := by
    unfold State.formRefusal
    rw [hl, hp, if_neg (by simp [h.length])]
    have ha : k.accepts (cellPosition s.mem c) = true := by
      rw [h.place]; unfold OrderKind.accepts; simp
    rw [if_neg (by simp [ha])]
    have hs : (s.refuseStales.takeCell c).engine = .serving := by
      show s.refuseStales.engine = _
      rw [s.refuseStales_only.shape]; exact h.serving
    rw [hs]
  dsimp only
  rw [hf]

/-! ### Results written in an event -/

/-- A result that an event has written stands when the event ends, when no EXTEND in flight answers to the cell. -/
theorem Keeps.answered {s t : State} {c : CellIx} {code : ResultCode} {d : Word} (k : Keeps s t)
    (w : Memory.wf s.mem = true) (h : s.finished c code d) (ha : ∀ q, (s.pos q).extendCell ≠ some c) :
    t.finished c code d := by
  have read : ∀ j < 32, t.mem.read (cellBase c + j) = s.mem.read (cellBase c + j) := fun j hj =>
    k.mem w _ fun ⟨q, d, hq, hr⟩ => by
      have := (engineByte_cell hj (.inl hr)).1
      subst this
      exact ha q hq
  have hsec : t.seconds = s.seconds := by
    have := k.core
    simp only [State.core, Prod.mk.injEq] at this
    exact this.2.2.2.1
  have r16 : ∀ j, j + 1 < 32 → t.mem.read16 (cellBase c + j) = s.mem.read16 (cellBase c + j) := fun j hj => by
    unfold Memory.read16
    rw [read j (by omega), Nat.add_assoc, read (j + 1) hj]
  obtain ⟨h8, h0, h3, h6, hA, ht, hf⟩ := h
  refine ⟨?_, ?_, ?_, ?_, ?_, fun x => ht (k.taken c x), State.flag_mono k.summary hf⟩
  · unfold State.takenNow at *; rw [r16 8 (by omega), h8, hsec]
  · rw [← h0]; exact cellState_congr (read 0 (by omega))
  · rw [← h3]; exact read 3 (by omega)
  · rw [← h6]; exact r16 6 (by omega)
  · rw [r16 0x0A (by omega), hA, hsec]

/-- What writing a result makes of the cell (R163). -/
theorem State.answer_finished (s : State) (c : CellIx) (code : ResultCode) (d : Word) (w : Memory.wf s.mem = true)
    (ht : s.takenNow c) : (s.answer c code d).finished c code d := by
  obtain ⟨h0, h3, h6, hA⟩ := doneCell_fields s.mem c code d s.seconds w
  refine ⟨?_, h0, h3, h6, hA, ?_, State.flag_raise _ _⟩
  · show (doneCell s.mem c code d s.seconds).read16 (cellBase c + 8) = s.seconds.setWidth 16
    rw [← ht]
    unfold Memory.read16
    rw [read_doneCell_outside _ _ _ _ _ _ w (by omega), read_doneCell_outside _ _ _ _ _ _ w (by omega)]
  · show c ∉ s.taker.taken.filter _
    simp

/-- An order that its owner has answered is finished when the event ends. -/
theorem Event.settleOrder_finished {c : CellIx} {e : Event} {code : ResultCode} {d : Word}
    (hm : Memory.wf e.st.mem = true) (ht : e.st.takenNow c) (hx : ∀ q, (e.st.pos q).extendCell ≠ some c) :
    (Event.settleOrder c (e, some (code, d))).finish.finished c code d := by
  have hs : (Event.settleOrder c (e, some (code, d))).st = e.st.answer c code d := rfl
  have k : Keeps (e.st.answer c code d) (Event.settleOrder c (e, some (code, d))).finish := by
    rw [← hs]; exact Event.finish_keeps (Keeps.refl _)
  exact k.answered (doneCell_wf _ _ _ _ _ hm) (e.st.answer_finished c code d hm ht) hx

end Sys2Proof.Machine
end

