-- ==== Sys2Proof/WellFormed.lean ====
section
/-! DEFINITION. Which commands the world can send (R170, R171: the window is 16 KiB, an access is a byte or a word). -/

namespace Sys2Proof

/-- The offset lies in the 16 KiB window (R170). -/
def offsetOk (offset : Nat) : Bool := decide (offset < 0x4000)

/-- A byte access carries a byte (R171). -/
def valueOk (word : Bool) (value : Word) : Bool := word || decide (value.toNat < 256)

/-- A shelf answer has at least its answer kind and its check byte (R124). -/
def answerOk (bytes : List Byte) : Bool := decide (2 ≤ bytes.length)

/-- The operands are ones the world can supply. -/
def Instr.wellFormed : Instr → Bool
  | .hostWrite offset word value => offsetOk offset && valueOk word value
  | .recordRead offset _ => offsetOk offset
  | .shelfAnswer _ bytes _ => answerOk bytes
  | _ => true

end Sys2Proof
end

