-- ==== Sys2Proof/Laws/PerInstr.lean ====
section
/-! SUPPORT. Facts about each command as syntax, one lemma for each constructor. -/

namespace Sys2Proof.Laws

/-- No word spells the command (spec/opcode_table.json gives no row any bits), and it is well formed exactly when its
offset lies in the window (R170), its byte access carries a byte (R171) and its answer has an answer kind and a check
byte (R124). -/
def Family.Statement (i : Instr) : Prop :=
  (∀ nbits w : Nat, decodeTableWord nbits w ≠ some i) ∧
  (i.wellFormed = true ↔
    (∀ a word v, i = .hostWrite a word v → a < 0x4000 ∧ (word = true ∨ v.toNat < 256)) ∧
    (∀ a word, i = .recordRead a word → a < 0x4000) ∧
    (∀ l bs os, i = .shelfAnswer l bs os → 2 ≤ bs.length))

theorem Family.powerOnReset (bypassActive : Bool) : Family.Statement (.powerOnReset bypassActive) :=
  ⟨fun _ _ => nofun, by simp [Instr.wellFormed]⟩

theorem Family.softReset : Family.Statement (.softReset) :=
  ⟨fun _ _ => nofun, by simp [Instr.wellFormed]⟩

theorem Family.attention (noticeEnable : Bool) : Family.Statement (.attention noticeEnable) :=
  ⟨fun _ _ => nofun, by simp [Instr.wellFormed]⟩

theorem Family.noticeEnable (on : Bool) : Family.Statement (.noticeEnable on) :=
  ⟨fun _ _ => nofun, by simp [Instr.wellFormed]⟩

theorem Family.summaryClear (value : Word) : Family.Statement (.summaryClear value) :=
  ⟨fun _ _ => nofun, by simp [Instr.wellFormed]⟩

theorem Family.maskWrite (value : Word) : Family.Statement (.maskWrite value) :=
  ⟨fun _ _ => nofun, by simp [Instr.wellFormed]⟩

theorem Family.hostWrite (offset : Nat) (word : Bool) (value : Word) : Family.Statement (.hostWrite offset word value) :=
  ⟨fun _ _ => nofun, by
    simp [Instr.wellFormed, offsetOk, valueOk]⟩

theorem Family.recordRead (offset : Nat) (word : Bool) : Family.Statement (.recordRead offset word) :=
  ⟨fun _ _ => nofun, by
    simp [Instr.wellFormed, offsetOk]⟩

theorem Family.releaseHoldEnd : Family.Statement (.releaseHoldEnd) :=
  ⟨fun _ _ => nofun, by simp [Instr.wellFormed]⟩

theorem Family.bypassEntry : Family.Statement (.bypassEntry) :=
  ⟨fun _ _ => nofun, by simp [Instr.wellFormed]⟩

theorem Family.bypassExit : Family.Statement (.bypassExit) :=
  ⟨fun _ _ => nofun, by simp [Instr.wellFormed]⟩

theorem Family.sweepTimerExpiry : Family.Statement (.sweepTimerExpiry) :=
  ⟨fun _ _ => nofun, by simp [Instr.wellFormed]⟩

theorem Family.sweepStep : Family.Statement (.sweepStep) :=
  ⟨fun _ _ => nofun, by simp [Instr.wellFormed]⟩

theorem Family.unknownKindOrder : Family.Statement (.unknownKindOrder) :=
  ⟨fun _ _ => nofun, by simp [Instr.wellFormed]⟩

theorem Family.openOrder : Family.Statement (.openOrder) :=
  ⟨fun _ _ => nofun, by simp [Instr.wellFormed]⟩

theorem Family.closeOrder : Family.Statement (.closeOrder) :=
  ⟨fun _ _ => nofun, by simp [Instr.wellFormed]⟩

theorem Family.pauseOrder : Family.Statement (.pauseOrder) :=
  ⟨fun _ _ => nofun, by simp [Instr.wellFormed]⟩

theorem Family.answerOrder : Family.Statement (.answerOrder) :=
  ⟨fun _ _ => nofun, by simp [Instr.wellFormed]⟩

theorem Family.pickOrder : Family.Statement (.pickOrder) :=
  ⟨fun _ _ => nofun, by simp [Instr.wellFormed]⟩

theorem Family.holdOrder : Family.Statement (.holdOrder) :=
  ⟨fun _ _ => nofun, by simp [Instr.wellFormed]⟩

theorem Family.retrieveOrder : Family.Statement (.retrieveOrder) :=
  ⟨fun _ _ => nofun, by simp [Instr.wellFormed]⟩

theorem Family.disconnectOrder : Family.Statement (.disconnectOrder) :=
  ⟨fun _ _ => nofun, by simp [Instr.wellFormed]⟩

theorem Family.extendOrder : Family.Statement (.extendOrder) :=
  ⟨fun _ _ => nofun, by simp [Instr.wellFormed]⟩

theorem Family.transferOrder : Family.Statement (.transferOrder) :=
  ⟨fun _ _ => nofun, by simp [Instr.wellFormed]⟩

theorem Family.cancelOrder : Family.Statement (.cancelOrder) :=
  ⟨fun _ _ => nofun, by simp [Instr.wellFormed]⟩

theorem Family.setNightOrder : Family.Statement (.setNightOrder) :=
  ⟨fun _ _ => nofun, by simp [Instr.wellFormed]⟩

theorem Family.applyPlanOrder : Family.Statement (.applyPlanOrder) :=
  ⟨fun _ _ => nofun, by simp [Instr.wellFormed]⟩

theorem Family.applyCompletion : Family.Statement (.applyCompletion) :=
  ⟨fun _ _ => nofun, by simp [Instr.wellFormed]⟩

theorem Family.sendFrame (link : LinkIx) : Family.Statement (.sendFrame link) :=
  ⟨fun _ _ => nofun, by simp [Instr.wellFormed]⟩

theorem Family.pollDeadline (link : LinkIx) (addr : Addr) : Family.Statement (.pollDeadline link addr) :=
  ⟨fun _ _ => nofun, by simp [Instr.wellFormed]⟩

theorem Family.shelfAnswer (link : LinkIx) (bytes : List Byte) (orders : List (List Nat)) :
    Family.Statement (.shelfAnswer link bytes orders) :=
  ⟨fun _ _ => nofun, by
    simp [Instr.wellFormed, answerOk]⟩

theorem Family.responseWindowClose (link : LinkIx) (order : List Nat) : Family.Statement (.responseWindowClose link order) :=
  ⟨fun _ _ => nofun, by simp [Instr.wellFormed]⟩

theorem Family.offerExpiry (slot : Slot) : Family.Statement (.offerExpiry slot) :=
  ⟨fun _ _ => nofun, by simp [Instr.wellFormed]⟩

theorem Family.waitExpiry (slot : Slot) : Family.Statement (.waitExpiry slot) :=
  ⟨fun _ _ => nofun, by simp [Instr.wellFormed]⟩

theorem Family.waitDeadlineHeld (slot : Slot) : Family.Statement (.waitDeadlineHeld slot) :=
  ⟨fun _ _ => nofun, by simp [Instr.wellFormed]⟩

theorem Family.announceExpiry (slot : Slot) : Family.Statement (.announceExpiry slot) :=
  ⟨fun _ _ => nofun, by simp [Instr.wellFormed]⟩

theorem Family.hold1Expiry (slot : Slot) : Family.Statement (.hold1Expiry slot) :=
  ⟨fun _ _ => nofun, by simp [Instr.wellFormed]⟩

theorem Family.hold2Expiry (slot : Slot) : Family.Statement (.hold2Expiry slot) :=
  ⟨fun _ _ => nofun, by simp [Instr.wellFormed]⟩

theorem Family.campExpiry (slot : Slot) : Family.Statement (.campExpiry slot) :=
  ⟨fun _ _ => nofun, by simp [Instr.wellFormed]⟩

theorem Family.counterAdvance (part : Part) : Family.Statement (.counterAdvance part) :=
  ⟨fun _ _ => nofun, by simp [Instr.wellFormed]⟩

theorem Family.periodTimerExpiry : Family.Statement (.periodTimerExpiry) :=
  ⟨fun _ _ => nofun, by simp [Instr.wellFormed]⟩

theorem Family.cadenceEdge : Family.Statement (.cadenceEdge) :=
  ⟨fun _ _ => nofun, by simp [Instr.wellFormed]⟩

theorem Family.lossTimerExpiry : Family.Statement (.lossTimerExpiry) :=
  ⟨fun _ _ => nofun, by simp [Instr.wellFormed]⟩

theorem Family.engineSecondsTick : Family.Statement (.engineSecondsTick) :=
  ⟨fun _ _ => nofun, by simp [Instr.wellFormed]⟩

end Sys2Proof.Laws
end

