-- ==== Sys2Proof/Tests/Slice0.lean ====
section
/-! SUPPORT. Tests: ill-formed commands are refused, the hypotheses of the statements can be met together, and figures
the spec works out by hand. -/

namespace Sys2Proof.Tests

set_option Elab.async false

open Sys2Proof Sys2Proof.Machine

/-! ## Small states (the switchboard of 11_worked_sequences.md) -/

/-- The directory of the worked sequences. -/
def entry (c : Circuit) : DirEntry :=
  let ext (n : Nat) (q : Part) : DirEntry :=
    { kind := .extension, partition := some q, number := some (BitVec.ofNat 16 n), campAllowed := true }
  if c.val < 12 then { DirEntry.none with kind := .trunk, partition := some 0 }
  else if c.val < 16 then { DirEntry.none with kind := .trunk, partition := some 1 }
  else if c.val = 32 then ext 2100 0
  else if c.val = 40 then ext 2105 0
  else if c.val = 41 then ext 2106 0
  else if c.val = 45 then ext 2250 1
  else if c.val = 50 then { DirEntry.none with kind := .announcer }
  else if 60 ≤ c.val ∧ c.val < 64 then { DirEntry.none with kind := .position }
  else .none

/-- Partition 0 of the worked sequences. -/
def plan0 : PartPlan :=
  { enabled := true, members := 0x07, capacity := 10, alertLevel := 0, overflowLimit := 60, overflow := .partition 1,
    announcer := some 50, night := 2100, autoNight := false, offerTimeout := 15, holdRecall := 0, campRecall := 60,
    waitLimit := 0, ringLimit := 5, announceTime := 30, seedRange := 3, seedSpacing := 75, weight := 32, basis := .mean }

/-- Partition 1. -/
def plan1 : PartPlan :=
  { plan0 with members := 0x10, capacity := 4, overflowLimit := 0, overflow := .fallback, announcer := none,
               night := 2250, autoNight := true }

/-- The headsets: positions 0, 1, 2 and 4. -/
def headsetFor (p : Pos) : Option Circuit :=
  if p = 0 then some 60 else if p = 1 then some 61 else if p = 2 then some 62 else if p = 4 then some 63 else none

/-- The plan of the worked sequences. -/
def morning : Plan :=
  { chief := some 0, deputy := some 4, source := .internal, period := 6, window := 5, missLimit := 3,
    parts := .make fun q => if q = 0 then plan0 else if q = 1 then plan1 else .none,
    headsets := .make headsetFor, shelves := .make fun n => { fitted := decide (n.val < 4), interval := 40 },
    directory := .make entry }

/-- The engine SERVING under that plan, no call anywhere, no position OPEN, every line IDLE. -/
def quiet : State :=
  { State.reset with
    engine := .serving, plan := some morning, planCount := 1, seconds := 1000,
    parts := .fill { Partition.blank with est := { Estimator.blank with range := 3, new := 75, old := 75 } },
    positions := .make fun p => { Position.blank with partition := morning.partitionOf p, headset := headsetFor p },
    lamps := .make fun c => { Lamp.blank with kind := (entry c).kind, line := if c.val < 64 then .idle else .unknown },
    links := .fill { Link.blank with
      state := .running, window := 5, missLimit := 3,
      shelves := .fill { state := .present, misses := 0, interval := 40 } } }

/-- Change a panel. -/
def seat (p : Pos) (f : Position → Position) (s : State) : State := s.setPos p (f (s.pos p))
/-- Change a partition's record. -/
def room (q : Part) (f : Partition → Partition) (s : State) : State := s.setPrt q (f (s.prt q))
/-- Change a link. -/
def wire (l : LinkIx) (f : Link → Link) (s : State) : State := s.setLink l (f (s.link l))
/-- Change a line state. -/
def line (k : Circuit) (v : LineState) (s : State) : State := s.setLamp k { s.lamp k with line := v }
/-- Change the settings of a partition in the active plan. -/
def rule (q : Part) (f : PartPlan → PartPlan) (s : State) : State :=
  { s with plan := s.plan.map fun pl => { pl with parts := pl.parts.set q (f (pl.parts.get q)) } }
/-- Write a live call into slot 5. -/
def put (c : Call) (s : State) : State := { s.setCall 5 c with free := s.free.filter (· != 5) }
/-- Sign a position on. -/
def on (p : Pos) (s : State) : State := seat p (fun q => { q with isOpen := true }) s

/-- A sweep runs and cell 0 holds the next order: kind code, position value, body. -/
def posted (kind place : Nat) (body : List Byte) (s : State) : State :=
  { s with
    mem := Memory.writeAll [] 0x0500
      ([BitVec.ofNat 8 (16 * place + 1), BitVec.ofNat 8 kind, BitVec.ofNat 8 body.length, 0, 0, 0, 0, 0, 0, 0, 0, 0] ++ body),
    taker := { s.taker with sweeping := true } }

/-- A call of partition 0 from trunk circuit 1. -/
def trunkCall (st : CallState) : Call := { Call.blank with state := st, written := true, caller := 1 }
/-- The same on loop 0 of position 0, in slot 5. -/
def loopCall (st : CallState) : Call := { trunkCall st with position := some 0, loop := some 0, origin := some 0 }
/-- Position 0 speaks to the call on its loop 0. -/
def speaking (c : Call) : State :=
  put c (seat 0 (fun q => { q with isOpen := true, speaking := some 0, loops := q.loops.set 0 (some 5) }) quiet)
/-- Position 0 keeps the call on its loop 0 without speaking to it. -/
def parked (c : Call) : State :=
  put c (seat 0 (fun q => { q with isOpen := true, loops := q.loops.set 0 (some 5) }) quiet)
/-- The call waits in the roster of partition 0. -/
def queued (c : Call) : State :=
  put { c with place := some 1 } (room 0 (fun q => { q with roster := [5], est := { q.est with counter := 50, period := some 8 } }) quiet)
/-- The call is offered to position 0. -/
def offered : State :=
  seat 0 (fun q => { q with isOpen := true, offered := some 5 }) (queued { trunkCall .offered with position := some 0 })

/-- An order of the call of slot 5 for its caller. -/
def rings1 : Entry := { order := .tone 1 .ringback, slot := some 5, handover := false }

/-- The state after a command. -/
def after (c : Instr) (s : State) : State := match exec c s with | .next t => t | _ => s

/-- A shelf that flies: the frame of link 0 to address 0 carries this entry (none: a poll). -/
def flying (x : Option Entry) (s : State) : State :=
  wire 0 (fun k => { k with
    frame := some { addr := 0, entry := x, again := false, bytes := frameBytes 0 x false, window := 5, dead := false } }) s

/-- `Takes` from its parts. -/
theorem takes_of {s : State} {c : CellIx} {k : OrderKind} {p : Pos}
    (h : (s.sweeps = true ∧ s.nextCell = some c ∧ cellKind s.mem c = some k ∧ Memory.wf s.mem = true ∧
      ∀ q, (s.pos q).extendCell ≠ some c) ∧ cellLength s.mem c = k.bodyLength ∧ cellPosition s.mem c = p.val ∧
      s.engine = .serving) : Takes s c k p :=
  ⟨⟨h.1.1, h.1.2.1, h.1.2.2.1, h.1.2.2.2.1, h.1.2.2.2.2⟩, h.2.1, h.2.2.1, h.2.2.2⟩

/-- `NextOrder` from its parts. -/
theorem next_of {s : State} {c : CellIx} {k : OrderKind}
    (h : s.sweeps = true ∧ s.nextCell = some c ∧ cellKind s.mem c = some k ∧ Memory.wf s.mem = true ∧
      ∀ q, (s.pos q).extendCell ≠ some c) : NextOrder s c k := ⟨h.1, h.2.1, h.2.2.1, h.2.2.2.1, h.2.2.2.2⟩

/-- `Speaking` from its parts. -/
theorem speaking_of {s : State} {p : Pos} {i : Slot} {l : LoopIx} {h : Circuit}
    (w : (s.pos p).isOpen = true ∧ (s.pos p).headset = some h ∧ (s.pos p).speaking = some l ∧
      (s.pos p).loops.get l = some i ∧ (s.call i).position = some p ∧ (s.call i).loop = some l) : Speaking s p i l h :=
  ⟨w.1, w.2.1, w.2.2.1, w.2.2.2.1, w.2.2.2.2.1, w.2.2.2.2.2⟩

/-! ## Ill-formed commands -/

theorem test_wellFormed_offset : offsetOk 0x3FFF = true ∧ offsetOk 0x4000 = false := by decide
theorem test_wellFormed_hostWrite_offset : (Instr.hostWrite 0x4000 false 0).wellFormed = false := by decide
theorem test_wellFormed_hostWrite_value : (Instr.hostWrite 0x2100 false 0x100).wellFormed = false ∧
    (Instr.hostWrite 0x2100 true 0x100).wellFormed = true := by decide
theorem test_wellFormed_recordRead : (Instr.recordRead 0x4000 true).wellFormed = false := by decide
theorem test_wellFormed_shelfAnswer : (Instr.shelfAnswer 0 [0x5D] []).wellFormed = false ∧
    (Instr.shelfAnswer 0 [1, 0x5D] []).wellFormed = true := by decide
theorem test_no_word_spells_a_command : decodeTableWord 16 0xFFFF = none := rfl

/-! ## The hypotheses of the statements can be met -/

/-! ### Steps, resets, the window, the registers -/

theorem test_witness_step : State.reset.pending = [] := rfl

/-- A sweep that has taken the cells 0 and 31. -/
def twoTaken : State := { quiet with taker := { quiet.taker with taken := [0, 31] } }

theorem test_witness_soft_reset : Memory.wf twoTaken.mem = true ∧ (0 : CellIx) ∈ twoTaken.taker.taken ∧
    (31 : CellIx) ∈ twoTaken.taker.taken := by decide +kernel
theorem test_witness_soft_reset_bypassed : ({ twoTaken with bypassIn := true }).bypassIn = true ∧
    Memory.wf ({ twoTaken with bypassIn := true }).mem = true := by decide +kernel
theorem test_witness_soft_reset_byte : (2#16).getLsbD 1 = true ∧ (0xFFFF#16).getLsbD 1 = true := by decide

/-- The release hold runs. -/
def held : State := { quiet with regs := { quiet.regs with hold := some 200 } }

theorem test_witness_notice_hold : held.regs.hold ≠ none := by decide
theorem test_witness_notice_resets :
    (resets .softReset ∧ exec .softReset held = .next held.softReset) ∧
    (resets (.powerOnReset true) ∧ exec (.powerOnReset true) held = .next (held.powerOn true)) ∧
    (resets (.hostWrite 0x3FE1 true 0x0200) ∧
      exec (.hostWrite 0x3FE1 true 0x0200) held = .next (held.hostWrite 0x3FE1 true 0x0200)) :=
  ⟨⟨trivial, rfl⟩, ⟨trivial, rfl⟩, Or.inr ⟨rfl, rfl, by decide⟩, rfl⟩

/-- An apply is under way. -/
def applying : State :=
  { quiet with apply := some { cell := 0, staged := morning }, taker := { quiet.taker with taken := [0] } }

theorem test_witness_host_write_records : ∀ a ∈ [0x0000, 0x04FF, 0x0900, 0x20FF, 0x3FE0, 0x3FE1, 0x3FE8, 0x3FE9],
    a < 0x0500 ∨ (0x0900 ≤ a ∧ a < 0x2100) ∨ (0x3FE0 ≤ a ∧ a < 0x3FE2) ∨ a = 0x3FE8 ∨ a = 0x3FE9 := by decide
theorem test_witness_host_write_taken : 31 < 32 ∧ (31 : CellIx) ∈ twoTaken.taker.taken := by decide
theorem test_witness_host_write_locked : applying.apply ≠ none := by decide +kernel
theorem test_witness_host_write_cell : Memory.wf twoTaken.mem = true ∧ (30 : CellIx) ∉ twoTaken.taker.taken := by
  decide
theorem test_witness_host_write_plan : Memory.wf quiet.mem = true ∧
    (∀ a ∈ [0x2100, 0x2B3F, 0x2B40, 0x3FDF], 0x2100 ≤ a ∧ a < 0x3FE0 ∧ (a < 0x2B40 → quiet.apply = none)) := by decide
theorem test_witness_host_write_ignored : ∀ a ∈ [0x3FE3, 0x3FE5, 0x3FE7, 0x3FEA, 0x3FFF],
    0x3FEA ≤ a ∨ a = 0x3FE3 ∨ a = 0x3FE5 ∨ a = 0x3FE7 := by decide
theorem test_witness_host_write_word :
    exec (.hostWrite 0x3FE2 false 5) quiet = .next (quiet.hostWrite 0x3FE2 false 5) := rfl

/-- Where the clauses of R171 meet, a byte is dropped, stored or ignored as its row says. -/
theorem test_host_write_edges :
    ([0x04FF, 0x0500, 0x08FF, 0x0900, 0x20FF, 0x2100, 0x3FDF, 0x3FE0, 0x3FE3, 0x3FE9, 0x3FEA].map fun a =>
      ((after (.hostWrite a false 0x11) State.reset).flag .drop, (after (.hostWrite a false 0x11) State.reset).mem)) =
    [(true, []), (false, [(0x0500, 0x11)]), (false, [(0x08FF, 0x11)]), (true, []), (true, []), (false, [(0x2100, 0x11)]),
      (false, [(0x3FDF, 0x11)]), (true, []), (false, []), (true, []), (false, [])] := by decide +kernel

theorem test_witness_host_read_latches : recordOf 0 64 ∧ recordOf 0x20F8 8 ∧
    exec (.recordRead 0x20F8 false) quiet = .next (quiet.recordRead 0x20F8 false) :=
  ⟨.inl ⟨rfl, rfl⟩, .inr (.inr (.inr (.inr (.inr (.inr ⟨255, by decide, by decide⟩))))), rfl⟩

/-- The interlock holds a copy of the engine header. -/
def latched : State :=
  { quiet with port := { quiet.port with latch := some { base := 0, bytes := List.replicate 64 7, last := 0 } } }

theorem test_witness_host_read_serves : ∃ x, latched.port.latch = some x ∧ recordOf x.base x.bytes.length ∧
    x.base ≤ x.last ∧ (∀ a ∈ [1, 63], x.last < a ∧ a < x.base + x.bytes.length) ∧
    exec (.recordRead 63 false) latched = .next (latched.recordRead 63 false) :=
  ⟨_, rfl, .inl ⟨rfl, by decide⟩, by decide, by decide, rfl⟩
theorem test_witness_host_read_elsewhere : (∀ size, ¬ recordOf 0x3FFF size) ∧
    (∀ x, latched.port.latch = some x → 0x3FFF ≤ x.last ∨ 0x3FFF < x.base ∨ x.base + x.bytes.length ≤ 0x3FFF) ∧
    exec (.recordRead 0x3FFF false) latched = .next (latched.recordRead 0x3FFF false) := by
  refine ⟨?_, ?_, rfl⟩
  · rintro size (h | ⟨l, hl, h⟩ | ⟨l, hl, h⟩ | ⟨l, hl, h⟩ | ⟨l, hl, h⟩ | ⟨l, hl, h⟩ | ⟨l, hl, h⟩) <;> omega
  · intro x h
    cases h
    exact .inr (.inr (by decide))
theorem test_witness_host_read_word : ∃ t u, exec (.recordRead 4 false) quiet = .next t ∧
    exec (.recordRead 5 false) t = .next u := ⟨_, _, rfl, rfl⟩
theorem test_witness_host_read_port : ∃ t, exec (.recordRead 4 false) latched = .next t ∧ t.port ≠ latched.port :=
  ⟨_, rfl, by decide +kernel⟩

theorem test_witness_window : (quiet.call 5).written = false ∧ ((trunkCall .queued).written = true) ∧
    (quiet.pos 0).written = false ∧ State.reset.plan = none ∧ quiet.plan = some morning :=
  ⟨by decide +kernel, rfl, by decide +kernel, rfl, rfl⟩
/-- R176, R180, R170: bytes of slot 5's record, which is OFFERED, of position 0's panel, written, of partition 0's status
record and of circuit 41's lamp entry. -/
theorem test_window_bytes : ([0x0A40, 0x0A41, 0x0A48, 0x0A52, 0x02C0, 0x02C5, 0x02C7, 0x00C4, 0x00CA, 0x00E0, 0x1A48, 0x1A49].map
      (seat 0 (fun q => { q with written := true }) offered).windowByte) =
    [2, 0, 1, 0, 1, 60, 5, 1, 10, 5, 2, 1] := by decide +kernel

/-! ### The engine as a whole -/

/-- The engine BYPASSED under an active plan. -/
def bypassed : State := { quiet with engine := .bypassed, bypassIn := true }

theorem test_witness_changes_engine : ∃ t, exec .bypassExit bypassed = .next t ∧ ¬ resets .bypassExit ∧
    t.engine ≠ bypassed.engine ∧ t.bypassIn ≠ bypassed.bypassIn ∧ t.plan ≠ bypassed.plan :=
  ⟨_, rfl, id, by decide +kernel, by decide +kernel, by decide +kernel⟩
theorem test_witness_changes_seconds : ∃ t, exec .engineSecondsTick quiet = .next t ∧ ¬ resets .engineSecondsTick ∧
    t.seconds ≠ quiet.seconds := ⟨_, rfl, id, by decide +kernel⟩
theorem test_witness_changes_mask : ∃ t, exec (.maskWrite 7) quiet = .next t ∧ ¬ resets (.maskWrite 7) ∧
    t.regs.mask ≠ quiet.regs.mask := ⟨_, rfl, id, by decide +kernel⟩
theorem test_witness_changes_cadence :
    ∃ t, exec .bypassExit { bypassed with cadence := { Cadence.blank with configured := .external } } = .next t ∧
      t.cadence.configured ≠ .external := ⟨_, rfl, by decide +kernel⟩

/-- An apply, in a CLOSED engine, of a plan area that names nobody to a role and is zero otherwise. -/
def first : State :=
  { State.reset with apply := some { cell := 0, staged := readPlan [(0x2100, 0xFF), (0x2101, 0xFF)] }, taker := { Taker.blank with taken := [0] } }

theorem test_witness_changes_plan : ∃ t, exec .applyCompletion first = .next t ∧ ¬ resets .applyCompletion ∧
    t.planCount ≠ first.planCount := ⟨_, rfl, id, by decide +kernel⟩

/-- An OFFERED call whose wait deadline has passed. -/
def overdue : State := queued { trunkCall .offered with waitDeadline := some 900 }

theorem test_witness_board : ∃ t, exec (.waitDeadlineHeld 5) overdue = .next t ∧ ¬ resets (.waitDeadlineHeld 5) ∧
    t.boardRev ≠ overdue.boardRev := ⟨_, rfl, id, by decide +kernel⟩
theorem test_witness_revision : ∃ t, exec (.waitDeadlineHeld 5) overdue = .next t ∧ eventsOf (.waitDeadlineHeld 5) = 1 ∧
    (t.call 5).bare ≠ (overdue.call 5).bare ∧ ∃ u, exec .pauseOrder (posted 3 0 [1] offered) = .next u ∧
    (u.pos 0).shown ≠ ((posted 3 0 [1] offered).pos 0).shown ∧ (u.pos 0).rev ≠ ((posted 3 0 [1] offered).pos 0).rev :=
  ⟨_, rfl, rfl, by decide +kernel, _, rfl, by decide +kernel, by decide +kernel⟩
theorem test_witness_engine_bytes : Memory.wf (posted 1 0 [] quiet).mem = true ∧
    ∃ t, exec .sweepStep (posted 1 0 [] quiet) = .next t := ⟨by decide +kernel, _, rfl⟩
theorem test_witness_bypass_entry : twoTaken.engine ≠ .bypassed ∧ Memory.wf twoTaken.mem = true ∧
    (31 : CellIx) ∈ twoTaken.taker.taken ∧ applying.engine ≠ .bypassed ∧ Memory.wf applying.mem = true ∧
    applying.apply ≠ none := by decide +kernel
theorem test_witness_bypass_again : bypassed.engine = .bypassed := rfl
theorem test_witness_bypass_exit_elsewhere : quiet.engine ≠ .bypassed := by decide

/-! ### Sweeps and the order board -/

/-- Cell 31 holds a number one behind EXPECT; nothing else is on the board. -/
def stale : State :=
  { posted 1 0 [] quiet with mem := Memory.writeAll [] 0x08E0 [1, 1, 0, 0, 0xFF, 0xFF] }

theorem test_witness_sweep_stale : stale.taker.sweeping = true ∧ stale.apply = none ∧ Memory.wf stale.mem = true ∧
    (∀ c, ¬ dueCell stale c) ∧ staleCell stale 31 := by
  unfold dueCell staleCell; decide +kernel
theorem test_witness_sweep_none : quiet.taker.sweeping = false ∧ quiet.nextCell = none ∧ applying.apply ≠ none := by
  decide +kernel
theorem test_witness_sweep_order : (posted 1 0 [] quiet).sweeps = true ∧ (posted 1 0 [] quiet).nextCell = some 0 ∧
    cellKind (posted 1 0 [] quiet).mem 0 = some .openK ∧ (posted 14 0 [] quiet).sweeps = true ∧
    (posted 14 0 [] quiet).nextCell = some 0 ∧ cellKind (posted 14 0 [] quiet).mem 0 = none := by decide +kernel

/-- 32,768 behind EXPECT is still stale, 32,767 ahead is not due (R158). -/
theorem test_behind_at_the_half : ([0x7FFF, 0x8000, 0xFFFF].map fun n =>
    { quiet with mem := Memory.writeAll [] 0x0504 (bytesOf16 n) }.behind 0) = [false, true, true] := by decide +kernel

theorem test_witness_taken_order : NextOrder (posted 1 0 [] quiet) 0 .openK ∧ OrderKind.openK ≠ .applyPlanK :=
  ⟨next_of (by decide +kernel), by decide⟩
theorem test_witness_unknown_kind : (posted 0 0 [] quiet).sweeps = true ∧ (posted 0 0 [] quiet).nextCell = some 0 ∧
    cellKind (posted 0 0 [] quiet).mem 0 = none ∧ Memory.wf (posted 0 0 [] quiet).mem = true ∧
    ∀ q, ((posted 0 0 [] quiet).pos q).extendCell ≠ some 0 := by decide +kernel
theorem test_witness_bad_length : NextOrder (posted 2 0 [] quiet) 0 .closeK ∧
    cellLength (posted 2 0 [] quiet).mem 0 ≠ OrderKind.closeK.bodyLength :=
  ⟨next_of (by decide +kernel), by decide +kernel⟩
theorem test_witness_bad_position : NextOrder (posted 1 8 [] quiet) 0 .openK ∧
    cellLength (posted 1 8 [] quiet).mem 0 = OrderKind.openK.bodyLength ∧ 8 ≤ cellPosition (posted 1 8 [] quiet).mem 0 ∧
    cellPosition (posted 1 8 [] quiet).mem 0 ≠ 15 := ⟨next_of (by decide +kernel), by decide +kernel⟩
theorem test_witness_bad_position_15 : NextOrder (posted 1 15 [] quiet) 0 .openK ∧
    cellLength (posted 1 15 [] quiet).mem 0 = OrderKind.openK.bodyLength ∧
    cellPosition (posted 1 15 [] quiet).mem 0 = 15 ∧ OrderKind.openK ≠ .setNightK ∧ OrderKind.openK ≠ .applyPlanK :=
  ⟨next_of (by decide +kernel), by decide +kernel⟩
theorem test_witness_not_serving : NextOrder (posted 12 15 [0, 0] State.reset) 0 .setNightK ∧
    cellLength (posted 12 15 [0, 0] State.reset).mem 0 = OrderKind.setNightK.bodyLength ∧
    cellPosition (posted 12 15 [0, 0] State.reset).mem 0 = 15 ∧
    (posted 12 15 [0, 0] State.reset).engine = .closed ∧ OrderKind.setNightK ≠ .applyPlanK :=
  ⟨next_of (by decide +kernel), by decide +kernel⟩
theorem test_witness_not_serving_bypassed : NextOrder (posted 13 7 [] bypassed) 0 .applyPlanK ∧
    cellLength (posted 13 7 [] bypassed).mem 0 = OrderKind.applyPlanK.bodyLength ∧
    cellPosition (posted 13 7 [] bypassed).mem 0 < 8 ∧ (posted 13 7 [] bypassed).engine = .bypassed :=
  ⟨next_of (by decide +kernel), by decide +kernel⟩

/-- Every kind is refused somewhere: with no position OPEN, no role held and position 7 without a partition. -/
theorem test_witness_refused : ∀ x ∈ [(OrderKind.openK, 1, ([] : List Byte), ResultCode.badPosition),
      (.closeK, 2, [0], .notOpen), (.pauseK, 3, [0], .notOpen), (.answerK, 4, [], .notOpen), (.pickK, 5, [0], .notOpen),
      (.holdK, 6, [], .notOpen), (.retrieveK, 7, [0], .notOpen), (.extendK, 8, [0, 0, 0], .notOpen),
      (.transferK, 9, [], .notOpen), (.cancelK, 10, [], .notOpen), (.disconnectK, 11, [], .notOpen),
      (.setNightK, 12, [0, 0], .noAuthority), (.applyPlanK, 13, [], .noAuthority)],
    Takes (posted x.2.1 7 x.2.2.1 quiet) 0 x.1 7 ∧
    firstRefusal (orderChecks (posted x.2.1 7 x.2.2.1 quiet) 7 (cellBody (posted x.2.1 7 x.2.2.1 quiet).mem 0) x.1) =
      some x.2.2.2 := by
  intro x hx
  fin_cases hx <;> exact ⟨takes_of (by decide +kernel), by decide +kernel⟩
theorem test_witness_no_authority : NextOrder (posted 13 15 [] quiet) 0 .applyPlanK ∧
    cellLength (posted 13 15 [] quiet).mem 0 = OrderKind.applyPlanK.bodyLength ∧
    cellPosition (posted 13 15 [] quiet).mem 0 = 15 ∧ (posted 13 15 [] quiet).engine = .serving :=
  ⟨next_of (by decide +kernel), by decide +kernel⟩

/-! ### Signing on, signing off, pausing -/

theorem test_witness_open : OpenReady (posted 1 0 [] quiet) 0 0 0 ∧ ((posted 1 0 [] quiet).pos 0).role = .none :=
  ⟨by constructor <;> first | exact takes_of (by decide +kernel) | decide +kernel, by decide +kernel⟩

/-- Partition 0's roster: slot 12, a RECALL member that comes from position 0, then the NEW members 20 and 21. Positions 1
and 2 are OPEN, position 2 idle for longer. -/
def waiters : State :=
  let s := room 0 (fun q => { q with roster := [12, 20, 21], est := { q.est with counter := 50, period := some 8 } }) quiet
  let s := seat 1 (fun q => { q with isOpen := true, idleSince := 900 }) (seat 2 (fun q => { q with isOpen := true, idleSince := 800 }) s)
  let s := s.setCall 12 { trunkCall .queued with caller := 2, cls := .recall, origin := some 0, place := some 1 }
  (s.setCall 20 { trunkCall .queued with caller := 3, place := some 2 }).setCall 21
    { trunkCall .queued with caller := 4, place := some 3 }

theorem holds_of {s : State} {q : Part} (w : (s.prt q).roster.Nodup ∧ ∀ j ∈ (s.prt q).roster, (s.call j).partition = q)
    (v : (s.prt q).roster.map (fun j => (s.call j).place) =
      (List.range (s.prt q).roster.length).map fun n => some (n + 1)) : RosterHolds s q :=
  ⟨w.1, w.2, fun n j h => by
    have e := congrArg (·[n]?) v
    simp only [List.getElem?_map, h, Option.map_some] at e
    have hn : n < (s.prt q).roster.length := (List.getElem?_eq_some_iff.mp h).1
    simpa [List.getElem?_range hn] using e⟩

theorem test_witness_open_distributes : OpenReady (posted 1 0 [] waiters) 0 0 0 ∧
    ((posted 1 0 [] waiters).pos 0).role = .none ∧ RosterHolds (posted 1 0 [] waiters) 0 ∧
    (fun u => canTake u 0 0 = true ∧ recallOf u 0 0 = some 12 ∧ canTake u 0 3 = false ∧ leftToStepB u 0 = [20, 21] ∧
      inTurn u 0 [2, 1]) (on 0 (posted 1 0 [] waiters)) :=
  ⟨by constructor <;> first | exact takes_of (by decide +kernel) | decide +kernel, by decide +kernel,
    holds_of (by decide +kernel) (by decide +kernel), by unfold inTurn; decide +kernel⟩
/-- R36, R37: position 0 opens and is offered the call that comes from it; the head of the others goes to the position that
has been idle longest. -/
theorem test_open_distributes : ([0, 1, 2].map fun p => ((after .openOrder (posted 1 0 [] waiters)).pos p).offered) =
    [some 12, some 21, some 20] := by decide +kernel

/-- A chief at position 0 and a deputy at position 4 are OPEN; position 0 is the last order's. -/
def chiefs : State :=
  seat 0 (fun q => { q with isOpen := true, role := .chief }) (seat 4 (fun q => { q with isOpen := true, role := .deputy }) quiet)

theorem test_witness_close : CloseReady (posted 2 0 [0] chiefs) 0 0 ∧ ((posted 2 0 [0] chiefs).pos 0).role = .chief ∧
    ((posted 2 0 [0] chiefs).pos 4).role = .deputy ∧
    (∀ x, ((posted 2 0 [0] chiefs).pos x).role = .deputy → x = 4) ∧
    (∀ x, ((posted 2 0 [0] chiefs).pos x).role = .chief → x = 0) ∧ ((posted 2 0 [0] chiefs).pos 1).role = .none ∧
    ((posted 2 0 [0] chiefs).pos 1).isOpen = false :=
  ⟨⟨takes_of (by decide +kernel), by decide +kernel, by decide +kernel⟩, by decide +kernel⟩

theorem open_of {s : State} {i : Slot} (w : (s.part (s.call i).partition).enabled = true ∧
    (s.prt (s.call i).partition).mode = .day ∧ (s.prt (s.call i).partition).roster.length < 63 ∧
    i ∉ (s.prt (s.call i).partition).roster ∧ (s.prt (s.call i).partition).roster.Nodup) : RecallOpen s i :=
  ⟨w.1, w.2.1, w.2.2.1, w.2.2.2.1, w.2.2.2.2⟩

/-- The call consults extension 2106 on circuit 41. -/
def consultCall (st : CallState) : Call := { loopCall st with target := some { number := 2106, circuit := 41 } }

/-- CLOSE with force at position 0, whose loop 0 keeps the HELD call of slot 5. -/
def forced : State := posted 2 0 [1] (parked (loopCall .held))
/-- The same with this call, to which the position speaks; its EXTEND, if it has one, is in flight from cell 1. -/
def forcedFrom (c : Call) : State :=
  posted 2 0 [1] (seat 0 (fun q => { q with extend := c.extend, extendCell := c.extend.map fun _ => 1 }) (speaking c))

theorem loop_of {s : State} (ho : RecallOpen s 5)
    (w : (s.pos 0).headset = some 60 ∧ (s.pos 0).offered = none ∧ (s.call 5).position = some 0 ∧ (s.call 5).loop = some 0 ∧
      (∀ j, (s.pos 0).loops.get j = if j = 0 then some 5 else none) ∧ (s.part 0).autoNight = false ∧
      (s.pos 0).partition = some 0 ∧ (s.pos 0).extend = (s.call 5).extend ∧
      ((s.call 5).extend = none → (s.pos 0).extendCell = none))
    (v : ((s.call 5).state = .held ∨ (s.call 5).state = .talking) ∧ (s.call 5).extend = none ∧ (s.call 5).target = none ∨
      ((s.call 5).state = .consultRinging ∨ (s.call 5).state = .consultTalking ∨
          ((s.call 5).state = .talking ∧ (s.call 5).extend ≠ none)) ∧
        (s.call 5).target = some { number := 2106, circuit := 41 } ∧ (s.lamp 41).camp = []) :
    ForcedLoop s 0 5 0 60 41 :=
  ⟨w.1, w.2.1, w.2.2.2.2.1, w.2.2.1, w.2.2.2.1, v.imp id fun x => ⟨x.1, ⟨_, x.2.1⟩, .inl x.2.2⟩, w.2.2.2.2.2.2.2.1,
    w.2.2.2.2.2.2.2.2, ho, fun q h => by rw [w.2.2.2.2.2.2.1] at h; cases h; exact .inl w.2.2.2.2.2.1⟩

theorem test_witness_forced_close : ∀ s ∈ [forced, forcedFrom (loopCall .talking),
      forcedFrom { consultCall .talking with extend := some 9 }, forcedFrom { consultCall .consultRinging with extend := some 9 },
      forcedFrom (consultCall .consultRinging), forcedFrom (consultCall .consultTalking)],
    ForcedCall s 0 0 5 0 60 41 ∧ s.room (closeLegs (s.call 5) 60 41 ++ [.tone (s.call 5).caller .ringback]) ∧
    reachable s (closeLegs (s.call 5) 60 41 ++ [.tone (s.call 5).caller .ringback]) := by
  intro s h
  fin_cases h <;> exact ⟨⟨⟨takes_of (by decide +kernel), by decide +kernel, by decide +kernel⟩,
    loop_of (open_of (by decide +kernel)) (by decide +kernel) (by decide +kernel)⟩,
    by unfold State.room reachable; decide +kernel⟩

/-- 11, at 1800: position 4, deputy, holds slot 9 on its loop 1; partition 1's roster holds slot 20 and then slot 12. -/
def evening : State :=
  let s := seat 4 (fun q => { q with isOpen := true, role := .deputy, loops := q.loops.set 1 (some 9) }) quiet
  let s := room 1 (fun q => { q with roster := [20, 12], est := { q.est with counter := 3, period := some 8 } }) s
  let s := s.setCall 9 { trunkCall .held with caller := 13, partition := 1, position := some 4, loop := some 1, origin := some 4 }
  let s := s.setCall 20 { trunkCall .queued with caller := 2, partition := 1, overflowed := true, place := some 1 }
  s.setCall 12 { trunkCall .queued with caller := 14, partition := 1, place := some 2 }

theorem test_witness_last_close : LastClose (posted 2 4 [1] evening) 0 4 1 := by
  constructor
  case toCloseReady => exact ⟨takes_of (by decide +kernel), by decide +kernel, by decide +kernel⟩
  case members => unfold rosterState; decide +kernel
  case loop => unfold loopState; decide +kernel
  all_goals decide +kernel

/-- A call of partition 0 OFFERED to position 0, its expiry held; the partition overflows to this destination. -/
def offeredHeld (o : Overflow) : State :=
  rule 0 (fun pp => { pp with overflow := o }) (seat 0 (fun q => { q with isOpen := true, offered := some 5, missed := 1 })
    (queued { trunkCall .offered with
      position := some 0, expiryHeld := true, waitDeadline := some 900, timer := some (.offer, 1000) }))

theorem newRoom_of {s : State} {q : Part} {i : Slot} (w : (s.prt q).mode = .day ∧ s.newCount q < (s.part q).capacity ∧
    (s.prt q).roster.length < 63 ∧ (s.prt q).roster.Nodup ∧ i ∉ (s.prt q).roster) : RoomForNew s q i :=
  ⟨w.1, w.2.1, w.2.2.1, w.2.2.2.1, w.2.2.2.2⟩

theorem heldOffer_of {s : State} {i : Slot} (h : (s.call i).state = .offered ∧ (s.call i).target = none ∧
      (s.call i).position = some 0 ∧ (s.pos 0).offered = some i ∧ (s.call i).partition = 0 ∧ i ∈ (s.prt 0).roster ∧
      (s.prt 0).roster.Nodup ∧ (s.call i).expiryHeld = true)
    (w : (s.part 0).overflow = .partition 1 ∧ (s.part 1).enabled = true ∧ ((s.prt 1).mode = .day ∧
        s.newCount 1 < (s.part 1).capacity ∧ (s.prt 1).roster.length < 63 ∧ (s.prt 1).roster.Nodup ∧ i ∉ (s.prt 1).roster) ∨
      (s.part 0).overflow = .fallback ∧ (s.part 0).announcer = some 50 ∧ lineServes s 50 = true) : HeldOffer s i 0 0 := by
  refine ⟨⟨h.1, h.2.1, h.2.2.1, h.2.2.2.1⟩, ⟨h.2.2.2.2.1, h.2.2.2.2.2.1, h.2.2.2.2.2.2.1⟩, h.2.2.2.2.2.2.2, ?_, ?_⟩
  · intro r hr
    rcases w with w | w
    · rw [w.1] at hr; cases hr; exact ⟨by decide, w.2.1, newRoom_of w.2.2⟩
    · rw [w.1] at hr; cases hr
  · intro hf
    rcases w with w | w
    · rw [w.1] at hf; cases hf
    · exact ⟨50, w.2⟩

theorem test_witness_pause_held : ∀ s ∈ [posted 3 0 [1] (offeredHeld (.partition 1)), posted 3 0 [1] (offeredHeld .fallback)],
    PauseReady s 0 0 ∧ cellBody s.mem 0 0 ≠ 0 ∧ HeldOffer s 5 0 0 ∧ s.room (overflowOrders s 5 0) := by
  intro s h
  fin_cases h <;> exact ⟨⟨takes_of (by decide +kernel), by decide +kernel⟩, by decide +kernel,
    heldOffer_of (by decide +kernel) (by decide +kernel), by unfold State.room; decide +kernel⟩

theorem test_witness_pause_on : PauseReady (posted 3 0 [1] offered) 0 0 ∧ cellBody (posted 3 0 [1] offered).mem 0 0 ≠ 0 ∧
    ((posted 3 0 [1] offered).pos 0).offered = some 5 ∧
    ∀ j, ((posted 3 0 [1] offered).pos 0).offered = some j → j = 5 ∧
      ((posted 3 0 [1] offered).call 5).state = .offered ∧ ((posted 3 0 [1] offered).call 5).expiryHeld = false ∧
      ((posted 3 0 [1] offered).call 5).target = none :=
  ⟨⟨takes_of (by decide +kernel), by decide +kernel⟩, by decide +kernel⟩

/-- A PAUSE off at a paused position 0. -/
def resumes : State := posted 3 0 [0] (seat 0 (fun q => { q with isOpen := true, pause := some .missed, missed := 2 }) quiet)

theorem test_witness_pause_off : PauseReady resumes 0 0 ∧ cellBody resumes.mem 0 0 = 0 ∧ (resumes.pos 0).pause ≠ none ∧
    (resumes.pos 0).offered = none ∧ (resumes.pos 0).speaking = none ∧ ∃ l, (resumes.pos 0).loops.get l = none :=
  ⟨⟨takes_of (by decide +kernel), by decide +kernel⟩, by decide +kernel⟩

/-! ### Answering, picking, holding, retrieving, disconnecting -/

/-- `FromRoster` from its parts. -/
theorem from_of {s : State} {p : Pos} {i : Slot} {l : LoopIx} {h : Circuit}
    (w : (s.pos p).isOpen = true ∧ (s.pos p).headset = some h ∧ (s.pos p).loops.get l = none ∧
      (∀ j < l, (s.pos p).loops.get j ≠ none) ∧ i ∈ (s.prt (s.call i).partition).roster ∧
      (s.prt (s.call i).partition).roster.Nodup ∧ (s.call i).target = none) : FromRoster s p i l h :=
  ⟨w.1, w.2.1, w.2.2.1, w.2.2.2.1, w.2.2.2.2.1, w.2.2.2.2.2.1, w.2.2.2.2.2.2⟩

/-- `RosterCall` from its parts. -/
theorem roster_of {s : State} {p : Pos} {i : Slot} {l : LoopIx} {h : Circuit}
    (w : (s.pos p).isOpen = true ∧ (s.pos p).headset = some h ∧ (s.pos p).loops.get l = none ∧
      (∀ j < l, (s.pos p).loops.get j ≠ none) ∧ i ∈ (s.prt (s.call i).partition).roster ∧
      (s.prt (s.call i).partition).roster.Nodup ∧ (s.call i).target = none ∧
      s.room [.join (s.call i).caller h, .tone (s.call i).caller .quiet]) : RosterCall s p i l h :=
  ⟨from_of ⟨w.1, w.2.1, w.2.2.1, w.2.2.2.1, w.2.2.2.2.1, w.2.2.2.2.2.1, w.2.2.2.2.2.2.1⟩, w.2.2.2.2.2.2.2⟩

theorem test_witness_answer : AnswerReady (posted 4 0 [] offered) 0 0 5 0 60 :=
  ⟨⟨takes_of (by decide +kernel), from_of (by decide +kernel), rfl, rfl, rfl⟩, by unfold State.room; decide +kernel⟩

/-- The queue of link 0 is full. -/
def clogged (s : State) : State := wire 0 (fun k => { k with queue := List.replicate 32 rings1 }) s
/-- The offered call has this many orders pending. -/
def offeredWith (n : Nat) : State := posted 4 0 [] (clogged (offered.setCall 5 { offered.call 5 with pending := n }))

theorem test_witness_answer_refused : ∀ n ∈ [0, 2], AnswerTakes (offeredWith n) 0 0 5 0 60 ∧
    fullLink (offeredWith n) ((offeredWith n).call 5).caller ∧ ((offeredWith n).call 5).extend = none ∧
    ((offeredWith n).call 5).pending = n := by
  intro n h
  fin_cases h <;> exact ⟨⟨takes_of (by decide +kernel), from_of (by decide +kernel), rfl, rfl, rfl⟩,
    by unfold fullLink; decide +kernel⟩

/-- A PICK of slot 5 at position 0, to which the call of slot 6 is offered. -/
def picks : State :=
  posted 5 0 [5] (room 0 (fun q => { q with roster := [6, 5] }) ((seat 0 (fun q => { q with isOpen := true, offered := some 6 })
    (queued (trunkCall .queued))).setCall 6 { trunkCall .offered with caller := 2, place := some 1, position := some 0 }))

/-- The same with the expiry of the offered call held. -/
def picksHeld : State := picks.setCall 6 { picks.call 6 with expiryHeld := true, waitDeadline := some 900 }

theorem test_witness_pick : PickReady picks 0 0 5 0 60 ∧ withdrawable picks 0 5 ∧ (picks.pos 0).offered = some 6 :=
  ⟨⟨takes_of (by decide +kernel), roster_of (by unfold State.room; decide +kernel), by decide +kernel, rfl, rfl, rfl, rfl,
    by decide +kernel⟩, by unfold withdrawable; decide +kernel, rfl⟩
theorem test_witness_pick_held : PickReady picksHeld 0 0 5 0 60 ∧ HeldOffer picksHeld 6 0 (picksHeld.call 5).partition ∧
    picksHeld.room (overflowOrders picksHeld 6 0 ++ [.join 1 60, .tone 1 .quiet]) :=
  ⟨⟨takes_of (by decide +kernel), roster_of (by unfold State.room; decide +kernel), by decide +kernel, rfl, rfl, rfl, rfl,
    by decide +kernel⟩, heldOffer_of (by decide +kernel) (by decide +kernel), by unfold State.room; decide +kernel⟩
theorem test_witness_hold : HoldReady (posted 6 0 [] (speaking (loopCall .talking))) 0 0 5 0 60 :=
  ⟨takes_of (by decide +kernel), speaking_of (by decide +kernel), rfl, rfl, rfl, by unfold State.room; decide +kernel⟩
theorem test_witness_retrieve : RetrieveReady (posted 7 0 [0] (parked (loopCall .held))) 0 0 5 0 60 := by
  constructor
  case room => unfold State.room; decide +kernel
  case toTakes => exact takes_of (by decide +kernel)
  all_goals decide +kernel

/-- A RETRIEVE at position 0, to which the call of slot 6 is offered. -/
def retrieves : State :=
  (seat 0 (fun q => { q with offered := some 6 }) (posted 7 0 [0] (parked (loopCall .held)))).setCall 6
    { trunkCall .offered with caller := 2, place := some 1, position := some 0 }

theorem test_witness_retrieve_offered : withdrawable retrieves 0 5 ∧ (retrieves.pos 0).offered = some 6 := by
  unfold withdrawable; decide +kernel

/-- A RETRIEVE of the call of slot 6 at position 0, to which a call with a held expiry is offered. -/
def retrievesHeld : State :=
  (seat 0 (fun q => { q with loops := q.loops.set 0 (some 6) }) (posted 7 0 [0] (offeredHeld .fallback))).setCall 6
    { loopCall .held with caller := 2 }

theorem test_witness_retrieve_held : RetrieveReady retrievesHeld 0 0 6 0 60 ∧ HeldOffer retrievesHeld 5 0 0 ∧
    retrievesHeld.room (overflowOrders retrievesHeld 5 0 ++ [.join 2 60, .tone 2 .quiet]) := by
  refine ⟨?_, heldOffer_of (by decide +kernel) (by decide +kernel), by unfold State.room; decide +kernel⟩
  constructor
  case room => unfold State.room; decide +kernel
  case toTakes => exact takes_of (by decide +kernel)
  all_goals decide +kernel

theorem test_witness_disconnect :
    DisconnectReady (posted 11 0 [] (speaking (consultCall .consultRinging))) 0 0 5 0 60 41 ∧
    (posted 11 0 [] (speaking (consultCall .consultRinging))).room
      (disconnectOrders (consultCall .consultRinging) 60 41) ∧
    reachable (posted 11 0 [] (speaking (consultCall .consultRinging)))
      (disconnectOrders (consultCall .consultRinging) 60 41) :=
  ⟨⟨takes_of (by decide +kernel), speaking_of (by decide +kernel), by decide +kernel, by decide +kernel,
      .inr ⟨by decide +kernel, 2106, by decide +kernel⟩⟩,
    by unfold State.room; decide +kernel, by unfold reachable; decide +kernel⟩

/-- The same, but TALKING, with the caller's shelf LOST. -/
def dark : State :=
  wire 0 (fun k => { k with shelves := k.shelves.set 0 { state := .lost, misses := 3, interval := 40 } })
    (posted 11 0 [] (speaking (loopCall .talking)))

theorem test_witness_disconnect_dark : DisconnectReady dark 0 0 5 0 60 41 ∧ (dark.call 5).state = .talking ∧
    (dark.call 5).target = none ∧ (dark.call 5).pending = 0 ∧ (dark.shelfOf (dark.call 5).caller).state = .lost :=
  ⟨⟨takes_of (by decide +kernel), speaking_of (by decide +kernel), by decide +kernel, by decide +kernel,
      .inl (by decide +kernel)⟩, by decide +kernel⟩

/-! ### Extending, transferring, cancelling -/

/-- EXTEND to 2106 with this mode, from position 0. -/
def asks (mode : Byte) (s : State) : State := posted 8 0 (bytesOf16 2106 ++ [mode]) s
/-- The call of slot 5 is TALKING at position 0. -/
def talks : State := speaking (loopCall .talking)

theorem extend_of {s : State} {i : Slot} {k : Circuit} {n : Word} (hs : Speaking s 0 i 0 60) (ht : Takes s 0 .extendK 0)
    (w : (s.pos 0).extend = none ∧ (s.call i).state = .talking ∧ cellBody s.mem 0 1 ++ cellBody s.mem 0 0 = n ∧
      n.toNat ≤ 9999 ∧ s.lookup n = some k ∧ k ≠ (s.call i).caller) : ExtendReady s 0 0 i 0 60 k n :=
  ⟨ht, hs, w.1, w.2.1, w.2.2.1, w.2.2.2.1, w.2.2.2.2.1, w.2.2.2.2.2⟩

theorem test_witness_screened_free : ExtendReady (asks 0 talks) 0 0 5 0 60 41 2106 ∧
    cellBody (asks 0 talks).mem 0 2 = 0 ∧ freeTarget (asks 0 talks) 41 ∧ ((asks 0 talks).call 5).target = none ∧
    (asks 0 talks).room [.part 1 60, .tone 1 .hold, .ring 41, .join 60 41] :=
  ⟨extend_of (speaking_of (by decide +kernel)) (takes_of (by decide +kernel)) (by decide +kernel), by decide +kernel,
    by unfold freeTarget; decide +kernel, by decide +kernel, by unfold State.room; decide +kernel⟩
theorem test_witness_screened_busy : ExtendReady (asks 0 (line 41 .ringing talks)) 0 0 5 0 60 41 2106 ∧
    cellBody (asks 0 (line 41 .ringing talks)).mem 0 2 = 0 ∧ busyTarget (asks 0 (line 41 .ringing talks)) 41 :=
  ⟨extend_of (speaking_of (by decide +kernel)) (takes_of (by decide +kernel)) (by decide +kernel), by decide +kernel,
    by unfold busyTarget; decide +kernel⟩
theorem test_witness_direct_free : ExtendReady (asks 255 talks) 0 0 5 0 60 41 2106 ∧
    cellBody (asks 255 talks).mem 0 2 ≠ 0 ∧ freeTarget (asks 255 talks) 41 ∧
    (asks 255 talks).room [.part 1 60, .tone 1 .ringback, .ring 41] :=
  ⟨extend_of (speaking_of (by decide +kernel)) (takes_of (by decide +kernel)) (by decide +kernel), by decide +kernel,
    by unfold freeTarget; decide +kernel, by unfold State.room; decide +kernel⟩

/-- The line of circuit 41 is BUSY and this many calls camp on it. -/
def camped (n : Nat) : State :=
  let s := line 41 .busy talks
  s.setLamp 41 { s.lamp 41 with camp := [6, 7, 8].take n }

theorem test_witness_direct_camps : ExtendReady (asks 1 (camped 2)) 0 0 5 0 60 41 2106 ∧
    cellBody (asks 1 (camped 2)).mem 0 2 ≠ 0 ∧ busyTarget (asks 1 (camped 2)) 41 ∧
    hasCampRoom (asks 1 (camped 2)) 41 ∧ ((asks 1 (camped 2)).call 5).target = none ∧
    (asks 1 (camped 2)).room [.part 1 60, .tone 1 .hold] :=
  ⟨extend_of (speaking_of (by decide +kernel)) (takes_of (by decide +kernel)) (by decide +kernel), by decide +kernel,
    by unfold busyTarget; decide +kernel, by unfold hasCampRoom; decide +kernel, by decide +kernel,
    by unfold State.room; decide +kernel⟩
theorem test_witness_direct_full : ExtendReady (asks 1 (camped 3)) 0 0 5 0 60 41 2106 ∧
    cellBody (asks 1 (camped 3)).mem 0 2 ≠ 0 ∧ busyTarget (asks 1 (camped 3)) 41 ∧
    ¬ hasCampRoom (asks 1 (camped 3)) 41 :=
  ⟨extend_of (speaking_of (by decide +kernel)) (takes_of (by decide +kernel)) (by decide +kernel), by decide +kernel,
    by unfold busyTarget; decide +kernel, by unfold hasCampRoom; decide +kernel⟩

theorem consult_of {s : State} {k : OrderKind} (hs : Speaking s 0 5 0 60) (ht : Takes s 0 k 0)
    (w : (s.call 5).target = some { number := 2106, circuit := 41 } ∧ (s.pos 0).extend = (s.call 5).extend ∧
      ((s.call 5).extend = none → (s.pos 0).extendCell = none)) : ConsultReady s 0 k 0 5 0 60 41 :=
  ⟨ht, hs, ⟨_, w.1⟩, w.2.1, w.2.2⟩

/-- TRANSFER of a confirmed ring. -/
def transfersRing : State := posted 9 0 [] (speaking { consultCall .consultRinging with confirmed := true, ringCount := 2 })
/-- TRANSFER of a consultation. -/
def transfersTalk : State := posted 9 0 [] (speaking (consultCall .consultTalking))

theorem test_witness_transfer_ring : ConsultReady transfersRing 0 .transferK 0 5 0 60 41 ∧
    (transfersRing.call 5).state = .consultRinging ∧ (transfersRing.call 5).confirmed = true ∧
    transfersRing.room [.part 60 41, .tone 1 .ringback] :=
  ⟨consult_of (speaking_of (by decide +kernel)) (takes_of (by decide +kernel)) (by decide +kernel), by decide +kernel,
    by decide +kernel, by unfold State.room; decide +kernel⟩
theorem test_witness_transfer_talk : ConsultReady transfersTalk 0 .transferK 0 5 0 60 41 ∧
    (transfersTalk.call 5).state = .consultTalking ∧ (transfersTalk.call 5).extend = none ∧
    transfersTalk.room [.part 60 41, .join 1 41] :=
  ⟨consult_of (speaking_of (by decide +kernel)) (takes_of (by decide +kernel)) (by decide +kernel), by decide +kernel,
    by decide +kernel, by unfold State.room; decide +kernel⟩

/-- A CANCEL on a call in this state; its EXTEND is in flight from cell 1. -/
def cancels (st : CallState) : State :=
  posted 10 0 [] (seat 0 (fun q => { q with extend := some 9, extendCell := some 1 })
    (speaking { consultCall st with extend := some 9 }))

theorem test_witness_cancel : ∀ st ∈ [CallState.consultRinging, .consultTalking, .talking],
    ConsultReady (cancels st) 0 .cancelK 0 5 0 60 41 ∧
    (((cancels st).call 5).state = .consultRinging ∨ ((cancels st).call 5).state = .consultTalking ∨
      (((cancels st).call 5).state = .talking ∧ ((cancels st).call 5).extend ≠ none)) ∧
    ((cancels st).lamp 41).camp = [] ∧ (cancels st).room (cancelOrders ((cancels st).call 5) 60 41) := by
  intro st h
  fin_cases h <;>
    exact ⟨consult_of (speaking_of (by decide +kernel)) (takes_of (by decide +kernel)) (by decide +kernel),
      by decide +kernel, by decide +kernel, by unfold State.room; decide +kernel⟩

/-! ### Night service and the plan -/

/-- SET_NIGHT of partition 0 with this mode byte, by the chief; one call waits. -/
def nights (mode : Byte) (s : State) : State := posted 12 0 [0, mode] (seat 0 (fun q => { q with isOpen := true, role := .chief }) s)

theorem night_of {s : State} (ht : Takes s 0 .setNightK 0)
    (w : (s.pos 0).role = .chief ∧ (cellBody s.mem 0 0).toNat = 0 ∧ (s.part 0).enabled = true) : SetNightReady s 0 0 0 :=
  ⟨ht, w.1, w.2.1, w.2.2⟩

theorem test_witness_night : SetNightReady (nights 255 (queued (trunkCall .queued))) 0 0 0 ∧
    cellBody (nights 255 (queued (trunkCall .queued))).mem 0 1 ≠ 0 ∧
    ((nights 255 (queued (trunkCall .queued))).prt 0).mode = .day ∧
    ((nights 255 (queued (trunkCall .queued))).prt 0).roster = [5] ∧
    ((nights 255 (queued (trunkCall .queued))).prt 0).roster.Nodup ∧
    ∀ i ∈ ((nights 255 (queued (trunkCall .queued))).prt 0).roster,
      ((nights 255 (queued (trunkCall .queued))).call i).partition = 0 ∧
      (((nights 255 (queued (trunkCall .queued))).call i).state = .queued ∨
        ((nights 255 (queued (trunkCall .queued))).call i).state = .offered) :=
  ⟨night_of (takes_of (by decide +kernel)) (by decide +kernel), by decide +kernel⟩

/-- Partition 0 is in NIGHT. -/
def dark0 : State := room 0 (fun q => { q with mode := .night }) quiet

theorem test_witness_day : SetNightReady (nights 0 dark0) 0 0 0 ∧ cellBody (nights 0 dark0).mem 0 1 = 0 ∧
    ((nights 0 dark0).prt 0).mode = .night := ⟨night_of (takes_of (by decide +kernel)) (by decide +kernel), by decide +kernel⟩
theorem test_witness_same_mode : SetNightReady (nights 0 quiet) 0 0 0 ∧
    (cellBody (nights 0 quiet).mem 0 1 = 0 ↔ ((nights 0 quiet).prt 0).mode = .day) :=
  ⟨night_of (takes_of (by decide +kernel)) (by decide +kernel), by decide +kernel⟩

theorem test_witness_apply_closed : NextOrder (posted 13 15 [] State.reset) 0 .applyPlanK ∧
    cellLength (posted 13 15 [] State.reset).mem 0 = 0 ∧ (posted 13 15 [] State.reset).engine = .closed ∧
    cellPosition (posted 13 15 [] State.reset).mem 0 = 15 := ⟨next_of (by decide +kernel), by decide +kernel⟩
theorem test_witness_apply_serving : NextOrder (posted 13 4 [] (seat 4 (fun q => { q with role := .chief }) quiet)) 0 .applyPlanK ∧
    cellLength (posted 13 4 [] (seat 4 (fun q => { q with role := .chief }) quiet)).mem 0 = 0 ∧
    (posted 13 4 [] (seat 4 (fun q => { q with role := .chief }) quiet)).engine = .serving ∧
    ∃ p : Pos, cellPosition (posted 13 4 [] (seat 4 (fun q => { q with role := .chief }) quiet)).mem 0 = p.val ∧
      ((posted 13 4 [] (seat 4 (fun q => { q with role := .chief }) quiet)).pos p).role = .chief :=
  ⟨next_of (by decide +kernel), by decide +kernel⟩

theorem test_witness_apply_decided : applying.apply = some { cell := 0, staged := morning } ∧
    Memory.wf applying.mem = true ∧ ∀ p, (applying.pos p).isOpen = true → (applying.pos p).partition ≠ none :=
  ⟨rfl, by decide +kernel⟩

/-- No call is live. -/
theorem applying_idle (k : Circuit) : ¬ heldByCall applying k := by
  rintro ⟨i, h, -⟩
  have : ∀ i, (applying.call i).state = .free := by decide +kernel
  exact h (this i)

/-- The extensions of the worked sequences have numbers of their own. -/
theorem morning_numbers (j k : Circuit) (n : Word) (hj : hasNumber morning j n) (hk : hasNumber morning k n) : j = k := by
  have h : ∀ c : Circuit, (entry c).kind = .extension → c = 32 ∨ c = 40 ∨ c = 41 ∨ c = 45 := by decide +kernel
  have hn : ∀ c : Circuit, (morning.directory.get c).kind = (entry c).kind ∧
      (morning.directory.get c).number = (entry c).number := by decide +kernel
  obtain ⟨a, b⟩ := hj
  obtain ⟨c, d⟩ := hk
  rw [(hn j).1] at a
  rw [(hn k).1] at c
  rw [(hn j).2] at b
  rw [(hn k).2, ← b] at d
  rcases h j a with rfl | rfl | rfl | rfl <;> rcases h k c with rfl | rfl | rfl | rfl <;> revert d <;> decide

theorem test_witness_plan_fits : PlanFits applying morning := by
  have shut : ∀ p, (applying.pos p).isOpen = false := by decide +kernel
  intro check index
  unfold planHolds
  split
  · unfold memberOf; exact ⟨fun _ => by decide +kernel, fun _ => by decide +kernel⟩
  · have h : ∀ p q r, memberOf morning q p → memberOf morning r p → q = r := by unfold memberOf; decide +kernel
    exact fun p q r _ => h p q r
  · exact fun p _ h => by rw [shut p] at h; cases h
  · have h : ∀ q, (applying.part q).enabled = true → (morning.parts.get q).enabled = false →
        (applying.prt q).roster = [] ∧ ∀ p, (applying.pos p).isOpen = true → (applying.pos p).partition ≠ some q := by
      decide +kernel
    exact fun q _ => h q
  · have h : ∀ q, (morning.parts.get q).enabled = true →
        ((applying.prt q).roster.filter fun i => (applying.call i).cls == .new).length ≤ (morning.parts.get q).capacity := by
      decide +kernel
    exact fun q _ => h q
  · exact fun j k n _ h hj hk => absurd (morning_numbers j k n hj hk) (by rintro rfl; exact absurd h (lt_irrefl j))
  · exact fun k _ h => absurd h (applying_idle k)
  · have h : ∀ q, (morning.parts.get q).enabled = true → ∃ k, hasNumber morning k (morning.parts.get q).night := by
      unfold hasNumber; decide +kernel
    exact fun q _ => h q
  · have h : ∀ q r, (morning.parts.get q).enabled = true → (morning.parts.get q).overflow = .partition r →
        r ≠ q ∧ (morning.parts.get r).enabled = true := by decide +kernel
    exact fun q r _ => h q r
  · exact fun n k _ _ _ => ⟨applying_idle k, fun p h => by rw [shut p] at h; cases h⟩
  · have h : ∀ p q, memberOf morning q p → ∃ h, morning.headsets.get p = some h ∧
        (morning.directory.get h).kind = .position ∧
        ∀ x r, x ≠ p → memberOf morning r x → morning.headsets.get x ≠ some h := by unfold memberOf; decide +kernel
    exact fun p q _ => h p q
  · trivial

/-- The same apply, of a plan without headsets. -/
def failing : State :=
  { quiet with apply := some { cell := 0, staged := { morning with headsets := .fill none } },
               taker := { quiet.taker with taken := [0] } }

theorem test_witness_plan_does_not_fit : ¬ PlanFits failing { morning with headsets := .fill none } := by
  intro h
  obtain ⟨x, hx, -⟩ := h 11 0 0 0 rfl (by unfold memberOf; decide +kernel)
  revert hx
  revert x
  decide +kernel
theorem test_witness_failed_apply : failing.apply = some { cell := 0, staged := { morning with headsets := .fill none } } ∧
    Memory.wf failing.mem = true ∧ failing.invalid { morning with headsets := .fill none } = some (11, 0) :=
  ⟨rfl, by decide +kernel⟩
theorem test_witness_activation : applying.apply = some { cell := 0, staged := morning } ∧
    Memory.wf applying.mem = true ∧ applying.invalid morning = none ∧ (∀ p, (applying.pos p).extendCell ≠ some 0) ∧
    ∀ p q, (applying.pos p).isOpen = true → (applying.pos p).partition = some q → (applying.part q).enabled = true :=
  ⟨rfl, by decide +kernel⟩

/-! ### Shelf links -/

theorem test_witness_send_again : MaySend (wire 0 (fun k => { k with again := some { addr := 3, entry := none } }) quiet) 0 ∧
    ((wire 0 (fun k => { k with again := some { addr := 3, entry := none } }) quiet).link 0).again =
      some { addr := 3, entry := none } := ⟨⟨by decide +kernel, by decide +kernel⟩, by decide +kernel⟩

theorem test_witness_send_order : MaySend (wire 0 (fun k => { k with queue := [rings1] }) quiet) 0 ∧
    ((wire 0 (fun k => { k with queue := [rings1] }) quiet).link 0).again = none ∧
    ((wire 0 (fun k => { k with queue := [rings1] }) quiet).link 0).queue = [rings1] ∧
    (((wire 0 (fun k => { k with queue := [rings1] }) quiet).link 0).shelves.get (addrOf rings1.order.first)).state = .present :=
  ⟨⟨by decide +kernel, by decide +kernel⟩, by decide +kernel⟩

/-- Shelf 3 of link 0 has passed its poll deadline. -/
def due3 : State := wire 0 (fun k => { k with polls := k.polls.set 3 .due }) quiet
/-- Besides it, shelf 2 has more reports. -/
def more2 : State := wire 0 (fun k => { k with more := k.more.set 2 true }) due3

theorem test_witness_send_poll : MaySend due3 0 ∧ (due3.link 0).again = none ∧ (due3.link 0).queue = [] ∧
    pollsNext (due3.link 0) 3 :=
  ⟨⟨by decide +kernel, by decide +kernel⟩, by decide +kernel, by decide +kernel,
    by unfold pollsNext asksMore; decide +kernel⟩
theorem test_witness_send_more : MaySend more2 0 ∧ (more2.link 0).again = none ∧ (more2.link 0).queue = [] ∧
    pollsNext (more2.link 0) 2 :=
  ⟨⟨by decide +kernel, by decide +kernel⟩, by decide +kernel, by decide +kernel,
    by unfold pollsNext asksMore; decide +kernel⟩
theorem test_witness_send_nothing : MaySend quiet 0 ∧ (quiet.link 0).again = none ∧ (quiet.link 0).queue = [] ∧
    ∀ a, ¬ pollsNext (quiet.link 0) a :=
  ⟨⟨by decide +kernel, by decide +kernel⟩, by decide +kernel, by decide +kernel,
    by unfold pollsNext asksMore; decide +kernel⟩
theorem test_witness_send_waits : (State.reset.link 3).state = .held ∧ ((flying none quiet).link 0).frame ≠ none := by
  decide +kernel

/-- An order of this call waits for a LOST shelf, its circuit's line in this state. -/
def waitingOrder (c : Call) (v : LineState) : State :=
  put c (line 1 v
    (wire 0 (fun k => { k with queue := [rings1], shelves := k.shelves.set 0 { state := .lost, misses := 3, interval := 40 } }) quiet))
/-- The last order of a closing call, or one of several. -/
def closes (n : Nat) : State := waitingOrder { trunkCall .closing with pending := n, endReason := some .shelfLost } .outOfService

theorem fails_of {s : State} (w : (s.link 0).state = .running ∧ (s.link 0).frame = none ∧ (s.link 0).again = none ∧
    (s.link 0).queue = [rings1] ∧ ((s.link 0).shelves.get 0).state = .lost) : FailsAtHead s 0 rings1 [] 5 :=
  ⟨⟨w.1, w.2.1⟩, w.2.2.1, w.2.2.2.1, by
    have h : addrOf rings1.order.first = 0 := by decide
    rw [h, w.2.2.2.2]; decide, rfl⟩

theorem test_witness_send_fails : FailsAtHead (closes 1) 0 rings1 [] 5 ∧ (∀ a, ¬ pollsNext ((closes 1).link 0) a) ∧
    rings1.handover = false ∧ ((closes 1).call 5).state = .closing ∧ ((closes 1).call 5).pending = 1 ∧
    ((closes 1).call 5).target = none :=
  ⟨fails_of (by decide +kernel), by unfold pollsNext asksMore; decide +kernel⟩
theorem test_witness_send_lowers : ∀ s ∈ [closes 2, waitingOrder { trunkCall .queued with pending := 1 } .outOfService],
    FailsAtHead s 0 rings1 [] 5 ∧ (∀ a, ¬ pollsNext (s.link 0) a) ∧
    (rings1.handover = false ∧ (s.call 5).state = .closing ∧ 1 < (s.call 5).pending ∨
      (s.call 5).state ≠ .free ∧ (s.call 5).state ≠ .closing ∧ (s.lamp rings1.order.first).line = .outOfService) := by
  intro s h
  fin_cases h <;> exact ⟨fails_of (by decide +kernel), by unfold pollsNext asksMore; decide +kernel⟩
theorem test_witness_send_faults : FailsAtHead (waitingOrder { trunkCall .queued with pending := 1 } .busy) 0 rings1 [] 5 ∧
    (fun s : State => (s.call 5).state ≠ .free ∧ (s.call 5).state ≠ .closing ∧
      (s.lamp rings1.order.first).line ≠ .outOfService) (waitingOrder { trunkCall .queued with pending := 1 } .busy) :=
  ⟨fails_of (by decide +kernel), by decide +kernel⟩

/-- The frame that `flying` has put on link 0. -/
def flown (x : Option Entry) : Frame :=
  { addr := 0, entry := x, again := false, bytes := frameBytes 0 x false, window := 5, dead := false }

theorem flies_of {s : State} {x : Entry} (hx : x.slot = some 5)
    (w : (s.link 0).frame = some (flown (some x)) ∧ ((s.link 0).shelves.get 0).state = .present ∧ Memory.wf s.mem = true) :
    OrderFlies s 0 (flown (some x)) x 5 := ⟨w.1, rfl, rfl, hx, w.2.1, w.2.2⟩
theorem polls_of {s : State} (w : (s.link 0).frame = some (flown none) ∧ ((s.link 0).shelves.get 0).state = .present ∧
    Memory.wf s.mem = true) : PollFlies s 0 (flown none) := ⟨w.1, rfl, rfl, w.2.1, w.2.2⟩

/-- An order of a call in this state is on its way. -/
def orders (st : CallState) (x : Entry) : State := flying (some x) (put { trunkCall st with pending := 1 } quiet)
/-- The hand-over JOIN. -/
def handsOver : Entry := { order := .join 1 41, slot := some 5, handover := true }

theorem test_witness_ack_live : OrderFlies (orders .queued rings1) 0 (flown (some rings1)) rings1 5 ∧
    plainOrder rings1.order ∧ ((orders .queued rings1).call 5).state ≠ .free ∧
    ((orders .queued rings1).call 5).state ≠ .closing ∧ (0xFF : Byte) ≠ 0 :=
  ⟨flies_of rfl (by decide +kernel), fun k => ⟨nofun, nofun⟩, by decide +kernel⟩
theorem test_witness_ack_closing : OrderFlies (orders .closing rings1) 0 (flown (some rings1)) rings1 5 ∧
    plainOrder rings1.order ∧ ((orders .closing rings1).call 5).state = .closing ∧
    ((orders .closing rings1).call 5).pending = 1 ∧
    (∀ g, ((orders .closing rings1).call 5).target = some g → ((orders .closing rings1).lamp g.circuit).camp = []) := by
  refine ⟨flies_of rfl (by decide +kernel), fun k => ⟨nofun, nofun⟩, by decide +kernel, by decide +kernel, fun g h => ?_⟩
  have h0 : ((orders .closing rings1).call 5).target = none := by decide +kernel
  rw [h0] at h
  cases h
theorem test_witness_nak_handover : OrderFlies (orders .closing handsOver) 0 (flown (some handsOver)) handsOver 5 ∧
    plainOrder handsOver.order ∧ handsOver.handover = true ∧ ((orders .closing handsOver).call 5).state = .closing ∧
    0 < ((orders .closing handsOver).call 5).pending ∧ (0xFF : Byte) ≠ 0 ∧
    (orders .closing handsOver).room [.drop ((orders .closing handsOver).call 5).caller] ∧
    reachable (orders .closing handsOver) [.drop ((orders .closing handsOver).call 5).caller] :=
  ⟨flies_of rfl (by decide +kernel), fun k => ⟨nofun, nofun⟩, rfl, by decide +kernel, by decide +kernel, by decide,
    by unfold State.room; decide +kernel, by unfold reachable; decide +kernel⟩

/-- The RING of a SCREENED EXTEND whose cell is 1. -/
def ring41 : Entry := { order := .ring 41, slot := some 5, handover := false }
/-- It is on its way; circuit 41 belongs to shelf 2, but the frame is what counts here. -/
def consulting : State :=
  flying (some ring41) (seat 0 (fun q => { q with extend := some 9, extendCell := some 1 })
    ((speaking { consultCall .consultRinging with extend := some 9, pending := 1 }).setRing 41 1))

theorem test_witness_ring_outcome : OrderFlies consulting 0 (flown (some ring41)) ring41 5 ∧ ring41.order = .ring 41 ∧
    Speaking consulting 0 5 0 60 ∧ (consulting.call 5).state = .consultRinging ∧ (consulting.call 5).confirmed = false ∧
    0 < (consulting.call 5).pending ∧ (consulting.call 5).target = some { number := 2106, circuit := 41 } ∧
    (consulting.call 5).extend ≠ none ∧ (consulting.pos 0).extend = (consulting.call 5).extend ∧
    (consulting.pos 0).extendCell = some 1 ∧ consulting.rings.get 41 = 1 ∧ (consulting.lamp 41).camp = [] ∧
    consulting.room [.unring 41, .part 60 41, .join 1 60, .tone 1 .quiet] ∧
    consulting.room [.part 60 41, .join 1 60, .tone 1 .quiet] :=
  ⟨flies_of rfl (by decide +kernel), rfl, speaking_of (by decide +kernel), by unfold State.room; decide +kernel⟩

/-- A call of slot 5 whose RING of circuit 41, its target, is on its way. -/
def rings41 (c : Call) (s : State) : State :=
  flying (some ring41) ((put { c with target := some { number := 2106, circuit := 41 }, pending := 1 } s).setRing 41 1)

theorem rings_of {s : State} (w : (s.link 0).frame = some (flown (some ring41)) ∧
    ((s.link 0).shelves.get 0).state = .present ∧ Memory.wf s.mem = true)
    (v : (s.call 5).target = some { number := 2106, circuit := 41 } ∧ 0 < (s.call 5).pending ∧ s.rings.get 41 = 1) :
    RingFlies s 0 (flown (some ring41)) ring41 5 2106 41 := ⟨flies_of rfl w, rfl, v.1, v.2.1, v.2.2⟩

/-- Position 0 speaks to the call of slot 5 while its EXTEND with mode DIRECT, from cell 1, is in flight. -/
def directly (s : State) : State :=
  seat 0 (fun q => { q with
    isOpen := true, speaking := some 0, loops := q.loops.set 0 (some 5), extend := some 9, extendCell := some 1 }) s
/-- Its record. -/
def directCall : Call := { loopCall .talking with extend := some 9 }
/-- The line of circuit 41 is BUSY and three calls camp on it. -/
def crowd (s : State) : State := s.setLamp 41 { s.lamp 41 with camp := [6, 7, 8], line := .busy }

theorem direct_of {s : State} (h : Speaking s 0 5 0 60) (w : (s.call 5).state = .talking ∧ (s.call 5).extend ≠ none ∧
    (s.pos 0).extend = (s.call 5).extend ∧ (s.pos 0).extendCell = some 1) : DirectFlies s 0 5 0 60 1 :=
  ⟨h, w.1, w.2.1, w.2.2⟩

theorem test_witness_ring_direct : RingFlies (rings41 directCall (directly quiet)) 0 (flown (some ring41)) ring41 5 2106 41 ∧
    DirectFlies (rings41 directCall (directly quiet)) 0 5 0 60 1 ∧ hasCampRoom (rings41 directCall (directly quiet)) 41 ∧
    (rings41 directCall (directly quiet)).room [.tone 1 .hold] ∧ unserved (rings41 directCall (directly quiet)) 41 ∧
    (rings41 directCall (directly quiet)).room [.join 1 60, .tone 1 .quiet] :=
  ⟨rings_of (by decide +kernel) (by decide +kernel), direct_of (speaking_of (by decide +kernel)) (by decide +kernel),
    by unfold hasCampRoom State.room unserved; decide +kernel⟩
theorem test_witness_ring_direct_full :
    RingFlies (rings41 directCall (directly (crowd quiet))) 0 (flown (some ring41)) ring41 5 2106 41 ∧
    DirectFlies (rings41 directCall (directly (crowd quiet))) 0 5 0 60 1 ∧
    ¬ hasCampRoom (rings41 directCall (directly (crowd quiet))) 41 ∧ unserved (rings41 directCall (directly (crowd quiet))) 41 ∧
    (rings41 directCall (directly (crowd quiet))).room [.join 1 60, .tone 1 .quiet] :=
  ⟨rings_of (by decide +kernel) (by decide +kernel), direct_of (speaking_of (by decide +kernel)) (by decide +kernel),
    by unfold hasCampRoom State.room unserved; decide +kernel⟩
theorem test_witness_ring_night : ∀ s ∈ [quiet, crowd quiet],
    RingFlies (rings41 (trunkCall .ringingOut) s) 0 (flown (some ring41)) ring41 5 2106 41 ∧
    ((rings41 (trunkCall .ringingOut) s).call 5).state = .ringingOut ∧
    ((rings41 (trunkCall .ringingOut) s).call 5).confirmed = false ∧
    (hasCampRoom (rings41 (trunkCall .ringingOut) s) 41 ↔ s = quiet) ∧
    (rings41 (trunkCall .ringingOut) s).room [.tone 1 .hold] ∧ unserved (rings41 (trunkCall .ringingOut) s) 41 ∧
    announces (rings41 (trunkCall .ringingOut) s) 0 50 ∧
    (rings41 (trunkCall .ringingOut) s).room [.tone 1 .quiet, .join 1 50] := by
  intro s h
  fin_cases h <;> exact ⟨rings_of (by decide +kernel) (by decide +kernel),
    by unfold hasCampRoom State.room unserved announces; decide +kernel⟩

/-- The call of slot 5 camps on circuit 41, first of the list, its ring pending; `o` is its origin. -/
def campsRinging (o : Option Pos) (held : Bool) (s : State) : State :=
  rings41 { trunkCall .camped with origin := o, ringPending := true, expiryHeld := held }
    (s.setLamp 41 { s.lamp 41 with camp := [5, 6] })
/-- Partition 0 has no announcer. -/
def voiceless : State := rule 0 (fun pp => { pp with announcer := none }) quiet

theorem test_witness_ring_camp : ∀ held ∈ [false, true],
    RingFlies (campsRinging (some 0) held quiet) 0 (flown (some ring41)) ring41 5 2106 41 ∧
    RecallOpen (campsRinging (some 0) held quiet) 5 ∧ ((campsRinging (some 0) held quiet).call 5).state = .camped ∧
    ((campsRinging (some 0) held quiet).call 5).ringPending = true ∧
    ((campsRinging (some 0) held quiet).call 5).expiryHeld = held ∧
    ((campsRinging (some 0) held quiet).call 5).origin ≠ none ∧
    (campsRinging (some 0) held quiet).room [.tone 1 .ringback] := by
  intro held h
  fin_cases h <;> exact ⟨rings_of (by decide +kernel) (by decide +kernel), open_of (by decide +kernel),
    by unfold State.room; decide +kernel⟩
theorem test_witness_ring_camp_congested :
    RingFlies (campsRinging none true voiceless) 0 (flown (some ring41)) ring41 5 2106 41 ∧
    ((campsRinging none true voiceless).call 5).state = .camped ∧
    ((campsRinging none true voiceless).call 5).ringPending = true ∧
    ((campsRinging none true voiceless).call 5).origin = none ∧
    ((campsRinging none true voiceless).part 0).announcer = none ∧
    ((campsRinging none true voiceless).call 5).extend = none ∧
    (campsRinging none true voiceless).room [.tone 1 .congestion] :=
  ⟨rings_of (by decide +kernel) (by decide +kernel), by unfold State.room; decide +kernel⟩

/-- The UNRING of a call that is TALKING again. -/
def unring41 : Entry := { order := .unring 41, slot := some 5, handover := false }

/-- It is on its way while the call of slot 6 camps on the circuit. -/
def unrings (camp : List Slot) : State :=
  let s := orders .talking unring41
  (s.setLamp 41 { s.lamp 41 with line := .ringing, camp := camp }).setCall 6
    { trunkCall .camped with caller := 2, target := some { number := 2106, circuit := 41 } }

theorem test_witness_unring : OrderFlies (unrings []) 0 (flown (some unring41)) unring41 5 ∧
    unring41.order = .unring 41 ∧ ((unrings []).call 5).state ≠ .free ∧ ((unrings []).call 5).state ≠ .closing ∧
    ((unrings []).lamp 41).camp = [] :=
  ⟨flies_of rfl (by decide +kernel), by decide +kernel⟩
theorem test_witness_unring_serves : OrderFlies (unrings [6]) 0 (flown (some unring41)) unring41 5 ∧
    (∀ m n, ((unrings [6]).call m).state ≠ .free →
      ((unrings [6]).call m).target = some { number := n, circuit := 41 } → m ∈ ((unrings [6]).lamp 41).camp) ∧
    ((unrings [6]).call 5).state ≠ .free ∧ ((unrings [6]).call 5).state ≠ .closing ∧
    ((unrings [6]).lamp 41).line = .ringing ∧ ((unrings [6]).lamp 41).camp = [6] ∧ (6 : Slot) ≠ 5 ∧
    ((unrings [6]).call 6).ringPending = false ∧ (unrings [6]).room [.ring 41] := by
  refine ⟨flies_of rfl (by decide +kernel), fun m n _ h => ?_, by unfold State.room; decide +kernel⟩
  have h0 : ∀ m, ((unrings [6]).call m).target ≠ none → m ∈ ((unrings [6]).lamp 41).camp := by decide +kernel
  exact h0 m (by rw [h]; nofun)

theorem test_witness_poll : PollFlies (flying none quiet) 0 (flown none) := polls_of (by decide +kernel)

/-- A search poll of a shelf in this state. -/
def searches (st : ShelfState) : State :=
  flying none (wire 0 (fun k => { k with shelves := k.shelves.set 0 { state := st, misses := 0, interval := 40 } }) quiet)

theorem test_witness_found : ∀ st ∈ [ShelfState.searching, .lost],
    ((searches st).link 0).frame = some (flown none) ∧ (flown none).dead = false ∧ (flown none).entry = none ∧
    ((((searches st).link 0).shelves.get 0).state = .searching ∨ (((searches st).link 0).shelves.get 0).state = .lost) := by
  decide +kernel
theorem test_witness_report : PollFlies (flying none quiet) 0 (flown none) ∧
    Answer.sendable (.poll true [{ port := 15, kind := .fault }]) ∧ (15 : Circuit) = circuitAt 0 0 15 ∧
    noRole (flying none quiet) 15 ∧ ∀ a, ReportKind.fault ≠ .seize true a := by
  refine ⟨polls_of (by decide +kernel), ⟨by decide, by decide, ?_⟩, by decide, ⟨?_, by decide +kernel, by decide +kernel⟩, nofun⟩
  · intro r hr x a h
    simp only [List.mem_singleton] at hr
    subst hr
    cases h
  · intro i h
    have : ∀ i, ((flying none quiet).call i).state = .free := by decide +kernel
    exact absurd (this i) h

/-- A poll of the shelf of circuit 1, whose call waits in the roster. -/
def reports : State := flying none (queued (trunkCall .queued))

theorem callerReports_of {s : State} (hp : PollFlies s 0 (flown none)) (w : ((s.call 5).state ≠ .free ∧
      (s.call 5).state ≠ .closing) ∧ (s.call 5).caller = 1 ∧ (∀ j, j ≠ 5 → (s.call j).state ≠ .free → (s.call j).caller ≠ 1) ∧
      (∀ j g, (s.call j).target = some g → g.circuit ≠ 1) ∧ (s.lamp 1).camp = [] ∧ ∀ p, (s.pos p).headset ≠ some 1) :
    CallerReports s 0 (flown none) 1 1 5 :=
  ⟨hp, ⟨w.1, w.2.1, w.2.2.1⟩, by decide, fun j h => h.1.elim fun _ e => w.2.2.2.1 j _ e rfl, w.2.2.2.2.1, w.2.2.2.2.2⟩

theorem targets_of {s : State} (h : ∀ j, (s.call j).target = none ∨
    (s.call j).target = some { number := 2106, circuit := 41 }) (j : Slot) (g : Target) (e : (s.call j).target = some g) :
    g.circuit = 41 := by
  rcases h j with h | h <;> rw [h] at e <;> cases e
  rfl

theorem test_witness_caller_report : CallerReports reports 0 (flown none) 1 1 5 ∧ (reports.lamp 1).line ≠ .outOfService :=
  ⟨callerReports_of (polls_of (by decide +kernel)) ⟨by decide +kernel, by decide +kernel, by decide +kernel,
    fun j g h => by rw [targets_of (by decide +kernel) j g h]; decide, by decide +kernel⟩, by decide +kernel⟩

/-- A poll of the shelf of circuit 1 is on its way, whose call is this, on loop 0 of position 0 where its state asks for
one. -/
def callerIs (c : Call) : State := flying none (put c (directly quiet))
/-- A call in each state, with its EXTEND in flight where it may have one. -/
def callers : List Call :=
  [trunkCall .queued, { trunkCall .offered with position := some 0 }, loopCall .held, loopCall .talking,
    { consultCall .talking with extend := some 9 }, { consultCall .consultRinging with extend := some 9 },
    consultCall .consultTalking, { trunkCall .ringingOut with target := some { number := 2106, circuit := 41 } },
    { trunkCall .camped with target := some { number := 2106, circuit := 41 }, ringPending := true },
    { trunkCall .camped with target := some { number := 2106, circuit := 41 } },
    { trunkCall .announced with announcer := some 50 }]

theorem test_witness_caller_teardown : ∀ c ∈ callers,
    CallerReports (callerIs c) 0 (flown none) 1 1 5 ∧ CallerLegs (callerIs c) 5 0 60 41 50 ∧
    ((callerIs c).lamp 1).line ≠ .outOfService ∧
    (callerIs c).room (teardownOrders ((callerIs c).call 5) 60 41 50 ++ [.drop ((callerIs c).call 5).caller]) ∧
    reachable (callerIs c) (teardownOrders ((callerIs c).call 5) 60 41 50 ++ [.drop ((callerIs c).call 5).caller]) := by
  intro c h
  fin_cases h <;>
    exact ⟨callerReports_of (polls_of (by decide +kernel)) ⟨by decide +kernel, by decide +kernel, by decide +kernel,
        fun j g h => by rw [targets_of (by decide +kernel) j g h]; decide, by decide +kernel⟩,
      ⟨by unfold loopState; decide +kernel, fun _ => by first | exact ⟨2106, by decide +kernel⟩ | (exfalso; revert ‹_›; decide +kernel),
        by decide +kernel, by decide +kernel, by decide +kernel⟩,
      by unfold State.room reachable; decide +kernel⟩

/-- A poll of a shelf of link 0. -/
def pollOf (a : Addr) : Frame :=
  { addr := a, entry := none, again := false, bytes := frameBytes a none false, window := 5, dead := false }
/-- It is on its way. -/
def polling (a : Addr) (s : State) : State := wire 0 (fun k => { k with frame := some (pollOf a) }) s

theorem polling_of {s : State} {a : Addr} (w : (s.link 0).frame = some (pollOf a) ∧
    ((s.link 0).shelves.get a).state = .present ∧ Memory.wf s.mem = true) : PollFlies s 0 (pollOf a) :=
  ⟨w.1, rfl, rfl, w.2.1, w.2.2⟩

/-- The calls that a forced close finds; the poll that reports the FAULT of headset 60 is in flight. -/
theorem test_witness_headset_fault : ∀ s ∈ [polling 3 forced, polling 3 (forcedFrom (loopCall .talking)),
      polling 3 (forcedFrom { consultCall .talking with extend := some 9 }), polling 3 (forcedFrom (consultCall .consultRinging)),
      polling 3 (forcedFrom (consultCall .consultTalking))],
    HeadsetReports s 0 (pollOf 3) 12 0 60 ∧ ForcedLoop s 0 5 0 60 41 ∧
    s.room (closeLegsSpared (s.call 5) 41 ++ [.tone (s.call 5).caller .ringback]) ∧
    reachable s (closeLegsSpared (s.call 5) 41 ++ [.tone (s.call 5).caller .ringback]) := by
  intro s h
  fin_cases h <;> exact ⟨⟨polling_of (by decide +kernel), by decide, by decide +kernel, by decide +kernel, by decide +kernel,
      by decide +kernel, fun j e => e.1.elim fun n x => absurd (targets_of (by decide +kernel) j _ x) (show (60 : Circuit) ≠ 41 by decide),
      by decide +kernel⟩,
    loop_of (open_of (by decide +kernel)) (by decide +kernel) (by decide +kernel),
    by unfold State.room reachable; decide +kernel⟩

/-- A poll of the shelf of circuit 41, which is the target of the call of slot 5. -/
def asked (c : Call) (s : State) : State :=
  polling 2 (put { c with target := some { number := 2106, circuit := 41 } } s)

theorem asked_of {s : State} (w : (s.link 0).frame = some (pollOf 2) ∧ ((s.link 0).shelves.get 2).state = .present ∧
    Memory.wf s.mem = true) (v : (s.call 5).target = some { number := 2106, circuit := 41 } ∧
    ∀ j, j ≠ 5 → (s.call j).target = none ∨ (s.call j).state = .closing) : TargetReports s 0 (pollOf 2) 9 41 5 2106 :=
  ⟨polling_of w, by decide, v.1, fun j h e => by
    rcases v.2 j h with x | x
    · exact e.1.elim fun n y => by rw [x] at y; cases y
    · have := e.2; rw [x] at this; simp at this⟩

/-- Position 0 speaks to the call of slot 5. -/
def speaks (s : State) : State :=
  seat 0 (fun q => { q with isOpen := true, speaking := some 0, loops := q.loops.set 0 (some 5) }) s
/-- The record of a call whose ring is confirmed. -/
def heard (st : CallState) : Call := { loopCall st with confirmed := true }

theorem test_witness_answer_report :
    TargetReports (asked (heard .consultRinging) (speaks quiet)) 0 (pollOf 2) 9 41 5 2106 ∧
    ((asked (heard .consultRinging) (speaks quiet)).call 5).state = .consultRinging ∧
    ((asked (heard .consultRinging) (speaks quiet)).call 5).confirmed = true :=
  ⟨asked_of (by decide +kernel) (by decide +kernel), by decide +kernel⟩
/-- Slots 6 and 7 are FREE and CLOSING and keep their target (R7). -/
def kept : State :=
  let g : Call := { trunkCall .free with caller := 9, target := some { number := 2106, circuit := 41 } }
  ((asked (heard .consultRinging) (speaks quiet)).setCall 6 g).setCall 7 { g with state := .closing }

theorem test_witness_kept_targets : TargetReports kept 0 (pollOf 2) 9 41 5 2106 ∧
    (kept.call 5).state = .consultRinging ∧ (kept.call 5).confirmed = true ∧ (kept.call 6).target = (kept.call 5).target ∧
    (kept.call 7).target = (kept.call 5).target := by
  refine ⟨⟨polling_of (by decide +kernel), by decide, by decide +kernel, fun j h e => ?_⟩, by decide +kernel⟩
  have w : ∀ j, j ≠ 5 → (kept.call j).state = .free ∨ (kept.call j).state = .closing := by decide +kernel
  rcases w j h with w | w <;> simp [engages, w] at e
theorem test_witness_answer_before_ack :
    TargetReports (asked { directCall with state := .consultRinging } (directly quiet)) 0 (pollOf 2) 9 41 5 2106 ∧
    Speaking (asked { directCall with state := .consultRinging } (directly quiet)) 0 5 0 60 ∧
    TargetReports (asked directCall (directly quiet)) 0 (pollOf 2) 9 41 5 2106 ∧
    DirectFlies (asked directCall (directly quiet)) 0 5 0 60 1 ∧ (asked directCall (directly quiet)).room [.join 1 41] ∧
    (fun s => (s.call 5).state = .consultRinging ∧ (s.call 5).confirmed = false ∧ (s.call 5).extend ≠ none ∧
      (s.pos 0).extend = (s.call 5).extend ∧ (s.pos 0).extendCell = some 1)
      (asked { directCall with state := .consultRinging } (directly quiet)) :=
  ⟨asked_of (by decide +kernel) (by decide +kernel), speaking_of (by decide +kernel),
    asked_of (by decide +kernel) (by decide +kernel), direct_of (speaking_of (by decide +kernel)) (by decide +kernel),
    by unfold State.room; decide +kernel⟩
theorem test_witness_answer_rings_out : ∀ heard ∈ [false, true],
    TargetReports (asked { trunkCall .ringingOut with confirmed := heard } quiet) 0 (pollOf 2) 9 41 5 2106 ∧
    ((asked { trunkCall .ringingOut with confirmed := heard } quiet).call 5).state = .ringingOut ∧
    ((asked { trunkCall .ringingOut with confirmed := heard } quiet).call 5).extend = none ∧
    (asked { trunkCall .ringingOut with confirmed := heard } quiet).room [.join 1 41] := by
  intro b h
  fin_cases h <;> exact ⟨asked_of (by decide +kernel) (by decide +kernel), by unfold State.room; decide +kernel⟩

/-- The call of slot 5 alone camps on circuit 41; a poll of that circuit's shelf is on its way. -/
def waitsFor41 (pending : Bool) : State :=
  asked { trunkCall .camped with origin := some 0, ringPending := pending }
    (quiet.setLamp 41 { quiet.lamp 41 with camp := [5] })

theorem test_witness_answer_camped : TargetReports (waitsFor41 true) 0 (pollOf 2) 9 41 5 2106 ∧
    ((waitsFor41 true).call 5).state = .camped ∧ ((waitsFor41 true).call 5).ringPending = true ∧
    ((waitsFor41 true).lamp 41).camp = [5] ∧ ((waitsFor41 true).call 5).extend = none ∧
    (waitsFor41 true).room [.tone 1 .ringback, .join 1 41] :=
  ⟨asked_of (by decide +kernel) (by decide +kernel), by unfold State.room; decide +kernel⟩
theorem test_witness_clear_report :
    TargetReports (asked (loopCall .consultTalking) (speaks quiet)) 0 (pollOf 2) 9 41 5 2106 ∧
    Speaking (asked (loopCall .consultTalking) (speaks quiet)) 0 5 0 60 ∧
    ((asked (loopCall .consultTalking) (speaks quiet)).call 5).state = .consultTalking ∧
    ((asked (loopCall .consultTalking) (speaks quiet)).lamp 41).camp = [] ∧
    (∀ m, ((asked (loopCall .consultTalking) (speaks quiet)).call m).state ≠ .free →
      ((asked (loopCall .consultTalking) (speaks quiet)).call m).caller ≠ 41) ∧
    (asked (loopCall .consultTalking) (speaks quiet)).room [.part 60 41, .join 1 60, .tone 1 .quiet] :=
  ⟨asked_of (by decide +kernel) (by decide +kernel), speaking_of (by decide +kernel), by unfold State.room; decide +kernel⟩
theorem test_witness_fault_report : ∀ s ∈ [asked { trunkCall .ringingOut with origin := some 0 } quiet, waitsFor41 true],
    TargetReports s 0 (pollOf 2) 9 41 5 2106 ∧ RecallOpen s 5 ∧ (s.lamp 41).line ≠ .outOfService ∧
    (∀ m, (s.call m).state ≠ .free → (s.call m).caller ≠ 41) ∧ (∀ p, (s.pos p).headset ≠ some 41) ∧
    (s.call 5).origin ≠ none ∧
    ((s.call 5).state = .ringingOut ∧ (s.lamp 41).camp = [] ∨ (s.call 5).state = .camped ∧ (s.lamp 41).camp = [5]) ∧
    s.room [.tone (s.call 5).caller .ringback] ∧ (s.shelfOf (s.call 5).caller).state = .present := by
  intro s h
  fin_cases h <;> exact ⟨asked_of (by decide +kernel) (by decide +kernel), open_of (by decide +kernel),
    by unfold State.room; decide +kernel⟩
theorem test_witness_fault_consults : ∀ s ∈ [asked { directCall with state := .consultRinging } (directly quiet),
      asked (heard .consultRinging) (speaks quiet), asked (loopCall .consultTalking) (speaks quiet)],
    TargetReports s 0 (pollOf 2) 9 41 5 2106 ∧ Speaking s 0 5 0 60 ∧ (s.lamp 41).line ≠ .outOfService ∧
    (∀ m, (s.call m).state ≠ .free → (s.call m).caller ≠ 41) ∧ (∀ x, (s.pos x).headset ≠ some 41) ∧
    (s.lamp 41).camp = [] ∧ (s.pos 0).extend = (s.call 5).extend ∧ ((s.call 5).extend = none → (s.pos 0).extendCell = none) ∧
    ((s.call 5).state = .consultRinging ∨ (s.call 5).state = .consultTalking) ∧
    ((s.call 5).state = .consultTalking → (s.call 5).extend = none) ∧
    s.room [.part 60 41, .join 1 60, .tone 1 .quiet] ∧ reachable s [.part 60 41, .join 1 60] := by
  intro s h
  fin_cases h <;> exact ⟨asked_of (by decide +kernel) (by decide +kernel), speaking_of (by decide +kernel),
    by unfold State.room reachable; decide +kernel⟩
theorem test_witness_fault_direct : TargetReports (asked directCall (directly quiet)) 0 (pollOf 2) 9 41 5 2106 ∧
    DirectFlies (asked directCall (directly quiet)) 0 5 0 60 1 ∧ (fun s : State => (s.lamp 41).line ≠ .outOfService ∧
      (∀ m, (s.call m).state ≠ .free → (s.call m).caller ≠ 41) ∧ (∀ x, (s.pos x).headset ≠ some 41) ∧
      (s.lamp 41).camp = [] ∧ s.room [.join 1 60, .tone 1 .quiet] ∧ reachable s [.join 1 60])
      (asked directCall (directly quiet)) :=
  ⟨asked_of (by decide +kernel) (by decide +kernel), direct_of (speaking_of (by decide +kernel)) (by decide +kernel),
    by unfold State.room reachable; decide +kernel⟩
theorem test_witness_idle_reports : PollFlies (waitsFor41 false) 0 (pollOf 2) ∧ (41 : Circuit) = circuitAt 0 2 9 ∧
    (∀ m n, ((waitsFor41 false).call m).target = some { number := n, circuit := 41 } →
      m ∈ ((waitsFor41 false).lamp 41).camp ∧
      (((waitsFor41 false).call m).state = .camped ∧ ((waitsFor41 false).call m).ringPending = false)) ∧
    ((waitsFor41 false).dir 41).kind = .extension ∧ ((waitsFor41 false).lamp 41).camp = [5] ∧
    ((waitsFor41 false).call 5).ringPending = false ∧ (waitsFor41 false).room [.ring 41] ∧
    ∀ m, ((waitsFor41 false).call m).state ≠ .free → ((waitsFor41 false).call m).caller ≠ 41 := by
  refine ⟨polling_of (by decide +kernel), by decide, fun m n h => ?_, by unfold State.room; decide +kernel⟩
  have h0 : ∀ m, ((waitsFor41 false).call m).target ≠ none → m ∈ ((waitsFor41 false).lamp 41).camp ∧
      (((waitsFor41 false).call m).state = .camped ∧ ((waitsFor41 false).call m).ringPending = false) := by decide +kernel
  exact h0 m (by rw [h]; nofun)

/-- An arrival from trunk circuit 1 with two caller digits and a called number of 2100. -/
def caller : Arrival := { caller := [4, 2], called := some 2100 }

theorem arrives_of {s : State} (w : (s.link 0).frame = some (pollOf 0) ∧ ((s.link 0).shelves.get 0).state = .present ∧
    Memory.wf s.mem = true) (v : s.engine = .serving ∧ (s.dir 1).kind = .trunk ∧ (s.dir 1).partition = some 0 ∧
    (s.part 0).enabled = true ∧ ∀ j, (s.call j).state ≠ .free → (s.call j).caller ≠ 1) :
    Arrives s 0 (pollOf 0) 1 caller 1 0 :=
  ⟨polling_of w, ⟨by decide, fun w hw => by cases hw; decide⟩, by decide, v.1, .inl v.2.1, v.2.2.1, v.2.2.2.1, v.2.2.2.2⟩

/-- The slots behind slot 0. -/
def others : List Slot := (List.finRange 64).tail

/-- Partition 0 in NIGHT, the night destination's line in this state. -/
def nightLine (v : LineState) : State := line 32 v (room 0 (fun q => { q with mode := .night }) quiet)

theorem test_witness_arrival_night : ∀ v ∈ [LineState.idle, .busy, .unknown],
    Arrives (polling 0 (nightLine v)) 0 (pollOf 0) 1 caller 1 0 ∧
    ((polling 0 (nightLine v)).free = 0 :: others ∧ ((polling 0 (nightLine v)).call 0).state = .free) ∧
    ((polling 0 (nightLine v)).prt 0).mode = .night ∧
    (polling 0 (nightLine v)).lookup ((polling 0 (nightLine v)).part 0).night = some 32 ∧ (32 : Circuit) ≠ 1 ∧
    (v = .idle → freeTarget (polling 0 (nightLine v)) 32 ∧ (polling 0 (nightLine v)).room [.ring 32, .tone 1 .ringback]) ∧
    (v = .busy → busyTarget (polling 0 (nightLine v)) 32 ∧ hasCampRoom (polling 0 (nightLine v)) 32 ∧
      (polling 0 (nightLine v)).room [.tone 1 .hold]) ∧
    (v = .unknown → ((polling 0 (nightLine v)).lamp 32).line = .unknown ∧ announces (polling 0 (nightLine v)) 0 50 ∧
      (polling 0 (nightLine v)).room [.tone 1 .quiet, .join 1 50]) := by
  intro v h
  fin_cases h <;> exact ⟨arrives_of (by decide +kernel) (by decide +kernel),
    by unfold freeTarget busyTarget hasCampRoom announces State.room; decide +kernel⟩

/-- Partition 0 is full; it overflows to this destination. -/
def fullTo (o : Overflow) : State :=
  polling 0 (rule 0 (fun pp => { pp with capacity := 1, overflow := o }) (room 0 (fun q => { q with roster := [6] }) quiet))
/-- Its overflow limit is 1 s instead. -/
def slowTo (o : Overflow) : State := polling 0 (rule 0 (fun pp => { pp with overflowLimit := 1, overflow := o }) quiet)

theorem test_witness_arrival_overflows : ∀ s ∈ [fullTo (.partition 1), slowTo (.partition 1), fullTo .fallback],
    Arrives s 0 (pollOf 0) 1 caller 1 0 ∧ (s.free = 0 :: others ∧ (s.call 0).state = .free) ∧
    RoomForNew s 1 0 ∧ (s.prt 0).mode = .day ∧ (0 : Slot) ∉ (s.prt 0).roster ∧
    (s.newCount 0 = (s.part 0).capacity ∨
      ((s.part 0).overflowLimit ≠ 0 ∧ (s.part 0).overflowLimit < s.estimate 0 ((s.prt 0).roster.length + 1))) ∧
    ((s.part 0).overflow = .partition 1 ∨ (s.part 0).overflow = .fallback) ∧ (1 : Part) ≠ 0 ∧ (s.part 1).enabled = true ∧
    announces s 0 50 ∧ s.room [.tone 1 .ringback] ∧ s.room [.tone 1 .quiet, .join 1 50] := by
  intro s h
  fin_cases h <;> exact ⟨arrives_of (by decide +kernel) (by decide +kernel), by decide +kernel, newRoom_of (by decide +kernel),
    by unfold announces State.room; decide +kernel⟩
/-- A call of extension 2100 itself, the night destination of its partition, which is in NIGHT and has no announcer. -/
theorem test_witness_arrival_night_self : ∀ camp ∈ [true, false],
    (fun s : State => Arrives s 0 (pollOf 2) 0 { caller := [], called := none } 32 0 ∧ s.free = 0 :: others ∧
      (s.call 0).state = .free ∧ (s.prt 0).mode = .night ∧ s.lookup (s.part 0).night = some 32 ∧
      (hasCampRoom s 32 ↔ camp = true) ∧ (s.part 0).announcer = none ∧ s.room [.tone 32 .hold] ∧
      s.room [.tone 32 .congestion])
      (polling 2 (room 0 (fun q => { q with mode := .night })
        (voiceless.setLamp 32 { voiceless.lamp 32 with camp := if camp then [] else [7, 8, 9] }))) := by
  intro camp h
  fin_cases h <;> exact ⟨⟨polling_of (by decide +kernel), ⟨by decide, nofun⟩, by decide, by decide +kernel, by decide +kernel,
    by decide +kernel, by decide +kernel, by decide +kernel⟩, by unfold hasCampRoom State.room; decide +kernel⟩
theorem test_witness_arrival_congested : (fun s : State => Arrives s 0 (pollOf 0) 1 caller 1 0 ∧
    (s.free = 0 :: others ∧ (s.call 0).state = .free) ∧ (s.prt 0).mode = .day ∧ (0 : Slot) ∉ (s.prt 0).roster ∧
    s.newCount 0 = (s.part 0).capacity ∧ (s.part 0).overflow = .fallback ∧ (s.part 0).announcer = none ∧
    s.room [.tone 1 .congestion]) (rule 0 (fun pp => { pp with announcer := none }) (fullTo .fallback)) :=
  ⟨arrives_of (by decide +kernel) (by decide +kernel), by unfold State.room; decide +kernel⟩
theorem test_witness_arrival_overflows_to_night :
    (fun s : State => (s.part 0).overflow = .partition 1 ∧ (0 : Slot) ∉ (s.prt 1).roster ∧ (s.prt 1).mode = .night)
      (room 1 (fun q => { q with mode := .night }) (fullTo (.partition 1))) := by decide +kernel
theorem test_witness_arrival : Arrives (polling 0 quiet) 0 (pollOf 0) 1 caller 1 0 ∧
    ((polling 0 quiet).free = 0 :: others ∧ ((polling 0 quiet).call 0).state = .free) ∧ RoomForNew (polling 0 quiet) 0 0 ∧
    (polling 0 quiet).estimate 0 (((polling 0 quiet).prt 0).roster.length + 1) ≤ ((polling 0 quiet).part 0).overflowLimit ∧
    (polling 0 quiet).room [.tone 1 .ringback] :=
  ⟨arrives_of (by decide +kernel) (by decide +kernel), by decide +kernel, newRoom_of (by decide +kernel),
    by unfold State.room; decide +kernel⟩
theorem test_witness_arrival_distributed : Arrives (polling 0 waiters) 0 (pollOf 0) 1 caller 1 0 ∧
    ((polling 0 waiters).free = 0 :: others ∧ ((polling 0 waiters).call 0).state = .free) ∧
    RoomForNew (polling 0 waiters) 0 0 ∧ RosterHolds (polling 0 waiters) 0 ∧
    (polling 0 waiters).estimate 0 (((polling 0 waiters).prt 0).roster.length + 1) ≤
      ((polling 0 waiters).part 0).overflowLimit ∧ (polling 0 waiters).room [.tone 1 .ringback] :=
  ⟨arrives_of (by decide +kernel) (by decide +kernel), by decide +kernel, newRoom_of (by decide +kernel),
    holds_of (by decide +kernel) (by decide +kernel), by unfold State.room; decide +kernel⟩
/-- R43: the call that makes a roster of two, at an alert level of 2, sets the alert mark and the Alert flag. -/
theorem test_arrival_alerts :
    (fun t => ((t.prt 0).roster, (t.prt 0).alert, t.flag .alert))
      (after (.shelfAnswer 0 (reportOf false 1 (.seize true caller)) [])
        (polling 0 (rule 0 (fun pp => { pp with alertLevel := 2 }) (queued { trunkCall .queued with caller := 2 })))) =
    ([5, 0], true, true) := by decide +kernel
theorem test_witness_arrival_refused : Arrives (polling 0 { quiet with free := [] }) 0 (pollOf 0) 1 caller 1 0 ∧
    (polling 0 { quiet with free := [] }).free = [] ∧ (polling 0 { quiet with free := [] }).room [.tone 1 .congestion] :=
  ⟨arrives_of (by decide +kernel) (by decide +kernel), by unfold State.room; decide +kernel⟩

theorem test_witness_answers_read : Answer.sendable (.order .nakRefused) ∧ Answer.sendable (.poll true []) :=
  ⟨nofun, by decide, by decide, nofun⟩
theorem test_witness_check_byte : readAnswer [1, 0, 0x5D] = some (.order .ack) ∧ Answer.sendable (.order .ack) ∧
    (0x5C : Byte) ≠ (sendBody (.order .ack)).foldl (· ^^^ ·) 0x5C := ⟨by decide, nofun, by decide⟩

/-- Address 0 of link 0 has missed this often; a frame to it is on its way. -/
def missed (n : Nat) (x : Option Entry) : State :=
  flying x (wire 0 (fun k => { k with shelves := k.shelves.set 0 { state := .present, misses := n, interval := 40 } })
    (queued (trunkCall .queued)))

theorem test_witness_miss : ((missed 1 none).link 0).frame = some (flown none) ∧ (flown none).dead = false ∧
    (((missed 1 none).link 0).shelves.get 0).state = .present ∧
    (((missed 1 none).link 0).shelves.get 0).misses + 1 < ((missed 1 none).link 0).missLimit := by decide +kernel
/-- The shelf of the frame in flight has become ABSENT, and perhaps been fitted anew since. -/
def dying (st : ShelfState) (x : Option Entry) (c : Call) : State :=
  wire 0 (fun k => { k with
    frame := some { flown x with dead := true }, shelves := k.shelves.set 0 { state := st, misses := 0, interval := 40 } })
    (put c quiet)

theorem test_witness_dead_frame : ∀ x ∈ [none, some rings1, some handsOver],
    ((dying .absent x (trunkCall .queued)).link 0).frame = some { flown x with dead := true } ∧
    ((dying .absent x (trunkCall .queued)).call 5).state ≠ .free ∧
    ((dying .absent x (trunkCall .queued)).call 5).state ≠ .closing := by decide +kernel
theorem test_witness_dead_closing : ∀ n ∈ [1, 2], (fun s : State => (s.call 5).state = .closing ∧ (s.call 5).pending = n ∧
    (s.call 5).target = none ∧ (s.shelfOf (s.call 5).caller).state = .absent)
    (dying .absent (some handsOver) { trunkCall .closing with pending := n }) := by decide +kernel
theorem test_witness_dead_handover : (fun s : State => handsOver.handover = true ∧ (s.call 5).state = .closing ∧
    0 < (s.call 5).pending ∧ s.room [.drop (s.call 5).caller] ∧ reachable s [.drop (s.call 5).caller])
    (dying .searching (some handsOver) { trunkCall .closing with pending := 1, endReason := some .delivered }) := by
  unfold State.room reachable; decide +kernel
theorem test_witness_spoiled : ((missed 1 none).link 0).frame = some (flown none) ∧ (flown none).dead = false ∧
    readAnswer [2, 0, 0x5F] = none ∧ (∃ o, readAnswer [1, 0, 0x5D] = some (.order o) ∧ (flown none).entry = none) ∧
    ∃ more rs, readAnswer [2, 0, 0x5E] = some (.poll more rs) ∧ (flown (some rings1)).entry ≠ none :=
  ⟨by decide +kernel, rfl, by decide, ⟨.ack, by decide, rfl⟩, false, [], by decide, nofun⟩
theorem test_witness_missed_search : ((searches .searching).link 0).frame = some (flown none) ∧
    (flown none).dead = false ∧ (flown none).entry = none ∧
    (((searches .searching).link 0).shelves.get 0).state ≠ .present := by decide +kernel
theorem test_witness_no_frame : (quiet.link 3).frame = none := by decide +kernel
theorem test_witness_lost : ((missed 2 none).link 0).frame = some (flown none) ∧ (flown none).dead = false ∧
    (((missed 2 none).link 0).shelves.get 0).state = .present ∧
    ((missed 2 none).link 0).missLimit ≤ (((missed 2 none).link 0).shelves.get 0).misses + 1 ∧
    linkOf 1 = 0 ∧ addrOf 1 = 0 ∧ ((missed 2 none).lamp 1).line ≠ .outOfService := by decide +kernel

/-- The calls of a state whose one live call waits alone in the roster of partition 0 stand in their places. -/
theorem places_of {s : State} {c : Call} (hs : s.freeListed) (he : s.engine = .serving)
    (hc : ∀ i, s.call i = if i = 5 then c else Call.blank)
    (hw : c.state = .queued ∧ c.partition = 0 ∧ c.place = some 1 ∧ c.target = none ∧ c.timer = none)
    (hq : ∀ q, (s.prt q).roster = if q = 0 then [5] else [])
    (hp : ∀ p, (s.pos p).offered = none ∧ (s.pos p).speaking = none ∧ ∀ l, (s.pos p).loops.get l = none)
    (hk : ∀ k, (s.lamp k).camp = []) : PlacesInv s := by
  obtain ⟨w1, w2, w3, w4, w5⟩ := hw
  have state : ∀ i, (s.call i).state = if i = 5 then .queued else .free := fun i => by rw [hc]; split <;> [exact w1; rfl]
  have bare : ∀ i, (s.call i).target = none ∧ (s.call i).timer = none := fun i => by
    rw [hc]; split <;> [exact ⟨w4, w5⟩; exact ⟨rfl, rfl⟩]
  have never : ∀ i st, (s.call i).state = st → st ≠ .queued → st ≠ .free → False := fun i st h h1 h2 => by
    rw [state] at h; split at h <;> [exact h1 h.symm; exact h2 h.symm]
  constructor
  case slots => exact hs
  case serving => exact fun h => absurd he h
  case rosterOnce => intro q; rw [hq]; split <;> decide
  case members =>
    intro q i
    rw [hq, state]
    by_cases h5 : i = 5
    · subst h5
      rw [if_pos rfl, hc, if_pos rfl, w2]
      by_cases h0 : q = 0
      · subst h0; exact ⟨fun _ => ⟨.inl rfl, rfl⟩, fun _ => List.mem_singleton.mpr rfl⟩
      · rw [if_neg h0]; exact ⟨nofun, fun h => absurd h.2.symm h0⟩
    · rw [if_neg h5]
      refine ⟨fun h => ?_, fun h => by rcases h.1 with e | e <;> cases e⟩
      split at h
      · exact absurd (List.mem_singleton.mp h) h5
      · cases h
  case places =>
    intro q n i h
    rw [hq] at h
    split at h
    · match n with
      | 0 => cases h; rw [hc, if_pos rfl, w3]
      | n + 1 => simp at h
    · simp at h
  case classes => intro q; rw [hq]; split <;> simp
  case offers => intro p i h; rw [(hp p).1] at h; cases h
  case offered => exact fun i h => (never i _ h nofun nofun).elim
  case loops => intro p l i h; rw [(hp p).2.2 l] at h; cases h
  case onLoop => rintro i (h | h | h | h) <;> exact (never i _ h nofun nofun).elim
  case speaking =>
    intro p l
    rw [(hp p).2.1]
    exact ⟨nofun, fun ⟨i, h, _⟩ => by rw [(hp p).2.2 l] at h; cases h⟩
  case campOnce => intro k; rw [hk]; decide
  case camped =>
    intro k i
    rw [hk]
    exact ⟨nofun, fun h => (never i _ h.1 nofun nofun).elim⟩
  case targetAbsent => exact fun i _ => (bare i).1
  case targetPresent => rintro i (h | h | h | h) <;> exact (never i _ h nofun nofun).elim
  case extension => intro i n k _ h; rw [(bare i).1] at h; cases h
  case timers => intro i k d h; rw [(bare i).2] at h; cases h

theorem test_witness_lost_call : PlacesInv (missed 2 none) ∧ CallerOf (missed 2 none) 1 5 ∧
    LossEndsIt (missed 2 none) 0 (flown none) 5 :=
  ⟨places_of (c := { trunkCall .queued with place := some 1 }) ⟨by decide +kernel, by decide +kernel⟩ rfl (by decide +kernel)
    (by decide) (by decide +kernel) (by decide +kernel) (by decide +kernel), by constructor <;> decide +kernel, by
    have open_ : ∀ p, ((missed 2 none).pos p).isOpen = false := by decide +kernel
    have target : ((missed 2 none).call 5).target = none := by decide +kernel
    exact ⟨fun p _ o => absurd o (by simp [open_ p]), fun g h => absurd h (by simp [target]),
      by decide +kernel, nofun⟩⟩

/-! ### Timers, the estimator, the cadence -/

theorem reached_of {s : State} {i : Slot} {k : TimerKind} (d : Seconds)
    (w : (s.call i).timer = some (k, d) ∧ (s.seconds - d).toNat < 2 ^ 31) : timerReached s i k := ⟨d, w⟩

/-- The OFFER timer of the call that is offered to position 0 has just reached its deadline. -/
def misses : State :=
  seat 0 (fun q => { q with isOpen := true, offered := some 5, missed := 1 })
    (queued { trunkCall .offered with position := some 0, timer := some (.offer, 1000) })

theorem test_witness_offer_expiry : OfferedTo misses 5 0 ∧ timerReached misses 5 .offer ∧
    (misses.call 5).expiryHeld = false :=
  ⟨by constructor <;> decide +kernel, reached_of 1000 (by decide +kernel), by decide +kernel⟩
theorem test_witness_offer_expiry_distributes : Member misses 5 0 ∧ (misses.pos 0).partition = some 0 ∧
    RosterHolds misses 0 :=
  ⟨by constructor <;> decide +kernel, rfl, holds_of (by decide +kernel) (by decide +kernel)⟩
theorem test_witness_offer_expiry_held : ∀ s ∈ [offeredHeld (.partition 1), offeredHeld .fallback],
    HeldOffer s 5 0 0 ∧ timerReached s 5 .offer ∧ s.room (overflowOrders s 5 0) := by
  intro s h
  fin_cases h <;> exact ⟨heldOffer_of (by decide +kernel) (by decide +kernel), reached_of 1000 (by decide +kernel),
    by unfold State.room; decide +kernel⟩
theorem test_witness_wait_held : (overdue.call 5).state = .offered ∧ (overdue.call 5).waitDeadline = some 900 ∧
    (overdue.seconds - 900).toNat < 2 ^ 31 := by decide +kernel
theorem test_witness_no_timer : (quiet.call 5).timer = none := by decide +kernel

/-- The WAIT timer of the call in partition 0's roster has reached its deadline. -/
def waits : State := queued { trunkCall .queued with timer := some (.wait, 1000), waitDeadline := some 1000 }
/-- The same where partition 0 overflows to its announcer. -/
def waitsFallback : State := rule 0 (fun pp => { pp with overflow := .fallback }) waits

theorem test_witness_wait_over : timerReached waits 5 .wait ∧ (waits.call 5).state = .queued ∧ Member waits 5 0 ∧
    (waits.call 5).target = none ∧ (0 : Part) ≠ 1 ∧ (waits.part 0).overflow = .partition 1 ∧
    (waits.part 1).enabled = true ∧ RoomForNew waits 1 5 ∧ waits.room [.tone (waits.call 5).caller .ringback] :=
  ⟨reached_of 1000 (by decide +kernel), rfl, by constructor <;> decide +kernel, rfl, by decide, rfl, rfl,
    newRoom_of (by decide +kernel), by unfold State.room; decide +kernel⟩
theorem test_witness_wait_announced : timerReached waitsFallback 5 .wait ∧ (waitsFallback.call 5).state = .queued ∧
    Member waitsFallback 5 0 ∧ (waitsFallback.call 5).target = none ∧ (waitsFallback.part 0).overflow = .fallback ∧
    (waitsFallback.part 0).announcer = some 50 ∧ lineServes waitsFallback 50 = true ∧
    waitsFallback.room [.tone (waitsFallback.call 5).caller .quiet, .join (waitsFallback.call 5).caller 50] :=
  ⟨reached_of 1000 (by decide +kernel), rfl, by constructor <;> decide +kernel, by unfold State.room; decide +kernel⟩

/-- The ANNOUNCE timer of a call of partition 0 has reached its deadline. -/
def announced : State :=
  put { trunkCall .announced with announcer := some 50, timer := some (.announce, 999), overflowed := true } quiet

theorem over_of {s : State} (w : (s.call 5).timer = some (.announce, 999) ∧ (s.seconds - 999).toNat < 2 ^ 31)
    (v : (s.call 5).state = .announced ∧ (s.call 5).announcer = some 50 ∧ (s.call 5).target = none ∧
      (s.call 5).extend = none) : AnnounceOver s 5 50 := ⟨⟨_, w⟩, v.1, v.2.1, v.2.2.1, v.2.2.2⟩

/-- The four states of the partition (R32). -/
def announcedFull : State := rule 0 (fun pp => { pp with capacity := 1 }) (room 0 (fun q => { q with roster := [6] }) announced)
/-- NIGHT. -/
def announcedNight : State := room 0 (fun q => { q with mode := .night }) announced
/-- Not enabled. -/
def announcedOff : State := rule 0 (fun pp => { pp with enabled := false }) announced

theorem test_witness_announce_joins : AnnounceOver announced 5 50 ∧
    (announced.part (announced.call 5).partition).enabled = true ∧
    RoomForNew announced (announced.call 5).partition 5 ∧ announced.room [.part 1 50, .tone 1 .ringback] :=
  ⟨over_of (by decide +kernel) (by decide +kernel), rfl, newRoom_of (by decide +kernel), by unfold State.room; decide +kernel⟩
theorem test_witness_announce_full : AnnounceOver announcedFull 5 50 ∧ (announcedFull.part 0).enabled = true ∧
    (announcedFull.prt 0).mode = .day ∧ (announcedFull.part 0).capacity ≤ announcedFull.newCount 0 ∧
    announcedFull.room [.part 1 50, .tone 1 .congestion] :=
  ⟨over_of (by decide +kernel) (by decide +kernel), by unfold State.room; decide +kernel⟩
theorem test_witness_announce_night : AnnounceOver announcedNight 5 50 ∧ (announcedNight.part 0).enabled = true ∧
    (announcedNight.prt 0).mode = .night ∧ announcedNight.room [.drop 1, .part 1 50] ∧
    reachable announcedNight [.part 1 50] :=
  ⟨over_of (by decide +kernel) (by decide +kernel), by unfold State.room reachable; decide +kernel⟩
theorem test_witness_announce_off : AnnounceOver announcedOff 5 50 ∧ (announcedOff.part 0).enabled = false ∧
    announcedOff.room [.tone 1 .congestion, .part 1 50] ∧ reachable announcedOff [.part 1 50] :=
  ⟨over_of (by decide +kernel) (by decide +kernel), by unfold State.room reachable; decide +kernel⟩

/-- The HOLD1 or HOLD2 timer of the HELD call has reached its deadline. -/
def holds (k : TimerKind) : State := parked { loopCall .held with timer := some (k, 1000) }

theorem test_witness_hold1 : timerReached (holds .hold1) 5 .hold1 ∧ ((holds .hold1).call 5).state = .held ∧
    OnLoop (holds .hold1) 5 0 0 :=
  ⟨reached_of 1000 (by decide +kernel), rfl, by constructor <;> decide +kernel⟩
theorem test_witness_hold2 : timerReached (holds .hold2) 5 .hold2 ∧ ((holds .hold2).call 5).state = .held ∧
    OnLoop (holds .hold2) 5 0 0 ∧ ((holds .hold2).call 5).target = none ∧ RecallOpen (holds .hold2) 5 ∧
    (holds .hold2).room [.tone 1 .ringback] :=
  ⟨reached_of 1000 (by decide +kernel), rfl, by constructor <;> decide +kernel, rfl, open_of (by decide +kernel),
    by unfold State.room; decide +kernel⟩

/-- The CAMP timer of a call that camps on circuit 41 has reached its deadline. -/
def camps (pending : Bool) : State :=
  let s := put { trunkCall .camped with
    origin := some 0, target := some { number := 2106, circuit := 41 }, timer := some (.camp, 1000), ringPending := pending } quiet
  s.setLamp 41 { s.lamp 41 with camp := [5], line := .busy }

theorem test_witness_camp : timerReached (camps false) 5 .camp ∧ ((camps false).call 5).state = .camped ∧
    ((camps false).call 5).target = some { number := 2106, circuit := 41 } ∧
    ((camps false).call 5).ringPending = false ∧ ((camps false).call 5).origin ≠ none ∧ RecallOpen (camps false) 5 ∧
    (camps false).room [.tone 1 .ringback] :=
  ⟨reached_of 1000 (by decide +kernel), rfl, rfl, rfl, by decide, open_of (by decide +kernel),
    by unfold State.room; decide +kernel⟩
theorem test_witness_camp_held : timerReached (camps true) 5 .camp ∧ ((camps true).call 5).state = .camped ∧
    ((camps true).call 5).ringPending = true := ⟨reached_of 1000 (by decide +kernel), by decide +kernel⟩

/-- The counter of partition 0 runs at this count. -/
def counts (c r : Nat) : State :=
  room 0 (fun q => { q with est := { q.est with counter := c, range := r, period := some (2 ^ r) } }) (queued (trunkCall .queued))

theorem test_witness_counter_runs : ∀ x ∈ [(0, 3), (253, 0), (254, 6), (254, 7)],
    ((counts x.1 x.2).prt 0).est.period ≠ none := by decide +kernel
theorem test_witness_counter_rescales : ((counts 254 6).prt 0).est.period ≠ none ∧ ((counts 254 6).prt 0).est.stall = false ∧
    255 ≤ ((counts 254 6).prt 0).est.counter + 1 ∧ ((counts 254 6).prt 0).est.range < 7 ∧
    (∀ n j, ((counts 254 6).prt 0).roster[n]? = some j → ((counts 254 6).call j).place = some (n + 1)) ∧
    ∃ t, exec (.counterAdvance 0) (counts 254 6) = .next t := by
  refine ⟨by decide +kernel, rfl, by decide +kernel, by decide +kernel, ?_, _, rfl⟩
  have hr : ((counts 254 6).prt 0).roster = [5] := by decide +kernel
  have hp : ((counts 254 6).call 5).place = some 1 := by decide +kernel
  intro n j h
  rw [hr] at h
  match n with
  | 0 => cases h; exact hp
  | n + 1 => simp at h
theorem test_witness_counter_stopped : (quiet.prt 0).est.period = none := by decide +kernel

/-- No call rings; the cadence input is the source, with its loss timer running. -/
def external : State :=
  { quiet with cadence :=
      { configured := .external, inUse := .external, period := 6, periodTimer := none, lossTimer := some 12 } }

theorem test_witness_cadence : (∀ i, (quiet.call i).confirmed = false) ∧ quiet.cadence.periodTimer ≠ none ∧
    quiet.cadence.configured = .internal ∧ quiet.cadence.lossTimer = none ∧ (∀ i, (external.call i).confirmed = false) ∧
    external.cadence.configured = .external ∧ external.cadence.lossTimer ≠ none ∧ external.cadence.periodTimer = none := by
  decide +kernel

/-- The consulting call's ringing is confirmed and has been heard this often. -/
def ringing (n : Nat) : State := speaking { consultCall .consultRinging with confirmed := true, ringCount := n }

theorem test_witness_marks : makesMark quiet .periodTimerExpiry ∧ makesMark external .cadenceEdge ∧
    makesMark external .lossTimerExpiry := by unfold makesMark; decide +kernel
theorem test_witness_mark_counts : makesMark (ringing 3) .periodTimerExpiry ∧ ∀ i, ((ringing 3).call i).confirmed = true →
    ((ringing 3).call i).state = .consultRinging ∨ ((ringing 3).call i).state = .ringingOut →
    ((ringing 3).call i).ringCount + 1 < ((ringing 3).part ((ringing 3).call i).partition).ringLimit := by
  unfold makesMark; decide +kernel
theorem test_witness_mark_limit : makesMark (ringing 4) .periodTimerExpiry ∧ AtLimit (ringing 4) 5 ∧
    ((ringing 4).call 5).state = .consultRinging ∧ Speaking (ringing 4) 0 5 0 60 ∧
    ((ringing 4).call 5).target = some { number := 2106, circuit := 41 } ∧ unserved (ringing 4) 41 ∧
    ((ringing 4).call 5).extend = none ∧ ((ringing 4).pos 0).extend = none ∧
    (ringing 4).room [.unring 41, .part 60 41, .join 1 60, .tone 1 .quiet] :=
  ⟨by unfold makesMark; decide +kernel, by constructor <;> decide +kernel, rfl, speaking_of (by decide +kernel),
    by unfold State.room unserved; decide +kernel⟩

/-- A call with this origin rings out to circuit 41, on whose camp list another call stands, and has been heard four
times. -/
def ringsOut (o : Option Pos) : State :=
  let s := put { trunkCall .ringingOut with
    origin := o, target := some { number := 2106, circuit := 41 }, confirmed := true, ringCount := 4 } quiet
  s.setLamp 41 { s.lamp 41 with line := .ringing, camp := [7] }

theorem test_witness_mark_limit_out : ∀ o ∈ [some 0, none], makesMark (ringsOut o) .periodTimerExpiry ∧
    AtLimit (ringsOut o) 5 ∧ ((ringsOut o).call 5).state = .ringingOut ∧
    ((ringsOut o).call 5).target = some { number := 2106, circuit := 41 } ∧ unserved (ringsOut o) 41 ∧
    ((ringsOut o).call 5).origin = o ∧ RecallOpen (ringsOut o) 5 ∧ (ringsOut o).room [.unring 41, .tone 1 .ringback] ∧
    announces (ringsOut o) 0 50 ∧ (ringsOut o).room [.unring 41, .tone 1 .quiet, .join 1 50] := by
  intro o h
  fin_cases h <;> exact ⟨by unfold makesMark; decide +kernel, by constructor <;> decide +kernel, rfl, rfl,
    by unfold unserved; decide +kernel, rfl, open_of (by decide +kernel), by unfold State.room announces; decide +kernel⟩

/-! ### Invariants -/

/-- Cell 0 is TAKEN by the EXTEND in flight at position 0. -/
def inFlight : State :=
  { seat 0 (fun q => { q with isOpen := true, extend := some 0, extendCell := some 0 }) (posted 8 0 [] quiet) with
    mem := [(0x0500, 0x02), (0x0501, 0x08)], taker := { quiet.taker with expect := 1, taken := [0] } }

theorem test_witness_invariants : Memory.wf inFlight.mem = true ∧ inFlight.freeListed ∧ CellsInv inFlight ∧
    SeatsInv inFlight ∧ ∃ t, step inFlight = .next t :=
  ⟨by decide +kernel, ⟨by decide +kernel, by decide +kernel⟩,
    by constructor <;> decide +kernel, by unfold SeatsInv; decide +kernel, _, rfl⟩
theorem test_witness_places_step : PlacesInv (queued (trunkCall .queued)) ∧
    ∃ t, step (queued (trunkCall .queued)) = .next t :=
  ⟨places_of (c := { trunkCall .queued with place := some 1 }) ⟨by decide +kernel, by decide +kernel⟩ rfl (by decide +kernel)
    (by decide) (by decide +kernel) (by decide +kernel) (by decide +kernel), _, rfl⟩
theorem test_witness_invariants_step : Memory.wf quiet.mem = true ∧
    ∃ t, step { quiet with pending := [.engineSecondsTick] } = .next t := ⟨by decide +kernel, _, rfl⟩

/-! ## Figures that the spec works out -/

/-! ### Bytes, numbers, fields -/

/-- 00_scope.md, examples 1 and 2 of circuit numbering. -/
theorem test_circuit_numbering : (linkOf 150, addrOf 150, portOf 150) = (2, 1, 6) ∧ (linkOf 63, addrOf 63, portOf 63) = (0, 3, 15) ∧
    circuitAt 2 1 6 = 150 := by decide
/-- 07, example 1: check bytes. -/
theorem test_check_byte : checkByte [0x01, 0x24, 0x80] = 0xF9 ∧ checkByte [0x00] = 0x5C := by decide
/-- 07, example 2: JOIN(70, 195) goes to address 0 of link 1; its bytes by R178 and R126. -/
theorem test_join_frame : frameBytes (addrOf 70) (some { order := .join 70 195, slot := some 0, handover := false }) false =
    [0x80, 0x01, 0x06, 0xC3, 0x18] ∧ linkOf 70 = 1 := by decide
/-- R178, R126: a poll, and a repeated poll, of address 2. -/
theorem test_poll_frames : frameBytes 2 none false = [0x02, 0x5E] ∧ frameBytes 2 none true = [0x42, 0x1E] := by decide
/-- 01, example 1: SEIZE on circuit 18 with seven caller digits and the called number 4402. -/
theorem test_seize_report : readAnswer ([0x02, 0x01, 0x22, 0xC7, 0x12, 0x34, 0x56, 0x70, 0x44, 0x02] ++
      [checkByte [0x02, 0x01, 0x22, 0xC7, 0x12, 0x34, 0x56, 0x70, 0x44, 0x02]]) =
    some (.poll false [{ port := 2, kind := .seize true { caller := [1, 2, 3, 4, 5, 6, 7], called := some 4402 } }]) := by
  decide
/-- R178: report kinds 0 and 7 and an answer kind of 3 spoil the answer; a count of five reports does too (R125). -/
theorem test_spoiled_answers : ([[0x02, 0x01, 0x02], [0x02, 0x01, 0xE2], [0x03, 0x00], [0x02, 0x05, 0x82, 0x82, 0x82, 0x82, 0x82],
    [0x02, 0x01]].map fun b => readAnswer (b ++ [checkByte b])) = [none, none, none, none, none] := by decide
/-- 06, example 1: the fields of partition 2's plan. -/
theorem test_plan_fields :
    (fun pp => ((pp.capacity, pp.alertLevel, pp.offerTimeout, pp.holdRecall), (pp.waitLimit, pp.weight, pp.basis, pp.overflow)))
      (readPartPlan (Memory.writeAll [] 0x21C0
        [1, 4, 20, 60, 0, 0, 9, 255, 0, 0, 0, 2, 5, 0, 60, 0, 0xB0, 0x04, 5, 30, 0, 0, 0, 7]) (.fill .none) 2) =
    ((20, 20, 4, 10), (900, 1, .mean, .fallback)) := by decide

/-- A plan area with codes at the edges of their codings, in the partition plans 0 to 3, at the headsets of positions 0 and
1 and in the directory entries 1 to 3. -/
def codes : Plan :=
  readPlan ([(0x2146, 3), (0x2157, 1), (0x2186, 4), (0x2197, 2), (0x21C6, 0xFF), (0x21D7, 3), (0x2240, 0xFF), (0x2250, 0xFE),
    (0x2348, 2), (0x2349, 4), (0x234A, 0x0F), (0x234B, 0x27), (0x2350, 5), (0x2351, 3), (0x2358, 2), (0x235A, 0x10),
    (0x235B, 0x27)] : Memory)

/-- R108, R179: the values at which an overflow destination, a basis, a headset, a kind, a partition or an extension number
stops naming something. -/
theorem test_plan_codes : [0, 1, 2, 3].map (fun q => ((codes.parts.get q).overflow, (codes.parts.get q).basis)) =
      [(.partition 3, .newer), (.fallback, .older), (.fallback, .mean), (.partition 0, .mean)] ∧
    [0, 1].map codes.headsets.get = [none, some 254] ∧
    [1, 2, 3].map (fun k => ((codes.directory.get k).kind, (codes.directory.get k).partition, (codes.directory.get k).number)) =
      [(.extension, none, some 9999), (.unused, some 3, none), (.extension, some 0, none)] := by decide +kernel

/-! ### The estimator -/

/-- 03, example 1: the first rescale, the seventh, and the stall. -/
theorem test_advance : ([{ Estimator.blank with counter := 254, new := 100, old := 100 },
      { Estimator.blank with range := 6, counter := 254, new := 1, old := 1 },
      { Estimator.blank with range := 7, counter := 254 }].map fun t =>
      ((Estimator.advance t).range, (Estimator.advance t).counter, (Estimator.advance t).new, (Estimator.advance t).old,
        (Estimator.advance t).stall)) =
    [(1, 127, 50, 50, false), (7, 127, 0, 0, false), (7, 255, 0, 0, true)] := by decide
/-- 03, examples 2, 3 and 4: captures. -/
theorem test_capture : ([{ Estimator.blank with range := 4, counter := 167, new := 75, old := 70 },
      { Estimator.blank with range := 2, counter := 50, new := 90 },
      { Estimator.blank with range := 2, counter := 50, new := 150 }].map fun t =>
      ((t.capture true).range, (t.capture true).counter, (t.capture true).new, (t.capture true).old)) =
    [(4, 0, 167, 75), (1, 0, 100, 180), (1, 0, 100, 255)] := by decide
/-- 03, examples 5, 6 and 7: estimates; 1024 s is clamped. -/
theorem test_estimates : ({ Estimator.blank with range := 2, new := 120, old := 100 }).estimate 40 .mean 3 = 16 ∧
    ({ Estimator.blank with range := 4, new := 167, old := 75 }).estimate 32 .mean 2 = 38 ∧
    ({ Estimator.blank with range := 5, new := 200, old := 200 }).estimate 32 .mean 15 = 960 ∧
    ({ Estimator.blank with range := 5, new := 200, old := 200 }).estimate 32 .mean 16 = 999 := by decide

/-! ### The cadence -/

/-- R153: the source becomes EXTERNAL: it is the source in use, with a loss timer of two of the new periods; and back. -/
theorem test_cadence_activate : Cadence.blank.activate .external 7 =
      { configured := .external, inUse := .external, period := 7, periodTimer := none, lossTimer := some 14 } ∧
    (Cadence.blank.activate .external 7).activate .internal 5 =
      { configured := .internal, inUse := .internal, period := 5, periodTimer := some 5, lossTimer := none } := by decide

/-! ### The worked sequences, one step each -/

/-- The orders in a link's queue. -/
def sent (l : LinkIx) (s : State) : List ShelfOrder := (s.link l).queue.map (·.order)

/-- 11: the APPLY_PLAN of the first sweep is TAKEN, EXPECT is 1 and the sweep halts. -/
theorem test_apply_plan : (fun t => (cellState t.mem 0, t.taker.expect, t.taker.sweeping, t.apply.isSome))
    (after .applyPlanOrder (posted 13 15 [] State.reset)) = (.taken, 1, false, true) := by decide +kernel
/-- 11: OPEN while circuit 60 is UNKNOWN is OUT_OF_SERVICE (code 16). -/
theorem test_open_out_of_service : (fun t => (cellState t.mem 0, cellByte t.mem 0 3, (t.pos 0).isOpen))
    (after .openOrder (posted 1 0 [] (line 60 .unknown quiet))) = (.done, 16, false) := by decide +kernel
/-- 11: OPEN once circuit 60 is IDLE: position 0 is OPEN and chief. -/
theorem test_open : (fun t => (cellByte t.mem 0 3, (t.pos 0).isOpen, (t.pos 0).role, (t.pos 0).idleSince))
    (after .openOrder (posted 1 0 [] quiet)) = (0, true, .chief, 1000) := by decide +kernel

/-- 11, at 1008: position 0 answers slot 5 at a count of 100; the calls then at places 2 and 3 are given 13 s and 20 s. -/
def busy : State :=
  let s := room 0 (fun q => { q with roster := [5, 8, 6, 7], est := { q.est with counter := 100, period := some 8 } }) offered
  [(8, 2), (6, 3), (7, 4)].foldl
    (fun s x => s.setCall x.1 { trunkCall .queued with caller := .ofNat 256 x.2, place := some x.2 }) s

theorem test_answer : (fun t => (((t.call 5).state, (t.pos 0).speaking, sent 0 t),
      ((t.call 6).estimate, (t.call 7).estimate, (t.prt 0).est.new, (t.prt 0).est.old))) (after .answerOrder (posted 4 0 [] busy)) =
    ((.talking, some 0, [.join 1 60, .tone 1 .quiet]), (some 13, some 20, 100, 75)) := by decide +kernel

/-- 11, at 1016: the only available position is offered the missed call again, with a deadline 15 s ahead. -/
theorem test_offer_again : (fun t => ((t.call 5).state, (t.call 5).timer, (t.pos 0).missed, (t.pos 0).idleSince))
    (after (.offerExpiry 5) (seat 0 (fun q => { q with missed := 0 }) misses)) =
    (.offered, some (.offer, 1015), 1, 1000) := by decide +kernel

/-- 11, at 1100: EXTEND 2106 SCREENED. -/
theorem test_extend_screened : (fun t => ((t.call 5).state, (t.call 5).confirmed, cellState t.mem 0, sent 0 t))
    (after .extendOrder (asks 0 talks)) =
    (.consultRinging, false, .taken, [.part 1 60, .tone 1 .hold, .ring 41, .join 60 41]) := by decide +kernel
/-- 11, at 1128: the fifth mark. -/
theorem test_mark_limit : (fun t => ((t.call 5).state, (t.call 5).ringLimit, (t.call 5).target, (t.call 5).ringCount, sent 0 t))
    (after .periodTimerExpiry (ringing 4)) =
    (.talking, true, none, 0, [.unring 41, .part 60 41, .join 1 60, .tone 1 .quiet]) := by decide +kernel
/-- 11, at 1135: EXTEND DIRECT to a BUSY line camps the call for 60 s. -/
theorem test_extend_camps : (fun t => (((t.call 5).state, (t.call 5).origin, (t.call 5).timer), (cellByte t.mem 0 3, (t.pos 0).speaking, sent 0 t))) (after .extendOrder (asks 1 (camped 0))) =
    ((.camped, some 0, some (.camp, 1060)), (1, none, [.part 1 60, .tone 1 .hold])) := by decide +kernel
/-- 11, at 1195: the CAMP timer expires while the ring is pending. -/
theorem test_camp_held : (fun t => ((t.call 5).state, (t.call 5).timer, (t.call 5).expiryHeld)) (after (.campExpiry 5) (camps true)) =
    (.camped, none, true) := by decide +kernel

/-- R100, R102: a camped call whose ring is answered NAK FAULT, and whose recall ends in congestion, is sent no UNRING. -/
theorem test_camp_fault_congested : (fun t => ((t.call 5).state, (t.call 5).endReason, (t.lamp 41).camp, sent 0 t))
    (after (.shelfAnswer 0 [1, 2, 0x5F] []) (campsRinging none false voiceless)) =
    (.closing, some .congestion, [6], [.tone 1 .congestion]) := by decide +kernel
/-- R166: with the bypass input active, the event after a soft reset is the entry to BYPASSED, whatever waits. -/
theorem test_reset_enters_bypassed :
    ((fun r => match r with | .next t => (t.engine, t.pending) | _ => (.closed, []))
      (step (after .softReset { quiet with bypassIn := true, pending := [.attention true] }))) =
    (.bypassed, [.attention true]) := by decide +kernel

/-- 11, at 1332: the announced call joins partition 0 at place 1 and is given RINGBACK. -/
theorem test_announce_joins : (fun t => ((t.call 5).state, (t.call 5).place, (t.call 5).overflowed, sent 0 t))
    (after (.announceExpiry 5) announced) = (.queued, some 1, true, [.part 1 50, .tone 1 .ringback]) := by decide +kernel

/-- The last attendant signs off: one step. -/
theorem test_last_attendant : (fun t => (((t.call 9).state, (t.call 20).state, (t.call 12).state), ((t.lamp 45).camp, (t.prt 1).roster,
      (t.prt 1).mode), ((t.prt 1).est.period, (t.pos 4).role, sent 0 t))) (after .closeOrder (posted 2 4 [1] evening)) =
    ((.ringingOut, .camped, .camped), ([20, 12], [], .night), (none, .none,
      [.tone 13 .ringback, .ring 45, .tone 13 .ringback, .tone 2 .hold, .tone 14 .hold])) := by decide +kernel

/-- 01, example 8: the free list at bypass entry. -/
theorem test_bypass_free_list :
    (after .bypassEntry ([0, 1, 2, 4].foldl (fun s i => s.setCall i (trunkCall .queued))
      { quiet with free := [5, 6, 63, 3] })).free = [5, 6, 63, 3, 0, 1, 2, 4] := by decide +kernel

end Sys2Proof.Tests
end

section
/-! SUPPORT. What every rule of an event carries through: the free list stays the list of the FREE records (R8), the
revisions and the board revision wait for the end of the event (R11, R12), and the event's record of the state it found is
not written. Each operation is shown once to carry them. -/

namespace Sys2Proof.Machine

/-- What the rules of an event carry through from one state to another; the revisions rise when the event ends. -/
structure Carried (s t : State) : Prop where
  slots : s.freeListed → t.freeListed
  board : t.boardRev = s.boardRev
  flag : s.flag .board = true → t.flag .board = true
  call : ∀ i, (t.call i).rev = (s.call i).rev
  pos : ∀ p, (t.pos p).rev = (s.pos p).rev
  prt : ∀ q, (t.prt q).rev = (s.prt q).rev
  lamp : ∀ k, (t.lamp k).rev = (s.lamp k).rev
  link : ∀ l, (t.link l).rev = (s.link l).rev

theorem Carried.refl (s : State) : Carried s s where
  slots := id
  board := rfl
  flag := id
  call := fun _ => rfl
  pos := fun _ => rfl
  prt := fun _ => rfl
  lamp := fun _ => rfl
  link := fun _ => rfl

theorem Carried.trans {s t u : State} (h : Carried s t) (k : Carried t u) : Carried s u where
  slots := k.slots ∘ h.slots
  board := k.board.trans h.board
  flag := k.flag ∘ h.flag
  call := fun i => (k.call i).trans (h.call i)
  pos := fun p => (k.pos p).trans (h.pos p)
  prt := fun q => (k.prt q).trans (h.prt q)
  lamp := fun c => (k.lamp c).trans (h.lamp c)
  link := fun l => (k.link l).trans (h.link l)

/-! ### The change of one record -/

theorem Carried.setCall (s : State) (i : Slot) (c : Call) (hr : c.rev = (s.call i).rev)
    (hs : c.state = .free ↔ (s.call i).state = .free) : Carried s (s.setCall i c) :=
  { Carried.refl s with
    call := fun j => by
      rw [State.call_setCall]; split
      · next e => rw [← e]; exact hr
      · rfl
    slots := fun ⟨hn, hf⟩ => ⟨hn, fun j => by
      rw [State.call_setCall]; split
      · next e => subst e; rw [hs]; exact hf _
      · exact hf _⟩ }

theorem Carried.setPos (s : State) (p : Pos) (q : Position) (h : q.rev = (s.pos p).rev) : Carried s (s.setPos p q) :=
  { Carried.refl s with
    slots := id
    pos := fun j => by
      rw [State.pos_setPos]; split
      · next e => rw [← e]; exact h
      · rfl }

theorem Carried.setPrt (s : State) (p : Part) (q : Partition) (h : q.rev = (s.prt p).rev) : Carried s (s.setPrt p q) :=
  { Carried.refl s with
    slots := id
    prt := fun j => by
      rw [State.prt_setPrt]; split
      · next e => rw [← e]; exact h
      · rfl }

theorem Carried.setLamp (s : State) (k : Circuit) (q : Lamp) (h : q.rev = (s.lamp k).rev) :
    Carried s (s.setLamp k q) :=
  { Carried.refl s with
    slots := id
    lamp := fun j => by
      rw [State.lamp_setLamp]; split
      · next e => rw [← e]; exact h
      · rfl }

theorem Carried.setLink (s : State) (l : LinkIx) (q : Link) (h : q.rev = (s.link l).rev) :
    Carried s (s.setLink l q) :=
  { Carried.refl s with
    slots := id
    link := fun j => by
      rw [State.link_setLink]; split
      · next e => rw [← e]; exact h
      · rfl }

/-- A change of nothing that is carried. -/
theorem Carried.of_eq {s t : State}
    (h : (t.calls, t.free, t.positions, t.parts, t.lamps, t.links, t.boardRev) =
      (s.calls, s.free, s.positions, s.parts, s.lamps, s.links, s.boardRev))
    (hf : s.flag .board = true → t.flag .board = true) : Carried s t := by
  simp only [Prod.mk.injEq] at h
  obtain ⟨hc, hfr, hp, hq, hl, hk, hb⟩ := h
  exact {
    slots := fun ⟨hn, hm⟩ => ⟨by rw [hfr]; exact hn, fun i => by
      unfold State.call; rw [hfr, hc]; exact hm i⟩
    board := hb
    flag := hf
    call := fun i => by unfold State.call; rw [hc]
    pos := fun p => by unfold State.pos; rw [hp]
    prt := fun q => by unfold State.prt; rw [hq]
    lamp := fun k => by unfold State.lamp; rw [hl]
    link := fun l => by unfold State.link; rw [hk] }

theorem Carried.raise (s : State) (f : Flag) : Carried s (s.raise f) :=
  .of_eq rfl (State.flag_mono (Keeps.raise s f).summary)

theorem Carried.answer (s : State) (c : CellIx) (code : ResultCode) (d : Word) : Carried s (s.answer c code d) :=
  .of_eq rfl (State.flag_mono (s := s) (Keeps.raise s .order).summary)

/-! ### An event under way -/

/-- An event that began in this state and has carried what it must. -/
structure Underway (s : State) (e : Event) : Prop where
  start : e.start = s
  carried : Carried s e.st

theorem Underway.begin (s : State) : Underway s (Event.begin s) := ⟨rfl, Carried.refl s⟩

section Chain

variable {s : State} {e f : Event}

theorem Underway.next (k : Underway s e) (h : Carried e.st f.st) (hs : f.start = e.start) : Underway s f :=
  ⟨hs.trans k.start, k.carried.trans h⟩

/-- A change of the event's own notes. -/
theorem Underway.noted (k : Underway s e) (h : f.st = e.st) (hs : f.start = e.start) : Underway s f :=
  k.next (h ▸ Carried.refl _) hs

theorem Underway.upd {g : State → State} (k : Underway s e) (h : ∀ t, Carried t (g t)) : Underway s (e.upd g) :=
  k.next (h _) rfl

theorem Underway.updCall {i : Slot} {g : Call → Call} (k : Underway s e)
    (h : ∀ c, ((g c).rev, (g c).state) = (c.rev, c.state)) : Underway s (e.updCall i g) :=
  k.next (Carried.setCall _ _ _ (congrArg Prod.fst (h _)) (by rw [show (g _).state = _ from congrArg Prod.snd (h _)])) rfl

theorem Underway.updPos {p : Pos} {g : Position → Position} (k : Underway s e) (h : ∀ q, (g q).rev = q.rev) :
    Underway s (e.updPos p g) := k.next (Carried.setPos _ _ _ (h _)) rfl

theorem Underway.updPrt {p : Part} {g : Partition → Partition} (k : Underway s e) (h : ∀ q, (g q).rev = q.rev) :
    Underway s (e.updPrt p g) := k.next (Carried.setPrt _ _ _ (h _)) rfl

theorem Underway.updLamp {c : Circuit} {g : Lamp → Lamp} (k : Underway s e) (h : ∀ q, (g q).rev = q.rev) :
    Underway s (e.updLamp c g) := k.next (Carried.setLamp _ _ _ (h _)) rfl

theorem Underway.updLink {l : LinkIx} {g : Link → Link} (k : Underway s e) (h : ∀ q, (g q).rev = q.rev) :
    Underway s (e.updLink l g) := k.next (Carried.setLink _ _ _ (h _)) rfl

theorem Underway.raise {x : Flag} (k : Underway s e) : Underway s (e.upd fun s => s.raise x) :=
  k.upd fun t => Carried.raise t x

theorem Underway.ring {c : Circuit} {n : State → Nat} (k : Underway s e) :
    Underway s (e.upd fun s => s.setRing c (n s)) := k.upd fun _ => .of_eq rfl id

theorem Underway.ite {c : Prop} [Decidable c] (hf : c → Underway s e) (hg : ¬ c → Underway s f) :
    Underway s (if c then e else f) := by
  split
  · next h => exact hf h
  · next h => exact hg h

theorem Underway.foldl {α : Type} {g : Event → α → Event} (h : ∀ e x, Underway s e → Underway s (g e x)) {xs : List α}
    (k : Underway s e) : Underway s (xs.foldl g e) := by
  induction xs generalizing e with
  | nil => exact k
  | cons x xs ih => exact ih (h e x k)

theorem Underway.rosterMoved {p : Part} (k : Underway s e) : Underway s (e.rosterMoved p) := k.noted rfl rfl
theorem Underway.wantPass {p : Part} (k : Underway s e) : Underway s (e.wantPass p) := k.noted rfl rfl
theorem Underway.gain {p : Part} (k : Underway s e) : Underway s (e.gain p) := k.noted rfl rfl
theorem Underway.look {c : Circuit} (k : Underway s e) : Underway s (e.look c) := k.noted rfl rfl

theorem Underway.letGo {c : Call} (k : Underway s e) : Underway s (e.letGo c) := by
  unfold Event.letGo; split
  · exact .ite (fun _ => k) fun _ => k.look
  · exact k

theorem Underway.note {i : Option Slot} {o : ShelfOrder} (k : Underway s e) : Underway s (e.note i o) := by
  unfold Event.note; split
  · exact k.noted rfl rfl
  · exact k

theorem Underway.refuse {m : Issue} {i : Option Slot} {o : ShelfOrder} {h l : Bool} (k : Underway s e) :
    Underway s (e.refuse m i o h l) := by
  unfold Event.refuse; split
  · exact .ite (fun _ => k) fun _ => k.noted rfl rfl
  · exact k

/-! ### Call states, timers, shelf orders -/

theorem Underway.toState {i : Slot} {st : CallState} (k : Underway s e) (hst : st ≠ .free := by decide) :
    Underway s (e.toState i st) := by
  unfold Event.toState
  dsimp only
  split
  · exact k
  · next hf =>
    have k1 : Underway s (if (st.keepsTarget && st != .free) = true then e else e.letGo (e.st.call i)) :=
      .ite (fun _ => k) fun _ => k.letGo
    have hi : (if (st.keepsTarget && st != .free) = true then e else e.letGo (e.st.call i)).st = e.st := by
      split
      · rfl
      · exact Event.letGo_st _ _
    refine k1.next (Carried.setCall _ _ _ ?_ ?_) rfl
    · rw [hi]; rfl
    · rw [hi]; exact iff_of_false hst hf

theorem Underway.startTimer {i : Slot} {t : TimerKind} {n : Nat} (k : Underway s e) : Underway s (e.startTimer i t n) :=
  k.next (Carried.setCall _ _ _ rfl Iff.rfl) rfl

theorem Underway.dropTarget {i : Slot} (k : Underway s e) : Underway s (e.dropTarget i) := k.letGo.updCall fun _ => rfl

theorem Underway.enqueue {i : Option Slot} {o : ShelfOrder} {h : Bool} (k : Underway s e) :
    Underway s (e.enqueue i o h) := by
  unfold Event.enqueue
  dsimp only
  have k1 := k.updLink (l := linkOf o.first)
    (g := fun q => { q with queue := q.queue ++ [{ order := o, slot := i, handover := h }] }) fun _ => rfl
  have k2 := fun j => k1.updCall (i := j) (g := fun x => { x with pending := x.pending + 1 }) fun _ => rfl
  cases i
  · exact .ite (fun _ => k1.ring) fun _ => k1
  · exact .ite (fun _ => (k2 _).ring) fun _ => k2 _

theorem Underway.issueAs {m : Issue} {i : Option Slot} {o : ShelfOrder} {h : Bool} (k : Underway s e) :
    Underway s (e.issueAs m i o h) :=
  .ite (fun _ => k.note) fun _ => .ite (fun _ => k.note.refuse) fun _ =>
    .ite (fun _ => k.note.enqueue) fun _ => k.note.refuse

theorem Underway.issue {i : Slot} {o : ShelfOrder} (k : Underway s e) : Underway s (e.issue i o) := k.issueAs
theorem Underway.issueAll {how : Issue} {i : Slot} {os : List ShelfOrder} (k : Underway s e) :
    Underway s (e.issueAll how i os) := .foldl (fun _ _ k => k.issueAs) k
theorem Underway.issueList {i : Slot} {os : List ShelfOrder} (k : Underway s e) : Underway s (e.issueList i os) :=
  k.issueAll
theorem Underway.issueSpared {i : Slot} {os : List ShelfOrder} (k : Underway s e) : Underway s (e.issueSpared i os) :=
  k.issueAll
theorem Underway.issueTeardown {i : Slot} {os : List ShelfOrder} (k : Underway s e) :
    Underway s (e.issueTeardown i os) := k.issueAll

/-! ### Results, loops, camp lists -/

theorem Underway.answer {c : CellIx} {code : ResultCode} {d : Word} (k : Underway s e) :
    Underway s (e.upd fun s => s.answer c code d) := k.upd fun t => Carried.answer t c code d

theorem Underway.answerExtend {p : Pos} {i : Slot} {code : ResultCode} (k : Underway s e) :
    Underway s (e.answerExtend p i code) := by
  unfold Event.answerExtend
  split
  · exact .updCall (.updPos k.answer fun _ => rfl) fun _ => rfl
  · exact .updCall (.updPos k fun _ => rfl) fun _ => rfl

theorem Underway.answerExtendOf {i : Slot} {code : ResultCode} (k : Underway s e) :
    Underway s (e.answerExtendOf i code) := by
  unfold Event.answerExtendOf; dsimp only; split
  · exact k.answerExtend
  · exact k

theorem Underway.leaveLoop {i : Slot} (k : Underway s e) : Underway s (e.leaveLoop i) := by
  unfold Event.leaveLoop; dsimp only; split
  · exact k.updPos fun q => by split <;> rfl
  · exact k

theorem Underway.placeOnLoop {i : Slot} {p : Pos} {l : LoopIx} (k : Underway s e) : Underway s (e.placeOnLoop i p l) := by
  unfold Event.placeOnLoop
  exact .updPos (.updCall k.toState fun _ => rfl) fun _ => rfl

theorem Underway.leaveCamp {i : Slot} (k : Underway s e) : Underway s (e.leaveCamp i) := by
  unfold Event.leaveCamp; split
  · exact .updCall (.updLamp k fun _ => rfl) fun _ => rfl
  · exact k

theorem Underway.camp {i : Slot} {t : Target} (k : Underway s e) : Underway s (e.camp i t) :=
  .ite (fun _ => k) fun _ => .startTimer (.updLamp (.updCall k.toState fun _ => rfl) fun _ => rfl)

/-! ### Estimates and rosters -/

theorem Underway.passMember {p : Part} {i : Slot} (k : Underway s e) : Underway s (e.passMember p i) := by
  unfold Event.passMember; dsimp only; split
  · exact k.updCall fun _ => rfl
  · exact k

theorem Underway.pass {p : Part} (k : Underway s e) : Underway s (e.pass p) := by
  unfold Event.pass
  exact .updPrt (.foldl (fun _ _ k => k.passMember) k) fun _ => rfl

theorem Underway.runPasses (k : Underway s e) : Underway s e.runPasses :=
  .foldl (fun _ _ k => .ite (fun _ => k.pass) fun _ => k) k

theorem Underway.alertTest {p : Part} (k : Underway s e) : Underway s (e.alertTest p) :=
  .ite (fun _ => .ite (fun _ => k) fun _ => .raise (.updPrt k fun _ => rfl)) fun _ => k.updPrt fun _ => rfl

theorem Underway.renumberFrom {n : Nat} {is : List Slot} (k : Underway s e) : Underway s (e.renumberFrom n is) := by
  induction is generalizing e n with
  | nil => exact k
  | cons i is ih => exact ih (k.updCall fun _ => rfl)

theorem Underway.renumber {p : Part} (k : Underway s e) : Underway s (e.renumber p) := k.renumberFrom

theorem Underway.clearOffer {i : Slot} (k : Underway s e) : Underway s (e.clearOffer i) := by
  unfold Event.clearOffer; split
  · exact .ite (fun _ => k.updPos fun _ => rfl) fun _ => k
  · exact k

theorem Underway.leaveRoster {i : Slot} {answered : Bool} (k : Underway s e) : Underway s (e.leaveRoster i answered) := by
  unfold Event.leaveRoster
  extract_lets c p e1 e2 e3 e4 left e5
  refine .ite (fun _ => ?_) fun _ => k
  have k1 : Underway s e1 := .ite (fun _ => k.clearOffer) fun _ => k
  have k2 : Underway s e2 := k1.updPrt fun _ => rfl
  have k4 : Underway s e4 := k2.renumber.updCall fun _ => rfl
  have k5 : Underway s e5 := .ite
    (fun _ => k4.updPrt fun _ => rfl) fun _ => .ite (fun _ => k4) fun _ => k4.updPrt fun _ => rfl
  exact k5.rosterMoved.alertTest

theorem Underway.enterRoster {i : Slot} {cls : CallClass} (k : Underway s e) : Underway s (e.enterRoster i cls) := by
  unfold Event.enterRoster
  extract_lets p roster e1 members e2 e3 e4 e5 wait e6
  refine .ite (fun _ => k) fun _ => ?_
  have k1 : Underway s e1 := .ite (fun _ => k.updPrt fun _ => rfl) fun _ => k
  have k2 : Underway s e2 := k1.updPrt fun _ => rfl
  have k3 : Underway s e3 := k2.toState
  have k5 : Underway s e5 := Underway.renumber (k3.updCall fun _ => rfl)
  have k6 : Underway s e6 := .ite
    (fun _ => k5.startTimer.upd fun _ => Carried.setCall _ _ _ rfl Iff.rfl) fun _ => k5
  exact k6.rosterMoved.gain.alertTest

theorem Underway.backToQueue {i : Slot} (k : Underway s e) : Underway s (e.backToQueue i) := by
  unfold Event.backToQueue
  extract_lets c e1 e2
  have k1 : Underway s e1 := k.toState
  have k2 : Underway s e2 := by
    simp only [e2]; split
    · exact .ite (fun _ => k1) fun _ => k1.updCall fun _ => rfl
    · exact k1
  exact k2.rosterMoved.gain

theorem Underway.offer {i : Slot} {p : Pos} (k : Underway s e) : Underway s (e.offer i p) :=
  .rosterMoved (.updPos (.startTimer (.updCall k.toState fun _ => rfl)) fun _ => rfl)

theorem Underway.stepA {p : Part} {i : Slot} (k : Underway s e) : Underway s (e.stepA p i) := by
  unfold Event.stepA; dsimp only; split
  · exact .ite (fun _ => k.offer) fun _ => k
  · exact k

theorem Underway.stepB {p : Part} {n : Nat} (k : Underway s e) : Underway s (e.stepB p n) := by
  induction n generalizing e with
  | zero => exact k
  | succ n ih =>
    unfold Event.stepB; split
    · exact ih k.offer
    · exact k

theorem Underway.arbiter {p : Part} (k : Underway s e) : Underway s (e.arbiter p) :=
  Underway.stepB (.foldl (fun _ _ k => k.stepA) k)

theorem Underway.testPosition {x : Pos} (k : Underway s e) : Underway s (e.testPosition x) := by
  unfold Event.testPosition
  refine .ite (fun _ => ?_) fun _ => k
  dsimp only
  have k1 : Underway s (if e.keepIdle.contains x = true then e
      else e.upd fun s => s.setPos x { s.pos x with idleSince := s.seconds }) :=
    .ite (fun _ => k) fun _ => k.upd fun _ => Carried.setPos _ _ _ rfl
  split
  · exact k1.gain
  · exact k1

theorem Underway.testPositions (k : Underway s e) : Underway s e.testPositions := .foldl (fun _ _ k => k.testPosition) k

theorem Underway.runArbiters (k : Underway s e) : Underway s e.runArbiters :=
  .foldl (fun _ _ k => .ite (fun _ => k.arbiter) fun _ => k) k

/-! ### Closing and freeing -/

/-- A slot that joins the tail of the free list when its record becomes FREE (R19, R22). -/
theorem Carried.release (s : State) (i : Slot) (c : Call) (hr : c.rev = (s.call i).rev) (hc : c.state = .free)
    (hi : (s.call i).state ≠ .free) : Carried s ((s.setCall i c).setFree (s.free ++ [i])) :=
  { Carried.refl s with
    call := fun j => by
      rw [State.call_setFree, State.call_setCall]; split
      · next h => rw [← h]; exact hr
      · rfl
    slots := fun ⟨hn, hf⟩ => by
      have hni : i ∉ s.free := fun h => hi ((hf i).mp h)
      refine ⟨List.nodup_append.mpr ⟨hn, by simp, fun a ha b hb => ?_⟩, fun j => ?_⟩
      · rw [List.mem_singleton.mp hb]; exact fun h => hni (h ▸ ha)
      · rw [State.setFree_free, State.call_setFree, State.call_setCall, List.mem_append, List.mem_singleton, hf]; split
        · next h => exact iff_of_true (.inr h.symm) hc
        · next h => exact ⟨fun h' => h'.elim id fun h' => absurd h'.symm h, .inl⟩ }

/-- The head of the free list leaves it when its record becomes live (R9). -/
theorem Carried.take (s : State) {i : Slot} {rest : List Slot} (c : Call) (hr : c.rev = (s.call i).rev)
    (hc : c.state ≠ .free) (h : s.free = i :: rest) : Carried s ((s.setCall i c).setFree rest) :=
  { Carried.refl s with
    call := fun j => by
      rw [State.call_setFree, State.call_setCall]; split
      · next h => rw [← h]; exact hr
      · rfl
    slots := fun ⟨hn, hf⟩ => by
      rw [h] at hn hf
      have hni := (List.nodup_cons.mp hn).1
      refine ⟨(List.nodup_cons.mp hn).2, fun j => ?_⟩
      rw [State.setFree_free, State.call_setFree, State.call_setCall]; split
      · next h => subst h; exact iff_of_false hni hc
      · next h => rw [← hf, List.mem_cons, or_iff_right (fun h' => h h'.symm)] }

theorem Underway.freeSlot {i : Slot} (k : Underway s e) : Underway s (e.freeSlot i) := by
  unfold Event.freeSlot
  extract_lets c e1
  refine .ite (fun h => ?_) fun _ => k
  have k1 : Underway s e1 := k.letGo
  have hc : c = e1.st.call i := congrArg (State.call · i) (Event.letGo_st e c).symm
  exact k1.next (Carried.release _ _ _ (by rw [hc]; rfl) rfl (by rw [← hc, h.1]; decide)) rfl

theorem Underway.freeIfDone {i : Slot} (k : Underway s e) : Underway s (e.freeIfDone i) :=
  .ite (fun _ => k) fun _ => k.freeSlot

theorem Underway.removeCall {i : Slot} (k : Underway s e) : Underway s (e.removeCall i) := by
  unfold Event.removeCall; dsimp only; split
  · exact k.leaveRoster
  · exact k.leaveRoster
  · exact k.leaveLoop
  · exact k.leaveLoop
  · exact k.leaveLoop
  · exact k.leaveLoop
  · exact .ite (fun _ => k.leaveCamp.issueTeardown) fun _ => k.leaveCamp
  · exact k

theorem Underway.close {i : Slot} {why : EndReason} {moved : Bool} (k : Underway s e) : Underway s (e.close i why moved) := by
  unfold Event.close
  extract_lets c orders done orders2 e1 e2 e3 e4 e5
  refine .ite (fun _ => k) fun _ => ?_
  have k2 : Underway s e2 := k.removeCall.answerExtendOf
  have k3 : Underway s e3 := k2.toState.updCall fun _ => rfl
  have k4 : Underway s e4 := .ite (fun _ => k3.issueTeardown) fun _ => k3
  have k5 : Underway s e5 := .ite (fun _ => k4.issueTeardown) fun _ => k4
  exact k5.freeIfDone

theorem Underway.pathFault {i : Slot} (k : Underway s e) : Underway s (e.pathFault i) := k.close

theorem Underway.handoverFailed {i : Slot} (k : Underway s e) : Underway s (e.handoverFailed i) :=
  .issueTeardown (.updCall k fun _ => rfl)

theorem Underway.takeRefusal {r : Refused} (k : Underway s e) : Underway s (e.takeRefusal r) := by
  unfold Event.takeRefusal; dsimp only; split
  · exact k
  · exact .ite (fun _ => k.handoverFailed) fun _ => k
  · exact .ite (fun _ => k) fun _ => k.pathFault

theorem Underway.takeRefusals (k : Underway s e) : Underway s e.takeRefusals :=
  .foldl (fun _ _ k => k.freeIfDone)
    (.foldl (fun _ _ k => k.takeRefusal) (k.noted (f := { e with refusals := [] }) rfl rfl))

theorem Underway.ringHead {c : Circuit} (k : Underway s e) : Underway s (e.ringHead c) := by
  unfold Event.ringHead; split
  · exact .ite (fun _ => k) fun _ => k.issue.updCall fun _ => rfl
  · exact k

theorem Underway.serveCamps (k : Underway s e) : Underway s e.serveCamps := by
  refine .foldl (fun _ _ k => .ite (fun _ => k.ringHead) fun _ => k) ?_
  exact k

theorem Underway.settle {n : Nat} (k : Underway s e) : Underway s (e.settle n) := by
  induction n generalizing e with
  | zero => exact k
  | succ n ih => exact .ite (fun _ => k.takeRefusals.serveCamps) fun _ => ih k.takeRefusals.serveCamps


/-! ### Routing and admission -/

theorem Underway.congest {i : Slot} {how : Issue} (k : Underway s e) : Underway s (e.congest i how) := k.issueAll.close

theorem Underway.fallback {i : Slot} {how : Issue} (k : Underway s e) : Underway s (e.fallback i how) := by
  unfold Event.fallback; dsimp only; split
  · exact .startTimer (.updCall k.issueAll.toState fun _ => rfl)
  · exact k.congest

theorem Underway.joinRoster {i : Slot} {cls : CallClass} {how : Issue} (k : Underway s e) :
    Underway s (e.joinRoster i cls how) :=
  .ite (fun _ => k.congest) fun _ => .ite (fun _ => k.fallback) fun _ => .ite (fun _ => k.fallback) fun _ =>
    k.enterRoster.issueAll

theorem Underway.overflow {i : Slot} (k : Underway s e) : Underway s (e.overflow i) := by
  unfold Event.overflow
  extract_lets p e1
  have k1 : Underway s e1 := k.updCall fun _ => rfl
  split
  · exact .ite (fun _ => .joinRoster (.updCall k1 fun _ => rfl)) fun _ => k1.fallback
  · exact k1.fallback

theorem Underway.waitOver {i : Slot} (k : Underway s e) : Underway s (e.waitOver i) := k.leaveRoster.overflow

theorem Underway.returnCall {i : Slot} (k : Underway s e) : Underway s (e.returnCall i) :=
  .ite (fun _ => k.backToQueue.waitOver) fun _ => k.backToQueue

theorem Underway.withdraw {p : Pos} (k : Underway s e) : Underway s (e.withdraw p) := by
  unfold Event.withdraw; split
  · exact .returnCall (.updPos k fun _ => rfl)
  · exact k

theorem Underway.withdrawForNight {i : Slot} (k : Underway s e) : Underway s (e.withdrawForNight i) := by
  unfold Event.withdrawForNight; split
  · next p _ =>
    exact .backToQueue (.updPos (e := { e with keepIdle := e.keepIdle ++ [p] }) (k.noted rfl rfl) fun _ => rfl)
  · exact k.backToQueue

theorem Underway.nightRoute {i : Slot} (k : Underway s e) : Underway s (e.nightRoute i) := by
  unfold Event.nightRoute
  extract_lets e1 c number
  have k1 : Underway s e1 := k.updCall fun _ => rfl
  split
  · exact k1.fallback
  · split
    · exact .updCall k1.issueList.toState fun _ => rfl
    · exact .ite (fun _ => k1.camp.issue) fun _ => k1.fallback
    · exact k1.fallback

theorem Underway.rerouteMember {i : Slot} (k : Underway s e) : Underway s (e.rerouteMember i) :=
  .nightRoute (.leaveRoster (.ite (fun _ => k.withdrawForNight) fun _ => k))

theorem Underway.goNight {p : Part} (k : Underway s e) : Underway s (e.goNight p) :=
  .foldl (fun _ _ k => k.rerouteMember) (k.updPrt fun _ => rfl)

theorem Underway.goDay {p : Part} (k : Underway s e) : Underway s (e.goDay p) := k.updPrt fun _ => rfl

theorem Underway.recall {i : Slot} {how : Issue} (k : Underway s e) : Underway s (e.recall i how) :=
  .ite (fun _ => k.joinRoster) fun _ => k.fallback

theorem Underway.seekPlace {i : Slot} (k : Underway s e) : Underway s (e.seekPlace i) := by
  unfold Event.seekPlace; split
  · exact k.nightRoute
  · exact k.overflow
  · exact k.joinRoster

theorem Underway.arrive {c : Circuit} {a : Arrival} (k : Underway s e) : Underway s (e.arrive c a) := by
  unfold Event.arrive; split
  · exact k
  · next q _ =>
    split
    · exact k.issueAs
    · next i rest hf =>
      refine .seekPlace (k.next ?_ rfl)
      have h := Carried.take e.st ((e.st.call i).allocate c (e.st.dir c).kind q a e.st.seconds) rfl (by simp [Call.allocate]) hf
      have ht : e.st.free.tail = rest := by rw [hf]; rfl
      rw [← ht] at h
      exact h

theorem Underway.offerExpired {i : Slot} (k : Underway s e) : Underway s (e.offerExpired i) := by
  unfold Event.offerExpired; split
  · exact .returnCall (.updPos k fun _ => rfl)
  · exact k.returnCall

theorem Underway.announceOver {i : Slot} (k : Underway s e) : Underway s (e.announceOver i) := by
  unfold Event.announceOver
  extract_lets e1 c p leave
  have k1 : Underway s e1 := k.updCall fun _ => rfl
  exact .ite (fun _ => k1.congest) fun _ => .ite (fun _ => k1.issue.close) fun _ => .ite
    (fun _ => .joinRoster (.updCall k1.issueList fun _ => rfl)) fun _ => k1.issueList.congest

theorem Underway.waitExpired {i : Slot} (k : Underway s e) : Underway s (e.waitExpired i) :=
  .waitOver (k.updCall fun _ => rfl)

/-! ### Positions -/

theorem Underway.fillRole {r : Role} {p : Option Pos} (k : Underway s e) : Underway s (e.fillRole r p) := by
  unfold Event.fillRole; split
  · exact .ite (fun _ => k.updPos fun _ => rfl) fun _ => k
  · exact k

theorem Underway.fillRoles (k : Underway s e) : Underway s e.fillRoles := by
  unfold Event.fillRoles; split
  · exact k.fillRole.fillRole
  · exact k

theorem Underway.closeRole {p : Pos} (k : Underway s e) : Underway s (e.closeRole p) := by
  unfold Event.closeRole
  extract_lets e1
  have k1 : Underway s e1 := k.updPos fun _ => rfl
  split
  · split
    · exact .fillRoles (k1.updPos fun _ => rfl)
    · exact k1.fillRoles
  · exact k1.fillRoles
  · exact k1.fillRoles

theorem Underway.reportOpening {p : Pos} (k : Underway s e) : Underway s (e.reportOpening p) := by
  unfold Event.reportOpening; split
  · exact .ite (fun _ => k.goDay) fun _ => k
  · exact k

theorem Underway.issueLegs {i : Slot} {lost : Option Circuit} {os : List ShelfOrder} (k : Underway s e) :
    Underway s (e.issueLegs i lost os) := by
  refine .foldl (fun e o k => ?_) k
  split
  · exact .ite (fun _ => k.note) fun _ => k.issueAs
  · exact k.issueAs

theorem Underway.forceLoop {p : Pos} {lost : Option Circuit} {l : LoopIx} (k : Underway s e) :
    Underway s (Event.forceLoop p lost e l) := by
  unfold Event.forceLoop; split
  · exact .joinRoster (.updCall k.answerExtendOf.issueLegs.leaveLoop fun _ => rfl)
  · exact k

theorem Underway.reportClosing {part : Option Part} (k : Underway s e) : Underway s (e.reportClosing part) := by
  unfold Event.reportClosing; split
  · exact .ite (fun _ => k.goNight) fun _ => k
  · exact k

theorem Underway.closePosition {p : Pos} {lost : Option Circuit} (k : Underway s e) :
    Underway s (e.closePosition p lost) := by
  unfold Event.closePosition
  extract_lets e1 e2 e3
  have k2 : Underway s e2 := .foldl (fun _ _ k => k.forceLoop) k.withdraw
  have k3 : Underway s e3 := k2.updPos fun _ => rfl
  exact k3.closeRole.reportClosing

theorem Underway.headsetLost {c : Circuit} (k : Underway s e) : Underway s (e.headsetLost c) :=
  .foldl (fun _ _ k => .ite (fun _ => k.closePosition) fun _ => k) k

theorem Underway.speak {i : Slot} {p : Pos} {l : LoopIx} (k : Underway s e) : Underway s (e.speak i p l) :=
  k.placeOnLoop.issueList

theorem Underway.hold1Over {i : Slot} (k : Underway s e) : Underway s (e.hold1Over i) := by
  unfold Event.hold1Over
  extract_lets e1 c e2 length
  have k1 : Underway s e1 := k.updCall fun _ => rfl
  have k2 : Underway s e2 := by
    simp only [e2]; split
    · exact k1.updPos fun _ => rfl
    · exact k1
  exact .ite (fun _ => k2) fun _ => k2.startTimer

theorem Underway.hold2Over {i : Slot} (k : Underway s e) : Underway s (e.hold2Over i) := k.leaveLoop.joinRoster

/-! ### Extending, rings, targets -/

theorem Underway.deliver {i : Slot} (k : Underway s e) : Underway s (e.deliver i) := by
  unfold Event.deliver
  refine .close ?_
  split
  · exact k.issueAs
  · exact k

theorem Underway.backToTalk {i : Slot} (k : Underway s e) : Underway s (e.backToTalk i) := k.toState

theorem Underway.ringOut {i : Slot} (k : Underway s e) : Underway s (e.ringOut i) := k.toState.updCall fun _ => rfl

theorem Underway.screenedRing {i : Slot} {o : RingOutcome} (k : Underway s e) : Underway s (e.screenedRing i o) := by
  unfold Event.screenedRing; dsimp only; split
  · exact .answerExtendOf (k.updCall fun _ => rfl)
  · exact k.issueList.answerExtendOf.backToTalk
  · exact k.issueList.answerExtendOf.backToTalk

theorem Underway.directRing {i : Slot} {c : Circuit} {o : RingOutcome} (k : Underway s e) :
    Underway s (e.directRing i c o) := by
  unfold Event.directRing; dsimp only; split
  · exact k.answerExtendOf.leaveLoop.ringOut
  · refine .ite (fun _ => ?_) fun _ => k.issueList.answerExtendOf.dropTarget
    split
    · exact k.issue.answerExtendOf.leaveLoop.camp
    · exact k
  · exact k.issueList.answerExtendOf.dropTarget

theorem Underway.nightRing {i : Slot} {c : Circuit} {o : RingOutcome} (k : Underway s e) :
    Underway s (e.nightRing i c o) := by
  unfold Event.nightRing; dsimp only; split
  · exact k.updCall fun _ => rfl
  · refine .ite (fun _ => ?_) fun _ => k.fallback
    split
    · exact k.camp.issue
    · exact k
  · exact k.fallback

theorem Underway.campRing {i : Slot} {o : RingOutcome} (k : Underway s e) : Underway s (e.campRing i o) := by
  unfold Event.campRing; dsimp only; split
  · exact k.leaveCamp.issue.ringOut
  · exact .ite (fun _ => .ite (fun _ => k.leaveCamp.joinRoster) fun _ => k.leaveCamp.fallback) fun _ =>
      k.updCall fun _ => rfl
  · exact k.leaveCamp.recall

theorem Underway.currentRing {i : Slot} {c : Circuit} {o : RingOutcome} (k : Underway s e) :
    Underway s (e.currentRing i c o) := by
  unfold Event.currentRing; split
  · exact k.screenedRing
  · exact k.directRing
  · exact k.nightRing
  · exact k.campRing
  · exact k

theorem Underway.ringResult {i : Slot} {c : Circuit} {o : RingOutcome} (k : Underway s e) :
    Underway s (e.ringResult i c o) := .ite (fun _ => k.currentRing) fun _ => k

theorem Underway.targetAnswer {c : Circuit} (k : Underway s e) : Underway s (e.targetAnswer c) := by
  unfold Event.targetAnswer
  split
  · exact k
  · next i _ =>
    extract_lets e1
    have k1 : Underway s e1 := .ite (fun _ => k.currentRing) fun _ => k
    split
    · exact k1.toState
    · exact k1.deliver
    · exact k1

theorem Underway.targetClear {c : Circuit} (k : Underway s e) : Underway s (e.targetClear c) := by
  unfold Event.targetClear; split
  · exact .ite (fun _ => k.issueList.backToTalk) fun _ => k
  · exact k

theorem Underway.ringerFault {i : Slot} {c : Circuit} (k : Underway s e) : Underway s (e.ringerFault i c) := by
  unfold Event.ringerFault; dsimp only; split
  · exact k.issueSpared.answerExtendOf.backToTalk
  · exact k.issueSpared.backToTalk
  · exact k.issueSpared.answerExtendOf.dropTarget
  · exact k.note.recall
  · exact k

theorem Underway.targetFault {c : Circuit} (k : Underway s e) : Underway s (e.targetFault c) := by
  unfold Event.targetFault
  extract_lets e1
  have k1 : Underway s e1 := by
    simp only [e1]; split
    · exact k.ringerFault
    · exact k
  exact .foldl (fun _ _ k => k.leaveCamp.recall) k1

theorem Underway.targetIdle {c : Circuit} (k : Underway s e) : Underway s (e.targetIdle c) :=
  .ite (fun _ => k.ringHead) fun _ => k

theorem Underway.ringLimitActs {i : Slot} (k : Underway s e) : Underway s (e.ringLimitActs i) := by
  unfold Event.ringLimitActs; dsimp only; split
  · exact .updCall k.issueList.backToTalk fun _ => rfl
  · exact k.issueList.recall
  · exact k

theorem Underway.markCall {i : Slot} (k : Underway s e) : Underway s (e.markCall i) := by
  refine .ite (fun _ => ?_) fun _ => k
  have k1 := k.updCall (i := i) (g := fun c => { c with ringCount := c.ringCount + 1 }) fun _ => rfl
  exact .ite (fun _ => k1.ringLimitActs) fun _ => k1

theorem Underway.mark (k : Underway s e) : Underway s e.mark := .foldl (fun _ _ k => k.markCall) k

theorem Underway.campOver {i : Slot} (k : Underway s e) : Underway s (e.campOver i) := by
  unfold Event.campOver
  extract_lets e1
  have k1 : Underway s e1 := k.updCall fun _ => rfl
  exact .ite (fun _ => k1.updCall fun _ => rfl) fun _ => k1.leaveCamp.recall

/-! ### Reports and outcomes -/

theorem Underway.setLine {c : Circuit} {v : LineState} (k : Underway s e) : Underway s (e.setLine c v) :=
  k.updLamp fun _ => rfl

theorem Underway.ringLamp {o : ShelfOrder} {x : Outcome} (k : Underway s e) : Underway s (e.ringLamp o x) := by
  unfold Event.ringLamp; split
  · exact .ite (fun _ => k.setLine) fun _ => k
  · exact .ite (fun _ => k.setLine.look) fun _ => k
  · exact k

theorem Underway.ringDone {o : ShelfOrder} (k : Underway s e) : Underway s (e.ringDone o) := by
  unfold Event.ringDone; split
  · exact k.ring
  · exact k

theorem Underway.liveOutcome {i : Slot} {o : ShelfOrder} {x : Outcome} (k : Underway s e) :
    Underway s (e.liveOutcome i o x) := by
  unfold Event.liveOutcome; split
  · exact k.ringResult
  · exact k
  · exact k.ringResult
  · exact k.ringResult
  · exact .ite (fun _ => k) fun _ => k.pathFault
  · exact k.pathFault

theorem Underway.slotOutcome {i : Slot} {x : Entry} {o : Outcome} (k : Underway s e) :
    Underway s (e.slotOutcome i x o) := by
  unfold Event.slotOutcome
  extract_lets e1
  have k1 : Underway s e1 := k.updCall fun _ => rfl
  split
  · exact k1
  · exact .freeIfDone (.ite (fun _ => k1.handoverFailed) fun _ => k1)
  · exact k1.liveOutcome

theorem Underway.outcome {x : Entry} {o : Outcome} (k : Underway s e) : Underway s (e.outcome x o) := by
  unfold Event.outcome; dsimp only; split
  · exact k.ringLamp.ringDone.slotOutcome
  · exact k.ringLamp.ringDone

theorem Underway.callerEnds {c : Circuit} {why : EndReason} (k : Underway s e) : Underway s (e.callerEnds c why) := by
  unfold Event.callerEnds; split
  · exact k.close
  · exact k

theorem Underway.take {d : Delivery} (k : Underway s e) : Underway s (e.take d) := by
  cases d with
  | failed x => exact k.outcome
  | callerFault c why => exact k.callerEnds
  | targetFault c => exact k.targetFault
  | headsetFault c => exact k.headsetLost
  | callerClear c => exact k.callerEnds
  | targetClear c => exact k.targetClear

theorem Underway.takeAll {order : List Nat} {xs ys : List Delivery} {n : Nat} (k : Underway s e) :
    Underway s (e.takeAll order xs ys n) := by
  induction n generalizing e order xs ys with
  | zero => exact k
  | succ n ih =>
    unfold Event.takeAll; dsimp only; split
    · exact k
    · exact .ite (fun _ => ih k.take) fun _ => ih k.take

theorem Underway.deliverAll {order : List Nat} {xs ys : List Delivery} (k : Underway s e) :
    Underway s (e.deliverAll order xs ys) := k.takeAll

theorem Underway.report {c : Circuit} {r : ReportKind} {order : List Nat} (k : Underway s e) :
    Underway s (e.report c r order) := by
  unfold Event.report
  extract_lets before e1
  have k1 : Underway s e1 := k.setLine
  split
  · exact .ite (fun _ => k1.arrive) fun _ => k1
  · exact k1.targetAnswer
  · exact k1.deliverAll
  · exact k1.targetIdle
  · exact k1
  · exact .ite (fun _ => k1) fun _ => k1.deliverAll

theorem Underway.loseShelf {l : LinkIx} {a : Addr} {x : Option Entry} {order : List Nat} (k : Underway s e) :
    Underway s (e.loseShelf l a x order) := by
  unfold Event.loseShelf
  extract_lets queue e1 changed e2 failures
  have k1 : Underway s e1 := k.updLink fun _ => rfl
  have k2 : Underway s e2 := .foldl (fun _ _ k => k.setLine) k1
  exact k2.deliverAll.raise

theorem Underway.miss {l : LinkIx} {f : Frame} {order : List Nat} (k : Underway s e) : Underway s (e.miss l f order) := by
  unfold Event.miss
  extract_lets m sh e1
  have k1 : Underway s e1 := k.updLink fun _ => rfl
  refine .ite (fun _ => .ite (fun _ => k1.updLink fun _ => rfl) fun _ => k1.loseShelf) fun _ => ?_
  split
  · exact k.outcome
  · exact k

theorem Underway.deadFrame {f : Frame} (k : Underway s e) : Underway s (e.deadFrame f) := by
  unfold Event.deadFrame; split
  · exact k.outcome
  · exact k

theorem Underway.answered {l : LinkIx} {a : Addr} (k : Underway s e) : Underway s (e.answered l a) :=
  .ite (fun _ => k.updLink fun _ => rfl) fun _ => .raise (k.updLink fun _ => rfl)


/-! ### The orders of the order board -/

@[simp] theorem Event.grant_fst (e : Event) : e.grant.1 = e := rfl

theorem Underway.ownOpen {p : Pos} (k : Underway s e) : Underway s (e.ownOpen p).1 := by
  unfold Event.ownOpen; dsimp only
  repeat' split
  · exact k
  · exact k
  · exact k
  · exact .reportOpening (.fillRoles (k.updPos fun _ => rfl))

theorem Underway.ownClose {p : Pos} {force : Byte} (k : Underway s e) : Underway s (e.ownClose p force).1 := by
  unfold Event.ownClose; dsimp only
  repeat' split
  · exact k
  · exact k
  · rw [Event.grant_fst]; exact k.closePosition

theorem Underway.ownPause {p : Pos} {on : Byte} (k : Underway s e) : Underway s (e.ownPause p on).1 := by
  unfold Event.ownPause
  repeat' split
  · exact k
  · rw [Event.grant_fst]; exact k.updPos fun _ => rfl
  · exact .withdraw (k.updPos fun _ => rfl)

theorem Underway.ownAnswer {p : Pos} (k : Underway s e) : Underway s (e.ownAnswer p).1 := by
  unfold Event.ownAnswer; dsimp only
  repeat' split
  · exact k
  · exact k
  · exact k
  · exact .speak (.updPos k.leaveRoster fun _ => rfl)

theorem Underway.ownPick {p : Pos} {slot : Byte} (k : Underway s e) : Underway s (e.ownPick p slot).1 := by
  unfold Event.ownPick; dsimp only
  repeat' split
  · exact k
  · exact k
  · exact k
  · exact k
  · exact k
  · rw [Event.grant_fst]; exact k.withdraw.leaveRoster.speak

theorem Underway.ownHold {p : Pos} (k : Underway s e) : Underway s (e.ownHold p).1 := by
  unfold Event.ownHold
  extract_lets q
  split
  · exact k
  split
  · exact k
  split
  · exact k
  · next i _ =>
    extract_lets c e1 e2 e3 length
    split
    · exact k
    · have k3 : Underway s e3 := .updPos k.issueList.toState fun _ => rfl
      exact .ite (fun _ => k3) fun _ => k3.startTimer

theorem Underway.ownRetrieve {p : Pos} {loop : Byte} (k : Underway s e) : Underway s (e.ownRetrieve p loop).1 := by
  unfold Event.ownRetrieve; dsimp only
  repeat' split
  · exact k
  · exact k
  · exact k
  · exact k
  · rw [Event.grant_fst]; exact .updPos k.withdraw.issueList.toState fun _ => rfl
  · exact k

theorem Underway.ownDisconnect {p : Pos} (k : Underway s e) : Underway s (e.ownDisconnect p).1 := by
  unfold Event.ownDisconnect; dsimp only
  repeat' split
  · exact k
  · exact k
  · exact k
  · exact k.close

theorem Underway.inFlight {p : Pos} {i : Slot} {c : CellIx} {n : Word} (k : Underway s e) :
    Underway s (e.inFlight p i c n).1 := by
  unfold Event.inFlight; dsimp only
  exact .updCall (.updPos k fun _ => rfl) fun _ => rfl

theorem Underway.screened {p : Pos} {i : Slot} {t : Target} {c : CellIx} {n : Word} (k : Underway s e) :
    Underway s (e.screened p i t c n).1 := by
  unfold Event.screened; dsimp only; split
  · exact k
  · exact .inFlight (.updCall k.issueList.toState fun _ => rfl)

theorem Underway.direct {p : Pos} {i : Slot} {t : Target} {c : CellIx} {n : Word} (k : Underway s e) :
    Underway s (e.direct p i t c n).1 := by
  unfold Event.direct; dsimp only
  repeat' split
  · exact k.issueList.leaveLoop.camp
  · exact k
  · exact .inFlight (.updCall k.issueList fun _ => rfl)

theorem Underway.ownExtend {p : Pos} {number : Word} {mode : Byte} {c : CellIx} {n : Word} (k : Underway s e) :
    Underway s (e.ownExtend p number mode c n).1 := by
  unfold Event.ownExtend
  extract_lets q e1
  have k1 : Underway s e1 := by
    simp only [e1]; split
    · exact k.updCall fun _ => rfl
    · exact k
  dsimp only
  repeat' split
  · exact k1
  · exact k1
  · exact k1
  · exact k1
  · exact k1
  · exact k1.screened
  · exact k1.direct

theorem Underway.ownTransfer {p : Pos} (k : Underway s e) : Underway s (e.ownTransfer p).1 := by
  unfold Event.ownTransfer; dsimp only
  repeat' split
  · exact k
  · exact k
  · exact k.issueList.leaveLoop.toState
  · exact k
  · exact k.issueList.deliver
  · exact k
  · exact k
  · exact k

theorem Underway.ownCancel {p : Pos} (k : Underway s e) : Underway s (e.ownCancel p).1 := by
  unfold Event.ownCancel; dsimp only
  repeat' split
  · exact k
  · exact k
  · exact k.issueList.answerExtendOf.backToTalk
  · exact k.issueList.answerExtendOf.backToTalk
  · exact k.issueList.answerExtendOf.dropTarget
  · exact k
  · exact k

theorem Underway.ownSetNight {p : Option Pos} {part mode : Byte} (k : Underway s e) :
    Underway s (e.ownSetNight p part mode).1 := by
  unfold Event.ownSetNight
  repeat' split
  · exact k
  · exact k
  · exact k
  · exact k
  · exact k.goNight
  · exact k.goDay
  · exact k

theorem Underway.ownApply {p : Option Pos} {c : CellIx} (k : Underway s e) : Underway s (e.ownApply p c).1 := by
  unfold Event.ownApply; split
  · exact k
  dsimp only
  · exact .upd k fun _ => .of_eq rfl id

theorem Underway.own {c : CellIx} {x : OrderKind} (k : Underway s e) : Underway s (e.own c x).1 := by
  unfold Event.own; dsimp only; split
  · exact k.ownSetNight
  · exact k.ownApply
  · exact k.ownOpen
  · exact k.ownClose
  · exact k.ownPause
  · exact k.ownAnswer
  · exact k.ownPick
  · exact k.ownHold
  · exact k.ownRetrieve
  · exact k.ownDisconnect
  · exact k.ownExtend
  · exact k.ownTransfer
  · exact k.ownCancel
  · exact k

theorem Underway.order {c : CellIx} (k : Underway s e) : Underway s (e.order c) := by
  unfold Event.order; split
  · exact k.answer
  · split
    · exact k.answer
    · unfold Event.settleOrder; split
      · exact k.own.answer
      · exact k.own

/-! ### The activation of a plan -/

theorem Carried.takeDirectory (t : State) (pl : Plan) : Carried t (t.takeDirectory pl) :=
  { Carried.refl t with
    slots := id
    lamp := fun k => (congrArg Lamp.rev (Table.get_zip _ _ _ k)).trans rfl }

theorem Carried.dropCamps (t : State) : Carried t t.dropCamps :=
  { Carried.refl t with
    slots := id
    lamp := fun k => (congrArg Lamp.rev (Table.get_map _ _ k)).trans (by split <;> rfl) }

theorem Carried.seatPositions (t : State) (pl : Plan) : Carried t (t.seatPositions pl) :=
  { Carried.refl t with
    slots := id
    pos := fun p => (congrArg Position.rev (Table.get_zip _ _ _ p)).trans rfl }

theorem Carried.count (t : State) : Carried t t.count := by
  unfold State.count
  dsimp only
  split
  · exact { Carried.refl t with
      slots := id
      link := fun l => (congrArg Link.rev (Table.get_map _ _ l)).trans rfl }
  · exact .of_eq rfl id

theorem Carried.endApply (t : State) (c : CellIx) (code : ResultCode) (d : Word) : Carried t (t.endApply c code d) :=
  (Carried.answer t c code d).trans (.of_eq rfl id)

theorem Underway.unfitCircuits {pl : Plan} {l : LinkIx} (k : Underway s e) :
    Underway s (Event.unfitCircuits pl e l) :=
  .foldl (fun _ _ k => .ite (fun _ => .foldl (fun _ _ k => k.setLine) k) fun _ => k) k

theorem Underway.refitLink {pl : Plan} {l : LinkIx} (k : Underway s e) : Underway s (Event.refitLink pl e l) :=
  .foldl (fun _ _ k => k.outcome) (.updLink k.unfitCircuits fun _ => rfl)

theorem Underway.refitLinks {pl : Plan} (k : Underway s e) : Underway s (e.refitLinks pl) :=
  .foldl (fun _ _ k => k.refitLink) k

theorem Underway.settlePartition {old : Part → PartPlan} {pl : Plan} {p : Part} (k : Underway s e) :
    Underway s (Event.settlePartition old pl e p) := by
  unfold Event.settlePartition
  extract_lets was now e1 reseed e2
  have k1 : Underway s e1 := .ite (fun _ => k) fun _ => k.updPrt fun _ => rfl
  have k2 : Underway s e2 := .ite (fun _ => .wantPass (k1.updPrt fun _ => rfl)) fun _ => k1
  exact .ite (fun _ => k2.wantPass) fun _ => k2

theorem Underway.closeMoved {pl : Plan} {p : Pos} (k : Underway s e) : Underway s (Event.closeMoved pl e p) :=
  .ite (fun _ => k.closePosition) fun _ => k

theorem Underway.seat {pl : Plan} (k : Underway s e) : Underway s (e.seat pl) :=
  .fillRoles (.upd (.foldl (fun _ _ k => k.closeMoved) k) fun t => .seatPositions t pl)

theorem Underway.activate {pl : Plan} (k : Underway s e) : Underway s (e.activate pl) := by
  unfold Event.activate
  extract_lets old e1 e2 e3 e4 e5 e6 e7
  have k2 : Underway s e2 := .refitLinks (k.upd fun t => .takeDirectory t pl)
  have k3 : Underway s e3 := k2.upd fun _ => .of_eq rfl id
  have k4 : Underway s e4 := .foldl (fun _ _ k => k.settlePartition) k3
  have k6 : Underway s e6 := .seat (k4.upd Carried.dropCamps)
  have k7 : Underway s e7 := .foldl (fun _ _ k => k.alertTest) k6
  exact k7.upd Carried.count

/-! ### Entry to BYPASSED -/

theorem Underway.bypassSlot {i : Slot} (k : Underway s e) : Underway s (e.bypassSlot i) :=
  .ite (fun _ => k) fun h => k.next (Carried.release _ _ _ rfl rfl h) rfl

theorem Carried.answers (cs : List CellIx) (code : ResultCode) (d : Word) (t : State) :
    Carried t (cs.foldl (fun s c => s.answer c code d) t) := by
  induction cs generalizing t with
  | nil => exact Carried.refl t
  | cons c cs ih => exact (Carried.answer t c code d).trans (ih _)

theorem Carried.abandonOrders (t : State) : Carried t t.abandonOrders :=
  (Carried.answers t.taker.cells .notServing 0 t).trans (.of_eq rfl id)

theorem Underway.enterBypass (k : Underway s e) : Underway s e.enterBypass := by
  unfold Event.enterBypass
  extract_lets e1 e2 e3 e4 e5 e6
  have k1 : Underway s e1 := k.upd fun t => { Carried.refl t with
    slots := id
    prt := fun q => (congrArg Partition.rev (Table.get_map _ _ q)).trans rfl }
  have k2 : Underway s e2 := k1.upd fun t => { Carried.refl t with
    slots := id
    pos := fun p => (congrArg Position.rev (Table.get_map _ _ p)).trans rfl }
  have k3 : Underway s e3 := k2.upd fun t => { Carried.refl t with
    slots := id
    lamp := fun c => (congrArg Lamp.rev (Table.get_map _ _ c)).trans rfl }
  have k4 : Underway s e4 := .foldl (fun _ _ k => k.bypassSlot) k3
  have k5 : Underway s e5 := k4.upd fun t => { Carried.refl t with
    slots := id
    link := fun l => (congrArg Link.rev (Table.get_map _ _ l)).trans rfl }
  have k6 : Underway s e6 := k5.upd Carried.abandonOrders
  exact k6.upd fun t => (Carried.of_eq (s := t) (t := { t with engine := .bypassed }) rfl id).trans (.raise _ _)

end Chain

end Sys2Proof.Machine
end

section
/-! SUPPORT. The end of an event raises the revision of every record the event has changed, and the board revision with
them (R11, R12): what one event does to the revisions, and what a row of events does. -/

namespace Sys2Proof.Machine

/-! ### Marks and revisions -/

theorem Table.list_eq_map {α : Type} {n : Nat} (t : Table α n) : t.list = (List.finRange n).map t.get :=
  List.ext_getElem (by simp [t.len]) fun i h _ => by simp [Table.get_def]

/-- Raises of one each for the marked records add up to the number of marks. -/
theorem sum_raises_eq_countMarks {n : Nat} (m : Table Bool n) (f : Fin n → Word)
    (h : ∀ i, f i = if m.get i = true then 1 else 0) :
    ((List.finRange n).map f).sum = BitVec.ofNat 16 (countMarks m) := by
  unfold countMarks
  rw [Table.list_eq_map m]
  induction List.finRange n with
  | nil => rfl
  | cons i is ih =>
    rw [List.map_cons, List.sum_cons, ih, List.map_cons, List.count_cons, h i]
    cases m.get i with
    | false => simp
    | true => simp [BitVec.ofNat_add, add_comm]

theorem revised_zero {a b : Word} {d : Prop} (h : revised 0 a b d) : b = a ∧ ¬ d := by
  obtain ⟨hn, hd⟩ := h
  have hab : b = a := by bv_omega
  exact ⟨hab, fun x => hd x hab⟩

theorem revised_mono {n m : Nat} {a b : Word} {d : Prop} (h : revised n a b d) (hnm : n ≤ m) : revised m a b d :=
  ⟨h.1.trans hnm, h.2⟩

theorem revised_refl (n : Nat) (a : Word) {d : Prop} (h : ¬ d) : revised n a a d := by
  refine ⟨?_, fun x => absurd x h⟩
  rw [BitVec.sub_self]
  exact Nat.zero_le _

/-- A record that the end of an event raises exactly when it is marked, and that is marked when its fields differ. -/
theorem revised_marked {a b : Word} {d : Prop} {m : Bool} (hb : b = if m = true then a + 1 else a) (hm : d → m = true) :
    revised 1 a b d := by
  refine ⟨?_, fun x => ?_⟩
  · rw [hb]; split <;> bv_omega
  · rw [hb, if_pos (hm x)]; bv_omega

theorem revised_trans {n m : Nat} {a b c : Word} {d d' d'' : Prop} (h : revised n a b d) (k : revised m b c d')
    (hnm : n + m < 65536) (hd : d'' → d ∨ d') : revised (n + m) a c d'' := by
  obtain ⟨hn, hbd⟩ := h
  obtain ⟨hm, hcd⟩ := k
  have hsum : (c - a).toNat = (c - b).toNat + (b - a).toNat := by bv_omega
  refine ⟨by omega, fun x => ?_⟩
  rcases hd x with y | y
  · have := hbd y
    bv_omega
  · have := hcd y
    bv_omega

/-! ### What commands do to the revisions -/

/-- What a command of at most `n` events does to the free list (R8) and to the revisions of the records (R11). -/
structure Revises (n : Nat) (s t : State) : Prop where
  slots : s.freeListed → t.freeListed
  call : ∀ i, revised n (s.call i).rev (t.call i).rev ((t.call i).bare ≠ (s.call i).bare)
  pos : ∀ p, revised n (s.pos p).rev (t.pos p).rev ((t.pos p).shown ≠ (s.pos p).shown)
  prt : ∀ q, revised n (s.prt q).rev (t.prt q).rev (t.shownPart q ≠ s.shownPart q)
  lamp : ∀ k, revised n (s.lamp k).rev (t.lamp k).rev ((t.lamp k).shown ≠ (s.lamp k).shown)
  link : ∀ l, revised n (s.link l).rev (t.link l).rev ((t.link l).shown ≠ (s.link l).shown)
  posOnly : n ≤ 1 → ∀ p, (t.pos p).rev ≠ (s.pos p).rev → (t.pos p).shown ≠ (s.pos p).shown
  lampOnly : n ≤ 1 → ∀ k, (t.lamp k).rev ≠ (s.lamp k).rev → (t.lamp k).shown ≠ (s.lamp k).shown
  linkOnly : n ≤ 1 → ∀ l, (t.link l).rev ≠ (s.link l).rev → (t.link l).shown ≠ (s.link l).shown

/-- What a command does to the board revision and the Board flag (R12). -/
structure Boards (s t : State) : Prop where
  rises : t.boardRev = s.boardRev + revisionsRaised s t
  flags : t.boardRev ≠ s.boardRev → t.flag .board = true

/-- At most `n` events, none of which clears the Board flag. -/
structure Events (n : Nat) (s t : State) : Prop extends Revises n s t, Boards s t where
  flag : s.flag .board = true → t.flag .board = true

/-- Nothing that the host reads of the records has changed. -/
structure Unseen (s t : State) : Prop where
  same : (t.calls, t.free, t.positions, t.parts, t.lamps, t.plan) =
    (s.calls, s.free, s.positions, s.parts, s.lamps, s.plan)
  link : ∀ l, ((t.link l).rev, (t.link l).shown) = ((s.link l).rev, (s.link l).shown)

/-- Fields that differ over two changes differ over one of them. -/
theorem differ_or {α : Type} {a b c : α} (h : c ≠ a) : b ≠ a ∨ c ≠ b := by
  by_contra hn
  push Not at hn
  exact h (hn.2.trans hn.1)

/-- A revision that rises over two changes of one event together only for another field, does so for the fields it had. -/
theorem only_trans {α : Type} {n m : Nat} (hnm : n + m ≤ 1) {a b c : Word} {x y z : α}
    (h : revised n a b (y ≠ x)) (k : revised m b c (z ≠ y)) (hx : n ≤ 1 → b ≠ a → y ≠ x) (hy : m ≤ 1 → c ≠ b → z ≠ y)
    (hc : c ≠ a) : z ≠ x := by
  by_cases hn : n = 0
  · subst hn
    obtain ⟨hba, hyx⟩ := revised_zero h
    rw [← not_not.mp hyx]
    exact hy (by omega) (by rw [hba]; exact hc)
  · have hm : m = 0 := by omega
    subst hm
    obtain ⟨hcb, hzy⟩ := revised_zero k
    rw [not_not.mp hzy]
    exact hx (by omega) (by rw [← hcb]; exact hc)

theorem Revises.trans {n m : Nat} {s t u : State} (h : Revises n s t) (k : Revises m t u) (hnm : n + m < 65536) :
    Revises (n + m) s u where
  slots := k.slots ∘ h.slots
  call := fun i => revised_trans (h.call i) (k.call i) hnm differ_or
  pos := fun i => revised_trans (h.pos i) (k.pos i) hnm differ_or
  prt := fun i => revised_trans (h.prt i) (k.prt i) hnm differ_or
  lamp := fun i => revised_trans (h.lamp i) (k.lamp i) hnm differ_or
  link := fun i => revised_trans (h.link i) (k.link i) hnm differ_or
  posOnly := fun hn p =>
    only_trans hn (h.pos p) (k.pos p) (fun hn => h.posOnly hn p) fun hm => k.posOnly hm p
  lampOnly := fun hn c =>
    only_trans hn (h.lamp c) (k.lamp c) (fun hn => h.lampOnly hn c) fun hm => k.lampOnly hm c
  linkOnly := fun hn l =>
    only_trans hn (h.link l) (k.link l) (fun hn => h.linkOnly hn l) fun hm => k.linkOnly hm l

theorem Revises.mono {n m : Nat} {s t : State} (h : Revises n s t) (hnm : n ≤ m) : Revises m s t where
  slots := h.slots
  call := fun i => revised_mono (h.call i) hnm
  pos := fun i => revised_mono (h.pos i) hnm
  prt := fun i => revised_mono (h.prt i) hnm
  lamp := fun i => revised_mono (h.lamp i) hnm
  link := fun i => revised_mono (h.link i) hnm
  posOnly := fun hm => h.posOnly (hnm.trans hm)
  lampOnly := fun hm => h.lampOnly (hnm.trans hm)
  linkOnly := fun hm => h.linkOnly (hnm.trans hm)

theorem sum_differences {n : Nat} (a b c : Fin n → Word) :
    ((List.finRange n).map fun i => c i - a i).sum =
      ((List.finRange n).map fun i => b i - a i).sum + ((List.finRange n).map fun i => c i - b i).sum := by
  rw [← List.sum_map_add]
  congr 2
  funext i
  exact (sub_add_sub_cancel' _ _ _).symm

theorem revisionsRaised_trans (s t u : State) : revisionsRaised s u = revisionsRaised s t + revisionsRaised t u := by
  unfold revisionsRaised
  rw [sum_differences (fun i => (s.call i).rev) (fun i => (t.call i).rev) fun i => (u.call i).rev,
    sum_differences (fun i => (s.pos i).rev) (fun i => (t.pos i).rev) fun i => (u.pos i).rev,
    sum_differences (fun i => (s.prt i).rev) (fun i => (t.prt i).rev) fun i => (u.prt i).rev,
    sum_differences (fun i => (s.lamp i).rev) (fun i => (t.lamp i).rev) fun i => (u.lamp i).rev,
    sum_differences (fun i => (s.link i).rev) (fun i => (t.link i).rev) fun i => (u.link i).rev]
  ring

theorem Boards.trans {s t u : State} (h : Boards s t) (k : Boards t u) (hf : t.flag .board = true → u.flag .board = true) :
    Boards s u where
  rises := by rw [k.rises, h.rises, revisionsRaised_trans s t u, add_assoc]
  flags := fun hne => (differ_or hne).elim (fun x => hf (h.flags x)) k.flags

theorem Events.trans {n m : Nat} {s t u : State} (h : Events n s t) (k : Events m t u) (hnm : n + m < 65536) :
    Events (n + m) s u where
  toRevises := h.toRevises.trans k.toRevises hnm
  toBoards := h.toBoards.trans k.toBoards k.flag
  flag := k.flag ∘ h.flag

theorem Events.mono {n m : Nat} {s t : State} (h : Events n s t) (hnm : n ≤ m) : Events m s t where
  toRevises := h.toRevises.mono hnm
  toBoards := h.toBoards
  flag := h.flag

/-! ### Changes that the host does not read in a record -/

theorem Unseen.of_eq {s t : State}
    (h : (t.calls, t.free, t.positions, t.parts, t.lamps, t.plan) =
      (s.calls, s.free, s.positions, s.parts, s.lamps, s.plan)) (hl : t.links = s.links) : Unseen s t where
  same := h
  link := fun l => by unfold State.link; rw [hl]

theorem Unseen.refl (s : State) : Unseen s s := .of_eq rfl rfl

theorem Unseen.trans {s t u : State} (h : Unseen s t) (k : Unseen t u) : Unseen s u where
  same := k.same.trans h.same
  link := fun l => (k.link l).trans (h.link l)

theorem Unseen.setLink (s : State) (l : LinkIx) (q : Link) (h : (q.rev, q.shown) = ((s.link l).rev, (s.link l).shown)) :
    Unseen s (s.setLink l q) where
  same := rfl
  link := fun m => by
    rw [State.link_setLink]; split
    · next e => rw [← e]; exact h
    · rfl

theorem Unseen.revises {s t : State} (h : Unseen s t) : Revises 0 s t := by
  have hs := h.same
  simp only [Prod.mk.injEq] at hs
  obtain ⟨hc, hf, hp, hq, hl, hpl⟩ := hs
  have call : ∀ i, t.call i = s.call i := fun i => by unfold State.call; rw [hc]
  have pos : ∀ p, t.pos p = s.pos p := fun p => by unfold State.pos; rw [hp]
  have prt : ∀ q, t.prt q = s.prt q := fun q => by unfold State.prt; rw [hq]
  have lamp : ∀ k, t.lamp k = s.lamp k := fun k => by unfold State.lamp; rw [hl]
  have shownPart : ∀ q, t.shownPart q = s.shownPart q := fun q => by
    unfold State.shownPart State.newCount; rw [prt, hq, hc, hpl]
  have link : ∀ l, (t.link l).rev = (s.link l).rev ∧ (t.link l).shown = (s.link l).shown := fun l =>
    Prod.mk.inj (h.link l)
  exact {
    slots := fun ⟨hn, hm⟩ => ⟨by rw [hf]; exact hn, fun i => by rw [hf, call]; exact hm i⟩
    call := fun i => by rw [call]; exact revised_refl _ _ (not_not.mpr rfl)
    pos := fun p => by rw [pos]; exact revised_refl _ _ (not_not.mpr rfl)
    prt := fun q => by rw [prt]; exact revised_refl _ _ (not_not.mpr (shownPart q))
    lamp := fun k => by rw [lamp]; exact revised_refl _ _ (not_not.mpr rfl)
    link := fun l => by rw [(link l).1]; exact revised_refl _ _ (not_not.mpr (link l).2)
    posOnly := fun _ p hr => absurd (congrArg Position.rev (pos p)) hr
    lampOnly := fun _ k hr => absurd (congrArg Lamp.rev (lamp k)) hr
    linkOnly := fun _ l hr => absurd (link l).1 hr }

theorem Unseen.revisionsRaised {s t : State} (h : Unseen s t) : revisionsRaised s t = 0 := by
  have hs := h.same
  simp only [Prod.mk.injEq] at hs
  obtain ⟨hc, -, hp, hq, hl, -⟩ := hs
  have link : ∀ l, (t.link l).rev = (s.link l).rev := fun l => (Prod.mk.inj (h.link l)).1
  unfold Machine.revisionsRaised State.call State.pos State.prt State.lamp
  rw [hc, hp, hq, hl]
  simp only [link, sub_self, List.map_const', List.sum_replicate, smul_zero, add_zero]

theorem Unseen.boards {s t : State} (h : Unseen s t) (hb : t.boardRev = s.boardRev) : Boards s t :=
  ⟨by rw [h.revisionsRaised, add_zero, hb], fun hne => absurd hb hne⟩

theorem Unseen.events {s t : State} (h : Unseen s t) (hb : t.boardRev = s.boardRev)
    (hf : s.flag .board = true → t.flag .board = true) : Events 0 s t := ⟨h.revises, h.boards hb, hf⟩

/-! ### The end of an event -/

theorem Underway.retie {s : State} {e : Event} (k : Underway s e) : Underway s (e.upd State.retie) :=
  k.upd fun t => { Carried.refl t with
    slots := id
    lamp := fun c => by rw [State.lamp_retie] }

theorem Call.same_iff (a b : Call) : a.same b = true ↔ b.bare = a.bare := by
  unfold Call.same Call.bare
  rw [beq_iff_eq]
  exact eq_comm

theorem Position.same_iff (a b : Position) : a.same b = true ↔ b.shown = a.shown := by
  unfold Position.same Position.shown
  rw [beq_iff_eq]
  exact eq_comm

theorem Lamp.same_iff (a b : Lamp) : a.same b = true ↔ b.shown = a.shown := by
  unfold Lamp.same Lamp.shown
  simp only [Bool.and_eq_true, beq_iff_eq, Prod.mk.injEq]
  constructor
  · rintro ⟨⟨⟨⟨⟨h1, h2⟩, h3⟩, h4⟩, h5⟩, h6⟩; exact ⟨h1.symm, h2.symm, h3.symm, h4.symm, h5.symm, h6.symm⟩
  · rintro ⟨h1, h2, h3, h4, h5, h6⟩; exact ⟨⟨⟨⟨⟨h1.symm, h2.symm⟩, h3.symm⟩, h4.symm⟩, h5.symm⟩, h6.symm⟩

theorem Link.same_iff (a b : Link) : a.same b = true ↔ b.shown = a.shown := by
  unfold Link.same Link.shown
  simp only [Bool.and_eq_true, beq_iff_eq, Prod.mk.injEq]
  constructor
  · rintro ⟨⟨⟨h1, h2⟩, h3⟩, h4⟩; exact ⟨h1.symm, h2.symm, h3.symm, h4.symm⟩
  · rintro ⟨h1, h2, h3, h4⟩; exact ⟨⟨⟨h1.symm, h2.symm⟩, h3.symm⟩, h4.symm⟩

theorem Partition.same_iff (a b : Partition) : a.same b = true ↔
    (b.mode, b.alert, b.roster, b.est.range, b.est.new, b.est.old, b.est.stall, b.est.clamped) =
      (a.mode, a.alert, a.roster, a.est.range, a.est.new, a.est.old, a.est.stall, a.est.clamped) := by
  unfold Partition.same
  simp only [Bool.and_eq_true, beq_iff_eq, Prod.mk.injEq]
  constructor
  · rintro ⟨⟨⟨⟨⟨⟨⟨h1, h2⟩, h3⟩, h4⟩, h5⟩, h6⟩, h7⟩, h8⟩
    exact ⟨h1.symm, h2.symm, h3.symm, h4.symm, h5.symm, h6.symm, h7.symm, h8.symm⟩
  · rintro ⟨h1, h2, h3, h4, h5, h6, h7, h8⟩
    exact ⟨⟨⟨⟨⟨⟨⟨h1.symm, h2.symm⟩, h3.symm⟩, h4.symm⟩, h5.symm⟩, h6.symm⟩, h7.symm⟩, h8.symm⟩

theorem Event.newCount_raiseRecords (e : Event) (q : Part) : e.raiseRecords.newCount q = e.st.newCount q := by
  have hr : (e.raiseRecords.prt q).roster = (e.st.prt q).roster := by rw [Event.prt_raiseRecords]; split <;> rfl
  have hc : ∀ i, (e.raiseRecords.call i).cls = (e.st.call i).cls := fun i => by
    rw [Event.call_raiseRecords]; split <;> rfl
  unfold State.prt at hr
  unfold State.call at hc
  unfold State.newCount
  rw [hr]
  simp only [hc]

/-- What the end of an event leaves of what a partition's record shows (R180): its revision is not part of it. -/
theorem Event.shownPart_raiseRecords (e : Event) (q : Part) : e.raiseRecords.shownPart q = e.st.shownPart q := by
  unfold State.shownPart
  rw [Event.newCount_raiseRecords, Event.prt_raiseRecords]
  split <;> rfl

/-- The partition's record is marked when what it shows has changed. -/
theorem Event.prtRaises_of_shown {e : Event} {q : Part} (h : e.st.shownPart q ≠ e.start.shownPart q) :
    e.prtRaises.get q = true := by
  by_contra hm
  have hm : e.prtRaises.get q = false := by simpa using hm
  unfold Event.prtRaises at hm
  rw [Table.get_make] at hm
  simp only [Bool.or_eq_false_iff, Bool.not_eq_false', bne_eq_false_iff_eq] at hm
  obtain ⟨⟨⟨-, hs⟩, hn⟩, hp⟩ := hm
  have hs := (Partition.same_iff _ _).mp hs
  simp only [Prod.mk.injEq] at hs
  obtain ⟨h1, h2, h3, h4, h5, h6, h7, h8⟩ := hs
  unfold State.settings at hp
  apply h
  unfold State.shownPart
  rw [h1, h2, h3, h4, h5, h6, h7, h8, hn, hp]

section Ends

variable {s : State} {e : Event}

theorem Underway.raiseRecords (k : Underway s e) : Revises 1 s e.raiseRecords where
  slots := (Event.raiseRecords_keeps e).slots ∘ k.carried.slots
  call := fun i => by
    refine revised_marked (m := e.callRaises.get i) ?_ fun h => ?_
    · rw [Event.call_raiseRecords, ← k.carried.call i]; split <;> rfl
    · have hb : (e.raiseRecords.call i).bare = (e.st.call i).bare := by
        rw [Event.call_raiseRecords]; split <;> rfl
      rw [hb] at h
      unfold Event.callRaises
      rw [Table.get_make, k.start, Bool.or_eq_true, Bool.not_eq_true', ← Bool.not_eq_true, Call.same_iff]
      exact .inr h
  pos := fun p => by
    refine revised_marked (m := e.posRaises.get p) ?_ fun h => ?_
    · rw [Event.pos_raiseRecords, ← k.carried.pos p]; split <;> rfl
    · rw [Event.posRaises, Table.get_make, k.start, Bool.not_eq_true', ← Bool.not_eq_true, Position.same_iff]
      rw [Event.pos_raiseRecords] at h
      split at h <;> exact h
  prt := fun q => by
    refine revised_marked (m := e.prtRaises.get q) ?_ fun h => ?_
    · rw [Event.prt_raiseRecords, ← k.carried.prt q]; split <;> rfl
    · rw [Event.shownPart_raiseRecords, ← k.start] at h
      exact Event.prtRaises_of_shown h
  lamp := fun c => by
    refine revised_marked (m := e.lampRaises.get c) ?_ fun h => ?_
    · rw [Event.lamp_raiseRecords, ← k.carried.lamp c]; split <;> rfl
    · rw [Event.lampRaises, Table.get_zip, k.start, Bool.not_eq_true', ← Bool.not_eq_true, Lamp.same_iff]
      rw [Event.lamp_raiseRecords] at h
      split at h <;> exact h
  link := fun l => by
    refine revised_marked (m := e.linkRaises.get l) ?_ fun h => ?_
    · rw [Event.link_raiseRecords, ← k.carried.link l]; split <;> rfl
    · rw [Event.linkRaises, Table.get_zip, k.start, Bool.not_eq_true', ← Bool.not_eq_true, Link.same_iff]
      rw [Event.link_raiseRecords] at h
      split at h <;> exact h
  posOnly := fun _ p h => by
    rw [Event.pos_raiseRecords] at h ⊢
    split at h
    · next hm =>
      rw [Event.posRaises, Table.get_make, k.start, Bool.not_eq_true', ← Bool.not_eq_true, Position.same_iff] at hm
      split <;> exact hm
    · exact absurd (k.carried.pos p) h
  lampOnly := fun _ c h => by
    rw [Event.lamp_raiseRecords] at h ⊢
    split at h
    · next hm =>
      rw [Event.lampRaises, Table.get_zip, k.start, Bool.not_eq_true', ← Bool.not_eq_true, Lamp.same_iff] at hm
      split <;> exact hm
    · exact absurd (k.carried.lamp c) h
  linkOnly := fun _ l h => by
    rw [Event.link_raiseRecords] at h ⊢
    split at h
    · next hm =>
      rw [Event.linkRaises, Table.get_zip, k.start, Bool.not_eq_true', ← Bool.not_eq_true, Link.same_iff] at hm
      split <;> exact hm
    · exact absurd (k.carried.link l) h

/-- The revisions that the end of an event raises are as many as the records it has changed (R12). -/
theorem Underway.revisionsRaised_eq (k : Underway s e) :
    revisionsRaised s e.raiseRecords = BitVec.ofNat 16 e.raises := by
  have up : ∀ (a : Word) (m : Bool), (if m = true then a + 1 else a) - a = if m = true then 1 else 0 := fun a m => by
    split <;> bv_omega
  unfold revisionsRaised Event.raises
  rw [sum_raises_eq_countMarks e.callRaises _ fun i => by
      rw [Event.call_raiseRecords, ← k.carried.call i, ← up]; split <;> rfl,
    sum_raises_eq_countMarks e.posRaises _ fun i => by
      rw [Event.pos_raiseRecords, ← k.carried.pos i, ← up]; split <;> rfl,
    sum_raises_eq_countMarks e.prtRaises _ fun i => by
      rw [Event.prt_raiseRecords, ← k.carried.prt i, ← up]; split <;> rfl,
    sum_raises_eq_countMarks e.lampRaises _ fun i => by
      rw [Event.lamp_raiseRecords, ← k.carried.lamp i, ← up]; split <;> rfl,
    sum_raises_eq_countMarks e.linkRaises _ fun i => by
      rw [Event.link_raiseRecords, ← k.carried.link i, ← up]; split <;> rfl]
  simp only [BitVec.ofNat_add]

theorem State.bumpBoard_unseen (t : State) (n : Nat) : Unseen t (t.bumpBoard n) := by
  unfold State.bumpBoard; split
  · exact .refl t
  · exact .of_eq rfl rfl

theorem State.bumpBoard_boardRev (t : State) (n : Nat) : (t.bumpBoard n).boardRev = t.boardRev + BitVec.ofNat 16 n := by
  unfold State.bumpBoard; split
  · next h => rw [h]; exact (BitVec.add_zero _).symm
  · rfl

/-- An event whose records have been revised raises the board revision by as much (R12). -/
theorem Underway.bumped (k : Underway s e) : Events 1 s (e.raiseRecords.bumpBoard e.raises) := by
  have hu := State.bumpBoard_unseen e.raiseRecords e.raises
  have hk := State.bumpBoard_keeps e.raiseRecords e.raises
  have hb : e.raiseRecords.boardRev = s.boardRev := k.carried.board
  refine ⟨k.raiseRecords.trans hu.revises (by decide), ⟨?_, fun hne => ?_⟩, fun h => ?_⟩
  · rw [State.bumpBoard_boardRev, hb, revisionsRaised_trans s e.raiseRecords, hu.revisionsRaised, add_zero,
      k.revisionsRaised_eq]
  · exact hk.board (by rw [hb]; exact hne)
  · exact State.flag_mono hk.summary (k.carried.flag h)

theorem Underway.commit (k : Underway s e) : Events 1 s e.commit := k.retie.bumped

theorem Underway.finish (k : Underway s e) : Events 1 s e.finish :=
  k.settle.testPositions.runArbiters.runPasses.commit

theorem runEvent_events {body : Event → Event} (h : ∀ e, Underway s e → Underway s (body e)) :
    Events 1 s (runEvent s body) := (h _ (.begin s)).finish

end Ends

end Sys2Proof.Machine
end

section
/-! SUPPORT. How many events each command is, and what it does to the free list and the revisions (R8, R11, R12). -/

namespace Sys2Proof.Machine

/-- A change of no record. -/
theorem Events.of_eq {s t : State}
    (h : (t.calls, t.free, t.positions, t.parts, t.lamps, t.plan) = (s.calls, s.free, s.positions, s.parts, s.lamps, s.plan))
    (hl : (t.links, t.boardRev) = (s.links, s.boardRev)) (hf : s.flag .board = true → t.flag .board = true) :
    Events 0 s t := (Unseen.of_eq h (Prod.mk.inj hl).1).events (Prod.mk.inj hl).2 hf

theorem Events.refl (s : State) : Events 0 s s := .of_eq rfl rfl id

/-- A link changed in what is not published of it (R123). -/
theorem Events.setLink (s : State) (l : LinkIx) (q : Link) (h : (q.rev, q.shown) = ((s.link l).rev, (s.link l).shown)) :
    Events 0 s (s.setLink l q) := (Unseen.setLink s l q h).events rfl id

/-! ### Links -/

theorem Link.send_shown (k : Link) (a : Addr) (x : Option Entry) (again : Bool) :
    ((k.send a x again).rev, (k.send a x again).shown) = (k.rev, k.shown) := by
  unfold Link.send; dsimp only; split <;> rfl

theorem Link.sendNext_shown (k : Link) : (k.sendNext.rev, k.sendNext.shown) = (k.rev, k.shown) := by
  unfold Link.sendNext; split
  · exact Link.send_shown _ _ _ _
  · split
    · exact Link.send_shown _ _ _ _
    · rfl

/-- The head of the queue fails with LOST (R115): one event. -/
theorem State.failHead_events (s : State) (l : LinkIx) (x : Entry) (xs : List Entry) :
    Events 1 s (runEvent s fun e => (e.updLink l fun k => { k with queue := xs }).outcome x (.lost false)) :=
  runEvent_events fun _ k => .outcome (k.updLink fun _ => rfl)

theorem State.failHeads_events (l : LinkIx) (n : Nat) (hn : n < 65536) (s : State) : Events n s (s.failHeads l n) := by
  induction n generalizing s with
  | zero => exact .refl s
  | succ n ih =>
    unfold State.failHeads; split
    · next x xs _ =>
      split
      · exact (Events.refl s).mono (Nat.zero_le _)
      · exact ((s.failHead_events l x xs).trans (ih (by omega) _) (by omega)).mono (Nat.add_comm 1 n).le
    · exact (Events.refl s).mono (Nat.zero_le _)

theorem State.sendFrame_events (s : State) (l : LinkIx) : Events 1024 s (s.sendFrame l) := by
  have heads : ∀ n : Nat, n = 1024 → Events n s (s.failHeads l n) := fun n hn =>
    State.failHeads_events l n (by omega) s
  have again : ∀ r : Again, Events 0 s
      (s.setLink l (Link.send { s.link l with again := none } r.addr r.entry true)) :=
    fun r => .setLink s l _ (Link.send_shown _ _ _ _)
  unfold State.sendFrame
  generalize hn : 1024 = n
  extract_lets k
  split
  · split
    · exact (again _).mono (Nat.zero_le _)
    · exact (heads n hn.symm).trans (m := 0) (Events.setLink _ l _ (Link.sendNext_shown _)) (by omega)
  · exact (Events.refl s).mono (Nat.zero_le _)

theorem State.handOn_events (l : LinkIx) (a : Addr) (rs : List Report) (s : State) (orders : List (List Nat))
    (h : rs.length < 65536) : Events rs.length s (s.handOn l a rs orders) := by
  induction rs generalizing s orders with
  | nil => exact .refl s
  | cons r rs ih =>
    have report : Events 1 s
        (runEvent s fun e => e.report (circuitAt l a r.port) r.kind (orders.headD [])) :=
      runEvent_events fun _ k => k.report
    have hrs : rs.length + 1 < 65536 := h
    have rest := ih (runEvent s fun e => e.report (circuitAt l a r.port) r.kind (orders.headD [])) orders.tail (by omega)
    unfold State.handOn
    exact (report.trans rest (by omega)).mono (Nat.add_comm 1 _).le

/-- A poll answer hands over at most four reports (R127). -/
theorem readReports_length : ∀ (n : Nat) (bs : List Byte) {rs : List Report} {rest : List Byte},
    readReports n bs = some (rs, rest) → rs.length = n
  | 0, bs, rs, rest, h => by
    simp only [readReports, Option.some.injEq, Prod.mk.injEq] at h
    rw [← h.1]; rfl
  | n + 1, [], rs, rest, h => by simp [readReports] at h
  | n + 1, b :: bs, rs, rest, h => by
    unfold readReports at h
    split at h
    · cases h
    · split at h
      · cases h
      · next heq =>
        simp only [Option.some.injEq, Prod.mk.injEq] at h
        rw [← h.1, List.length_cons, readReports_length n _ heq]

theorem readAnswer_length {bs : List Byte} {more : Bool} {rs : List Report} (h : readAnswer bs = some (.poll more rs)) :
    rs.length ≤ 4 := by
  unfold readAnswer at h
  split at h
  · next a c after hb =>
    dsimp only at h
    split at h
    · simp only [Option.some.injEq] at h
      subst h
      unfold readBody at hb
      split at hb
      · split at hb
        · cases hb
        · split at hb
          · split at hb
            · cases hb
            · split at hb
              · next hr =>
                simp only [Option.some.injEq, Prod.mk.injEq, Answer.poll.injEq] at hb
                rw [← hb.1.2, readReports_length _ _ hr]
                omega
              · cases hb
          · cases hb
      · cases hb
    · cases h
  · cases h

theorem State.goodAnswer_events (s : State) (l : LinkIx) (f : Frame) (ans : Answer) (orders : List (List Nat))
    (h : ∀ more rs, ans = .poll more rs → rs.length ≤ 4) : Events 5 s (s.goodAnswer l f ans orders) := by
  unfold State.goodAnswer
  split
  · exact (runEvent_events fun _ k => k.answered.outcome).mono (by decide)
  · exact (Events.refl s).mono (by decide)
  · next more rs =>
    have hr := h more rs rfl
    have h1 := runEvent_events (s := s) fun e k => k.answered (l := l) (a := f.addr)
    have h2 := State.handOn_events l f.addr rs (runEvent s fun e => e.answered l f.addr) orders (by omega)
    have h12 := (h1.trans h2 (by omega)).mono (m := 5) (by omega)
    exact h12.trans (m := 0) (Events.setLink _ l _ rfl) (by omega)

theorem State.endFrame_events (s : State) (l : LinkIx) : Events 0 s (s.endFrame l) := Events.setLink _ _ _ rfl

theorem State.shelfAnswer_events (s : State) (l : LinkIx) (bytes : List Byte) (orders : List (List Nat)) :
    Events 5 s (s.shelfAnswer l bytes orders) := by
  unfold State.shelfAnswer; split
  · exact (Events.refl s).mono (by decide)
  · next f _ =>
    have h0 := s.endFrame_events l
    extract_lets t
    split
    · exact (h0.trans (runEvent_events fun _ k => k.deadFrame) (by decide)).mono (by decide)
    · split
      · next ans ha =>
        have hans : ∀ more rs, ans = .poll more rs → rs.length ≤ 4 := fun more rs he => by
          subst he
          exact readAnswer_length (Option.filter_eq_some_iff.mp ha).1
        exact (h0.trans (State.goodAnswer_events _ l f ans orders hans) (by decide)).mono (by decide)
      · exact (h0.trans (runEvent_events fun _ k => k.miss) (by decide)).mono (by decide)

theorem State.windowClose_events (s : State) (l : LinkIx) (order : List Nat) : Events 1 s (s.windowClose l order) := by
  unfold State.windowClose; split
  · exact (Events.refl s).mono (by decide)
  · have h0 := s.endFrame_events l
    extract_lets t
    split
    · exact h0.trans (runEvent_events fun _ k => k.deadFrame) (by decide)
    · exact h0.trans (runEvent_events fun _ k => k.miss) (by decide)

theorem State.deadline_events (s : State) (l : LinkIx) (a : Addr) :
    Events 0 s (s.setLink l ((s.link l).deadline a)) := by
  refine Events.setLink _ _ _ ?_
  unfold Link.deadline; split <;> rfl

/-! ### Timers and the Cadence Unit -/

theorem State.timerExpiry_events {s : State} {i : Slot} {x : TimerKind} {owner : Event → Slot → Event}
    (h : ∀ e, Underway s e → Underway s (owner e i)) : Events 1 s (s.timerExpiry i x owner) := by
  unfold State.timerExpiry; split
  · exact runEvent_events h
  · exact (Events.refl s).mono (by decide)

theorem State.waitHeld_events (s : State) (i : Slot) : Events 1 s (s.waitHeld i) := by
  unfold State.waitHeld; dsimp only; split
  · split
    · exact runEvent_events fun _ k => k.updCall fun _ => rfl
    · exact (Events.refl s).mono (by decide)
  · exact (Events.refl s).mono (by decide)

theorem State.counterAdvance_events (s : State) (q : Part) : Events 1 s (s.counterAdvance q) := by
  unfold State.counterAdvance; dsimp only; split
  · exact runEvent_events fun _ k => .ite (fun _ => k.updPrt fun _ => rfl) fun _ => .wantPass (k.updPrt fun _ => rfl)
  · exact (Events.refl s).mono (by decide)

theorem State.raise_events (s : State) (x : Flag) : Events 0 s (s.raise x) :=
  .of_eq rfl rfl (Carried.raise s x).flag

theorem State.setCadence_events (s : State) (x : Cadence) : Events 0 s (s.setCadence x) :=
  .of_eq rfl rfl id

theorem Events.then_mark {s t : State} (h : Events 0 s t) : Events 1 s (runEvent t Event.mark) :=
  h.trans (runEvent_events fun _ k => k.mark) (by decide)

theorem State.periodExpiry_events (s : State) : Events 1 s s.periodExpiry := by
  unfold State.periodExpiry; split
  · exact (s.setCadence_events _).then_mark
  · exact (Events.refl s).mono (by decide)

theorem State.cadenceEdge_events (s : State) : Events 1 s s.cadenceEdge := by
  unfold State.cadenceEdge; split
  · exact (Events.refl s).mono (by decide)
  · exact (s.setCadence_events _).then_mark
  · exact ((s.setCadence_events _).trans (State.raise_events _ _) (by decide)).then_mark

theorem State.lossExpiry_events (s : State) : Events 1 s s.lossExpiry := by
  unfold State.lossExpiry; split
  · exact ((s.setCadence_events _).trans (State.raise_events _ _) (by decide)).then_mark
  · exact (Events.refl s).mono (by decide)

/-! ### The order board and the plan -/

theorem State.answer_events (s : State) (c : CellIx) (code : ResultCode) (d : Word) : Events 0 s (s.answer c code d) :=
  .of_eq rfl rfl (Carried.answer s c code d).flag

theorem State.refuseStales_events (s : State) : Events 0 s s.refuseStales := by
  have h := s.refuseStales_only
  refine .of_eq ?_ ?_ (State.flag_mono h.summary) <;> rw [h.shape]

theorem State.takeOrder_events (s : State) (c : CellIx) : Events 1 s (s.takeOrder c) :=
  runEvent_events fun _ k => .order (k.upd fun _ => .of_eq rfl id)

theorem State.setTaker_events (s : State) (x : Taker) : Events 0 s (s.setTaker x) :=
  .of_eq rfl rfl id

theorem State.sweepStep_events (s : State) : Events 1 s s.sweepStep := by
  unfold State.sweepStep; dsimp only; split
  · split
    · exact s.refuseStales_events.trans (State.takeOrder_events _ _) (by decide)
    · exact (s.refuseStales_events.trans (State.setTaker_events _ _) (by decide)).mono (by decide)
  · exact (Events.refl s).mono (by decide)

theorem State.sweepFor_events (s : State) (x : Option OrderKind) : Events 1 s (s.sweepFor x) := by
  unfold State.sweepFor; split
  · exact s.sweepStep_events
  · exact (Events.refl s).mono (by decide)

theorem State.endApply_events (s : State) (c : CellIx) (code : ResultCode) (d : Word) :
    Events 0 s (s.endApply c code d) :=
  Events.trans (n := 0) (m := 0) (s.answer_events c code d) (.of_eq rfl rfl id) (by decide)

theorem State.completeApply_events (s : State) : Events 1 s s.completeApply := by
  unfold State.completeApply; split
  · exact (Events.refl s).mono (by decide)
  · split
    · exact (s.endApply_events _ _ _).mono (by decide)
    · exact runEvent_events fun _ k => k.activate.upd fun t => .endApply t _ _ _

/-! ### Bypass -/

theorem State.bypassEntry_events (s : State) : Events 1 s s.bypassEntry := by
  have h0 : Events 0 s { s with bypassIn := true } := .of_eq rfl rfl id
  unfold State.bypassEntry
  extract_lets t
  split
  · exact h0.mono (by decide)
  · exact h0.trans (Underway.begin t).enterBypass.commit (by decide)

theorem Carried.discardPlan (t : State) : Carried t t.discardPlan :=
  { Carried.refl t with
    slots := id
    pos := fun p => (congrArg Position.rev (Table.get_map _ _ p)).trans rfl
    prt := fun q => (congrArg Partition.rev (Table.get_map _ _ q)).trans rfl
    lamp := fun k => (congrArg Lamp.rev (Table.get_map _ _ k)).trans rfl
    link := fun l => (congrArg Link.rev (Table.get_map _ _ l)).trans rfl }

/-- Leaving BYPASSED revises the records that change and leaves the board revision alone (R166). -/
theorem State.bypassExit_revises (s : State) : Revises 1 s s.bypassExit ∧ s.bypassExit.boardRev = s.boardRev := by
  have h0 : Unseen s { s with bypassIn := false } := .of_eq rfl rfl
  unfold State.bypassExit
  extract_lets t
  split
  · have k := ((Underway.begin t).upd Carried.discardPlan).retie
    exact ⟨h0.revises.trans k.raiseRecords (by decide), rfl⟩
  · exact ⟨h0.revises.mono (by decide), rfl⟩

/-! ### Host writes -/

/-- Only the byte at 0x3FE2 is Control's low byte (R171). -/
theorem State.destination_control {s : State} {a : Nat} (h : s.destination a = .control) : a = 0x3FE2 := by
  by_contra hne
  unfold State.destination at h
  rw [if_neg hne] at h
  repeat' split at h
  all_goals cases h

theorem State.startSweep_unseen {s t : State} (h : Unseen s t) (hb : t.boardRev = s.boardRev) :
    Unseen s t.startSweep ∧ t.startSweep.boardRev = s.boardRev := by
  unfold State.startSweep; split <;> exact ⟨h.trans (.of_eq rfl rfl), hb⟩

/-- A host write of a byte that does not set Soft Reset changes no record (R171, R173). -/
theorem State.writeByte_unseen (s : State) (a : Nat) (v : Byte) (h : a = 0x3FE2 → v.getLsbD 1 = false) :
    Unseen s (s.writeByte a v) ∧ (s.writeByte a v).boardRev = s.boardRev := by
  unfold State.writeByte
  split
  · exact ⟨.of_eq rfl rfl, rfl⟩
  · exact ⟨.of_eq rfl rfl, rfl⟩
  · next hd =>
    unfold State.writeControl
    rw [h (State.destination_control hd), if_neg Bool.false_ne_true]
    have hn : Unseen s (s.setNotice (v.getLsbD 2)) := .of_eq rfl rfl
    dsimp only
    split
    · exact State.startSweep_unseen hn rfl
    · exact ⟨hn, rfl⟩
  · exact ⟨.of_eq rfl rfl, rfl⟩
  · exact ⟨.of_eq rfl rfl, rfl⟩
  · exact ⟨.refl s, rfl⟩

theorem State.hostWrite_unseen (s : State) (a : Nat) (word : Bool) (v : Word) (h : ¬ resets (.hostWrite a word v)) :
    Unseen s (s.hostWrite a word v) ∧ (s.hostWrite a word v).boardRev = s.boardRev := by
  have low := State.writeByte_unseen s a (lowByte v) fun ha => by
    simpa [lowByte, BitVec.getLsbD_setWidth] using fun hv => h (.inl ⟨ha, hv⟩)
  unfold State.hostWrite
  dsimp only
  split
  · next hw =>
    have high := State.writeByte_unseen (s.writeByte a (lowByte v)) (a + 1) (highByte v) fun ha => by
      simpa [highByte, BitVec.getLsbD_setWidth] using fun hv => h (.inr ⟨by omega, hw, hv⟩)
    exact ⟨low.1.trans high.1, high.2.trans low.2⟩
  · exact low

theorem State.recordRead_unseen (s : State) (a : Nat) (word : Bool) :
    Unseen s (s.recordRead a word) ∧ (s.recordRead a word).boardRev = s.boardRev := by
  unfold State.recordRead
  dsimp only
  split <;> exact ⟨.of_eq rfl rfl, rfl⟩

/-! ### Every command -/

theorem Revises.of_events {n : Nat} {s t u : State} (h : (.next u : Out) = .next t)
    (k : Events n s u) : Revises n s t ∧ Boards s t := by
  cases h; exact ⟨k.toRevises, k.toBoards⟩

theorem Revises.of_unseen {n : Nat} {s t u : State} (h : (.next u : Out) = .next t)
    (k : Unseen s u ∧ u.boardRev = s.boardRev) : Revises n s t ∧ Boards s t := by
  cases h; exact ⟨k.1.revises.mono (Nat.zero_le n), k.1.boards k.2⟩

/-- Every command but a reset and BYPASS_EXIT (R11, R12). -/
theorem exec_revises {c : Instr} {s t : State} (h : exec c s = .next t) (hr : ¬ resets c) (hx : c ≠ .bypassExit) :
    Revises (eventsOf c) s t ∧ Boards s t := by
  cases c with
  | powerOnReset | softReset => exact absurd trivial hr
  | bypassExit => exact absurd rfl hx
  | attention on => exact Revises.of_unseen h (State.startSweep_unseen (t := s.setNotice on) (.of_eq rfl rfl) rfl)
  | noticeEnable | summaryClear | maskWrite | releaseHoldEnd | engineSecondsTick =>
    exact Revises.of_unseen h ⟨.of_eq rfl rfl, rfl⟩
  | hostWrite a word v => exact Revises.of_unseen h (s.hostWrite_unseen a word v hr)
  | recordRead a word => exact Revises.of_unseen h (s.recordRead_unseen a word)
  | bypassEntry => exact Revises.of_events h s.bypassEntry_events
  | sweepTimerExpiry => exact Revises.of_unseen h (State.startSweep_unseen (t := s.setTaker _) (.of_eq rfl rfl) rfl)
  | sweepStep => exact Revises.of_events h s.sweepStep_events
  | unknownKindOrder | openOrder | closeOrder | pauseOrder | answerOrder | pickOrder | holdOrder | retrieveOrder
  | disconnectOrder | extendOrder | transferOrder | cancelOrder | setNightOrder | applyPlanOrder =>
    exact Revises.of_events h (s.sweepFor_events _)
  | applyCompletion => exact Revises.of_events h s.completeApply_events
  | sendFrame l => exact Revises.of_events h (s.sendFrame_events l)
  | pollDeadline l a => exact Revises.of_events h ((s.deadline_events l a).mono (Nat.zero_le 1))
  | shelfAnswer l bytes orders => exact Revises.of_events h (s.shelfAnswer_events l bytes orders)
  | responseWindowClose l order => exact Revises.of_events h (s.windowClose_events l order)
  | offerExpiry i => exact Revises.of_events h (State.timerExpiry_events fun _ k => k.offerExpired)
  | waitExpiry i => exact Revises.of_events h (State.timerExpiry_events fun _ k => .waitOver (k.updCall fun _ => rfl))
  | waitDeadlineHeld i => exact Revises.of_events h (s.waitHeld_events i)
  | announceExpiry i => exact Revises.of_events h (State.timerExpiry_events fun _ k => k.announceOver)
  | hold1Expiry i => exact Revises.of_events h (State.timerExpiry_events fun _ k => k.hold1Over)
  | hold2Expiry i => exact Revises.of_events h (State.timerExpiry_events fun _ k => k.hold2Over)
  | campExpiry i => exact Revises.of_events h (State.timerExpiry_events fun _ k => k.campOver)
  | counterAdvance q => exact Revises.of_events h (s.counterAdvance_events q)
  | periodTimerExpiry => exact Revises.of_events h s.periodExpiry_events
  | cadenceEdge => exact Revises.of_events h s.cadenceEdge_events
  | lossTimerExpiry => exact Revises.of_events h s.lossExpiry_events

/-- Settles O9. -/
theorem boardRevisionRaisesBoardFlag : Obligations.BoardRevisionRaisesBoardFlag := by
  intro c s t h hr
  have hk : Revises (eventsOf c) s t ∧ (t.boardRev ≠ s.boardRev → t.flag .board = true) ∧
      (c ≠ .bypassExit → t.boardRev = s.boardRev + revisionsRaised s t) := by
    by_cases hx : c = .bypassExit
    · subst hx
      cases h
      obtain ⟨hrev, hboard⟩ := s.bypassExit_revises
      exact ⟨hrev, fun hne => absurd hboard hne, fun hne => absurd rfl hne⟩
    · obtain ⟨hrev, hboards⟩ := exec_revises h hr hx
      exact ⟨hrev, hboards.flags, fun _ => hboards.rises⟩
  obtain ⟨hrev, hflag, hrises⟩ := hk
  exact ⟨hflag, hrises, hrev.call, hrev.pos, hrev.prt, hrev.lamp, hrev.link,
    fun h1 => ⟨hrev.posOnly h1.le, hrev.lampOnly h1.le, hrev.linkOnly h1.le⟩⟩

/-! ### Resets and the free list -/

theorem State.freeListed_resetEnds {s : State} (h : s.freeListed) : s.resetEnds.freeListed := by
  unfold State.resetEnds; split <;> exact h

/-- All slots are free and in the free list (R19). -/
theorem State.freeListed_of_all {s : State} (hf : s.free = List.finRange 64) (hc : ∀ i, (s.call i).state = .free) :
    s.freeListed := by
  unfold State.freeListed
  rw [hf]
  exact ⟨List.nodup_finRange 64, fun i => ⟨fun _ => hc i, fun _ => List.mem_finRange i⟩⟩

theorem State.powerOn_freeListed (s : State) (active : Bool) : (s.powerOn active).freeListed :=
  State.freeListed_resetEnds (State.freeListed_of_all rfl fun i => congrArg Call.state (Table.get_fill _ i))

theorem State.softReset_freeListed (s : State) : s.softReset.freeListed := by
  refine State.freeListed_resetEnds (State.freeListed_of_all rfl fun i => ?_)
  refine (congrArg Call.state (Table.get_map _ s.calls i)).trans ?_
  split <;> rfl

theorem State.writeByte_freeListed {s : State} (h : s.freeListed) (a : Nat) (v : Byte) : (s.writeByte a v).freeListed := by
  by_cases hv : v.getLsbD 1 = true
  · unfold State.writeByte
    split
    · exact h
    · exact h
    · unfold State.writeControl
      rw [if_pos hv]
      exact s.softReset_freeListed
    · exact h
    · exact h
    · exact h
  · exact (s.writeByte_unseen a v fun _ => by simpa using hv).1.revises.slots h

theorem State.hostWrite_freeListed {s : State} (h : s.freeListed) (a : Nat) (word : Bool) (v : Word) :
    (s.hostWrite a word v).freeListed := by
  have low := State.writeByte_freeListed h a (lowByte v)
  unfold State.hostWrite
  dsimp only
  split
  · exact State.writeByte_freeListed low _ _
  · exact low

theorem exec_freeListed {c : Instr} {s t : State} (h : s.freeListed) (hs : exec c s = .next t) : t.freeListed := by
  by_cases hr : resets c
  · cases c with
    | powerOnReset active => cases hs; exact s.powerOn_freeListed active
    | softReset => cases hs; exact s.softReset_freeListed
    | hostWrite a word v => cases hs; exact State.hostWrite_freeListed h a word v
    | _ => exact absurd hr id
  · by_cases hx : c = .bypassExit
    · subst hx
      cases hs
      exact s.bypassExit_revises.1.slots h
    · exact (exec_revises hs hr hx).1.slots h

/-- Settles O56. -/
theorem stepsKeepTheFreeList : Obligations.StepsKeepTheFreeList := by
  intro s t h hs
  unfold step at hs
  split at hs
  · cases hs; exact h
  · next rest _ => exact exec_freeListed (s := { s with pending := rest }) h hs

end Sys2Proof.Machine
end

section
/-! SUPPORT. An arrival in NIGHT whose slot already stands in the roster of its partition, where the statement about
arrivals fails: the congestion of the fallback takes the slot out of that roster. -/

namespace Sys2Proof.Machine
/-- What the shelf's answer makes of the state. -/
theorem exec_shelfAnswer {l : LinkIx} {bytes : List Byte} {orders : List (List Nat)} {s t : State}
    (h : exec (.shelfAnswer l bytes orders) s = .next t) : t = s.shelfAnswer l bytes orders := by
  cases h; rfl

namespace ArrivalRefutation

/-- A partition with no announcer whose night destination is extension 100. -/
def settings : PartPlan := { PartPlan.none with enabled := true, night := 100 }

/-- Circuit 0 is extension 100 of partition 0, without camping. -/
def line : DirEntry := { kind := .extension, partition := some 0, number := some 100, campAllowed := false }

def plan : Plan :=
  { chief := none, deputy := none, source := .internal, period := 0, window := 0, missLimit := 0,
    parts := .fill settings, headsets := .fill none, shelves := .fill { fitted := true, interval := 0 },
    directory := (Table.fill .none).set 0 line }

/-- The poll in flight. -/
def poll : Frame := { addr := 0, entry := none, again := false, bytes := [], window := 0, dead := false }

def shelfLink : Link :=
  { Link.blank with
    state := .running, frame := some poll, shelves := .fill { state := .present, misses := 0, interval := 0 } }

/-- Slot 0 is FREE and heads the free list, but stands in the roster of partition 0, which is in NIGHT. -/
def before : State :=
  { State.reset with
    engine := .serving, plan := some plan, free := [0]
    parts := .fill { Partition.blank with mode := .night, roster := [0] }
    links := .fill shelfLink }

def arrival : Arrival := { caller := [], called := none }

theorem before_arrives : Arrives before 0 poll 0 arrival 0 0 where
  frame := by decide
  alive := by decide
  entry := by decide
  present := by decide
  wf := by decide
  sendable := by unfold Arrival.sendable; decide
  circuit := by decide
  serving := by decide
  kind := by decide
  partition := by decide
  enabled := by decide
  noCall := by decide

theorem before_noCampRoom : ¬ hasCampRoom before 0 := by unfold hasCampRoom; decide

theorem before_room : before.room [.tone 0 .congestion] := by unfold State.room; decide

/-- The arrival's call is its own night destination, finds no camp room and no announcer, and closes; the roster that
held its slot is empty then. -/
theorem roster_after {t : State} (h : exec (.shelfAnswer 0 (reportOf false 0 (.seize true arrival)) []) before = .next t) :
    (t.prt 0).roster = [] := by
  have run : ((before.shelfAnswer 0 (reportOf false 0 (.seize true arrival)) []).prt 0).roster = [] := by
    decide +kernel
  rw [exec_shelfAnswer h]
  exact run

end ArrivalRefutation

open ArrivalRefutation in
/-- Refutes O42: the congestion case in NIGHT does not ask that the slot taken stands in no roster. Where it stands in
its partition's, closing the call takes it out (R26), and the partition's record is not left aside. -/
theorem not_arrivalJoinsTheRoster : ¬ Obligations.ArrivalJoinsTheRoster := by
  intro ⟨night, _⟩
  obtain ⟨_, _, fallback⟩ := night before 0 poll false 0 arrival 0 0 0 0 [] [] before_arrives ⟨by decide, by decide⟩
    (by decide) (by decide)
  obtain ⟨_, congestion⟩ := fallback (.inl ⟨.inl rfl, before_noCampRoom⟩)
  obtain ⟨t, ht, _, _, _, _, _, aside⟩ := congestion (by decide) before_room
  have same : (t.prt 0).bare = (before.prt 0).bare := aside.partitions 0 id
  have kept := congrArg Partition.roster same
  exact absurd ((roster_after ht).symm.trans kept) (by decide)

end Sys2Proof.Machine
end

section
/-! SUPPORT. What the operations of an event write, as one change of the state each: orders that enter their queues,
answers to EXTENDs, leaving a loop or a camp list, changes of call state; and the quiet end of an event. -/

namespace Sys2Proof.Machine

/-! ### Orders that enter their queues (R13, R85, R130) -/

/-- An order of a call enters the queue of its link. -/
def State.send (t : State) (i : Slot) (o : ShelfOrder) (handover : Bool) : State :=
  let l := linkOf o.first
  let t := t.setLink l
    { t.link l with queue := (t.link l).queue ++ [{ order := o, slot := some i, handover := handover }] }
  let t := t.setCall i { t.call i with pending := (t.call i).pending + 1 }
  if o.isRing then t.setRing o.first (t.rings.get o.first + 1) else t

/-- Orders of a call enter the queues of their links, none of them a hand-over. -/
def State.sendAll (t : State) (i : Slot) (os : List ShelfOrder) : State := os.foldl (fun t o => t.send i o false) t

section Send

variable (t : State) (i : Slot) (o : ShelfOrder) (os : List ShelfOrder) (h : Bool)

theorem State.send_rest : t.send i o h =
    { t with calls := (t.send i o h).calls, links := (t.send i o h).links, rings := (t.send i o h).rings } := by
  unfold State.send; dsimp only; split <;> rfl

theorem State.sendAll_rest : t.sendAll i os =
    { t with calls := (t.sendAll i os).calls, links := (t.sendAll i os).links, rings := (t.sendAll i os).rings } := by
  induction os generalizing t with
  | nil => rfl
  | cons o os ih =>
    have h1 := ih (t.send i o false)
    have h2 := t.send_rest i o false
    have h3 : t.sendAll i (o :: os) = (t.send i o false).sendAll i os := rfl
    rw [h3]
    generalize (t.send i o false).sendAll i os = u at h1 ⊢
    rw [h1, h2]

@[simp] theorem State.pos_send (p : Pos) : (t.send i o h).pos p = t.pos p := by rw [State.send_rest]; rfl
@[simp] theorem State.prt_send (q : Part) : (t.send i o h).prt q = t.prt q := by rw [State.send_rest]; rfl
@[simp] theorem State.lamp_send (k : Circuit) : (t.send i o h).lamp k = t.lamp k := by rw [State.send_rest]; rfl
@[simp] theorem State.send_free : (t.send i o h).free = t.free := by rw [State.send_rest]
@[simp] theorem State.send_seconds : (t.send i o h).seconds = t.seconds := by rw [State.send_rest]
@[simp] theorem State.send_plan : (t.send i o h).plan = t.plan := by rw [State.send_rest]
@[simp] theorem State.send_mem : (t.send i o h).mem = t.mem := by rw [State.send_rest]
@[simp] theorem State.send_taker : (t.send i o h).taker = t.taker := by rw [State.send_rest]
@[simp] theorem State.send_regs : (t.send i o h).regs = t.regs := by rw [State.send_rest]

theorem State.call_send (j : Slot) : (t.send i o h).call j =
    if i = j then { t.call j with pending := (t.call j).pending + 1 } else t.call j := by
  have hc : (t.send i o h).calls = t.calls.set i { t.call i with pending := (t.call i).pending + 1 } := by
    unfold State.send; dsimp only; split <;> rfl
  unfold State.call
  rw [hc, Table.get_set]
  split
  · next e => subst e; rfl
  · rfl

theorem State.link_send (l : LinkIx) : (t.send i o h).link l =
    { t.link l with queue := (t.link l).queue ++
      [({ order := o, slot := some i, handover := h } : Entry)].filter fun x => linkOf x.order.first == l } := by
  have hl : (t.send i o h).links = t.links.set (linkOf o.first)
      { t.link (linkOf o.first) with
        queue := (t.link (linkOf o.first)).queue ++ [{ order := o, slot := some i, handover := h }] } := by
    unfold State.send; dsimp only; split <;> rfl
  unfold State.link
  rw [hl, Table.get_set, List.filter_cons]
  split
  · next e => subst e; rw [if_pos (beq_self_eq_true _)]; rfl
  · next e => rw [if_neg (by simpa using e), List.filter_nil, List.append_nil]

theorem State.rings_send (ho : o.isRing = false) : (t.send i o h).rings = t.rings := by
  unfold State.send; dsimp only; rw [if_neg (by rw [ho]; decide)]; rfl

@[simp] theorem State.rings_send_join (a b : Circuit) : (t.send i (.join a b) h).rings = t.rings :=
  State.rings_send _ _ _ _ rfl
@[simp] theorem State.rings_send_tone (c : Circuit) (x : ToneKind) : (t.send i (.tone c x) h).rings = t.rings :=
  State.rings_send _ _ _ _ rfl

theorem State.rings_send_ring (c k : Circuit) :
    (t.send i (.ring c) h).rings.get k = if c = k then t.rings.get k + 1 else t.rings.get k := by
  have hr : (t.send i (.ring c) h).rings = t.rings.set c (t.rings.get c + 1) := rfl
  rw [hr, Table.get_set]
  split
  · next e => subst e; rfl
  · rfl

@[simp] theorem State.pos_sendAll (p : Pos) : (t.sendAll i os).pos p = t.pos p := by rw [State.sendAll_rest]; rfl
@[simp] theorem State.prt_sendAll (q : Part) : (t.sendAll i os).prt q = t.prt q := by rw [State.sendAll_rest]; rfl
@[simp] theorem State.lamp_sendAll (k : Circuit) : (t.sendAll i os).lamp k = t.lamp k := by rw [State.sendAll_rest]; rfl
@[simp] theorem State.sendAll_free : (t.sendAll i os).free = t.free := by rw [State.sendAll_rest]
@[simp] theorem State.sendAll_seconds : (t.sendAll i os).seconds = t.seconds := by rw [State.sendAll_rest]
@[simp] theorem State.sendAll_plan : (t.sendAll i os).plan = t.plan := by rw [State.sendAll_rest]
@[simp] theorem State.sendAll_mem : (t.sendAll i os).mem = t.mem := by rw [State.sendAll_rest]
@[simp] theorem State.sendAll_taker : (t.sendAll i os).taker = t.taker := by rw [State.sendAll_rest]
@[simp] theorem State.sendAll_regs : (t.sendAll i os).regs = t.regs := by rw [State.sendAll_rest]

theorem State.call_sendAll (j : Slot) : (t.sendAll i os).call j =
    if i = j then { t.call j with pending := (t.call j).pending + os.length } else t.call j := by
  induction os generalizing t with
  | nil => split <;> rfl
  | cons o os ih =>
    refine (ih (t.send i o false)).trans ?_
    rw [State.call_send]
    split
    · simp only [List.length_cons, Nat.add_assoc, Nat.add_comm 1]
    · rfl

theorem State.link_sendAll (l : LinkIx) : (t.sendAll i os).link l =
    { t.link l with queue := (t.link l).queue ++ (entries i os).filter fun x => linkOf x.order.first == l } := by
  induction os generalizing t with
  | nil => simp [State.sendAll, entries]
  | cons o os ih =>
    refine (ih (t.send i o false)).trans ?_
    rw [State.link_send]
    simp only [entries, List.map_cons, List.filter_cons, List.filter_nil]
    split <;> simp

theorem State.rings_sendAll (ho : ∀ o ∈ os, o.isRing = false) : (t.sendAll i os).rings = t.rings := by
  induction os generalizing t with
  | nil => rfl
  | cons o os ih =>
    refine (ih (t.send i o false) fun x hx => ho x (List.mem_cons_of_mem _ hx)).trans ?_
    exact t.rings_send i o false (ho o List.mem_cons_self)

end Send

/-- The order is issued in this way wherever its shelf is, or its shelf is neither LOST nor ABSENT (R66, R16). -/
def State.passes (t : State) (how : Issue) (o : ShelfOrder) : Prop :=
  how = .ordinary ∨ ((t.shelfOf o.first).state ≠ .lost ∧ (t.shelfOf o.first).state ≠ .absent)

theorem Event.issueAs_send (e : Event) {how : Issue} {i : Slot} {o : ShelfOrder} {h : Bool} (hp : e.st.passes how o)
    (hr : (e.st.link (linkOf o.first)).state = .running)
    (hq : (e.st.link (linkOf o.first)).queue.length < Config.queueMax) :
    e.issueAs how (some i) o h = { e with st := e.st.send i o h, log := e.log ++ [(i, o)] } := by
  unfold Event.issueAs Event.note
  dsimp only
  rw [if_neg fun hx => hp.elim hx.1 fun hs => hx.2.elim hs.1 hs.2, hr, if_neg (by decide), if_pos hq]
  unfold Event.enqueue State.send
  dsimp only
  split <;> rfl

theorem State.shelfOf_send (t : State) (i : Slot) (o : ShelfOrder) (h : Bool) (k : Circuit) :
    (t.send i o h).shelfOf k = t.shelfOf k := by
  unfold State.shelfOf
  rw [State.link_send]

/-- An order that has entered its queue leaves room for those that were to follow it. -/
theorem State.room_send {t : State} {i : Slot} {o : ShelfOrder} {os : List ShelfOrder} {h : Bool}
    (hr : t.room (o :: os)) : (t.send i o h).room os := fun x hx => by
  obtain ⟨running, space⟩ := hr x (List.mem_cons_of_mem _ hx)
  rw [State.link_send]
  refine ⟨running, ?_⟩
  have hl := List.length_filter_le (fun y : Entry => linkOf y.order.first == linkOf x.first)
    [{ order := o, slot := some i, handover := h }]
  simp only [List.length_append, List.length_cons, List.length_nil] at hl space ⊢
  omega

/-- Orders with room for all of them enter their queues. -/
theorem Event.issueAll_send (os : List ShelfOrder) (e : Event) {how : Issue} {i : Slot} (hr : e.st.room os)
    (hp : ∀ o ∈ os, e.st.passes how o) :
    e.issueAll how i os = { e with st := e.st.sendAll i os, log := e.log ++ os.map fun o => (i, o) } := by
  induction os generalizing e with
  | nil => simp [Event.issueAll, State.sendAll]
  | cons o os ih =>
    have h0 := hr o List.mem_cons_self
    have h1 := e.issueAs_send (i := i) (h := false) (hp o List.mem_cons_self) h0.1
      (by have := h0.2; rw [List.length_cons] at this; omega)
    have h2 : e.issueAll how i (o :: os) = (e.issueAs how (some i) o false).issueAll how i os := rfl
    rw [h2, h1, ih]
    · simp [State.sendAll]
    · exact State.room_send hr
    · intro x hx
      unfold State.passes
      dsimp only
      rw [State.shelfOf_send]
      exact hp x (List.mem_cons_of_mem _ hx)

/-! ### Answers to EXTENDs (R87, R163) -/

@[simp] theorem State.call_answer (t : State) (c : CellIx) (code : ResultCode) (d : Word) (i : Slot) :
    (t.answer c code d).call i = t.call i := rfl
@[simp] theorem State.pos_answer (t : State) (c : CellIx) (code : ResultCode) (d : Word) (p : Pos) :
    (t.answer c code d).pos p = t.pos p := rfl
@[simp] theorem State.prt_answer (t : State) (c : CellIx) (code : ResultCode) (d : Word) (q : Part) :
    (t.answer c code d).prt q = t.prt q := rfl
@[simp] theorem State.lamp_answer (t : State) (c : CellIx) (code : ResultCode) (d : Word) (k : Circuit) :
    (t.answer c code d).lamp k = t.lamp k := rfl
@[simp] theorem State.link_answer (t : State) (c : CellIx) (code : ResultCode) (d : Word) (l : LinkIx) :
    (t.answer c code d).link l = t.link l := rfl

/-- The result of the EXTEND in flight in a cell, if there is one. -/
def State.answerCell (t : State) (cell : Option CellIx) (code : ResultCode) : State :=
  match cell with
  | some d => t.answer d code 0
  | none => t

/-- The EXTEND in flight at a position is answered; neither the panel nor the call names it any more. -/
def State.endExtend (t : State) (p : Pos) (i : Slot) (code : ResultCode) : State :=
  ((t.answerCell (t.pos p).extendCell code).setPos p { t.pos p with extend := none, extendCell := none }).setCall i
    { t.call i with extend := none }

section EndExtend

variable (t : State) (p : Pos) (i : Slot) (code : ResultCode)

theorem State.endExtend_rest : t.endExtend p i code =
    { t with calls := t.calls.set i { t.call i with extend := none },
             positions := t.positions.set p { t.pos p with extend := none, extendCell := none },
             mem := (t.endExtend p i code).mem, taker := (t.endExtend p i code).taker,
             regs := (t.endExtend p i code).regs } := by
  unfold State.endExtend State.answerCell
  split <;> rfl

@[simp] theorem State.prt_endExtend (q : Part) : (t.endExtend p i code).prt q = t.prt q := by
  rw [State.endExtend_rest]; rfl
@[simp] theorem State.lamp_endExtend (k : Circuit) : (t.endExtend p i code).lamp k = t.lamp k := by
  rw [State.endExtend_rest]; rfl
@[simp] theorem State.link_endExtend (l : LinkIx) : (t.endExtend p i code).link l = t.link l := by
  rw [State.endExtend_rest]; rfl
@[simp] theorem State.endExtend_rings : (t.endExtend p i code).rings = t.rings := by rw [State.endExtend_rest]
@[simp] theorem State.endExtend_free : (t.endExtend p i code).free = t.free := by rw [State.endExtend_rest]
@[simp] theorem State.endExtend_seconds : (t.endExtend p i code).seconds = t.seconds := by rw [State.endExtend_rest]
@[simp] theorem State.endExtend_plan : (t.endExtend p i code).plan = t.plan := by rw [State.endExtend_rest]

theorem State.call_endExtend (j : Slot) :
    (t.endExtend p i code).call j = if i = j then { t.call j with extend := none } else t.call j := by
  rw [State.endExtend_rest]
  refine (Table.get_set _ _ _ _).trans ?_
  split
  · next e => subst e; rfl
  · rfl

theorem State.pos_endExtend (x : Pos) : (t.endExtend p i code).pos x =
    if p = x then { t.pos x with extend := none, extendCell := none } else t.pos x := by
  rw [State.endExtend_rest]
  refine (Table.get_set _ _ _ _).trans ?_
  split
  · next e => subst e; rfl
  · rfl

theorem State.endExtend_answered {d : CellIx} (hw : Memory.wf t.mem = true) (hd : (t.pos p).extendCell = some d) :
    (t.endExtend p i code).answered d code 0 := by
  have he : t.endExtend p i code =
      ((t.answer d code 0).setPos p { t.pos p with extend := none, extendCell := none }).setCall i
        { t.call i with extend := none } := by
    unfold State.endExtend
    rw [hd]
    rfl
  rw [he]
  obtain ⟨h0, h3, h6, hA⟩ := doneCell_fields t.mem d code 0 t.seconds hw
  refine ⟨h0, h3, h6, hA, ?_, State.flag_raise _ _⟩
  show d ∉ t.taker.taken.filter _
  simp

end EndExtend

theorem Event.answerExtend_eq (e : Event) (p : Pos) (i : Slot) (code : ResultCode) :
    e.answerExtend p i code = { e with st := e.st.endExtend p i code } := by
  unfold Event.answerExtend State.endExtend State.answerCell
  cases (e.st.pos p).extendCell <;> rfl

theorem Event.answerExtendOf_eq {e : Event} {i : Slot} {p : Pos} {code : ResultCode} (hx : (e.st.call i).extend ≠ none)
    (hp : (e.st.call i).position = some p) : e.answerExtendOf i code = { e with st := e.st.endExtend p i code } := by
  rw [← Event.answerExtend_eq]
  unfold Event.answerExtendOf
  dsimp only
  split
  · next q _ hq => rw [hp, Option.some.injEq] at hq; rw [hq]
  · next hn =>
    obtain ⟨w, hw⟩ := Option.ne_none_iff_exists'.mp hx
    exact absurd hp (hn w p hw)

theorem Event.answerExtendOf_none {e : Event} {i : Slot} {code : ResultCode} (hx : (e.st.call i).extend = none) :
    e.answerExtendOf i code = e := by
  unfold Event.answerExtendOf
  dsimp only
  rw [hx]

/-! ### Changes of call state, loops and camp lists (R7, R70, R84, R99) -/

/-- The circuit whose camp list is looked at when the call lets its target go (R99). -/
def Call.letsGo (c : Call) : List Circuit :=
  match c.target with
  | some x => if c.state == .free || c.state == .camped then [] else [x.circuit]
  | none => []

theorem Event.letGo_eq (e : Event) (c : Call) : e.letGo c = { e with serve := e.serve ++ c.letsGo } := by
  unfold Event.letGo Call.letsGo
  cases c.target with
  | none => exact congrArg (fun x => { e with serve := x }) (List.append_nil _).symm
  | some x =>
    dsimp only
    split
    · exact congrArg (fun x => { e with serve := x }) (List.append_nil _).symm
    · rfl

theorem Event.toState_eq (e : Event) {i : Slot} {st : CallState} (h : (e.st.call i).state ≠ .free) :
    e.toState i st =
      { e with st := e.st.setCall i ((e.st.call i).enter st e.st.seconds), changed := e.changed ++ [i],
               serve := e.serve ++ if st.keepsTarget && st != .free then [] else (e.st.call i).letsGo } := by
  unfold Event.toState
  dsimp only
  rw [if_neg h, Event.letGo_eq]
  split
  · rw [List.append_nil]; rfl
  · rfl

theorem Event.dropTarget_eq (e : Event) (i : Slot) :
    e.dropTarget i =
      { e with st := e.st.setCall i { e.st.call i with target := none }, serve := e.serve ++ (e.st.call i).letsGo } := by
  unfold Event.dropTarget
  rw [Event.letGo_eq]
  rfl

/-- A panel whose loop has been emptied (R70). -/
def Position.without (q : Position) (l : LoopIx) : Position :=
  { q with loops := q.loops.set l none, flash := q.flash.set l false,
           speaking := if q.speaking = some l then none else q.speaking }

theorem Event.leaveLoop_eq {e : Event} {i : Slot} {p : Pos} {l : LoopIx} (hp : (e.st.call i).position = some p)
    (hl : (e.st.call i).loop = some l) (hi : (e.st.pos p).loops.get l = some i) :
    e.leaveLoop i = { e with st := e.st.setPos p ((e.st.pos p).without l) } := by
  unfold Event.leaveLoop
  dsimp only
  rw [hp, hl]
  dsimp only [Event.updPos, Event.upd]
  rw [if_pos hi]
  rfl

/-- A call off the camp list of a circuit (R84). -/
def State.leaveCamp (t : State) (i : Slot) (k : Circuit) : State :=
  (t.setLamp k { t.lamp k with camp := (t.lamp k).camp.filter (· != i) }).setCall i
    { t.call i with ringPending := false }

section LeaveCamp

variable (t : State) (i : Slot) (k : Circuit)

@[simp] theorem State.pos_leaveCamp (p : Pos) : (t.leaveCamp i k).pos p = t.pos p := rfl
@[simp] theorem State.prt_leaveCamp (q : Part) : (t.leaveCamp i k).prt q = t.prt q := rfl
@[simp] theorem State.link_leaveCamp (l : LinkIx) : (t.leaveCamp i k).link l = t.link l := rfl
@[simp] theorem State.leaveCamp_rings : (t.leaveCamp i k).rings = t.rings := rfl
@[simp] theorem State.leaveCamp_free : (t.leaveCamp i k).free = t.free := rfl
@[simp] theorem State.leaveCamp_seconds : (t.leaveCamp i k).seconds = t.seconds := rfl
@[simp] theorem State.leaveCamp_plan : (t.leaveCamp i k).plan = t.plan := rfl

theorem State.call_leaveCamp (j : Slot) :
    (t.leaveCamp i k).call j = if i = j then { t.call j with ringPending := false } else t.call j := by
  unfold State.leaveCamp
  rw [State.call_setCall]
  split
  · next e => rw [e]
  · rfl

theorem State.lamp_leaveCamp (c : Circuit) : (t.leaveCamp i k).lamp c =
    if k = c then { t.lamp c with camp := (t.lamp c).camp.filter (· != i) } else t.lamp c := by
  unfold State.leaveCamp
  rw [State.lamp_setCall, State.lamp_setLamp]
  split
  · next e => rw [e]
  · rfl

end LeaveCamp

theorem Event.leaveCamp_eq {e : Event} {i : Slot} {n : Word} {k : Circuit}
    (ht : (e.st.call i).target = some { number := n, circuit := k }) :
    e.leaveCamp i = { e with st := e.st.leaveCamp i k } := by
  unfold Event.leaveCamp
  rw [ht]
  rfl

/-- A call with an order pending is not freed (R19). -/
theorem Event.freeIfDone_pending {e : Event} {i : Slot} (h : (e.st.call i).pending ≠ 0) : e.freeIfDone i = e := by
  unfold Event.freeIfDone Event.freeSlot
  dsimp only
  split
  · rfl
  · rw [if_neg fun x => h x.2]

/-! ### The quiet end of an event -/

/-- Looking at camp lists does nothing where nobody camps or the line is not IDLE (R99). -/
theorem Event.serveCamps_unserved {e : Event} (h : ∀ k ∈ e.serve, unserved e.st k) : e.serveCamps = e := by
  have step : ∀ k ∈ e.serve, (if (e.st.lamp k).line = .idle then e.ringHead k else e) = e := fun k hk => by
    split
    · next hl =>
      unfold Event.ringHead
      rw [(h k hk).resolve_right fun hn => hn hl]
    · rfl
  have all : ∀ ks : List Circuit, (∀ k ∈ ks, k ∈ e.serve) →
      ks.foldl (fun e k => if (e.st.lamp k).line = .idle then e.ringHead k else e) e = e := by
    intro ks
    induction ks with
    | nil => exact fun _ => rfl
    | cons k ks ih =>
      intro hk
      rw [List.foldl_cons, step k (hk k List.mem_cons_self)]
      exact ih fun x hx => hk x (List.mem_cons_of_mem _ hx)
  refine all _ fun k hk => ?_
  simpa using (List.mem_filter.mp hk).2

theorem Event.settle_unserved {e : Event} (n : Nat) (hr : e.refusals = []) (hs : ∀ k ∈ e.serve, unserved e.st k) :
    e.settle n = e := by
  cases n with
  | zero => rfl
  | succ n =>
    unfold Event.settle
    dsimp only
    rw [Event.takeRefusals_nil hr, Event.serveCamps_unserved hs, hr]
    rfl

/-- What the end of an event can do when no order was refused and no camp ring is due. -/
structure QuietEnd (w t : State) : Prop where
  quiet : Quiet w t
  keeps : Keeps w t

theorem Event.finish_quietEnd {e : Event} (hr : e.refusals = []) (hs : ∀ k ∈ e.serve, unserved e.st k) :
    QuietEnd e.st e.finish := by
  refine ⟨?_, Event.finish_keeps (Keeps.refl _)⟩
  unfold Event.finish
  rw [Event.settle_unserved 80 hr hs]
  exact Event.commit_quiet (Event.runPasses_quiet (Event.runArbiters_quiet (Event.testPositions_quiet (.refl _))))

end Sys2Proof.Machine
end

section
/-! SUPPORT. A poll that brings one report (R127, R133): the frame ends and the shelf's miss count is 0, which changes
nothing else; then the report is an event of its own. -/

namespace Sys2Proof.Machine

/-- What a shelf sends as a report, the engine reads as that report (R125, R127, R178). -/
theorem readAnswer_reportOf (more : Bool) (port : Fin 16) {r : ReportKind} (h : ∀ x a, r ≠ .seize x a) :
    readAnswer (reportOf more port r) = some (.poll more [{ port := port, kind := r }]) := by
  cases r with
  | seize x a => exact absurd rfl (h x a)
  | _ => revert more port; decide

/-! ### The end of the frame -/

/-- A link whose shelf has answered (R133). -/
def Link.heard (k : Link) (a : Addr) : Link := k.setShelf a { k.shelves.get a with misses := 0 }

/-- The state in which a poll's report is taken: the frame of the poll has ended with a good answer of its PRESENT shelf,
and nothing else has changed. -/
structure Polled (s u : State) (l : LinkIx) (a : Addr) : Prop where
  core : u.core = s.core
  call : ∀ i, u.call i = s.call i
  pos : ∀ p, u.pos p = s.pos p
  prt : ∀ q, u.prt q = s.prt q
  free : u.free = s.free
  rings : u.rings = s.rings
  mem : u.mem = s.mem
  lamp : ∀ k, (u.lamp k).bare = (s.lamp k).bare
  ended : (u.link l).bare = (Link.heard { s.link l with frame := none } a).bare
  link : ∀ m, m ≠ l → (u.link m).bare = (s.link m).bare

/-- An event that changes no panel, gains no partition a member and wants no pass has nothing to end but the records it
has changed. -/
theorem Event.finish_idle {e : Event} (hr : e.refusals = []) (hs : e.serve = []) (hp : ∀ p, e.st.pos p = e.start.pos p)
    (hg : e.gained = .fill false) (hw : e.passes = .fill false) : e.finish = e.commit := by
  have test : ∀ x, e.testPosition x = e := fun x => by
    unfold Event.testPosition
    rw [hp, Bool.and_not_self]
    rfl
  have tests : e.testPositions = e := by
    unfold Event.testPositions
    induction List.finRange 8 with
    | nil => rfl
    | cons x xs ih => rw [List.foldl_cons, test, ih]
  have arbiters : e.runArbiters = e := by
    unfold Event.runArbiters
    induction List.finRange 4 with
    | nil => rfl
    | cons q qs ih => rw [List.foldl_cons, hg, Table.get_fill, if_neg (by decide), ih]
  have passes : e.runPasses = e := by
    unfold Event.runPasses
    induction List.finRange 4 with
    | nil => rfl
    | cons q qs ih => rw [List.foldl_cons, hw, Table.get_fill, if_neg (by decide), ih]
  unfold Event.finish
  rw [Event.settle_nil 80 hr hs, tests, arbiters, passes]

/-- An event that has changed a link and nothing else. -/
def Event.linkOnly (s : State) (l : LinkIx) (k : Link) : Event := { Event.begin s with st := s.setLink l k }

/-- The records of an event that has changed a link are raised nowhere but there (R11). -/
theorem Event.linkOnly_raises (s : State) (l : LinkIx) (k : Link) :
    let e := (Event.linkOnly s l k).upd State.retie
    (∀ i, e.callRaises.get i = false) ∧ (∀ p, e.posRaises.get p = false) ∧ ∀ q, e.prtRaises.get q = false := by
  intro e
  refine ⟨fun i => ?_, fun p => ?_, fun q => ?_⟩
  · have same : (e.start.call i).same (e.st.call i) = true := (Call.same_iff _ _).mpr rfl
    have changed : e.changed.contains i = false := rfl
    rw [Event.callRaises, Table.get_make, same, changed]
    rfl
  · have same : (e.start.pos p).same (e.st.pos p) = true := (Position.same_iff _ _).mpr rfl
    rw [Event.posRaises, Table.get_make, same]
    rfl
  · have same : (e.start.prt q).same (e.st.prt q) = true := (Partition.same_iff _ _).mpr rfl
    have touched : e.touched.get q = false := Table.get_fill _ _
    have count : (e.start.newCount q != e.st.newCount q) = false := bne_self_eq_false _
    have settings : (e.start.settings q != e.st.settings q) = false := bne_self_eq_false _
    rw [Event.prtRaises, Table.get_make, same, touched, count, settings]
    rfl

/-- The end of an event that has changed a link leaves calls, panels and partitions as they were. -/
theorem Event.commit_linkOnly (s : State) (l : LinkIx) (k : Link) :
    (∀ i, (Event.linkOnly s l k).commit.call i = s.call i) ∧ (∀ p, (Event.linkOnly s l k).commit.pos p = s.pos p) ∧
      ∀ q, (Event.linkOnly s l k).commit.prt q = s.prt q := by
  obtain ⟨calls, panels, parts⟩ := Event.linkOnly_raises s l k
  have bump := (State.bumpBoard_unseen ((Event.linkOnly s l k).upd State.retie).raiseRecords
    ((Event.linkOnly s l k).upd State.retie).raises).same
  simp only [Prod.mk.injEq] at bump
  obtain ⟨hc, -, hp, hq, -, -⟩ := bump
  refine ⟨fun i => ?_, fun p => ?_, fun q => ?_⟩
  · refine (congrArg (fun c => c.get i) hc).trans ((Event.call_raiseRecords _ _).trans ?_)
    rw [calls]
    rfl
  · refine (congrArg (fun c => c.get p) hp).trans ((Event.pos_raiseRecords _ _).trans ?_)
    rw [panels]
    rfl
  · refine (congrArg (fun c => c.get q) hq).trans ((Event.prt_raiseRecords _ _).trans ?_)
    rw [parts]
    rfl

/-- The state after a good answer of a PRESENT shelf to a poll, before its reports are handed on (R133). -/
def State.polled (s : State) (l : LinkIx) (a : Addr) : State := runEvent (s.endFrame l) fun e => e.answered l a

theorem State.polled_eq {s : State} {l : LinkIx} {a : Addr} (h : ((s.link l).shelves.get a).state = .present) :
    s.polled l a = (Event.linkOnly (s.endFrame l) l (Link.heard { s.link l with frame := none } a)).commit := by
  have hk : (s.endFrame l).link l = { s.link l with frame := none } := State.link_setLink_self s _ _
  have hbody : (Event.begin (s.endFrame l)).answered l a =
      Event.linkOnly (s.endFrame l) l (Link.heard { s.link l with frame := none } a) := by
    have hst : (Event.begin (s.endFrame l)).st = s.endFrame l := rfl
    unfold Event.answered Event.linkOnly Link.heard
    dsimp only
    rw [hst, hk, if_pos h]
    unfold Event.updLink Event.upd
    dsimp only
    rw [hst, hk]
  refine (congrArg Event.finish hbody).trans (Event.finish_idle rfl rfl (fun _ => rfl) rfl rfl)

theorem State.polled_spec {s : State} {l : LinkIx} {a : Addr} (h : ((s.link l).shelves.get a).state = .present) :
    Polled s (s.polled l a) l a := by
  rw [State.polled_eq h]
  obtain ⟨calls, panels, parts⟩ := Event.commit_linkOnly (s.endFrame l) l (Link.heard { s.link l with frame := none } a)
  have quiet := Event.commit_quiet
    (.refl (Event.linkOnly (s.endFrame l) l (Link.heard { s.link l with frame := none } a)).st)
  have keeps := Event.commit_keeps
    (.refl (Event.linkOnly (s.endFrame l) l (Link.heard { s.link l with frame := none } a)).st)
  exact {
    core := keeps.core
    call := calls
    pos := panels
    prt := parts
    free := quiet.free
    rings := quiet.rings
    mem := quiet.mem
    lamp := quiet.lamp
    ended := (quiet.link l).trans (congrArg Link.bare (State.link_setLink_self (s.endFrame l) _ _))
    link := fun m hm => (quiet.link m).trans (congrArg Link.bare
      ((State.link_setLink_ne (s.endFrame l) _ hm.symm).trans (State.link_setLink_ne s _ hm.symm))) }

section Polled

variable {s u : State} {l : LinkIx} {a : Addr} (h : Polled s u l a)
include h

theorem Polled.plan : u.plan = s.plan := by
  have hc := h.core
  simp only [State.core, Prod.mk.injEq] at hc
  exact hc.2.2.2.2.2.1

theorem Polled.seconds : u.seconds = s.seconds := by
  have hc := h.core
  simp only [State.core, Prod.mk.injEq] at hc
  exact hc.2.2.2.1

theorem Polled.part (q : Part) : u.part q = s.part q := by unfold State.part; rw [h.plan]

theorem Polled.dir (k : Circuit) : u.dir k = s.dir k := by unfold State.dir; rw [h.plan]

theorem Polled.line (k : Circuit) : (u.lamp k).line = (s.lamp k).line :=
  (show (u.lamp k).bare.line = (s.lamp k).bare.line by rw [h.lamp])

theorem Polled.camp (k : Circuit) : (u.lamp k).camp = (s.lamp k).camp :=
  (show (u.lamp k).bare.camp = (s.lamp k).bare.camp by rw [h.lamp])

theorem Polled.queue (m : LinkIx) : (u.link m).queue = (s.link m).queue := by
  by_cases hm : m = l
  · subst hm
    exact (show (u.link m).bare.queue = (s.link m).queue by rw [h.ended]; rfl)
  · exact (show (u.link m).bare.queue = (s.link m).bare.queue by rw [h.link m hm])

theorem Polled.linkState (m : LinkIx) : (u.link m).state = (s.link m).state := by
  by_cases hm : m = l
  · subst hm
    exact (show (u.link m).bare.state = (s.link m).state by rw [h.ended]; rfl)
  · exact (show (u.link m).bare.state = (s.link m).bare.state by rw [h.link m hm])

theorem Polled.shelfState (k : Circuit) : (u.shelfOf k).state = (s.shelfOf k).state := by
  unfold State.shelfOf
  by_cases hm : linkOf k = l
  · have hsh : (u.link l).shelves = (Link.heard { s.link l with frame := none } a).shelves :=
      (show (u.link l).bare.shelves = _ by rw [h.ended]; rfl)
    rw [hm, hsh]
    unfold Link.heard Link.setShelf
    dsimp only
    rw [Table.get_set]
    split
    · next e => rw [e]
    · rfl
  · have hsh : (u.link (linkOf k)).shelves = (s.link (linkOf k)).shelves :=
      (show (u.link (linkOf k)).bare.shelves = (s.link (linkOf k)).bare.shelves by rw [h.link _ hm])
    rw [hsh]

theorem Polled.room {os : List ShelfOrder} (hr : s.room os) : u.room os := fun o ho => by
  rw [h.linkState, h.queue]
  exact hr o ho

theorem Polled.reachable {os : List ShelfOrder} (hr : Machine.reachable s os) : Machine.reachable u os := fun o ho => by
  rw [h.shelfState]
  exact hr o ho

/-- The frame of the poll stays ended while only queues change. -/
theorem Polled.frameEnded {t : State} (ht : ∀ m, (t.link m).core = (u.link m).core) : Machine.frameEnded s t l a := by
  have hl : (u.link l).core = (Link.heard { s.link l with frame := none } a).core :=
    (show (u.link l).bare.core = _ by rw [h.ended]; rfl)
  have htl := (ht l).trans hl
  simp only [Link.core, Link.heard, Link.setShelf, Prod.mk.injEq] at htl
  obtain ⟨hst, -, -, hsh, hfr, hag, hpo, -⟩ := htl
  refine ⟨hfr, hag, hst, hsh, hpo, fun m hm => (ht m).trans ?_⟩
  exact (show (u.link m).bare.core = (s.link m).bare.core by rw [h.link m hm])

end Polled

/-! ### The report as an event of its own -/

/-- The shelf's wish to be polled again noted at its link (R128, R131). -/
def State.noteMore (v : State) (l : LinkIx) (x : Table Bool 4) : State := v.setLink l { v.link l with more := x }

/-- The report of a poll is taken in a state that differs from the one before in the link alone. -/
theorem PollFlies.takes {s : State} {l : LinkIx} {f : Frame} {port : Fin 16} {k : Circuit} (hf : PollFlies s l f)
    (hk : k = circuitAt l f.addr port) (more : Bool) (orders : List (List Nat)) (r : ReportKind)
    (hr : ∀ x a, r ≠ .seize x a) :
    ∃ u x, Polled s u l f.addr ∧ exec (.shelfAnswer l (reportOf more port r) orders) s =
      .next ((runEvent u fun e => e.report k r (orders.headD [])).noteMore l x) := by
  subst hk
  have filtered : (readAnswer (reportOf more port r)).filter (·.answers f) =
      some (.poll more [{ port := port, kind := r }]) := by
    rw [readAnswer_reportOf more port hr, Option.filter_some]
    have : Answer.answers (.poll more [{ port := port, kind := r }]) f = true := by
      unfold Answer.answers; dsimp only; rw [hf.entry]; rfl
    rw [if_pos this]
  refine ⟨s.polled l f.addr,
    Table.set ((runEvent (s.polled l f.addr) fun e =>
      e.report (circuitAt l f.addr port) r (orders.headD [])).link l).more f.addr more, State.polled_spec hf.present, ?_⟩
  refine congrArg Host.Outcome.next (?_ : s.shelfAnswer l (reportOf more port r) orders = _)
  unfold State.shelfAnswer
  rw [hf.frame]
  dsimp only
  rw [if_neg (by rw [hf.alive]; decide), filtered]
  unfold State.goodAnswer
  dsimp only
  rfl

/-- What a state `t` after a report shows of the state `w` in which the report's own event had done its work: the end of
the event has offered QUEUED calls at most. -/
structure Landed (s w t : State) (l : LinkIx) (a : Addr) : Prop where
  call : ∀ i, (w.call i).state ≠ .queued → (t.call i).bare = (w.call i).bare
  queued : ∀ i, (w.call i).state = .queued → (t.call i).state = .queued ∨ (t.call i).state = .offered
  waiting : ∀ i, (t.call i).waiting = (w.call i).waiting
  pos : ∀ p, (t.pos p).bare = (w.pos p).bare
  prt : ∀ q, (t.prt q).bare = (w.prt q).bare
  lamp : ∀ k, (t.lamp k).bare = (w.lamp k).bare
  queue : ∀ m, (t.link m).queue = (w.link m).queue
  rings : t.rings = w.rings
  free : t.free = w.free
  ended : frameEnded s t l a
  answered : ∀ d code x, w.answered d code x → t.answered d code x

/-- A result stands where the board, the clock and the taken cells stand and no flag is cleared (R163). -/
theorem State.answered_congr {w t : State} {d : CellIx} {code : ResultCode} {x : Word} (hm : t.mem = w.mem)
    (ht : t.taker = w.taker) (hs : t.seconds = w.seconds) (hf : w.flag .order = true → t.flag .order = true)
    (h : w.answered d code x) : t.answered d code x := by
  obtain ⟨h0, h3, h6, hA, hd, ho⟩ := h
  unfold State.answered
  rw [hm, ht, hs]
  exact ⟨h0, h3, h6, hA, hd, hf ho⟩

theorem State.queue_noteMore (v : State) (l : LinkIx) (x : Table Bool 4) (m : LinkIx) :
    ((v.noteMore l x).link m).queue = (v.link m).queue := by
  unfold State.noteMore
  rw [State.link_setLink]
  split
  · next e => rw [e]
  · rfl

/-- A report whose event refuses no order and owes no camp ring. -/
theorem Polled.landed {s u : State} {l : LinkIx} {a : Addr} {e : Event} (hu : Polled s u l a) (x : Table Bool 4)
    (hr : e.refusals = []) (hs : ∀ c ∈ e.serve, unserved e.st c) (hl : ∀ m, (e.st.link m).core = (u.link m).core) :
    Landed s e.st (e.finish.noteMore l x) l a := by
  obtain ⟨quiet, keeps⟩ := Event.finish_quietEnd hr hs
  generalize e.finish = v at quiet keeps ⊢
  have core := keeps.core
  simp only [State.core, Prod.mk.injEq] at core
  have more_core : ∀ m, m ≠ l → ((v.noteMore l x).link m).core = (v.link m).core := fun m hm =>
    congrArg Link.core (State.link_setLink_ne v _ hm.symm)
  exact {
    call := quiet.call
    queued := quiet.queued
    waiting := quiet.waiting
    pos := quiet.pos
    prt := quiet.prt
    lamp := quiet.lamp
    queue := fun m => (State.queue_noteMore v l x m).trans
      (show (v.link m).bare.queue = (e.st.link m).bare.queue by rw [quiet.link])
    rings := quiet.rings
    free := quiet.free
    ended := by
      obtain ⟨h1, h2, h3, h4, h5, h6⟩ := hu.frameEnded (t := v) fun m => (keeps.link m).trans (hl m)
      unfold Machine.frameEnded State.noteMore
      rw [State.link_setLink_self]
      exact ⟨h1, h2, h3, h4, h5, fun m hm => (more_core m hm).trans (h6 m hm)⟩
    answered := fun d code y hy => State.answered_congr (w := v) rfl rfl rfl id
      (State.answered_congr quiet.mem quiet.taker core.2.2.2.1 (State.flag_mono keeps.summary) hy) }

section Landed

variable {s w t : State} {l : LinkIx} {a : Addr} (h : Landed s w t l a)
include h

theorem Landed.line (k : Circuit) : (t.lamp k).line = (w.lamp k).line :=
  (show (t.lamp k).bare.line = (w.lamp k).bare.line by rw [h.lamp])

theorem Landed.camp (k : Circuit) : (t.lamp k).camp = (w.lamp k).camp :=
  (show (t.lamp k).bare.camp = (w.lamp k).bare.camp by rw [h.lamp])

theorem Landed.call_eq {i : Slot} {c : Call} (hc : w.call i = c) (hq : c.state ≠ .queued) : (t.call i).bare = c.bare := by
  subst hc
  exact h.call i hq

/-- What the event has left alone, its end leaves alone but for offers, estimates and idle-since times. -/
theorem Landed.aside {u : State} (hu : Polled s u l a) {call : Slot → Prop} {pos : Pos → Prop} {prt : Part → Prop}
    {lamp : Circuit → Prop} (hc : ∀ i, ¬ call i → w.call i = u.call i)
    (hp : ∀ p, ¬ pos p → (w.pos p).bare = (u.pos p).bare) (hq : ∀ q, ¬ prt q → (w.prt q).bare = (u.prt q).bare)
    (hk : ∀ k, ¬ lamp k → (w.lamp k).bare = (u.lamp k).bare) (hf : w.free = u.free) : Aside s t call pos prt lamp where
  calls := fun i hi hs => by
    rw [← hu.call i, ← hc i hi] at hs ⊢
    exact h.call i hs
  queued := fun i hi hs => by
    rw [← hu.call i, ← hc i hi] at hs ⊢
    exact ⟨h.queued i hs, h.waiting i⟩
  positions := fun p hn => (h.pos p).trans ((hp p hn).trans (congrArg Position.bare (hu.pos p)))
  partitions := fun q hn => (h.prt q).trans ((hq q hn).trans (congrArg Partition.bare (hu.prt q)))
  lamps := fun k hn => (h.lamp k).trans ((hk k hn).trans (hu.lamp k))
  free := h.free.trans (hf.trans hu.free)

theorem Landed.silent {u : State} (hu : Polled s u l a) (hq : ∀ m, (w.link m).queue = (u.link m).queue)
    (hr : w.rings = u.rings) : Machine.silent s t :=
  ⟨fun m => (h.queue m).trans ((hq m).trans (hu.queue m)), h.rings.trans (hr.trans hu.rings)⟩

theorem Landed.queuedAfter {u : State} (hu : Polled s u l a) {es : List Entry}
    (hq : ∀ m, (w.link m).queue = (u.link m).queue ++ es.filter fun x => linkOf x.order.first == m) :
    Machine.queuedAfter s t es := fun m => (h.queue m).trans (by rw [hq, hu.queue])

end Landed

theorem Landed.reported {s w t : State} {l : LinkIx} {f : Frame} {k : Circuit} {x : LineState}
    (h : Landed s w t l f.addr) (hx : (w.lamp k).line = x) : Machine.reported s t l f k x :=
  ⟨h.ended, (h.line k).trans hx⟩

end Sys2Proof.Machine
end

section
/-! SUPPORT. What a report of a target does to the call that rings, consults or camps on it (R94 to R96, R99). -/

namespace Sys2Proof.Machine

/-! ### The line of the circuit (R143) -/

/-- A state with the line of a circuit set. -/
def State.setLine (u : State) (k : Circuit) (x : LineState) : State := u.setLamp k { u.lamp k with line := x }

section SetLine

variable (u : State) (k : Circuit) (x : LineState)

@[simp] theorem State.call_setLine (i : Slot) : (u.setLine k x).call i = u.call i := rfl
@[simp] theorem State.pos_setLine (p : Pos) : (u.setLine k x).pos p = u.pos p := rfl
@[simp] theorem State.prt_setLine (q : Part) : (u.setLine k x).prt q = u.prt q := rfl
@[simp] theorem State.link_setLine (l : LinkIx) : (u.setLine k x).link l = u.link l := rfl
@[simp] theorem State.setLine_rings : (u.setLine k x).rings = u.rings := rfl
@[simp] theorem State.setLine_free : (u.setLine k x).free = u.free := rfl
@[simp] theorem State.setLine_mem : (u.setLine k x).mem = u.mem := rfl
@[simp] theorem State.setLine_plan : (u.setLine k x).plan = u.plan := rfl
@[simp] theorem State.setLine_seconds : (u.setLine k x).seconds = u.seconds := rfl

@[simp] theorem State.lamp_setLine_self : (u.setLine k x).lamp k = { u.lamp k with line := x } :=
  State.lamp_setLamp_self _ _ _

@[simp] theorem State.lamp_setLine_ne {c : Circuit} (h : k ≠ c) : (u.setLine k x).lamp c = u.lamp c :=
  State.lamp_setLamp_ne _ _ h

theorem State.line_setLine : ((u.setLine k x).lamp k).line = x := by rw [State.lamp_setLine_self]

theorem State.camp_setLine (c : Circuit) : ((u.setLine k x).lamp c).camp = (u.lamp c).camp := by
  by_cases h : k = c
  · subst h; rw [State.lamp_setLine_self]
  · rw [State.lamp_setLine_ne _ _ _ h]

end SetLine

/-- The event of a report when the line has been set. -/
def Event.lineSet (u : State) (k : Circuit) (x : LineState) : Event := { Event.begin u with st := u.setLine k x }

/-! ### The call that a report of a target is for -/

theorem Call.tiesTarget_iff {c : Call} : c.tiesTarget = true ↔
    c.state = .consultRinging ∨ c.state = .consultTalking ∨ c.state = .ringingOut ∨
      (c.state = .talking ∧ c.extend ≠ none) := by
  have extends_iff : c.extend ≠ none ↔ c.extend.isSome = true := by cases c.extend <;> simp
  unfold Call.tiesTarget Call.directInFlight
  rw [extends_iff]
  simp only [Bool.or_eq_true, Bool.and_eq_true, beq_iff_eq, or_assoc]

theorem engages_iff {c : Call} {k : Circuit} :
    engages c k ↔ c.targets k = true ∧ (c.tiesTarget = true ∨ c.state = .camped) := by
  have targets : (∃ n, c.target = some { number := n, circuit := k }) ↔ c.targets k = true := by
    unfold Call.targets
    cases c.target with
    | none => exact ⟨fun ⟨_, hn⟩ => (by cases hn), fun hf => (by cases hf)⟩
    | some x =>
      refine ⟨fun ⟨n, hn⟩ => ?_, fun hk => ⟨x.number, ?_⟩⟩
      · rw [Option.some.inj hn]
        exact beq_self_eq_true k
      · rw [← eq_of_beq hk]
  unfold engages
  rw [targets, Call.tiesTarget_iff]
  refine and_congr_right fun _ => ?_
  tauto

theorem Call.targets_of {c : Call} {n : Word} {k : Circuit} (h : c.target = some { number := n, circuit := k }) :
    c.targets k = true := by
  unfold Call.targets
  rw [h]
  exact beq_self_eq_true k

/-- The call that rings or consults the circuit, when no other call does. -/
theorem State.ringerOf_eq {t : State} {k : Circuit} {i : Slot} (ht : (t.call i).targets k = true)
    (hi : (t.call i).tiesTarget = true) (only : onlyTarget t k i) : t.ringerOf k = some i := by
  unfold State.ringerOf
  cases hf : allSlots.find? fun i => (t.call i).targets k && (t.call i).tiesTarget with
  | none =>
    have := List.find?_eq_none.mp hf i (List.mem_finRange i)
    rw [ht, hi] at this
    exact absurd rfl this
  | some j =>
    have hj := List.find?_some hf
    rw [Bool.and_eq_true] at hj
    by_contra hne
    refine only j (fun e => hne (by rw [e])) (engages_iff.mpr ⟨hj.1, .inl hj.2⟩)

theorem State.ringerOf_none {t : State} {k : Circuit}
    (h : ∀ j, (t.call j).targets k = true → (t.call j).tiesTarget = false) : t.ringerOf k = none := by
  unfold State.ringerOf
  rw [List.find?_eq_none]
  intro j _
  rw [Bool.and_eq_true]
  rintro ⟨h1, h2⟩
  rw [h j h1] at h2
  cases h2

/-- The event of a report does its work in this state, refuses no order and owes no camp ring. -/
def Lands (u : State) (k : Circuit) (r : ReportKind) (schedule : List Nat) (w : State) : Prop :=
  ∃ e : Event, (Event.begin u).report k r schedule = e ∧ e.st = w ∧ e.refusals = [] ∧
    (∀ c ∈ e.serve, unserved w c) ∧ ∀ m, (w.link m).core = (u.link m).core

/-- A report whose event does its work in a state `w` and ends quietly. -/
theorem PollFlies.taken {s : State} {l : LinkIx} {f : Frame} {port : Fin 16} {k : Circuit} (hf : PollFlies s l f)
    (hk : k = circuitAt l f.addr port) (more : Bool) (orders : List (List Nat)) (r : ReportKind)
    (hr : ∀ x a, r ≠ .seize x a) :
    ∃ u, Polled s u l f.addr ∧ ∀ w, Lands u k r (orders.headD []) w →
      ∃ t, exec (.shelfAnswer l (reportOf more port r) orders) s = .next t ∧ Landed s w t l f.addr := by
  obtain ⟨u, x, hu, run⟩ := hf.takes hk more orders r hr
  refine ⟨u, hu, ?_⟩
  rintro w ⟨e, he, rfl, hrefusals, hserve, hlink⟩
  refine ⟨_, run, ?_⟩
  unfold runEvent
  dsimp only
  rw [he]
  exact hu.landed x hrefusals hserve hlink

theorem Polled.onlyTarget {s u : State} {l : LinkIx} {a : Addr} {k : Circuit} {i : Slot} (h : Polled s u l a)
    (only : Machine.onlyTarget s k i) : Machine.onlyTarget u k i := fun j hj => by
  rw [h.call]
  exact only j hj

@[simp] theorem Call.state_enter (c : Call) (st : CallState) (now : Seconds) : (c.enter st now).state = st := rfl

/-! ### ANSWER (R94) -/

/-- An ANSWER for a call whose ring is confirmed or that rings for no order begins the consultation. -/
theorem Event.targetAnswer_consult {e : Event} {k : Circuit} {i : Slot} (hr : e.st.ringerOf k = some i)
    (hs : (e.st.call i).state = .consultRinging) (hc : (e.st.call i).confirmed = true) :
    e.targetAnswer k = e.toState i .consultTalking := by
  have answered : e.st.answeredCall k = some i := by unfold State.answeredCall; rw [hr]
  have awaits : (e.st.call i).awaits k = false := by
    unfold Call.awaits Call.directInFlight
    rw [hs, hc]
    simp
  unfold Event.targetAnswer
  rw [answered]
  dsimp only
  rw [awaits, if_neg (by decide), hs]

/-- An ANSWER for a confirmed consultation. -/
theorem Lands.consult {u : State} {k : Circuit} {i : Slot} {schedule : List Nat} (ht : (u.call i).targets k = true)
    (only : onlyTarget u k i) (hs : (u.call i).state = .consultRinging) (hc : (u.call i).confirmed = true) :
    Lands u k .answer schedule ((u.setLine k .busy).setCall i ((u.call i).enter .consultTalking u.seconds)) := by
  have ringer : (Event.lineSet u k .busy).st.ringerOf k = some i :=
    State.ringerOf_eq ht (Call.tiesTarget_iff.mpr (.inl hs)) only
  have body : (Event.begin u).report k .answer schedule = (Event.lineSet u k .busy).toState i .consultTalking :=
    Event.targetAnswer_consult ringer hs hc
  rw [Event.toState_eq _ (by show (u.call i).state ≠ _; rw [hs]; decide)] at body
  exact ⟨_, body, rfl, rfl, nofun, fun _ => rfl⟩

theorem answer_confirmed {s : State} {l : LinkIx} {f : Frame} {port : Fin 16} {k : Circuit} {i : Slot} {n : Word}
    (more : Bool) (orders : List (List Nat)) (h : TargetReports s l f port k i n)
    (hs : (s.call i).state = .consultRinging) (hc : (s.call i).confirmed = true) :
    ∃ t, exec (.shelfAnswer l (reportOf more port .answer) orders) s = .next t ∧ reported s t l f k .busy ∧
      (t.call i).bare = onLoop (s.call i) .consultTalking s.seconds ∧ silent s t ∧
      Aside s t (· = i) (fun _ => False) (fun _ => False) (· = k) := by
  obtain ⟨u, hu, taken⟩ := h.toPollFlies.taken h.circuit more orders .answer nofun
  obtain ⟨t, run, landed⟩ := taken _ (.consult
    (by rw [hu.call]; exact Call.targets_of h.target) (hu.onlyTarget h.only) (by rw [hu.call]; exact hs)
    (by rw [hu.call]; exact hc))
  refine ⟨t, run, landed.reported (by rw [State.lamp_setCall, State.line_setLine]), ?_, landed.silent hu (fun _ => rfl) rfl,
    landed.aside hu (fun j hj => State.call_setCall_ne _ _ (Ne.symm hj)) (fun _ _ => rfl) (fun _ _ => rfl)
      (fun c hc => congrArg Lamp.bare (State.lamp_setLine_ne _ _ _ (Ne.symm hc))) rfl⟩
  rw [landed.call_eq (State.call_setCall_self _ _ _) (by rw [Call.state_enter]; decide), hu.call, hu.seconds]
  simp [onLoop, Call.enter, Call.bare, hs, CallState.hasPosition, CallState.hasLoop, CallState.keepsTarget,
    CallState.inRoster, CallState.keepsAnnouncer, keepsRinging]

/-- The states of a call that awaits a ring outcome (R85). -/
theorem Call.awaits_iff {c : Call} {k : Circuit} : c.awaits k = true ↔ c.targets k = true ∧
    ((c.state = .consultRinging ∧ c.confirmed = false) ∨ (c.state = .talking ∧ c.extend ≠ none) ∨
      (c.state = .ringingOut ∧ c.confirmed = false) ∨ (c.state = .camped ∧ c.ringPending = true)) := by
  have extends_iff : c.extend ≠ none ↔ c.extend.isSome = true := by cases c.extend <;> simp
  unfold Call.awaits Call.directInFlight
  rw [extends_iff]
  simp only [Bool.or_eq_true, Bool.and_eq_true, beq_iff_eq, Bool.not_eq_true', or_assoc]

/-- An ANSWER taken before the ACK of the ring stands for the ACK first; then the consultation begins (R94). -/
theorem Event.targetAnswer_consults {e e' : Event} {k : Circuit} {i : Slot} (ha : e.st.answeredCall k = some i)
    (hw : (e.st.call i).awaits k = true) (he : e.currentRing i k .ack = e')
    (hs : (e'.st.call i).state = .consultRinging) : e.targetAnswer k = e'.toState i .consultTalking := by
  unfold Event.targetAnswer
  rw [ha]
  dsimp only
  rw [if_pos hw, he, hs]

/-- An ANSWER taken before the ACK of the ring stands for the ACK first; then the call is delivered (R94). -/
theorem Event.targetAnswer_delivers {e e' : Event} {k : Circuit} {i : Slot} (ha : e.st.answeredCall k = some i)
    (hw : (e.st.call i).awaits k = true) (he : e.currentRing i k .ack = e') (hs : (e'.st.call i).state = .ringingOut) :
    e.targetAnswer k = e'.deliver i := by
  unfold Event.targetAnswer
  rw [ha]
  dsimp only
  rw [if_pos hw, he, hs]

theorem State.answeredCall_ringer {t : State} {k : Circuit} {i : Slot} (h : t.ringerOf k = some i) :
    t.answeredCall k = some i := by unfold State.answeredCall; rw [h]

/-- The state in which an ANSWER has stood for the ACK of a SCREENED EXTEND and begun the consultation. -/
def State.screenedAnswer (u : State) (k : Circuit) (i : Slot) (p : Pos) : State :=
  let t := ((u.setLine k .busy).setCall i { u.call i with confirmed := true }).endExtend p i .ok
  t.setCall i ((t.call i).enter .consultTalking t.seconds)

theorem Lands.screened {u : State} {k : Circuit} {i : Slot} {p : Pos} {schedule : List Nat}
    (ht : (u.call i).targets k = true) (only : onlyTarget u k i) (hs : (u.call i).state = .consultRinging)
    (hc : (u.call i).confirmed = false) (hx : (u.call i).extend ≠ none) (hp : (u.call i).position = some p) :
    Lands u k .answer schedule (u.screenedAnswer k i p) := by
  let confirmed : Event :=
    { Event.lineSet u k .busy with st := (u.setLine k .busy).setCall i { u.call i with confirmed := true } }
  have hself : confirmed.st.call i = { u.call i with confirmed := true } := State.call_setCall_self _ _ _
  have ringer : (Event.lineSet u k .busy).st.ringerOf k = some i :=
    State.ringerOf_eq ht (Call.tiesTarget_iff.mpr (.inl hs)) only
  have ack : (Event.lineSet u k .busy).currentRing i k .ack =
      { confirmed with st := confirmed.st.endExtend p i .ok } := by
    unfold Event.currentRing
    rw [show ((Event.lineSet u k .busy).st.call i).state = .consultRinging from hs]
    exact Event.answerExtendOf_eq (e := confirmed) (by rw [hself]; exact hx) (by rw [hself]; exact hp)
  have state : ((confirmed.st.endExtend p i .ok).call i).state = .consultRinging := by
    rw [State.call_endExtend, if_pos rfl, hself]
    exact hs
  have body := Event.targetAnswer_consults (State.answeredCall_ringer ringer)
    (Call.awaits_iff.mpr ⟨ht, .inl ⟨hs, hc⟩⟩) ack state
  rw [Event.toState_eq _ (by rw [state]; decide)] at body
  exact ⟨_, body, rfl, rfl, nofun, fun m => congrArg Link.core (State.link_endExtend confirmed.st p i .ok m)⟩

theorem answer_screened {s : State} {l : LinkIx} {f : Frame} {port : Fin 16} {k : Circuit} {i : Slot} {n : Word}
    {p : Pos} {j : LoopIx} {h : Circuit} {d : CellIx} (more : Bool) (orders : List (List Nat))
    (hr : TargetReports s l f port k i n) (hs : (s.call i).state = .consultRinging) (hc : (s.call i).confirmed = false)
    (hp : Speaking s p i j h) (hx : (s.call i).extend ≠ none) (hd : (s.pos p).extendCell = some d) :
    ∃ t, exec (.shelfAnswer l (reportOf more port .answer) orders) s = .next t ∧ reported s t l f k .busy ∧
      t.answered d .ok 0 ∧ (t.call i).bare = { onLoop (s.call i) .consultTalking s.seconds with extend := none } ∧
      (t.pos p).bare = { (s.pos p).bare with extend := none, extendCell := none } ∧ silent s t ∧
      Aside s t (· = i) (· = p) (fun _ => False) (· = k) := by
  obtain ⟨u, hu, taken⟩ := hr.toPollFlies.taken hr.circuit more orders .answer nofun
  obtain ⟨t, run, landed⟩ := taken _ (.screened (p := p)
    (by rw [hu.call]; exact Call.targets_of hr.target) (hu.onlyTarget hr.only) (by rw [hu.call]; exact hs)
    (by rw [hu.call]; exact hc) (by rw [hu.call]; exact hx) (by rw [hu.call]; exact hp.position))
  have hcall : (u.screenedAnswer k i p).call i =
      Call.enter { s.call i with confirmed := true, extend := none } .consultTalking s.seconds := by
    simp [State.screenedAnswer, State.call_endExtend, hu.call, hu.seconds]
  have hpos : ∀ x, (u.screenedAnswer k i p).pos x =
      if p = x then { s.pos x with extend := none, extendCell := none } else s.pos x := fun x => by
    simp [State.screenedAnswer, State.pos_endExtend, hu.pos]
  refine ⟨t, run, landed.reported (by simp [State.screenedAnswer]), landed.answered d .ok 0 ?_, ?_, ?_,
    landed.silent hu (fun m => by simp [State.screenedAnswer]) (by simp [State.screenedAnswer]),
    landed.aside hu (fun j hj => ?_) (fun x hx => ?_) (fun q _ => by simp [State.screenedAnswer]) (fun c hc => ?_)
      (by simp [State.screenedAnswer])⟩
  · exact State.answered_congr rfl rfl rfl id (State.endExtend_answered _ p i .ok
      (by rw [State.setCall_mem, State.setLine_mem, hu.mem]; exact hr.wf)
      (by rw [State.pos_setCall, State.pos_setLine, hu.pos]; exact hd))
  · rw [landed.call_eq hcall (by rw [Call.state_enter]; decide)]
    simp [onLoop, Call.enter, Call.bare, hs, CallState.hasPosition, CallState.hasLoop, CallState.keepsTarget,
      CallState.inRoster, CallState.keepsAnnouncer, keepsRinging]
  · rw [landed.pos, hpos, if_pos rfl]
    rfl
  · simp [State.screenedAnswer, State.call_endExtend, State.call_setCall_ne _ _ (Ne.symm hj), Ne.symm hj]
  · rw [hpos, if_neg (Ne.symm hx), hu.pos]
  · simp [State.screenedAnswer, State.lamp_setLine_ne _ _ _ (Ne.symm hc)]

/-! ### Delivery (R17, R94) -/

/-- A call that rang out is closed as DELIVERED. -/
def State.delivered (t : State) (i : Slot) : State :=
  t.setCall i { (t.call i).enter .closing t.seconds with endReason := some .delivered }

theorem Event.close_delivered {e : Event} {i : Slot} (hs : (e.st.call i).state = .ringingOut)
    (hx : (e.st.call i).extend = none) (hp : (e.st.call i).pending ≠ 0) :
    e.close i .delivered true = { e with st := e.st.delivered i, changed := e.changed ++ [i] } := by
  have removed : e.removeCall i = e := by unfold Event.removeCall; dsimp only; rw [hs]
  have pending : ((e.st.delivered i).call i).pending ≠ 0 := by
    unfold State.delivered
    rw [State.call_setCall_self]
    exact hp
  unfold Event.close
  dsimp only
  have tears : EndReason.delivered.tearsDown = false := rfl
  have drops : EndReason.delivered.drops = false := rfl
  rw [if_neg (by rw [hs]; decide), removed, Event.answerExtendOf_none hx, Event.toState_eq _ (by rw [hs]; decide),
    tears, drops, Bool.false_and, if_neg Bool.false_ne_true, if_neg Bool.false_ne_true]
  refine (Event.freeIfDone_pending ?_).trans ?_
  · unfold Event.updCall Event.upd
    dsimp only
    rw [State.call_setCall_self, State.call_setCall_self]
    exact hp
  · unfold Event.updCall Event.upd State.delivered
    simp [CallState.keepsTarget, State.setCall_setCall]

theorem Event.deliver_eq {e : Event} {i : Slot} {n : Word} {k : Circuit} (hs : (e.st.call i).state = .ringingOut)
    (ht : (e.st.call i).target = some { number := n, circuit := k }) (hx : (e.st.call i).extend = none)
    (hr : e.st.room [.join (e.st.call i).caller k]) :
    e.deliver i = { e with st := (e.st.send i (.join (e.st.call i).caller k) true).delivered i,
                           log := e.log ++ [(i, .join (e.st.call i).caller k)], changed := e.changed ++ [i] } := by
  have hself := (e.st.call_send i (.join (e.st.call i).caller k) true i).trans (if_pos rfl)
  obtain ⟨running, space⟩ := hr _ List.mem_cons_self
  unfold Event.deliver
  dsimp only
  rw [ht]
  dsimp only
  rw [Event.issueAs_send e (.inl rfl) running (Nat.lt_of_succ_le space), Event.close_delivered]
  · rw [hself]; exact hs
  · rw [hself]; exact hx
  · rw [hself]; exact Nat.succ_ne_zero _

theorem State.setCall_call (t : State) (i : Slot) : t.setCall i (t.call i) = t := by
  unfold State.setCall State.call
  rw [Table.set_get]

/-- An ANSWER for a call that rings out with its ring confirmed delivers it. -/
theorem Event.targetAnswer_delivers_confirmed {e : Event} {k : Circuit} {i : Slot} (hr : e.st.ringerOf k = some i)
    (hs : (e.st.call i).state = .ringingOut) (hc : (e.st.call i).confirmed = true) : e.targetAnswer k = e.deliver i := by
  have awaits : (e.st.call i).awaits k = false := by
    rw [← Bool.not_eq_true, Call.awaits_iff, hs, hc]
    simp
  unfold Event.targetAnswer
  rw [State.answeredCall_ringer hr]
  dsimp only
  rw [awaits, if_neg (by decide), hs]

/-- The state in which an ANSWER has delivered a call that rang out. -/
def State.ringAnswered (u : State) (k : Circuit) (i : Slot) : State :=
  (((u.setLine k .busy).setCall i { u.call i with confirmed := true }).send i (.join (u.call i).caller k) true).delivered i

theorem Lands.ringingOut {u : State} {k : Circuit} {i : Slot} {n : Word} {schedule : List Nat}
    (ht : (u.call i).target = some { number := n, circuit := k }) (only : onlyTarget u k i)
    (hs : (u.call i).state = .ringingOut) (hx : (u.call i).extend = none) (hr : u.room [.join (u.call i).caller k]) :
    Lands u k .answer schedule (u.ringAnswered k i) := by
  let confirmed : Event :=
    { Event.lineSet u k .busy with st := (u.setLine k .busy).setCall i { u.call i with confirmed := true } }
  have hself : confirmed.st.call i = { u.call i with confirmed := true } := State.call_setCall_self _ _ _
  have ringer : (Event.lineSet u k .busy).st.ringerOf k = some i :=
    State.ringerOf_eq (Call.targets_of ht) (Call.tiesTarget_iff.mpr (.inr (.inr (.inl hs)))) only
  have delivered : (Event.begin u).report k .answer schedule = confirmed.deliver i := by
    cases hc : (u.call i).confirmed with
    | true =>
      have same : confirmed = Event.lineSet u k .busy := by
        have : { u.call i with confirmed := true } = (u.setLine k .busy).call i := by rw [← hc]; rfl
        show { Event.lineSet u k .busy with
          st := (u.setLine k .busy).setCall i { u.call i with confirmed := true } } = _
        rw [this, State.setCall_call]
        rfl
      rw [same]
      exact Event.targetAnswer_delivers_confirmed ringer hs hc
    | false =>
      have ack : (Event.lineSet u k .busy).currentRing i k .ack = confirmed := by
        unfold Event.currentRing
        rw [show ((Event.lineSet u k .busy).st.call i).state = .ringingOut from hs]
        rfl
      exact Event.targetAnswer_delivers (State.answeredCall_ringer ringer)
        (Call.awaits_iff.mpr ⟨Call.targets_of ht, .inr (.inr (.inl ⟨hs, hc⟩))⟩) ack (by rw [hself]; exact hs)
  rw [Event.deliver_eq (n := n) (k := k) (by rw [hself]; exact hs) (by rw [hself]; exact ht) (by rw [hself]; exact hx)
    (by rw [hself]; exact hr), hself] at delivered
  refine ⟨_, delivered, rfl, rfl, nofun, fun m => ?_⟩
  unfold State.ringAnswered State.delivered
  rw [State.link_setCall, State.link_send]
  rfl

theorem answer_ringingOut {s : State} {l : LinkIx} {f : Frame} {port : Fin 16} {k : Circuit} {i : Slot} {n : Word}
    (more : Bool) (orders : List (List Nat)) (h : TargetReports s l f port k i n)
    (hs : (s.call i).state = .ringingOut) (hx : (s.call i).extend = none) (hr : s.room [.join (s.call i).caller k]) :
    ∃ t, exec (.shelfAnswer l (reportOf more port .answer) orders) s = .next t ∧ reported s t l f k .busy ∧
      (t.call i).bare =
        { offLoops (s.call i) .closing s.seconds with
          endReason := some .delivered, announcer := (s.call i).announcer, pending := (s.call i).pending + 1 } ∧
      t.rings = s.rings ∧ queuedAfter s t [{ order := .join (s.call i).caller k, slot := some i, handover := true }] ∧
      Aside s t (· = i) (fun _ => False) (fun _ => False) (· = k) := by
  obtain ⟨u, hu, taken⟩ := h.toPollFlies.taken h.circuit more orders .answer nofun
  obtain ⟨t, run, landed⟩ := taken _ (.ringingOut (by rw [hu.call]; exact h.target) (hu.onlyTarget h.only)
    (by rw [hu.call]; exact hs) (by rw [hu.call]; exact hx) (by rw [hu.call]; exact hu.room hr))
  have hcall : (u.ringAnswered k i).call i =
      { Call.enter { s.call i with confirmed := true, pending := (s.call i).pending + 1 } .closing s.seconds with
        endReason := some .delivered } := by
    simp [State.ringAnswered, State.delivered, State.call_send, hu.call, hu.seconds]
  have hlink : ∀ m, ((u.ringAnswered k i).link m).queue = (u.link m).queue ++
      [({ order := .join (s.call i).caller k, slot := some i, handover := true } : Entry)].filter
        fun x => linkOf x.order.first == m := fun m => by
    simp [State.ringAnswered, State.delivered, State.link_send, hu.call]
  refine ⟨t, run, landed.reported (by simp [State.ringAnswered, State.delivered]), ?_,
    landed.rings.trans (Eq.trans (by simp [State.ringAnswered, State.delivered]) hu.rings),
    landed.queuedAfter hu hlink,
    landed.aside hu (fun j hj => ?_) (fun p _ => by simp [State.ringAnswered, State.delivered])
      (fun q _ => by simp [State.ringAnswered, State.delivered]) (fun c hc => ?_)
      (by simp [State.ringAnswered, State.delivered])⟩
  · rw [landed.call_eq hcall (by exact nofun)]
    simp [offLoops, onLoop, Call.enter, Call.bare, hs, CallState.hasPosition, CallState.hasLoop, CallState.keepsTarget,
      CallState.inRoster, CallState.keepsAnnouncer, keepsRinging]
  · simp [State.ringAnswered, State.delivered, State.call_send, State.call_setCall_ne _ _ (Ne.symm hj), Ne.symm hj]
  · simp [State.ringAnswered, State.delivered, State.lamp_setLine_ne _ _ _ (Ne.symm hc)]

/-- A call that leaves its loop or its camp list rings out with its ring confirmed (R91, R100). -/
def State.rungOut (t : State) (i : Slot) : State :=
  t.setCall i { (t.call i).enter .ringingOut t.seconds with ringCount := 0, confirmed := true }

theorem Event.ringOut_eq (e : Event) {i : Slot} (h : (e.st.call i).state ≠ .free) :
    e.ringOut i = { e with st := e.st.rungOut i, changed := e.changed ++ [i] } := by
  unfold Event.ringOut State.rungOut
  rw [Event.toState_eq _ h]
  unfold Event.updCall Event.upd
  simp [CallState.keepsTarget, State.setCall_setCall]

/-- The state in which an ANSWER has stood for the ACK of a DIRECT EXTEND: the call rings out, off its loop. -/
def State.directRung (u : State) (k : Circuit) (i : Slot) (p : Pos) (j : LoopIx) : State :=
  let t := (u.setLine k .busy).endExtend p i .ok
  (t.setPos p ((t.pos p).without j)).rungOut i

theorem State.call_directRung (u : State) (k : Circuit) (i : Slot) (p : Pos) (j : LoopIx) (x : Slot) :
    (u.directRung k i p j).call x =
      if i = x then
        { Call.enter { u.call x with extend := none } .ringingOut u.seconds with ringCount := 0, confirmed := true }
      else u.call x := by
  unfold State.directRung State.rungOut
  rw [State.call_setCall]
  split
  · next e => subst e; simp [State.call_endExtend]
  · next e => simp [State.call_endExtend, e]

theorem State.pos_directRung (u : State) (k : Circuit) (i : Slot) (p : Pos) (j : LoopIx) (x : Pos) :
    (u.directRung k i p j).pos x =
      if p = x then Position.without { u.pos x with extend := none, extendCell := none } j else u.pos x := by
  unfold State.directRung State.rungOut
  rw [State.pos_setCall, State.pos_setPos]
  split
  · next e => subst e; simp [State.pos_endExtend]
  · next e => simp [State.pos_endExtend, e]

section DirectRung

variable (u : State) (k : Circuit) (i : Slot) (p : Pos) (j : LoopIx)

@[simp] theorem State.prt_directRung (q : Part) : (u.directRung k i p j).prt q = u.prt q := by
  simp [State.directRung, State.rungOut]
@[simp] theorem State.lamp_directRung (c : Circuit) : (u.directRung k i p j).lamp c = (u.setLine k .busy).lamp c := by
  simp [State.directRung, State.rungOut]
@[simp] theorem State.link_directRung (l : LinkIx) : (u.directRung k i p j).link l = u.link l := by
  simp [State.directRung, State.rungOut]
@[simp] theorem State.directRung_rings : (u.directRung k i p j).rings = u.rings := by
  simp [State.directRung, State.rungOut]
@[simp] theorem State.directRung_free : (u.directRung k i p j).free = u.free := by
  simp [State.directRung, State.rungOut]
@[simp] theorem State.directRung_seconds : (u.directRung k i p j).seconds = u.seconds := by
  simp [State.directRung, State.rungOut]

end DirectRung

/-- The state in which an ANSWER has delivered the call of a DIRECT EXTEND. -/
def State.directAnswered (u : State) (k : Circuit) (i : Slot) (p : Pos) (j : LoopIx) : State :=
  ((u.directRung k i p j).send i (.join (u.call i).caller k) true).delivered i

theorem Lands.direct {u : State} {k : Circuit} {i : Slot} {n : Word} {p : Pos} {j : LoopIx} {h : Circuit} {d : CellIx}
    {schedule : List Nat} (ht : (u.call i).target = some { number := n, circuit := k }) (only : onlyTarget u k i)
    (hf : DirectFlies u p i j h d) (hr : u.room [.join (u.call i).caller k]) :
    Lands u k .answer schedule (u.directAnswered k i p j) := by
  have ringer : (Event.lineSet u k .busy).st.ringerOf k = some i :=
    State.ringerOf_eq (Call.targets_of ht) (Call.tiesTarget_iff.mpr (.inr (.inr (.inr ⟨hf.talking, hf.extend⟩)))) only
  let ended : Event := { Event.lineSet u k .busy with st := (u.setLine k .busy).endExtend p i .ok }
  have endedCall : ended.st.call i = { u.call i with extend := none } := by
    show ((u.setLine k .busy).endExtend p i .ok).call i = _
    rw [State.call_endExtend, if_pos rfl, State.call_setLine]
  have endedPos : (ended.st.pos p).loops = (u.pos p).loops := by
    show (((u.setLine k .busy).endExtend p i .ok).pos p).loops = _
    rw [State.pos_endExtend, if_pos rfl, State.pos_setLine]
  have left : ended.leaveLoop i = { ended with st := ended.st.setPos p ((ended.st.pos p).without j) } :=
    Event.leaveLoop_eq (by rw [endedCall]; exact hf.position) (by rw [endedCall]; exact hf.callLoop)
      (by rw [endedPos]; exact hf.loop)
  have ack : (Event.lineSet u k .busy).currentRing i k .ack =
      { Event.lineSet u k .busy with st := u.directRung k i p j, changed := [i] } := by
    unfold Event.currentRing
    rw [show ((Event.lineSet u k .busy).st.call i).state = .talking from hf.talking]
    unfold Event.directRing
    dsimp only
    rw [Event.answerExtendOf_eq (p := p) hf.extend hf.position]
    refine (congrArg (Event.ringOut · i) left).trans (Event.ringOut_eq _ ?_)
    dsimp only
    rw [State.call_setPos, endedCall]
    show (u.call i).state ≠ .free
    rw [hf.talking]
    decide
  have hcall := (u.call_directRung k i p j i).trans (if_pos rfl)
  have delivered := Event.targetAnswer_delivers (State.answeredCall_ringer ringer)
    (Call.awaits_iff.mpr ⟨Call.targets_of ht, .inr (.inl ⟨hf.talking, hf.extend⟩)⟩) ack
    (by dsimp only; rw [hcall]; rfl)
  have room : (u.directRung k i p j).room [.join (u.call i).caller k] := fun o ho => by
    rw [State.link_directRung]
    exact hr o ho
  rw [Event.deliver_eq (n := n) (k := k) (by dsimp only; rw [hcall]; rfl) (by dsimp only; rw [hcall]; exact ht)
    (by dsimp only; rw [hcall]; rfl) (by dsimp only; rw [hcall]; exact room)] at delivered
  dsimp only at delivered
  rw [hcall] at delivered
  refine ⟨_, delivered, rfl, rfl, nofun, fun m => ?_⟩
  unfold State.directAnswered State.delivered
  rw [State.link_setCall, State.link_send, State.link_directRung]
  rfl

theorem Polled.speaking {s u : State} {l : LinkIx} {a : Addr} {p : Pos} {i : Slot} {j : LoopIx} {h : Circuit}
    (hu : Polled s u l a) (k : Speaking s p i j h) : Speaking u p i j h where
  isOpen := by rw [hu.pos]; exact k.isOpen
  headset := by rw [hu.pos]; exact k.headset
  speaking := by rw [hu.pos]; exact k.speaking
  loop := by rw [hu.pos]; exact k.loop
  position := by rw [hu.call]; exact k.position
  callLoop := by rw [hu.call]; exact k.callLoop

theorem Polled.directFlies {s u : State} {l : LinkIx} {a : Addr} {p : Pos} {i : Slot} {j : LoopIx} {h : Circuit}
    {d : CellIx} (hu : Polled s u l a) (k : DirectFlies s p i j h d) : DirectFlies u p i j h d where
  toSpeaking := hu.speaking k.toSpeaking
  talking := by rw [hu.call]; exact k.talking
  extend := by rw [hu.call]; exact k.extend
  panel := by rw [hu.call, hu.pos]; exact k.panel

theorem answer_direct {s : State} {l : LinkIx} {f : Frame} {port : Fin 16} {k : Circuit} {i : Slot} {n : Word}
    {p : Pos} {j : LoopIx} {h : Circuit} {d : CellIx} (more : Bool) (orders : List (List Nat))
    (hr : TargetReports s l f port k i n) (hd : DirectFlies s p i j h d) (room : s.room [.join (s.call i).caller k]) :
    ∃ t, exec (.shelfAnswer l (reportOf more port .answer) orders) s = .next t ∧ reported s t l f k .busy ∧
      t.answered d .ok 0 ∧ (t.call i).state = .closing ∧ (t.call i).endReason = some .delivered ∧
      (t.call i).extend = none ∧ (t.call i).pending = (s.call i).pending + 1 ∧ offLoop s t p i j ∧
      (t.pos p).extend = none ∧ (t.pos p).extendCell = none ∧ t.rings = s.rings ∧
      queuedAfter s t [{ order := .join (s.call i).caller k, slot := some i, handover := true }] ∧
      Aside s t (· = i) (· = p) (fun _ => False) (· = k) := by
  obtain ⟨u, hu, taken⟩ := hr.toPollFlies.taken hr.circuit more orders .answer nofun
  obtain ⟨t, run, landed⟩ := taken _ (.direct (by rw [hu.call]; exact hr.target) (hu.onlyTarget hr.only)
    (hu.directFlies hd) (by rw [hu.call]; exact hu.room room))
  have hcall : (u.directAnswered k i p j).call i =
      { Call.enter { Call.enter { s.call i with extend := none } .ringingOut s.seconds with
          ringCount := 0, confirmed := true, pending := (s.call i).pending + 1 } .closing s.seconds with
        endReason := some .delivered } := by
    simp only [State.directAnswered, State.delivered, State.call_setCall_self, State.call_send, if_true,
      State.call_directRung, State.send_seconds, State.directRung_seconds, hu.call, hu.seconds]
    rfl
  have hpos : (u.directAnswered k i p j).pos p =
      Position.without { s.pos p with extend := none, extendCell := none } j := by
    simp [State.directAnswered, State.delivered, State.pos_directRung, hu.pos]
  have bare := landed.call_eq hcall (by exact nofun)
  have panel := (landed.pos p).trans (congrArg Position.bare hpos)
  refine ⟨t, run, landed.reported (by simp [State.directAnswered, State.delivered]),
    landed.answered d .ok 0 ?_, (congrArg Call.state bare).trans rfl, (congrArg Call.endReason bare).trans rfl,
    (congrArg Call.extend bare).trans rfl, (congrArg Call.pending bare).trans rfl,
    ⟨(congrArg Call.position bare).trans rfl, (congrArg Call.loop bare).trans rfl, (congrArg Call.origin bare).trans rfl,
      (congrArg Position.speaking panel).trans (if_pos hd.speaking),
      (congrArg (fun q => q.loops.get j) panel).trans (Table.get_set_self _ _ _),
      (congrArg (fun q => q.flash.get j) panel).trans (Table.get_set_self _ _ _),
      fun x hx => (congrArg (fun q => q.loops.get x) panel).trans (Table.get_set_ne _ _ (Ne.symm hx))⟩,
    (congrArg Position.extend panel).trans rfl, (congrArg Position.extendCell panel).trans rfl,
    landed.rings.trans (Eq.trans (by simp [State.directAnswered, State.delivered]) hu.rings),
    landed.queuedAfter hu (fun m => ?_), landed.aside hu (fun x hx => ?_) (fun x hx => ?_)
      (fun q _ => by simp [State.directAnswered, State.delivered]) (fun c hc => ?_)
      (by simp [State.directAnswered, State.delivered])⟩
  · have ended := State.endExtend_answered (u.setLine k .busy) p i .ok (by rw [State.setLine_mem, hu.mem]; exact hr.wf)
      (by rw [State.pos_setLine, hu.pos]; exact hd.panel.2)
    have regs : (u.directAnswered k i p j).regs = ((u.setLine k .busy).endExtend p i .ok).regs := by
      simp [State.directAnswered, State.delivered, State.directRung, State.rungOut]
    refine State.answered_congr ?_ ?_ ?_ (fun hf => ?_) ended
    · simp [State.directAnswered, State.delivered, State.directRung, State.rungOut]
    · simp [State.directAnswered, State.delivered, State.directRung, State.rungOut]
    · simp [State.directAnswered, State.delivered]
    · unfold State.flag at hf ⊢
      rw [regs]
      exact hf
  · simp [State.directAnswered, State.delivered, State.link_send, hu.call]
  · simp [State.directAnswered, State.delivered, State.call_send, State.call_directRung,
      State.call_setCall_ne _ _ (Ne.symm hx), Ne.symm hx]
  · simp [State.directAnswered, State.delivered, State.pos_directRung, Ne.symm hx]
  · simp [State.directAnswered, State.delivered, State.lamp_setLine_ne _ _ _ (Ne.symm hc)]

/-- The state in which an ANSWER has stood for the ACK of a camp ring: the call rings out, off the camp list. -/
def State.campRung (u : State) (k : Circuit) (i : Slot) : State :=
  (((u.setLine k .busy).leaveCamp i k).send i (.tone (u.call i).caller .ringback) false).rungOut i

/-- The state in which an ANSWER has delivered a camped call. -/
def State.campAnswered (u : State) (k : Circuit) (i : Slot) : State :=
  ((u.campRung k i).send i (.join (u.call i).caller k) true).delivered i

theorem State.call_campRung (u : State) (k : Circuit) (i x : Slot) :
    (u.campRung k i).call x =
      if i = x then
        { Call.enter { u.call x with ringPending := false, pending := (u.call x).pending + 1 } .ringingOut u.seconds with
          ringCount := 0, confirmed := true }
      else u.call x := by
  unfold State.campRung State.rungOut
  rw [State.call_setCall]
  split
  · next e => subst e; simp [State.call_send, State.call_leaveCamp]
  · next e => simp [State.call_send, State.call_leaveCamp, e]

theorem State.link_campRung (u : State) (k : Circuit) (i : Slot) (m : LinkIx) :
    (u.campRung k i).link m = { u.link m with
      queue := (u.link m).queue ++ List.filter (fun x => linkOf x.order.first == m)
        [{ order := .tone (u.call i).caller .ringback, slot := some i, handover := false }] } := by
  unfold State.campRung State.rungOut
  rw [State.link_setCall, State.link_send, State.link_leaveCamp, State.link_setLine]

theorem State.answeredCall_camped {t : State} {k : Circuit} {i : Slot} (hr : t.ringerOf k = none)
    (hc : (t.lamp k).camp = [i]) (hw : (t.call i).awaits k = true) : t.answeredCall k = some i := by
  unfold State.answeredCall
  rw [hr, hc]
  dsimp only
  rw [List.find?_cons, hw]

theorem Lands.camped {u : State} {k : Circuit} {i : Slot} {n : Word} {schedule : List Nat}
    (ht : (u.call i).target = some { number := n, circuit := k }) (only : onlyTarget u k i)
    (hs : (u.call i).state = .camped) (hp : (u.call i).ringPending = true) (hc : (u.lamp k).camp = [i])
    (hx : (u.call i).extend = none) (hr : u.room [.tone (u.call i).caller .ringback, .join (u.call i).caller k]) :
    Lands u k .answer schedule (u.campAnswered k i) := by
  have unrung : (Event.lineSet u k .busy).st.ringerOf k = none := State.ringerOf_none fun j hj => by
    by_cases hji : j = i
    · subst hji
      rw [← Bool.not_eq_true, Call.tiesTarget_iff]
      show ¬ ((u.call j).state = _ ∨ (u.call j).state = _ ∨ (u.call j).state = _ ∨ (u.call j).state = _ ∧ _)
      rw [hs]
      simp
    · rw [← Bool.not_eq_true]
      exact fun hties => only j hji (engages_iff.mpr ⟨hj, .inl hties⟩)
  have awaits : (u.call i).awaits k = true :=
    Call.awaits_iff.mpr ⟨Call.targets_of ht, .inr (.inr (.inr ⟨hs, hp⟩))⟩
  have answered : (Event.lineSet u k .busy).st.answeredCall k = some i :=
    State.answeredCall_camped unrung ((u.camp_setLine k .busy k).trans hc) awaits
  obtain ⟨running, space⟩ := hr _ List.mem_cons_self
  have ack : (Event.lineSet u k .busy).currentRing i k .ack =
      { Event.lineSet u k .busy with
        st := u.campRung k i, log := [(i, .tone (u.call i).caller .ringback)], changed := [i] } := by
    unfold Event.currentRing
    rw [show ((Event.lineSet u k .busy).st.call i).state = .camped from hs]
    unfold Event.campRing Event.issue
    dsimp only
    rw [Event.leaveCamp_eq (n := n) (k := k) ht]
    refine (congrArg (Event.ringOut · i) (Event.issueAs_send _ (o := .tone (u.call i).caller .ringback) (.inl rfl) running
      (Nat.lt_of_lt_of_le (Nat.lt_add_of_pos_right (Nat.succ_pos _)) space))).trans (Event.ringOut_eq _ ?_)
    dsimp only
    rw [State.call_send, if_pos rfl]
    show ((State.leaveCamp (u.setLine k .busy) i k).call i).state ≠ .free
    rw [State.call_leaveCamp, if_pos rfl]
    show (u.call i).state ≠ .free
    rw [hs]
    decide
  have hcall := (u.call_campRung k i i).trans (if_pos rfl)
  have delivered := Event.targetAnswer_delivers answered awaits ack (by dsimp only; rw [hcall]; rfl)
  have room : (u.campRung k i).room [.join (u.call i).caller k] :=
    State.room_send (t := (u.setLine k .busy).leaveCamp i k) hr
  rw [Event.deliver_eq (n := n) (k := k) (by dsimp only; rw [hcall]; rfl) (by dsimp only; rw [hcall]; exact ht)
    (by dsimp only; rw [hcall]; exact hx) (by dsimp only; rw [hcall]; exact room)] at delivered
  dsimp only at delivered
  rw [hcall] at delivered
  refine ⟨_, delivered, rfl, rfl, nofun, fun m => ?_⟩
  unfold State.campAnswered State.delivered
  rw [State.link_setCall, State.link_send, State.link_campRung]
  rfl

theorem answer_camped {s : State} {l : LinkIx} {f : Frame} {port : Fin 16} {k : Circuit} {i : Slot} {n : Word}
    (more : Bool) (orders : List (List Nat)) (h : TargetReports s l f port k i n) (hs : (s.call i).state = .camped)
    (hp : (s.call i).ringPending = true) (hc : (s.lamp k).camp = [i]) (hx : (s.call i).extend = none)
    (hr : s.room [.tone (s.call i).caller .ringback, .join (s.call i).caller k]) :
    ∃ t, exec (.shelfAnswer l (reportOf more port .answer) orders) s = .next t ∧ reported s t l f k .busy ∧
      (t.call i).state = .closing ∧ (t.call i).endReason = some .delivered ∧ (t.call i).timer = none ∧
      (t.call i).pending = (s.call i).pending + 2 ∧ (t.lamp k).camp = [] ∧ t.rings = s.rings ∧
      queuedAfter s t
        [{ order := .tone (s.call i).caller .ringback, slot := some i, handover := false },
          { order := .join (s.call i).caller k, slot := some i, handover := true }] ∧
      Aside s t (· = i) (fun _ => False) (fun _ => False) (· = k) := by
  obtain ⟨u, hu, taken⟩ := h.toPollFlies.taken h.circuit more orders .answer nofun
  obtain ⟨t, run, landed⟩ := taken _ (.camped (by rw [hu.call]; exact h.target) (hu.onlyTarget h.only)
    (by rw [hu.call]; exact hs) (by rw [hu.call]; exact hp) (by rw [hu.camp]; exact hc) (by rw [hu.call]; exact hx)
    (by rw [hu.call]; exact hu.room hr))
  have hcall : (u.campAnswered k i).call i =
      { Call.enter { Call.enter { s.call i with ringPending := false, pending := (s.call i).pending + 1 }
            .ringingOut s.seconds with
          ringCount := 0, confirmed := true, pending := (s.call i).pending + 2 } .closing s.seconds with
        endReason := some .delivered } := by
    simp only [State.campAnswered, State.delivered, State.call_setCall_self, State.call_send, if_true,
      State.call_campRung, State.send_seconds, hu.call, hu.seconds]
    simp only [State.campRung, State.rungOut, State.setCall_seconds, State.send_seconds, State.leaveCamp_seconds,
      State.setLine_seconds, hu.seconds]
    rfl
  have bare := landed.call_eq hcall (by exact nofun)
  have hlamp : ∀ c, (u.campAnswered k i).lamp c = ((u.setLine k .busy).leaveCamp i k).lamp c := fun c => by
    simp [State.campAnswered, State.delivered, State.campRung, State.rungOut]
  have self := (State.lamp_leaveCamp (u.setLine k .busy) i k k).trans (if_pos rfl)
  refine ⟨t, run, landed.reported (by rw [hlamp, self]; exact State.line_setLine _ _ _),
    (congrArg Call.state bare).trans rfl, (congrArg Call.endReason bare).trans rfl, (congrArg Call.timer bare).trans rfl,
    (congrArg Call.pending bare).trans rfl, ?_,
    landed.rings.trans (Eq.trans (by simp [State.campAnswered, State.delivered, State.campRung, State.rungOut]) hu.rings),
    landed.queuedAfter hu (fun m => ?_), landed.aside hu (fun x hx => ?_) (fun x _ => ?_) (fun q _ => ?_) (fun c hc => ?_) ?_⟩
  · rw [landed.camp, hlamp, self]
    simp [hu.camp, hc]
  · unfold State.campAnswered State.delivered
    rw [State.link_setCall, State.link_send, State.link_campRung, hu.call, List.append_assoc, ← List.filter_append]
    rfl
  · simp [State.campAnswered, State.delivered, State.call_send, State.call_campRung,
      State.call_setCall_ne _ _ (Ne.symm hx), Ne.symm hx]
  · simp [State.campAnswered, State.delivered, State.campRung, State.rungOut]
  · simp [State.campAnswered, State.delivered, State.campRung, State.rungOut]
  · rw [hlamp, State.lamp_leaveCamp, if_neg (Ne.symm hc), State.lamp_setLine_ne _ _ _ (Ne.symm hc)]
  · simp [State.campAnswered, State.delivered, State.campRung, State.rungOut]

end Sys2Proof.Machine
end

section
/-! SUPPORT. CLEAR and FAULT of a target (R95, R96, R147, R149), and the reports that change no call or ring for the head
of a camp list (R99, R143, R148). -/

namespace Sys2Proof.Machine

/-! ### The events of a report in the order the world gives (R145) -/

theorem Event.deliverAll_one (e : Event) (schedule : List Nat) (d : Delivery) :
    e.deliverAll schedule [] [d] = e.take d := by
  unfold Event.deliverAll
  show e.takeAll schedule [] [d] 1 = _
  unfold Event.takeAll
  have hk : schedule.headD 0 % 1 = 0 := Nat.mod_one _
  simp only [List.take_nil, List.nil_append, List.length_cons, List.length_nil, Nat.zero_add, hk]
  rfl

theorem Event.deliverAll_two (e : Event) (schedule : List Nat) (c d : Delivery) :
    e.deliverAll schedule [] [c, d] = (e.take c).take d ∨ e.deliverAll schedule [] [c, d] = (e.take d).take c := by
  have last : ∀ (x : Event) (ys : List Nat) (b : Delivery), x.takeAll ys [] [b] 1 = x.take b :=
    fun x ys b => x.deliverAll_one ys b
  have hk : schedule.headD 0 % 2 = 0 ∨ schedule.headD 0 % 2 = 1 := Nat.mod_two_eq_zero_or_one _
  have unfolded : e.deliverAll schedule [] [c, d] = e.takeAll schedule [] [c, d] 2 := rfl
  rw [unfolded, Event.takeAll]
  simp only [List.take_nil, List.nil_append, List.length_cons, List.length_nil, Nat.zero_add, Nat.reduceAdd]
  rcases hk with hk | hk
  · rw [hk]
    exact .inl (last _ _ _)
  · rw [hk]
    exact .inr (last _ _ _)

theorem State.callerOf_none {t : State} {k : Circuit} (h : ∀ i, (t.call i).state ≠ .free → (t.call i).caller ≠ k) :
    t.callerOf k = none := by
  unfold State.callerOf
  rw [List.find?_eq_none]
  intro i _ hi
  rw [Bool.and_eq_true, beq_iff_eq] at hi
  obtain ⟨live, caller⟩ := hi
  unfold Call.live at live
  exact h i (by simpa using live) caller

theorem State.isTarget_of {t : State} {k : Circuit} {i : Slot} (hs : (t.call i).state ≠ .free)
    (ht : (t.call i).targets k = true) : t.isTarget k = true := by
  unfold State.isTarget Call.live
  rw [List.any_eq_true]
  exact ⟨i, List.mem_finRange i, by simp [hs, ht]⟩

theorem State.isHeadset_false {t : State} {k : Circuit} (h : ∀ p, (t.pos p).headset ≠ some k) :
    t.isHeadset k = false := by
  unfold State.isHeadset
  rw [List.any_eq_false]
  intro p _
  simp [h p]

theorem report_clear_target {u : State} {k : Circuit} {i : Slot} {schedule : List Nat}
    (hc : ∀ m, (u.call m).state ≠ .free → (u.call m).caller ≠ k) (hs : (u.call i).state ≠ .free)
    (ht : (u.call i).targets k = true) :
    (Event.begin u).report k .clear schedule = (Event.lineSet u k .idle).targetClear k := by
  have events : (u.setLine k .idle).clearEvents k = [.targetClear k] := by
    unfold State.clearEvents
    rw [State.callerOf_none (t := u.setLine k .idle) hc, State.isTarget_of (t := u.setLine k .idle) hs ht]
    rfl
  show (Event.lineSet u k .idle).deliverAll schedule [] ((u.setLine k .idle).clearEvents k) = _
  rw [events, Event.deliverAll_one]
  rfl

theorem report_fault_target {u : State} {k : Circuit} {i : Slot} {schedule : List Nat}
    (hl : (u.lamp k).line ≠ .outOfService) (hc : ∀ m, (u.call m).state ≠ .free → (u.call m).caller ≠ k)
    (hh : ∀ p, (u.pos p).headset ≠ some k) (hs : (u.call i).state ≠ .free) (ht : (u.call i).targets k = true) :
    (Event.begin u).report k .fault schedule = (Event.lineSet u k .outOfService).targetFault k := by
  have events : (u.setLine k .outOfService).faultEvents k .pathFault = [.targetFault k] := by
    unfold State.faultEvents
    rw [State.callerOf_none (t := u.setLine k .outOfService) hc, State.isTarget_of (t := u.setLine k .outOfService) hs ht,
      State.isHeadset_false (t := u.setLine k .outOfService) hh]
    rfl
  have taken : (Event.begin u).report k .fault schedule =
      (Event.lineSet u k .outOfService).deliverAll schedule [] ((u.setLine k .outOfService).faultEvents k .pathFault) :=
    if_neg hl
  rw [taken, events, Event.deliverAll_one]
  rfl

/-! ### A consultation that ends (R95, R96) -/

/-- The orders that give the caller of a consultation back to the attendant. -/
def backFrom (c : Call) (h k : Circuit) : List ShelfOrder := [.part h k, .join c.caller h, .tone c.caller .quiet]

theorem consult_orders {t : State} {p : Pos} {i : Slot} {j : LoopIx} {h k : Circuit} {n : Word}
    (hp : Speaking t p i j h) (ht : (t.call i).target = some { number := n, circuit := k }) :
    headsetTarget t (t.call i) .part ++ backOrders t (t.call i) = backFrom (t.call i) h k := by
  have headset : t.headsetOf (t.call i) = some h := by
    unfold State.headsetOf
    rw [hp.position]
    exact hp.headset
  unfold headsetTarget backOrders
  rw [headset, ht]
  rfl

theorem Speaking.setLine {u : State} {p : Pos} {i : Slot} {j : LoopIx} {h : Circuit} (hp : Speaking u p i j h)
    (k : Circuit) (x : LineState) : Speaking (u.setLine k x) p i j h :=
  ⟨hp.isOpen, hp.headset, hp.speaking, hp.loop, hp.position, hp.callLoop⟩

/-- A consulting call is TALKING on its loop again (R95, R96). -/
def State.backToTalk (t : State) (i : Slot) : State := t.setCall i ((t.call i).enter .talking t.seconds)

theorem Lands.consultCleared {u : State} {k : Circuit} {i : Slot} {n : Word} {p : Pos} {j : LoopIx} {h : Circuit}
    {schedule : List Nat} (ht : (u.call i).target = some { number := n, circuit := k }) (only : onlyTarget u k i)
    (hs : (u.call i).state = .consultTalking) (hp : Speaking u p i j h) (hc : (u.lamp k).camp = [])
    (hn : ∀ m, (u.call m).state ≠ .free → (u.call m).caller ≠ k) (hr : u.room (backFrom (u.call i) h k)) :
    Lands u k .clear schedule (((u.setLine k .idle).sendAll i (backFrom (u.call i) h k)).backToTalk i) := by
  have ringer : (Event.lineSet u k .idle).st.ringerOf k = some i :=
    State.ringerOf_eq (Call.targets_of ht) (Call.tiesTarget_iff.mpr (.inr (.inl hs))) only
  have orders : headsetTarget (u.setLine k .idle) (u.call i) .part ++ backOrders (u.setLine k .idle) (u.call i) =
      backFrom (u.call i) h k := consult_orders (hp.setLine k .idle) ht
  have self : ((u.setLine k .idle).sendAll i (backFrom (u.call i) h k)).call i =
      { u.call i with pending := (u.call i).pending + 3 } := (State.call_sendAll _ _ _ _).trans (if_pos rfl)
  have body : (Event.begin u).report k .clear schedule =
      Event.backToTalk { Event.lineSet u k .idle with
        st := (u.setLine k .idle).sendAll i (backFrom (u.call i) h k),
        log := [] ++ (backFrom (u.call i) h k).map fun o => (i, o) } i := by
    rw [report_clear_target hn (by rw [hs]; decide) (Call.targets_of ht)]
    unfold Event.targetClear
    rw [ringer]
    dsimp only
    rw [if_pos (show ((Event.lineSet u k .idle).st.call i).state = .consultTalking from hs)]
    refine congrArg (Event.backToTalk · i) ?_
    refine (congrArg (Event.issueList _ i) orders).trans ?_
    exact Event.issueAll_send _ (Event.lineSet u k .idle) hr fun _ _ => .inl rfl
  unfold Event.backToTalk at body
  rw [Event.toState_eq _ (by dsimp only; rw [self]; show (u.call i).state ≠ _; rw [hs]; decide)] at body
  refine ⟨_, body, rfl, rfl, ?_, fun m => ?_⟩
  · dsimp only
    rw [self]
    intro c hck
    have : c = k := by
      simpa [Event.lineSet, Event.begin, CallState.keepsTarget, Call.letsGo, ht, hs] using hck
    subst this
    exact .inl (by simp [State.backToTalk, hc])
  · unfold State.backToTalk
    rw [State.link_setCall, State.link_sendAll]
    rfl

theorem clear_consult {s : State} {l : LinkIx} {f : Frame} {port : Fin 16} {k : Circuit} {i : Slot} {n : Word}
    {p : Pos} {j : LoopIx} {h : Circuit} (more : Bool) (orders : List (List Nat)) (hr : TargetReports s l f port k i n)
    (hs : (s.call i).state = .consultTalking) (hp : Speaking s p i j h) (hc : (s.lamp k).camp = [])
    (hn : ∀ m, (s.call m).state ≠ .free → (s.call m).caller ≠ k)
    (room : s.room [.part h k, .join (s.call i).caller h, .tone (s.call i).caller .quiet]) :
    ∃ t, exec (.shelfAnswer l (reportOf more port .clear) orders) s = .next t ∧ reported s t l f k .idle ∧
      (t.call i).bare =
        { onLoop (s.call i) .talking s.seconds with target := none, pending := (s.call i).pending + 3 } ∧
      (t.pos p).speaking = some j ∧ (t.pos p).loops.get j = some i ∧ t.rings = s.rings ∧
      queuedAfter s t (entries i [.part h k, .join (s.call i).caller h, .tone (s.call i).caller .quiet]) ∧
      Aside s t (· = i) (fun _ => False) (fun _ => False) (· = k) := by
  obtain ⟨u, hu, taken⟩ := hr.toPollFlies.taken hr.circuit more orders .clear nofun
  obtain ⟨t, run, landed⟩ := taken _ (.consultCleared (p := p) (j := j) (h := h) (by rw [hu.call]; exact hr.target)
    (hu.onlyTarget hr.only) (by rw [hu.call]; exact hs) (hu.speaking hp) (by rw [hu.camp]; exact hc)
    (fun m hm => by rw [hu.call] at hm ⊢; exact hn m hm) (by rw [hu.call]; exact hu.room room))
  have hcall : (((u.setLine k .idle).sendAll i (backFrom (u.call i) h k)).backToTalk i).call i =
      Call.enter { s.call i with pending := (s.call i).pending + 3 } .talking s.seconds := by
    simp only [State.backToTalk, State.call_setCall_self, State.call_sendAll, if_true, State.call_setLine,
      State.sendAll_seconds, State.setLine_seconds, hu.call, hu.seconds]
    rfl
  have panel : (t.pos p).bare = (s.pos p).bare := by
    rw [landed.pos]
    simp [State.backToTalk, hu.pos]
  refine ⟨t, run, landed.reported (by simp [State.backToTalk]), ?_, (congrArg Position.speaking panel).trans hp.speaking,
    (congrArg (fun q => q.loops.get j) panel).trans hp.loop, landed.rings.trans (Eq.trans ?_ hu.rings),
    landed.queuedAfter hu (fun m => ?_), landed.aside hu (fun x hx => ?_) (fun x _ => by simp [State.backToTalk])
      (fun q _ => by simp [State.backToTalk]) (fun c hc => ?_) (by simp [State.backToTalk])⟩
  · rw [landed.call_eq hcall (by rw [Call.state_enter]; decide)]
    simp [onLoop, Call.enter, Call.bare, hs, CallState.hasPosition, CallState.hasLoop, CallState.keepsTarget,
      CallState.inRoster, CallState.keepsAnnouncer, keepsRinging]
  · exact State.rings_sendAll _ _ _ (by simp [backFrom, ShelfOrder.isRing])
  · unfold State.backToTalk
    rw [State.link_setCall, State.link_sendAll, hu.call]
    rfl
  · simp [State.backToTalk, State.call_sendAll, State.call_setCall_ne _ _ (Ne.symm hx), Ne.symm hx]
  · simp [State.backToTalk, State.lamp_setLine_ne _ _ _ (Ne.symm hc)]

/-! ### A target that goes OUT_OF_SERVICE (R96) -/

/-- With no EXTEND in flight there is nothing to end. -/
theorem State.endExtend_idle {t : State} {p : Pos} {i : Slot} {code : ResultCode} (hx : (t.call i).extend = none)
    (hp : (t.pos p).extend = none) (hc : (t.pos p).extendCell = none) : t.endExtend p i code = t := by
  have without : ∀ q : Position, q.extend = none → q.extendCell = none →
      { q with extend := none, extendCell := none } = q := fun q hx hc => by
    cases q; cases hx; cases hc; rfl
  have panel := without _ hp hc
  have call : ({ t.call i with extend := none } : Call) = t.call i := by rw [← hx]
  unfold State.endExtend
  rw [hc, panel, call]
  unfold State.answerCell
  dsimp only
  have pos : t.setPos p (t.pos p) = t := by
    unfold State.setPos State.pos
    rw [Table.set_get]
  rw [pos, State.setCall_call]

/-- The EXTEND in flight for a call on a loop is answered, if there is one. -/
theorem Event.answerExtendOf_endExtend {e : Event} {i : Slot} {p : Pos} {code : ResultCode}
    (hp : (e.st.call i).position = some p) (hx : (e.st.pos p).extend = (e.st.call i).extend)
    (hc : (e.st.call i).extend = none → (e.st.pos p).extendCell = none) :
    e.answerExtendOf i code = { e with st := e.st.endExtend p i code } := by
  by_cases h : (e.st.call i).extend = none
  · rw [Event.answerExtendOf_none h, State.endExtend_idle h (hx.trans h) (hc h)]
  · exact Event.answerExtendOf_eq h hp

/-- A FAULT of the circuit that a call rings or consults, on which nobody camps. -/
theorem Event.targetFault_ringer {e e' : Event} {k : Circuit} {i : Slot} (hr : e.st.ringerOf k = some i)
    (he : e.ringerFault i k = e') (hc : (e'.st.lamp k).camp = []) : e.targetFault k = e' := by
  unfold Event.targetFault
  rw [hr]
  dsimp only
  rw [he, hc]
  rfl

/-- The state in which the FAULT of a consulted target has given the caller back to the attendant. -/
def State.consultLost (u : State) (k : Circuit) (i : Slot) (p : Pos) (h : Circuit) : State :=
  (((u.setLine k .outOfService).sendAll i (backFrom (u.call i) h k)).endExtend p i .outOfService).backToTalk i

theorem State.call_consultLost (u : State) (k : Circuit) (i : Slot) (p : Pos) (h : Circuit) (x : Slot) :
    (u.consultLost k i p h).call x =
      if i = x then
        Call.enter { u.call x with pending := (u.call x).pending + 3, extend := none } .talking u.seconds
      else u.call x := by
  unfold State.consultLost State.backToTalk
  rw [State.call_setCall]
  split
  · next e =>
    subst e
    simp only [State.call_endExtend, State.call_sendAll, State.call_setLine, State.endExtend_seconds,
      State.sendAll_seconds, State.setLine_seconds, if_true]
    rfl
  · next e => simp [State.call_endExtend, State.call_sendAll, e]

theorem State.pos_consultLost (u : State) (k : Circuit) (i : Slot) (p : Pos) (h : Circuit) (x : Pos) :
    (u.consultLost k i p h).pos x =
      if p = x then { u.pos x with extend := none, extendCell := none } else u.pos x := by
  unfold State.consultLost State.backToTalk
  rw [State.pos_setCall, State.pos_endExtend, State.pos_sendAll, State.pos_setLine]

theorem Lands.consultLost {u : State} {k : Circuit} {i : Slot} {n : Word} {p : Pos} {j : LoopIx} {h : Circuit}
    {schedule : List Nat} (ht : (u.call i).target = some { number := n, circuit := k }) (only : onlyTarget u k i)
    (hl : (u.lamp k).line ≠ .outOfService) (hn : ∀ m, (u.call m).state ≠ .free → (u.call m).caller ≠ k)
    (hh : ∀ x, (u.pos x).headset ≠ some k) (hc : (u.lamp k).camp = []) (hp : Speaking u p i j h)
    (hx : (u.pos p).extend = (u.call i).extend) (hcell : (u.call i).extend = none → (u.pos p).extendCell = none)
    (hs : (u.call i).state = .consultRinging ∨ (u.call i).state = .consultTalking)
    (hsx : (u.call i).state = .consultTalking → (u.call i).extend = none) (hr : u.room (backFrom (u.call i) h k))
    (hreach : reachable u (backFrom (u.call i) h k)) :
    Lands u k .fault schedule (u.consultLost k i p h) := by
  have live : (u.call i).state ≠ .free := by rcases hs with hs | hs <;> rw [hs] <;> decide
  have ties : (u.call i).tiesTarget = true :=
    Call.tiesTarget_iff.mpr (hs.elim .inl fun h => .inr (.inl h))
  have ringer : (Event.lineSet u k .outOfService).st.ringerOf k = some i :=
    State.ringerOf_eq (Call.targets_of ht) ties only
  have orders : headsetTarget (u.setLine k .outOfService) (u.call i) .part ++
      backOrders (u.setLine k .outOfService) (u.call i) = backFrom (u.call i) h k :=
    consult_orders (hp.setLine k .outOfService) ht
  let sent : Event := { Event.lineSet u k .outOfService with
    st := (u.setLine k .outOfService).sendAll i (backFrom (u.call i) h k),
    log := [] ++ (backFrom (u.call i) h k).map fun o => (i, o) }
  have sentCall : sent.st.call i = { u.call i with pending := (u.call i).pending + 3 } :=
    (State.call_sendAll _ _ _ _).trans (if_pos rfl)
  have sentPos : sent.st.pos p = u.pos p := State.pos_sendAll _ _ _ _
  have issued : (Event.lineSet u k .outOfService).issueSpared i (headsetTarget (u.setLine k .outOfService) (u.call i) .part ++
      backOrders (u.setLine k .outOfService) (u.call i)) = sent := by
    rw [orders]
    exact Event.issueAll_send _ (Event.lineSet u k .outOfService) hr fun o ho => .inr (hreach o ho)
  have answered : sent.answerExtendOf i .outOfService = { sent with st := sent.st.endExtend p i .outOfService } :=
    Event.answerExtendOf_endExtend (by rw [sentCall]; exact hp.position) (by rw [sentCall, sentPos]; exact hx)
      (by rw [sentCall, sentPos]; exact hcell)
  have fault : (Event.lineSet u k .outOfService).ringerFault i k =
      Event.toState { sent with st := sent.st.endExtend p i .outOfService } i .talking := by
    have state : ∀ st, (u.call i).state = st → ((Event.lineSet u k .outOfService).st.call i).state = st := fun _ => id
    unfold Event.ringerFault
    dsimp only
    rcases hs with hs | hs
    · rw [state _ hs]
      dsimp only
      exact (congrArg (fun e => (e.answerExtendOf i .outOfService).backToTalk i) issued).trans
        (congrArg (Event.backToTalk · i) answered)
    · rw [state _ hs]
      dsimp only
      refine (congrArg (Event.backToTalk · i) issued).trans (congrArg (Event.backToTalk · i) ?_)
      rw [← answered, Event.answerExtendOf_none (by rw [sentCall]; exact hsx hs)]
  have endedCall : (sent.st.endExtend p i .outOfService).call i =
      { u.call i with pending := (u.call i).pending + 3, extend := none } := by
    rw [State.call_endExtend, if_pos rfl, sentCall]
  rw [Event.toState_eq _ (by dsimp only; rw [endedCall]; exact live)] at fault
  have camp : ((u.consultLost k i p h).lamp k).camp = [] := by
    simp [State.consultLost, State.backToTalk, hc]
  have body := (report_fault_target (schedule := schedule) hl hn hh live (Call.targets_of ht)).trans
    (Event.targetFault_ringer ringer fault camp)
  refine ⟨_, body, rfl, rfl, ?_, fun m => ?_⟩
  · dsimp only
    rw [endedCall]
    intro c hck
    have : c = k := by
      rcases hs with hs | hs <;>
      simpa [sent, Event.lineSet, Event.begin, CallState.keepsTarget, Call.letsGo, ht, hs] using hck
    subst this
    exact .inl camp
  · unfold State.consultLost State.backToTalk
    rw [State.link_setCall, State.link_endExtend, State.link_sendAll]
    rfl

theorem fault_consult {s : State} {l : LinkIx} {f : Frame} {port : Fin 16} {k : Circuit} {i : Slot} {n : Word}
    {p : Pos} {j : LoopIx} {h : Circuit} (more : Bool) (orders : List (List Nat)) (hr : TargetReports s l f port k i n)
    (hl : (s.lamp k).line ≠ .outOfService) (hn : ∀ m, (s.call m).state ≠ .free → (s.call m).caller ≠ k)
    (hh : ∀ x, (s.pos x).headset ≠ some k) (hc : (s.lamp k).camp = []) (hp : Speaking s p i j h)
    (hx : (s.pos p).extend = (s.call i).extend) (hcell : (s.call i).extend = none → (s.pos p).extendCell = none)
    (hs : (s.call i).state = .consultRinging ∨ (s.call i).state = .consultTalking)
    (hsx : (s.call i).state = .consultTalking → (s.call i).extend = none)
    (room : s.room [.part h k, .join (s.call i).caller h, .tone (s.call i).caller .quiet])
    (hreach : reachable s [.part h k, .join (s.call i).caller h]) :
    ∃ t, exec (.shelfAnswer l (reportOf more port .fault) orders) s = .next t ∧ reported s t l f k .outOfService ∧
      extendAnswered s t p .outOfService ∧
      (t.call i).bare =
        { onLoop (s.call i) .talking s.seconds with
          target := none, extend := none, pending := (s.call i).pending + 3 } ∧
      (t.pos p).bare = { (s.pos p).bare with extend := none, extendCell := none } ∧ t.rings = s.rings ∧
      queuedAfter s t (entries i [.part h k, .join (s.call i).caller h, .tone (s.call i).caller .quiet]) ∧
      Aside s t (· = i) (· = p) (fun _ => False) (· = k) := by
  have reach : reachable s (backFrom (s.call i) h k) := fun o ho => by
    simp only [backFrom, List.mem_cons, List.not_mem_nil, or_false] at ho
    rcases ho with rfl | rfl | rfl
    · exact hreach _ List.mem_cons_self
    · exact hreach _ (List.mem_cons_of_mem _ List.mem_cons_self)
    · exact hreach (.join (s.call i).caller h) (List.mem_cons_of_mem _ List.mem_cons_self)
  obtain ⟨u, hu, taken⟩ := hr.toPollFlies.taken hr.circuit more orders .fault nofun
  obtain ⟨t, run, landed⟩ := taken _ (.consultLost (p := p) (j := j) (h := h) (by rw [hu.call]; exact hr.target)
    (hu.onlyTarget hr.only) (by rw [hu.line]; exact hl) (fun m hm => by rw [hu.call] at hm ⊢; exact hn m hm)
    (fun x => by rw [hu.pos]; exact hh x) (by rw [hu.camp]; exact hc) (hu.speaking hp)
    (by rw [hu.pos, hu.call]; exact hx) (by rw [hu.pos, hu.call]; exact hcell) (by rw [hu.call]; exact hs)
    (by rw [hu.call]; exact hsx) (by rw [hu.call]; exact hu.room room) (by rw [hu.call]; exact hu.reachable reach))
  have hcall := (u.call_consultLost k i p h i).trans (if_pos rfl)
  rw [hu.call, hu.seconds] at hcall
  refine ⟨t, run, landed.reported (by simp [State.consultLost, State.backToTalk]), fun d hpx hd => ?_, ?_, ?_,
    landed.rings.trans (Eq.trans ?_ hu.rings), landed.queuedAfter hu (fun m => ?_),
    landed.aside hu (fun x hx => ?_) (fun x hx => ?_) (fun q _ => by simp [State.consultLost, State.backToTalk])
      (fun c hc => ?_) (by simp [State.consultLost, State.backToTalk])⟩
  · refine landed.answered d _ _ (State.answered_congr rfl rfl rfl id (State.endExtend_answered _ p i .outOfService ?_ ?_))
    · rw [State.sendAll_mem, State.setLine_mem, hu.mem]; exact hr.wf
    · rw [State.pos_sendAll, State.pos_setLine, hu.pos]; exact hd
  · rw [landed.call_eq hcall (by rw [Call.state_enter]; decide)]
    rcases hs with hs | hs <;>
    simp [onLoop, Call.enter, Call.bare, hs, CallState.hasPosition, CallState.hasLoop, CallState.keepsTarget,
      CallState.inRoster, CallState.keepsAnnouncer, keepsRinging]
  · rw [landed.pos, State.pos_consultLost, if_pos rfl, hu.pos]
    rfl
  · simp only [State.consultLost, State.backToTalk, State.setCall_rings, State.endExtend_rings]
    exact State.rings_sendAll _ _ _ (by simp [backFrom, ShelfOrder.isRing])
  · unfold State.consultLost State.backToTalk
    rw [State.link_setCall, State.link_endExtend, State.link_sendAll, hu.call]
    rfl
  · rw [State.call_consultLost, if_neg (Ne.symm hx)]
  · rw [State.pos_consultLost, if_neg (Ne.symm hx)]
  · simp [State.consultLost, State.backToTalk, State.lamp_setLine_ne _ _ _ (Ne.symm hc)]

/-- The orders that give the caller of a DIRECT EXTEND back to the attendant. -/
def backTo (c : Call) (h : Circuit) : List ShelfOrder := [.join c.caller h, .tone c.caller .quiet]

theorem direct_orders {t : State} {p : Pos} {i : Slot} {j : LoopIx} {h : Circuit} (hp : Speaking t p i j h) :
    backOrders t (t.call i) = backTo (t.call i) h := by
  have headset : t.headsetOf (t.call i) = some h := by
    unfold State.headsetOf
    rw [hp.position]
    exact hp.headset
  unfold backOrders
  rw [headset]
  rfl

/-- The state in which the FAULT of the target of a DIRECT EXTEND has given the caller back to the attendant. -/
def State.directLost (u : State) (k : Circuit) (i : Slot) (p : Pos) (h : Circuit) : State :=
  let t := ((u.setLine k .outOfService).sendAll i (backTo (u.call i) h)).endExtend p i .outOfService
  t.setCall i { t.call i with target := none }

theorem State.call_directLost (u : State) (k : Circuit) (i : Slot) (p : Pos) (h : Circuit) (x : Slot) :
    (u.directLost k i p h).call x =
      if i = x then
        { u.call x with pending := (u.call x).pending + 2, extend := none, target := none }
      else u.call x := by
  unfold State.directLost
  rw [State.call_setCall]
  split
  · next e =>
    subst e
    simp only [State.call_endExtend, State.call_sendAll, State.call_setLine, if_true]
    rfl
  · next e => simp [State.call_endExtend, State.call_sendAll, e]

theorem State.pos_directLost (u : State) (k : Circuit) (i : Slot) (p : Pos) (h : Circuit) (x : Pos) :
    (u.directLost k i p h).pos x =
      if p = x then { u.pos x with extend := none, extendCell := none } else u.pos x := by
  unfold State.directLost
  rw [State.pos_setCall, State.pos_endExtend, State.pos_sendAll, State.pos_setLine]

theorem Lands.directLost {u : State} {k : Circuit} {i : Slot} {n : Word} {p : Pos} {j : LoopIx} {h : Circuit} {d : CellIx}
    {schedule : List Nat} (ht : (u.call i).target = some { number := n, circuit := k }) (only : onlyTarget u k i)
    (hl : (u.lamp k).line ≠ .outOfService) (hn : ∀ m, (u.call m).state ≠ .free → (u.call m).caller ≠ k)
    (hh : ∀ x, (u.pos x).headset ≠ some k) (hc : (u.lamp k).camp = []) (hd : DirectFlies u p i j h d)
    (hr : u.room (backTo (u.call i) h)) (hreach : reachable u (backTo (u.call i) h)) :
    Lands u k .fault schedule (u.directLost k i p h) := by
  have ringer : (Event.lineSet u k .outOfService).st.ringerOf k = some i :=
    State.ringerOf_eq (Call.targets_of ht) (Call.tiesTarget_iff.mpr (.inr (.inr (.inr ⟨hd.talking, hd.extend⟩)))) only
  let sent : Event := { Event.lineSet u k .outOfService with
    st := (u.setLine k .outOfService).sendAll i (backTo (u.call i) h),
    log := [] ++ (backTo (u.call i) h).map fun o => (i, o) }
  have sentCall : sent.st.call i = { u.call i with pending := (u.call i).pending + 2 } :=
    (State.call_sendAll _ _ _ _).trans (if_pos rfl)
  have issued : (Event.lineSet u k .outOfService).issueSpared i (backOrders (u.setLine k .outOfService) (u.call i)) =
      sent := by
    refine (congrArg (Event.issueSpared _ i) (direct_orders (hd.toSpeaking.setLine k .outOfService))).trans ?_
    exact Event.issueAll_send _ (Event.lineSet u k .outOfService) hr fun o ho => .inr (hreach o ho)
  have fault : (Event.lineSet u k .outOfService).ringerFault i k =
      Event.dropTarget { sent with st := sent.st.endExtend p i .outOfService } i := by
    unfold Event.ringerFault
    dsimp only
    rw [show ((Event.lineSet u k .outOfService).st.call i).state = .talking from hd.talking]
    dsimp only
    refine (congrArg (fun e => (e.answerExtendOf i .outOfService).dropTarget i) issued).trans
      (congrArg (Event.dropTarget · i) ?_)
    exact Event.answerExtendOf_eq (by rw [sentCall]; exact hd.extend) (by rw [sentCall]; exact hd.position)
  rw [Event.dropTarget_eq] at fault
  have camp : ((u.directLost k i p h).lamp k).camp = [] := by simp [State.directLost, hc]
  have body := (report_fault_target (schedule := schedule) hl hn hh (by rw [hd.talking]; decide)
    (Call.targets_of ht)).trans (Event.targetFault_ringer ringer fault camp)
  refine ⟨_, body, rfl, rfl, ?_, fun m => ?_⟩
  · have endedCall : (sent.st.endExtend p i .outOfService).call i =
        { u.call i with pending := (u.call i).pending + 2, extend := none } := by
      rw [State.call_endExtend, if_pos rfl, sentCall]
    dsimp only
    rw [endedCall]
    intro c hck
    have : c = k := by
      simpa [sent, Event.lineSet, Event.begin, Call.letsGo, ht, hd.talking] using hck
    subst this
    exact .inl camp
  · unfold State.directLost
    rw [State.link_setCall, State.link_endExtend, State.link_sendAll]
    rfl

theorem fault_direct {s : State} {l : LinkIx} {f : Frame} {port : Fin 16} {k : Circuit} {i : Slot} {n : Word}
    {p : Pos} {j : LoopIx} {h : Circuit} {d : CellIx} (more : Bool) (orders : List (List Nat))
    (hr : TargetReports s l f port k i n) (hl : (s.lamp k).line ≠ .outOfService)
    (hn : ∀ m, (s.call m).state ≠ .free → (s.call m).caller ≠ k) (hh : ∀ x, (s.pos x).headset ≠ some k)
    (hc : (s.lamp k).camp = []) (hd : DirectFlies s p i j h d)
    (room : s.room [.join (s.call i).caller h, .tone (s.call i).caller .quiet])
    (hreach : reachable s [.join (s.call i).caller h]) :
    ∃ t, exec (.shelfAnswer l (reportOf more port .fault) orders) s = .next t ∧ reported s t l f k .outOfService ∧
      t.answered d .outOfService 0 ∧
      (t.call i).bare =
        { (s.call i).bare with target := none, extend := none, pending := (s.call i).pending + 2 } ∧
      (t.pos p).bare = { (s.pos p).bare with extend := none, extendCell := none } ∧ t.rings = s.rings ∧
      queuedAfter s t (entries i [.join (s.call i).caller h, .tone (s.call i).caller .quiet]) ∧
      Aside s t (· = i) (· = p) (fun _ => False) (· = k) := by
  have reach : reachable s (backTo (s.call i) h) := fun o ho => by
    simp only [backTo, List.mem_cons, List.not_mem_nil, or_false] at ho
    rcases ho with rfl | rfl
    · exact hreach _ List.mem_cons_self
    · exact hreach (.join (s.call i).caller h) List.mem_cons_self
  obtain ⟨u, hu, taken⟩ := hr.toPollFlies.taken hr.circuit more orders .fault nofun
  obtain ⟨t, run, landed⟩ := taken _ (.directLost (p := p) (j := j) (h := h) (by rw [hu.call]; exact hr.target)
    (hu.onlyTarget hr.only) (by rw [hu.line]; exact hl) (fun m hm => by rw [hu.call] at hm ⊢; exact hn m hm)
    (fun x => by rw [hu.pos]; exact hh x) (by rw [hu.camp]; exact hc) (hu.directFlies hd)
    (by rw [hu.call]; exact hu.room room) (by rw [hu.call]; exact hu.reachable reach))
  have hcall := (u.call_directLost k i p h i).trans (if_pos rfl)
  rw [hu.call] at hcall
  refine ⟨t, run, landed.reported (by simp [State.directLost]), ?_, ?_, ?_,
    landed.rings.trans (Eq.trans ?_ hu.rings), landed.queuedAfter hu (fun m => ?_),
    landed.aside hu (fun x hx => ?_) (fun x hx => ?_) (fun q _ => by simp [State.directLost])
      (fun c hc => ?_) (by simp [State.directLost])⟩
  · refine landed.answered d _ _ (State.answered_congr rfl rfl rfl id (State.endExtend_answered _ p i .outOfService ?_ ?_))
    · rw [State.sendAll_mem, State.setLine_mem, hu.mem]; exact hr.wf
    · rw [State.pos_sendAll, State.pos_setLine, hu.pos]; exact hd.panel.2
  · rw [landed.call_eq hcall (by show (s.call i).state ≠ _; rw [hd.talking]; decide)]
    rfl
  · rw [landed.pos, State.pos_directLost, if_pos rfl, hu.pos]
    rfl
  · simp only [State.directLost, State.setCall_rings, State.endExtend_rings]
    exact State.rings_sendAll _ _ _ (by simp [backTo, ShelfOrder.isRing])
  · unfold State.directLost
    rw [State.link_setCall, State.link_endExtend, State.link_sendAll, hu.call]
    rfl
  · rw [State.call_directLost, if_neg (Ne.symm hx)]
  · rw [State.pos_directLost, if_neg (Ne.symm hx)]
  · simp [State.directLost, State.lamp_setLine_ne _ _ _ (Ne.symm hc)]

/-! ### Reports that change no call, and the ring for the head of a camp list (R99, R143, R148) -/

/-- A report that sets the line and does nothing else. -/
theorem Lands.lineOnly {u : State} {k : Circuit} {r : ReportKind} {schedule : List Nat}
    (h : (Event.begin u).report k r schedule = Event.lineSet u k r.line) :
    Lands u k r schedule (u.setLine k r.line) := ⟨_, h, rfl, rfl, nofun, fun _ => rfl⟩

/-- An ANSWER for no call that rings. -/
theorem Event.targetAnswer_none {e : Event} {k : Circuit}
    (h : ∀ i, engages (e.st.call i) k → (e.st.call i).state = .consultTalking ∨
      ((e.st.call i).state = .camped ∧ (e.st.call i).ringPending = false)) : e.targetAnswer k = e := by
  have awaits : ∀ i, (e.st.call i).awaits k = false := fun i => by
    rw [← Bool.not_eq_true]
    intro hw
    obtain ⟨ht, hs⟩ := Call.awaits_iff.mp hw
    have hengages : engages (e.st.call i) k := engages_iff.mpr ⟨ht, by rw [Call.tiesTarget_iff]; tauto⟩
    rcases h i hengages with h1 | ⟨h1, h2⟩
    · rw [h1] at hs
      simp at hs
    · rw [h1, h2] at hs
      simp at hs
  unfold Event.targetAnswer
  cases ha : e.st.answeredCall k with
  | none => rfl
  | some i =>
    dsimp only
    rw [awaits i, if_neg (by decide)]
    have state : (e.st.call i).state = .consultTalking := by
      unfold State.answeredCall at ha
      split at ha
      · next j hj =>
        cases ha
        have found := List.find?_some hj
        rw [Bool.and_eq_true] at found
        rcases h i (engages_iff.mpr ⟨found.1, .inl found.2⟩) with h1 | ⟨h1, -⟩
        · exact h1
        · have ties := Call.tiesTarget_iff.mp found.2
          rw [h1] at ties
          simp at ties
      · have found := List.find?_some ha
        rw [awaits i] at found
        cases found
    rw [state]

/-- A CLEAR for no consultation. -/
theorem Event.targetClear_none {e : Event} {k : Circuit}
    (h : ∀ i n, (e.st.call i).target = some { number := n, circuit := k } → (e.st.call i).state ≠ .consultTalking) :
    e.targetClear k = e := by
  unfold Event.targetClear
  cases hr : e.st.ringerOf k with
  | none => rfl
  | some i =>
    have found := List.find?_some hr
    rw [Bool.and_eq_true] at found
    obtain ⟨⟨n, hn⟩, -⟩ := engages_iff.mpr ⟨found.1, .inl found.2⟩
    exact if_neg (h i n hn)

theorem report_only_line {s : State} {l : LinkIx} {f : Frame} {port : Fin 16} {k : Circuit} {r : ReportKind} (more : Bool)
    (orders : List (List Nat)) (hf : PollFlies s l f) (hk : k = circuitAt l f.addr port)
    (hr : r = .busy ∨
      (r = .answer ∧ ∀ i, engages (s.call i) k →
        (s.call i).state = .consultTalking ∨ ((s.call i).state = .camped ∧ (s.call i).ringPending = false)) ∨
      (r = .clear ∧ (∀ i, (s.call i).state ≠ .free → (s.call i).caller ≠ k) ∧
        ∀ i n, (s.call i).target = some { number := n, circuit := k } → (s.call i).state ≠ .consultTalking)) :
    ∃ t, exec (.shelfAnswer l (reportOf more port r) orders) s = .next t ∧ reported s t l f k (lineAfter r) ∧
      (t.lamp k).camp = (s.lamp k).camp ∧ silent s t ∧
      Aside s t (fun _ => False) (fun _ => False) (fun _ => False) (· = k) := by
  obtain ⟨u, hu, taken⟩ := hf.taken hk more orders r (by rcases hr with rfl | ⟨rfl, -⟩ | ⟨rfl, -⟩ <;> exact nofun)
  have line : r.line = lineAfter r := by rcases hr with rfl | ⟨rfl, -⟩ | ⟨rfl, -⟩ <;> rfl
  have body : (Event.begin u).report k r (orders.headD []) = Event.lineSet u k r.line := by
    rcases hr with rfl | ⟨rfl, h⟩ | ⟨rfl, hn, h⟩
    · rfl
    · exact Event.targetAnswer_none (e := Event.lineSet u k .busy) fun i hi => by
        have hi' : engages (u.call i) k := hi
        show (u.call i).state = _ ∨ (u.call i).state = _ ∧ (u.call i).ringPending = _
        rw [hu.call] at hi' ⊢
        exact h i hi'
    · have nothing : (Event.lineSet u k .idle).targetClear k = Event.lineSet u k .idle :=
        Event.targetClear_none fun i n hi => by
          have hi' : (u.call i).target = _ := hi
          show (u.call i).state ≠ _
          rw [hu.call] at hi' ⊢
          exact h i n hi'
      have noCaller : (u.setLine k .idle).callerOf k = none := State.callerOf_none fun i hi => by
        have hi' : (u.call i).state ≠ _ := hi
        show (u.call i).caller ≠ k
        rw [hu.call] at hi' ⊢
        exact hn i hi'
      show (Event.lineSet u k .idle).deliverAll _ [] ((u.setLine k .idle).clearEvents k) = _
      unfold State.clearEvents
      rw [noCaller]
      cases (u.setLine k .idle).isTarget k with
      | false => rfl
      | true => exact (Event.deliverAll_one _ _ _).trans nothing
  obtain ⟨t, run, landed⟩ := taken _ (.lineOnly body)
  refine ⟨t, run, landed.reported ((State.line_setLine _ _ _).trans line), ?_, landed.silent hu (fun _ => rfl) rfl,
    landed.aside hu (fun _ _ => rfl) (fun _ _ => rfl) (fun _ _ => rfl)
      (fun c hc => congrArg Lamp.bare (State.lamp_setLine_ne _ _ _ (Ne.symm hc))) rfl⟩
  rw [landed.camp, State.camp_setLine, hu.camp]

/-- The state in which an IDLE has rung for the head of the camp list. -/
def State.headRung (u : State) (k : Circuit) (j : Slot) : State :=
  let t := (u.setLine k .idle).send j (.ring k) false
  t.setCall j { t.call j with ringPending := true }

/-- The event of an IDLE that rings for the head of the camp list. -/
def Event.headRung (u : State) (k : Circuit) (j : Slot) : Event :=
  { Event.lineSet u k .idle with st := u.headRung k j, log := [(j, .ring k)] }

theorem report_idle_head {u : State} {k : Circuit} {j : Slot} {behind : List Slot} {schedule : List Nat}
    (hd : (u.dir k).kind = .extension) (hc : (u.lamp k).camp = j :: behind) (hp : (u.call j).ringPending = false)
    (hr : u.room [.ring k])
    (ho : ∀ m n, (u.call m).state ≠ .free → (u.call m).target = some { number := n, circuit := k } →
      m ∈ (u.lamp k).camp) : (Event.begin u).report k .idle schedule = Event.headRung u k j := by
  have outside : (Event.lineSet u k .idle).st.outsideTarget k = false := by
    unfold State.outsideTarget
    rw [List.any_eq_false]
    intro m _ hm
    rw [Bool.and_eq_true, Bool.and_eq_true, Bool.not_eq_true'] at hm
    obtain ⟨⟨live, targets⟩, camp⟩ := hm
    have htargets : (u.call m).targets k = true := targets
    unfold Call.targets at htargets
    cases ht : (u.call m).target with
    | none => rw [ht] at htargets; cases htargets
    | some x =>
      rw [ht] at htargets
      have member := ho m x.number (by simpa [Call.live, Event.lineSet] using live) (by rw [ht, ← eq_of_beq htargets])
      have absent : ((u.setLine k .idle).lamp k).camp.contains m = false := camp
      rw [State.camp_setLine] at absent
      rw [List.contains_iff_mem.mpr member] at absent
      cases absent
  have head : ((Event.lineSet u k .idle).st.lamp k).camp = j :: behind := (u.camp_setLine k .idle k).trans hc
  obtain ⟨running, space⟩ := hr _ List.mem_cons_self
  show (Event.lineSet u k .idle).targetIdle k = _
  unfold Event.targetIdle
  rw [if_pos (show ((Event.lineSet u k .idle).st.dir k).kind = .extension from hd)]
  unfold Event.ringHead
  rw [head]
  dsimp only
  rw [show ((Event.lineSet u k .idle).st.call j).ringPending = false from hp, outside, Bool.or_self,
    if_neg Bool.false_ne_true]
  unfold Event.issue
  rw [Event.issueAs_send (Event.lineSet u k .idle) (.inl rfl) running (Nat.lt_of_succ_le space)]
  rfl

theorem State.call_headRung (u : State) (k : Circuit) (j x : Slot) : (u.headRung k j).call x =
    if j = x then { u.call x with ringPending := true, pending := (u.call x).pending + 1 } else u.call x := by
  unfold State.headRung
  dsimp only
  rw [State.call_setCall]
  split
  · next e => subst e; rw [State.call_send, if_pos rfl]; rfl
  · next e => rw [State.call_send, if_neg e]; rfl

/-- The end of an event raises revisions and sets ties, and leaves the rest of the call records. -/
theorem Event.call_commit (e : Event) (i : Slot) : (e.commit.call i).bare = (e.st.call i).bare := by
  have raised : ((e.upd State.retie).raiseRecords.call i).bare = (e.st.call i).bare := by
    rw [Event.call_raiseRecords]
    split <;> rfl
  have bump := (State.bumpBoard_unseen (e.upd State.retie).raiseRecords (e.upd State.retie).raises).same
  simp only [Prod.mk.injEq] at bump
  obtain ⟨calls, -⟩ := bump
  exact (congrArg (fun c => (c.get i).bare) calls).trans raised

theorem idle_rings {s : State} {l : LinkIx} {f : Frame} {port : Fin 16} {k : Circuit} {j : Slot} {behind : List Slot}
    (more : Bool) (orders : List (List Nat)) (hf : PollFlies s l f) (hk : k = circuitAt l f.addr port)
    (hd : (s.dir k).kind = .extension) (hc : (s.lamp k).camp = j :: behind) (hp : (s.call j).ringPending = false)
    (hr : s.room [.ring k])
    (ho : ∀ m n, (s.call m).state ≠ .free → (s.call m).target = some { number := n, circuit := k } →
      m ∈ (s.lamp k).camp) :
    ∃ t, exec (.shelfAnswer l (reportOf more port .idle) orders) s = .next t ∧ reported s t l f k .idle ∧
      (t.call j).bare = { (s.call j).bare with ringPending := true, pending := (s.call j).pending + 1 } ∧
      (t.lamp k).camp = (s.lamp k).camp ∧ t.rings.get k = s.rings.get k + 1 ∧ queuedAfter s t (entries j [.ring k]) ∧
      Aside s t (· = j) (fun _ => False) (fun _ => False) (· = k) := by
  obtain ⟨u, x, hu, run⟩ := hf.takes hk more orders .idle nofun
  have body := report_idle_head (u := u) (schedule := orders.headD []) (by rw [hu.dir]; exact hd)
    (by rw [hu.camp]; exact hc) (by rw [hu.call]; exact hp) (hu.room hr)
    fun m n hm => by rw [hu.call, hu.camp]; rw [hu.call] at hm; exact ho m n hm
  have finish : (Event.headRung u k j).finish = (Event.headRung u k j).commit :=
    Event.finish_idle rfl rfl (fun p => by simp [Event.headRung, State.headRung, Event.lineSet, Event.begin]) rfl rfl
  have run : exec (.shelfAnswer l (reportOf more port .idle) orders) s =
      .next ((Event.headRung u k j).finish.noteMore l x) := by
    rw [run]
    unfold runEvent
    dsimp only
    rw [body]
  have landed := hu.landed (e := Event.headRung u k j) x rfl nofun fun m => by
    simp only [Event.headRung, State.headRung, State.link_setCall, State.link_send]
    rfl
  have hcall : ∀ i, (((Event.headRung u k j).finish.noteMore l x).call i).bare = ((u.headRung k j).call i).bare :=
    fun i => by rw [finish]; exact Event.call_commit _ i
  have hlamp : ∀ c, (u.headRung k j).lamp c = (u.setLine k .idle).lamp c := fun c => by simp [State.headRung]
  refine ⟨_, run, landed.reported ?_, ?_, ?_, ?_, landed.queuedAfter hu fun m => ?_,
    landed.aside hu (fun i hi => ?_) (fun p _ => ?_) (fun q _ => ?_) (fun c hc => ?_) ?_⟩
  · show ((u.headRung k j).lamp k).line = _
    rw [hlamp, State.line_setLine]
  · rw [hcall, State.call_headRung, if_pos rfl, hu.call]
    rfl
  · rw [landed.camp]
    show ((u.headRung k j).lamp k).camp = _
    rw [hlamp, State.camp_setLine, hu.camp]
  · rw [landed.rings, ← hu.rings]
    exact (State.rings_send_ring _ _ _ _ _).trans (if_pos rfl)
  · simp only [Event.headRung, State.headRung, State.link_setCall, State.link_send]
    rfl
  · show (u.headRung k j).call i = _
    rw [State.call_headRung, if_neg (Ne.symm hi)]
  · simp [Event.headRung, State.headRung]
  · simp [Event.headRung, State.headRung]
  · show ((u.headRung k j).lamp c).bare = _
    rw [hlamp, State.lamp_setLine_ne _ _ _ (Ne.symm hc)]
  · simp [Event.headRung, State.headRung]

end Sys2Proof.Machine
end

section
/-! SUPPORT. Rosters: places, the alert test, a recall that joins (R24, R26, R43, R103), and the FAULT of a target that
recalls its call (R96). -/

namespace Sys2Proof.Machine

/-! ### Roster places and the alert mark (R24, R43) -/

/-- Places written head first from a first place. -/
def State.numbered (t : State) (n : Nat) : List Slot → State
  | [] => t
  | i :: is => (t.setCall i { t.call i with place := some n }).numbered (n + 1) is

theorem Event.renumberFrom_eq (e : Event) (n : Nat) (is : List Slot) :
    e.renumberFrom n is = { e with st := e.st.numbered n is } := by
  induction is generalizing e n with
  | nil => rfl
  | cons i is ih => exact ih _ _

theorem State.numbered_rest (t : State) (n : Nat) (is : List Slot) :
    t.numbered n is = { t with calls := (t.numbered n is).calls } := by
  induction is generalizing t n with
  | nil => rfl
  | cons i is ih =>
    have h := ih (t.setCall i { t.call i with place := some n }) (n + 1)
    unfold State.numbered
    generalize (t.setCall i { t.call i with place := some n }).numbered (n + 1) is = w at h ⊢
    rw [h]
    rfl

section Numbered

variable (t : State) (n : Nat) (is : List Slot)

@[simp] theorem State.pos_numbered (p : Pos) : (t.numbered n is).pos p = t.pos p := by rw [State.numbered_rest]; rfl
@[simp] theorem State.prt_numbered (q : Part) : (t.numbered n is).prt q = t.prt q := by rw [State.numbered_rest]; rfl
@[simp] theorem State.lamp_numbered (k : Circuit) : (t.numbered n is).lamp k = t.lamp k := by rw [State.numbered_rest]; rfl
@[simp] theorem State.link_numbered (l : LinkIx) : (t.numbered n is).link l = t.link l := by rw [State.numbered_rest]; rfl
@[simp] theorem State.part_numbered (q : Part) : (t.numbered n is).part q = t.part q := by rw [State.numbered_rest]; rfl
@[simp] theorem State.numbered_rings : (t.numbered n is).rings = t.rings := by rw [State.numbered_rest]
@[simp] theorem State.numbered_free : (t.numbered n is).free = t.free := by rw [State.numbered_rest]
@[simp] theorem State.numbered_seconds : (t.numbered n is).seconds = t.seconds := by rw [State.numbered_rest]
@[simp] theorem State.numbered_plan : (t.numbered n is).plan = t.plan := by rw [State.numbered_rest]
@[simp] theorem State.numbered_mem : (t.numbered n is).mem = t.mem := by rw [State.numbered_rest]
@[simp] theorem State.numbered_taker : (t.numbered n is).taker = t.taker := by rw [State.numbered_rest]

theorem State.call_numbered_out {j : Slot} (hj : j ∉ is) : (t.numbered n is).call j = t.call j := by
  induction is generalizing t n with
  | nil => rfl
  | cons i is ih =>
    obtain ⟨hi, his⟩ := not_or.mp (mt List.mem_cons.mpr hj)
    exact (ih _ _ his).trans (State.call_setCall_ne _ _ (Ne.symm hi))

theorem State.call_numbered {m : Nat} {j : Slot} (hn : is.Nodup) (hj : is[m]? = some j) :
    (t.numbered n is).call j = { t.call j with place := some (n + m) } := by
  induction is generalizing t n m with
  | nil => cases hj
  | cons i is ih =>
    obtain ⟨hi, his⟩ := List.nodup_cons.mp hn
    unfold State.numbered
    cases m with
    | zero =>
      rw [List.getElem?_cons_zero, Option.some.injEq] at hj
      subst hj
      rw [State.call_numbered_out _ _ _ hi, State.call_setCall_self, Nat.add_zero]
    | succ m =>
      rw [List.getElem?_cons_succ] at hj
      have hne : i ≠ j := fun h => hi (h ▸ List.mem_of_getElem? hj)
      rw [ih _ _ his hj, State.call_setCall_ne _ _ hne, Nat.add_right_comm, Nat.add_assoc]

/-- Places are all that is written. -/
theorem State.call_numbered_place (j : Slot) : ∃ x, (t.numbered n is).call j = { t.call j with place := x } := by
  induction is generalizing t n with
  | nil => exact ⟨_, rfl⟩
  | cons i is ih =>
    obtain ⟨x, hx⟩ := ih (t.setCall i { t.call i with place := some n }) (n + 1)
    refine ⟨x, hx.trans ?_⟩
    rw [State.call_setCall]
    split
    · next e => subst e; rfl
    · rfl

end Numbered

/-- The alert mark that the alert test leaves. -/
def State.alertDue (t : State) (q : Part) : Bool :=
  decide ((t.part q).alertLevel ≠ 0 ∧ (t.part q).alertLevel ≤ (t.prt q).roster.length)

/-- What the alert test writes. -/
def State.alerted (t : State) (q : Part) : State :=
  let marked := t.setPrt q { t.prt q with alert := t.alertDue q }
  if t.alertDue q && !(t.prt q).alert then marked.raise .alert else marked

theorem Event.alertTest_eq (e : Event) (q : Part) : e.alertTest q = { e with st := e.st.alerted q } := by
  have same : ∀ x, (e.st.prt q).alert = x → e.st.setPrt q { e.st.prt q with alert := x } = e.st := fun x hx => by
    subst hx
    unfold State.setPrt State.prt
    rw [Table.set_get]
  unfold Event.alertTest State.alerted State.alertDue
  dsimp only
  split
  · next h =>
    rw [decide_eq_true h]
    cases ha : (e.st.prt q).alert with
    | true => rw [same _ ha]; rfl
    | false => rfl
  · next h =>
    rw [decide_eq_false h]
    rfl

theorem State.alerted_rest (t : State) (q : Part) :
    t.alerted q = { t with parts := t.parts.set q { t.prt q with alert := t.alertDue q }, regs := (t.alerted q).regs } := by
  unfold State.alerted
  dsimp only
  split <;> rfl

section Alerted

variable (t : State) (q : Part)

@[simp] theorem State.call_alerted (i : Slot) : (t.alerted q).call i = t.call i := by rw [State.alerted_rest]; rfl
@[simp] theorem State.pos_alerted (p : Pos) : (t.alerted q).pos p = t.pos p := by rw [State.alerted_rest]; rfl
@[simp] theorem State.lamp_alerted (k : Circuit) : (t.alerted q).lamp k = t.lamp k := by rw [State.alerted_rest]; rfl
@[simp] theorem State.link_alerted (l : LinkIx) : (t.alerted q).link l = t.link l := by rw [State.alerted_rest]; rfl
@[simp] theorem State.part_alerted (p : Part) : (t.alerted q).part p = t.part p := by rw [State.alerted_rest]; rfl
@[simp] theorem State.alerted_rings : (t.alerted q).rings = t.rings := by rw [State.alerted_rest]
@[simp] theorem State.alerted_free : (t.alerted q).free = t.free := by rw [State.alerted_rest]
@[simp] theorem State.alerted_seconds : (t.alerted q).seconds = t.seconds := by rw [State.alerted_rest]
@[simp] theorem State.alerted_plan : (t.alerted q).plan = t.plan := by rw [State.alerted_rest]
@[simp] theorem State.alerted_mem : (t.alerted q).mem = t.mem := by rw [State.alerted_rest]
@[simp] theorem State.alerted_taker : (t.alerted q).taker = t.taker := by rw [State.alerted_rest]

theorem State.prt_alerted (p : Part) :
    (t.alerted q).prt p = if q = p then { t.prt p with alert := t.alertDue p } else t.prt p := by
  rw [State.alerted_rest]
  refine (Table.get_set _ _ _ _).trans ?_
  split
  · next e => subst e; rfl
  · rfl

end Alerted

/-! ### A member of class RECALL joins (R26) -/

theorem insertRecall_spec (r : Slot → Bool) (i : Slot) (js : List Slot) :
    ∃ front back, js = front ++ back ∧ insertRecall r i js = front ++ i :: back ∧ (∀ j ∈ back, r j = false) ∧
      (front = [] ∨ ∃ j, front.getLast? = some j ∧ r j = true) := by
  induction js with
  | nil => exact ⟨[], [], rfl, rfl, nofun, .inl rfl⟩
  | cons j js ih =>
    unfold insertRecall
    split
    · next h =>
      obtain ⟨front, back, hjs, hins, hback, hfront⟩ := ih
      refine ⟨j :: front, back, by rw [hjs]; rfl, by rw [hins]; rfl, hback, .inr ?_⟩
      rcases hfront with rfl | ⟨x, hx, hr⟩
      · refine ⟨j, rfl, ?_⟩
        rw [List.any_cons, Bool.or_eq_true] at h
        refine h.resolve_right fun ha => ?_
        obtain ⟨y, hy, hry⟩ := List.any_eq_true.mp ha
        rw [hjs] at hy
        rw [hback y hy] at hry
        cases hry
      · refine ⟨x, ?_, hr⟩
        cases front with
        | nil => cases hx
        | cons y ys => exact (List.getLast?_cons_cons ..).trans hx
    · next h =>
      refine ⟨[], j :: js, rfl, rfl, fun x hx => ?_, .inl rfl⟩
      rw [← Bool.not_eq_true]
      exact fun hr => h (List.any_eq_true.mpr ⟨x, hx, hr⟩)

theorem State.setPrt_setPrt (t : State) (q : Part) (c d : Partition) : (t.setPrt q c).setPrt q d = t.setPrt q d := by
  unfold State.setPrt
  dsimp only
  congr 1
  apply Table.ext_list
  simp [Table.set]

/-- The roster that a recalled call joins. -/
def State.recallRoster (t : State) (i : Slot) : List Slot :=
  insertRecall (fun j => (t.call j).cls == .recall) i (t.prt (t.call i).partition).roster

/-- A call in its roster's place as a RECALL member. -/
def State.enlisted (t : State) (i : Slot) : State :=
  let q := (t.call i).partition
  let est := if (t.prt q).roster.isEmpty then (t.prt q).est.begin else (t.prt q).est
  let t' := t.setPrt q { t.prt q with est := est, roster := t.recallRoster i }
  let t' := t'.setCall i
    { (t.call i).enter .queued t.seconds with cls := .recall, estimate := none, waitDeadline := none }
  (t'.numbered 1 (t.recallRoster i)).alerted q

theorem Event.enterRoster_recall {e : Event} {i : Slot} (h : (e.st.call i).state ≠ .free) :
    e.enterRoster i .recall =
      { e with
        st := e.st.enlisted i, gained := e.gained.set (e.st.call i).partition true,
        passes := e.passes.set (e.st.call i).partition true, touched := e.touched.set (e.st.call i).partition true,
        changed := e.changed ++ [i], serve := e.serve ++ (e.st.call i).letsGo } := by
  have started : (if (e.st.prt (e.st.call i).partition).roster.isEmpty then
        e.updPrt (e.st.call i).partition fun q => { q with est := q.est.begin } else e) =
      { e with st := e.st.setPrt (e.st.call i).partition { e.st.prt (e.st.call i).partition with
        est := if (e.st.prt (e.st.call i).partition).roster.isEmpty then (e.st.prt (e.st.call i).partition).est.begin
          else (e.st.prt (e.st.call i).partition).est } } := by
    split
    · rfl
    · unfold State.setPrt State.prt
      rw [Table.set_get]
  unfold Event.enterRoster
  dsimp only
  rw [if_neg h, started, if_neg (by simp)]
  rw [Event.toState_eq _ (by exact h)]
  unfold Event.renumber
  rw [Event.renumberFrom_eq, Event.alertTest_eq]
  unfold State.enlisted State.recallRoster Event.rosterMoved Event.gain Event.updCall Event.updPrt Event.upd
  dsimp only
  simp only [State.prt_setCall, State.prt_setPrt_self, State.call_setPrt, State.call_setCall_self,
    State.setCall_setCall, State.setPrt_setPrt]
  rfl

section Enlisted

variable (t : State) (i : Slot)

@[simp] theorem State.pos_enlisted (p : Pos) : (t.enlisted i).pos p = t.pos p := by simp [State.enlisted]
@[simp] theorem State.lamp_enlisted (k : Circuit) : (t.enlisted i).lamp k = t.lamp k := by simp [State.enlisted]
@[simp] theorem State.link_enlisted (l : LinkIx) : (t.enlisted i).link l = t.link l := by simp [State.enlisted]
@[simp] theorem State.enlisted_rings : (t.enlisted i).rings = t.rings := by simp [State.enlisted]
@[simp] theorem State.enlisted_free : (t.enlisted i).free = t.free := by simp [State.enlisted]

/-- The call record that joins, but for its place. -/
def Call.enlist (c : Call) (now : Seconds) : Call :=
  { c.enter .queued now with cls := .recall, estimate := none, waitDeadline := none }

theorem State.call_enlisted (j : Slot) :
    ∃ x, (t.enlisted i).call j = { (if i = j then (t.call i).enlist t.seconds else t.call j) with place := x } := by
  unfold State.enlisted
  dsimp only
  rw [State.call_alerted]
  obtain ⟨x, hx⟩ := State.call_numbered_place _ 1 (t.recallRoster i) j
  refine ⟨x, hx.trans ?_⟩
  rw [State.call_setCall]
  rfl

theorem State.place_enlisted (hn : (t.recallRoster i).Nodup) {n : Nat} {j : Slot} (hj : (t.recallRoster i)[n]? = some j) :
    ((t.enlisted i).call j).place = some (n + 1) := by
  unfold State.enlisted
  dsimp only
  rw [State.call_alerted, State.call_numbered _ _ _ hn hj]
  exact congrArg some (Nat.add_comm 1 n)

theorem State.prt_enlisted : (t.enlisted i).prt (t.call i).partition =
    { t.prt (t.call i).partition with
      roster := t.recallRoster i
      est := if (t.prt (t.call i).partition).roster.isEmpty then (t.prt (t.call i).partition).est.begin
        else (t.prt (t.call i).partition).est
      alert := decide ((t.part (t.call i).partition).alertLevel ≠ 0 ∧
        (t.part (t.call i).partition).alertLevel ≤ (t.recallRoster i).length) } := by
  unfold State.enlisted
  dsimp only
  rw [State.prt_alerted, if_pos rfl]
  unfold State.alertDue
  simp only [State.prt_numbered, State.prt_setCall, State.prt_setPrt_self, State.part_numbered]
  rfl

end Enlisted

/-- A recall that its partition's roster takes (R26, R103). -/
theorem Event.recall_enlists {e : Event} {i : Slot} (live : (e.st.call i).state ≠ .free)
    (origin : (e.st.call i).origin ≠ none) (takes : RecallOpen e.st i)
    (room : e.st.room [.tone (e.st.call i).caller .ringback])
    (present : (e.st.shelfOf (e.st.call i).caller).state = .present) :
    (e.recall i .spared).st = (e.st.enlisted i).send i (.tone (e.st.call i).caller .ringback) false ∧
      (e.recall i .spared).refusals = e.refusals ∧ (e.recall i .spared).serve = e.serve ++ (e.st.call i).letsGo := by
  have space : e.st.rosterFull (e.st.call i).partition .recall = false := by
    unfold State.rosterFull
    exact decide_eq_false (Nat.not_le_of_lt takes.space)
  have joins : e.recall i .spared = (e.enterRoster i .recall).ringback i .spared := by
    unfold Event.recall Event.joinRoster
    dsimp only
    rw [if_pos (Option.isSome_iff_ne_none.mpr origin), takes.enabled, if_neg (by decide),
      if_neg (by rw [takes.day]; decide), space, if_neg (by decide)]
  obtain ⟨x, hcall⟩ := e.st.call_enlisted i i
  rw [if_pos rfl] at hcall
  have caller : ((e.st.enlisted i).call i).caller = (e.st.call i).caller := by rw [hcall]; rfl
  obtain ⟨running, queue⟩ := room _ List.mem_cons_self
  rw [joins, Event.enterRoster_recall live]
  unfold Event.ringback Event.issueAll
  dsimp only [List.foldl_cons, List.foldl_nil]
  rw [caller, Event.issueAs_send]
  · exact ⟨rfl, rfl, rfl⟩
  · refine .inr ?_
    unfold State.shelfOf at present ⊢
    dsimp only [ShelfOrder.first]
    rw [State.link_enlisted, present]
    decide
  · dsimp only
    rw [State.link_enlisted]
    exact running
  · dsimp only
    rw [State.link_enlisted]
    exact Nat.lt_of_succ_le queue

/-! ### What the end of an event leaves of a QUEUED call besides (R35, R38, R57) -/

/-- The call has no target, and no expiry of its wait is held. -/
def Call.rests (c : Call) : Prop := c.target = none ∧ c.expiryHeld = false

section Rests

variable {e : Event} {i : Slot}

theorem Event.foldl_rests {α : Type} {f : Event → α → Event}
    (h : ∀ e x, (e.st.call i).rests → ((f e x).st.call i).rests) {xs : List α} (k : (e.st.call i).rests) :
    ((xs.foldl f e).st.call i).rests := by
  induction xs generalizing e with
  | nil => exact k
  | cons x xs ih => exact ih (h e x k)

theorem Event.toState_rests {j : Slot} {st : CallState} (k : (e.st.call i).rests) :
    ((e.toState j st).st.call i).rests := by
  by_cases hf : (e.st.call j).state = .free
  · rw [Event.toState_free e hf]; exact k
  · rw [Event.toState_st e hf, State.call_setCall]
    split
    · next h =>
      subst h
      refine ⟨?_, rfl⟩
      unfold Call.enter
      dsimp only
      rw [k.1]
      exact ite_self _
    · exact k

theorem Event.updCall_rests {j : Slot} {f : Call → Call} (hf : ∀ c, c.rests → (f c).rests) (k : (e.st.call i).rests) :
    ((e.updCall j f).st.call i).rests := by
  unfold Event.updCall Event.upd
  dsimp only
  rw [State.call_setCall]
  split
  · next h => subst h; exact hf _ k
  · exact k

theorem Event.startTimer_rests {j : Slot} {t : TimerKind} {n : Nat} (k : (e.st.call i).rests) :
    ((e.startTimer j t n).st.call i).rests := by
  unfold Event.startTimer Event.upd
  dsimp only
  rw [State.call_setCall]
  split
  · next h => subst h; exact k
  · exact k

theorem Event.offer_rests {j : Slot} {p : Pos} (k : (e.st.call i).rests) : ((e.offer j p).st.call i).rests := by
  have k1 := Event.toState_rests (j := j) (st := .offered) k
  have k2 := Event.updCall_rests (j := j) (f := fun c => { c with position := some p }) (fun _ h => h) k1
  unfold Event.offer Event.rosterMoved Event.updPos Event.upd
  dsimp only
  rw [State.call_setPos]
  exact Event.startTimer_rests k2

theorem Event.stepA_rests {q : Part} {j : Slot} (k : (e.st.call i).rests) : ((e.stepA q j).st.call i).rests := by
  unfold Event.stepA
  dsimp only
  split
  · split
    · exact Event.offer_rests k
    · exact k
  · exact k

theorem Event.stepB_rests {q : Part} {n : Nat} (k : (e.st.call i).rests) : ((e.stepB q n).st.call i).rests := by
  induction n generalizing e with
  | zero => exact k
  | succ n ih =>
    unfold Event.stepB
    split
    · exact ih (Event.offer_rests k)
    · exact k

theorem Event.runArbiters_rests (k : (e.st.call i).rests) : (e.runArbiters.st.call i).rests :=
  Event.foldl_rests (fun e q k => by
    split
    · exact Event.stepB_rests (Event.foldl_rests (fun _ _ => Event.stepA_rests) k)
    · exact k) k

theorem Event.passMember_rests {q : Part} {j : Slot} (k : (e.st.call i).rests) :
    ((e.passMember q j).st.call i).rests := by
  unfold Event.passMember
  dsimp only
  split
  · exact Event.updCall_rests (fun _ h => h) k
  · exact k

theorem Event.runPasses_rests (k : (e.st.call i).rests) : (e.runPasses.st.call i).rests :=
  Event.foldl_rests (fun e q k => by
    split
    · have passed : ((e.pass q).st.call i).rests := Event.foldl_rests (fun _ _ => Event.passMember_rests) k
      exact passed
    · exact k) k

theorem Event.testPosition_call (e : Event) (x : Pos) : (e.testPosition x).st.call i = e.st.call i := by
  unfold Event.testPosition
  dsimp only
  split
  · split <;> split <;> rfl
  · rfl

theorem Event.finish_rests (hr : e.refusals = []) (hs : ∀ k ∈ e.serve, unserved e.st k) (k : (e.st.call i).rests) :
    (e.finish.call i).rests := by
  have rests_congr : ∀ c d : Call, c.bare = d.bare → d.rests → c.rests := fun c d h hd =>
    ⟨(congrArg Call.target h).trans hd.1, (congrArg Call.expiryHeld h).trans hd.2⟩
  unfold Event.finish
  rw [Event.settle_unserved 80 hr hs]
  refine rests_congr _ _ (Event.call_commit _ i) (Event.runPasses_rests (Event.runArbiters_rests ?_))
  exact Event.foldl_rests (fun e x k => by rw [Event.testPosition_call]; exact k) k

end Rests

/-! ### The FAULT of a target that recalls its call (R96, R103) -/

/-- The state from which the FAULT of a target recalls call `i`: the line of its circuit is OUT_OF_SERVICE and nobody
camps there any more. -/
structure Recalling (u b : State) (k : Circuit) : Prop where
  call : ∀ j, ∃ x, b.call j = { u.call j with ringPending := x }
  pos : ∀ p, b.pos p = u.pos p
  prt : ∀ q, b.prt q = u.prt q
  link : ∀ m, b.link m = u.link m
  plan : b.plan = u.plan
  rings : b.rings = u.rings
  line : (b.lamp k).line = .outOfService
  camp : (b.lamp k).camp = []

/-- The state in which a call has been recalled and its caller is to hear RINGBACK. -/
def State.recalled (b : State) (i : Slot) : State :=
  (b.enlisted i).send i (.tone (b.call i).caller .ringback) false

/-- What a recall needs of the state (R26, R96). -/
structure MayRecall (s : State) (i : Slot) : Prop where
  live : (s.call i).state ≠ .free
  origin : (s.call i).origin ≠ none
  takes : RecallOpen s i
  room : s.room [.tone (s.call i).caller .ringback]
  present : (s.shelfOf (s.call i).caller).state = .present

theorem MayRecall.transfer {s b : State} {i : Slot} (h : MayRecall s i)
    (hc : ∃ x, b.call i = { s.call i with ringPending := x }) (hq : ∀ q, b.prt q = s.prt q) (hp : b.plan = s.plan)
    (hs : ∀ m, (b.link m).state = (s.link m).state) (hl : ∀ m, (b.link m).queue = (s.link m).queue)
    (hx : ∀ c, (b.shelfOf c).state = (s.shelfOf c).state) : MayRecall b i := by
  obtain ⟨x, hc⟩ := hc
  have part : ∀ q, b.part q = s.part q := fun q => by unfold State.part; rw [hp]
  refine ⟨by rw [hc]; exact h.live, by rw [hc]; exact h.origin, ⟨?_, ?_, ?_, ?_, ?_⟩, ?_, ?_⟩
  · rw [hc, part]; exact h.takes.enabled
  · rw [hc, hq]; exact h.takes.day
  · rw [hc, hq]; exact h.takes.space
  · rw [hc, hq]; exact h.takes.absent
  · rw [hc, hq]; exact h.takes.once
  · rw [hc]
    intro o ho
    rw [hs, hl]
    exact h.room o ho
  · rw [hc, hx]; exact h.present

end Sys2Proof.Machine
end

section
/-! SUPPORT. The FAULT of a target that recalls the call ringing out to it or camping on it (R96, R103). -/

namespace Sys2Proof.Machine

section Recalled

variable {s b : State} {i : Slot}

theorem State.call_recalled (b : State) (i j : Slot) : ∃ x, (b.recalled i).call j =
    if i = j then { (b.call i).enlist b.seconds with place := x, pending := (b.call i).pending + 1 }
    else { b.call j with place := x } := by
  obtain ⟨x, hx⟩ := b.call_enlisted i j
  refine ⟨x, ?_⟩
  unfold State.recalled
  rw [State.call_send, hx]
  split
  · rfl
  · rfl

/-- The roster that the call joins, as the recall finds it. -/
theorem State.recallRoster_spec (b : State) (i : Slot) :
    ∃ front back, (b.prt (b.call i).partition).roster = front ++ back ∧ b.recallRoster i = front ++ i :: back ∧
      (∀ j ∈ back, (b.call j).cls ≠ .recall) ∧
      (front = [] ∨ ∃ j, front.getLast? = some j ∧ (b.call j).cls = .recall) := by
  obtain ⟨front, back, h1, h2, h3, h4⟩ := insertRecall_spec (fun j => (b.call j).cls == .recall) i
    (b.prt (b.call i).partition).roster
  refine ⟨front, back, h1, h2, fun j hj => ?_, h4.imp_right fun ⟨j, hj, hr⟩ => ⟨j, hj, eq_of_beq hr⟩⟩
  have := h3 j hj
  simpa using this

theorem State.recallRoster_nodup (absent : i ∉ (b.prt (b.call i).partition).roster)
    (once : (b.prt (b.call i).partition).roster.Nodup) : (b.recallRoster i).Nodup := by
  obtain ⟨front, back, hroster, hjoined, -⟩ := b.recallRoster_spec i
  rw [hroster] at absent once
  rw [hjoined]
  exact List.nodup_middle.mpr (List.nodup_cons.mpr ⟨absent, once⟩)

theorem State.place_recalled (absent : i ∉ (b.prt (b.call i).partition).roster)
    (once : (b.prt (b.call i).partition).roster.Nodup) {n : Nat} {j : Slot} (hj : (b.recallRoster i)[n]? = some j) :
    ((b.recalled i).call j).place = some (n + 1) := by
  have h := b.place_enlisted i (State.recallRoster_nodup absent once) hj
  unfold State.recalled
  rw [State.call_send]
  split
  · exact h
  · exact h

end Recalled

theorem Landed.place {s w t : State} {l : LinkIx} {a : Addr} (h : Landed s w t l a) (i : Slot) :
    (t.call i).place = (w.call i).place := by
  have := h.waiting i
  simp only [Call.waiting, Prod.mk.injEq] at this
  obtain ⟨-, -, -, -, -, -, place, -, -, -⟩ := this
  exact place

/-- What the recall of a call from such a state shows when its event has ended (R26, R38, R43). -/
theorem Landed.recalled {s u b t : State} {l : LinkIx} {a : Addr} {k : Circuit} {i : Slot} (hu : Polled s u l a)
    (hb : Recalling u b k) (h : MayRecall s i) (landed : Landed s (b.recalled i) t l a) (rests : (t.call i).rests) :
    Recalled s t i := by
  have calls : ∀ j, ∃ x, b.call j = { s.call j with ringPending := x } := fun j => by
    rw [← hu.call]; exact hb.call j
  have cls : ∀ j, (b.call j).cls = (s.call j).cls := fun j => by obtain ⟨x, hx⟩ := calls j; rw [hx]
  have home : (b.call i).partition = (s.call i).partition := by obtain ⟨x, hx⟩ := calls i; rw [hx]
  have prts : b.prt (b.call i).partition = s.prt (s.call i).partition := by rw [hb.prt, hu.prt, home]
  obtain ⟨x, hself⟩ := b.call_recalled i i
  rw [if_pos rfl] at hself
  have waiting := landed.waiting i
  rw [hself] at waiting
  simp only [Call.waiting, Prod.mk.injEq] at waiting
  obtain ⟨-, -, hpart, hcls, -, -, -, hwait, -, -⟩ := waiting
  have prt : (t.prt (s.call i).partition).bare = ((b.enlisted i).prt (b.call i).partition).bare := by
    rw [← home, landed.prt]
    unfold State.recalled
    rw [State.prt_send]
  rw [b.prt_enlisted i, prts] at prt
  have roster : (t.prt (s.call i).partition).roster = b.recallRoster i := (congrArg Partition.roster prt).trans rfl
  have part : b.part (b.call i).partition = s.part (s.call i).partition := by
    unfold State.part; rw [hb.plan, hu.plan, home]
  refine ⟨landed.queued i (by rw [hself]; rfl), hcls, hpart.trans home, ⟨hwait, rests.2⟩, ?_, fun n j hj => ?_, ?_, ?_⟩
  · obtain ⟨front, back, hroster, hjoined, hback, hfront⟩ := b.recallRoster_spec i
    rw [prts] at hroster
    refine ⟨front, back, hroster, roster.trans hjoined, fun j hj => by rw [← cls]; exact hback j hj, ?_⟩
    exact hfront.imp_right fun ⟨j, hj, hr⟩ => ⟨j, hj, by rw [← cls]; exact hr⟩
  · rw [roster] at hj
    refine (landed.place j).trans (State.place_recalled ?_ ?_ hj)
    · rw [prts]; exact h.takes.absent
    · rw [prts]; exact h.takes.once
  · have alert : (t.prt (s.call i).partition).alert = decide ((b.part (b.call i).partition).alertLevel ≠ 0 ∧
        (b.part (b.call i).partition).alertLevel ≤ (b.recallRoster i).length) := congrArg Partition.alert prt
    unfold alertTested
    rw [alert, roster, part]
    exact decide_eq_true_iff
  · refine Eq.trans (congrArg (fun q => q.est.bare) prt) ?_
    cases (s.prt (s.call i).partition).roster <;> rfl

theorem State.call_noteMore (v : State) (l : LinkIx) (x : Table Bool 4) (i : Slot) :
    (v.noteMore l x).call i = v.call i := rfl

/-! ### The event of the FAULT -/

/-- The calls that a FAULT of their target recalls: one that rings out to it, or the only one that camps on it. -/
def recallCase (s : State) (k : Circuit) (i : Slot) : Prop :=
  (s.call i).state = .ringingOut ∧ (s.lamp k).camp = [] ∨ (s.call i).state = .camped ∧ (s.lamp k).camp = [i]

theorem Event.targetFault_recalls {u : State} {k : Circuit} {i : Slot} {n : Word}
    (ht : (u.call i).target = some { number := n, circuit := k }) (only : onlyTarget u k i) (hs : recallCase u k i)
    (h : ∀ es : Event, Recalling u es.st k → (es.recall i .spared).st = es.st.recalled i) :
    ∃ es : Event, (Event.lineSet u k .outOfService).targetFault k = es.recall i .spared ∧ es.refusals = [] ∧
      es.serve = [] ∧ Recalling u es.st k := by
  rcases hs with ⟨hs, hc⟩ | ⟨hs, hc⟩
  · have base : Recalling u (u.setLine k .outOfService) k :=
      ⟨fun j => ⟨(u.call j).ringPending, rfl⟩, fun _ => rfl, fun _ => rfl, fun _ => rfl, rfl, rfl, State.line_setLine _ _ _,
        (State.camp_setLine _ _ _ _).trans hc⟩
    have ringer : (Event.lineSet u k .outOfService).st.ringerOf k = some i :=
      State.ringerOf_eq (Call.targets_of ht) (Call.tiesTarget_iff.mpr (.inr (.inr (.inl hs)))) only
    refine ⟨(Event.lineSet u k .outOfService).note (some i) (.unring k), ?_, rfl, rfl, base⟩
    refine Event.targetFault_ringer ringer ?_ ?_
    · unfold Event.ringerFault
      dsimp only
      rw [show ((Event.lineSet u k .outOfService).st.call i).state = .ringingOut from hs]
    · rw [h _ base]
      unfold State.recalled
      rw [State.lamp_send, State.lamp_enlisted]
      exact base.camp
  · have unrung : (Event.lineSet u k .outOfService).st.ringerOf k = none := State.ringerOf_none fun j hj => by
      by_cases hji : j = i
      · subst hji
        rw [← Bool.not_eq_true, Call.tiesTarget_iff]
        show ¬ ((u.call j).state = _ ∨ (u.call j).state = _ ∨ (u.call j).state = _ ∨ (u.call j).state = _ ∧ _)
        rw [hs]
        simp
      · rw [← Bool.not_eq_true]
        exact fun hties => only j hji (engages_iff.mpr ⟨hj, .inl hties⟩)
    have camp : ((Event.lineSet u k .outOfService).st.lamp k).camp = [i] := (u.camp_setLine k _ k).trans hc
    refine ⟨{ Event.lineSet u k .outOfService with st := (u.setLine k .outOfService).leaveCamp i k }, ?_, rfl, rfl, ?_⟩
    · unfold Event.targetFault
      rw [unrung]
      dsimp only
      rw [camp, List.foldl_cons, List.foldl_nil, Event.leaveCamp_eq (n := n) (k := k) ht]
      rfl
    · refine ⟨fun j => ?_, fun _ => rfl, fun _ => rfl, fun _ => rfl, rfl, rfl, ?_, ?_⟩
      · dsimp only
        rw [State.call_leaveCamp]
        split
        · exact ⟨_, rfl⟩
        · exact ⟨(u.call j).ringPending, rfl⟩
      · dsimp only
        rw [State.lamp_leaveCamp, if_pos rfl]
        exact State.line_setLine _ _ _
      · dsimp only
        rw [State.lamp_leaveCamp, if_pos rfl]
        simp [hc]

theorem fault_recalls {s : State} {l : LinkIx} {f : Frame} {port : Fin 16} {k : Circuit} {i : Slot} {n : Word}
    (more : Bool) (orders : List (List Nat)) (hr : TargetReports s l f port k i n)
    (hl : (s.lamp k).line ≠ .outOfService) (hn : ∀ m, (s.call m).state ≠ .free → (s.call m).caller ≠ k)
    (hh : ∀ p, (s.pos p).headset ≠ some k) (hc : recallCase s k i) (h : MayRecall s i) :
    ∃ t, exec (.shelfAnswer l (reportOf more port .fault) orders) s = .next t ∧ reported s t l f k .outOfService ∧
      Recalled s t i ∧ (t.call i).target = none ∧ (t.call i).origin = (s.call i).origin ∧ (t.lamp k).camp = [] ∧
      (t.call i).pending = (s.call i).pending + 1 ∧ t.rings = s.rings ∧
      queuedAfter s t (entries i [.tone (s.call i).caller .ringback]) := by
  obtain ⟨u, x, hu, run⟩ := hr.toPollFlies.takes hr.circuit more orders .fault nofun
  have mayRecall : ∀ es : Event, Recalling u es.st k → MayRecall es.st i := fun es hb =>
    h.transfer (by rw [← hu.call]; exact hb.call i) (fun q => (hb.prt q).trans (hu.prt q)) (hb.plan.trans hu.plan)
      (fun m => by rw [hb.link]; exact hu.linkState m) (fun m => by rw [hb.link]; exact hu.queue m)
      fun c => by unfold State.shelfOf; rw [hb.link]; exact hu.shelfState c
  have enlists : ∀ es : Event, Recalling u es.st k → (es.recall i .spared).st = es.st.recalled i ∧
      (es.recall i .spared).refusals = es.refusals ∧
      (es.recall i .spared).serve = es.serve ++ (es.st.call i).letsGo := fun es hb => by
    have may := mayRecall es hb
    exact Event.recall_enlists may.live may.origin may.takes may.room may.present
  obtain ⟨es, fault, refusals, serve, hb⟩ := Event.targetFault_recalls (u := u) (k := k) (i := i) (n := n)
    (by rw [hu.call]; exact hr.target) (hu.onlyTarget hr.only)
    (by unfold recallCase; rw [hu.call, hu.camp]; exact hc) fun es hb => (enlists es hb).1
  obtain ⟨hst, hrefusals, hserve⟩ := enlists es hb
  have body := (report_fault_target (schedule := orders.headD []) (by rw [hu.line]; exact hl)
    (fun m hm => by rw [hu.call] at hm ⊢; exact hn m hm) (fun p => by rw [hu.pos]; exact hh p)
    (by rw [hu.call]; exact h.live) (Call.targets_of (by rw [hu.call]; exact hr.target))).trans fault
  have lamp : ∀ c, (es.st.recalled i).lamp c = es.st.lamp c := fun c => by
    unfold State.recalled
    rw [State.lamp_send, State.lamp_enlisted]
  have unservedAll : ∀ c ∈ (es.recall i .spared).serve, unserved (es.recall i .spared).st c := by
    obtain ⟨y, hy⟩ := hb.call i
    rw [hserve, hst, serve, List.nil_append, hy]
    intro c hck
    have : c = k := by
      simp only [Call.letsGo, hu.call, hr.target] at hck
      split at hck
      · cases hck
      · exact List.mem_singleton.mp hck
    subst this
    exact .inl (by rw [lamp]; exact hb.camp)
  have run : exec (.shelfAnswer l (reportOf more port .fault) orders) s =
      .next ((es.recall i .spared).finish.noteMore l x) := by
    rw [run]
    unfold runEvent
    dsimp only
    rw [body]
  have landed := hu.landed x (hrefusals.trans refusals) unservedAll fun m => by
    rw [hst]
    unfold State.recalled
    rw [State.link_send, State.link_enlisted, hb.link]
    rfl
  have self := es.st.call_recalled i i
  have rests : (((es.recall i .spared).finish.noteMore l x).call i).rests := by
    rw [State.call_noteMore]
    refine Event.finish_rests (hrefusals.trans refusals) unservedAll ?_
    obtain ⟨y, hy⟩ := self
    rw [if_pos rfl] at hy
    rw [hst, hy]
    exact ⟨rfl, rfl⟩
  rw [hst] at landed
  obtain ⟨y, hself⟩ := self
  rw [if_pos rfl] at hself
  obtain ⟨z, hcall⟩ := hb.call i
  have waiting := landed.waiting i
  rw [hself, hcall, hu.call] at waiting
  simp only [Call.waiting, Prod.mk.injEq] at waiting
  obtain ⟨-, -, -, -, -, horigin, -, -, hpending, -⟩ := waiting
  refine ⟨_, run, landed.reported (by rw [lamp]; exact hb.line), landed.recalled hu hb h rests, rests.1, horigin,
    by rw [landed.camp, lamp]; exact hb.camp, hpending, landed.rings.trans ?_, landed.queuedAfter hu fun m => ?_⟩
  · unfold State.recalled
    rw [State.rings_send_tone, State.enlisted_rings, hb.rings, hu.rings]
  · unfold State.recalled
    rw [State.link_send, State.link_enlisted, hb.link, hcall, hu.call]
    rfl

end Sys2Proof.Machine
end

section
/-! SUPPORT. What closing does to calls: a call only ever leaves its circuits, and what has closed stays as it ended
(R7, R15, R16, R19, R130). -/

namespace Sys2Proof.Machine

/-- The call is CLOSING or has been freed. -/
def Call.ended (c : Call) : Prop := c.state = .closing ∨ c.state = .free

/-- What closing calls can make of a call record: it may close; it rings, consults or camps on no circuit that it did not
before; and when it was over before, it is over for the same reason. -/
structure Call.Ebbed (c d : Call) : Prop where
  ties : ∀ k, engages d k → engages c k
  ended : c.ended → d.ended ∧ d.endReason = c.endReason

theorem Call.Ebbed.refl (c : Call) : Call.Ebbed c c := ⟨fun _ h => h, fun h => ⟨h, rfl⟩⟩

theorem Call.Ebbed.trans {a b c : Call} (h : Call.Ebbed a b) (k : Call.Ebbed b c) : Call.Ebbed a c where
  ties := fun x hx => h.ties x (k.ties x hx)
  ended := fun ha => by
    obtain ⟨hb, rb⟩ := h.ended ha
    obtain ⟨hc, rc⟩ := k.ended hb
    exact ⟨hc, rc.trans rb⟩

/-- A record that shows the same state, end reason, target and EXTEND. -/
theorem Call.Ebbed.congr {c d : Call} (hs : d.state = c.state) (hr : d.endReason = c.endReason)
    (ht : d.target = c.target) (hx : d.extend = c.extend) : Call.Ebbed c d where
  ties := fun k hk => by
    unfold engages at hk ⊢
    rw [hs, ht, hx] at hk
    exact hk
  ended := fun h => ⟨by unfold Call.ended at h ⊢; rw [hs]; exact h, hr⟩

theorem Call.not_engages_ended {c : Call} (h : c.ended) (k : Circuit) : ¬ engages c k := fun hk => by
  obtain ⟨-, hs⟩ := engages_iff.mp hk
  rw [Call.tiesTarget_iff] at hs
  rcases h with h | h <;> rw [h] at hs <;> simp at hs

/-- A live record that closes. -/
theorem Call.Ebbed.closes {c d : Call} (hc : ¬ c.ended) (hd : d.ended) : Call.Ebbed c d :=
  ⟨fun k hk => absurd hk (Call.not_engages_ended hd k), fun h => absurd h hc⟩

/-- What taking a call from where it sits, and issuing orders, can make of call records. -/
def Call.Loosened (c d : Call) : Prop := ∃ x y z w n,
  d = { c with place := x, waitDeadline := y, expiryHeld := z, ringPending := w, pending := n }

theorem Call.Loosened.refl (c : Call) : Call.Loosened c c := ⟨_, _, _, _, _, rfl⟩

theorem Call.Loosened.trans {a b c : Call} (h : Call.Loosened a b) (k : Call.Loosened b c) : Call.Loosened a c := by
  obtain ⟨x, y, z, w, n, rfl⟩ := h
  obtain ⟨x', y', z', w', n', rfl⟩ := k
  exact ⟨x', y', z', w', n', rfl⟩

/-- What taking calls from where they sit, and issuing orders that are no hand-over, can make of a state. -/
structure Parted (s : State) (e : Event) : Prop where
  call : ∀ i, Call.Loosened (s.call i) (e.st.call i)
  camp : ∀ k, (s.lamp k).camp = [] → (e.st.lamp k).camp = []
  plain : ∀ r ∈ e.refusals, r.handover = false

theorem Parted.start (e : Event) (h : ∀ r ∈ e.refusals, r.handover = false) : Parted e.st e :=
  ⟨fun _ => .refl _, fun _ h => h, h⟩

section Parted

variable {s : State} {e : Event}

theorem Parted.trans {e' : Event} (h : Parted s e) (k : Parted e.st e') : Parted s e' :=
  ⟨fun i => (h.call i).trans (k.call i), fun c hc => k.camp c (h.camp c hc), k.plain⟩

theorem Parted.ite {c : Prop} [Decidable c] {a b : Event} (ha : c → Parted s a) (hb : ¬ c → Parted s b) :
    Parted s (if c then a else b) := by
  split
  · next h => exact ha h
  · next h => exact hb h

theorem Parted.foldl {α : Type} {f : Event → α → Event} {xs : List α} (h : ∀ e, ∀ x ∈ xs, Parted s e → Parted s (f e x))
    (k : Parted s e) : Parted s (xs.foldl f e) := by
  induction xs generalizing e with
  | nil => exact k
  | cons x xs ih =>
    exact ih (fun e y hy => h e y (List.mem_cons_of_mem _ hy)) (h e x List.mem_cons_self k)

/-- A change of the state that leaves calls and camp lists. -/
theorem Parted.upd {f : State → State} (k : Parted s e) (hc : ∀ i, (f e.st).call i = e.st.call i)
    (hl : ∀ c, ((f e.st).lamp c).camp = (e.st.lamp c).camp) : Parted s (e.upd f) :=
  k.trans ⟨fun i => by show Call.Loosened _ ((f e.st).call i); rw [hc]; exact .refl _,
    fun c hk => (hl c).trans hk, k.plain⟩

theorem Parted.setCall {i : Slot} {c : Call} (k : Parted s e) (h : Call.Loosened (e.st.call i) c) :
    Parted s (e.upd fun s => s.setCall i c) :=
  k.trans ⟨fun j => by
    show Call.Loosened _ ((e.st.setCall i c).call j)
    rw [State.call_setCall]
    split
    · next e => subst e; exact h
    · exact .refl _, fun _ h => h, k.plain⟩

theorem Parted.updCall {i : Slot} {f : Call → Call} (k : Parted s e) (h : ∀ c, Call.Loosened c (f c)) :
    Parted s (e.updCall i f) := k.setCall (h _)

theorem Parted.updPos {p : Pos} {f : Position → Position} (k : Parted s e) : Parted s (e.updPos p f) :=
  k.upd (fun _ => rfl) fun _ => rfl

theorem Parted.updPrt {q : Part} {f : Partition → Partition} (k : Parted s e) : Parted s (e.updPrt q f) :=
  k.upd (fun _ => rfl) fun _ => rfl

theorem Parted.alertTest {q : Part} (k : Parted s e) : Parted s (e.alertTest q) := by
  rw [Event.alertTest_eq]
  exact k.upd (f := fun t => t.alerted q) (fun _ => State.call_alerted _ _ _) fun _ => by rw [State.lamp_alerted]

theorem Parted.renumber {q : Part} (k : Parted s e) : Parted s (e.renumber q) := by
  unfold Event.renumber
  rw [Event.renumberFrom_eq]
  refine k.trans ⟨fun i => ?_, fun c hc => by rw [State.lamp_numbered]; exact hc, k.plain⟩
  obtain ⟨x, hx⟩ := State.call_numbered_place e.st 1 (e.st.prt q).roster i
  show Call.Loosened _ ((e.st.numbered 1 _).call i)
  rw [hx]
  exact ⟨_, _, _, _, _, rfl⟩

theorem Parted.clearOffer {i : Slot} (k : Parted s e) : Parted s (e.clearOffer i) := by
  unfold Event.clearOffer
  split
  · exact .ite (fun _ => k.updPos) fun _ => k
  · exact k

theorem Parted.noted {e' : Event} (k : Parted s e) (hs : e'.st = e.st) (hr : e'.refusals = e.refusals) : Parted s e' :=
  ⟨by rw [hs]; exact k.call, by rw [hs]; exact k.camp, by rw [hr]; exact k.plain⟩

theorem Parted.leaveRoster {i : Slot} {answered : Bool} (k : Parted s e) : Parted s (e.leaveRoster i answered) := by
  unfold Event.leaveRoster
  extract_lets c p e1 e2 e3 e4 left e5
  refine .ite (fun _ => ?_) fun _ => k
  have k1 : Parted s e1 := .ite (fun _ => k.clearOffer) fun _ => k
  have k2 : Parted s e2 := k1.updPrt
  have k4 : Parted s e4 := k2.renumber.updCall fun _ => ⟨_, _, _, _, _, rfl⟩
  have k5 : Parted s e5 := .ite (fun _ => k4.updPrt) fun _ => .ite (fun _ => k4) fun _ => k4.updPrt
  exact (k5.noted (e' := e5.rosterMoved p) rfl rfl).alertTest

theorem Parted.leaveLoop {i : Slot} (k : Parted s e) : Parted s (e.leaveLoop i) := by
  unfold Event.leaveLoop
  dsimp only
  split
  · exact k.updPos
  · exact k

theorem Parted.leaveCamp {i : Slot} (k : Parted s e) : Parted s (e.leaveCamp i) := by
  cases ht : (e.st.call i).target with
  | none =>
    unfold Event.leaveCamp
    rw [ht]
    exact k
  | some x =>
    rw [Event.leaveCamp_eq (n := x.number) (k := x.circuit) ht]
    refine k.trans ⟨fun j => ?_, fun c hc => ?_, k.plain⟩
    · dsimp only
      rw [State.call_leaveCamp]
      split
      · exact ⟨_, _, _, _, _, rfl⟩
      · exact .refl _
    · dsimp only
      rw [State.lamp_leaveCamp]
      split
      · dsimp only
        rw [hc]
        rfl
      · exact hc

theorem Parted.refuse {mode : Issue} {slot : Option Slot} {o : ShelfOrder} {lost : Bool} (k : Parted s e) :
    Parted s (e.refuse mode slot o false lost) := by
  unfold Event.refuse
  split
  · refine .ite (fun _ => k) fun _ => ⟨k.call, k.camp, fun r hr => ?_⟩
    rcases List.mem_append.mp hr with hr | hr
    · exact k.plain r hr
    · rw [List.mem_singleton.mp hr]
  · exact k

theorem Parted.enqueue {slot : Option Slot} {o : ShelfOrder} {handover : Bool} (k : Parted s e) :
    Parted s (e.enqueue slot o handover) := by
  unfold Event.enqueue
  extract_lets c e1 e2
  have k1 : Parted s e1 := k.upd (fun _ => rfl) fun _ => rfl
  have k2 : Parted s e2 := by
    show Parted s (match slot with | some i => _ | none => _)
    split
    · exact k1.updCall fun _ => ⟨_, _, _, _, _, rfl⟩
    · exact k1
  exact .ite (fun _ => k2.upd (fun _ => rfl) fun _ => rfl) fun _ => k2

theorem Parted.issueAs {mode : Issue} {slot : Option Slot} {o : ShelfOrder} (k : Parted s e) :
    Parted s (e.issueAs mode slot o false) := by
  unfold Event.issueAs
  extract_lets e1 sh q
  have k1 : Parted s e1 := by
    show Parted s (e.note slot o)
    unfold Event.note
    split
    · exact k.noted rfl rfl
    · exact k
  exact .ite (fun _ => k1) fun _ => .ite (fun _ => k1.refuse) fun _ => .ite (fun _ => k1.enqueue) fun _ => k1.refuse

theorem Parted.issueAll {how : Issue} {i : Slot} {os : List ShelfOrder} (k : Parted s e) : Parted s (e.issueAll how i os) :=
  .foldl (fun _ _ _ k => k.issueAs) k

theorem Parted.issueTeardown {i : Slot} {os : List ShelfOrder} (k : Parted s e) : Parted s (e.issueTeardown i os) := k.issueAll

theorem Parted.removeCall {i : Slot} (k : Parted s e) : Parted s (e.removeCall i) := by
  unfold Event.removeCall
  dsimp only
  split
  · exact k.leaveRoster
  · exact k.leaveRoster
  · exact k.leaveLoop
  · exact k.leaveLoop
  · exact k.leaveLoop
  · exact k.leaveLoop
  · exact .ite (fun _ => k.leaveCamp.issueTeardown) fun _ => k.leaveCamp
  · exact k

end Parted

/-- What closing calls can make of a state. -/
structure Ebbs (s : State) (e : Event) : Prop where
  call : ∀ i, Call.Ebbed (s.call i) (e.st.call i)
  camp : ∀ k, (s.lamp k).camp = [] → (e.st.lamp k).camp = []
  plain : ∀ r ∈ e.refusals, r.handover = false

section Ebbs

variable {s : State} {e : Event}

theorem Ebbs.start (e : Event) (h : ∀ r ∈ e.refusals, r.handover = false) : Ebbs e.st e :=
  ⟨fun _ => .refl _, fun _ h => h, h⟩

theorem Ebbs.trans {e' : Event} (h : Ebbs s e) (k : Ebbs e.st e') : Ebbs s e' :=
  ⟨fun i => (h.call i).trans (k.call i), fun c hc => k.camp c (h.camp c hc), k.plain⟩

theorem Ebbs.ite {c : Prop} [Decidable c] {a b : Event} (ha : c → Ebbs s a) (hb : ¬ c → Ebbs s b) :
    Ebbs s (if c then a else b) := by
  split
  · next h => exact ha h
  · next h => exact hb h

theorem Ebbs.foldl {α : Type} {f : Event → α → Event} {xs : List α} (h : ∀ e, ∀ x ∈ xs, Ebbs s e → Ebbs s (f e x))
    (k : Ebbs s e) : Ebbs s (xs.foldl f e) := by
  induction xs generalizing e with
  | nil => exact k
  | cons x xs ih =>
    exact ih (fun e y hy => h e y (List.mem_cons_of_mem _ hy)) (h e x List.mem_cons_self k)

theorem Parted.ebbs (k : Parted s e) : Ebbs s e where
  call := fun i => by
    obtain ⟨x, y, z, w, n, h⟩ := k.call i
    rw [h]
    exact .congr rfl rfl rfl rfl
  camp := k.camp
  plain := k.plain

theorem Ebbs.parts {e' : Event} (h : Ebbs s e) (k : Parted e.st e → Parted e.st e') : Ebbs s e' :=
  h.trans (k (Parted.start e h.plain)).ebbs

theorem Ebbs.answerExtendOf {i : Slot} {code : ResultCode} (k : Ebbs s e) : Ebbs s (e.answerExtendOf i code) := by
  have answered : ∀ c : Call, Call.Ebbed c { c with extend := none } := fun c =>
    ⟨fun x hx => by
      obtain ⟨ht, hs⟩ := engages_iff.mp hx
      rw [Call.tiesTarget_iff] at hs
      refine engages_iff.mpr ⟨ht, ?_⟩
      rw [Call.tiesTarget_iff]
      simp only [ne_eq, not_true_eq_false, and_false, or_false] at hs
      rcases hs with (hs | hs | hs) | hs
      · exact .inl (.inl hs)
      · exact .inl (.inr (.inl hs))
      · exact .inl (.inr (.inr (.inl hs)))
      · exact .inr hs, fun h => ⟨h, rfl⟩⟩
  unfold Event.answerExtendOf
  dsimp only
  split
  · rw [Event.answerExtend_eq]
    refine k.trans ⟨fun j => ?_, fun c hc => by rw [State.lamp_endExtend]; exact hc, k.plain⟩
    dsimp only
    rw [State.call_endExtend]
    split
    · exact answered _
    · exact .refl _
  · exact k

theorem Ebbs.freeIfDone {i : Slot} (k : Ebbs s e) : Ebbs s (e.freeIfDone i) := by
  unfold Event.freeIfDone
  refine .ite (fun _ => k) fun _ => ?_
  unfold Event.freeSlot
  dsimp only
  refine .ite (fun h => ?_) fun _ => k
  rw [Event.letGo_eq]
  refine k.trans ⟨fun j => ?_, fun _ hc => hc, k.plain⟩
  have freed : Call.Ebbed (e.st.call i) ((e.st.call i).enter .free e.st.seconds) :=
    ⟨fun x hx => absurd hx (Call.not_engages_ended (.inr rfl) x), fun _ => ⟨.inr rfl, rfl⟩⟩
  show Call.Ebbed _ ((e.st.setCall i ((e.st.call i).enter .free e.st.seconds)).call j)
  rw [State.call_setCall]
  split
  · next e => subst e; exact freed
  · exact .refl _

/-- A call that closes and its end reason: the step after which its record tells how it ended (R15). -/
def Event.shut (e : Event) (i : Slot) (why : EndReason) : Event :=
  (e.toState i .closing).updCall i fun c => { c with endReason := some why }

theorem Event.shut_eq {e : Event} {i : Slot} {why : EndReason} (h : (e.st.call i).state ≠ .free) :
    e.shut i why = { e with
      st := e.st.setCall i { (e.st.call i).enter .closing e.st.seconds with endReason := some why },
      changed := e.changed ++ [i] } := by
  unfold Event.shut Event.updCall Event.upd
  rw [Event.toState_eq e h, if_pos (by decide), List.append_nil]
  dsimp only
  rw [State.call_setCall_self, State.setCall_setCall]

theorem Event.state_answerExtendOf (e : Event) (i : Slot) (code : ResultCode) (j : Slot) :
    ((e.answerExtendOf i code).st.call j).state = (e.st.call j).state := by
  unfold Event.answerExtendOf
  dsimp only
  split
  · rw [Event.answerExtend_eq]
    dsimp only
    rw [State.call_endExtend]
    split <;> rfl
  · rfl

/-- The orders that a call closing in another event than its cause's own issues (R16). -/
def closingOrders (e : Event) (i : Slot) (why : EndReason) : List ShelfOrder :=
  (teardown e.st (e.st.call i)).filter fun o =>
    !(([] : List ShelfOrder).contains o) && !(why == .congestion && o == .tone (e.st.call i).caller .quiet)

/-- A call taken from where it sits, its EXTEND answered (R15, R87). -/
def Event.taken (e : Event) (i : Slot) (why : EndReason) : Event :=
  (e.removeCall i).answerExtendOf i (if why = .callerCleared then .callerGone else .outOfService)

theorem Event.close_live {e : Event} {i : Slot} {why : EndReason} (h : ¬ (e.st.call i).ended) :
    e.close i why false =
      let e' := (e.taken i why).shut i why
      let e' := if why.tearsDown then e'.issueTeardown i (closingOrders e i why) else e'
      let e' := if why.drops then e'.issueTeardown i [.drop (e.st.call i).caller] else e'
      e'.freeIfDone i := by
  have drops : (why.drops && !(([] : List ShelfOrder).contains (.drop (e.st.call i).caller))) = why.drops :=
    Bool.and_true _
  unfold Event.close
  dsimp only
  rw [if_neg fun hc => h hc.symm]
  simp only [Bool.false_eq_true, if_false, drops]
  rfl

theorem Event.taken_live {e : Event} {i : Slot} {why : EndReason} (plain : ∀ r ∈ e.refusals, r.handover = false)
    (h : ¬ (e.st.call i).ended) : ¬ ((e.taken i why).st.call i).ended := by
  obtain ⟨x, y, z, w, n, hc⟩ := ((Parted.start e plain).removeCall (i := i)).call i
  have state : ((e.taken i why).st.call i).state = (e.st.call i).state := by
    unfold Event.taken
    rw [Event.state_answerExtendOf, hc]
  unfold Call.ended at h ⊢
  rw [state]
  exact h

theorem Ebbs.shut {i : Slot} {why : EndReason} (k : Ebbs s e) (h : ¬ (e.st.call i).ended) : Ebbs s (e.shut i why) := by
  rw [Event.shut_eq fun hf => h (.inr hf)]
  refine k.trans ⟨fun j => ?_, fun _ hc => hc, k.plain⟩
  dsimp only
  rw [State.call_setCall]
  split
  · next e => subst e; exact .closes h (.inl rfl)
  · exact .refl _

/-- The steps of a closing after the call has been shut. -/
theorem Ebbs.closing {i : Slot} {why : EndReason} {os : List ShelfOrder} {o : ShelfOrder} (k : Ebbs s e) :
    let e' := if why.tearsDown then e.issueTeardown i os else e
    let e' := if why.drops then e'.issueTeardown i [o] else e'
    Ebbs s (e'.freeIfDone i) := by
  extract_lets e1 e2
  have k1 : Ebbs s e1 := .ite (fun _ => k.parts fun k => k.issueTeardown) fun _ => k
  have k2 : Ebbs s e2 := .ite (fun _ => k1.parts fun k => k.issueTeardown) fun _ => k1
  exact k2.freeIfDone

theorem Ebbs.close {i : Slot} {why : EndReason} (k : Ebbs s e) : Ebbs s (e.close i why false) := by
  by_cases h : (e.st.call i).ended
  · unfold Event.close
    dsimp only
    rw [if_pos h.symm]
    exact k
  · rw [Event.close_live h]
    refine Ebbs.closing (Ebbs.shut ?_ (Event.taken_live k.plain h))
    exact (k.parts fun k => k.removeCall).answerExtendOf

/-- A live call that closes is over, for the reason given (R15). -/
theorem Event.close_ends {i : Slot} {why : EndReason} (plain : ∀ r ∈ e.refusals, r.handover = false)
    (h : ¬ (e.st.call i).ended) :
    ((e.close i why false).st.call i).ended ∧ ((e.close i why false).st.call i).endReason = some why := by
  have live := Event.taken_live (why := why) plain h
  have shut : ((e.taken i why).shut i why).st.call i =
      { ((e.taken i why).st.call i).enter .closing (e.taken i why).st.seconds with endReason := some why } := by
    rw [Event.shut_eq fun hf => live (.inr hf)]
    exact State.call_setCall_self _ _ _
  have plain' : ∀ r ∈ ((e.taken i why).shut i why).refusals, r.handover = false :=
    (Ebbs.shut ((((Ebbs.start e plain).parts fun k => k.removeCall)).answerExtendOf) live).plain
  have tail := (Ebbs.closing (why := why) (i := i) (os := closingOrders e i why) (o := .drop (e.st.call i).caller)
    (Ebbs.start ((e.taken i why).shut i why) plain')).call i
  rw [Event.close_live h]
  obtain ⟨hended, hreason⟩ := tail.ended (by rw [shut]; exact .inl rfl)
  exact ⟨hended, hreason.trans (by rw [shut])⟩

theorem Ebbs.takeRefusal {r : Refused} (k : Ebbs s e) (hr : r.handover = false) : Ebbs s (e.takeRefusal r) := by
  unfold Event.takeRefusal
  dsimp only
  split
  · exact k
  · rw [hr]
    exact k
  · exact .ite (fun _ => k) fun _ => k.close

theorem Ebbs.takeRefusals (k : Ebbs s e) : Ebbs s e.takeRefusals := by
  have emptied : Ebbs s { e with refusals := [] } := ⟨k.call, k.camp, nofun⟩
  exact .foldl (fun _ _ _ k => k.freeIfDone) (.foldl (fun _ r hr k' => k'.takeRefusal (k.plain r hr)) emptied)

theorem Ebbs.serveCamps (k : Ebbs s e) : Ebbs s e.serveCamps := by
  refine .foldl (fun e c _ k => .ite (fun _ => ?_) fun _ => k) k
  unfold Event.ringHead
  split
  · exact .ite (fun _ => k) fun _ => k.parts fun k => k.issueAs.updCall fun _ => ⟨_, _, _, _, _, rfl⟩
  · exact k

theorem Ebbs.settle (n : Nat) (k : Ebbs s e) : Ebbs s (e.settle n) := by
  induction n generalizing e with
  | zero => exact k
  | succ n ih =>
    unfold Event.settle
    have k1 := k.takeRefusals.serveCamps
    exact .ite (fun _ => k1) fun _ => ih k1

/-- A call that is over stays over, for the same reason, to the end of the event. -/
theorem Event.finish_ended {i : Slot} (plain : ∀ r ∈ e.refusals, r.handover = false) (h : (e.st.call i).ended) :
    (e.finish.call i).ended ∧ (e.finish.call i).endReason = (e.st.call i).endReason := by
  obtain ⟨hs, hr⟩ := (((Ebbs.start e plain).settle 80).call i).ended h
  have quiet : Quiet (e.settle 80).st e.finish :=
    Event.commit_quiet (Event.runPasses_quiet (Event.runArbiters_quiet (Event.testPositions_quiet (.refl _))))
  generalize e.settle 80 = v at hs hr quiet
  generalize e.finish = t at quiet ⊢
  have bare := quiet.call i (by rcases hs with hs | hs <;> rw [hs] <;> decide)
  refine ⟨?_, (congrArg Call.endReason bare).trans hr⟩
  unfold Call.ended at hs ⊢
  rw [Call.state_of_bare bare]
  exact hs

end Ebbs

end Sys2Proof.Machine
end

section
/-! SUPPORT. CLEAR and FAULT of a caller: the call ends, whatever becomes of its orders (R15, R20, R21). -/

namespace Sys2Proof.Machine

/-- The reports that end the call of their caller circuit, and for what reason (R20, R21). -/
def endsCaller (s : State) (k : Circuit) (r : ReportKind) (why : EndReason) : Prop :=
  r = .clear ∧ why = .callerCleared ∨ r = .fault ∧ (s.lamp k).line ≠ .outOfService ∧ why = .pathFault

/-- A circuit whose one role is that of the caller of call `i`. -/
structure OnlyCaller (u : State) (k : Circuit) (i : Slot) : Prop extends CallerOf u k i where
  noTarget : ∀ j, ¬ engages (u.call j) k
  noCamp : (u.lamp k).camp = []
  noHeadset : ∀ p, (u.pos p).headset ≠ some k

theorem CallerReports.onlyCaller {s u : State} {l : LinkIx} {f : Frame} {port : Fin 16} {k : Circuit} {i : Slot}
    (h : CallerReports s l f port k i) (hu : Polled s u l f.addr) : OnlyCaller u k i where
  live := by rw [hu.call]; exact h.live
  caller := by rw [hu.call]; exact h.caller
  alone := fun j => by rw [hu.call]; exact h.alone j
  noTarget := fun j => by rw [hu.call]; exact h.noTarget j
  noCamp := by rw [hu.camp]; exact h.noCamp
  noHeadset := fun p => by rw [hu.pos]; exact h.noHeadset p

theorem State.callerOf_eq {t : State} {k : Circuit} {i : Slot} (h : CallerOf t k i) : t.callerOf k = some i := by
  have found : ((t.call i).live && (t.call i).caller == k) = true := by
    rw [Bool.and_eq_true, beq_iff_eq]
    unfold Call.live
    exact ⟨bne_iff_ne.mpr h.live.1, h.caller⟩
  unfold State.callerOf
  cases hf : allSlots.find? fun i => (t.call i).live && (t.call i).caller == k with
  | none =>
    have := List.find?_eq_none.mp hf i (List.mem_finRange i)
    exact absurd found this
  | some j =>
    have hj := List.find?_some hf
    rw [Bool.and_eq_true, beq_iff_eq] at hj
    obtain ⟨live, caller⟩ := hj
    unfold Call.live at live
    by_contra hne
    exact h.alone j (fun e => hne (by rw [e])) (bne_iff_ne.mp live) caller

/-- The first of two events does all that is done, in whatever order they are taken (R145, R149). -/
theorem Event.deliverAll_first {e e' : Event} {c d : Delivery} (two : Bool) (schedule : List Nat) (hc : e.take c = e')
    (before : e.take d = e) (after : e'.take d = e') :
    e.deliverAll schedule [] ([c] ++ if two then [d] else []) = e' := by
  cases two with
  | false => exact (Event.deliverAll_one _ _ _).trans hc
  | true =>
    rcases e.deliverAll_two schedule c d with h | h
    · exact h.trans (by rw [hc, after])
    · exact h.trans (by rw [before, hc])

theorem Event.targetFault_none {e : Event} {k : Circuit} (hr : ∀ j, ¬ engages (e.st.call j) k)
    (hc : (e.st.lamp k).camp = []) : e.targetFault k = e := by
  have unrung : e.st.ringerOf k = none := State.ringerOf_none fun j hj => by
    rw [← Bool.not_eq_true]
    exact fun hties => hr j (engages_iff.mpr ⟨hj, .inl hties⟩)
  unfold Event.targetFault
  rw [unrung]
  dsimp only
  rw [hc]
  rfl

theorem Event.targetClear_free {e : Event} {k : Circuit} (hr : ∀ j, ¬ engages (e.st.call j) k) : e.targetClear k = e :=
  Event.targetClear_none fun j _ ht hs =>
    hr j (engages_iff.mpr ⟨Call.targets_of ht, .inl (Call.tiesTarget_iff.mpr (.inr (.inl hs)))⟩)

theorem report_ends_caller {u : State} {k : Circuit} {i : Slot} {r : ReportKind} {why : EndReason} (schedule : List Nat)
    (h : OnlyCaller u k i) (hr : endsCaller u k r why) :
    (Event.begin u).report k r schedule = (Event.lineSet u k r.line).close i why false := by
  have ebbs : Ebbs (Event.lineSet u k r.line).st ((Event.lineSet u k r.line).close i why false) :=
    (Ebbs.start (Event.lineSet u k r.line) nofun).close
  have camp : ((u.setLine k r.line).lamp k).camp = [] := (u.camp_setLine k r.line k).trans h.noCamp
  have caller : (u.setLine k r.line).callerOf k = some i := State.callerOf_eq ⟨h.live, h.caller, h.alone⟩
  have free : ∀ j, ¬ engages (((Event.lineSet u k r.line).close i why false).st.call j) k := fun j hj =>
    h.noTarget j ((ebbs.call j).ties k hj)
  have taken : (Event.lineSet u k r.line).callerEnds k why = (Event.lineSet u k r.line).close i why false := by
    unfold Event.callerEnds
    rw [show (Event.lineSet u k r.line).st.callerOf k = some i from caller]
  rcases hr with ⟨rfl, rfl⟩ | ⟨rfl, hl, rfl⟩
  · show (Event.lineSet u k .idle).deliverAll schedule [] ((u.setLine k .idle).clearEvents k) = _
    unfold State.clearEvents
    rw [show (u.setLine k .idle).callerOf k = some i from caller]
    exact Event.deliverAll_first _ schedule taken (Event.targetClear_free h.noTarget) (Event.targetClear_free free)
  · have dispatch : (Event.begin u).report k .fault schedule =
        (Event.lineSet u k .outOfService).deliverAll schedule [] ((u.setLine k .outOfService).faultEvents k .pathFault) :=
      if_neg hl
    rw [dispatch]
    unfold State.faultEvents
    rw [show (u.setLine k .outOfService).callerOf k = some i from caller,
      State.isHeadset_false (t := u.setLine k .outOfService) h.noHeadset, if_neg Bool.false_ne_true, List.append_nil]
    exact Event.deliverAll_first _ schedule taken (Event.targetFault_none h.noTarget camp)
      (Event.targetFault_none free (ebbs.camp k camp))

theorem State.lamp_noteMore (v : State) (l : LinkIx) (x : Table Bool 4) (k : Circuit) :
    (v.noteMore l x).lamp k = v.lamp k := rfl

theorem caller_ends {s : State} {l : LinkIx} {f : Frame} {port : Fin 16} {k : Circuit} {i : Slot} {r : ReportKind}
    {why : EndReason} (more : Bool) (orders : List (List Nat)) (h : CallerReports s l f port k i)
    (hr : endsCaller s k r why) :
    ∃ t, exec (.shelfAnswer l (reportOf more port r) orders) s = .next t ∧
      ((t.call i).state = .closing ∨ (t.call i).state = .free) ∧ (t.call i).endReason = some why ∧
      (t.lamp k).line = r.line := by
  obtain ⟨u, x, hu, run⟩ := h.toPollFlies.takes h.circuit more orders r
    (by rcases hr with ⟨rfl, -⟩ | ⟨rfl, -⟩ <;> exact nofun)
  have only := h.onlyCaller hu
  have body := report_ends_caller (orders.headD []) only (why := why) (by unfold endsCaller; rw [hu.line]; exact hr)
  have live : ¬ ((Event.lineSet u k r.line).st.call i).ended := fun hc => hc.elim only.live.2 only.live.1
  obtain ⟨ended, reason⟩ := Event.close_ends (e := Event.lineSet u k r.line) (why := why) nofun live
  have plain := (Ebbs.close (i := i) (why := why) (Ebbs.start (Event.lineSet u k r.line) nofun)).plain
  obtain ⟨ended, reason'⟩ := Event.finish_ended plain ended
  have keeps : Keeps (u.setLine k r.line) ((Event.lineSet u k r.line).close i why false).finish :=
    Event.finish_keeps (Event.close_keeps (e := Event.lineSet u k r.line) (Keeps.refl _))
  have line := keeps.lamp k
  simp only [Lamp.core, Prod.mk.injEq] at line
  obtain ⟨-, line, -⟩ := line
  refine ⟨_, run, ?_⟩
  unfold runEvent
  dsimp only
  rw [body, State.call_noteMore, State.lamp_noteMore]
  exact ⟨ended, reason'.trans reason, line.trans (State.line_setLine _ _ _)⟩

end Sys2Proof.Machine
end

section
/-! SUPPORT. What taking a call from where it sits writes: its roster, its loop or its camp list (R15, R27, R70, R84). -/

namespace Sys2Proof.Machine

/-- A call has been taken from where it sat, and nothing has been issued: its own record shows less, the members of its
roster may have new places, and its panel, its partition and the lamp entry of circuit `g` may have changed. -/
structure Removing (e₀ e : Event) (i : Slot) (g : Circuit) : Prop where
  self : ∃ x y z w, e.st.call i = { e₀.st.call i with place := x, waitDeadline := y, expiryHeld := z, ringPending := w }
  others : ∀ j, j ≠ i → j ∉ (e₀.st.prt (e₀.st.call i).partition).roster → e.st.call j = e₀.st.call j
  pos : ∀ x, (e₀.st.call i).position ≠ some x → (e.st.pos x).bare = (e₀.st.pos x).bare
  panel : ∀ x, (e.st.pos x).extendCell = (e₀.st.pos x).extendCell
  prt : ∀ q, q ≠ (e₀.st.call i).partition → e.st.prt q = e₀.st.prt q
  lamp : ∀ c, c ≠ g → e.st.lamp c = e₀.st.lamp c
  line : ∀ c, (e.st.lamp c).line = (e₀.st.lamp c).line
  camp : i ∉ (e₀.st.lamp g).camp → i ∉ (e.st.lamp g).camp
  link : ∀ m, e.st.link m = e₀.st.link m
  rings : e.st.rings = e₀.st.rings
  free : e.st.free = e₀.st.free
  seconds : e.st.seconds = e₀.st.seconds
  mem : e.st.mem = e₀.st.mem
  refusals : e.refusals = e₀.refusals
  serve : e.serve = e₀.serve

theorem Removing.refl (e : Event) (i : Slot) (g : Circuit) : Removing e e i g where
  self := ⟨_, _, _, _, rfl⟩
  others := fun _ _ _ => rfl
  pos := fun _ _ => rfl
  panel := fun _ => rfl
  prt := fun _ _ => rfl
  lamp := fun _ _ => rfl
  line := fun _ => rfl
  camp := fun h => h
  link := fun _ => rfl
  rings := rfl
  free := rfl
  seconds := rfl
  mem := rfl
  refusals := rfl
  serve := rfl

section Removing

variable {e₀ e : Event} {i : Slot} {g : Circuit}

theorem Removing.ite {c : Prop} [Decidable c] {a b : Event} (ha : c → Removing e₀ a i g) (hb : ¬ c → Removing e₀ b i g) :
    Removing e₀ (if c then a else b) i g := by
  split
  · next h => exact ha h
  · next h => exact hb h

theorem Removing.noted {e' : Event} (k : Removing e₀ e i g) (hs : e'.st = e.st) (hr : e'.refusals = e.refusals)
    (hv : e'.serve = e.serve) : Removing e₀ e' i g := by
  obtain ⟨h1, h2, h3, h4, h5, h6, h7, h8, h9, h10, h11, h12, h13, h14, h15⟩ := k
  rw [← hs] at h1 h2 h3 h4 h5 h6 h7 h8 h9 h10 h11 h12 h13
  exact ⟨h1, h2, h3, h4, h5, h6, h7, h8, h9, h10, h11, h12, h13, hr.trans h14, hv.trans h15⟩

theorem Removing.rosterMoved {q : Part} (k : Removing e₀ e i g) : Removing e₀ (e.rosterMoved q) i g :=
  k.noted rfl rfl rfl

theorem Removing.updPos {p : Pos} {f : Position → Position} (k : Removing e₀ e i g)
    (hp : (e₀.st.call i).position ≠ some p → ∀ q, (f q).bare = q.bare) (hc : ∀ q, (f q).extendCell = q.extendCell) :
    Removing e₀ (e.updPos p f) i g :=
  { k with
    pos := fun x hx => by
      show ((e.st.setPos p (f (e.st.pos p))).pos x).bare = _
      rw [State.pos_setPos]
      split
      · next e => subst e; exact (hp hx _).trans (k.pos _ hx)
      · exact k.pos x hx
    panel := fun x => by
      show ((e.st.setPos p (f (e.st.pos p))).pos x).extendCell = _
      rw [State.pos_setPos]
      split
      · next e => subst e; exact (hc _).trans (k.panel _)
      · exact k.panel x }

theorem Removing.updPrt {f : Partition → Partition} (k : Removing e₀ e i g) :
    Removing e₀ (e.updPrt (e₀.st.call i).partition f) i g :=
  { k with
    prt := fun q hq => by
      show (e.st.setPrt (e₀.st.call i).partition _).prt q = _
      rw [State.prt_setPrt_ne _ _ (Ne.symm hq)]
      exact k.prt q hq }

theorem Removing.alertTest (k : Removing e₀ e i g) : Removing e₀ (e.alertTest (e₀.st.call i).partition) i g := by
  rw [Event.alertTest_eq]
  exact {
    self := by obtain ⟨x, y, z, w, h⟩ := k.self; exact ⟨x, y, z, w, (State.call_alerted _ _ _).trans h⟩
    others := fun j hj hr => (State.call_alerted _ _ _).trans (k.others j hj hr)
    pos := fun x hx => (congrArg Position.bare (State.pos_alerted _ _ _)).trans (k.pos x hx)
    panel := fun x => (congrArg Position.extendCell (State.pos_alerted _ _ _)).trans (k.panel x)
    prt := fun q hq => ((State.prt_alerted _ _ _).trans (if_neg (Ne.symm hq))).trans (k.prt q hq)
    lamp := fun c hc => (State.lamp_alerted _ _ _).trans (k.lamp c hc)
    line := fun c => (congrArg Lamp.line (State.lamp_alerted _ _ _)).trans (k.line c)
    camp := fun h => by rw [State.lamp_alerted]; exact k.camp h
    link := fun m => (State.link_alerted _ _ _).trans (k.link m)
    rings := (State.alerted_rings _ _).trans k.rings
    free := (State.alerted_free _ _).trans k.free
    seconds := (State.alerted_seconds _ _).trans k.seconds
    mem := (State.alerted_mem _ _).trans k.mem
    refusals := k.refusals
    serve := k.serve }

theorem Removing.renumber {q : Part} (k : Removing e₀ e i g)
    (hq : ∀ j ∈ (e.st.prt q).roster, j ∈ (e₀.st.prt (e₀.st.call i).partition).roster) :
    Removing e₀ (e.renumber q) i g := by
  unfold Event.renumber
  rw [Event.renumberFrom_eq]
  exact {
    self := by
      obtain ⟨x, y, z, w, h⟩ := k.self
      obtain ⟨x', h'⟩ := State.call_numbered_place e.st 1 (e.st.prt q).roster i
      exact ⟨x', y, z, w, h'.trans (by rw [h])⟩
    others := fun j hj hr => (State.call_numbered_out _ _ _ fun hm => hr (hq j hm)).trans (k.others j hj hr)
    pos := fun x hx => (congrArg Position.bare (State.pos_numbered _ _ _ _)).trans (k.pos x hx)
    panel := fun x => (congrArg Position.extendCell (State.pos_numbered _ _ _ _)).trans (k.panel x)
    prt := fun q hq => (State.prt_numbered _ _ _ _).trans (k.prt q hq)
    lamp := fun c hc => (State.lamp_numbered _ _ _ _).trans (k.lamp c hc)
    line := fun c => (congrArg Lamp.line (State.lamp_numbered _ _ _ _)).trans (k.line c)
    camp := fun h => by rw [State.lamp_numbered]; exact k.camp h
    link := fun m => (State.link_numbered _ _ _ _).trans (k.link m)
    rings := (State.numbered_rings _ _ _).trans k.rings
    free := (State.numbered_free _ _ _).trans k.free
    seconds := (State.numbered_seconds _ _ _).trans k.seconds
    mem := (State.numbered_mem _ _ _).trans k.mem
    refusals := k.refusals
    serve := k.serve }

theorem Removing.unplaced (k : Removing e₀ e i g) :
    Removing e₀ (e.updCall i fun c => { c with place := none, waitDeadline := none, expiryHeld := false }) i g :=
  { k with
    self := by
      obtain ⟨x, y, z, w, h⟩ := k.self
      refine ⟨none, none, false, w, (State.call_setCall_self _ _ _).trans ?_⟩
      rw [h]
    others := fun j hj hr => (State.call_setCall_ne _ _ (Ne.symm hj)).trans (k.others j hj hr) }

theorem Removing.clearOffer (k : Removing e₀ e i g) : Removing e₀ (e.clearOffer i) i g := by
  unfold Event.clearOffer
  split
  · exact .ite (fun _ => k.updPos (fun _ _ => rfl) fun _ => rfl) fun _ => k
  · exact k

theorem Event.clearOffer_prt (e : Event) (i : Slot) (q : Part) : (e.clearOffer i).st.prt q = e.st.prt q := by
  unfold Event.clearOffer
  split
  · split <;> rfl
  · rfl

theorem Event.leaveRoster_removing (e : Event) (i : Slot) (g : Circuit) : Removing e (e.leaveRoster i false) i g := by
  have k := Removing.refl e i g
  unfold Event.leaveRoster
  extract_lets c p e1 e2 e3 e4 left e5
  refine .ite (fun _ => ?_) fun _ => k
  have k1 : Removing e e1 i g := .ite (fun _ => k.clearOffer) fun _ => k
  have prt1 : e1.st.prt p = e.st.prt p := by
    show (if c.state = .offered then e.clearOffer i else e).st.prt p = _
    split
    · exact e.clearOffer_prt i p
    · rfl
  have k2 : Removing e e2 i g := k1.updPrt
  have roster2 : (e2.st.prt p).roster = (e.st.prt p).roster.filter (· != i) := by
    show ((e1.st.setPrt p _).prt p).roster = _
    rw [State.prt_setPrt_self, prt1]
  have k4 : Removing e e4 i g :=
    (k2.renumber (q := p) fun j hj => by rw [roster2] at hj; exact List.mem_of_mem_filter hj).unplaced
  have k5 : Removing e e5 i g :=
    .ite (fun h => absurd h Bool.false_ne_true) fun _ => .ite (fun _ => k4) fun _ => k4.updPrt
  exact k5.rosterMoved.alertTest

theorem Event.leaveLoop_removing (e : Event) (i : Slot) (g : Circuit) : Removing e (e.leaveLoop i) i g := by
  unfold Event.leaveLoop
  dsimp only
  split
  · next p l hp _ =>
    refine (Removing.refl e i g).updPos (fun h => absurd hp h) fun q => ?_
    split <;> rfl
  · exact .refl e i g

theorem Event.leaveCamp_removing {e : Event} {i : Slot} {g : Circuit} {n : Word}
    (ht : (e.st.call i).target = some { number := n, circuit := g }) : Removing e (e.leaveCamp i) i g := by
  rw [Event.leaveCamp_eq ht]
  exact { Removing.refl e i g with
    self := ⟨_, _, _, _, (State.call_leaveCamp _ _ _ _).trans (if_pos rfl)⟩
    others := fun j hj _ => (State.call_leaveCamp _ _ _ _).trans (if_neg (Ne.symm hj))
    lamp := fun c hc => (State.lamp_leaveCamp _ _ _ _).trans (if_neg (Ne.symm hc))
    line := fun c => by
      dsimp only
      rw [State.lamp_leaveCamp]
      split <;> rfl
    camp := fun h => by
      dsimp only
      rw [State.lamp_leaveCamp, if_pos rfl]
      exact fun hm => h (List.mem_of_mem_filter hm) }

end Removing

end Sys2Proof.Machine
end

section
/-! SUPPORT. CLEAR and FAULT of a caller whose orders find room: the exact end of the call (R15 to R17, R20, R21). -/

namespace Sys2Proof.Machine

/-! ### Taking the call from where it sits (R15, R102) -/

theorem Event.leaveLoop_leaves (e : Event) {i : Slot} {p : Pos} {m : LoopIx} (hp : (e.st.call i).position = some p)
    (hm : (e.st.call i).loop = some m) : ((e.leaveLoop i).st.pos p).loops.get m ≠ some i := by
  unfold Event.leaveLoop
  dsimp only
  rw [hp, hm]
  dsimp only [Event.updPos, Event.upd]
  rw [State.pos_setPos_self]
  split
  · dsimp only
    rw [Table.get_set_self]
    exact nofun
  · next h => exact h

theorem Event.leaveCamp_leaves (e : Event) {i : Slot} {n : Word} {g : Circuit}
    (ht : (e.st.call i).target = some { number := n, circuit := g }) : i ∉ ((e.leaveCamp i).st.lamp g).camp := by
  rw [Event.leaveCamp_eq ht]
  dsimp only
  rw [State.lamp_leaveCamp, if_pos rfl]
  simp

/-- The order that a camped call's pending ring takes back (R102). -/
def campOrders (c : Call) (g : Circuit) : List ShelfOrder :=
  if c.state = .camped ∧ c.ringPending = true then [.unring g] else []

/-- The call has left its loop and its camp list. -/
structure Unseated (e₀ e : Event) (i : Slot) (g : Circuit) : Prop extends Removing e₀ e i g where
  loop : loopState (e₀.st.call i).state → ∀ p m, (e₀.st.call i).position = some p → (e₀.st.call i).loop = some m →
    (e.st.pos p).loops.get m ≠ some i
  off : i ∉ (e.st.lamp g).camp

section RemoveCall

variable {e : Event} {i : Slot}

theorem Event.removeCall_loop (hs : loopState (e.st.call i).state) : e.removeCall i = e.leaveLoop i := by
  unfold Event.removeCall
  dsimp only
  rcases hs with hs | hs | hs | hs <;> rw [hs]

theorem Event.removeCall_roster (hs : rosterState (e.st.call i).state) : e.removeCall i = e.leaveRoster i false := by
  unfold Event.removeCall
  dsimp only
  rcases hs with hs | hs <;> rw [hs]

theorem Event.removeCall_camp (hs : (e.st.call i).state = .camped) {n : Word} {g : Circuit}
    (ht : (e.st.call i).target = some { number := n, circuit := g }) :
    e.removeCall i = (e.leaveCamp i).issueTeardown i (campOrders (e.st.call i) g) := by
  unfold Event.removeCall campOrders withTarget
  dsimp only
  rw [hs, ht]
  cases (e.st.call i).ringPending <;> rfl

theorem Event.removeCall_alone (hl : ¬ loopState (e.st.call i).state) (hr : ¬ rosterState (e.st.call i).state)
    (hc : (e.st.call i).state ≠ .camped) : e.removeCall i = e := by
  unfold loopState at hl
  unfold rosterState at hr
  unfold Event.removeCall
  dsimp only
  split <;> simp_all

theorem Event.removeCall_unseated {p : Pos} {h g a : Circuit} (legs : CallerLegs e.st i p h g a) :
    ∃ mid, Unseated e mid i g ∧ e.removeCall i = mid.issueTeardown i (campOrders (e.st.call i) g) := by
  by_cases hc : (e.st.call i).state = .camped
  · obtain ⟨n, ht⟩ := legs.target (.inr (.inr (.inr (.inl hc))))
    refine ⟨e.leaveCamp i, ⟨Event.leaveCamp_removing ht, fun hl => ?_, e.leaveCamp_leaves ht⟩,
      Event.removeCall_camp hc ht⟩
    rw [hc] at hl
    unfold loopState at hl
    simp at hl
  · have silent : campOrders (e.st.call i) g = [] := if_neg fun h => hc h.1
    rw [silent]
    by_cases hl : loopState (e.st.call i).state
    · have k := e.leaveLoop_removing i g
      exact ⟨_, ⟨k, fun _ _ _ => e.leaveLoop_leaves, k.camp (legs.camp hc)⟩, Event.removeCall_loop hl⟩
    · by_cases hr : rosterState (e.st.call i).state
      · have k := e.leaveRoster_removing i g
        exact ⟨_, ⟨k, fun h => absurd h hl, k.camp (legs.camp hc)⟩, Event.removeCall_roster hr⟩
      · exact ⟨e, ⟨.refl e i g, fun h => absurd h hl, legs.camp hc⟩, Event.removeCall_alone hl hr hc⟩

end RemoveCall

/-! ### The teardown (R16, R17, R102) -/

theorem closingOrders_eq {e : Event} {i : Slot} {why : EndReason} (h : why ≠ .congestion) :
    closingOrders e i why = teardown e.st (e.st.call i) := by
  unfold closingOrders
  rw [List.filter_eq_self]
  intro o _
  have : (why == EndReason.congestion) = false := beq_false_of_ne h
  rw [this]
  rfl

/-- The teardown of a closing call, with the UNRING of its camp ring before it. -/
theorem teardown_eq {t : State} {i : Slot} {p : Pos} {h g a : Circuit} (legs : CallerLegs t i p h g a) :
    campOrders (t.call i) g ++ teardown t (t.call i) = teardownOrders (t.call i) h g a := by
  have headset : loopState (t.call i).state → t.headsetOf (t.call i) = some h := fun hl => by
    obtain ⟨hp, hh⟩ := legs.headset hl
    unfold State.headsetOf
    rw [hp]
    exact hh
  unfold campOrders teardown teardownOrders headsetTarget withTarget withHeadset
  cases hs : (t.call i).state with
  | talking =>
    dsimp only
    rw [headset (.inl hs)]
    by_cases hx : (t.call i).extend = none
    · rw [hx]
      rfl
    · obtain ⟨n, ht⟩ := legs.target (.inr (.inr (.inr (.inr ⟨hs, hx⟩))))
      rw [if_neg hx, if_pos (Option.isSome_iff_ne_none.mpr hx), ht]
      rfl
  | consultRinging =>
    obtain ⟨n, ht⟩ := legs.target (.inl hs)
    rw [headset (.inr (.inr (.inl hs))), ht]
    rfl
  | consultTalking =>
    obtain ⟨n, ht⟩ := legs.target (.inr (.inl hs))
    rw [headset (.inr (.inr (.inr hs))), ht]
    rfl
  | ringingOut =>
    obtain ⟨n, ht⟩ := legs.target (.inr (.inr (.inl hs)))
    rw [ht]
    rfl
  | camped => cases (t.call i).ringPending <;> rfl
  | announced =>
    rw [legs.announcer hs]
    rfl
  | _ => rfl

/-! ### The state in which the call has closed -/

theorem State.room_append_left {t : State} {xs ys : List ShelfOrder} (h : t.room (xs ++ ys)) : t.room xs := fun o ho => by
  obtain ⟨running, space⟩ := h o (List.mem_append_left _ ho)
  rw [List.length_append] at space
  exact ⟨running, by omega⟩

theorem State.room_sendAll {t : State} {i : Slot} {xs ys : List ShelfOrder} (h : t.room (xs ++ ys)) :
    (t.sendAll i xs).room ys := by
  induction xs generalizing t with
  | nil => exact h
  | cons o os ih => exact ih (t := t.send i o false) (State.room_send h)

/-- The EXTEND in flight for a call is answered, if there is one. -/
def State.extendOver (t : State) (p : Pos) (i : Slot) (code : ResultCode) : State :=
  if (t.call i).extend = none then t else t.endExtend p i code

section ExtendOver

variable (t : State) (p : Pos) (i : Slot) (code : ResultCode)

theorem State.call_extendOver (j : Slot) :
    (t.extendOver p i code).call j = if i = j then { t.call j with extend := none } else t.call j := by
  unfold State.extendOver
  split
  · next h =>
    split
    · next e =>
      subst e
      rw [← h]
    · rfl
  · exact State.call_endExtend _ _ _ _ _

theorem State.pos_extendOver (x : Pos) : (t.extendOver p i code).pos x =
    if p = x ∧ (t.call i).extend ≠ none then { t.pos x with extend := none, extendCell := none } else t.pos x := by
  unfold State.extendOver
  split
  · next h => rw [if_neg fun hn => hn.2 h]
  · next h =>
    rw [State.pos_endExtend]
    by_cases hp : p = x
    · rw [if_pos hp, if_pos ⟨hp, h⟩]
    · rw [if_neg hp, if_neg fun hn => hp hn.1]

@[simp] theorem State.prt_extendOver (q : Part) : (t.extendOver p i code).prt q = t.prt q := by
  unfold State.extendOver; split <;> simp
@[simp] theorem State.lamp_extendOver (k : Circuit) : (t.extendOver p i code).lamp k = t.lamp k := by
  unfold State.extendOver; split <;> simp
@[simp] theorem State.link_extendOver (l : LinkIx) : (t.extendOver p i code).link l = t.link l := by
  unfold State.extendOver; split <;> simp
@[simp] theorem State.extendOver_rings : (t.extendOver p i code).rings = t.rings := by
  unfold State.extendOver; split <;> simp
@[simp] theorem State.extendOver_free : (t.extendOver p i code).free = t.free := by
  unfold State.extendOver; split <;> simp
@[simp] theorem State.extendOver_seconds : (t.extendOver p i code).seconds = t.seconds := by
  unfold State.extendOver; split <;> simp

end ExtendOver

theorem Event.answerExtendOf_over {e : Event} {i : Slot} {p : Pos} {code : ResultCode}
    (hp : (e.st.call i).extend ≠ none → (e.st.call i).position = some p) :
    e.answerExtendOf i code = { e with st := e.st.extendOver p i code } := by
  unfold State.extendOver
  split
  · next h => exact Event.answerExtendOf_none h
  · next h => exact Event.answerExtendOf_eq h (hp h)

/-- A call that had been taken from where it sat has closed, with its orders on their way. -/
def State.torn (m : State) (i : Slot) (p : Pos) (code : ResultCode) (why : EndReason) (first rest : List ShelfOrder) :
    State :=
  let t := (m.sendAll i first).extendOver p i code
  (t.setCall i { (t.call i).enter .closing t.seconds with endReason := some why }).sendAll i rest

section Torn

variable (m : State) (i : Slot) (p : Pos) (code : ResultCode) (why : EndReason) (first rest : List ShelfOrder)

theorem State.call_torn (j : Slot) : (m.torn i p code why first rest).call j =
    if i = j then
      { Call.enter { m.call j with pending := (m.call j).pending + first.length, extend := none } .closing m.seconds with
        endReason := some why, pending := (m.call j).pending + (first ++ rest).length }
    else m.call j := by
  unfold State.torn
  dsimp only
  rw [State.call_sendAll, State.call_setCall]
  split
  · next e =>
    subst e
    rw [State.call_extendOver, State.call_sendAll, State.extendOver_seconds, State.sendAll_seconds,
      List.length_append, ← Nat.add_assoc]
    simp only [if_true]
    rfl
  · next e => rw [State.call_extendOver, if_neg e, State.call_sendAll, if_neg e]

theorem State.pos_torn (x : Pos) : (m.torn i p code why first rest).pos x =
    if p = x ∧ (m.call i).extend ≠ none then { m.pos x with extend := none, extendCell := none } else m.pos x := by
  unfold State.torn
  dsimp only
  rw [State.pos_sendAll, State.pos_setCall, State.pos_extendOver, State.pos_sendAll, State.call_sendAll, if_pos rfl]

theorem State.link_torn (l : LinkIx) : (m.torn i p code why first rest).link l =
    { m.link l with queue := (m.link l).queue ++ (entries i (first ++ rest)).filter fun x => linkOf x.order.first == l } := by
  unfold State.torn
  dsimp only
  rw [State.link_sendAll, State.link_setCall, State.link_extendOver, State.link_sendAll]
  simp [entries, List.append_assoc]

@[simp] theorem State.prt_torn (q : Part) : (m.torn i p code why first rest).prt q = m.prt q := by simp [State.torn]
@[simp] theorem State.lamp_torn (k : Circuit) : (m.torn i p code why first rest).lamp k = m.lamp k := by simp [State.torn]
@[simp] theorem State.torn_free : (m.torn i p code why first rest).free = m.free := by simp [State.torn]

theorem State.torn_rings (h : ∀ o ∈ first ++ rest, o.isRing = false) :
    (m.torn i p code why first rest).rings = m.rings := by
  unfold State.torn
  dsimp only
  rw [State.rings_sendAll _ _ _ fun o ho => h o (List.mem_append_right _ ho), State.setCall_rings,
    State.extendOver_rings, State.rings_sendAll _ _ _ fun o ho => h o (List.mem_append_left _ ho)]

theorem State.torn_answered {d : CellIx} (hw : Memory.wf m.mem = true) (hx : (m.call i).extend ≠ none)
    (hd : (m.pos p).extendCell = some d) : (m.torn i p code why first rest).answered d code 0 := by
  have ended := State.endExtend_answered (m.sendAll i first) p i code (by rw [State.sendAll_mem]; exact hw)
    (by rw [State.pos_sendAll]; exact hd)
  have answers : (m.sendAll i first).extendOver p i code = (m.sendAll i first).endExtend p i code :=
    if_neg (by rw [State.call_sendAll, if_pos rfl]; exact hx)
  unfold State.torn
  dsimp only
  rw [answers]
  refine State.answered_congr ?_ ?_ ?_ (fun hf => ?_) ended
  · rw [State.sendAll_mem]; rfl
  · rw [State.sendAll_taker]; rfl
  · rw [State.sendAll_seconds]; rfl
  · unfold State.flag at hf ⊢
    rw [State.sendAll_regs]
    exact hf

end Torn

theorem State.shelfOf_sendAll (t : State) (i : Slot) (os : List ShelfOrder) (k : Circuit) :
    (t.sendAll i os).shelfOf k = t.shelfOf k := by
  unfold State.shelfOf
  rw [State.link_sendAll]

theorem Event.issueTeardown_append (e : Event) (i : Slot) (xs ys : List ShelfOrder) :
    (e.issueTeardown i xs).issueTeardown i ys = e.issueTeardown i (xs ++ ys) := List.foldl_append.symm

/-- The closing of a live call, its DROP written as one more order of the teardown. -/
theorem Event.close_orders {e : Event} {i : Slot} {why : EndReason} (live : ¬ (e.st.call i).ended)
    (tears : why.tearsDown = true) (congestion : why ≠ .congestion) :
    e.close i why false =
      (((e.taken i why).shut i why).issueTeardown i
        (teardown e.st (e.st.call i) ++ if why.drops then [.drop (e.st.call i).caller] else [])).freeIfDone i := by
  rw [Event.close_live live, ← Event.issueTeardown_append, closingOrders_eq congestion]
  dsimp only
  rw [if_pos tears]
  split <;> rfl

/-- A live call that closes with room for its orders. -/
theorem Event.close_torn {e : Event} {i : Slot} {p : Pos} {h g a : Circuit} {why : EndReason} {os : List ShelfOrder}
    (live : ¬ (e.st.call i).ended) (legs : CallerLegs e.st i p h g a) (tears : why.tearsDown = true)
    (congestion : why ≠ .congestion) (some_order : os ≠ [])
    (ho : os = teardownOrders (e.st.call i) h g a ++ if why.drops then [.drop (e.st.call i).caller] else [])
    (room : e.st.room os) (reach : reachable e.st os) :
    ∃ mid rest, Unseated e mid i g ∧ campOrders (e.st.call i) g ++ rest = os ∧
      (e.close i why false).st =
        mid.st.torn i p (if why = .callerCleared then .callerGone else .outOfService) why
          (campOrders (e.st.call i) g) rest ∧
      (e.close i why false).refusals = e.refusals ∧ (e.close i why false).serve = e.serve := by
  obtain ⟨mid, k, removed⟩ := Event.removeCall_unseated legs
  obtain ⟨x, y, z, w, self⟩ := k.self
  refine ⟨mid, teardown e.st (e.st.call i) ++ if why.drops then [.drop (e.st.call i).caller] else [], k,
    by rw [ho, ← List.append_assoc, teardown_eq legs], ?_⟩
  rw [← teardown_eq legs, List.append_assoc] at ho
  rw [Event.close_orders live tears congestion]
  revert ho
  generalize campOrders (e.st.call i) g = first at removed
  generalize (teardown e.st (e.st.call i) ++ if why.drops then [.drop (e.st.call i).caller] else []) = rest
  intro ho
  rw [ho] at room reach some_order
  generalize hcode : (if why = .callerCleared then .callerGone else .outOfService : ResultCode) = code
  have shelf : ∀ c, mid.st.shelfOf c = e.st.shelfOf c := fun c => by unfold State.shelfOf; rw [k.link]
  have roomMid : mid.st.room (first ++ rest) := fun o hm => by rw [k.link]; exact room o hm
  have sent := Event.issueAll_send first mid (how := .teardown) (i := i) (State.room_append_left roomMid) fun o hm =>
    .inr (by rw [shelf]; exact reach o (List.mem_append_left _ hm))
  have sentCall : (mid.st.sendAll i first).call i = { mid.st.call i with pending := (mid.st.call i).pending + first.length } :=
    (State.call_sendAll _ _ _ _).trans (if_pos rfl)
  have taken : e.taken i why = { mid with
      st := (mid.st.sendAll i first).extendOver p i code, log := mid.log ++ first.map fun o => (i, o) } := by
    unfold Event.taken
    rw [hcode, removed]
    refine (congrArg (Event.answerExtendOf · i code) sent).trans (Event.answerExtendOf_over ?_)
    dsimp only
    rw [sentCall, self]
    exact legs.extend
  have stays : (((mid.st.sendAll i first).extendOver p i code).call i).state = (e.st.call i).state := by
    rw [State.call_extendOver, if_pos rfl, sentCall, self]
  rw [taken, Event.shut_eq (by dsimp only; rw [stays]; exact fun h => live (.inr h))]
  unfold Event.issueTeardown
  rw [Event.issueAll_send rest _ ?_ ?_, Event.freeIfDone_pending]
  · exact ⟨rfl, k.refusals, k.serve⟩
  · dsimp only
    rw [State.call_sendAll, if_pos rfl, State.call_setCall_self, State.call_extendOver, if_pos rfl, sentCall]
    show (mid.st.call i).pending + first.length + rest.length ≠ 0
    have := List.length_pos_of_ne_nil some_order
    rw [List.length_append] at this
    omega
  · intro o hm
    dsimp only
    rw [State.link_setCall, State.link_extendOver]
    exact State.room_sendAll roomMid o hm
  · intro o hm
    refine .inr ?_
    have : ∀ t c q, State.shelfOf (State.setCall (State.extendOver t p i code) i c) q = t.shelfOf q := fun t c q => by
      unfold State.shelfOf
      rw [State.link_setCall, State.link_extendOver]
    dsimp only
    rw [this, State.shelfOf_sendAll, shelf]
    exact reach o (List.mem_append_right _ hm)

end Sys2Proof.Machine
end

section
/-! SUPPORT. CLEAR and FAULT of a caller, to the end of the event; and O41. -/

namespace Sys2Proof.Machine

theorem CallerLegs.setLine {s u : State} {l : LinkIx} {b : Addr} {i : Slot} {p : Pos} {h g a : Circuit}
    (legs : CallerLegs s i p h g a) (hu : Polled s u l b) (k : Circuit) (x : LineState) :
    CallerLegs (u.setLine k x) i p h g a where
  headset := by rw [State.call_setLine, State.pos_setLine, hu.call, hu.pos]; exact legs.headset
  target := by rw [State.call_setLine, hu.call]; exact legs.target
  camp := by rw [State.call_setLine, State.camp_setLine, hu.call, hu.camp]; exact legs.camp
  announcer := by rw [State.call_setLine, hu.call]; exact legs.announcer
  extend := by rw [State.call_setLine, hu.call]; exact legs.extend

/-- Each of these reports ends the call for one reason, answers its EXTEND with one code, and issues these orders. -/
def endingOf (s : State) (k : Circuit) (r : ReportKind) (why : EndReason) (code : ResultCode) (c : Call) (h g a : Circuit)
    (os : List ShelfOrder) : Prop :=
  r = .clear ∧ why = .callerCleared ∧ code = .callerGone ∧ os = teardownOrders c h g a ∨
    r = .fault ∧ (s.lamp k).line ≠ .outOfService ∧ why = .pathFault ∧ code = .outOfService ∧
      os = teardownOrders c h g a ++ [.drop c.caller]

/-- A closing call of a caller issues something (R16). -/
theorem teardownOrders_ne_nil {c : Call} (h g a : Circuit) (hc : ¬ c.ended) : teardownOrders c h g a ≠ [] := by
  unfold teardownOrders
  unfold Call.ended at hc
  split <;> simp_all
  · split <;> simp
  · split <;> simp

/-- No order of a teardown is a RING. -/
theorem teardownOrders_isRing (c : Call) (h g a : Circuit) : ∀ o ∈ teardownOrders c h g a, o.isRing = false := by
  unfold teardownOrders
  split <;> (try split) <;> simp [ShelfOrder.isRing]

theorem Lands.torn {u : State} {k : Circuit} {i : Slot} {r : ReportKind} {why : EndReason} {schedule : List Nat}
    {p : Pos} {h g a : Circuit} {code : ResultCode} {os : List ShelfOrder} (only : OnlyCaller u k i)
    (legs : CallerLegs (u.setLine k r.line) i p h g a) (ending : endingOf u k r why code (u.call i) h g a os)
    (room : u.room os) (reach : reachable u os) :
    ∃ mid rest, Unseated (Event.lineSet u k r.line) mid i g ∧ campOrders (u.call i) g ++ rest = os ∧
      Lands u k r schedule (mid.st.torn i p code why (campOrders (u.call i) g) rest) := by
  have live : ¬ ((Event.lineSet u k r.line).st.call i).ended := fun hc => hc.elim only.live.2 only.live.1
  have ends : endsCaller u k r why := ending.imp (fun ⟨h1, h2, _⟩ => ⟨h1, h2⟩) fun ⟨h1, h2, h3, _⟩ => ⟨h1, h2, h3⟩
  have reason : why.tearsDown = true ∧ why ≠ .congestion ∧ code = (if why = .callerCleared then .callerGone else .outOfService) ∧
      os = teardownOrders (u.call i) h g a ++ if why.drops then [.drop (u.call i).caller] else [] := by
    rcases ending with ⟨-, rfl, rfl, rfl⟩ | ⟨-, -, rfl, rfl, rfl⟩
    · exact ⟨rfl, nofun, rfl, (List.append_nil _).symm⟩
    · exact ⟨rfl, nofun, rfl, rfl⟩
  obtain ⟨tears, congestion, rfl, ho⟩ := reason
  have some_order : os ≠ [] := by
    rw [ho]
    exact List.append_ne_nil_of_left_ne_nil (teardownOrders_ne_nil h g a live) _
  obtain ⟨mid, rest, unseated, orders, hst, refusals, serve⟩ :=
    Event.close_torn (e := Event.lineSet u k r.line) live legs tears congestion some_order ho room reach
  refine ⟨mid, rest, unseated, orders, _, report_ends_caller schedule only ends, hst, refusals, ?_, fun m => ?_⟩
  · rw [serve]
    exact nofun
  · rw [State.link_torn, unseated.link]
    rfl

theorem caller_ends_torn {s : State} {l : LinkIx} {f : Frame} {port : Fin 16} {k : Circuit} {i : Slot} {p : Pos}
    {h g a : Circuit} {r : ReportKind} {why : EndReason} {code : ResultCode} {os : List ShelfOrder} (more : Bool)
    (orders : List (List Nat)) (hr : CallerReports s l f port k i) (legs : CallerLegs s i p h g a)
    (ending : endingOf s k r why code (s.call i) h g a os) (room : s.room os) (reach : reachable s os) :
    ∃ t, exec (.shelfAnswer l (reportOf more port r) orders) s = .next t ∧ reported s t l f k (lineAfter r) ∧
      (t.call i).bare =
        { offLoops (s.call i) .closing s.seconds with
          endReason := some why, announcer := (s.call i).announcer, extend := none,
          pending := (s.call i).pending + os.length } ∧
      ((s.call i).extend ≠ none → (t.pos p).extend = none ∧ (t.pos p).extendCell = none ∧
        ∀ d, (s.pos p).extendCell = some d → t.answered d code 0) ∧
      (loopState (s.call i).state → ∀ m, (s.call i).loop = some m → (t.pos p).loops.get m ≠ some i) ∧
      i ∉ (t.lamp g).camp ∧ t.rings = s.rings ∧ queuedAfter s t (entries i os) ∧
      Aside s t (fun j => j = i ∨ j ∈ (s.prt (s.call i).partition).roster) (fun x => (s.call i).position = some x)
        (· = (s.call i).partition) fun x => x = k ∨ x = g := by
  obtain ⟨u, hu, taken⟩ := hr.toPollFlies.taken hr.circuit more orders r
    (by rcases ending with ⟨rfl, -⟩ | ⟨rfl, -⟩ <;> exact nofun)
  obtain ⟨mid, rest, unseated, split, lands⟩ := Lands.torn (schedule := orders.headD []) (hr.onlyCaller hu)
    (legs.setLine hu k r.line) (code := code) (why := why) (by unfold endingOf; rw [hu.line, hu.call]; exact ending)
    (hu.room room) (hu.reachable reach)
  obtain ⟨t, run, landed⟩ := taken _ lands
  have before : (Event.lineSet u k r.line).st.call i = s.call i := hu.call i
  obtain ⟨x, y, z, w, self⟩ := unseated.self
  rw [before] at self
  have selfExtend : (mid.st.call i).extend = (s.call i).extend := by rw [self]
  rw [hu.call] at split landed
  have call := State.call_torn mid.st i p code why (campOrders (s.call i) g) rest i
  rw [if_pos rfl, self, split, show mid.st.seconds = s.seconds from unseated.seconds.trans hu.seconds] at call
  have bare : (t.call i).bare = _ := landed.call_eq call (by exact nofun)
  have ringless : ∀ o ∈ os, o.isRing = false := by
    rcases ending with ⟨-, -, -, rfl⟩ | ⟨-, -, -, -, rfl⟩
    · exact teardownOrders_isRing _ _ _ _
    · intro o ho
      rcases List.mem_append.mp ho with ho | ho
      · exact teardownOrders_isRing _ _ _ _ o ho
      · rw [List.mem_singleton.mp ho]
        rfl
  have panel := fun x => (landed.pos x).trans (congrArg Position.bare
    (State.pos_torn mid.st i p code why (campOrders (s.call i) g) rest x))
  rw [selfExtend] at panel
  refine ⟨t, run, landed.reported ?_, ?_, fun hx => ⟨?_, ?_, fun d hd => ?_⟩, fun hl m hm => ?_, ?_,
    landed.rings.trans ?_, landed.queuedAfter hu fun m => ?_, landed.aside hu (fun j hj => ?_) (fun x hx => ?_)
      (fun q hq => ?_) (fun c hc => ?_) ?_⟩
  · rw [State.lamp_torn, unseated.line, show r.line = lineAfter r by rcases ending with ⟨rfl, -⟩ | ⟨rfl, -⟩ <;> rfl]
    exact State.line_setLine _ _ _
  · rw [bare]
    simp [offLoops, onLoop, Call.enter, Call.bare, CallState.hasPosition, CallState.hasLoop, CallState.keepsTarget,
      CallState.inRoster, CallState.keepsAnnouncer, keepsRinging]
  · exact (congrArg Position.extend (panel p)).trans (by rw [if_pos ⟨rfl, hx⟩]; rfl)
  · exact (congrArg Position.extendCell (panel p)).trans (by rw [if_pos ⟨rfl, hx⟩]; rfl)
  · refine landed.answered d code 0 (State.torn_answered _ _ _ _ _ _ _ ?_ (by rw [selfExtend]; exact hx) ?_)
    · rw [show mid.st.mem = s.mem from unseated.mem.trans hu.mem]
      exact hr.wf
    · rw [unseated.panel]
      show (u.pos p).extendCell = _
      rw [hu.pos]
      exact hd
  · have loops : (t.pos p).loops = (mid.st.pos p).loops :=
      (congrArg Position.loops (panel p)).trans (by split <;> rfl)
    rw [loops]
    refine unseated.loop ?_ p m ?_ ?_ <;> rw [before]
    · exact hl
    · exact (legs.headset hl).1
    · exact hm
  · rw [landed.camp, State.lamp_torn]
    exact unseated.off
  · rw [State.torn_rings _ _ _ _ _ _ _ (by rw [split]; exact ringless)]
    exact unseated.rings.trans hu.rings
  · rw [State.link_torn, split, unseated.link]
    rfl
  · obtain ⟨hi, hroster⟩ := not_or.mp hj
    rw [State.call_torn, if_neg (Ne.symm hi)]
    refine unseated.others j hi ?_
    rw [before]
    show j ∉ (u.prt _).roster
    rw [hu.prt]
    exact hroster
  · rw [State.pos_torn, selfExtend, if_neg]
    · exact unseated.pos x (by rw [before]; exact hx)
    · rintro ⟨rfl, hextend⟩
      exact hx (legs.extend hextend)
  · rw [State.prt_torn, unseated.prt q (by rw [before]; exact hq)]
    rfl
  · obtain ⟨hk, hg⟩ := not_or.mp hc
    rw [State.lamp_torn, unseated.lamp c hg]
    exact congrArg Lamp.bare (State.lamp_setLine_ne _ _ _ (Ne.symm hk))
  · rw [State.torn_free]
    exact unseated.free

/-- Settles O41: the reports of a caller by what closing makes of its call (`caller_ends`, `caller_ends_torn`), those of a
target by the state in which each report's event ends its work. -/
theorem callerReportsEndTheCall : Obligations.CallerReportsEndTheCall := by
  unfold Obligations.CallerReportsEndTheCall
  refine ⟨?callers, ?teardown, ?targets, ?lineOnly, ?idle⟩
  case callers =>
    exact fun s l f more port k i orders h => ⟨caller_ends more orders h (.inl ⟨rfl, rfl⟩),
      fun hl => caller_ends more orders h (.inr ⟨rfl, hl, rfl⟩)⟩
  case teardown =>
    exact fun s l f more port k i p h g a r why code os orders hr legs ending room reach =>
      caller_ends_torn more orders hr legs ending room reach
  case targets =>
    exact fun s l f more port k i n orders h =>
      ⟨answer_confirmed more orders h,
        fun p j hs d hring hconf hp hx _ hd => answer_screened more orders h hring hconf hp hx hd,
        answer_ringingOut more orders h,
        fun p j hs d hd room => answer_direct more orders h hd room,
        answer_camped more orders h,
        fun p j hs htalk hp hc hn room => clear_consult more orders h htalk hp hc hn room,
        fun hl hn hh origin takes hcase room present =>
          have live : (s.call i).state ≠ .free := by
            rcases hcase with ⟨hs, -⟩ | ⟨hs, -⟩ <;> rw [hs] <;> decide
          fault_recalls more orders h hl hn hh hcase ⟨live, origin, takes, room, present⟩,
        fun p j hs hl hn hh hc hp hx hcell hstate hsx room reach =>
          fault_consult more orders h hl hn hh hc hp hx hcell hstate hsx room reach,
        fun p j hs d hl hn hh hc hd room reach => fault_direct more orders h hl hn hh hc hd room reach⟩
  case lineOnly =>
    exact fun s l f more port k r orders hf hk hr => report_only_line more orders hf hk hr
  case idle =>
    exact fun s l f more port k j behind orders hf hk hd hc hp room ho =>
      idle_rings more orders hf hk hd hc hp room ho

end Sys2Proof.Machine
end

section
/-! SUPPORT. What the invariant of calls, rosters, panels and camp lists speaks of (R4, R7, R24, R70, R84): a view of the
state, what an update does to it, and the four parts of the invariant, each about the calls and one kind of list. -/

namespace Sys2Proof.Machine

/-! ### The view -/

/-- What a call record says of where its call stands (R4, R7). -/
structure Stance where
  state : CallState
  partition : Part
  cls : CallClass
  position : Option Pos
  loop : Option LoopIx
  target : Option Target
  place : Option Nat
  timer : Option (TimerKind × Seconds)
  extend : Option Word

/-- What a panel says of the calls it holds (R62, R70). -/
structure Panel where
  isOpen : Bool
  partition : Option Part
  offered : Option Slot
  speaking : Option LoopIx
  loops : Table (Option Slot) 4

/-- Where the records say that calls stand. -/
structure View where
  call : Slot → Stance
  roster : Part → List Slot
  panel : Pos → Panel
  camp : Circuit → List Slot
  kind : Circuit → LineKind
  engine : EngineState

def Call.stance (c : Call) : Stance :=
  { state := c.state, partition := c.partition, cls := c.cls, position := c.position, loop := c.loop, target := c.target,
    place := c.place, timer := c.timer, extend := c.extend }

def Position.panel (q : Position) : Panel :=
  { isOpen := q.isOpen, partition := q.partition, offered := q.offered, speaking := q.speaking, loops := q.loops }

def State.view (s : State) : View :=
  { call := fun i => (s.call i).stance, roster := fun q => (s.prt q).roster, panel := fun p => (s.pos p).panel,
    camp := fun k => (s.lamp k).camp, kind := fun k => (s.dir k).kind, engine := s.engine }

def View.setCall (v : View) (i : Slot) (d : Stance) : View := { v with call := Function.update v.call i d }
def View.setRoster (v : View) (q : Part) (r : List Slot) : View := { v with roster := Function.update v.roster q r }
def View.setPanel (v : View) (p : Pos) (a : Panel) : View := { v with panel := Function.update v.panel p a }
def View.setCamp (v : View) (k : Circuit) (r : List Slot) : View := { v with camp := Function.update v.camp k r }

section ViewUpdates

variable (v : View) (s : State)

@[simp] theorem View.call_setCall (i j : Slot) (d : Stance) :
    (v.setCall i d).call j = if j = i then d else v.call j := Function.update_apply ..
@[simp] theorem View.panel_setPanel (p x : Pos) (a : Panel) :
    (v.setPanel p a).panel x = if x = p then a else v.panel x := Function.update_apply ..
@[simp] theorem View.setCall_setCall (i : Slot) (c d : Stance) : (v.setCall i c).setCall i d = v.setCall i d := by
  simp [View.setCall]
@[simp] theorem View.setCall_call (i : Slot) : v.setCall i (v.call i) = v := by simp [View.setCall]
@[simp] theorem View.setPanel_panel (p : Pos) : v.setPanel p (v.panel p) = v := by simp [View.setPanel]
@[simp] theorem View.setRoster_roster (q : Part) : v.setRoster q (v.roster q) = v := by simp [View.setRoster]
@[simp] theorem View.setCamp_camp (k : Circuit) : v.setCamp k (v.camp k) = v := by simp [View.setCamp]

theorem State.view_setCall (i : Slot) (c : Call) : (s.setCall i c).view = s.view.setCall i c.stance := by
  refine congrArg (fun f => { s.view with call := f }) (funext fun j => ?_)
  rw [State.call_setCall, Function.update_apply]
  simp only [eq_comm (a := i)]
  split <;> rfl

theorem State.view_setPos (p : Pos) (q : Position) : (s.setPos p q).view = s.view.setPanel p q.panel := by
  refine congrArg (fun f => { s.view with panel := f }) (funext fun j => ?_)
  rw [State.pos_setPos, Function.update_apply]
  simp only [eq_comm (a := p)]
  split <;> rfl

theorem State.view_setPrt (p : Part) (q : Partition) : (s.setPrt p q).view = s.view.setRoster p q.roster := by
  refine congrArg (fun f => { s.view with roster := f }) (funext fun j => ?_)
  rw [State.prt_setPrt, Function.update_apply]
  simp only [eq_comm (a := p)]
  split <;> rfl

theorem State.view_setLamp (k : Circuit) (q : Lamp) : (s.setLamp k q).view = s.view.setCamp k q.camp := by
  refine congrArg (fun f => { s.view with camp := f }) (funext fun j => ?_)
  rw [State.lamp_setLamp, Function.update_apply]
  simp only [eq_comm (a := k)]
  split <;> rfl

end ViewUpdates

/-- Two states whose records show the same. -/
theorem State.view_congr {s t : State} (hc : ∀ i, (t.call i).stance = (s.call i).stance)
    (hq : ∀ q, (t.prt q).roster = (s.prt q).roster) (hp : ∀ p, (t.pos p).panel = (s.pos p).panel)
    (hk : ∀ k, (t.lamp k).camp = (s.lamp k).camp) (hd : t.plan = s.plan) (he : t.engine = s.engine) : t.view = s.view := by
  have dir : ∀ k, t.dir k = s.dir k := fun k => by unfold State.dir; rw [hd]
  unfold State.view
  simp only [hc, hq, hp, hk, dir, he]

/-! ### What operations leave in view -/

section Neutral

variable {e : Event}

theorem Event.updCall_view (e : Event) (i : Slot) (f : Call → Call) :
    (e.updCall i f).st.view = e.st.view.setCall i (f (e.st.call i)).stance := State.view_setCall _ _ _

theorem Event.updPos_view (e : Event) (p : Pos) (f : Position → Position) :
    (e.updPos p f).st.view = e.st.view.setPanel p (f (e.st.pos p)).panel := State.view_setPos _ _ _

theorem Event.updPrt_view (e : Event) (q : Part) (f : Partition → Partition) :
    (e.updPrt q f).st.view = e.st.view.setRoster q (f (e.st.prt q)).roster := State.view_setPrt _ _ _

theorem Event.updLamp_view (e : Event) (k : Circuit) (f : Lamp → Lamp) :
    (e.updLamp k f).st.view = e.st.view.setCamp k (f (e.st.lamp k)).camp := State.view_setLamp _ _ _

theorem Event.updCall_same {i : Slot} {f : Call → Call} (h : ∀ c, (f c).stance = c.stance) :
    (e.updCall i f).st.view = e.st.view := by
  rw [Event.updCall_view, h]
  exact View.setCall_call _ _

theorem Event.updPos_same {p : Pos} {f : Position → Position} (h : ∀ q, (f q).panel = q.panel) :
    (e.updPos p f).st.view = e.st.view := by
  rw [Event.updPos_view, h]
  exact View.setPanel_panel _ _

theorem Event.updPrt_same {q : Part} {f : Partition → Partition} (h : ∀ r, (f r).roster = r.roster) :
    (e.updPrt q f).st.view = e.st.view := by
  rw [Event.updPrt_view, h]
  exact View.setRoster_roster _ _

theorem Event.updLamp_same {k : Circuit} {f : Lamp → Lamp} (h : ∀ q, (f q).camp = q.camp) :
    (e.updLamp k f).st.view = e.st.view := by
  rw [Event.updLamp_view, h]
  exact View.setCamp_camp _ _

theorem Event.foldl_view {α : Type} {f : Event → α → Event} (h : ∀ e x, (f e x).st.view = e.st.view) (xs : List α) :
    (xs.foldl f e).st.view = e.st.view := by
  induction xs generalizing e with
  | nil => rfl
  | cons x xs ih => exact ih.trans (h e x)

theorem Event.letGo_view (e : Event) (c : Call) : (e.letGo c).st.view = e.st.view := by rw [Event.letGo_st]

theorem Event.enqueue_view (e : Event) (i : Option Slot) (o : ShelfOrder) (h : Bool) :
    (e.enqueue i o h).st.view = e.st.view := by
  unfold Event.enqueue
  cases i with
  | none => dsimp only; split <;> rfl
  | some i =>
    have counted : ∀ f : Event, (f.updCall i fun x => { x with pending := x.pending + 1 }).st.view = f.st.view :=
      fun _ => Event.updCall_same fun _ => rfl
    dsimp only
    split
    · exact counted _
    · exact counted _

@[simp] theorem Event.issueAs_view (e : Event) (how : Issue) (i : Option Slot) (o : ShelfOrder) (h : Bool) :
    (e.issueAs how i o h).st.view = e.st.view := by
  have noted : (e.note i o).st.view = e.st.view := by unfold Event.note; split <;> rfl
  have refused : ∀ f : Event, ∀ l, (f.refuse how i o h l).st.view = f.st.view := fun f l => by
    unfold Event.refuse
    split
    · split <;> rfl
    · rfl
  unfold Event.issueAs
  dsimp only
  repeat' split
  · exact noted
  · exact (refused _ _).trans noted
  · exact (Event.enqueue_view _ _ _ _).trans noted
  · exact (refused _ _).trans noted

@[simp] theorem Event.issue_view (e : Event) (i : Slot) (o : ShelfOrder) : (e.issue i o).st.view = e.st.view :=
  e.issueAs_view _ _ _ _

@[simp] theorem Event.issueAll_view (e : Event) (how : Issue) (i : Slot) (os : List ShelfOrder) :
    (e.issueAll how i os).st.view = e.st.view := Event.foldl_view (fun e o => e.issueAs_view how (some i) o false) os

@[simp] theorem Event.issueList_view (e : Event) (i : Slot) (os : List ShelfOrder) :
    (e.issueList i os).st.view = e.st.view := e.issueAll_view _ i os

@[simp] theorem Event.issueTeardown_view (e : Event) (i : Slot) (os : List ShelfOrder) :
    (e.issueTeardown i os).st.view = e.st.view := e.issueAll_view _ i os

@[simp] theorem Event.issueLegs_view (e : Event) (i : Slot) (lost : Option Circuit) (os : List ShelfOrder) :
    (e.issueLegs i lost os).st.view = e.st.view := by
  refine Event.foldl_view (fun e o => ?_) os
  split
  · split
    · rfl
    · exact e.issueAs_view _ _ _ _
  · exact e.issueAs_view _ _ _ _

theorem Event.alertTest_view (e : Event) (q : Part) : (e.alertTest q).st.view = e.st.view := by
  rw [Event.alertTest_eq]
  refine State.view_congr (fun i => ?_) (fun p => ?_) (fun p => ?_) (fun k => ?_) ?_ ?_
  · rw [State.call_alerted]
  · rw [State.prt_alerted]; split <;> rfl
  · rw [State.pos_alerted]
  · rw [State.lamp_alerted]
  · exact State.alerted_plan _ _
  · dsimp only; rw [State.alerted_rest]

/-- The EXTEND of a call that is answered is no more in flight; nothing else comes into view. -/
theorem Event.answerExtendOf_view (e : Event) (i : Slot) (code : ResultCode) :
    ∃ x, (e.answerExtendOf i code).st.view = e.st.view.setCall i { e.st.view.call i with extend := x } := by
  unfold Event.answerExtendOf
  dsimp only
  split
  · next p _ _ =>
    rw [Event.answerExtend_eq]
    refine ⟨none, ?_⟩
    have panel : ∀ x, ((e.st.endExtend p i code).pos x).panel = (e.st.pos x).panel := fun x => by
      rw [State.pos_endExtend]; split <;> rfl
    have plain : (e.st.endExtend p i code).view =
        (e.st.setCall i { e.st.call i with extend := none }).view := by
      refine State.view_congr (fun j => ?_) (fun q => ?_) panel (fun k => ?_) ?_ ?_
      · rw [State.call_endExtend, State.call_setCall]
        split
        · next h => subst h; rfl
        · rfl
      · rw [State.prt_endExtend]; rfl
      · rw [State.lamp_endExtend]; rfl
      · rw [State.endExtend_plan]; rfl
      · rw [State.endExtend_rest]; rfl
    exact plain.trans (State.view_setCall _ _ _)
  · exact ⟨(e.st.view.call i).extend, (View.setCall_call _ _).symm⟩

end Neutral

/-! ### The parts of the invariant -/

/-- Rosters hold exactly the calls that say so, once each, at most 63, each at its place, RECALL before NEW (R24, R25). -/
structure RosterFits (member : Slot → Option (Part × Option Nat × CallClass)) (roster : Part → List Slot) : Prop where
  once : ∀ q, (roster q).Nodup
  space : ∀ q, (roster q).length ≤ 63
  members : ∀ q i, i ∈ roster q ↔ ∃ n c, member i = some (q, n, c)
  places : ∀ q n i, (roster q)[n]? = some i → ∃ c, member i = some (q, some (n + 1), c)
  classes : ∀ q, (roster q).Pairwise fun i j =>
    (∃ n, member j = some (q, n, .recall)) → ∃ n, member i = some (q, n, .recall)

/-- Panels offer exactly the calls that say so, of their partition, on OPEN positions without a speaking loop (R35,
R38). -/
structure OfferFits (offer : Slot → Option (Part × Option Pos)) (panel : Pos → Panel) : Prop where
  offers : ∀ p i, (panel p).offered = some i → (∃ q, offer i = some (q, some p) ∧ (panel p).partition = some q) ∧
    (panel p).isOpen = true ∧ (panel p).speaking = none
  offered : ∀ i x, offer i = some x → ∃ p, (panel p).offered = some i

/-- Loops of OPEN positions hold exactly the calls that say so; the speaking loop is the one whose call is spoken to
(R70). -/
structure LoopFits (seat : Slot → Option (Option Pos × Option LoopIx × Bool)) (panel : Pos → Panel) : Prop where
  loops : ∀ p l i, (panel p).loops.get l = some i →
    (∃ b, seat i = some (some p, some l, b)) ∧ (panel p).isOpen = true
  onLoop : ∀ i x, seat i = some x → ∃ p l, (panel p).loops.get l = some i
  speaking : ∀ p l, (panel p).speaking = some l ↔
    ∃ i, (panel p).loops.get l = some i ∧ seat i = some (some p, some l, true)

/-- Camp lists hold exactly the calls that say so, once each, at most three (R84). -/
structure CampFits (camps : Slot → Option Circuit) (camp : Circuit → List Slot) : Prop where
  once : ∀ k, (camp k).Nodup
  space : ∀ k, (camp k).length ≤ 3
  camped : ∀ k i, i ∈ camp k ↔ camps i = some k

/-! ### Rosters -/

section Rosters

variable {member : Slot → Option (Part × Option Nat × CallClass)} {roster : Part → List Slot}

/-- A roster with one member changed: the others keep their partition and class and are numbered anew. -/
structure Renumbered (member member' : Slot → Option (Part × Option Nat × CallClass)) (q : Part) (i : Slot)
    (new : List Slot) : Prop where
  others : ∀ j, j ≠ i → j ∉ new → member' j = member j
  kept : ∀ n j, j ≠ i → new[n]? = some j → ∃ m c, member j = some (q, m, c) ∧ member' j = some (q, some (n + 1), c)

theorem Renumbered.mem {member' : Slot → Option (Part × Option Nat × CallClass)} {q : Part} {i : Slot} {new : List Slot}
    (r : Renumbered member member' q i new) {j : Slot} (hj : j ≠ i) (p : Part) (c : CallClass) :
    (∃ n, member' j = some (p, n, c)) ↔ ∃ n, member j = some (p, n, c) := by
  by_cases hn : j ∈ new
  · obtain ⟨n, hn⟩ := List.getElem?_of_mem hn
    obtain ⟨m, d, hm, hm'⟩ := r.kept n j hj hn
    rw [hm, hm']
    simp only [Option.some.injEq, Prod.mk.injEq]
    constructor
    · rintro ⟨_, rfl, -, rfl⟩; exact ⟨m, rfl, rfl, rfl⟩
    · rintro ⟨_, rfl, -, rfl⟩; exact ⟨some (n + 1), rfl, rfl, rfl⟩
  · rw [r.others j hj hn]

/-- A member has left its roster. -/
theorem RosterFits.leave {member' : Slot → Option (Part × Option Nat × CallClass)} {q : Part} {i : Slot}
    (k : RosterFits member roster) (hi : i ∈ roster q) (away : member' i = none)
    (r : Renumbered member member' q i ((roster q).filter (· != i))) :
    RosterFits member' (Function.update roster q ((roster q).filter (· != i))) := by
  have only : ∀ p, i ∈ roster p → p = q := fun p hp => by
    obtain ⟨n, c, h⟩ := (k.members p i).mp hp
    obtain ⟨n', c', h'⟩ := (k.members q i).mp hi
    rw [h] at h'
    simp only [Option.some.injEq, Prod.mk.injEq] at h'
    exact h'.1
  have mem : ∀ p j, j ∈ Function.update roster q ((roster q).filter (· != i)) p ↔ j ∈ roster p ∧ j ≠ i := fun p j => by
    rw [Function.update_apply]
    split
    · next h => subst h; simp [List.mem_filter]
    · next h => exact ⟨fun hj => ⟨hj, fun hji => h (only p (hji ▸ hj))⟩, fun hj => hj.1⟩
  refine ⟨fun p => ?_, fun p => ?_, fun p j => ?_, fun p n j hj => ?_, fun p => ?_⟩
  · rw [Function.update_apply]; split
    · exact (k.once q).filter _
    · exact k.once p
  · rw [Function.update_apply]; split
    · exact (List.length_filter_le _ _).trans (k.space q)
    · exact k.space p
  · rw [mem, k.members]
    by_cases hj : j = i
    · subst hj; rw [away]; simp
    · constructor
      · rintro ⟨⟨n, c, h⟩, -⟩
        obtain ⟨n', h'⟩ := (r.mem hj p c).mpr ⟨n, h⟩
        exact ⟨n', c, h'⟩
      · rintro ⟨n, c, h⟩
        obtain ⟨n', h'⟩ := (r.mem hj p c).mp ⟨n, h⟩
        exact ⟨⟨n', c, h'⟩, hj⟩
  · have hmem := (mem p j).mp (List.mem_of_getElem? hj)
    rw [Function.update_apply] at hj
    split at hj
    · next h =>
      subst h
      obtain ⟨m, c, -, h'⟩ := r.kept n j hmem.2 hj
      exact ⟨c, h'⟩
    · next h =>
      obtain ⟨c, hc⟩ := k.places p n j hj
      refine ⟨c, (r.others j hmem.2 fun hn => h ?_).trans hc⟩
      obtain ⟨n', c', h'⟩ := (k.members q j).mp (List.mem_filter.mp hn).1
      rw [hc] at h'
      simp only [Option.some.injEq, Prod.mk.injEq] at h'
      exact h'.1
  · have pairs : (Function.update roster q ((roster q).filter (· != i)) p).Pairwise fun a b =>
        (∃ n, member b = some (p, n, .recall)) → ∃ n, member a = some (p, n, .recall) := by
      rw [Function.update_apply]; split
      · next h => subst h; exact (k.classes p).filter _
      · exact k.classes p
    refine pairs.imp_of_mem fun {a b} ha hb h hb' => ?_
    exact (r.mem ((mem p a).mp ha).2 p .recall).mpr (h ((r.mem ((mem p b).mp hb).2 p .recall).mp hb'))

/-- A call has joined a roster. -/
theorem RosterFits.enter {member' : Slot → Option (Part × Option Nat × CallClass)} {q : Part} {i : Slot}
    {cls : CallClass} {front back : List Slot} (k : RosterFits member roster) (away : member i = none)
    (old : roster q = front ++ back) (space : (roster q).length < 63)
    (self : member' i = some (q, some (front.length + 1), cls))
    (r : Renumbered member member' q i (front ++ i :: back))
    (before : cls = .recall → ∀ j ∈ front, ∃ n, member j = some (q, n, .recall))
    (behind : ∀ j ∈ back, ¬ ∃ n, member j = some (q, n, .recall)) :
    RosterFits member' (Function.update roster q (front ++ i :: back)) := by
  have out : ∀ p, i ∉ roster p := fun p hp => by
    obtain ⟨n, c, h⟩ := (k.members p i).mp hp
    rw [away] at h; cases h
  have perm : (front ++ i :: back).Perm (i :: roster q) := by rw [old]; exact List.perm_middle
  have mem : ∀ p j, j ≠ i → (j ∈ Function.update roster q (front ++ i :: back) p ↔ j ∈ roster p) := fun p j hj => by
    rw [Function.update_apply]; split
    · next h => subst h; rw [perm.mem_iff, List.mem_cons, or_iff_right hj]
    · rfl
  refine ⟨fun p => ?_, fun p => ?_, fun p j => ?_, fun p n j hj => ?_, fun p => ?_⟩
  · rw [Function.update_apply]; split
    · exact perm.nodup_iff.mpr (List.nodup_cons.mpr ⟨out q, k.once q⟩)
    · exact k.once p
  · rw [Function.update_apply]; split
    · rw [perm.length_eq]; exact space
    · exact k.space p
  · by_cases hj : j = i
    · subst hj
      rw [self, Function.update_apply]
      split
      · next h => subst h; exact iff_of_true (by simp) ⟨_, _, rfl⟩
      · next h =>
        refine iff_of_false (out p) ?_
        rintro ⟨n, c, h'⟩
        simp only [Option.some.injEq, Prod.mk.injEq] at h'
        exact h h'.1.symm
    · rw [mem p j hj, k.members]
      constructor
      · rintro ⟨n, c, h⟩
        obtain ⟨n', h'⟩ := (r.mem hj p c).mpr ⟨n, h⟩
        exact ⟨n', c, h'⟩
      · rintro ⟨n, c, h⟩
        obtain ⟨n', h'⟩ := (r.mem hj p c).mp ⟨n, h⟩
        exact ⟨n', c, h'⟩
  · rw [Function.update_apply] at hj
    split at hj
    · next h =>
      subst h
      by_cases hji : j = i
      · subst hji
        have nodup : (front ++ j :: back).Nodup := perm.nodup_iff.mpr (List.nodup_cons.mpr ⟨out p, k.once p⟩)
        have here : (front ++ j :: back)[front.length]? = some j := by simp
        have hn : n = front.length := by
          obtain ⟨h1, e1⟩ := List.getElem?_eq_some_iff.mp hj
          obtain ⟨h2, e2⟩ := List.getElem?_eq_some_iff.mp here
          exact (List.Nodup.getElem_inj_iff nodup).mp (e1.trans e2.symm)
        exact ⟨cls, hn ▸ self⟩
      · obtain ⟨m, c, -, h'⟩ := r.kept n j hji hj
        exact ⟨c, h'⟩
    · next h =>
      have hji : j ≠ i := fun e => out p (e ▸ List.mem_of_getElem? hj)
      obtain ⟨c, hc⟩ := k.places p n j hj
      refine ⟨c, (r.others j hji fun hn => h ?_).trans hc⟩
      obtain ⟨n', c', h'⟩ := (k.members q j).mp ((List.mem_cons.mp (perm.mem_iff.mp hn)).resolve_left hji)
      rw [hc] at h'
      simp only [Option.some.injEq, Prod.mk.injEq] at h'
      exact h'.1
  · rw [Function.update_apply]
    split
    · next h =>
      subst h
      have hf : ∀ j ∈ front, j ≠ i := fun j hj e => out p (by rw [old, ← e]; exact List.mem_append_left _ hj)
      have hb : ∀ j ∈ back, j ≠ i := fun j hj e => out p (by rw [old, ← e]; exact List.mem_append_right _ hj)
      have was := k.classes p
      rw [old, List.pairwise_append] at was
      obtain ⟨wasFront, wasBack, wasCross⟩ := was
      have recalls : ∀ j, j ≠ i → ((∃ n, member' j = some (p, n, .recall)) ↔ ∃ n, member j = some (p, n, .recall)) :=
        fun j hj => r.mem hj p .recall
      refine List.pairwise_append.mpr ⟨wasFront.imp_of_mem fun {a b} ha hb' h h' => ?_, List.pairwise_cons.mpr
        ⟨fun b hb' h => ?_, wasBack.imp_of_mem fun {a b} ha hb' h h' => ?_⟩, fun a ha b hb' h => ?_⟩
      · exact (recalls a (hf a ha)).mpr (h ((recalls b (hf b hb')).mp h'))
      · exact absurd ((recalls b (hb b hb')).mp h) (behind b hb')
      · exact (recalls a (hb a ha)).mpr (h ((recalls b (hb b hb')).mp h'))
      · rcases List.mem_cons.mp hb' with rfl | hb'
        · obtain ⟨n, h⟩ := h
          rw [self] at h
          simp only [Option.some.injEq, Prod.mk.injEq] at h
          exact (recalls a (hf a ha)).mpr (before h.2.2 a ha)
        · exact absurd ((recalls b (hb b hb')).mp h) (behind b hb')
    · next h =>
      refine (k.classes p).imp_of_mem fun {a b} ha hb h' hb' => ?_
      have ne : ∀ j, j ∈ roster p → j ≠ i := fun j hj e => out p (e ▸ hj)
      exact (r.mem (ne a ha) p .recall).mpr (h' ((r.mem (ne b hb) p .recall).mp hb'))

end Rosters

/-! ### Offers -/

section Offers

variable {offer : Slot → Option (Part × Option Pos)} {panel : Pos → Panel}

/-- The panels change in what no offer speaks of. -/
theorem OfferFits.panels {panel' : Pos → Panel} (k : OfferFits offer panel)
    (same : ∀ p, (panel' p).offered = (panel p).offered)
    (holds : ∀ p, (panel p).offered ≠ none → (panel' p).partition = (panel p).partition ∧
      (panel' p).isOpen = (panel p).isOpen ∧ ((panel p).speaking = none → (panel' p).speaking = none)) :
    OfferFits offer panel' where
  offers := fun p i h => by
    rw [same] at h
    obtain ⟨part, isOpen, silent⟩ := holds p (by rw [h]; nofun)
    obtain ⟨hi, ho, hs⟩ := k.offers p i h
    rw [part, isOpen]
    exact ⟨hi, ho, silent hs⟩
  offered := fun i x h => by
    obtain ⟨p, hp⟩ := k.offered i x h
    exact ⟨p, (same p).trans hp⟩

/-- A call is offered (R38). -/
theorem OfferFits.give {i : Slot} {p : Pos} {q : Part} (k : OfferFits offer panel) (away : offer i = none)
    (part : (panel p).partition = some q) (isOpen : (panel p).isOpen = true) (free : (panel p).offered = none)
    (silent : (panel p).speaking = none) :
    OfferFits (Function.update offer i (some (q, some p)))
      (Function.update panel p { panel p with offered := some i }) where
  offers := fun x j h => by
    by_cases hx : x = p
    · subst hx
      rw [Function.update_self] at h ⊢
      have hj : i = j := Option.some.inj h
      subst hj
      rw [Function.update_self]
      exact ⟨⟨q, rfl, part⟩, isOpen, silent⟩
    · rw [Function.update_of_ne hx] at h ⊢
      obtain ⟨⟨r, hr, hp⟩, rest⟩ := k.offers x j h
      have hj : j ≠ i := fun e => by rw [e, away] at hr; cases hr
      rw [Function.update_of_ne hj]
      exact ⟨⟨r, hr, hp⟩, rest⟩
  offered := fun j x h => by
    by_cases hj : j = i
    · exact ⟨p, by rw [Function.update_self, hj]⟩
    · rw [Function.update_of_ne hj] at h
      obtain ⟨y, hy⟩ := k.offered j x h
      refine ⟨y, ?_⟩
      rw [Function.update_of_ne fun e => ?_]
      · exact hy
      · rw [e, free] at hy; cases hy

/-- An offer ends (R27, R42). -/
theorem OfferFits.lift {i : Slot} {p : Pos} {q : Part} (k : OfferFits offer panel) (hi : offer i = some (q, some p)) :
    OfferFits (Function.update offer i none) (Function.update panel p { panel p with offered := none }) where
  offers := fun x j h => by
    have hx : x ≠ p := fun e => by rw [e, Function.update_self] at h; cases h
    rw [Function.update_of_ne hx] at h ⊢
    have hj : j ≠ i := fun e => by
      obtain ⟨⟨r, hr, -⟩, -⟩ := k.offers x j h
      rw [e, hi, Option.some.injEq, Prod.mk.injEq, Option.some.injEq] at hr
      exact hx hr.2.symm
    rw [Function.update_of_ne hj]
    exact k.offers x j h
  offered := fun j x h => by
    have hj : j ≠ i := fun e => by rw [e, Function.update_self] at h; cases h
    rw [Function.update_of_ne hj] at h
    obtain ⟨y, hy⟩ := k.offered j x h
    refine ⟨y, ?_⟩
    rw [Function.update_of_ne fun e => ?_]
    · exact hy
    · subst e
      obtain ⟨z, hz⟩ := k.offered i _ hi
      obtain ⟨⟨r, hr, -⟩, -⟩ := k.offers z i hz
      rw [hi, Option.some.injEq, Prod.mk.injEq, Option.some.injEq] at hr
      rw [← hr.2, hy] at hz
      exact hj (Option.some.inj hz)

/-- The panel that offers a call is the one its record names. -/
theorem OfferFits.at {i : Slot} {q : Part} {o : Option Pos} (k : OfferFits offer panel) (hi : offer i = some (q, o)) :
    ∃ p, o = some p ∧ (panel p).offered = some i := by
  obtain ⟨p, hp⟩ := k.offered i _ hi
  obtain ⟨⟨r, hr, -⟩, -⟩ := k.offers p i hp
  rw [hi, Option.some.injEq, Prod.mk.injEq] at hr
  exact ⟨p, hr.2, hp⟩

/-- One panel changes in what no offer speaks of. -/
theorem OfferFits.touch {i : Slot} {p : Pos} {a : Panel}
    (k : OfferFits offer panel) (hi : offer i = none) (same : a.offered = (panel p).offered)
    (holds : (panel p).offered ≠ none → a.partition = (panel p).partition ∧ a.isOpen = (panel p).isOpen ∧
      ((panel p).speaking = none → a.speaking = none)) :
    OfferFits (Function.update offer i none) (Function.update panel p a) := by
  rw [← hi, Function.update_eq_self]
  have get : ∀ x, Function.update panel p a x = if x = p then a else panel x := fun x => Function.update_apply ..
  refine k.panels (fun x => ?_) (fun x hx => ?_) <;> rw [get] <;> split
  · next h => subst h; exact same
  · rfl
  · next h => subst h; exact holds hx
  · exact ⟨rfl, rfl, fun h => h⟩

end Offers

/-! ### Loops -/

/-- A panel whose loop has been emptied (R70). -/
def Panel.without (a : Panel) (l : LoopIx) : Panel :=
  { a with loops := a.loops.set l none, speaking := if a.speaking = some l then none else a.speaking }

section Loops

variable {seat : Slot → Option (Option Pos × Option LoopIx × Bool)} {panel : Pos → Panel}

/-- The loop that holds a call is the one its record names. -/
theorem LoopFits.at {i : Slot} {a : Option Pos} {m : Option LoopIx} {b : Bool} (k : LoopFits seat panel)
    (hi : seat i = some (a, m, b)) : ∃ p l, a = some p ∧ m = some l ∧ (panel p).loops.get l = some i := by
  obtain ⟨p, l, h⟩ := k.onLoop i _ hi
  obtain ⟨⟨b', hb⟩, -⟩ := k.loops p l i h
  rw [hi] at hb
  simp only [Option.some.injEq, Prod.mk.injEq] at hb
  exact ⟨p, l, hb.1, hb.2.1, h⟩

/-- The panels change in what no loop speaks of. -/
theorem LoopFits.panels {panel' : Pos → Panel} (k : LoopFits seat panel) (loops : ∀ p, (panel' p).loops = (panel p).loops)
    (speaking : ∀ p, (panel' p).speaking = (panel p).speaking)
    (holds : ∀ p l i, (panel p).loops.get l = some i → (panel' p).isOpen = (panel p).isOpen) : LoopFits seat panel' where
  loops := fun p l i h => by
    rw [loops] at h
    rw [holds p l i h]
    exact k.loops p l i h
  onLoop := fun i x h => by
    obtain ⟨p, l, hl⟩ := k.onLoop i x h
    exact ⟨p, l, by rw [loops]; exact hl⟩
  speaking := fun p l => by
    rw [loops, speaking]
    exact k.speaking p l

/-- One panel changes in what no loop speaks of. -/
theorem LoopFits.touch {i : Slot} {p : Pos} {a : Panel} {x : Option (Option Pos × Option LoopIx × Bool)}
    (k : LoopFits seat panel) (hi : seat i = x) (loops : a.loops = (panel p).loops)
    (speaking : a.speaking = (panel p).speaking) (isOpen : a.isOpen = (panel p).isOpen) :
    LoopFits (Function.update seat i x) (Function.update panel p a) := by
  rw [← hi, Function.update_eq_self]
  have get : ∀ x, Function.update panel p a x = if x = p then a else panel x := fun x => Function.update_apply ..
  refine k.panels (fun x => ?_) (fun x => ?_) fun x _ _ _ => ?_ <;> rw [get] <;> split
  · next h => subst h; exact loops
  · rfl
  · next h => subst h; exact speaking
  · rfl
  · next h => subst h; exact isOpen
  · rfl

/-- A call leaves its loop (R70). -/
theorem LoopFits.lift {i : Slot} {p : Pos} {l : LoopIx} {b : Bool} (k : LoopFits seat panel)
    (hi : seat i = some (some p, some l, b)) :
    LoopFits (Function.update seat i none) (Function.update panel p ((panel p).without l)) := by
  have get : ∀ x m j, (Function.update panel p ((panel p).without l) x).loops.get m = some j ↔
      (panel x).loops.get m = some j ∧ j ≠ i := fun x m j => by
    obtain ⟨p', l', hp, hl, here⟩ := k.at hi
    cases hp; cases hl
    have only : ∀ y n, (panel y).loops.get n = some i → y = p ∧ n = l := fun y n h => by
      obtain ⟨⟨b', hb⟩, -⟩ := k.loops y n i h
      rw [hi] at hb
      simp only [Option.some.injEq, Prod.mk.injEq] at hb
      exact ⟨hb.1.symm, hb.2.1.symm⟩
    rw [Function.update_apply]
    split
    · next hx =>
      subst hx
      unfold Panel.without
      dsimp only
      rw [Table.get_set]
      split
      · next hm =>
        subst hm
        refine iff_of_false nofun fun h => h.2 ?_
        rw [here] at h
        exact (Option.some.inj h.1).symm
      · next hm => exact ⟨fun h => ⟨h, fun e => hm (only _ m (e ▸ h)).2.symm⟩, fun h => h.1⟩
    · next hx => exact ⟨fun h => ⟨h, fun e => hx (only x m (e ▸ h)).1⟩, fun h => h.1⟩
  refine ⟨fun x m j h => ?_, fun j y h => ?_, fun x m => ?_⟩
  · obtain ⟨h, hj⟩ := (get x m j).mp h
    obtain ⟨hb, ho⟩ := k.loops x m j h
    rw [Function.update_of_ne hj, Function.update_apply]
    refine ⟨hb, ?_⟩
    split
    · next hx => subst hx; exact ho
    · exact ho
  · have hj : j ≠ i := fun e => by rw [e, Function.update_self] at h; cases h
    rw [Function.update_of_ne hj] at h
    obtain ⟨x, m, hx⟩ := k.onLoop j y h
    exact ⟨x, m, (get x m j).mpr ⟨hx, hj⟩⟩
  · have others : (∃ j, (Function.update panel p ((panel p).without l) x).loops.get m = some j ∧
        Function.update seat i none j = some (some x, some m, true)) ↔
        ∃ j, ((panel x).loops.get m = some j ∧ j ≠ i) ∧ seat j = some (some x, some m, true) := by
      refine exists_congr fun j => ?_
      rw [get]
      refine and_congr_right fun h => ?_
      rw [Function.update_of_ne h.2]
    rw [others]
    have was := k.speaking x m
    rw [Function.update_apply]
    split
    · next hx =>
      subst hx
      unfold Panel.without
      dsimp only
      split
      · next hs =>
        refine iff_of_false nofun ?_
        rintro ⟨j, ⟨hj, hji⟩, hseat⟩
        have hm := (k.speaking x m).mpr ⟨j, hj, hseat⟩
        rw [hs, Option.some.injEq] at hm
        obtain ⟨p', l', hp, hl, here⟩ := k.at hi
        cases hp; cases hl
        subst hm
        rw [here] at hj
        exact hji (Option.some.inj hj).symm
      · next hs =>
        rw [was]
        refine exists_congr fun j => ⟨fun ⟨h, h'⟩ => ⟨⟨h, fun e => hs ?_⟩, h'⟩, fun h => ⟨h.1.1, h.2⟩⟩
        subst e
        rw [hi] at h'
        simp only [Option.some.injEq, Prod.mk.injEq] at h'
        obtain ⟨-, hlm, hb⟩ := h'
        subst hlm hb
        exact (k.speaking x l).mpr ⟨j, h, hi⟩
    · next hx =>
      rw [was]
      refine exists_congr fun j => ⟨fun ⟨h, h'⟩ => ⟨⟨h, fun e => hx ?_⟩, h'⟩, fun h => ⟨h.1.1, h.2⟩⟩
      subst e
      rw [hi] at h'
      simp only [Option.some.injEq, Prod.mk.injEq] at h'
      exact h'.1.symm

/-- A call goes onto an empty loop of a position that speaks to nobody and becomes the one spoken to (R70, R71). -/
theorem LoopFits.place {i : Slot} {p : Pos} {l : LoopIx} (k : LoopFits seat panel) (away : seat i = none)
    (free : (panel p).loops.get l = none) (silent : (panel p).speaking = none) (isOpen : (panel p).isOpen = true) :
    LoopFits (Function.update seat i (some (some p, some l, true)))
      (Function.update panel p { panel p with loops := (panel p).loops.set l (some i), speaking := some l }) := by
  have get : ∀ x m j, (Function.update panel p
      { panel p with loops := (panel p).loops.set l (some i), speaking := some l } x).loops.get m = some j ↔
      ((panel x).loops.get m = some j ∧ j ≠ i) ∨ (x = p ∧ m = l ∧ j = i) := fun x m j => by
    have out : ∀ y n, (panel y).loops.get n ≠ some i := fun y n h => by
      obtain ⟨⟨b, hb⟩, -⟩ := k.loops y n i h
      rw [away] at hb; cases hb
    have ne : ∀ y n, (panel y).loops.get n = some j → j ≠ i := fun y n h e => out y n (e ▸ h)
    rw [Function.update_apply]
    split
    · next hx =>
      subst hx
      dsimp only
      rw [Table.get_set]
      split
      · next hm =>
        subst hm
        rw [free]
        simp only [Option.some.injEq, reduceCtorEq, false_and, true_and, false_or]
        exact eq_comm
      · next hm =>
        exact ⟨fun h => .inl ⟨h, ne _ _ h⟩, fun h => h.elim And.left fun h => absurd h.2.1.symm hm⟩
    · next hx => exact ⟨fun h => .inl ⟨h, ne _ _ h⟩, fun h => h.elim And.left fun h => absurd h.1 hx⟩
  refine ⟨fun x m j h => ?_, fun j y h => ?_, fun x m => ?_⟩
  · rcases (get x m j).mp h with ⟨h, hj⟩ | ⟨rfl, rfl, rfl⟩
    · obtain ⟨hb, ho⟩ := k.loops x m j h
      rw [Function.update_of_ne hj, Function.update_apply]
      refine ⟨hb, ?_⟩
      split
      · next hx => subst hx; exact ho
      · exact ho
    · rw [Function.update_self, Function.update_self]
      exact ⟨⟨true, rfl⟩, isOpen⟩
  · by_cases hj : j = i
    · exact ⟨p, l, (get p l j).mpr (.inr ⟨rfl, rfl, hj⟩)⟩
    · rw [Function.update_of_ne hj] at h
      obtain ⟨x, m, hx⟩ := k.onLoop j y h
      exact ⟨x, m, (get x m j).mpr (.inl ⟨hx, hj⟩)⟩
  · by_cases hx : x = p
    · subst hx
      rw [Function.update_self]
      dsimp only
      constructor
      · intro h
        have hm : l = m := Option.some.inj h
        subst hm
        exact ⟨i, by rw [Table.get_set_self], Function.update_self ..⟩
      · rintro ⟨j, hj, hs⟩
        have hj' := (get x m j).mp (by rw [Function.update_self]; exact hj)
        rcases hj' with ⟨h, hji⟩ | ⟨-, rfl, -⟩
        · rw [Function.update_of_ne hji] at hs
          have := (k.speaking x m).mpr ⟨j, h, hs⟩
          rw [silent] at this; cases this
        · rfl
    · rw [Function.update_of_ne hx, k.speaking x m]
      refine exists_congr fun j => ⟨fun ⟨h, h'⟩ => ?_, fun ⟨h, h'⟩ => ?_⟩
      · have hji : j ≠ i := fun e => by rw [e, away] at h'; cases h'
        rw [Function.update_of_ne hji]
        exact ⟨h, h'⟩
      · have hji : j ≠ i := fun e => by
          subst e
          obtain ⟨⟨b, hb⟩, -⟩ := k.loops x m j h
          rw [away] at hb; cases hb
        rw [Function.update_of_ne hji] at h'
        exact ⟨h, h'⟩

/-- The call on a loop is no more, or from now on, the one spoken to (R73, R74). -/
theorem LoopFits.turn {i : Slot} {p : Pos} {l : LoopIx} {b b' : Bool} (k : LoopFits seat panel)
    (hi : seat i = some (some p, some l, b)) (was : (panel p).speaking = if b then some l else none) :
    LoopFits (Function.update seat i (some (some p, some l, b')))
      (Function.update panel p { panel p with speaking := if b' then some l else none }) := by
  obtain ⟨p', l', hp, hl, here⟩ := k.at hi
  cases hp; cases hl
  have same : ∀ x, (Function.update panel p { panel p with speaking := if b' then some l else none } x).loops =
      (panel x).loops := fun x => by
    rw [Function.update_apply]; split
    · next hx => subst hx; rfl
    · rfl
  have alone : ∀ m j, (panel p).loops.get m = some j → j ≠ i → seat j ≠ some (some p, some m, true) :=
    fun m j hj hji hs => by
      have hm := (k.speaking p m).mpr ⟨j, hj, hs⟩
      rw [was] at hm
      cases b with
      | false => cases hm
      | true =>
        have hlm : l = m := Option.some.inj hm
        subst hlm
        rw [here] at hj
        exact hji (Option.some.inj hj).symm
  refine ⟨fun x m j h => ?_, fun j y h => ?_, fun x m => ?_⟩
  · rw [same] at h
    obtain ⟨⟨c, hc⟩, ho⟩ := k.loops x m j h
    refine ⟨?_, ?_⟩
    · by_cases hj : j = i
      · subst hj
        rw [hi] at hc
        simp only [Option.some.injEq, Prod.mk.injEq] at hc
        obtain ⟨rfl, rfl, -⟩ := hc
        exact ⟨b', Function.update_self ..⟩
      · exact ⟨c, by rw [Function.update_of_ne hj]; exact hc⟩
    · rw [Function.update_apply]; split
      · next hx => subst hx; exact ho
      · exact ho
  · have : ∃ z, seat j = some z := by
      by_cases hj : j = i
      · exact ⟨_, hj ▸ hi⟩
      · exact ⟨y, by rw [Function.update_of_ne hj] at h; exact h⟩
    obtain ⟨z, hz⟩ := this
    obtain ⟨x, m, hx⟩ := k.onLoop j z hz
    exact ⟨x, m, by rw [same]; exact hx⟩
  · rw [same]
    by_cases hx : x = p
    · subst hx
      rw [Function.update_self]
      dsimp only
      constructor
      · intro h
        cases b' with
        | false => cases h
        | true =>
          have hlm : l = m := Option.some.inj h
          subst hlm
          exact ⟨i, here, Function.update_self ..⟩
      · rintro ⟨j, hj, hs⟩
        by_cases hji : j = i
        · subst hji
          rw [Function.update_self] at hs
          simp only [Option.some.injEq, Prod.mk.injEq, true_and] at hs
          obtain ⟨rfl, rfl⟩ := hs
          rfl
        · rw [Function.update_of_ne hji] at hs
          exact absurd hs (alone m j hj hji)
    · rw [Function.update_of_ne hx, k.speaking x m]
      refine exists_congr fun j => and_congr_right fun h => ?_
      have hji : j ≠ i := fun e => by
        subst e
        obtain ⟨⟨c, hc⟩, -⟩ := k.loops x m j h
        rw [hi] at hc
        simp only [Option.some.injEq, Prod.mk.injEq] at hc
        exact hx hc.1.symm
      rw [Function.update_of_ne hji]

end Loops

/-! ### Camp lists -/

section Camps

variable {camps : Slot → Option Circuit} {camp : Circuit → List Slot}

theorem CampFits.leave {i : Slot} {k : Circuit} (h : CampFits camps camp) (hi : camps i = some k) :
    CampFits (Function.update camps i none) (Function.update camp k ((camp k).filter (· != i))) := by
  refine ⟨fun c => ?_, fun c => ?_, fun c j => ?_⟩
  · rw [Function.update_apply]; split
    · exact (h.once k).filter _
    · exact h.once c
  · rw [Function.update_apply]; split
    · exact (List.length_filter_le _ _).trans (h.space k)
    · exact h.space c
  · have mem : j ∈ Function.update camp k ((camp k).filter (· != i)) c ↔ j ∈ camp c ∧ j ≠ i := by
      rw [Function.update_apply]; split
      · next hc => subst hc; simp [List.mem_filter]
      · next hc =>
        refine ⟨fun hj => ⟨hj, fun e => hc ?_⟩, And.left⟩
        subst e
        have := (h.camped c j).mp hj
        rw [hi] at this
        exact (Option.some.inj this).symm
    rw [mem, h.camped]
    by_cases hj : j = i
    · subst hj; simp
    · rw [Function.update_of_ne hj]
      exact and_iff_left hj

theorem CampFits.join {i : Slot} {k : Circuit} (h : CampFits camps camp) (away : camps i = none)
    (space : (camp k).length < 3) :
    CampFits (Function.update camps i (some k)) (Function.update camp k (camp k ++ [i])) := by
  have out : ∀ c, i ∉ camp c := fun c hc => by
    have := (h.camped c i).mp hc
    rw [away] at this; cases this
  refine ⟨fun c => ?_, fun c => ?_, fun c j => ?_⟩
  · rw [Function.update_apply]; split
    · exact List.nodup_append.mpr ⟨h.once k, by simp, fun a ha b hb e => out k (by
        rw [List.mem_singleton.mp hb] at e; exact e ▸ ha)⟩
    · exact h.once c
  · rw [Function.update_apply]; split
    · rw [List.length_append]; exact space
    · exact h.space c
  · have mem : j ∈ Function.update camp k (camp k ++ [i]) c ↔ j ∈ camp c ∨ (c = k ∧ j = i) := by
      rw [Function.update_apply]; split
      · next hc => subst hc; simp
      · next hc => simp [hc]
    rw [mem, h.camped]
    by_cases hj : j = i
    · subst hj
      rw [away, Function.update_self]
      simp [eq_comm]
    · rw [Function.update_of_ne hj]
      simp [hj]

end Camps

end Sys2Proof.Machine
end

section
/-! SUPPORT. One call on the move: what the lists have to say of it, how a rule holds it while it moves, and how it leaves
loops and camp lists (R7, R70, R84). -/

namespace Sys2Proof.Machine

/-! ### Where a record says that its call stands -/

/-- What rosters, offers, loops and camp lists have to say of a call. -/
structure Marks where
  member : Option (Part × Option Nat × CallClass)
  offer : Option (Part × Option Pos)
  seat : Option (Option Pos × Option LoopIx × Bool)
  camp : Option Circuit

/-- A call that stands in no list. -/
def Marks.away : Marks := { member := none, offer := none, seat := none, camp := none }

/-- The lists that a record asks for (R7, R24, R70, R84). -/
def Stance.marks (d : Stance) : Marks :=
  match d.state with
  | .queued => { Marks.away with member := some (d.partition, d.place, d.cls) }
  | .offered =>
    { Marks.away with member := some (d.partition, d.place, d.cls), offer := some (d.partition, d.position) }
  | .held => { Marks.away with seat := some (d.position, d.loop, false) }
  | .talking | .consultRinging | .consultTalking => { Marks.away with seat := some (d.position, d.loop, true) }
  | .camped => { Marks.away with camp := d.target.map Target.circuit }
  | .free | .ringingOut | .announced | .closing => Marks.away

/-- The call has a target where its state asks for one and none where it forbids one, and only the timer of its state
runs (R4, R7). -/
structure Stance.Sound (d : Stance) : Prop where
  absent : rosterState d.state ∨ d.state = .held ∨ d.state = .announced ∨ (d.state = .talking ∧ d.extend = none) →
    d.target = none
  present : d.state = .consultRinging ∨ d.state = .consultTalking ∨ d.state = .ringingOut ∨ d.state = .camped →
    d.target ≠ none
  timer : ∀ k x, d.timer = some (k, x) → d.state = timerState k

/-- How a rule holds the one call it moves: not at all; in its place, with a record that need not be sound; or taken from
every list. -/
inductive Grip where | none | slack | lifted deriving DecidableEq

/-- What the lists have to say of a call while a rule holds call `i`. -/
def View.marks (v : View) (i : Slot) (g : Grip) (j : Slot) : Marks :=
  if j = i ∧ g = .lifted then .away else (v.call j).marks

/-- The invariant of calls and lists, while a rule holds call `i`. -/
structure View.Placed (v : View) (i : Slot) (g : Grip) : Prop where
  rosters : RosterFits (Marks.member ∘ v.marks i g) v.roster
  offers : OfferFits (Marks.offer ∘ v.marks i g) v.panel
  loops : LoopFits (Marks.seat ∘ v.marks i g) v.panel
  camps : CampFits (Marks.camp ∘ v.marks i g) v.camp
  sound : ∀ j, j ≠ i ∨ g = .none → (v.call j).Sound
  serving : ∀ j, (v.call j).state ≠ .free → v.engine = .serving
  extension : ∀ j t, (v.call j).state ≠ .free → (v.call j).target = some t → v.kind t.circuit = .extension

section Marks

variable {d : Stance}

theorem Stance.member_iff {q : Part} {n : Option Nat} {c : CallClass} :
    d.marks.member = some (q, n, c) ↔ rosterState d.state ∧ d.partition = q ∧ d.place = n ∧ d.cls = c := by
  unfold Stance.marks rosterState
  split <;> simp_all [Marks.away]

theorem Stance.offer_iff {q : Part} {o : Option Pos} :
    d.marks.offer = some (q, o) ↔ d.state = .offered ∧ d.partition = q ∧ d.position = o := by
  unfold Stance.marks
  split <;> simp_all [Marks.away]

theorem Stance.seat_iff {p : Option Pos} {l : Option LoopIx} {b : Bool} :
    d.marks.seat = some (p, l, b) ↔
      loopState d.state ∧ d.position = p ∧ d.loop = l ∧ (b = true ↔ speakingState d.state) := by
  unfold Stance.marks speakingState loopState
  split <;> cases b <;> simp_all [Marks.away]

theorem Stance.seat_of (h : loopState d.state) : ∃ b, d.marks.seat = some (d.position, d.loop, b) := by
  unfold loopState at h
  unfold Stance.marks
  rcases h with h | h | h | h <;> exact ⟨_, by rw [h]⟩

theorem Stance.camp_iff {k : Circuit} :
    d.marks.camp = some k ↔ d.state = .camped ∧ ∃ n, d.target = some { number := n, circuit := k } := by
  unfold Stance.marks
  split
  case h_7 h =>
    rw [h]
    cases d.target with
    | none => simp
    | some t =>
      obtain ⟨n, c⟩ := t
      simp only [Option.map_some, Option.some.injEq, Target.mk.injEq, true_and]
      exact ⟨fun h => ⟨n, rfl, h⟩, fun ⟨_, _, h⟩ => h⟩
  all_goals simp_all [Marks.away]

end Marks

@[simp] theorem View.marks_none (v : View) (i : Slot) : v.marks i .none = fun j => (v.call j).marks :=
  funext fun _ => if_neg fun h => Grip.noConfusion h.2

/-- Whom no rule holds does not matter. -/
theorem View.Placed.anyone {v : View} {i j : Slot} (k : v.Placed i .none) : v.Placed j .none := by
  obtain ⟨rosters, offers, loops, camps, sound, serving, extension⟩ := k
  rw [View.marks_none] at rosters offers loops camps
  refine ⟨?_, ?_, ?_, ?_, fun x _ => sound x (.inr rfl), serving, extension⟩ <;> rw [View.marks_none]
  · exact rosters
  · exact offers
  · exact loops
  · exact camps

/-- The invariant is the free list's and this one. -/
theorem placesInv_iff {s : State} (i : Slot) : PlacesInv s ↔ s.freeListed ∧ s.view.Placed i .none := by
  constructor
  · intro h
    refine ⟨h.slots, ⟨?_, ?_, ?_, ?_, fun j _ => ?_, fun j hj => ?_, fun j t => ?_⟩⟩
    · rw [View.marks_none]
      refine ⟨fun q => (h.rosterOnce q).1, fun q => (h.rosterOnce q).2, fun q j => ?_, fun q n j hj => ?_, fun q => ?_⟩
      · rw [show j ∈ s.view.roster q ↔ _ from h.members q j]
        simp only [Function.comp_apply, Stance.member_iff]
        exact ⟨fun ⟨a, b⟩ => ⟨_, _, a, b, rfl, rfl⟩, fun ⟨_, _, a, b, _⟩ => ⟨a, b⟩⟩
      · have hm := (h.members q j).mp (List.mem_of_getElem? hj)
        exact ⟨_, Stance.member_iff.mpr ⟨hm.1, hm.2, h.places q n j hj, rfl⟩⟩
      · refine (h.classes q).imp_of_mem fun {a b} ha _ hab => ?_
        simp only [Function.comp_apply, Stance.member_iff]
        rintro ⟨_, _, _, _, hb⟩
        have hm := (h.members q a).mp ha
        exact ⟨_, hm.1, hm.2, rfl, hab hb⟩
    · rw [View.marks_none]
      refine ⟨fun p j hj => ?_, fun j x hx => ?_⟩
      · obtain ⟨state, position, isOpen, part, silent⟩ := h.offers p j hj
        exact ⟨⟨_, Stance.offer_iff.mpr ⟨state, rfl, position⟩, part⟩, isOpen, silent⟩
      · exact h.offered j (Stance.offer_iff.mp hx).1
    · rw [View.marks_none]
      refine ⟨fun p l j hj => ?_, fun j x hx => ?_, fun p l => (h.speaking p l).trans ?_⟩
      · obtain ⟨state, position, loop, isOpen⟩ := h.loops p l j hj
        obtain ⟨b, hb⟩ := Stance.seat_of (d := (s.call j).stance) state
        refine ⟨⟨b, hb.trans ?_⟩, isOpen⟩
        rw [← position, ← loop]
        rfl
      · exact h.onLoop j (Stance.seat_iff.mp hx).1
      · refine exists_congr fun j => and_congr_right fun hj => ?_
        obtain ⟨state, position, loop, -⟩ := h.loops p l j hj
        simp only [Function.comp_apply, Stance.seat_iff, true_iff]
        exact ⟨fun hs => ⟨state, position, loop, hs⟩, fun hs => hs.2.2.2⟩
    · rw [View.marks_none]
      refine ⟨fun c => (h.campOnce c).1, fun c => (h.campOnce c).2, fun c j => (h.camped c j).trans ?_⟩
      exact (Stance.camp_iff (d := (s.call j).stance)).symm
    · exact ⟨h.targetAbsent j, h.targetPresent j, h.timers j⟩
    · by_contra hn
      exact hj (h.serving hn j)
    · obtain ⟨n, c⟩ := t
      exact h.extension j n c
  · rintro ⟨slots, k⟩
    obtain ⟨rosters, offers, loops, camps, sound, serving, extension⟩ := k
    rw [View.marks_none] at rosters offers loops camps
    have member : ∀ q j, j ∈ s.view.roster q ↔ rosterState (s.call j).state ∧ (s.call j).partition = q := fun q j => by
      rw [rosters.members]
      simp only [Function.comp_apply, Stance.member_iff]
      exact ⟨fun ⟨_, _, a, b, _⟩ => ⟨a, b⟩, fun ⟨a, b⟩ => ⟨_, _, a, b, rfl, rfl⟩⟩
    exact {
      slots := slots
      serving := fun he j => by
        by_contra hj
        exact he (serving j hj)
      rosterOnce := fun q => ⟨rosters.once q, rosters.space q⟩
      members := member
      places := fun q n j hj => by
        obtain ⟨c, hc⟩ := rosters.places q n j hj
        exact (Stance.member_iff.mp hc).2.2.1
      classes := fun q => (rosters.classes q).imp_of_mem fun {a b} _ hb hab h => by
        have hm := (member q b).mp hb
        obtain ⟨n, hn⟩ := hab ⟨_, Stance.member_iff.mpr ⟨hm.1, hm.2, rfl, h⟩⟩
        exact (Stance.member_iff.mp hn).2.2.2
      offers := fun p j hj => by
        obtain ⟨⟨q, ho, part⟩, isOpen, silent⟩ := offers.offers p j hj
        obtain ⟨state, partition, position⟩ := Stance.offer_iff.mp ho
        exact ⟨state, position, isOpen, part.trans (congrArg some partition.symm), silent⟩
      offered := fun j hj => offers.offered j _ (Stance.offer_iff.mpr ⟨hj, rfl, rfl⟩)
      loops := fun p l j hj => by
        obtain ⟨⟨b, hb⟩, isOpen⟩ := loops.loops p l j hj
        obtain ⟨state, position, loop, -⟩ := Stance.seat_iff.mp hb
        exact ⟨state, position, loop, isOpen⟩
      onLoop := fun j hj => loops.onLoop j _ (Stance.seat_of (d := (s.call j).stance) hj).choose_spec
      speaking := fun p l => (loops.speaking p l).trans <| exists_congr fun j => and_congr_right fun hj => by
        obtain ⟨⟨b, hb⟩, -⟩ := loops.loops p l j hj
        obtain ⟨state, position, loop, -⟩ := Stance.seat_iff.mp hb
        simp only [Function.comp_apply, Stance.seat_iff, true_iff]
        exact ⟨fun hs => hs.2.2.2, fun hs => ⟨state, position, loop, hs⟩⟩
      campOnce := fun c => ⟨camps.once c, camps.space c⟩
      camped := fun c j => (camps.camped c j).trans Stance.camp_iff
      targetAbsent := fun j => (sound j (.inr rfl)).absent
      targetPresent := fun j => (sound j (.inr rfl)).present
      extension := fun j n c hj ht => extension j _ hj ht
      timers := fun j => (sound j (.inr rfl)).timer }

/-! ### One call on the move -/

section Marks

variable {v : View} {i : Slot} {g : Grip}

theorem View.marks_self (v : View) (i : Slot) (g : Grip) :
    v.marks i g i = if g = .lifted then .away else (v.call i).marks := by
  unfold View.marks
  simp only [true_and]

theorem View.marks_of (hg : g ≠ .lifted) : v.marks i g i = (v.call i).marks := by rw [View.marks_self, if_neg hg]
theorem View.marks_lifted (v : View) (i : Slot) : v.marks i .lifted i = .away := by rw [View.marks_self, if_pos rfl]

/-- What another record of call `i`, and another grip, make of the marks. -/
theorem View.marks_update {v w : View} {i : Slot} {g g' : Grip} {x : Marks} (others : ∀ j, j ≠ i → w.call j = v.call j)
    (self : w.marks i g' i = x) : w.marks i g' = Function.update (v.marks i g) i x := by
  funext j
  by_cases hj : j = i
  · subst hj; rw [Function.update_self, self]
  · rw [Function.update_of_ne hj]
    unfold View.marks
    rw [if_neg fun h => hj h.1, if_neg fun h => hj h.1, others j hj]

theorem marks_comp {α : Type} {m : Slot → Marks} {x : Marks} (f : Marks → α) (h : f x = f (m i)) :
    f ∘ Function.update m i x = f ∘ m := by
  rw [Function.comp_update, h]
  exact Function.update_eq_self i (f ∘ m)

theorem Stance.marks_seat {d : Stance} {x} (h : d.marks.seat = some x) : d.marks = { Marks.away with seat := some x } := by
  unfold Stance.marks at *
  split at h <;> simp_all [Marks.away]

theorem Stance.marks_camp {d : Stance} {k : Circuit} (h : d.marks.camp = some k) :
    d.marks = { Marks.away with camp := some k } := by
  unfold Stance.marks at *
  split at h <;> simp_all [Marks.away]

theorem View.Placed.revise {g' : Grip} {d : Stance} (k : v.Placed i g)
    (same : (if g' = .lifted then .away else d.marks) = v.marks i g i) (sound : g' = .none → d.Sound)
    (live : d.state ≠ .free → (v.call i).state ≠ .free)
    (target : d.state ≠ .free → ∀ t, d.target = some t → (v.call i).target = some t ∨ v.kind t.circuit = .extension) :
    (v.setCall i d).Placed i g' := by
  have marks : (v.setCall i d).marks i g' = v.marks i g := by
    rw [View.marks_update (v := v) (g := g) (x := v.marks i g i) (fun j hj => by rw [View.call_setCall, if_neg hj])]
    · exact Function.update_eq_self _ _
    · rw [View.marks_self, View.call_setCall, if_pos rfl, same]
  obtain ⟨rosters, offers, loops, camps, was, serving, extension⟩ := k
  refine ⟨?_, ?_, ?_, ?_, fun j hj => ?_, fun j hj => ?_, fun j t hj ht => ?_⟩
  · rw [marks]; exact rosters
  · rw [marks]; exact offers
  · rw [marks]; exact loops
  · rw [marks]; exact camps
  · rw [View.call_setCall]
    split
    · next h => exact sound (hj.resolve_left fun hn => hn h)
    · next h => exact was j (.inl h)
  · rw [View.call_setCall] at hj
    split at hj
    · exact serving i (live hj)
    · exact serving j hj
  · rw [View.call_setCall] at hj ht
    split at hj
    · next h =>
      rw [if_pos h] at ht
      exact (target hj t ht).elim (extension i t (live hj)) id
    · next h =>
      rw [if_neg h] at ht
      exact extension j t hj ht

/-- The same record in another grip. -/
theorem View.Placed.grip {g' : Grip} (k : v.Placed i g)
    (same : (if g' = .lifted then .away else (v.call i).marks) = v.marks i g i)
    (sound : g' = .none → (v.call i).Sound) : v.Placed i g' := by
  have h := k.revise (d := v.call i) same sound (fun h => h) fun _ _ h => .inl h
  rwa [View.setCall_call] at h

theorem View.Placed.slack (k : v.Placed i .none) : v.Placed i .slack :=
  k.grip (by rw [View.marks_of (by decide), if_neg (by decide)]) nofun

theorem View.Placed.take (k : v.Placed i g) (h : (v.call i).marks = .away) : v.Placed i .lifted := by
  refine k.grip ?_ nofun
  rw [View.marks_self, h, ite_self, ite_self]

theorem View.Placed.putDown (k : v.Placed i g) (h : g ≠ .lifted ∨ (v.call i).marks = .away) (sound : (v.call i).Sound) :
    v.Placed i .none := by
  refine k.grip ?_ fun _ => sound
  rw [if_neg (by decide), View.marks_self]
  split
  · next hg => exact h.resolve_left fun hn => hn hg
  · rfl

end Marks

/-- What routing and closing calls leave of a panel: it may offer less, hold less and speak to nobody. -/
structure Panel.Sheds (a b : Panel) : Prop where
  isOpen : b.isOpen = a.isOpen
  partition : b.partition = a.partition
  offered : b.offered = a.offered ∨ b.offered = none
  loops : ∀ l, b.loops.get l = a.loops.get l ∨ b.loops.get l = none
  speaking : b.speaking = a.speaking ∨ b.speaking = none

theorem Panel.Sheds.refl (a : Panel) : a.Sheds a := ⟨rfl, rfl, .inl rfl, fun _ => .inl rfl, .inl rfl⟩

theorem Panel.Sheds.trans {a b c : Panel} (h : a.Sheds b) (k : b.Sheds c) : a.Sheds c where
  isOpen := k.isOpen.trans h.isOpen
  partition := k.partition.trans h.partition
  offered := k.offered.elim (fun e => e ▸ h.offered) .inr
  loops := fun l => (k.loops l).elim (fun e => e ▸ h.loops l) .inr
  speaking := k.speaking.elim (fun e => e ▸ h.speaking) .inr

theorem View.sheds_unoffer (v : View) (p x : Pos) :
    (v.panel x).Sheds ((v.setPanel p { v.panel p with offered := none }).panel x) := by
  rw [View.panel_setPanel]
  split
  · next hx => subst hx; exact ⟨rfl, rfl, .inr rfl, fun _ => .inl rfl, .inl rfl⟩
  · exact .refl _

/-- From state `s`, a rule has moved call `i` and no other: other members of its rosters may have new places, panels may
offer and hold less. -/
structure Moving (s : State) (e : Event) (i : Slot) (g : Grip) : Prop where
  placed : e.st.view.Placed i g
  others : ∀ j, j ≠ i → ∃ n, e.st.view.call j = { s.view.call j with place := n }
  sheds : ∀ p, (s.view.panel p).Sheds (e.st.view.panel p)

theorem Moving.start {e : Event} {i : Slot} {g : Grip} (k : e.st.view.Placed i g) : Moving e.st e i g :=
  ⟨k, fun _ _ => ⟨_, rfl⟩, fun _ => .refl _⟩

section Moving

variable {s : State} {e f : Event} {i : Slot} {g : Grip}

theorem Moving.alike (m : Moving s e i g) (h : f.st.view = e.st.view) : Moving s f i g := by
  obtain ⟨placed, others, sheds⟩ := m
  rw [← h] at placed others sheds
  exact ⟨placed, others, sheds⟩

theorem Moving.regrip {g' : Grip} (m : Moving s e i g) (h : e.st.view.Placed i g') : Moving s e i g' :=
  ⟨h, m.others, m.sheds⟩

theorem Moving.take (m : Moving s e i g) (h : (e.st.view.call i).marks = .away) : Moving s e i .lifted :=
  m.regrip (m.placed.take h)

theorem Moving.slack (m : Moving s e i .none) : Moving s e i .slack := m.regrip m.placed.slack

theorem Moving.putDown (m : Moving s e i g) (h : g ≠ .lifted ∨ (e.st.view.call i).marks = .away)
    (sound : (e.st.view.call i).Sound) : Moving s e i .none := m.regrip (m.placed.putDown h sound)

/-- Another record for the call that is moved. -/
theorem Moving.revise {g' : Grip} {d : Stance} (m : Moving s e i g) (hf : f.st.view = e.st.view.setCall i d)
    (same : (if g' = .lifted then .away else d.marks) = e.st.view.marks i g i) (sound : g' = .none → d.Sound)
    (live : d.state ≠ .free → (e.st.view.call i).state ≠ .free)
    (target : d.state ≠ .free → ∀ t, d.target = some t →
      (e.st.view.call i).target = some t ∨ e.st.view.kind t.circuit = .extension) : Moving s f i g' := by
  refine ⟨hf ▸ m.placed.revise same sound live target, fun j hj => ?_, fun p => ?_⟩
  · rw [hf, View.call_setCall, if_neg hj]
    exact m.others j hj
  · rw [hf]
    exact m.sheds p

/-- A lifted call may be given any record that is live only where it was, and that names extensions only. -/
theorem Moving.edit {d : Stance} (m : Moving s e i .lifted) (hf : f.st.view = e.st.view.setCall i d)
    (live : d.state ≠ .free → (e.st.view.call i).state ≠ .free)
    (target : ∀ t, d.target = some t → (e.st.view.call i).target = some t ∨ e.st.view.kind t.circuit = .extension) :
    Moving s f i .lifted :=
  m.revise hf (by rw [if_pos rfl, View.marks_lifted]) nofun live fun _ => target

/-! ### Changes of state, timers, EXTENDs -/

/-- The record that R7 makes of a call that changes to a state. -/
def Stance.enter (d : Stance) (st : CallState) : Stance :=
  { d with
    state := st, position := if st.hasPosition then d.position else none, loop := if st.hasLoop then d.loop else none,
    target := if st.keepsTarget then d.target else none, place := if st.inRoster then d.place else none, timer := none }

theorem Event.toState_view {st : CallState} (h : (e.st.view.call i).state ≠ .free) :
    (e.toState i st).st.view = e.st.view.setCall i ((e.st.view.call i).enter st) := by
  rw [Event.toState_st e h]
  exact State.view_setCall _ _ _

theorem Event.startTimer_view (e : Event) (i : Slot) (k : TimerKind) (n : Nat) : ∃ x,
    (e.startTimer i k n).st.view = e.st.view.setCall i { e.st.view.call i with timer := some (k, x) } :=
  ⟨_, State.view_setCall _ _ _⟩

theorem Stance.enter_target {d : Stance} {st : CallState} {t : Target} (h : (d.enter st).target = some t) :
    d.target = some t := by
  unfold Stance.enter at h
  dsimp only at h
  split at h
  · exact h
  · cases h

theorem Moving.toState {st : CallState} (m : Moving s e i .lifted) : Moving s (e.toState i st) i .lifted := by
  by_cases h : (e.st.view.call i).state = .free
  · rw [Event.toState_free e h]; exact m
  · exact m.edit (Event.toState_view h) (fun _ => h) fun t ht => .inl (Stance.enter_target ht)

theorem Event.toState_call {st : CallState} (h : (e.st.view.call i).state ≠ .free) :
    (e.toState i st).st.view.call i = (e.st.view.call i).enter st := by
  rw [Event.toState_view h, View.call_setCall, if_pos rfl]

/-- The call as the answer to its EXTEND leaves it. -/
theorem Event.answerExtendOf_call (e : Event) (i : Slot) (code : ResultCode) :
    ∃ x, (e.answerExtendOf i code).st.view.call i = { e.st.view.call i with extend := x } := by
  obtain ⟨x, h⟩ := e.answerExtendOf_view i code
  exact ⟨x, by rw [h, View.call_setCall, if_pos rfl]⟩

/-- The answer to an EXTEND leaves the call where it is, but a TALKING one perhaps with a target (R91). -/
theorem Moving.answerExtendOf {code : ResultCode} (m : Moving s e i g)
    (h : g ≠ .none ∨ (e.st.view.call i).state ≠ .talking) : Moving s (e.answerExtendOf i code) i g := by
  obtain ⟨x, hx⟩ := e.answerExtendOf_view i code
  refine m.revise hx ?_ (fun hg => ?_) (fun h => h) fun _ t ht => .inl ht
  · rw [View.marks_self]; rfl
  · obtain ⟨absent, present, timer⟩ := m.placed.sound i (.inr hg)
    refine ⟨fun hs => absent ?_, present, timer⟩
    rcases hs with hs | hs | hs | hs
    · exact .inl hs
    · exact .inr (.inl hs)
    · exact .inr (.inr (.inl hs))
    · exact absurd hs.1 (h.resolve_left fun hn => hn hg)

/-! ### Taking a call from where it stands (R27, R70, R84) -/

theorem Event.leaveLoop_call (e : Event) (i j : Slot) : (e.leaveLoop i).st.view.call j = e.st.view.call j := by
  unfold Event.leaveLoop
  dsimp only
  split
  · rw [Event.updPos_view]; rfl
  · rfl

/-- A lifted call stands on no loop. -/
theorem View.Placed.noLoop {v : View} (k : v.Placed i .lifted) (p : Pos) (l : LoopIx) : (v.panel p).loops.get l ≠ some i :=
  fun h => by
    obtain ⟨⟨b, hb⟩, -⟩ := k.loops.loops p l i h
    rw [Function.comp_apply, View.marks_lifted] at hb
    cases hb

theorem Moving.leaveLoop_lifted (m : Moving s e i .lifted) : Moving s (e.leaveLoop i) i .lifted := by
  refine m.alike ?_
  unfold Event.leaveLoop
  dsimp only
  split
  · next p l _ _ =>
    rw [Event.updPos_view, if_neg (show ¬ (e.st.pos p).loops.get l = some i from m.placed.noLoop p l)]
    exact View.setPanel_panel _ _
  · rfl

theorem View.Placed.leaveLoop {v : View} {p : Pos} {l : LoopIx} {b : Bool} (k : v.Placed i g)
    (h : (v.marks i g i).seat = some (some p, some l, b)) :
    (v.setPanel p ((v.panel p).without l)).Placed i .lifted := by
  have hg : g ≠ .lifted := fun hg => by subst hg; rw [View.marks_lifted] at h; cases h
  have self : v.marks i g i = { Marks.away with seat := some (some p, some l, b) } := by
    rw [View.marks_of hg] at h ⊢
    exact Stance.marks_seat h
  have marks : (v.setPanel p ((v.panel p).without l)).marks i .lifted = Function.update (v.marks i g) i .away :=
    View.marks_update (fun _ _ => rfl) (View.marks_lifted _ _)
  obtain ⟨rosters, offers, loops, camps, sound, serving, extension⟩ := k
  refine ⟨?_, ?_, ?_, ?_, fun j hj => sound j (.inl (hj.resolve_right nofun)), serving, extension⟩ <;> rw [marks]
  · rw [marks_comp _ (by rw [self])]; exact rosters
  · rw [marks_comp _ (by rw [self])]
    have panel : ∀ x, (v.setPanel p ((v.panel p).without l)).panel x =
        if x = p then (v.panel p).without l else v.panel x := fun x => View.panel_setPanel _ _ _ _
    refine offers.panels (fun x => ?_) fun x _ => ?_ <;> rw [panel] <;> split
    · next hx => subst hx; rfl
    · rfl
    · next hx =>
      subst hx
      refine ⟨rfl, rfl, fun hs => ?_⟩
      unfold Panel.without
      dsimp only
      rw [hs]
      rfl
    · exact ⟨rfl, rfl, fun h => h⟩
  · rw [Function.comp_update]; exact loops.lift h
  · rw [marks_comp _ (by rw [self])]; exact camps

theorem Panel.sheds_without (a : Panel) (l : LoopIx) : a.Sheds (a.without l) where
  isOpen := rfl
  partition := rfl
  offered := .inl rfl
  loops := fun m => by
    unfold Panel.without
    dsimp only
    rw [Table.get_set]
    split
    · exact .inr rfl
    · exact .inl rfl
  speaking := by
    unfold Panel.without
    dsimp only
    split
    · exact .inr rfl
    · exact .inl rfl

theorem Moving.leaveLoop (m : Moving s e i g) (h : loopState (e.st.view.call i).state) :
    Moving s (e.leaveLoop i) i .lifted := by
  by_cases hg : g = .lifted
  · subst hg; exact m.leaveLoop_lifted
  obtain ⟨b, hb⟩ := Stance.seat_of h
  have seat : (e.st.view.marks i g i).seat = some ((e.st.view.call i).position, (e.st.view.call i).loop, b) := by
    rw [View.marks_of hg]; exact hb
  obtain ⟨p, l, hp, hl, here⟩ := m.placed.loops.at seat
  have left := Event.leaveLoop_eq (e := e) hp hl here
  have view : (e.leaveLoop i).st.view = e.st.view.setPanel p ((e.st.view.panel p).without l) := by
    rw [left]
    exact State.view_setPos _ _ _
  rw [hp, hl] at seat
  refine ⟨view ▸ m.placed.leaveLoop seat, fun j hj => ?_, fun x => ?_⟩
  · rw [Event.leaveLoop_call]
    exact m.others j hj
  · rw [view, View.panel_setPanel]
    split
    · next hx => subst hx; exact (m.sheds x).trans (Panel.sheds_without _ _)
    · exact m.sheds x

theorem Event.leaveCamp_call (e : Event) (i j : Slot) : (e.leaveCamp i).st.view.call j = e.st.view.call j := by
  unfold Event.leaveCamp
  split
  · rw [Event.updCall_same, Event.updLamp_view]
    · rfl
    · exact fun _ => rfl
  · rfl

theorem View.Placed.leaveCamp {v : View} {k : Circuit} (h : v.Placed i g) (hg : g ≠ .lifted)
    (hk : (v.call i).marks.camp = some k) : (v.setCamp k ((v.camp k).filter (· != i))).Placed i .lifted := by
  have self : v.marks i g i = { Marks.away with camp := some k } := by
    rw [View.marks_of hg]
    exact Stance.marks_camp hk
  have marks : (v.setCamp k ((v.camp k).filter (· != i))).marks i .lifted = Function.update (v.marks i g) i .away :=
    View.marks_update (fun _ _ => rfl) (View.marks_lifted _ _)
  obtain ⟨rosters, offers, loops, camps, sound, serving, extension⟩ := h
  refine ⟨?_, ?_, ?_, ?_, fun j hj => sound j (.inl (hj.resolve_right nofun)), serving, extension⟩ <;> rw [marks]
  · rw [marks_comp _ (by rw [self])]; exact rosters
  · rw [marks_comp _ (by rw [self])]; exact offers
  · rw [marks_comp _ (by rw [self])]; exact loops
  · rw [Function.comp_update]
    exact camps.leave (by rw [Function.comp_apply, self])

theorem Event.leaveCamp_view {t : Target} (h : (e.st.view.call i).target = some t) :
    (e.leaveCamp i).st.view = e.st.view.setCamp t.circuit ((e.st.view.camp t.circuit).filter (· != i)) := by
  have ht : (e.st.call i).target = some t := h
  unfold Event.leaveCamp
  rw [ht]
  refine (Event.updCall_same ?_).trans (Event.updLamp_view _ _ _)
  exact fun _ => rfl

theorem Moving.leaveCamp_lifted (m : Moving s e i .lifted) : Moving s (e.leaveCamp i) i .lifted := by
  cases ht : (e.st.view.call i).target with
  | none =>
    refine m.alike ?_
    unfold Event.leaveCamp
    rw [show (e.st.call i).target = none from ht]
  | some t =>
    refine m.alike ((Event.leaveCamp_view ht).trans ?_)
    have out : i ∉ e.st.view.camp t.circuit := fun h => by
      have := (m.placed.camps.camped _ _).mp h
      rw [Function.comp_apply, View.marks_lifted] at this
      cases this
    rw [List.filter_eq_self.mpr fun j hj => bne_iff_ne.mpr fun (e : j = i) => out (e ▸ hj)]
    exact View.setCamp_camp _ _

theorem Moving.leaveCamp (m : Moving s e i g) (h : (e.st.view.call i).state = .camped) :
    Moving s (e.leaveCamp i) i .lifted := by
  by_cases hg : g = .lifted
  · subst hg; exact m.leaveCamp_lifted
  cases ht : (e.st.view.call i).target with
  | none =>
    refine (m.take ?_).alike ?_
    · unfold Stance.marks
      rw [h, ht]
      rfl
    · unfold Event.leaveCamp
      rw [show (e.st.call i).target = none from ht]
  | some t =>
    have view := Event.leaveCamp_view ht
    refine ⟨view ▸ m.placed.leaveCamp hg (Stance.camp_iff.mpr ⟨h, t.number, ht⟩), fun j hj => ?_, fun p => ?_⟩
    · rw [Event.leaveCamp_call]; exact m.others j hj
    · rw [view]; exact m.sheds p

end Moving

end Sys2Proof.Machine
end

section
/-! SUPPORT. One call on the move: how it leaves and joins rosters, which number their members anew (R24 to R27). -/

namespace Sys2Proof.Machine

/-! ### Leaving and entering rosters (R26, R27) -/

/-- The lists' view of every call but `i` differs in roster places at most. -/
def View.Replaced (v w : View) (i : Slot) : Prop := ∀ j, j ≠ i → ∃ n, w.call j = { v.call j with place := n }

section Replaced

variable {v w : View} {i : Slot} {g g' : Grip}

theorem Stance.marks_place (d : Stance) (n : Option Nat) : { d with place := n }.marks.offer = d.marks.offer ∧
    { d with place := n }.marks.seat = d.marks.seat ∧ { d with place := n }.marks.camp = d.marks.camp := by
  unfold Stance.marks
  cases d.state <;> exact ⟨rfl, rfl, rfl⟩

theorem View.Replaced.marks {α : Type} {f : Marks → α} (r : v.Replaced w i)
    (hf : ∀ d n, f { (d : Stance) with place := n }.marks = f d.marks) {x : Marks} (self : w.marks i g' i = x) :
    f ∘ w.marks i g' = Function.update (f ∘ v.marks i g) i (f x) := by
  funext j
  by_cases hj : j = i
  · subst hj; rw [Function.update_self, Function.comp_apply, self]
  · rw [Function.update_of_ne hj]
    obtain ⟨n, hn⟩ := r j hj
    unfold View.marks
    rw [Function.comp_apply, Function.comp_apply, if_neg fun h => hj h.1, if_neg fun h => hj h.1, hn, hf]

/-- The invariant after a roster has changed: what is left to show is about rosters and offers. -/
theorem View.Placed.reroster (k : v.Placed i g) (r : v.Replaced w i)
    (rosters : RosterFits (Marks.member ∘ w.marks i g') w.roster)
    (offers : OfferFits (Marks.offer ∘ w.marks i g') w.panel)
    (self : (w.marks i g' i).seat = (v.marks i g i).seat ∧ (w.marks i g' i).camp = (v.marks i g i).camp)
    (loops : ∀ p, (w.panel p).loops = (v.panel p).loops) (speaking : ∀ p, (w.panel p).speaking = (v.panel p).speaking)
    (isOpen : ∀ p, (w.panel p).isOpen = (v.panel p).isOpen) (camp : w.camp = v.camp) (kind : w.kind = v.kind)
    (engine : w.engine = v.engine) (sound : g' = .none → (w.call i).Sound)
    (live : (w.call i).state ≠ .free → (v.call i).state ≠ .free)
    (target : ∀ t, (w.call i).target = some t → (v.call i).target = some t) : w.Placed i g' := by
  have seats : Marks.seat ∘ w.marks i g' = Marks.seat ∘ v.marks i g := by
    rw [r.marks (fun d n => (Stance.marks_place d n).2.1) rfl, self.1]
    exact Function.update_eq_self i (Marks.seat ∘ v.marks i g)
  have camps : Marks.camp ∘ w.marks i g' = Marks.camp ∘ v.marks i g := by
    rw [r.marks (fun d n => (Stance.marks_place d n).2.2) rfl, self.2]
    exact Function.update_eq_self i (Marks.camp ∘ v.marks i g)
  refine ⟨rosters, offers, ?_, ?_, fun j hj => ?_, fun j hj => ?_, fun j t hj ht => ?_⟩
  · rw [seats]
    exact k.loops.panels loops speaking fun p _ _ _ => isOpen p
  · rw [camps, camp]; exact k.camps
  · by_cases hji : j = i
    · subst hji; exact sound (hj.resolve_left fun h => h rfl)
    · obtain ⟨n, hn⟩ := r j hji
      obtain ⟨absent, present, timer⟩ := k.sound j (.inl hji)
      rw [hn]
      exact ⟨absent, present, timer⟩
  · rw [engine]
    by_cases hji : j = i
    · subst hji; exact k.serving j (live hj)
    · obtain ⟨n, hn⟩ := r j hji
      rw [hn] at hj
      exact k.serving j hj
  · rw [kind]
    by_cases hji : j = i
    · subst hji; exact k.extension j t (live hj) (target t ht)
    · obtain ⟨n, hn⟩ := r j hji
      rw [hn] at hj ht
      exact k.extension j t hj ht

end Replaced

/-- The members' places are written, head first. -/
theorem Event.renumber_view (e : Event) (q : Part) (once : (e.st.view.roster q).Nodup) :
    ∃ f, (e.renumber q).st.view = { e.st.view with call := f } ∧
      (∀ j, j ∉ e.st.view.roster q → f j = e.st.view.call j) ∧
      ∀ n j, (e.st.view.roster q)[n]? = some j → f j = { e.st.view.call j with place := some (n + 1) } := by
  unfold Event.renumber
  rw [Event.renumberFrom_eq]
  refine ⟨fun j => ((e.st.numbered 1 (e.st.prt q).roster).call j).stance, ?_, fun j hj => ?_, fun n j hj => ?_⟩
  · dsimp only
    rw [State.numbered_rest]
    rfl
  · exact congrArg Call.stance (State.call_numbered_out _ _ _ hj)
  · rw [Nat.add_comm n 1]
    exact congrArg Call.stance (State.call_numbered _ _ _ once hj)

section Rosters

variable {s : State} {e : Event} {i : Slot} {g : Grip}

/-- A panel that offers the call no longer. -/
theorem Event.clearOffer_view {p : Pos} (hp : (e.st.view.call i).position = some p)
    (ho : (e.st.view.panel p).offered = some i) :
    (e.clearOffer i).st.view = e.st.view.setPanel p { e.st.view.panel p with offered := none } := by
  have hp' : (e.st.call i).position = some p := hp
  have ho' : (e.st.pos p).offered = some i := ho
  unfold Event.clearOffer
  rw [hp']
  dsimp only
  rw [if_pos ho']
  exact Event.updPos_view _ _ _

/-- What leaving a roster brings into view; `e1` has the offer of the call cleared. -/
theorem Event.leaveRoster_view {e1 : Event} {answered : Bool} {q : Part} (hq : (e.st.view.call i).partition = q)
    (hi : i ∈ e.st.view.roster q)
    (h1 : (if (e.st.view.call i).state = .offered then e.clearOffer i else e) = e1)
    (calls : e1.st.view.call = e.st.view.call) (rosters : e1.st.view.roster = e.st.view.roster)
    (once : (e.st.view.roster q).Nodup) :
    ∃ f, (e.leaveRoster i answered).st.view =
        { e1.st.view with
          call := f, roster := Function.update e.st.view.roster q ((e.st.view.roster q).filter (· != i)) } ∧
      f i = { e.st.view.call i with place := none } ∧
      (∀ j, j ≠ i → j ∉ (e.st.view.roster q).filter (· != i) → f j = e.st.view.call j) ∧
      ∀ n j, j ≠ i → ((e.st.view.roster q).filter (· != i))[n]? = some j →
        f j = { e.st.view.call j with place := some (n + 1) } := by
  subst h1
  have hc : (e.st.prt (e.st.call i).partition).roster.contains i = true := by
    rw [show (e.st.call i).partition = q from hq]
    exact List.contains_iff_mem.mpr hi
  unfold Event.leaveRoster
  extract_lets c p e1 e2 e3 e4 left e5
  rw [if_pos hc]
  have hp : p = q := hq
  have v2 : e2.st.view = e1.st.view.setRoster q ((e.st.view.roster q).filter (· != i)) := by
    rw [← rosters]
    refine (Event.updPrt_view _ _ _).trans ?_
    rw [hp]
    rfl
  have r2 : e2.st.view.roster q = (e.st.view.roster q).filter (· != i) := by
    rw [v2]; exact Function.update_self ..
  have c2 : e2.st.view.call = e.st.view.call := by rw [v2]; exact calls
  obtain ⟨f, v3, out, placed⟩ := Event.renumber_view e2 q (by rw [r2]; exact once.filter _)
  rw [r2, c2] at out placed
  have v4 : e4.st.view = ({ e2.st.view with call := f } : View).setCall i { f i with place := none } := by
    rw [← v3]
    refine (Event.updCall_view _ _ _).trans ?_
    have e3q : e3 = e2.renumber q := by show e2.renumber p = _; rw [hp]
    rw [e3q]
    refine congrArg _ ?_
    rw [show f i = (e2.renumber q).st.view.call i by rw [v3]]
    rfl
  have v5 : e5.st.view = e4.st.view := by
    show (if answered = true then _ else _ : Event).st.view = _
    split
    · exact Event.updPrt_same fun _ => rfl
    · split
      · rfl
      · exact Event.updPrt_same fun _ => rfl
  refine ⟨Function.update f i { f i with place := none }, ?_, ?_, fun j hj hn => ?_, fun n j hj hn => ?_⟩
  · refine (Event.alertTest_view (e5.rosterMoved p) p).trans (v5.trans (v4.trans ?_))
    rw [v2]
    unfold View.setCall View.setRoster
    dsimp only
    rw [show e1.st.view.roster = e.st.view.roster from rosters]
    rfl
  · rw [Function.update_self, out i (by simp)]
  · rw [Function.update_of_ne hj, out j hn]
  · rw [Function.update_of_ne hj, placed n j hn]

/-- Whoever is not held, or held slackly, and says so stands in the roster of its partition. -/
theorem View.Placed.mem_roster {v : View} (k : v.Placed i g) (hg : g ≠ .lifted) (h : rosterState (v.call i).state) :
    i ∈ v.roster (v.call i).partition := by
  refine (k.rosters.members _ i).mpr ⟨(v.call i).place, (v.call i).cls, ?_⟩
  rw [Function.comp_apply, View.marks_of hg]
  exact Stance.member_iff.mpr ⟨h, rfl, rfl, rfl⟩

theorem View.Placed.noRoster {v : View} (k : v.Placed i .lifted) (q : Part) : i ∉ v.roster q := fun h => by
  obtain ⟨n, c, hm⟩ := (k.rosters.members q i).mp h
  rw [Function.comp_apply, View.marks_lifted] at hm
  cases hm

theorem Event.leaveRoster_away {answered : Bool} (k : e.st.view.Placed i .lifted) : e.leaveRoster i answered = e := by
  unfold Event.leaveRoster
  dsimp only
  exact if_neg fun h => k.noRoster _ (List.contains_iff_mem.mp h)

theorem Moving.leaveRoster_lifted {answered : Bool} (m : Moving s e i .lifted) :
    Moving s (e.leaveRoster i answered) i .lifted := by
  rw [Event.leaveRoster_away m.placed]
  exact m

theorem Renumbered.of_views {v w : View} {q : Part} {g g' : Grip} {new : List Slot}
    (out : ∀ j, j ≠ i → j ∉ new → w.call j = v.call j)
    (placed : ∀ n j, j ≠ i → new[n]? = some j → w.call j = { v.call j with place := some (n + 1) })
    (members : ∀ j, j ≠ i → j ∈ new → rosterState (v.call j).state ∧ (v.call j).partition = q) :
    Renumbered (Marks.member ∘ v.marks i g) (Marks.member ∘ w.marks i g') q i new := by
  have other : ∀ (u : View) h j, j ≠ i → (Marks.member ∘ u.marks i h) j = (u.call j).marks.member := fun u h j hj => by
    unfold View.marks
    rw [Function.comp_apply, if_neg fun x => hj x.1]
  refine ⟨fun j hj hn => ?_, fun n j hj hn => ?_⟩
  · rw [other _ _ j hj, other _ _ j hj, out j hj hn]
  · obtain ⟨state, part⟩ := members j hj (List.mem_of_getElem? hn)
    refine ⟨(v.call j).place, (v.call j).cls, ?_, ?_⟩
    · rw [other _ _ j hj]; exact Stance.member_iff.mpr ⟨state, part, rfl, rfl⟩
    · rw [other _ _ j hj, placed n j hj hn]; exact Stance.member_iff.mpr ⟨state, part, rfl, rfl⟩

/-- The members of a roster but the call that is held. -/
theorem View.Placed.members {v : View} (k : v.Placed i g) {j : Slot} (hj : j ≠ i) {q : Part} (h : j ∈ v.roster q) :
    rosterState (v.call j).state ∧ (v.call j).partition = q := by
  obtain ⟨n, c, hm⟩ := (k.rosters.members q j).mp h
  unfold View.marks at hm
  rw [Function.comp_apply, if_neg fun x => hj x.1] at hm
  obtain ⟨state, part, -, -⟩ := Stance.member_iff.mp hm
  exact ⟨state, part⟩

theorem Moving.leaveRoster {answered : Bool} (m : Moving s e i g) (hg : g ≠ .lifted)
    (h : rosterState (e.st.view.call i).state) : Moving s (e.leaveRoster i answered) i .lifted := by
  have k := m.placed
  have hi := k.mem_roster hg h
  have self := View.marks_of (v := e.st.view) (i := i) hg
  -- the panel that offers the call, if one does
  have cleared : ∃ e1, (if (e.st.view.call i).state = .offered then e.clearOffer i else e) = e1 ∧
      e1.st.view = { e.st.view with panel := e1.st.view.panel } ∧
      OfferFits (Function.update (Marks.offer ∘ e.st.view.marks i g) i none) e1.st.view.panel ∧
      (∀ p, (e1.st.view.panel p).loops = (e.st.view.panel p).loops) ∧
      (∀ p, (e1.st.view.panel p).speaking = (e.st.view.panel p).speaking) ∧
      (∀ p, (e1.st.view.panel p).isOpen = (e.st.view.panel p).isOpen) ∧
      ∀ p, (e.st.view.panel p).Sheds (e1.st.view.panel p) := by
    by_cases ho : (e.st.view.call i).state = .offered
    · rw [if_pos ho]
      have offer : (Marks.offer ∘ e.st.view.marks i g) i =
          some ((e.st.view.call i).partition, (e.st.view.call i).position) := by
        rw [Function.comp_apply, self]
        exact Stance.offer_iff.mpr ⟨ho, rfl, rfl⟩
      obtain ⟨p, hp, hpo⟩ := k.offers.at offer
      have view := Event.clearOffer_view hp hpo
      rw [hp] at offer
      refine ⟨_, rfl, ?_, ?_, fun x => ?_, fun x => ?_, fun x => ?_, fun x => ?_⟩
      · rw [view]; rfl
      · rw [view]; exact k.offers.lift offer
      · rw [view, View.panel_setPanel]
        split
        · next hx => subst hx; rfl
        · rfl
      · rw [view, View.panel_setPanel]
        split
        · next hx => subst hx; rfl
        · rfl
      · rw [view, View.panel_setPanel]
        split
        · next hx => subst hx; rfl
        · rfl
      · rw [view]; exact View.sheds_unoffer _ p x
    · rw [if_neg ho]
      refine ⟨e, rfl, rfl, ?_, fun _ => rfl, fun _ => rfl, fun _ => rfl, fun _ => .refl _⟩
      have none : (Marks.offer ∘ e.st.view.marks i g) i = none := by
        rw [Function.comp_apply, self]
        by_contra hn
        obtain ⟨⟨q, o⟩, hqo⟩ := Option.ne_none_iff_exists'.mp hn
        exact ho (Stance.offer_iff.mp hqo).1
      rw [← none, Function.update_eq_self]
      exact k.offers
  obtain ⟨e1, h1, v1, offers, loops, speaking, isOpen, sheds⟩ := cleared
  have calls : e1.st.view.call = e.st.view.call := by rw [v1]
  have rosters : e1.st.view.roster = e.st.view.roster := by rw [v1]
  obtain ⟨f, view, fself, out, placed⟩ := Event.leaveRoster_view (answered := answered) rfl hi h1 calls rosters
    (k.rosters.once _)
  have replaced : e.st.view.Replaced (e.leaveRoster i answered).st.view i := fun j hj => by
    rw [view]
    dsimp only
    by_cases hn : j ∈ (e.st.view.roster (e.st.view.call i).partition).filter (· != i)
    · obtain ⟨n, hn⟩ := List.getElem?_of_mem hn
      exact ⟨_, placed n j hj hn⟩
    · exact ⟨_, out j hj hn⟩
  refine ⟨?_, fun j hj => ?_, fun p => ?_⟩
  · have lifted := View.marks_lifted (e.leaveRoster i answered).st.view i
    refine k.reroster replaced ?_ ?_ ?_ (fun p => ?_) (fun p => ?_) (fun p => ?_) ?_ ?_ ?_ nofun (fun hf => ?_)
      fun t ht => ?_
    · rw [show (e.leaveRoster i answered).st.view.roster = _ by rw [view]]
      refine k.rosters.leave hi (by rw [Function.comp_apply, lifted]; rfl) (Renumbered.of_views ?_ ?_ fun j hj hm => ?_)
      · rw [view]; exact out
      · rw [view]; exact placed
      · exact k.members hj (List.mem_filter.mp hm).1
    · rw [replaced.marks (g := g) (fun d n => (Stance.marks_place d n).1) lifted,
        show (e.leaveRoster i answered).st.view.panel = e1.st.view.panel by rw [view]]
      exact offers
    · rw [lifted, self]
      rcases h with h | h <;> unfold Stance.marks <;> rw [h] <;> exact ⟨rfl, rfl⟩
    · rw [view]; exact loops p
    · rw [view]; exact speaking p
    · rw [view]; exact isOpen p
    · rw [view, v1]
    · rw [view, v1]
    · rw [view, v1]
    · rw [view] at hf
      dsimp only at hf
      rw [fself] at hf
      exact hf
    · rw [view] at ht
      dsimp only at ht
      rw [fself] at ht
      exact ht
  · obtain ⟨n, hn⟩ := replaced j hj
    obtain ⟨n', hn'⟩ := m.others j hj
    exact ⟨n, by rw [hn, hn']⟩
  · rw [show (e.leaveRoster i answered).st.view.panel p = e1.st.view.panel p by rw [view]]
    exact (m.sheds p).trans (sheds p)

end Rosters

section Rosters

variable {s : State} {e : Event} {i : Slot} {g : Grip}

theorem Event.renumberFrom_call (e : Event) (n : Nat) (is : List Slot) (j : Slot) :
    ∃ x, (e.renumberFrom n is).st.view.call j = { e.st.view.call j with place := x } := by
  rw [Event.renumberFrom_eq]
  obtain ⟨x, hx⟩ := State.call_numbered_place e.st n is j
  exact ⟨x, congrArg Call.stance hx⟩

theorem Event.updPrt_call (e : Event) (q : Part) (f : Partition → Partition) (j : Slot) :
    (e.updPrt q f).st.view.call j = e.st.view.call j := rfl

/-- Leaving a roster changes places and nothing else of a call. -/
theorem Event.leaveRoster_call (e : Event) (i : Slot) (answered : Bool) (j : Slot) :
    ∃ n, (e.leaveRoster i answered).st.view.call j = { e.st.view.call j with place := n } := by
  unfold Event.leaveRoster
  extract_lets c p e1 e2 e3 e4 left e5
  split
  · have v1 : e1.st.view.call j = e.st.view.call j := by
      show (if c.state = .offered then e.clearOffer i else e : Event).st.view.call j = _
      split
      · unfold Event.clearOffer
        split
        · split <;> rfl
        · rfl
      · rfl
    obtain ⟨n, v3⟩ : ∃ n, e3.st.view.call j = { e.st.view.call j with place := n } := by
      obtain ⟨n, h⟩ := e2.renumberFrom_call 1 (e2.st.prt p).roster j
      have v2 : e2.st.view.call j = e.st.view.call j := v1
      rw [v2] at h
      exact ⟨n, h⟩
    obtain ⟨n', v4⟩ : ∃ n', e4.st.view.call j = { e.st.view.call j with place := n' } := by
      have h : e4.st.view.call j = if j = i then { e3.st.view.call j with place := none } else e3.st.view.call j := by
        refine (congrFun (congrArg View.call (Event.updCall_view _ _ _)) j).trans ?_
        rw [View.call_setCall]
        split
        · next hj => subst hj; rfl
        · rfl
      rw [h]
      split
      · exact ⟨none, by rw [v3]⟩
      · exact ⟨n, v3⟩
    have v5 : e5.st.view.call j = e4.st.view.call j := by
      show (if answered = true then _ else _ : Event).st.view.call j = _
      split
      · exact e4.updPrt_call _ _ _
      · split
        · rfl
        · exact e4.updPrt_call _ _ _
    exact ⟨n', (congrFun (congrArg View.call (Event.alertTest_view (e5.rosterMoved p) p)) j).trans (v5.trans v4)⟩
  · exact ⟨_, rfl⟩

/-- The place in which a call joins a roster: behind the last RECALL member, or at the tail (R26). -/
def joinedRoster (r : Slot → Bool) (i : Slot) (cls : CallClass) (roster : List Slot) : List Slot :=
  match cls with
  | .new => roster ++ [i]
  | .recall => insertRecall r i roster

theorem Event.setWaitDeadline_view (e : Event) (i : Slot) (w : State → Seconds) :
    (e.upd fun s => s.setCall i { s.call i with waitDeadline := some (w s) }).st.view = e.st.view :=
  (State.view_setCall e.st i _).trans (View.setCall_call e.st.view i)

/-- What joining a roster brings into view. -/
theorem Event.enterRoster_view {cls : CallClass} {q : Part} {new : List Slot} (hq : (e.st.view.call i).partition = q)
    (live : (e.st.view.call i).state ≠ .free)
    (hnew : joinedRoster (fun j => (e.st.call j).cls == .recall) i cls (e.st.view.roster q) = new) (once : new.Nodup)
    {m : Nat} (hi : new[m]? = some i) :
    ∃ f y, (e.enterRoster i cls).st.view =
        { e.st.view with call := f, roster := Function.update e.st.view.roster q new } ∧
      f i = { (e.st.view.call i).enter .queued with cls := cls, place := some (m + 1), timer := y } ∧
      (∀ k x, y = some (k, x) → k = .wait) ∧ (∀ j, j ≠ i → j ∉ new → f j = e.st.view.call j) ∧
      ∀ n j, j ≠ i → new[n]? = some j → f j = { e.st.view.call j with place := some (n + 1) } := by
  unfold Event.enterRoster
  extract_lets p roster e1 members e2 e3 e4 e5 wait e6
  rw [if_neg (show ¬ (e.st.call i).state = .free from live)]
  have hp : p = q := hq
  have v1 : e1.st.view = e.st.view := by
    show (if roster.isEmpty then _ else e : Event).st.view = _
    split
    · exact Event.updPrt_same fun _ => rfl
    · rfl
  have hmembers : members = new := by
    have hr : roster = e.st.view.roster q := by rw [← hp]; rfl
    rw [← hnew, ← hr]
    show (match cls with | .new => _ | .recall => _) = _
    have hc : ∀ j, (e1.st.call j).cls = (e.st.call j).cls := fun j =>
      congrArg Stance.cls (congrFun (congrArg View.call v1) j)
    cases cls
    · rfl
    · show insertRecall (fun j => (e1.st.call j).cls == .recall) i roster = _
      simp only [hc]
      rfl
  have v2 : e2.st.view = e.st.view.setRoster q new := by
    rw [← v1, ← hmembers]
    refine (Event.updPrt_view _ _ _).trans ?_
    rw [hp]
  have live2 : (e2.st.view.call i).state ≠ .free := by rw [v2]; exact live
  have v3 : e3.st.view = e2.st.view.setCall i ((e.st.view.call i).enter .queued) := by
    refine (Event.toState_view live2).trans ?_
    rw [v2]
    rfl
  have v4 : e4.st.view = e2.st.view.setCall i { (e.st.view.call i).enter .queued with cls := cls } := by
    refine (Event.updCall_view _ _ _).trans ?_
    have h3 : e3.st.view.call i = (e.st.view.call i).enter .queued := by rw [v3, View.call_setCall, if_pos rfl]
    rw [v3, View.setCall_setCall, ← h3]
    rfl
  have r4 : e4.st.view.roster q = new := by rw [v4, v2]; exact Function.update_self ..
  obtain ⟨f, v5, out, placed⟩ := Event.renumber_view e4 q (by rw [r4]; exact once)
  have v5' : e5.st.view = { e4.st.view with call := f } := by
    rw [← v5]
    show (e4.renumber p).st.view = _
    rw [hp]
  rw [r4] at out placed
  obtain ⟨y, hy, v6⟩ : ∃ y, (∀ k x, y = some (k, x) → k = TimerKind.wait) ∧
      e6.st.view = e5.st.view.setCall i { f i with timer := y } := by
    have f5 : e5.st.view.call i = f i := by rw [v5']
    show ∃ y, _ ∧ (if cls = .new ∧ wait ≠ 0 then _ else e5 : Event).st.view = _
    split
    · obtain ⟨x, hx⟩ := e5.startTimer_view i .wait wait
      refine ⟨some (.wait, x), fun k z h => ?_, ?_⟩
      · simp only [Option.some.injEq, Prod.mk.injEq] at h
        exact h.1.symm
      · rw [f5] at hx
        exact (Event.setWaitDeadline_view _ i _).trans hx
    · refine ⟨(f i).timer, fun k z h => ?_, ?_⟩
      · rw [placed m i hi, v4, View.call_setCall, if_pos rfl] at h
        cases h
      · rw [show ({ f i with timer := (f i).timer } : Stance) = e5.st.view.call i from f5.symm, View.setCall_call]
  refine ⟨Function.update f i { f i with timer := y }, y, ?_, ?_, hy, fun j hj hn => ?_, fun n j hj hn => ?_⟩
  · refine (Event.alertTest_view ((e6.rosterMoved p).gain p) p).trans (v6.trans ?_)
    rw [v5', v4, v2]
    rfl
  · rw [Function.update_self, placed m i hi, v4, View.call_setCall, if_pos rfl]
  · rw [Function.update_of_ne hj, out j hn, v4, View.call_setCall, if_neg hj, v2]
    rfl
  · rw [Function.update_of_ne hj, placed n j hn, v4, View.call_setCall, if_neg hj, v2]
    rfl

/-- Where a call joins: RECALL members stand before it, none behind it. -/
theorem joinedRoster_spec {roster : List Slot} {r : Slot → Bool} (i : Slot) (cls : CallClass)
    (classes : roster.Pairwise fun a b => r b = true → r a = true) :
    ∃ front back, roster = front ++ back ∧ joinedRoster r i cls roster = front ++ i :: back ∧
      (cls = .recall → ∀ j ∈ front, r j = true) ∧ ∀ j ∈ back, r j = false := by
  cases cls
  · exact ⟨roster, [], (List.append_nil _).symm, rfl, nofun, nofun⟩
  · obtain ⟨front, back, old, new, behind, last⟩ := insertRecall_spec r i roster
    refine ⟨front, back, old, new, fun _ j hj => ?_, behind⟩
    rcases last with rfl | ⟨x, hx, hr⟩
    · cases hj
    · rw [old] at classes
      obtain ⟨ys, rfl⟩ : ∃ ys, front = ys ++ [x] := List.getLast?_eq_some_iff.mp hx
      rcases List.mem_append.mp hj with hj | hj
      · exact (List.pairwise_append.mp (List.pairwise_append.mp classes).1).2.2 j hj x (List.mem_singleton.mpr rfl) hr
      · rw [List.mem_singleton.mp hj]; exact hr

theorem Stance.Sound.of_state {d : Stance} (hs : d.state = .ringingOut ∨ d.state = .closing ∨ d.state = .free)
    (target : d.state = .ringingOut → d.target ≠ none) (timer : d.timer = none) : d.Sound where
  absent := fun h => by rcases hs with hs | hs | hs <;> simp [hs, rosterState] at h
  present := fun h => by
    rcases hs with hs | hs | hs
    · exact target hs
    all_goals simp [hs] at h
  timer := fun k x h => by rw [timer] at h; cases h

theorem Moving.enterRoster {cls : CallClass} (m : Moving s e i .lifted) (live : (e.st.view.call i).state ≠ .free)
    (space : (e.st.view.roster (e.st.view.call i).partition).length < 63) : Moving s (e.enterRoster i cls) i .none := by
  have k := m.placed
  have out := k.noRoster
  have lifted := View.marks_lifted e.st.view i
  generalize hq : (e.st.view.call i).partition = q at space
  have member : ∀ j ∈ e.st.view.roster q, ∀ n, (Marks.member ∘ e.st.view.marks i .lifted) j = some (q, n, .recall) ↔
      (e.st.view.call j).place = n ∧ (e.st.view.call j).cls = .recall := fun j hj n => by
    have hji : j ≠ i := fun e => out q (e ▸ hj)
    obtain ⟨state, part⟩ := k.members hji hj
    unfold View.marks
    rw [Function.comp_apply, if_neg fun x => hji x.1, Stance.member_iff]
    exact ⟨fun h => h.2.2, fun h => ⟨state, part, h⟩⟩
  obtain ⟨front, back, old, joined, before, behind⟩ := joinedRoster_spec (roster := e.st.view.roster q)
    (r := fun j => (e.st.call j).cls == .recall) i cls
    ((k.rosters.classes q).imp_of_mem fun {a b} ha hb hab h => by
      obtain ⟨n, hn⟩ := hab ⟨_, (member b hb _).mpr ⟨rfl, beq_iff_eq.mp h⟩⟩
      exact beq_iff_eq.mpr ((member a ha n).mp hn).2)
  have perm : (front ++ i :: back).Perm (i :: e.st.view.roster q) := by rw [old]; exact List.perm_middle
  obtain ⟨f, y, view, self, timer, others, placed⟩ := Event.enterRoster_view hq live joined
    (perm.nodup_iff.mpr (List.nodup_cons.mpr ⟨out q, k.rosters.once q⟩)) (m := front.length) (by simp)
  have replaced : e.st.view.Replaced (e.enterRoster i cls).st.view i := fun j hj => by
    rw [view]
    dsimp only
    by_cases hn : j ∈ front ++ i :: back
    · obtain ⟨n, hn⟩ := List.getElem?_of_mem hn
      exact ⟨_, placed n j hj hn⟩
    · exact ⟨_, others j hj hn⟩
  have call : (e.enterRoster i cls).st.view.call i = { (e.st.view.call i).enter .queued with
      cls := cls, place := some (front.length + 1), timer := y } := by rw [view]; exact self
  have marks : (e.enterRoster i cls).st.view.marks i .none i =
      { Marks.away with member := some (q, some (front.length + 1), cls) } := by
    rw [View.marks_of (by decide), call, ← hq]
    rfl
  refine ⟨?_, fun j hj => ?_, fun p => ?_⟩
  · refine k.reroster replaced ?_ ?_ ?_ (fun _ => ?_) (fun _ => ?_) (fun _ => ?_) ?_ ?_ ?_ (fun _ => ?_)
      (fun _ => live) fun t ht => ?_
    · rw [show (e.enterRoster i cls).st.view.roster = _ by rw [view]]
      refine k.rosters.enter (by rw [Function.comp_apply, lifted]; rfl) old space
        (by rw [Function.comp_apply, marks]) (Renumbered.of_views ?_ ?_ fun j hj hm => ?_) (fun hc j hj => ?_)
        fun j hj => ?_
      · rw [view]; exact others
      · rw [view]; exact placed
      · exact k.members hj ((List.mem_cons.mp (perm.mem_iff.mp hm)).resolve_left hj)
      · exact ⟨_, (member j (by rw [old]; exact List.mem_append_left _ hj) _).mpr ⟨rfl, beq_iff_eq.mp (before hc j hj)⟩⟩
      · rintro ⟨n, hn⟩
        have hc := ((member j (by rw [old]; exact List.mem_append_right _ hj) n).mp hn).2
        have := behind j hj
        rw [show (e.st.call j).cls = .recall from hc] at this
        cases this
    · rw [replaced.marks (g := .lifted) (fun d n => (Stance.marks_place d n).1) marks, view]
      have noOffer : (Marks.offer ∘ e.st.view.marks i .lifted) i = none := by rw [Function.comp_apply, lifted]; rfl
      rw [show Marks.offer { Marks.away with member := some (q, some (front.length + 1), cls) } = none from rfl, ← noOffer,
        Function.update_eq_self]
      exact k.offers
    · rw [marks, lifted]; exact ⟨rfl, rfl⟩
    · rw [view]
    · rw [view]
    · rw [view]
    · rw [view]
    · rw [view]
    · rw [view]
    · rw [call]
      exact ⟨fun _ => rfl, fun h => by simp [Stance.enter] at h, fun k x h => by rw [timer k x h]; rfl⟩
    · rw [call] at ht
      exact Stance.enter_target (st := .queued) ht
  · obtain ⟨n, hn⟩ := replaced j hj
    obtain ⟨n', hn'⟩ := m.others j hj
    exact ⟨n, by rw [hn, hn']⟩
  · rw [show (e.enterRoster i cls).st.view.panel p = e.st.view.panel p by rw [view]]
    exact m.sheds p

end Rosters

end Sys2Proof.Machine
end

section
/-! SUPPORT. One call on the move: closing, the fallback, joins, overflow, night routing, camping, recall. Each rule takes a
call that it has lifted from every list and puts it down where it belongs. -/

namespace Sys2Proof.Machine

section Moving

variable {s : State} {e f : Event} {i : Slot} {g : Grip}

/-- A change of a record whose effect on the view is known. -/
theorem Event.updCall_stance {u : Call → Call} (h : Stance → Stance) (effect : ∀ c, (u c).stance = h c.stance) :
    (e.updCall i u).st.view = e.st.view.setCall i (h (e.st.view.call i)) := by
  rw [Event.updCall_view, effect]
  rfl

theorem Event.updPos_panel {p : Pos} {u : Position → Position} (h : Panel → Panel)
    (effect : ∀ q, (u q).panel = h q.panel) : (e.updPos p u).st.view = e.st.view.setPanel p (h (e.st.view.panel p)) := by
  rw [Event.updPos_view, effect]
  rfl

/-- A change of state and of the fields that its rule fills. -/
theorem Event.toState_updCall_view {st : CallState} {u : Call → Call} (h : Stance → Stance)
    (effect : ∀ c, (u c).stance = h c.stance) (live : (e.st.view.call i).state ≠ .free) :
    ((e.toState i st).updCall i u).st.view = e.st.view.setCall i (h ((e.st.view.call i).enter st)) := by
  rw [Event.updCall_stance h effect, Event.toState_view live, View.setCall_setCall, View.call_setCall, if_pos rfl]

/-! ### Closing (R15 to R19) -/

theorem Moving.issueAll {how : Issue} {j : Slot} {os : List ShelfOrder} (m : Moving s e i g) :
    Moving s (e.issueAll how j os) i g := m.alike (e.issueAll_view how j os)

/-- A call in a roster leaves it, whatever holds it. -/
theorem Moving.unroster {answered : Bool} (m : Moving s e i g) (h : rosterState (e.st.view.call i).state) :
    Moving s (e.leaveRoster i answered) i .lifted := by
  by_cases hg : g = .lifted
  · subst hg; exact m.leaveRoster_lifted
  · exact m.leaveRoster hg h

theorem Moving.removeCall (m : Moving s e i g) : Moving s (e.removeCall i) i .lifted := by
  unfold Event.removeCall
  dsimp only
  split
  · next h => exact m.unroster (.inl h)
  · next h => exact m.unroster (.inr h)
  · next h => exact m.leaveLoop (.inl h)
  · next h => exact m.leaveLoop (.inr (.inl h))
  · next h => exact m.leaveLoop (.inr (.inr (.inl h)))
  · next h => exact m.leaveLoop (.inr (.inr (.inr h)))
  · next h =>
    split
    · exact (m.leaveCamp h).issueAll
    · exact m.leaveCamp h
  · refine m.take ?_
    unfold Stance.marks
    split
    case h_8 => rfl
    all_goals simp_all [State.view, Call.stance]

theorem Event.removeCall_call (e : Event) (i : Slot) :
    ∃ n, (e.removeCall i).st.view.call i = { e.st.view.call i with place := n } := by
  have loop : ∃ n, (e.leaveLoop i).st.view.call i = { e.st.view.call i with place := n } := ⟨_, e.leaveLoop_call i i⟩
  unfold Event.removeCall
  dsimp only
  split
  · exact e.leaveRoster_call i false i
  · exact e.leaveRoster_call i false i
  · exact loop
  · exact loop
  · exact loop
  · exact loop
  · split
    · rw [Event.issueTeardown_view]
      exact ⟨_, e.leaveCamp_call i i⟩
    · exact ⟨_, e.leaveCamp_call i i⟩
  · exact ⟨_, rfl⟩

/-- A lifted call is put down in a state that stands in no list. -/
theorem Moving.setDown {d : Stance} (m : Moving s e i .lifted) (hf : f.st.view = e.st.view.setCall i d)
    (away : d.marks = .away) (sound : d.Sound) (live : d.state ≠ .free → (e.st.view.call i).state ≠ .free)
    (target : ∀ t, d.target = some t → (e.st.view.call i).target = some t ∨ e.st.view.kind t.circuit = .extension) :
    Moving s f i .none :=
  m.revise hf (by rw [if_neg (by decide), away, View.marks_lifted]) (fun _ => sound) live fun _ => target

theorem Moving.freeSlot (m : Moving s e i .none) : Moving s (e.freeSlot i) i .none := by
  unfold Event.freeSlot
  extract_lets c e1
  split
  · next h =>
    have state : (e.st.view.call i).state = .closing := h.1
    have v1 : e1.st.view = e.st.view := e.letGo_view c
    have away : (e.st.view.call i).marks = .away := by unfold Stance.marks; rw [state]
    refine (m.take away).setDown (d := (e.st.view.call i).enter .free) ?_ rfl ?_ nofun fun t ht => .inl ht
    · rw [← v1]
      refine (State.view_setCall e1.st i (c.enter .free e1.st.seconds)).trans ?_
      rw [show e1.st.view = e.st.view from v1]
      rfl
    · exact .of_state (.inr (.inr rfl)) nofun rfl
  · exact m

theorem Moving.freeIfDone (m : Moving s e i .none) : Moving s (e.freeIfDone i) i .none := by
  unfold Event.freeIfDone
  split
  · exact m
  · exact m.freeSlot

/-- The call is in a state other than FREE and CLOSING. -/
def Stance.Live (d : Stance) : Prop := d.state ≠ .free ∧ d.state ≠ .closing

theorem Moving.close {why : EndReason} {moved : Bool} (m : Moving s e i g) (h : g ≠ .none → (e.st.view.call i).Live) :
    Moving s (e.close i why moved) i .none := by
  unfold Event.close
  extract_lets c asked done orders e1 e2 e3 e4 e5
  split
  · next hc =>
    have hg : g = .none := by
      by_contra hg
      exact hc.elim (h hg).1 (h hg).2
    subst hg
    exact m
  · next hc =>
    have m1 : Moving s e1 i .lifted := m.removeCall
    obtain ⟨n, c1⟩ : ∃ n, e1.st.view.call i = { e.st.view.call i with place := n } := e.removeCall_call i
    have m2 : Moving s e2 i .lifted := m1.answerExtendOf (.inl (by decide))
    obtain ⟨x, c2⟩ : ∃ x, e2.st.view.call i = { e1.st.view.call i with extend := x } := e1.answerExtendOf_call i _
    have live : (e2.st.view.call i).state ≠ .free := by
      rw [c2, c1]
      exact fun hf => hc (.inl hf)
    have v3 : e3.st.view = (e2.toState i .closing).st.view := Event.updCall_same fun _ => rfl
    have v5 : e5.st.view = e3.st.view := by
      have v4 : e4.st.view = e3.st.view := by
        show (if why.tearsDown then e3.issueTeardown i orders else e3 : Event).st.view = _
        split
        · exact Event.issueTeardown_view _ _ _
        · rfl
      rw [← v4]
      show (if _ then e4.issueTeardown i _ else e4 : Event).st.view = _
      split
      · exact Event.issueTeardown_view _ _ _
      · rfl
    have c5 : e5.st.view.call i = (e2.st.view.call i).enter .closing := by rw [v5, v3]; exact Event.toState_call live
    have m5 : Moving s e5 i .lifted := m2.toState.alike (v5.trans v3)
    refine (m5.putDown (.inr ?_) ?_).freeIfDone <;> rw [c5]
    · rfl
    · exact .of_state (.inr (.inl rfl)) nofun rfl

/-! ### The fallback, joins, overflow (R26, R30, R31) -/

theorem Moving.congest {how : Issue} (m : Moving s e i g) (h : g ≠ .none → (e.st.view.call i).Live) :
    Moving s (e.congest i how) i .none := by
  unfold Event.congest
  exact m.issueAll.close fun hg => by rw [Event.issueAll_view]; exact h hg

theorem Moving.fallback {how : Issue} (m : Moving s e i .lifted) (live : (e.st.view.call i).Live) :
    Moving s (e.fallback i how) i .none := by
  unfold Event.fallback
  extract_lets c
  split
  · next a _ =>
    extract_lets e1 e2 e3
    have v1 : e1.st.view = e.st.view := e.issueAll_view _ _ _
    have m2 : Moving s e2 i .lifted := (m.alike v1).toState
    have c2 : e2.st.view.call i = (e.st.view.call i).enter .announced := by
      rw [← v1]
      exact Event.toState_call (by rw [v1]; exact live.1)
    have v3 : e3.st.view = e2.st.view := Event.updCall_same fun _ => rfl
    obtain ⟨x, v4⟩ := e3.startTimer_view i .announce (e3.st.part c.partition).announceTime
    rw [v3, c2] at v4
    refine m2.setDown v4 rfl ⟨fun _ => rfl, nofun, fun k y h => ?_⟩ (fun _ => ?_) nofun
    · simp only [Option.some.injEq, Prod.mk.injEq] at h
      rw [← h.1]
      rfl
    · rw [c2]; exact CallState.noConfusion
  · exact m.congest fun _ => live

theorem Moving.joinRoster {cls : CallClass} {how : Issue} (m : Moving s e i .lifted) (live : (e.st.view.call i).Live) :
    Moving s (e.joinRoster i cls how) i .none := by
  unfold Event.joinRoster
  extract_lets p
  split
  · exact m.congest fun _ => live
  · split
    · exact m.fallback live
    · split
      · exact m.fallback live
      · next hfull =>
        refine (m.enterRoster live.1 ?_).issueAll
        unfold State.rosterFull at hfull
        simp only [Bool.or_eq_true, decide_eq_true_eq, not_or, not_le] at hfull
        exact hfull.2

theorem Moving.overflow (m : Moving s e i .lifted) (live : (e.st.view.call i).Live) :
    Moving s (e.overflow i) i .none := by
  unfold Event.overflow
  extract_lets p e1
  have v1 : e1.st.view = e.st.view := Event.updCall_same fun _ => rfl
  have m1 : Moving s e1 i .lifted := m.alike v1
  have live1 : (e1.st.view.call i).Live := by rw [v1]; exact live
  split
  · next q _ =>
    split
    · have v2 := e1.updCall_view i fun c => { c with partition := q }
      refine (m1.edit v2 (fun _ => live1.1) fun t ht => .inl ht).joinRoster ?_
      rw [v2, View.call_setCall, if_pos rfl]
      exact live1
    · exact m1.fallback live1
  · exact m1.fallback live1

/-! ### Camping, night routing, recall (R44, R84, R103) -/

theorem View.Placed.joinCamp {v : View} {k : Circuit} {n : Word} {d : Stance} (h : v.Placed i .lifted)
    (state : d.state = .camped) (target : d.target = some { number := n, circuit := k }) (sound : d.Sound)
    (live : (v.call i).state ≠ .free) (ext : v.kind k = .extension) (space : (v.camp k).length < 3) :
    ((v.setCall i d).setCamp k (v.camp k ++ [i])).Placed i .none := by
  have dm : d.marks = { Marks.away with camp := some k } := Stance.marks_camp (Stance.camp_iff.mpr ⟨state, n, target⟩)
  have self := View.marks_lifted v i
  have marks : ((v.setCall i d).setCamp k (v.camp k ++ [i])).marks i .none =
      Function.update (v.marks i .lifted) i { Marks.away with camp := some k } := by
    refine View.marks_update (fun j hj => ?_) ?_
    · exact (View.call_setCall ..).trans (if_neg hj)
    · rw [View.marks_of (by decide), ← dm]
      exact congrArg Stance.marks ((View.call_setCall ..).trans (if_pos rfl))
  have call : ∀ j, ((v.setCall i d).setCamp k (v.camp k ++ [i])).call j = if j = i then d else v.call j :=
    fun j => View.call_setCall ..
  obtain ⟨rosters, offers, loops, camps, was, serving, extension⟩ := h
  refine ⟨?_, ?_, ?_, ?_, fun j _ => ?_, fun j hj => ?_, fun j t hj ht => ?_⟩
  · rw [marks, marks_comp _ (by rw [self])]; exact rosters
  · rw [marks, marks_comp _ (by rw [self])]; exact offers
  · rw [marks, marks_comp _ (by rw [self])]; exact loops
  · rw [marks, Function.comp_update]
    exact camps.join (by rw [Function.comp_apply, self]; rfl) space
  · rw [call]
    split
    · exact sound
    · next hji => exact was j (.inl hji)
  · rw [call] at hj
    split at hj
    · exact serving i live
    · exact serving j hj
  · rw [call] at hj ht
    split at hj
    · next hji =>
      rw [if_pos hji, target, Option.some.injEq] at ht
      rw [← ht]; exact ext
    · next hji =>
      rw [if_neg hji] at ht
      exact extension j t hj ht

theorem Moving.camp {t : Target} (m : Moving s e i .lifted) (live : (e.st.view.call i).state ≠ .free)
    (space : (e.st.view.camp t.circuit).length < 3) (ext : e.st.view.kind t.circuit = .extension) :
    Moving s (e.camp i t) i .none := by
  obtain ⟨x, view⟩ : ∃ x, (e.camp i t).st.view =
      (e.st.view.setCall i { (e.st.view.call i).enter .camped with target := some t, timer := some (.camp, x) }).setCamp
        t.circuit (e.st.view.camp t.circuit ++ [i]) := by
    unfold Event.camp
    rw [if_neg (show ¬ (e.st.call i).state = .free from live)]
    extract_lets e1 e2 e3
    have v2 : e2.st.view = e.st.view.setCall i { (e.st.view.call i).enter .camped with target := some t } :=
      Event.toState_updCall_view (fun d => { d with target := some t }) (fun _ => rfl) live
    have v3 : e3.st.view = e2.st.view.setCamp t.circuit (e.st.view.camp t.circuit ++ [i]) := by
      refine (Event.updLamp_view _ _ _).trans ?_
      have k2 : e2.st.view.camp = e.st.view.camp := by rw [v2]; rfl
      rw [← k2]
      rfl
    have c3 : e3.st.view.call i = { (e.st.view.call i).enter .camped with target := some t } := by
      rw [v3, v2]
      exact (View.call_setCall ..).trans (if_pos rfl)
    obtain ⟨x, v4⟩ := e3.startTimer_view i .camp (e3.st.part (e3.st.call i).partition).campRecall
    refine ⟨x, v4.trans ?_⟩
    rw [c3, v3, v2]
    exact congrArg (View.setCamp · t.circuit (e.st.view.camp t.circuit ++ [i])) (View.setCall_setCall e.st.view i _ _)
  refine ⟨?_, fun j hj => ?_, fun p => ?_⟩
  · rw [view]
    refine m.placed.joinCamp rfl rfl ⟨fun h => ?_, fun _ => nofun, fun k y h => ?_⟩ live ext space
    · simp [Stance.enter, rosterState] at h
    · simp only [Option.some.injEq, Prod.mk.injEq] at h
      rw [← h.1]
      rfl
  · rw [view]
    obtain ⟨n, hn⟩ := m.others j hj
    exact ⟨n, ((View.call_setCall ..).trans (if_neg hj)).trans hn⟩
  · rw [view]; exact m.sheds p

theorem State.camp_space {s : State} {k : Circuit} (h : s.campRoom k = true) : (s.view.camp k).length < 3 := by
  unfold State.campRoom at h
  exact of_decide_eq_true (Bool.and_eq_true_iff.mp h).2

/-- The directory map names extensions (R109). -/
theorem State.lookup_kind {s : State} {n : Word} {k : Circuit} (h : s.lookup n = some k) : s.view.kind k = .extension := by
  show (s.dir k).kind = _
  unfold State.lookup at h
  unfold State.dir
  split at h
  · unfold Plan.lookup at h
    have := List.find?_some h
    simp only [Bool.and_eq_true, beq_iff_eq] at this
    exact this.1
  · cases h

theorem Moving.nightRoute (m : Moving s e i .lifted) (live : (e.st.view.call i).Live) :
    Moving s (e.nightRoute i) i .none := by
  unfold Event.nightRoute
  extract_lets e1 c number
  have v1 : e1.st.view = e.st.view := Event.updCall_same fun _ => rfl
  have m1 : Moving s e1 i .lifted := m.alike v1
  have live1 : (e1.st.view.call i).Live := by rw [v1]; exact live
  split
  · exact m1.fallback live1
  · next k hk =>
    have ext := State.lookup_kind hk
    split
    · extract_lets e2
      have v2 : e2.st.view = e1.st.view := e1.issueList_view _ _
      have v3 := Event.toState_updCall_view (e := e2) (i := i) (st := .ringingOut)
        (u := fun c => { c with target := some { number := number, circuit := k } })
        (fun d => { d with target := some { number := number, circuit := k } }) (fun _ => rfl) (by rw [v2]; exact live1.1)
      rw [v2] at v3
      refine m1.setDown v3 rfl (.of_state (.inl rfl) (fun _ => nofun) rfl) (fun _ => live1.1) fun t ht => ?_
      cases ht
      exact .inr ext
    · split
      · next room => exact (m1.camp live1.1 (State.camp_space room) ext).alike (Event.issue_view _ _ _)
      · exact m1.fallback live1
    · exact m1.fallback live1

theorem Moving.recall {how : Issue} (m : Moving s e i .lifted) (live : (e.st.view.call i).Live) :
    Moving s (e.recall i how) i .none := by
  unfold Event.recall
  split
  · exact m.joinRoster live
  · exact m.fallback live

end Moving

end Sys2Proof.Machine
end

section
/-! SUPPORT. One call on the move: offers that end, calls that go onto a loop, turn on it and leave it. -/

namespace Sys2Proof.Machine

/-- The rosters, panels and camp lists of an event under way are in order, and no rule holds a call. -/
def Event.InPlace (e : Event) : Prop := ∀ i, e.st.view.Placed i .none

section Moving

variable {s : State} {e f : Event} {i : Slot} {g : Grip}

theorem Moving.inPlace (m : Moving s e i .none) : e.InPlace := fun _ => m.placed.anyone

theorem Event.InPlace.moving (k : e.InPlace) (i : Slot) : Moving e.st e i .none := .start (k i)

theorem Event.InPlace.alike (k : e.InPlace) (h : f.st.view = e.st.view) : f.InPlace := fun i => h ▸ k i

/-! ### One record and one panel -/

/-- The invariant after a change of the record of call `i` that keeps its roster and camp list, and of one panel. -/
theorem View.Placed.reseat {v : View} {g' : Grip} {p : Pos} {a : Panel} {d : Stance} (k : v.Placed i g)
    (member : (if g' = .lifted then Marks.away else d.marks).member = (v.marks i g i).member)
    (camp : (if g' = .lifted then Marks.away else d.marks).camp = (v.marks i g i).camp)
    (offers : OfferFits (Function.update (Marks.offer ∘ v.marks i g) i
      (if g' = .lifted then Marks.away else d.marks).offer) (Function.update v.panel p a))
    (loops : LoopFits (Function.update (Marks.seat ∘ v.marks i g) i
      (if g' = .lifted then Marks.away else d.marks).seat) (Function.update v.panel p a))
    (sound : g' = .none → d.Sound) (live : d.state ≠ .free → (v.call i).state ≠ .free)
    (target : ∀ t, d.target = some t → (v.call i).target = some t) :
    ((v.setCall i d).setPanel p a).Placed i g' := by
  have call : ∀ j, ((v.setCall i d).setPanel p a).call j = if j = i then d else v.call j := fun j => View.call_setCall ..
  have marks : ((v.setCall i d).setPanel p a).marks i g' =
      Function.update (v.marks i g) i (if g' = .lifted then Marks.away else d.marks) := by
    refine View.marks_update (fun j hj => (call j).trans (if_neg hj)) ?_
    rw [View.marks_self, call, if_pos rfl]
  obtain ⟨rosters, _, _, camps, was, serving, extension⟩ := k
  refine ⟨?_, ?_, ?_, ?_, fun j hj => ?_, fun j hj => ?_, fun j t hj ht => ?_⟩
  · rw [marks, marks_comp _ member]; exact rosters
  · rw [marks, Function.comp_update]; exact offers
  · rw [marks, Function.comp_update]; exact loops
  · rw [marks, marks_comp _ camp]; exact camps
  · rw [call]
    split
    · next hji => exact sound (hj.resolve_left fun h => h hji)
    · next hji => exact was j (.inl hji)
  · rw [call] at hj
    split at hj
    · exact serving i (live hj)
    · exact serving j hj
  · rw [call] at hj ht
    split at hj
    · next hji =>
      rw [if_pos hji] at ht
      exact extension i t (live hj) (target t ht)
    · next hji =>
      rw [if_neg hji] at ht
      exact extension j t hj ht

/-! ### Offers that end (R40, R42) -/

theorem Event.backToQueue_view (live : (e.st.view.call i).state ≠ .free) :
    ∃ y, (∀ k x, y = some (k, x) → k = TimerKind.wait) ∧
      (e.backToQueue i).st.view = e.st.view.setCall i { (e.st.view.call i).enter .queued with timer := y } := by
  unfold Event.backToQueue
  extract_lets c e1 e2
  have v1 : e1.st.view = e.st.view.setCall i ((e.st.view.call i).enter .queued) := Event.toState_view live
  have kept : e2.st.view = e1.st.view → ∃ y, (∀ k x, y = some (k, x) → k = TimerKind.wait) ∧
      e2.st.view = e.st.view.setCall i { (e.st.view.call i).enter .queued with timer := y } := fun h =>
    ⟨none, nofun, h.trans v1⟩
  show ∃ y, _ ∧ e2.st.view = _
  cases hd : c.waitDeadline with
  | none => exact kept (by simp only [e2, hd])
  | some d =>
    by_cases hh : c.expiryHeld = true
    · exact kept (by simp only [e2, hd, if_pos hh])
    · refine ⟨some (.wait, d), fun k x h => ?_, ?_⟩
      · simp only [Option.some.injEq, Prod.mk.injEq] at h
        exact h.1.symm
      · have h2 : e2 = e1.updCall i fun c => { c with timer := some (.wait, d) } := by simp only [e2, hd, if_neg hh]
        rw [h2]
        exact Event.toState_updCall_view (fun x => { x with timer := some (.wait, d) }) (fun _ => rfl) live

/-- The call that a panel offers. -/
theorem Event.InPlace.offered {p : Pos} (k : e.InPlace) (ho : (e.st.view.panel p).offered = some i) :
    (e.st.view.call i).state = .offered ∧ (e.st.view.call i).position = some p ∧
      (e.st.view.panel p).partition = some (e.st.view.call i).partition := by
  obtain ⟨⟨q, hq, part⟩, -⟩ := (k i).offers.offers p i ho
  rw [Function.comp_apply, View.marks_of (by decide), Stance.offer_iff] at hq
  obtain ⟨state, rfl, position⟩ := hq
  exact ⟨state, position, part⟩

/-- The panel that offers an OFFERED call. -/
theorem Event.InPlace.offering (k : e.InPlace) (h : (e.st.view.call i).state = .offered) :
    ∃ p, (e.st.view.call i).position = some p ∧ (e.st.view.panel p).offered = some i :=
  (k i).offers.at (by
    rw [Function.comp_apply, View.marks_of (by decide)]
    exact Stance.offer_iff.mpr ⟨h, rfl, rfl⟩)

/-- A call whose panel has stopped offering it is QUEUED again. -/
theorem Event.InPlace.backToQueue {p : Pos} (k : e.InPlace) (ho : (e.st.view.panel p).offered = some i)
    (hf : f.st.view = e.st.view.setPanel p { e.st.view.panel p with offered := none }) :
    Moving f.st (f.backToQueue i) i .none ∧ ((f.backToQueue i).st.view.call i).state = .queued := by
  obtain ⟨state, position, -⟩ := k.offered ho
  have fc : f.st.view.call = e.st.view.call := by rw [hf]; rfl
  obtain ⟨y, hy, view⟩ := Event.backToQueue_view (e := f) (i := i) (by rw [fc, state]; exact CallState.noConfusion)
  rw [fc] at view
  have self : e.st.view.marks i .none i = { Marks.away with
      member := some ((e.st.view.call i).partition, (e.st.view.call i).place, (e.st.view.call i).cls),
      offer := some ((e.st.view.call i).partition, some p) } := by
    rw [View.marks_of (by decide)]
    unfold Stance.marks
    rw [state, position]
  have placed : (f.backToQueue i).st.view.Placed i .none := by
    rw [view, hf]
    refine (k i).reseat (d := { (e.st.view.call i).enter .queued with timer := y }) (by rw [self]; rfl) (by rw [self]; rfl)
      ?_ ?_ (fun _ => ⟨fun _ => rfl, nofun, fun k x h => by rw [hy k x h]; rfl⟩) (fun _ => ?_) nofun
    · exact (k i).offers.lift (by rw [Function.comp_apply, self])
    · exact (k i).loops.touch (by rw [Function.comp_apply, self]; rfl) rfl rfl rfl
    · rw [state]; exact CallState.noConfusion
  refine ⟨⟨placed, fun j hj => ?_, fun x => ?_⟩, ?_⟩ <;> rw [view]
  · exact ⟨_, (View.call_setCall ..).trans (if_neg hj)⟩
  · exact .refl _
  · rw [View.call_setCall, if_pos rfl]; rfl

/-- A QUEUED or OFFERED call has waited long enough (R33). -/
theorem Moving.waitOver (m : Moving s e i g) (h : rosterState (e.st.view.call i).state) :
    Moving s (e.waitOver i) i .none := by
  unfold Event.waitOver
  obtain ⟨n, hn⟩ := e.leaveRoster_call i false i
  refine (m.unroster h).overflow ?_
  rw [hn]
  rcases h with h | h <;> exact ⟨by rw [h]; exact CallState.noConfusion, by rw [h]; exact CallState.noConfusion⟩

theorem Event.InPlace.returnCall {p : Pos} (k : e.InPlace) (ho : (e.st.view.panel p).offered = some i)
    (hf : f.st.view = e.st.view.setPanel p { e.st.view.panel p with offered := none }) :
    Moving f.st (f.returnCall i) i .none := by
  obtain ⟨m, state⟩ := k.backToQueue ho hf
  unfold Event.returnCall
  extract_lets held e1
  split
  · exact m.waitOver (.inl state)
  · exact m

/-- Every call but `i` keeps its place, roster places aside, and no panel gains anything. -/
structure Withdrawn (e f : Event) (p : Pos) : Prop where
  inPlace : f.InPlace
  others : ∀ j, (e.st.view.panel p).offered ≠ some j → ∃ n, f.st.view.call j = { e.st.view.call j with place := n }
  panel : (f.st.view.panel p).offered = none
  sheds : ∀ x, (e.st.view.panel x).Sheds (f.st.view.panel x)

theorem Event.InPlace.withdraw (k : e.InPlace) (p : Pos) : Withdrawn e (e.withdraw p) p := by
  unfold Event.withdraw
  split
  · next i ho =>
    have view : (e.updPos p fun q => { q with offered := none }).st.view =
        e.st.view.setPanel p { e.st.view.panel p with offered := none } := e.updPos_view p _
    have m := k.returnCall ho view
    refine ⟨m.inPlace, fun j hj => ?_, ?_, fun x => ?_⟩
    · obtain ⟨n, hn⟩ := m.others j fun hji => hj (by rw [hji]; exact ho)
      exact ⟨n, hn⟩
    · have h := (m.sheds p).offered
      rw [view, View.panel_setPanel, if_pos rfl, or_self] at h
      exact h
    · exact (View.sheds_unoffer _ p x).trans (view ▸ m.sheds x)
  · next ho => exact ⟨k, fun _ _ => ⟨_, rfl⟩, ho, fun _ => .refl _⟩

theorem Event.InPlace.offerExpired (k : e.InPlace) (h : (e.st.view.call i).state = .offered) : (e.offerExpired i).InPlace := by
  obtain ⟨p, hp, ho⟩ := k.offering h
  unfold Event.offerExpired
  rw [show (e.st.call i).position = some p from hp]
  exact (k.returnCall ho (e.updPos_view p _)).inPlace

/-- The offer of a call that is rerouted to night is withdrawn. -/
theorem Event.InPlace.withdrawForNight (k : e.InPlace) (h : (e.st.view.call i).state = .offered) :
    Moving e.st (e.withdrawForNight i) i .none ∧ ((e.withdrawForNight i).st.view.call i).state = .queued := by
  obtain ⟨p, hp, ho⟩ := k.offering h
  unfold Event.withdrawForNight
  rw [show (e.st.call i).position = some p from hp]
  dsimp only
  generalize hf : Event.updPos { e with keepIdle := e.keepIdle ++ [p] } p (fun q => { q with offered := none }) = f
  have view : f.st.view = e.st.view.setPanel p { e.st.view.panel p with offered := none } := by
    rw [← hf]
    exact Event.updPos_view _ p _
  obtain ⟨m, state⟩ := k.backToQueue ho view
  refine ⟨⟨m.placed, fun j hj => ?_, fun x => ?_⟩, state⟩
  · have h := m.others j hj
    rw [view] at h
    exact h
  · exact (View.sheds_unoffer _ p x).trans (view ▸ m.sheds x)

/-- A member of a roster is rerouted to night (R46). -/
theorem Event.InPlace.rerouteMember (k : e.InPlace) (h : rosterState (e.st.view.call i).state) :
    Moving e.st (e.rerouteMember i) i .none := by
  unfold Event.rerouteMember
  extract_lets e1
  obtain ⟨m1, state⟩ : Moving e.st e1 i .none ∧ (e1.st.view.call i).state = .queued := by
    by_cases ho : (e.st.call i).state = .offered
    · rw [show e1 = e.withdrawForNight i from if_pos ho]
      exact k.withdrawForNight ho
    · rw [show e1 = e from if_neg ho]
      exact ⟨k.moving i, h.resolve_right ho⟩
  obtain ⟨n, hn⟩ := e1.leaveRoster_call i false i
  refine (m1.unroster (.inl state)).nightRoute ?_
  rw [hn]
  exact ⟨by rw [state]; exact CallState.noConfusion, by rw [state]; exact CallState.noConfusion⟩

end Moving

end Sys2Proof.Machine
end

section
/-! SUPPORT. One call on the move: loops, EXTENDs, the outcomes of rings, the timers of a call. -/

namespace Sys2Proof.Machine

section Moving

variable {s : State} {e f : Event} {i : Slot} {g : Grip} {p : Pos} {l : LoopIx}

/-! ### Onto a loop (R70 to R74) -/

/-- The marks of a call on a loop. -/
def Marks.seated (p : Pos) (l : LoopIx) (spoken : Bool) : Marks :=
  { Marks.away with seat := some (some p, some l, spoken) }

theorem View.Placed.sitDown {v : View} {d : Stance} (k : v.Placed i .lifted) (dm : d.marks = .seated p l true)
    (sound : d.Sound) (live : (v.call i).state ≠ .free) (target : d.target = none) (isOpen : (v.panel p).isOpen = true)
    (idle : (v.panel p).offered = none) (silent : (v.panel p).speaking = none) (free : (v.panel p).loops.get l = none) :
    ((v.setCall i d).setPanel p
      { v.panel p with loops := (v.panel p).loops.set l (some i), speaking := some l }).Placed i .none := by
  have self := View.marks_lifted v i
  refine k.reseat (by rw [if_neg (by decide), dm, self]; rfl) (by rw [if_neg (by decide), dm, self]; rfl) ?_ ?_
    (fun _ => sound) (fun _ => live) fun t ht => by rw [target] at ht; cases ht
  · rw [if_neg (by decide), dm]
    exact k.offers.touch (by rw [Function.comp_apply, self]; rfl) rfl fun h => absurd idle h
  · rw [if_neg (by decide), dm]
    exact k.loops.place (by rw [Function.comp_apply, self]; rfl) free silent isOpen

theorem View.Placed.turn {v : View} {b b' : Bool} {d : Stance} (k : v.Placed i .none)
    (was : (v.call i).marks = .seated p l b) (speaking : (v.panel p).speaking = if b then some l else none)
    (dm : d.marks = .seated p l b') (sound : d.Sound) (idle : b' = true → (v.panel p).offered = none)
    (live : (v.call i).state ≠ .free) (target : d.target = none) :
    ((v.setCall i d).setPanel p { v.panel p with speaking := if b' then some l else none }).Placed i .none := by
  have self : v.marks i .none i = .seated p l b := (View.marks_of (by decide)).trans was
  refine k.reseat (by rw [if_neg (by decide), dm, self]; rfl) (by rw [if_neg (by decide), dm, self]; rfl) ?_ ?_
    (fun _ => sound) (fun _ => live) fun t ht => by rw [target] at ht; cases ht
  · rw [if_neg (by decide), dm]
    refine k.offers.touch (by rw [Function.comp_apply, self]; rfl) rfl fun h => ⟨rfl, rfl, fun _ => if_neg fun hb => ?_⟩
    exact h (idle hb)
  · rw [if_neg (by decide), dm]
    exact k.loops.turn (by rw [Function.comp_apply, self]; rfl) speaking

/-- A call answered or picked goes onto a loop (R71, R72). -/
theorem Moving.speak (m : Moving s e i .lifted) (live : (e.st.view.call i).state ≠ .free)
    (isOpen : (e.st.view.panel p).isOpen = true) (idle : (e.st.view.panel p).offered = none)
    (silent : (e.st.view.panel p).speaking = none) (free : (e.st.view.panel p).loops.get l = none) :
    (e.speak i p l).InPlace := by
  have view : (e.placeOnLoop i p l).st.view =
      (e.st.view.setCall i { (e.st.view.call i).enter .talking with position := some p, loop := some l }).setPanel p
        { e.st.view.panel p with loops := (e.st.view.panel p).loops.set l (some i), speaking := some l } := by
    unfold Event.placeOnLoop
    extract_lets e1 e2
    have v2 : e2.st.view = e.st.view.setCall i _ :=
      Event.toState_updCall_view (fun d => { d with position := some p, loop := some l }) (fun _ => rfl) live
    rw [Event.updPos_panel (fun a => { a with loops := a.loops.set l (some i), speaking := some l }) fun _ => rfl, v2]
    rfl
  have placed := m.placed.sitDown (d := { (e.st.view.call i).enter .talking with position := some p, loop := some l }) rfl
    ⟨fun _ => rfl, nofun, nofun⟩ live rfl isOpen idle silent free
  rw [← view] at placed
  unfold Event.speak
  exact Event.InPlace.alike (fun _ => placed.anyone) (Event.issueList_view _ _ _)

/-- The call on the speaking loop is TALKING or consults (R70). -/
theorem Event.InPlace.spokenTo (k : e.InPlace) (h : (e.st.pos p).speakingCall = some i) :
    ∃ l, (e.st.view.panel p).speaking = some l ∧ (e.st.view.call i).marks = .seated p l true := by
  obtain ⟨l, hs, hl⟩ := Option.bind_eq_some_iff.mp h
  obtain ⟨j, hj, seat⟩ := ((k i).loops.speaking p l).mp hs
  rw [show (e.st.view.panel p).loops.get l = some i from hl, Option.some.injEq] at hj
  subst hj
  rw [Function.comp_apply, View.marks_of (by decide)] at seat
  exact ⟨l, hs, Stance.marks_seat seat⟩

/-! ### Timers (R4) -/

theorem Moving.startTimer {k : TimerKind} {n : Nat} (m : Moving s e i .none) (h : (e.st.view.call i).state = timerState k) :
    Moving s (e.startTimer i k n) i .none := by
  obtain ⟨x, view⟩ := e.startTimer_view i k n
  obtain ⟨absent, present, -⟩ := m.placed.sound i (.inr rfl)
  refine m.revise view (by rw [View.marks_self]; rfl) (fun _ => ⟨absent, present, fun k' y hy => ?_⟩) (fun hs => hs)
    fun _ t ht => .inl ht
  simp only [Option.some.injEq, Prod.mk.injEq] at hy
  rw [← hy.1]
  exact h

theorem Moving.clearTimer (m : Moving s e i .none) : Moving s (e.updCall i fun c => { c with timer := none }) i .none := by
  obtain ⟨absent, present, -⟩ := m.placed.sound i (.inr rfl)
  exact m.revise (Event.updCall_stance (fun d => { d with timer := none }) fun _ => rfl) (by rw [View.marks_self]; rfl)
    (fun _ => ⟨absent, present, nofun⟩) (fun hs => hs) fun _ t ht => .inl ht

/-! ### Back to the attendant (R89, R91, R93, R95, R96, R98) -/

theorem Moving.backToTalk (m : Moving s e i g) (hg : g ≠ .lifted)
    (h : (e.st.view.call i).state = .consultRinging ∨ (e.st.view.call i).state = .consultTalking) :
    Moving s (e.backToTalk i) i .none := by
  have live : (e.st.view.call i).state ≠ .free := by
    rcases h with h | h <;> rw [h] <;> exact CallState.noConfusion
  refine m.revise (Event.toState_view live) ?_ (fun _ => ⟨fun _ => rfl, nofun, nofun⟩) (fun _ => live) nofun
  rw [View.marks_of hg, if_neg (by decide)]
  unfold Stance.marks
  rcases h with h | h <;> rw [h] <;> rfl

/-- A consultation ends with an answer to its EXTEND. -/
theorem Moving.endConsult {code : ResultCode} (m : Moving s e i .none)
    (h : (e.st.view.call i).state = .consultRinging ∨ (e.st.view.call i).state = .consultTalking) :
    Moving s ((e.answerExtendOf i code).backToTalk i) i .none := by
  obtain ⟨x, c1⟩ := e.answerExtendOf_call i code
  exact (m.slack.answerExtendOf (.inl (by decide))).backToTalk (by decide) (by rw [c1]; exact h)

/-- A DIRECT EXTEND ends with an answer. -/
theorem Moving.endDirect {code : ResultCode} (m : Moving s e i .none) (h : (e.st.view.call i).state = .talking) :
    Moving s ((e.answerExtendOf i code).dropTarget i) i .none := by
  obtain ⟨x, c1⟩ := e.answerExtendOf_call i code
  have m1 : Moving s (e.answerExtendOf i code) i .slack := m.slack.answerExtendOf (.inl (by decide))
  have view : ((e.answerExtendOf i code).dropTarget i).st.view =
      (e.answerExtendOf i code).st.view.setCall i { (e.answerExtendOf i code).st.view.call i with target := none } := by
    unfold Event.dropTarget
    rw [Event.updCall_stance (fun d => { d with target := none }) fun _ => rfl, Event.letGo_view]
  rw [c1] at view
  obtain ⟨-, -, timer⟩ := m.placed.sound i (.inr rfl)
  refine m1.revise view ?_ (fun _ => ⟨fun _ => rfl, fun hs => ?_, timer⟩) (fun _ => ?_) nofun
  · rw [View.marks_of (by decide), c1, if_neg (by decide)]
    unfold Stance.marks
    dsimp only
    rw [h]
  · simp [h] at hs
  · rw [c1]
    exact fun hf => CallState.noConfusion (h.symm.trans hf)

/-- A call that has left its loop or its camp list rings out (R89, R92, R100). -/
theorem Moving.toRinging (m : Moving s e i .lifted) (live : (e.st.view.call i).state ≠ .free)
    (target : (e.st.view.call i).target ≠ none) : Moving s (e.toState i .ringingOut) i .none :=
  m.setDown (Event.toState_view live) rfl (.of_state (.inl rfl) (fun _ => target) rfl) (fun _ => live)
    fun _ ht => .inl (Stance.enter_target ht)

theorem Moving.ringOut (m : Moving s e i .lifted) (live : (e.st.view.call i).state ≠ .free)
    (target : (e.st.view.call i).target ≠ none) : Moving s (e.ringOut i) i .none :=
  (m.toRinging live target).alike (Event.updCall_same fun _ => rfl)

/-- A call from which nothing is lifted any more is where no list speaks of it. -/
theorem Moving.takeAway (m : Moving s e i g)
    (h : (e.st.view.call i).state = .ringingOut ∨ (e.st.view.call i).state = .announced) : Moving s e i .lifted :=
  m.take (by unfold Stance.marks; rcases h with h | h <;> rw [h])

theorem Event.leaveLoop_lists (e : Event) (i : Slot) :
    (e.leaveLoop i).st.view.camp = e.st.view.camp ∧ (e.leaveLoop i).st.view.kind = e.st.view.kind := by
  unfold Event.leaveLoop
  dsimp only
  split
  · rw [Event.updPos_view]; exact ⟨rfl, rfl⟩
  · exact ⟨rfl, rfl⟩

theorem Stance.Live.of_state {d : Stance} {st : CallState} (h : d.state = st) (hf : st ≠ .free) (hc : st ≠ .closing) :
    d.Live := ⟨h ▸ hf, h ▸ hc⟩

/-- The call awaits a ring for its target (R85). -/
theorem Call.target_of_awaits {c : Call} {k : Circuit} (h : c.awaits k = true) : ∃ t, c.target = some t ∧ t.circuit = k := by
  unfold Call.awaits Call.targets at h
  cases ht : c.target with
  | none => simp [ht] at h
  | some t =>
    simp only [ht, Bool.and_eq_true, beq_iff_eq] at h
    exact ⟨t, rfl, h.1⟩

/-- The target of a call that is not lifted is an extension. -/
theorem Moving.targetKind {t : Target} (m : Moving s e i g) (live : (e.st.view.call i).state ≠ .free)
    (h : (e.st.view.call i).target = some t) : e.st.view.kind t.circuit = .extension := m.placed.extension i t live h

/-! ### Outcomes of rings (R89, R91, R45, R100) -/

theorem Moving.screenedRing {o : RingOutcome} (m : Moving s e i .none) (h : (e.st.view.call i).state = .consultRinging) :
    Moving s (e.screenedRing i o) i .none := by
  unfold Event.screenedRing
  extract_lets c
  cases o with
  | ack =>
    have v1 : (e.updCall i fun c => { c with confirmed := true }).st.view = e.st.view := Event.updCall_same fun _ => rfl
    exact (m.alike v1).answerExtendOf (.inr (by rw [v1, h]; exact CallState.noConfusion))
  | busy => exact m.issueAll.endConsult (.inl (by rw [Event.issueAll_view]; exact h))
  | fault => exact m.issueAll.endConsult (.inl (by rw [Event.issueAll_view]; exact h))

/-- A call with a DIRECT EXTEND leaves its loop. -/
theorem Moving.leaveTalk {code : ResultCode} (m : Moving s e i .none) (h : (e.st.view.call i).state = .talking) :
    Moving s ((e.answerExtendOf i code).leaveLoop i) i .lifted ∧
      ((e.answerExtendOf i code).leaveLoop i).st.view.camp = e.st.view.camp ∧
      ((e.answerExtendOf i code).leaveLoop i).st.view.kind = e.st.view.kind ∧
      ∃ x, ((e.answerExtendOf i code).leaveLoop i).st.view.call i = { e.st.view.call i with extend := x } := by
  obtain ⟨x, v1⟩ := e.answerExtendOf_view i code
  obtain ⟨camp, kind⟩ := (e.answerExtendOf i code).leaveLoop_lists i
  have c1 : (e.answerExtendOf i code).st.view.call i = { e.st.view.call i with extend := x } := by
    rw [v1, View.call_setCall, if_pos rfl]
  refine ⟨(m.slack.answerExtendOf (.inl (by decide))).leaveLoop (.inl (by rw [c1]; exact h)), ?_, ?_, x, ?_⟩
  · rw [camp, v1]; rfl
  · rw [kind, v1]; rfl
  · rw [Event.leaveLoop_call]; exact c1

theorem Moving.directRing {k : Circuit} {o : RingOutcome} (m : Moving s e i .none)
    (h : (e.st.view.call i).state = .talking) (awaits : (e.st.call i).awaits k = true) :
    Moving s (e.directRing i k o) i .none := by
  obtain ⟨t, ht, hk⟩ := Call.target_of_awaits awaits
  have target : (e.st.view.call i).target = some t := ht
  have live : (e.st.view.call i).state ≠ .free := by rw [h]; exact CallState.noConfusion
  unfold Event.directRing
  extract_lets c
  cases o with
  | ack =>
    obtain ⟨m1, -, -, x, c1⟩ := m.leaveTalk (code := .ok) h
    exact m1.ringOut (by rw [c1]; exact live) (by rw [c1]; exact target ▸ Option.some_ne_none t)
  | busy =>
    dsimp only
    split
    · next room =>
      rw [show c.target = some t from ht]
      have v1 := e.issue_view i (.tone c.caller .hold)
      obtain ⟨m1, camp, kind, x, c1⟩ := (m.alike v1).leaveTalk (code := .camped) (by rw [v1]; exact h)
      rw [v1] at camp kind c1
      refine m1.camp (by rw [c1]; exact live) ?_ ?_
      · rw [camp, hk]; exact State.camp_space room
      · rw [kind]; exact m.targetKind live target
    · exact m.issueAll.endDirect (by rw [Event.issueAll_view]; exact h)
  | fault => exact m.issueAll.endDirect (by rw [Event.issueAll_view]; exact h)

theorem Moving.nightRing {k : Circuit} {o : RingOutcome} (m : Moving s e i .none)
    (h : (e.st.view.call i).state = .ringingOut) (awaits : (e.st.call i).awaits k = true) :
    Moving s (e.nightRing i k o) i .none := by
  obtain ⟨t, ht, hk⟩ := Call.target_of_awaits awaits
  have live : (e.st.view.call i).Live := .of_state h nofun nofun
  unfold Event.nightRing
  extract_lets c
  cases o with
  | ack => exact m.alike (Event.updCall_same fun _ => rfl)
  | busy =>
    dsimp only
    split
    · next room =>
      rw [show c.target = some t from ht]
      refine ((m.takeAway (.inl h)).camp live.1 ?_ (m.targetKind live.1 ht)).alike (Event.issue_view _ _ _)
      rw [hk]; exact State.camp_space room
    · exact (m.takeAway (.inl h)).fallback live
  | fault => exact (m.takeAway (.inl h)).fallback live

theorem Moving.recallCamped {how : Issue} (m : Moving s e i .none) (h : (e.st.view.call i).state = .camped) :
    Moving s ((e.leaveCamp i).recall i how) i .none :=
  (m.leaveCamp h).recall (by rw [Event.leaveCamp_call]; exact .of_state h nofun nofun)

theorem Moving.campRing {o : RingOutcome} (m : Moving s e i .none) (h : (e.st.view.call i).state = .camped) :
    Moving s (e.campRing i o) i .none := by
  have target : (e.st.view.call i).target ≠ none := (m.placed.sound i (.inr rfl)).present (.inr (.inr (.inr h)))
  unfold Event.campRing
  extract_lets c
  cases o with
  | ack =>
    have v1 := (e.leaveCamp i).issue_view i (.tone c.caller .ringback)
    have c1 : ((e.leaveCamp i).issue i (.tone c.caller .ringback)).st.view.call i = e.st.view.call i := by
      rw [v1, Event.leaveCamp_call]
    refine ((m.leaveCamp h).alike v1).ringOut ?_ ?_ <;> rw [c1]
    · rw [h]; exact CallState.noConfusion
    · exact target
  | busy =>
    dsimp only
    split
    · exact m.recallCamped h
    · exact m.alike (Event.updCall_same fun _ => rfl)
  | fault => exact m.recallCamped h

theorem Event.InPlace.currentRing {k : Circuit} {o : RingOutcome} (h : e.InPlace) (awaits : (e.st.call i).awaits k = true) :
    (e.currentRing i k o).InPlace := by
  unfold Event.currentRing
  split
  · next hs => exact ((h.moving i).screenedRing hs).inPlace
  · next hs => exact ((h.moving i).directRing hs awaits).inPlace
  · next hs => exact ((h.moving i).nightRing hs awaits).inPlace
  · next hs => exact ((h.moving i).campRing hs).inPlace
  · exact h

theorem Event.InPlace.ringResult {k : Circuit} {o : RingOutcome} (h : e.InPlace) : (e.ringResult i k o).InPlace := by
  unfold Event.ringResult
  split
  · next hk => exact h.currentRing hk.2
  · exact h

/-! ### Expiries and limits (R32, R33, R75, R76, R98, R101) -/

theorem Event.InPlace.ringLimitActs (k : e.InPlace) : (e.ringLimitActs i).InPlace := by
  unfold Event.ringLimitActs
  extract_lets c
  have m := k.moving i
  split
  · next h =>
    refine Event.InPlace.alike (e := Event.backToTalk _ i) ?_ (Event.updCall_same fun _ => rfl)
    exact (m.issueAll.backToTalk (by decide) (.inl (by rw [Event.issueAll_view]; exact h))).inPlace
  · next h =>
    have c1 : ((e.issueList i (withTarget c .unring)).st.view.call i).state = .ringingOut := by
      rw [Event.issueList_view]; exact h
    exact ((m.issueAll.takeAway (.inl c1)).recall (.of_state c1 nofun nofun)).inPlace
  · exact k

theorem Event.InPlace.markCall (k : e.InPlace) : (e.markCall i).InPlace := by
  unfold Event.markCall
  split
  · extract_lets e1 c
    have k1 : e1.InPlace := k.alike (Event.updCall_same fun _ => rfl)
    split
    · exact k1.ringLimitActs
    · exact k1
  · exact k

theorem Event.InPlace.waitExpired (k : e.InPlace) (h : (e.st.view.call i).state = .queued) : (e.waitExpired i).InPlace := by
  unfold Event.waitExpired
  refine ((k.moving i).clearTimer.waitOver (.inl ?_)).inPlace
  rw [Event.updCall_stance (fun d => { d with timer := none }) fun _ => rfl, View.call_setCall, if_pos rfl]
  exact h

theorem Event.InPlace.campOver (k : e.InPlace) (h : (e.st.view.call i).state = .camped) : (e.campOver i).InPlace := by
  unfold Event.campOver
  extract_lets e1
  have m1 : Moving e.st e1 i .none := (k.moving i).clearTimer
  have c1 : (e1.st.view.call i).state = .camped := by
    rw [show e1.st.view = _ from Event.updCall_stance (fun d => { d with timer := none }) fun _ => rfl, View.call_setCall,
      if_pos rfl]
    exact h
  split
  · exact m1.inPlace.alike (Event.updCall_same fun _ => rfl)
  · exact (m1.recallCamped c1).inPlace

theorem Event.InPlace.hold1Over (k : e.InPlace) (h : (e.st.view.call i).state = .held) : (e.hold1Over i).InPlace := by
  unfold Event.hold1Over
  extract_lets e1 c e2 length
  have m1 : Moving e.st e1 i .none := (k.moving i).clearTimer
  have c1 : (e1.st.view.call i).state = .held := by
    rw [show e1.st.view = _ from Event.updCall_stance (fun d => { d with timer := none }) fun _ => rfl, View.call_setCall,
      if_pos rfl]
    exact h
  have v2 : e2.st.view = e1.st.view := by
    show (match c.position, c.loop with | some p, some l => _ | _, _ => e1 : Event).st.view = _
    split
    · exact Event.updPos_same fun _ => rfl
    · rfl
  split
  · exact (m1.alike v2).inPlace
  · exact ((m1.alike v2).startTimer (by rw [v2]; exact c1)).inPlace

theorem Event.InPlace.hold2Over (k : e.InPlace) (h : (e.st.view.call i).state = .held) : (e.hold2Over i).InPlace := by
  unfold Event.hold2Over
  refine (((k.moving i).leaveLoop (.inr (.inl h))).joinRoster ?_).inPlace
  rw [Event.leaveLoop_call]
  exact .of_state h nofun nofun

theorem Event.InPlace.announceOver (k : e.InPlace) (h : (e.st.view.call i).state = .announced) :
    (e.announceOver i).InPlace := by
  unfold Event.announceOver
  extract_lets e1 c p leave
  have m1 : Moving e.st e1 i .none := (k.moving i).clearTimer
  have c1 : (e1.st.view.call i).state = .announced := by
    rw [show e1.st.view = _ from Event.updCall_stance (fun d => { d with timer := none }) fun _ => rfl, View.call_setCall,
      if_pos rfl]
    exact h
  split
  · exact (m1.congest fun hg => absurd rfl hg).inPlace
  · split
    · exact ((m1.alike (Event.issue_view _ _ _)).close fun hg => absurd rfl hg).inPlace
    · split
      · have v2 : ((e1.issueList i leave).updCall i fun c => { c with overflowed := true }).st.view = e1.st.view := by
          rw [Event.updCall_same, Event.issueList_view]
          exact fun _ => rfl
        have c2 : (((e1.issueList i leave).updCall i fun c => { c with overflowed := true }).st.view.call i).state =
            .announced := by rw [v2]; exact c1
        exact (((m1.alike v2).takeAway (.inr c2)).joinRoster (.of_state c2 nofun nofun)).inPlace
      · exact (m1.issueAll.congest fun hg => absurd rfl hg).inPlace

end Moving

end Sys2Proof.Machine
end

section
/-! SUPPORT. The end of an event keeps rosters, panels and camp lists in order: refusals, freed slots, camp service, the
arbiters, the passes of estimates, the revisions (R130, R99, R35 to R38, R57, R11). -/

namespace Sys2Proof.Machine

section Chain

variable {e : Event} {i : Slot}

theorem Event.InPlace.foldl {α : Type} {g : Event → α → Event} (h : ∀ e x, e.InPlace → (g e x).InPlace) (xs : List α)
    (k : e.InPlace) : (xs.foldl g e).InPlace := by
  induction xs generalizing e with
  | nil => exact k
  | cons x xs ih => exact ih (h e x k)

theorem Event.InPlace.ite {f : Event} {c : Prop} [Decidable c] (he : c → e.InPlace) (hf : ¬ c → f.InPlace) :
    (if c then e else f).InPlace := by
  split
  · next h => exact he h
  · next h => exact hf h

/-! ### Refusals, freed slots, camp service -/

theorem Event.InPlace.close {why : EndReason} {moved : Bool} (k : e.InPlace) : (e.close i why moved).InPlace :=
  ((k.moving i).close fun h => absurd rfl h).inPlace

theorem Event.InPlace.freeIfDone (k : e.InPlace) : (e.freeIfDone i).InPlace := (k.moving i).freeIfDone.inPlace

theorem Event.InPlace.handoverFailed (k : e.InPlace) : (e.handoverFailed i).InPlace := by
  refine k.alike ?_
  unfold Event.handoverFailed
  rw [Event.issueTeardown_view, Event.updCall_same]
  exact fun _ => rfl

theorem Event.InPlace.takeRefusal {r : Refused} (k : e.InPlace) : (e.takeRefusal r).InPlace := by
  unfold Event.takeRefusal
  dsimp only
  split
  · exact k
  · exact .ite (fun _ => k.handoverFailed) fun _ => k
  · exact .ite (fun _ => k) fun _ => k.close

theorem Event.InPlace.takeRefusals (k : e.InPlace) : e.takeRefusals.InPlace := by
  unfold Event.takeRefusals
  have k1 : Event.InPlace { e with refusals := [] } := k.alike rfl
  exact .foldl (fun _ _ k => k.freeIfDone) _ (.foldl (fun _ _ k => k.takeRefusal) _ k1)

theorem Event.InPlace.ringHead {c : Circuit} (k : e.InPlace) : (e.ringHead c).InPlace := by
  unfold Event.ringHead
  split
  · next i _ _ =>
    refine .ite (fun _ => k) fun _ => k.alike ?_
    rw [Event.updCall_same, Event.issue_view]
    exact fun _ => rfl
  · exact k

theorem Event.InPlace.serveCamps (k : e.InPlace) : e.serveCamps.InPlace :=
  .foldl (fun _ _ k => .ite (fun _ => k.ringHead) fun _ => k) _ k

theorem Event.InPlace.settle (k : e.InPlace) (n : Nat) : (e.settle n).InPlace := by
  induction n generalizing e with
  | zero => exact k
  | succ n ih => exact .ite (fun _ => k.takeRefusals.serveCamps) fun _ => ih k.takeRefusals.serveCamps

/-! ### Offers (R35 to R38) -/

theorem Event.offer_view {p : Pos} (live : (e.st.view.call i).state ≠ .free) :
    ∃ x, (e.offer i p).st.view =
      (e.st.view.setCall i { (e.st.view.call i).enter .offered with position := some p, timer := some (.offer, x) }).setPanel p
        { e.st.view.panel p with offered := some i } := by
  unfold Event.offer
  extract_lets part e1 e2 e3
  have v2 : e2.st.view = _ :=
    Event.toState_updCall_view (e := e) (i := i) (st := .offered) (fun d => { d with position := some p }) (fun _ => rfl) live
  obtain ⟨x, v3⟩ := e2.startTimer_view i .offer (e2.st.part part).offerTimeout
  rw [v2, View.setCall_setCall, View.call_setCall, if_pos rfl] at v3
  have v4 : (e3.updPos p fun q => { q with offered := some i }).st.view = _ :=
    Event.updPos_panel (fun a => { a with offered := some i }) fun _ => rfl
  refine ⟨x, Eq.trans v4 ?_⟩
  rw [v3]
  rfl

theorem Event.InPlace.offer {p : Pos} {q : Part} (k : e.InPlace) (h : (e.st.view.call i).state = .queued)
    (hq : (e.st.view.call i).partition = q) (free : e.st.availableIn q p = true) :
    (e.offer i p).InPlace ∧ (e.offer i p).st.view.roster = e.st.view.roster := by
  have live : (e.st.view.call i).state ≠ .free := by rw [h]; exact CallState.noConfusion
  obtain ⟨x, view⟩ := Event.offer_view (e := e) (p := p) live
  unfold State.availableIn Position.available at free
  simp only [Bool.and_eq_true, beq_iff_eq, Option.isNone_iff_eq_none] at free
  obtain ⟨part, ⟨⟨⟨isOpen, -⟩, idle⟩, silent⟩, -⟩ := free
  have self : e.st.view.marks i .none i = { Marks.away with
      member := some (q, (e.st.view.call i).place, (e.st.view.call i).cls) } := by
    rw [View.marks_of (by decide)]
    unfold Stance.marks
    rw [h, hq]
  have placed : (e.offer i p).st.view.Placed i .none := by
    rw [view]
    refine (k i).reseat (by rw [self, ← hq]; rfl) (by rw [self]; rfl) ?_ ?_
      (fun _ => ⟨fun _ => rfl, nofun, fun k y hy => ?_⟩) (fun _ => live) nofun
    · rw [← show (e.st.view.call i).partition = q from hq] at part
      exact (k i).offers.give (by rw [Function.comp_apply, self]; rfl) part isOpen idle silent
    · exact (k i).loops.touch (by rw [Function.comp_apply, self]; rfl) rfl rfl rfl
    · simp only [Option.some.injEq, Prod.mk.injEq] at hy
      rw [← hy.1]
      rfl
  exact ⟨fun _ => placed.anyone, by rw [view]; rfl⟩

/-- Step A and Step B offer members of the one roster. -/
def Event.Offering (e : Event) (r : Part → List Slot) : Prop := e.InPlace ∧ e.st.view.roster = r

theorem Event.Offering.offer {p : Pos} {q : Part} {r : Part → List Slot} (k : e.Offering r) (hi : i ∈ r q)
    (h : (e.st.view.call i).state = .queued) (free : e.st.availableIn q p = true) : (e.offer i p).Offering r := by
  obtain ⟨k, rosters⟩ := k
  obtain ⟨n, c, hm⟩ := ((k i).rosters.members q i).mp (rosters ▸ hi)
  rw [Function.comp_apply, View.marks_of (by decide)] at hm
  obtain ⟨placed, same⟩ := k.offer h (Stance.member_iff.mp hm).2.1 free
  exact ⟨placed, same.trans rosters⟩

theorem Event.Offering.stepA {q : Part} {r : Part → List Slot} (k : e.Offering r) (hi : i ∈ r q) :
    (e.stepA q i).Offering r := by
  unfold Event.stepA
  extract_lets c
  split
  · split
    · next h => exact k.offer hi h.1 h.2.2
    · exact k
  · exact k

theorem Event.Offering.stepB {q : Part} {r : Part → List Slot} (k : e.Offering r) (n : Nat) :
    (e.stepB q n).Offering r := by
  induction n generalizing e with
  | zero => exact k
  | succ n ih =>
    unfold Event.stepB
    split
    · next i x hi hx =>
      refine ih (k.offer ?_ (State.firstQueued_queued hi) (State.longestIdle_available hx))
      rw [← k.2]
      exact List.mem_of_find?_eq_some hi
    · exact k

theorem Event.InPlace.arbiter {q : Part} (k : e.InPlace) : (e.arbiter q).InPlace := by
  have fold : ∀ (is : List Slot) (f : Event), (∀ i ∈ is, i ∈ e.st.view.roster q) → f.Offering e.st.view.roster →
      (is.foldl (Event.stepA q) f).Offering e.st.view.roster := by
    intro is
    induction is with
    | nil => exact fun _ _ h => h
    | cons i is ih =>
      exact fun f his h => ih _ (fun j hj => his j (List.mem_cons_of_mem _ hj)) (h.stepA (his i List.mem_cons_self))
  exact ((fold _ e (fun _ h => h) ⟨k, rfl⟩).stepB 8).1

theorem Event.InPlace.runArbiters (k : e.InPlace) : e.runArbiters.InPlace :=
  .foldl (fun _ _ k => .ite (fun _ => k.arbiter) fun _ => k) _ k

theorem Event.testPosition_view (e : Event) (x : Pos) : (e.testPosition x).st.view = e.st.view := by
  unfold Event.testPosition
  split
  · extract_lets e1
    have v1 : e1.st.view = e.st.view := by
      show (if _ then e else _ : Event).st.view = _
      split
      · rfl
      · exact (State.view_setPos _ _ _).trans (View.setPanel_panel e.st.view x)
    split
    · exact v1
    · exact v1
  · rfl

theorem Event.testPositions_view (e : Event) : e.testPositions.st.view = e.st.view :=
  Event.foldl_view Event.testPosition_view _

/-! ### Estimates, ties, revisions -/

theorem Event.pass_view (e : Event) (q : Part) : (e.pass q).st.view = e.st.view := by
  have member : ∀ (e : Event) i, (e.passMember q i).st.view = e.st.view := fun e i => by
    unfold Event.passMember
    dsimp only
    split
    · exact Event.updCall_same fun _ => rfl
    · rfl
  unfold Event.pass
  extract_lets roster mark e1
  refine (Event.updPrt_same ?_).trans (Event.foldl_view member roster)
  exact fun _ => rfl

theorem Event.runPasses_view (e : Event) : e.runPasses.st.view = e.st.view :=
  Event.foldl_view (fun e q => by
    split
    · exact e.pass_view q
    · rfl) _

theorem State.view_retie (t : State) : t.retie.view = t.view :=
  State.view_congr (fun _ => rfl) (fun _ => rfl) (fun _ => rfl) (fun k => by rw [State.lamp_retie]) rfl rfl

theorem Event.raiseRecords_view (e : Event) : e.raiseRecords.view = e.st.view :=
  State.view_congr (fun i => by rw [Event.call_raiseRecords]; split <;> rfl)
    (fun q => by rw [Event.prt_raiseRecords]; split <;> rfl) (fun p => by rw [Event.pos_raiseRecords]; split <;> rfl)
    (fun k => by rw [Event.lamp_raiseRecords]; split <;> rfl) rfl rfl

theorem Event.commit_view (e : Event) : e.commit.view = e.st.view := by
  have bump : ∀ (t : State) n, (t.bumpBoard n).view = t.view := fun t n => by
    unfold State.bumpBoard
    split <;> rfl
  unfold Event.commit
  exact (bump _ _).trans ((Event.raiseRecords_view _).trans (State.view_retie e.st))

/-! ### One event -/

/-- Rosters, panels and camp lists are in order. -/
def State.InPlace (s : State) : Prop := ∀ i, s.view.Placed i .none

theorem State.InPlace.alike {s t : State} (k : s.InPlace) (h : t.view = s.view) : t.InPlace := fun i => h ▸ k i

theorem Event.InPlace.finish (k : e.InPlace) : e.finish.InPlace := by
  have settled : (e.settle 80).testPositions.InPlace := (k.settle 80).alike (Event.testPositions_view _)
  intro i
  unfold Event.finish
  rw [Event.commit_view, Event.runPasses_view]
  exact settled.runArbiters i

theorem runEvent_inPlace {s : State} {body : Event → Event} (k : s.InPlace)
    (h : (Event.begin s).InPlace → (body (Event.begin s)).InPlace) : (runEvent s body).InPlace := (h k).finish

end Chain

end Sys2Proof.Machine
end

section
/-! SUPPORT. Night service, closing positions, outcomes, reports and the loss of shelves keep rosters, panels and camp lists
in order (R46, R65, R78, R94 to R96, R134, R136, R145). -/

namespace Sys2Proof.Machine

section Chain

variable {e : Event} {i : Slot} {p : Pos}

/-! ### Rosters and camp lists that are emptied call by call -/

/-- From event `e` to `f` no panel gains anything. -/
structure Event.Shedding (e f : Event) : Prop where
  inPlace : f.InPlace
  sheds : ∀ x, (e.st.view.panel x).Sheds (f.st.view.panel x)

/-- A rule that acts on each of several calls, each of which stays as it is, its roster place aside, until its turn. -/
theorem Event.InPlace.foldl_each {g : Event → Slot → Event} {P : Stance → Prop}
    (place : ∀ d n, P d → P { d with place := n })
    (step : ∀ e i, e.InPlace → P (e.st.view.call i) → Moving e.st (g e i) i .none) (is : List Slot) (once : is.Nodup)
    (k : e.InPlace) (h : ∀ i ∈ is, P (e.st.view.call i)) : e.Shedding (is.foldl g e) := by
  induction is generalizing e with
  | nil => exact ⟨k, fun _ => .refl _⟩
  | cons i is ih =>
    obtain ⟨hi, once⟩ := List.nodup_cons.mp once
    have m := step e i k (h i List.mem_cons_self)
    obtain ⟨inPlace, sheds⟩ := ih once m.inPlace fun j hj => by
      obtain ⟨n, hn⟩ := m.others j fun hji => hi (hji ▸ hj)
      rw [hn]
      exact place _ n (h j (List.mem_cons_of_mem _ hj))
    exact ⟨inPlace, fun x => (m.sheds x).trans (sheds x)⟩

theorem Event.InPlace.member {q : Part} (k : e.InPlace) (h : i ∈ e.st.view.roster q) :
    rosterState (e.st.view.call i).state ∧ (e.st.view.call i).partition = q := by
  obtain ⟨n, c, hm⟩ := ((k i).rosters.members q i).mp h
  rw [Function.comp_apply, View.marks_of (by decide)] at hm
  obtain ⟨state, part, -, -⟩ := Stance.member_iff.mp hm
  exact ⟨state, part⟩

theorem Event.InPlace.goNight {q : Part} (k : e.InPlace) : e.Shedding (e.goNight q) := by
  have v1 : (e.updPrt q fun r => { r with mode := .night }).st.view = e.st.view := Event.updPrt_same fun _ => rfl
  have k1 : (e.updPrt q fun r => { r with mode := .night }).InPlace := k.alike v1
  obtain ⟨inPlace, sheds⟩ := k1.foldl_each (P := fun d => rosterState d.state) (fun _ _ h => h)
    (fun _ _ k h => k.rerouteMember h) (e.st.view.roster q) ((k 0).rosters.once q) fun j hj =>
      (k1.member (q := q) (by rw [v1]; exact hj)).1
  exact ⟨inPlace, fun x => v1 ▸ sheds x⟩

theorem Event.InPlace.goDay {q : Part} (k : e.InPlace) : (e.goDay q).InPlace :=
  k.alike (Event.updPrt_same fun _ => rfl)

/-! ### Closing a position (R65, R66, R78, R119) -/

/-- Nothing is gained by a panel, and the position's offer and the loops `ls` are empty. -/
structure Event.Stripped (e f : Event) (p : Pos) (ls : List LoopIx) : Prop where
  inPlace : f.InPlace
  sheds : ∀ x, (e.st.view.panel x).Sheds (f.st.view.panel x)
  empty : ∀ l ∈ ls, (f.st.view.panel p).loops.get l = none

theorem Event.InPlace.forceLoop {lost : Option Circuit} {l : LoopIx} (k : e.InPlace) :
    e.Stripped (Event.forceLoop p lost e l) p [l] := by
  unfold Event.forceLoop
  split
  · next i hl =>
    extract_lets c orders e1 e2 e3
    obtain ⟨⟨b, hb⟩, -⟩ := (k i).loops.loops p l i hl
    rw [Function.comp_apply, View.marks_of (by decide)] at hb
    obtain ⟨state, -⟩ := Stance.seat_iff.mp hb
    obtain ⟨x, c1⟩ : ∃ x, e1.st.view.call i = { e.st.view.call i with extend := x } := e.answerExtendOf_call i _
    have v2 : e2.st.view = e1.st.view := e1.issueLegs_view i lost orders
    have m2 : Moving e.st e2 i .slack := ((k.moving i).slack.answerExtendOf (.inl (by decide))).alike v2
    have c2 : (e2.st.view.call i).state = (e.st.view.call i).state := by rw [v2, c1]
    have m3 : Moving e.st e3 i .lifted := (m2.leaveLoop (by rw [c2]; exact state)).alike (Event.updCall_same fun _ => rfl)
    have c3 : (e3.st.view.call i).state = (e.st.view.call i).state := by
      rw [show e3.st.view = (e2.leaveLoop i).st.view from Event.updCall_same fun _ => rfl, Event.leaveLoop_call, c2]
    have live : (e3.st.view.call i).Live := by
      unfold Stance.Live
      rw [c3]
      rcases state with h | h | h | h <;> rw [h] <;> exact ⟨nofun, nofun⟩
    have gone : (e3.st.view.panel p).loops.get l = none :=
      ((m3.sheds p).loops l).resolve_left fun h => m3.placed.noLoop p l (h.trans hl)
    have m4 : Moving e3.st (e3.joinRoster i .recall .spared) i .none := (Moving.start m3.placed).joinRoster live
    refine ⟨m4.inPlace, fun x => (m3.sheds x).trans (m4.sheds x), fun l' h => ?_⟩
    rw [List.mem_singleton.mp h]
    exact ((m4.sheds p).loops l).elim (fun h => h.trans gone) id
  · next hl =>
    refine ⟨k, fun _ => .refl _, fun l' h => ?_⟩
    rw [List.mem_singleton.mp h]
    exact hl

theorem Event.Stripped.forceLoops {lost : Option Circuit} {f : Event} {ms : List LoopIx} (h : e.Stripped f p ms)
    (ls : List LoopIx) : e.Stripped (ls.foldl (Event.forceLoop p lost) f) p (ms ++ ls) := by
  induction ls generalizing f ms with
  | nil => rw [List.append_nil]; exact h
  | cons l ls ih =>
    have k := h.inPlace.forceLoop (p := p) (lost := lost) (l := l)
    have next : e.Stripped (Event.forceLoop p lost f l) p (ms ++ [l]) := by
      refine ⟨k.inPlace, fun x => (h.sheds x).trans (k.sheds x), fun m hm => ?_⟩
      rcases List.mem_append.mp hm with hm | hm
      · exact ((k.sheds p).loops m).elim (fun hk => hk.trans (h.empty m hm)) id
      · exact k.empty m hm
    rw [List.append_cons]
    exact ih next

/-- A panel that offers nothing and holds nothing is closed. -/
theorem View.Placed.shut {v : View} {g : Grip} (k : v.Placed i g) (idle : (v.panel p).offered = none)
    (empty : ∀ l, (v.panel p).loops.get l = none) :
    (v.setPanel p { v.panel p with isOpen := false, speaking := none, loops := .fill none }).Placed i g := by
  generalize ha : ({ v.panel p with isOpen := false, speaking := none, loops := .fill none } : Panel) = a
  have idle' : a.offered = none := by rw [← ha]; exact idle
  have empty' : a.loops = .fill none := by rw [← ha]
  have silent' : a.speaking = none := by rw [← ha]
  have get : ∀ x, (v.setPanel p a).panel x = if x = p then a else v.panel x := fun x => View.panel_setPanel ..
  have silent : (v.panel p).speaking = none := by
    cases h : (v.panel p).speaking with
    | none => rfl
    | some l =>
      obtain ⟨j, hj, -⟩ := (k.loops.speaking p l).mp h
      rw [empty l] at hj
      cases hj
  refine ⟨k.rosters, k.offers.panels (fun x => ?_) fun x hx => ?_,
    k.loops.panels (fun x => ?_) (fun x => ?_) fun x l j hx => ?_, k.camps, k.sound, k.serving, k.extension⟩ <;>
    rw [get] <;> split
  · next h => rw [h, idle, idle']
  · rfl
  · next h => rw [h] at hx; exact absurd idle hx
  · exact ⟨rfl, rfl, id⟩
  · next h =>
    rw [h, empty']
    exact Table.ext_get fun l => (Table.get_fill _ _).trans (empty l).symm
  · rfl
  · next h => rw [h, silent, silent']
  · rfl
  · next h => rw [h, empty l] at hx; cases hx
  · rfl

theorem Event.fillRole_view (e : Event) (r : Role) (x : Option Pos) : (e.fillRole r x).st.view = e.st.view := by
  unfold Event.fillRole
  split
  · split
    · exact Event.updPos_same fun _ => rfl
    · rfl
  · rfl

theorem Event.fillRoles_view (e : Event) : e.fillRoles.st.view = e.st.view := by
  unfold Event.fillRoles
  split
  · exact (Event.fillRole_view _ _ _).trans (Event.fillRole_view _ _ _)
  · rfl

theorem Event.closeRole_view (e : Event) (p : Pos) : (e.closeRole p).st.view = e.st.view := by
  unfold Event.closeRole
  extract_lets e1
  have v1 : e1.st.view = e.st.view := Event.updPos_same fun _ => rfl
  split
  · split
    · refine (Event.fillRoles_view _).trans ((Event.updPos_same ?_).trans v1)
      exact fun _ => rfl
    · exact (Event.fillRoles_view _).trans v1
  · exact (Event.fillRoles_view _).trans v1
  · exact (Event.fillRoles_view _).trans v1

theorem Event.InPlace.reportClosing {part : Option Part} (k : e.InPlace) : e.Shedding (e.reportClosing part) := by
  unfold Event.reportClosing
  split
  · split
    · exact k.goNight
    · exact ⟨k, fun _ => .refl _⟩
  · exact ⟨k, fun _ => .refl _⟩

/-- A panel keeps its partition, and is OPEN only if it was. -/
structure Panel.Stays (a b : Panel) : Prop where
  partition : b.partition = a.partition
  isOpen : b.isOpen = true → a.isOpen = true

theorem Panel.Sheds.stays {a b : Panel} (h : a.Sheds b) : a.Stays b := ⟨h.partition, fun o => h.isOpen ▸ o⟩

theorem Panel.Stays.trans {a b c : Panel} (h : a.Stays b) (k : b.Stays c) : a.Stays c :=
  ⟨k.partition.trans h.partition, h.isOpen ∘ k.isOpen⟩

theorem Panel.stays_shut (a : Panel) :
    a.Stays { a with isOpen := false, speaking := none, loops := .fill none } := ⟨rfl, nofun⟩

/-- From event `e` to `f`, positions only close. -/
structure Event.Closing (e f : Event) : Prop where
  inPlace : f.InPlace
  stays : ∀ x, (e.st.view.panel x).Stays (f.st.view.panel x)

theorem Event.InPlace.closePosition {lost : Option Circuit} (k : e.InPlace) : e.Closing (e.closePosition p lost) := by
  unfold Event.closePosition
  extract_lets e1 e2 e3
  have w : Withdrawn e e1 p := k.withdraw p
  have start : e1.Stripped e1 p [] := ⟨w.inPlace, fun _ => .refl _, fun _ h => absurd h List.not_mem_nil⟩
  have stripped : e1.Stripped e2 p ([] ++ List.finRange 4) := start.forceLoops _
  have idle : (e2.st.view.panel p).offered = none :=
    (stripped.sheds p).offered.elim (fun h => h.trans w.panel) id
  have v3 : e3.st.view = e2.st.view.setPanel p
      { e2.st.view.panel p with isOpen := false, speaking := none, loops := .fill none } := e2.updPos_view p _
  have empty : ∀ l, (e2.st.view.panel p).loops.get l = none := fun l =>
    stripped.empty l (List.mem_append_right _ (List.mem_finRange l))
  have k3 : e3.InPlace := fun j => by
    rw [v3]
    exact (stripped.inPlace j).shut idle empty
  have v4 := e3.closeRole_view p
  obtain ⟨inPlace, sheds⟩ := (k3.alike v4).reportClosing (part := (e3.st.pos p).partition)
  refine ⟨inPlace, fun x => (((w.sheds x).trans (stripped.sheds x)).stays.trans ?_).trans (sheds x).stays⟩
  rw [v4, v3, View.panel_setPanel]
  split
  · next hx => subst hx; exact Panel.stays_shut _
  · exact ⟨rfl, id⟩

theorem Event.InPlace.headsetLost {c : Circuit} (k : e.InPlace) : (e.headsetLost c).InPlace :=
  .foldl (fun _ _ k => .ite (fun _ => k.closePosition.inPlace) fun _ => k) _ k

/-! ### Events at the target (R94 to R96, R99) -/

theorem Moving.deliver {s : State} (m : Moving s e i .none) : Moving s (e.deliver i) i .none := by
  unfold Event.deliver
  extract_lets c e1
  have v1 : e1.st.view = e.st.view := by
    show (match c.target with | some t => _ | none => e : Event).st.view = _
    split
    · exact Event.issueAs_view _ _ _ _ _
    · rfl
  exact (m.alike v1).close fun h => absurd rfl h

theorem Event.InPlace.toConsult (k : e.InPlace) (h : (e.st.view.call i).state = .consultRinging) :
    (e.toState i .consultTalking).InPlace := by
  have live : (e.st.view.call i).state ≠ .free := by rw [h]; exact CallState.noConfusion
  have target := ((k i).sound i (.inr rfl)).present (.inl h)
  refine ((k.moving i).revise (d := (e.st.view.call i).enter .consultTalking) (Event.toState_view live) ?_
    (fun _ => ⟨fun hs => ?_, fun _ => target, nofun⟩)
    (fun _ => live) fun _ t ht => .inl (Stance.enter_target ht)).inPlace
  · rw [View.marks_of (by decide), if_neg (by decide)]
    unfold Stance.marks
    rw [h]
    rfl
  · simp [Stance.enter, rosterState] at hs

theorem Event.InPlace.targetAnswer {c : Circuit} (k : e.InPlace) : (e.targetAnswer c).InPlace := by
  unfold Event.targetAnswer
  split
  · exact k
  · next i _ =>
    extract_lets e1
    have k1 : e1.InPlace := .ite (fun h => k.currentRing h) fun _ => k
    split
    · next h => exact k1.toConsult h
    · exact (k1.moving i).deliver.inPlace
    · exact k1

theorem Event.InPlace.targetClear {c : Circuit} (k : e.InPlace) : (e.targetClear c).InPlace := by
  unfold Event.targetClear
  split
  · next i _ =>
    extract_lets d
    split
    · next h =>
      exact ((k.moving i).issueAll.backToTalk (by decide) (.inr (by rw [Event.issueAll_view]; exact h))).inPlace
    · exact k
  · exact k

theorem Event.note_view (e : Event) (j : Option Slot) (o : ShelfOrder) : (e.note j o).st.view = e.st.view := by
  unfold Event.note
  split <;> rfl

theorem Event.InPlace.ringerFault {c : Circuit} (k : e.InPlace) : (e.ringerFault i c).InPlace := by
  have m := k.moving i
  unfold Event.ringerFault
  extract_lets d
  split
  · next h => exact (m.issueAll.endConsult (.inl (by rw [Event.issueAll_view]; exact h))).inPlace
  · next h => exact (m.issueAll.backToTalk (by decide) (.inr (by rw [Event.issueAll_view]; exact h))).inPlace
  · next h => exact (m.issueAll.endDirect (by rw [Event.issueAll_view]; exact h)).inPlace
  · next h =>
    have v1 := e.note_view (some i) (.unring c)
    have c1 : ((e.note (some i) (.unring c)).st.view.call i).state = .ringingOut := by rw [v1]; exact h
    exact (((m.alike v1).takeAway (.inl c1)).recall (.of_state c1 nofun nofun)).inPlace
  · exact k

theorem Event.InPlace.camper {c : Circuit} (k : e.InPlace) (h : i ∈ e.st.view.camp c) :
    (e.st.view.call i).state = .camped := by
  have hc := ((k i).camps.camped c i).mp h
  rw [Function.comp_apply, View.marks_of (by decide)] at hc
  exact (Stance.camp_iff.mp hc).1

theorem Event.InPlace.targetFault {c : Circuit} (k : e.InPlace) : (e.targetFault c).InPlace := by
  unfold Event.targetFault
  extract_lets e1
  have k1 : e1.InPlace := by
    show (match e.st.ringerOf c with | some i => e.ringerFault i c | none => e : Event).InPlace
    split
    · exact k.ringerFault
    · exact k
  exact (k1.foldl_each (P := fun d => d.state = .camped) (fun _ _ h => h)
    (fun _ i k h => (k.moving i).recallCamped h) _ ((k1 0).camps.once c) fun i hi => k1.camper hi).inPlace

theorem Event.InPlace.targetIdle {c : Circuit} (k : e.InPlace) : (e.targetIdle c).InPlace :=
  .ite (fun _ => k.ringHead) fun _ => k

/-! ### Outcomes of orders (R14, R134) -/

theorem Event.InPlace.setLine {c : Circuit} {x : LineState} (k : e.InPlace) : (e.setLine c x).InPlace :=
  k.alike (Event.updLamp_same fun _ => rfl)

theorem Event.InPlace.liveOutcome {o : ShelfOrder} {x : Outcome} (k : e.InPlace) : (e.liveOutcome i o x).InPlace := by
  unfold Event.liveOutcome
  split
  · exact k.ringResult
  · exact k
  · exact k.ringResult
  · exact k.ringResult
  · exact .ite (fun _ => k) fun _ => k.close
  · exact k.close

theorem Event.InPlace.slotOutcome {x : Entry} {o : Outcome} (k : e.InPlace) : (e.slotOutcome i x o).InPlace := by
  unfold Event.slotOutcome
  extract_lets e1
  have k1 : e1.InPlace := k.alike (Event.updCall_same fun _ => rfl)
  split
  · exact k1
  · exact Event.InPlace.freeIfDone (.ite (fun _ => k1.handoverFailed) fun _ => k1)
  · exact k1.liveOutcome

theorem Event.InPlace.ringLamp {o : ShelfOrder} {x : Outcome} (k : e.InPlace) : (e.ringLamp o x).InPlace := by
  unfold Event.ringLamp
  split
  · exact .ite (fun _ => k.setLine) fun _ => k
  · next c => exact .ite (fun _ => (k.setLine (c := c) (x := .idle)).alike rfl) fun _ => k
  · exact k

theorem Event.InPlace.outcome {x : Entry} {o : Outcome} (k : e.InPlace) : (e.outcome x o).InPlace := by
  have done : ∀ {f : Event}, f.InPlace → (f.ringDone x.order).InPlace := fun {f} k => by
    unfold Event.ringDone
    split
    · exact k.alike rfl
    · exact k
  unfold Event.outcome
  extract_lets e1
  have k1 : e1.InPlace := done k.ringLamp
  split
  · exact k1.slotOutcome
  · exact k1

/-! ### Call events and the loss of a shelf (R136, R145) -/

theorem Event.InPlace.callerEnds {c : Circuit} {why : EndReason} (k : e.InPlace) : (e.callerEnds c why).InPlace := by
  unfold Event.callerEnds
  split
  · exact k.close
  · exact k

theorem Event.InPlace.take {d : Delivery} (k : e.InPlace) : (e.take d).InPlace := by
  cases d with
  | failed x => exact k.outcome
  | callerFault c why => exact k.callerEnds
  | targetFault c => exact k.targetFault
  | headsetFault c => exact k.headsetLost
  | callerClear c => exact k.callerEnds
  | targetClear c => exact k.targetClear

theorem Event.InPlace.takeAll {schedule : List Nat} {failures others : List Delivery} {n : Nat} (k : e.InPlace) :
    (e.takeAll schedule failures others n).InPlace := by
  induction n generalizing e schedule failures others with
  | zero => exact k
  | succ n ih =>
    unfold Event.takeAll
    extract_lets first pool m
    split
    · exact k
    · exact .ite (fun _ => ih k.take) fun _ => ih k.take

theorem Event.InPlace.deliverAll {schedule : List Nat} {failures others : List Delivery} (k : e.InPlace) :
    (e.deliverAll schedule failures others).InPlace := k.takeAll

theorem State.view_raise (s : State) (x : Flag) : (s.raise x).view = s.view := rfl

theorem Event.InPlace.loseShelf {l : LinkIx} {a : Addr} {missed : Option Entry} {schedule : List Nat} (k : e.InPlace) :
    (e.loseShelf l a missed schedule).InPlace := by
  unfold Event.loseShelf
  extract_lets queue e1 changed e2 failures
  have k1 : e1.InPlace := k.alike rfl
  have k2 : e2.InPlace := .foldl (fun _ _ k => k.setLine) _ k1
  exact k2.deliverAll.alike (State.view_raise _ _)

theorem Event.InPlace.miss {l : LinkIx} {x : Frame} {schedule : List Nat} (k : e.InPlace) :
    (e.miss l x schedule).InPlace := by
  unfold Event.miss
  extract_lets c sh e1
  have k1 : e1.InPlace := k.alike rfl
  split
  · exact .ite (fun _ => k1.alike rfl) fun _ => k1.loseShelf
  · split
    · exact k.outcome
    · exact k

theorem Event.InPlace.deadFrame {x : Frame} (k : e.InPlace) : (e.deadFrame x).InPlace := by
  unfold Event.deadFrame
  split
  · exact k.outcome
  · exact k

theorem Event.InPlace.answered {l : LinkIx} {a : Addr} (k : e.InPlace) : (e.answered l a).InPlace :=
  .ite (fun _ => k.alike rfl) fun _ => k.alike rfl

/-! ### Arrivals (R9, R28, R29) and reports (R143, R145) -/

/-- A free slot is allotted to a call that stands nowhere yet. -/
theorem View.Placed.allot {v : View} {d : Stance} (k : v.Placed i .lifted) (serving : v.engine = .serving)
    (target : d.target = none) : (v.setCall i d).Placed i .lifted := by
  have call : ∀ j, (v.setCall i d).call j = if j = i then d else v.call j := fun j => View.call_setCall ..
  have marks : (v.setCall i d).marks i .lifted = v.marks i .lifted := by
    rw [View.marks_update (v := v) (g := .lifted) (x := v.marks i .lifted i) (fun j hj => (call j).trans (if_neg hj))]
    · exact Function.update_eq_self _ _
    · rw [View.marks_lifted, View.marks_lifted]
  refine ⟨?_, ?_, ?_, ?_, fun j hj => ?_, fun _ _ => serving, fun j t hj ht => ?_⟩
  · rw [marks]; exact k.rosters
  · rw [marks]; exact k.offers
  · rw [marks]; exact k.loops
  · rw [marks]; exact k.camps
  · have hji : j ≠ i := hj.resolve_right nofun
    rw [call, if_neg hji]
    exact k.sound j hj
  · rw [call] at hj ht
    split at hj
    · next hji =>
      rw [if_pos hji, target] at ht
      cases ht
    · next hji =>
      rw [if_neg hji] at ht
      exact k.extension j t hj ht

theorem Event.InPlace.arrive {c : Circuit} {a : Arrival} (k : e.InPlace) (slots : e.st.freeListed) :
    (e.arrive c a).InPlace := by
  unfold Event.arrive
  split
  · exact k
  · next p hp =>
    split
    · exact k.alike (Event.issueAs_view _ _ _ _ _)
    · next i is hfree =>
      have free : (e.st.view.call i).state = .free := (slots.2 i).mp (by rw [hfree]; exact List.mem_cons_self)
      have serving : e.st.view.engine = .serving := by
        unfold State.admits at hp
        dsimp only at hp
        split at hp
        · next h => exact h.1
        · cases hp
      have view : (e.allocate i c p a).st.view =
          e.st.view.setCall i ((e.st.call i).allocate c (e.st.dir c).kind p a e.st.seconds).stance :=
        State.view_setCall e.st i _
      have m : Moving (e.allocate i c p a).st (e.allocate i c p a) i .lifted := by
        refine .start ?_
        rw [view]
        exact ((k i).take (by unfold Stance.marks; rw [free])).allot serving rfl
      have live : ((e.allocate i c p a).st.view.call i).Live := by
        rw [view, View.call_setCall, if_pos rfl]
        exact ⟨nofun, nofun⟩
      unfold Event.seekPlace
      split
      · exact (m.nightRoute live).inPlace
      · exact (m.overflow live).inPlace
      · exact (m.joinRoster live).inPlace

theorem Event.InPlace.report {c : Circuit} {r : ReportKind} {schedule : List Nat} (k : e.InPlace)
    (slots : e.st.freeListed) : (e.report c r schedule).InPlace := by
  unfold Event.report
  extract_lets before e1
  have k1 : e1.InPlace := k.setLine
  split
  · refine .ite (fun _ => k1.arrive ?_) fun _ => k1
    exact (Carried.setLamp e.st c _ rfl).slots slots
  · exact k1.targetAnswer
  · exact k1.deliverAll
  · exact k1.targetIdle
  · exact k1
  · exact .ite (fun _ => k1) fun _ => k1.deliverAll

end Chain

end Sys2Proof.Machine
end

section
/-! SUPPORT. The orders of the order board keep rosters, panels and camp lists in order (R63 to R93, R118). -/

namespace Sys2Proof.Machine

section Chain

variable {e : Event} {i : Slot} {p : Pos}

/-! ### Signing on and off, pausing (R64 to R67) -/

/-- A closed panel holds nothing, so it may be opened. -/
theorem View.Placed.signOn {v : View} {g : Grip} (k : v.Placed i g) (closed : (v.panel p).isOpen = false) :
    (v.setPanel p { v.panel p with isOpen := true }).Placed i g := by
  have get : ∀ x, (v.setPanel p { v.panel p with isOpen := true }).panel x =
      if x = p then { v.panel p with isOpen := true } else v.panel x := fun x => View.panel_setPanel ..
  refine ⟨k.rosters, k.offers.panels (fun x => ?_) fun x hx => ?_,
    k.loops.panels (fun x => ?_) (fun x => ?_) fun x l j hx => ?_, k.camps, k.sound, k.serving, k.extension⟩ <;>
    rw [get] <;> split
  · next h => rw [h]
  · rfl
  · next h =>
    obtain ⟨j, hj⟩ := Option.ne_none_iff_exists'.mp hx
    have := (k.offers.offers x j hj).2.1
    rw [h, closed] at this
    cases this
  · exact ⟨rfl, rfl, id⟩
  · next h => rw [h]
  · rfl
  · next h => rw [h]
  · rfl
  · next h =>
    have := (k.loops.loops x l j hx).2
    rw [h, closed] at this
    cases this
  · rfl

theorem Event.InPlace.reportOpening (k : e.InPlace) : (e.reportOpening p).InPlace := by
  unfold Event.reportOpening
  split
  · exact .ite (fun _ => k.goDay) fun _ => k
  · exact k

theorem Event.InPlace.ownOpen (k : e.InPlace) : (e.ownOpen p).1.InPlace := by
  unfold Event.ownOpen
  extract_lets q e1
  split
  · exact k
  · next hc =>
    split
    · exact k
    · split
      · exact k
      · have closed : (e.st.view.panel p).isOpen = false := Bool.eq_false_iff.mpr hc
        have k1 : e1.InPlace := fun j => by
          rw [show e1.st.view = e.st.view.setPanel p { e.st.view.panel p with isOpen := true } from e.updPos_view p _]
          exact (k j).signOn closed
        exact (k1.alike e1.fillRoles_view).reportOpening

theorem Event.InPlace.ownClose {force : Byte} (k : e.InPlace) : (e.ownClose p force).1.InPlace := by
  unfold Event.ownClose
  extract_lets q
  split
  · exact k
  · split
    · exact k
    · rw [Event.grant_fst]
      exact k.closePosition.inPlace

theorem Event.InPlace.ownPause {on : Byte} (k : e.InPlace) : (e.ownPause p on).1.InPlace := by
  unfold Event.ownPause
  split
  · exact k
  · split
    · exact k.alike (Event.updPos_same fun _ => rfl)
    · have k1 : (e.updPos p fun q => { q with pause := some .order }).InPlace :=
        k.alike (Event.updPos_same fun _ => rfl)
      exact (k1.withdraw p).inPlace

/-! ### Answering and picking (R71, R72) -/

theorem Position.emptyLoop_free {q : Position} {l : LoopIx} (h : q.emptyLoop = some l) : q.loops.get l = none := by
  have := List.find?_some h
  exact Option.isNone_iff_eq_none.mp this

/-- A panel that may take a call onto a loop still may when it has shed something. -/
structure Panel.Ready (a : Panel) (l : LoopIx) : Prop where
  isOpen : a.isOpen = true
  silent : a.speaking = none
  free : a.loops.get l = none

theorem Panel.Ready.sheds {a b : Panel} {l : LoopIx} (h : a.Ready l) (k : a.Sheds b) : b.Ready l :=
  ⟨k.isOpen.trans h.isOpen, k.speaking.elim (fun s => s.trans h.silent) id, (k.loops l).elim (fun s => s.trans h.free) id⟩

theorem Event.InPlace.ownAnswer (k : e.InPlace) : (e.ownAnswer p).1.InPlace := by
  unfold Event.ownAnswer
  extract_lets q
  split
  · exact k
  · next hopen =>
    split
    · exact k
    · exact k
    · next i l ho hl =>
      extract_lets e1 e2
      have offered : (e.st.view.panel p).offered = some i := ho
      obtain ⟨state, -, -⟩ := k.offered offered
      obtain ⟨-, isOpen, silent⟩ := (k i).offers.offers p i offered
      have ready : (e.st.view.panel p).Ready l := ⟨isOpen, silent, Position.emptyLoop_free hl⟩
      have m1 : Moving e.st e1 i .lifted := (k.moving i).unroster (.inr state)
      have idle : (e1.st.view.panel p).offered = none := by
        refine (m1.sheds p).offered.resolve_left fun h => ?_
        obtain ⟨⟨x, hx, -⟩, -⟩ := m1.placed.offers.offers p i (h.trans offered)
        rw [Function.comp_apply, View.marks_lifted] at hx
        cases hx
      have v2 : e2.st.view = e1.st.view := by
        rw [show e2.st.view = e1.st.view.setPanel p { e1.st.view.panel p with offered := none } from e1.updPos_view p _,
          ← idle]
        exact View.setPanel_panel _ _
      obtain ⟨n, c1⟩ : ∃ n, e1.st.view.call i = { e.st.view.call i with place := n } := e.leaveRoster_call i true i
      obtain ⟨isOpen2, silent2, free2⟩ := ready.sheds ((m1.alike v2).sheds p)
      rw [Event.grant_fst]
      refine (m1.alike v2).speak ?_ isOpen2 (by rw [v2]; exact idle) silent2 free2
      rw [v2, c1]
      exact fun hf => CallState.noConfusion (state.symm.trans hf)

theorem State.pickable_spec {s : State} {slot : Byte} (h : s.pickable p slot = some i) :
    (s.call i).state = .queued := by
  unfold State.pickable at h
  split at h
  · dsimp only at h
    split at h
    · next hs =>
      cases h
      exact hs.1
    · cases h
  · cases h

theorem Event.InPlace.ownPick {slot : Byte} (k : e.InPlace) : (e.ownPick p slot).1.InPlace := by
  unfold Event.ownPick
  extract_lets q
  split
  · exact k
  · next hopen =>
    split
    · exact k
    · split
      · exact k
      · next hs =>
        split
        · exact k
        · exact k
        · next l i hl hi =>
          have w := k.withdraw p
          have queued : (e.st.view.call i).state = .queued := State.pickable_spec hi
          have ready : (e.st.view.panel p).Ready l := by
            refine ⟨?_, ?_, Position.emptyLoop_free hl⟩
            · show q.isOpen = true
              simpa using hopen
            · show q.speaking = none
              simpa using hs
          obtain ⟨n, c1⟩ := w.others i fun ho => CallState.noConfusion ((k.offered ho).1.symm.trans queued)
          have m2 : Moving (e.withdraw p).st ((e.withdraw p).leaveRoster i true) i .lifted :=
            (w.inPlace.moving i).unroster (.inl (by rw [c1]; exact queued))
          obtain ⟨n', c2⟩ := (e.withdraw p).leaveRoster_call i true i
          obtain ⟨isOpen2, silent2, free2⟩ := ready.sheds ((w.sheds p).trans (m2.sheds p))
          rw [Event.grant_fst]
          refine m2.speak ?_ isOpen2 ((m2.sheds p).offered.elim (fun h => h.trans w.panel) id) silent2 free2
          rw [c2, c1]
          exact fun hf => CallState.noConfusion (queued.symm.trans hf)

/-! ### Holding, retrieving, disconnecting (R73, R74, R77) -/

/-- A call turns from being spoken to to being held, or back. -/
theorem Event.InPlace.turn {st : CallState} {l : LoopIx} {b b' : Bool} {u : Position → Position} (k : e.InPlace)
    (was : (e.st.view.call i).marks = .seated p l b)
    (speaking : (e.st.view.panel p).speaking = if b then some l else none)
    (dm : ((e.st.view.call i).enter st).marks = .seated p l b') (target : ((e.st.view.call i).enter st).target = none)
    (lists : st = .held ∨ st = .talking) (idle : b' = true → (e.st.view.panel p).offered = none)
    (effect : ∀ q, (u q).panel = { q.panel with speaking := if b' then some l else none }) :
    ((e.toState i st).updPos p u).InPlace ∧ (((e.toState i st).updPos p u).st.view.call i).state = st := by
  have live : (e.st.view.call i).state ≠ .free := fun h => by
    unfold Stance.marks at was
    rw [h] at was
    cases congrArg Marks.seat was
  have view : ((e.toState i st).updPos p u).st.view = (e.st.view.setCall i ((e.st.view.call i).enter st)).setPanel p
      { e.st.view.panel p with speaking := if b' then some l else none } := by
    rw [Event.updPos_panel (fun a => { a with speaking := if b' then some l else none }) effect, Event.toState_view live]
    rfl
  have sound : ((e.st.view.call i).enter st).Sound := by
    refine ⟨fun _ => target, fun hs => ?_, nofun⟩
    rcases lists with rfl | rfl <;> simp [Stance.enter] at hs
  have placed := (k i).turn was speaking dm sound idle live target
  rw [← view] at placed
  refine ⟨fun _ => placed.anyone, ?_⟩
  rw [view]
  exact congrArg Stance.state ((View.call_setCall ..).trans (if_pos rfl))

/-- A call on a loop that changes to a state with a loop stays on it. -/
theorem Stance.enter_seated {d : Stance} {l : LoopIx} {b : Bool} (h : d.marks = .seated p l b) :
    (d.enter .held).marks = .seated p l false ∧ (d.enter .talking).marks = .seated p l true := by
  have seat := congrArg Marks.seat h
  obtain ⟨-, hp, hl, -⟩ := Stance.seat_iff.mp seat
  unfold Marks.seated
  rw [← hp, ← hl]
  exact ⟨rfl, rfl⟩

theorem Event.InPlace.ownHold (k : e.InPlace) : (e.ownHold p).1.InPlace := by
  unfold Event.ownHold
  extract_lets q
  split
  · exact k
  · split
    · exact k
    · split
      · exact k
      · next i hi =>
        extract_lets c e1 e2 e3 length
        split
        · exact k
        · next hc =>
          obtain ⟨l, speaking, marks⟩ := k.spokenTo hi
          have v1 : e1.st.view = e.st.view := e.issueList_view _ _
          have k1 : e1.InPlace := k.alike v1
          rw [← v1] at speaking marks
          obtain ⟨k3, c3⟩ : e3.InPlace ∧ (e3.st.view.call i).state = .held :=
            k1.turn (b := true) (b' := false) marks speaking (Stance.enter_seated marks).1 rfl (.inl rfl) nofun fun _ => rfl
          exact .ite (fun _ => k3) fun _ => ((k3.moving i).startTimer (k := .hold1) c3).inPlace

theorem Event.InPlace.ownRetrieve {loop : Byte} (k : e.InPlace) : (e.ownRetrieve p loop).1.InPlace := by
  unfold Event.ownRetrieve
  extract_lets q e1
  split
  · exact k
  · split
    · exact k
    · split
      · next hlt =>
        extract_lets l
        split
        · exact k
        · next hs =>
          split
          · exact k
          · next i hi =>
            extract_lets c e2 e3
            unfold State.heldOn at hi
            obtain ⟨here, held⟩ := Option.filter_eq_some_iff.mp hi
            have state : (e.st.view.call i).state = .held := beq_iff_eq.mp held
            have silent : (e.st.view.panel p).speaking = none := by
              show q.speaking = none
              simpa using hs
            obtain ⟨⟨b, seat⟩, -⟩ := (k i).loops.loops p l i here
            rw [Function.comp_apply, View.marks_of (by decide)] at seat
            have w : Withdrawn e e1 p := k.withdraw p
            obtain ⟨n, c1⟩ := w.others i fun ho => CallState.noConfusion ((k.offered ho).1.symm.trans state)
            have v2 : e2.st.view = e1.st.view := e1.issueList_view _ _
            have marks : (e2.st.view.call i).marks = .seated p l false := by
              obtain ⟨-, hp, hl, -⟩ := Stance.seat_iff.mp seat
              rw [v2, c1]
              unfold Stance.marks Marks.seated
              dsimp only
              rw [state, hp, hl]
            refine (Event.InPlace.turn (b' := true) (w.inPlace.alike v2) marks ?_ (Stance.enter_seated marks).2 rfl
              (.inr rfl) (fun _ => by rw [v2]; exact w.panel) fun _ => rfl).1
            rw [v2]
            exact (w.sheds p).speaking.elim (fun h => h.trans silent) id
      · exact k

theorem Event.InPlace.ownDisconnect (k : e.InPlace) : (e.ownDisconnect p).1.InPlace := by
  unfold Event.ownDisconnect
  extract_lets q
  split
  · exact k
  · split
    · exact k
    · split
      · exact k
      · exact k.close

/-! ### Extending, transferring, cancelling (R86 to R93) -/

theorem State.extendTarget_kind {s : State} {c : Call} {number : Word} {k : Circuit}
    (h : s.extendTarget c number = .ok k) : s.view.kind k = .extension := by
  unfold State.extendTarget at h
  split at h
  · cases h
  · split at h
    · cases h
    · next hk =>
      split at h
      · cases h
      · split at h
        · cases h
        · cases h
          exact State.lookup_kind hk

/-- A call with its EXTEND in flight. -/
theorem Event.inFlight_view {cell : CellIx} {order : Word} (e : Event) :
    (e.inFlight p i cell order).1.st.view = e.st.view.setCall i { e.st.view.call i with extend := some order } := by
  unfold Event.inFlight
  dsimp only
  rw [Event.updCall_stance (fun d => { d with extend := some order }) fun _ => rfl, Event.updPos_same]
  exact fun _ => rfl

theorem Event.InPlace.screened {t : Target} {cell : CellIx} {order : Word} (k : e.InPlace)
    (h : (e.st.view.call i).state = .talking) (ext : e.st.view.kind t.circuit = .extension) :
    (e.screened p i t cell order).1.InPlace := by
  unfold Event.screened
  extract_lets c hd e1 e2
  split
  · exact k
  · have v1 : e1.st.view = e.st.view := e.issueList_view _ _
    have live : (e.st.view.call i).state ≠ .free := by rw [h]; exact CallState.noConfusion
    have v2 : (e2.updCall i fun c => { c with target := some t }).st.view = e.st.view.setCall i
        { (e.st.view.call i).enter .consultRinging with target := some t } := by
      rw [← v1]
      exact Event.toState_updCall_view (fun d => { d with target := some t }) (fun _ => rfl) (by rw [v1]; exact live)
    have v3 := (e2.updCall i fun c => { c with target := some t }).inFlight_view (p := p) (i := i) (cell := cell)
      (order := order)
    rw [v2, View.setCall_setCall, View.call_setCall, if_pos rfl] at v3
    refine ((k.moving i).revise v3 ?_ (fun _ => ⟨fun hs => ?_, fun _ => nofun, nofun⟩) (fun _ => live) fun _ x hx => ?_).inPlace
    · rw [View.marks_of (by decide), if_neg (by decide)]
      unfold Stance.marks
      rw [h]
      rfl
    · simp [Stance.enter, rosterState] at hs
    · cases hx
      exact .inr ext

theorem Event.InPlace.direct {t : Target} {cell : CellIx} {order : Word} (k : e.InPlace)
    (h : (e.st.view.call i).state = .talking) (ext : e.st.view.kind t.circuit = .extension) :
    (e.direct p i t cell order).1.InPlace := by
  have live : (e.st.view.call i).state ≠ .free := by rw [h]; exact CallState.noConfusion
  unfold Event.direct
  extract_lets c hd e1 e2
  split
  · split
    · next room =>
      have v1 : e1.st.view = e.st.view := e.issueList_view _ _
      have m1 : Moving e.st e1 i .none := (k.moving i).alike v1
      obtain ⟨camp, kind⟩ := e1.leaveLoop_lists i
      rw [v1] at camp kind
      refine ((m1.leaveLoop (.inl (by rw [v1]; exact h))).camp ?_ ?_ ?_).inPlace
      · rw [Event.leaveLoop_call, v1]; exact live
      · rw [camp]; exact State.camp_space room
      · rw [kind]; exact ext
    · exact k
  · have v2 : e2.st.view = e.st.view := e.issueList_view _ _
    have v3 : (e2.updCall i fun c => { c with target := some t }).st.view =
        e.st.view.setCall i { e.st.view.call i with target := some t } := by
      rw [Event.updCall_stance (fun d => { d with target := some t }) fun _ => rfl, v2]
    have v4 := (e2.updCall i fun c => { c with target := some t }).inFlight_view (p := p) (i := i) (cell := cell)
      (order := order)
    rw [v3, View.setCall_setCall, View.call_setCall, if_pos rfl] at v4
    refine ((k.moving i).revise v4 ?_ (fun _ => ⟨fun hs => ?_, fun _ => nofun, ((k i).sound i (.inr rfl)).timer⟩)
      (fun _ => live) fun _ x hx => ?_).inPlace
    · rw [View.marks_of (by decide), if_neg (by decide)]
      unfold Stance.marks
      dsimp only
      rw [h]
    · simp [rosterState, h] at hs
    · cases hx
      exact .inr ext

theorem Event.InPlace.ownExtend {number : Word} {mode : Byte} {cell : CellIx} {order : Word} (k : e.InPlace) :
    (e.ownExtend p number mode cell order).1.InPlace := by
  unfold Event.ownExtend
  extract_lets q e1
  have v1 : e1.st.view = e.st.view := by
    show (match q.speakingCall with | some i => _ | none => e : Event).st.view = _
    split
    · exact Event.updCall_same fun _ => rfl
    · rfl
  have k1 : e1.InPlace := k.alike v1
  split
  · exact k1
  · split
    · exact k1
    · split
      · exact k1
      · next i hi =>
        extract_lets c
        split
        · exact k1
        · next hc =>
          have state : (e1.st.view.call i).state = .talking := not_not.mp hc
          split
          · exact k1
          · next x hx =>
            extract_lets t
            split
            · exact k1.screened state (State.extendTarget_kind hx)
            · exact k1.direct state (State.extendTarget_kind hx)

theorem Event.InPlace.ownTransfer (k : e.InPlace) : (e.ownTransfer p).1.InPlace := by
  unfold Event.ownTransfer
  extract_lets q
  split
  · exact k
  · split
    · exact k
    · next i hi =>
      extract_lets c e1
      have m := k.moving i
      split
      · next h =>
        split
        · have v1 : e1.st.view = e.st.view := e.issueList_view _ _
          have state : (e.st.view.call i).state = .consultRinging := h
          have target := ((k i).sound i (.inr rfl)).present (.inl state)
          refine (((m.alike v1).leaveLoop (.inr (.inr (.inl (by rw [v1]; exact state))))).toRinging ?_ ?_).inPlace
          · rw [Event.leaveLoop_call, v1, state]; exact CallState.noConfusion
          · rw [Event.leaveLoop_call, v1]; exact target
        · exact k
      · exact m.issueAll.deliver.inPlace
      · split
        · exact k
        · exact k
      · exact k

theorem Event.InPlace.ownCancel (k : e.InPlace) : (e.ownCancel p).1.InPlace := by
  unfold Event.ownCancel
  extract_lets q
  split
  · exact k
  · split
    · exact k
    · next i hi =>
      extract_lets c
      have m := k.moving i
      split
      · next h => exact (m.issueAll.endConsult (.inl (by rw [Event.issueAll_view]; exact h))).inPlace
      · next h => exact (m.issueAll.endConsult (.inr (by rw [Event.issueAll_view]; exact h))).inPlace
      · next h =>
        split
        · exact (m.issueAll.endDirect (by rw [Event.issueAll_view]; exact h)).inPlace
        · exact k
      · exact k

/-! ### Every order (R160 to R164) -/

theorem Event.InPlace.ownSetNight {x : Option Pos} {part mode : Byte} (k : e.InPlace) :
    (e.ownSetNight x part mode).1.InPlace := by
  unfold Event.ownSetNight
  split
  · exact k
  · split
    · exact k
    · split
      · exact k
      · split
        · split
          · exact k
          · exact k.goNight.inPlace
        · split
          · exact k.goDay
          · exact k

theorem Event.InPlace.own {c : CellIx} {kind : OrderKind} (k : e.InPlace) : (e.own c kind).1.InPlace := by
  unfold Event.own
  extract_lets m who b
  clear_value who
  have apply : (e.ownApply who c).1.InPlace := by
    unfold Event.ownApply
    split
    · exact k
    · exact k.alike rfl
  cases who with
  | none =>
    cases kind with
    | setNightK => exact k.ownSetNight
    | applyPlanK => exact apply
    | _ => exact k
  | some p =>
    cases kind with
    | setNightK => exact k.ownSetNight
    | applyPlanK => exact apply
    | openK => exact k.ownOpen
    | closeK => exact k.ownClose
    | pauseK => exact k.ownPause
    | answerK => exact k.ownAnswer
    | pickK => exact k.ownPick
    | holdK => exact k.ownHold
    | retrieveK => exact k.ownRetrieve
    | disconnectK => exact k.ownDisconnect
    | extendK => exact k.ownExtend
    | transferK => exact k.ownTransfer
    | cancelK => exact k.ownCancel

theorem State.view_answer (s : State) (c : CellIx) (code : ResultCode) (d : Word) : (s.answer c code d).view = s.view := rfl

theorem Event.InPlace.order {c : CellIx} (k : e.InPlace) : (e.order c).InPlace := by
  unfold Event.order
  split
  · exact k.alike (State.view_answer ..)
  · next kind _ =>
    split
    · exact k.alike (State.view_answer ..)
    · have k1 := k.own (c := c) (kind := kind)
      unfold Event.settleOrder
      split
      · exact k1.alike (State.view_answer ..)
      · exact k1

end Chain

end Sys2Proof.Machine
end

section
/-! SUPPORT. The activation of a plan keeps rosters, panels and camp lists in order (R105, R113, R121, R81): the checks hold
circuits in use to their kind and OPEN positions to their partition (R111). -/

namespace Sys2Proof.Machine

/-! ### What the checks say (R111) -/

theorem firstFailure_none {cs : List (Option Nat)} {n : Nat} (h : firstFailure n cs = none) : ∀ c ∈ cs, c = none := by
  induction cs generalizing n with
  | nil => exact fun _ hc => absurd hc List.not_mem_nil
  | cons c cs ih =>
    cases c with
    | none => exact List.forall_mem_cons.mpr ⟨rfl, ih h⟩
    | some i => cases h

theorem firstIndex_none {n : Nat} {fails : Fin n → Bool} (h : firstIndex n fails = none) (i : Fin n) :
    fails i = false := by
  unfold firstIndex at h
  exact Bool.eq_false_iff.mpr (List.find?_eq_none.mp (Option.map_eq_none_iff.mp h) i (List.mem_finRange i))

/-- A plan that passes leaves OPEN positions where they are, and circuits of live calls what they are. -/
theorem State.valid_spec {s : State} {pl : Plan} (h : s.invalid pl = none) :
    (∀ p, (s.pos p).isOpen = true → pl.partitionOf p = (s.pos p).partition) ∧
      ∀ k, s.holds k = true → (pl.directory.get k).kind = (s.dir k).kind := by
  have checks := firstFailure_none h
  have check3 : s.check3 pl = none := checks _ (by simp [State.checks])
  have check7 : s.check7 pl = none := checks _ (by simp [State.checks])
  refine ⟨fun p hp => ?_, fun k hk => ?_⟩
  · simpa [hp] using firstIndex_none check3 p
  · have := firstIndex_none check7 k
    rw [hk, Bool.and_true, Bool.or_eq_false_iff, bne_eq_false_iff_eq] at this
    exact this.1

/-! ### The steps up to the camp lists -/

/-- The steps before the positions are seated leave the plan, the positions and the kinds of the circuits as they are. -/
structure Seated (s t : State) : Prop where
  plan : t.plan = s.plan
  pos : ∀ p, (t.pos p).core = (s.pos p).core
  kind : ∀ k, (t.lamp k).kind = (s.lamp k).kind

theorem Seated.of_keeps {s t : State} (k : Keeps s t) : Seated s t := by
  have core := k.core
  unfold State.core at core
  simp only [Prod.mk.injEq] at core
  exact ⟨core.2.2.2.2.2.1, k.pos, fun c => congrArg Prod.fst (k.lamp c)⟩

theorem Seated.refl (s : State) : Seated s s := .of_keeps (.refl s)

theorem Seated.trans {s t u : State} (h : Seated s t) (k : Seated t u) : Seated s u :=
  ⟨k.plan.trans h.plan, fun p => (k.pos p).trans (h.pos p), fun c => (k.kind c).trans (h.kind c)⟩

section Chain

variable {s : State} {e : Event}

theorem Event.foldl_seated {α : Type} {g : Event → α → Event} (h : ∀ e x, Seated e.st (g e x).st) (xs : List α) :
    Seated e.st (xs.foldl g e).st := by
  induction xs generalizing e with
  | nil => exact .refl _
  | cons x xs ih => exact (h e x).trans ih

theorem Event.setLine_seated (e : Event) (k : Circuit) (x : LineState) : Seated e.st (e.setLine k x).st where
  plan := rfl
  pos := fun _ => rfl
  kind := fun c => by
    unfold Event.setLine Event.updLamp Event.upd
    dsimp only
    rw [State.lamp_setLamp]
    split
    · next h => rw [← h]
    · rfl

/-- An order whose shelf is no longer fitted leaves its call where it is (R14, R138). -/
theorem Event.outcome_unfitted_keeps (e : Event) (x : Entry) : Keeps e.st (e.outcome x (.lost true)).st := by
  unfold Event.outcome
  extract_lets e1
  have k1 : Keeps e.st e1.st := by
    have lamp : e.ringLamp x.order (.lost true) = e := by cases x.order <;> rfl
    show Keeps e.st ((e.ringLamp x.order (.lost true)).ringDone x.order).st
    rw [lamp]
    unfold Event.ringDone
    split
    · exact Event.ring_keeps (.refl _)
    · exact .refl _
  split
  · next i _ =>
    unfold Event.slotOutcome
    extract_lets e2
    have k2 : Keeps e.st e2.st := Event.updCall_keeps k1 fun _ => rfl
    split
    · exact k2
    · exact Event.freeIfDone_keeps (Event.ite_keeps (fun _ => Event.handoverFailed_keeps k2) fun _ => k2)
    · have stays : e2.liveOutcome i x.order (.lost true) = e2 := by cases x.order <;> rfl
      rw [stays]
      exact k2
  · exact k1

theorem Event.updLink_seated (e : Event) (l : LinkIx) (f : Link → Link) : Seated e.st (e.updLink l f).st :=
  ⟨rfl, fun _ => rfl, fun _ => rfl⟩

theorem Event.updLink_view (e : Event) (l : LinkIx) (f : Link → Link) : (e.updLink l f).st.view = e.st.view := rfl

theorem State.view_setCadence (s : State) (c : Cadence) : (s.setCadence c).view = s.view := rfl

theorem State.setCadence_seated (s : State) (c : Cadence) : Seated s (s.setCadence c) := ⟨rfl, fun _ => rfl, fun _ => rfl⟩

theorem Event.refitLinks_seated (e : Event) (pl : Plan) : Seated e.st (e.refitLinks pl).st := by
  unfold Event.refitLinks
  refine Event.foldl_seated (fun e l => ?_) _
  have unfit : Seated e.st (Event.unfitCircuits pl e l).st := by
    unfold Event.unfitCircuits
    refine Event.foldl_seated (fun e a => ?_) _
    split
    · exact Event.foldl_seated (fun e k => e.setLine_seated k .unknown) _
    · exact .refl _
  unfold Event.refitLink
  extract_lets failed e1
  have k1 : Seated e.st e1.st := unfit.trans (Event.updLink_seated _ _ _)
  exact k1.trans (Event.foldl_seated (fun e x => .of_keeps (e.outcome_unfitted_keeps x)) _)

theorem Event.InPlace.refitLinks {pl : Plan} (k : e.InPlace) : (e.refitLinks pl).InPlace := by
  unfold Event.refitLinks
  refine .foldl (fun e l k => ?_) _ k
  have unfit : (Event.unfitCircuits pl e l).InPlace := by
    unfold Event.unfitCircuits
    exact .foldl (fun _ _ k => .ite (fun _ => .foldl (fun _ _ k => k.setLine) _ k) fun _ => k) _ k
  unfold Event.refitLink
  extract_lets failed e1
  have k1 : e1.InPlace := unfit.alike (Event.updLink_view _ _ _)
  exact .foldl (fun _ _ k => k.outcome) _ k1

theorem Event.settlePartition_view (old : Part → PartPlan) (pl : Plan) (e : Event) (q : Part) :
    (Event.settlePartition old pl e q).st.view = e.st.view ∧ Seated e.st (Event.settlePartition old pl e q).st := by
  unfold Event.settlePartition
  extract_lets was now e1 reseed e2
  have k1 : e1.st.view = e.st.view ∧ Seated e.st e1.st := by
    show (if _ then e else _ : Event).st.view = _ ∧ Seated _ (if _ then e else _ : Event).st
    split
    · exact ⟨rfl, .refl _⟩
    · exact ⟨Event.updPrt_same fun _ => rfl, rfl, fun _ => rfl, fun _ => rfl⟩
  have k2 : e2.st.view = e1.st.view ∧ Seated e1.st e2.st := by
    show (if _ then _ else e1 : Event).st.view = _ ∧ Seated _ (if _ then _ else e1 : Event).st
    split
    · have v2 : (e1.updPrt q fun q => { q with est := q.est.seed now.seedRange now.seedSpacing }).st.view = e1.st.view :=
        Event.updPrt_same fun _ => rfl
      exact ⟨v2, rfl, fun _ => rfl, fun _ => rfl⟩
    · exact ⟨rfl, .refl _⟩
  have k3 : e2.st.view = e.st.view ∧ Seated e.st e2.st := ⟨k2.1.trans k1.1, k1.2.trans k2.2⟩
  split
  · exact k3
  · exact k3

theorem State.lamp_takeDirectory (s : State) (pl : Plan) (c : Circuit) : (s.takeDirectory pl).lamp c =
    { s.lamp c with kind := (pl.directory.get c).kind, partition := lampPartition (pl.directory.get c),
                    number := lampNumber (pl.directory.get c) } := Table.get_zip _ _ _ c

/-- The plan takes its directory; circuits of live calls keep their kind. -/
theorem State.InPlace.takeDirectory {pl : Plan} (k : s.InPlace) (h : s.invalid pl = none) :
    (s.takeDirectory pl).InPlace := by
  intro i
  have camp : (s.takeDirectory pl).view.camp = s.view.camp :=
    funext fun c => by
      show ((s.takeDirectory pl).lamp c).camp = _
      rw [State.lamp_takeDirectory]
      rfl
  obtain ⟨rosters, offers, loops, camps, sound, serving, extension⟩ := k i
  refine ⟨rosters, offers, loops, ?_, sound, serving, fun j t hj ht => ?_⟩
  · rw [camp]; exact camps
  · have old : (s.dir t.circuit).kind = .extension := extension j t hj ht
    have holds : s.holds t.circuit = true := by
      unfold State.holds
      refine List.any_eq_true.mpr ⟨j, List.mem_finRange j, ?_⟩
      have live : (s.call j).live = true := bne_iff_ne.mpr hj
      have targets : (s.call j).targets t.circuit = true := by
        unfold Call.targets
        rw [show (s.call j).target = some t from ht]
        exact beq_self_eq_true _
      dsimp only
      rw [live, targets, Bool.or_true, Bool.true_or, Bool.and_true]
    exact ((State.valid_spec h).2 t.circuit holds).trans old

/-- A camp list that is not empty is an extension's, so none is dropped. -/
theorem State.dropCamps_view (k : s.InPlace) (kinds : ∀ c, (s.lamp c).kind = (s.dir c).kind) :
    s.dropCamps.view = s.view := by
  refine State.view_congr (fun _ => rfl) (fun _ => rfl) (fun _ => rfl) (fun c => ?_) rfl rfl
  have get : s.dropCamps.lamp c = if (s.lamp c).kind = .extension then s.lamp c else { s.lamp c with camp := [] } :=
    Table.get_map _ _ c
  rw [get]
  split
  · rfl
  · next hc =>
    refine (List.eq_nil_iff_forall_not_mem.mpr fun i hi => hc ?_).symm
    have hm := ((k i).camps.camped c i).mp hi
    rw [Function.comp_apply, View.marks_of (by decide), Stance.camp_iff] at hm
    obtain ⟨state, n, target⟩ := hm
    rw [kinds]
    exact (k i).extension i _ (by rw [state]; exact CallState.noConfusion) target

/-! ### The positions are seated (R81) -/

theorem Event.Closing.refl (k : e.InPlace) : e.Closing e := ⟨k, fun _ => ⟨rfl, id⟩⟩

theorem Event.Closing.closeMoved {f : Event} {pl : Plan} (h : e.Closing f) (ps : List Pos) :
    e.Closing (ps.foldl (Event.closeMoved pl) f) := by
  induction ps generalizing f with
  | nil => exact h
  | cons p ps ih =>
    refine ih ?_
    unfold Event.closeMoved
    dsimp only
    split
    · have k := h.inPlace.closePosition (p := p) (lost := (f.st.pos p).headset)
      exact ⟨k.inPlace, fun x => (h.stays x).trans (k.stays x)⟩
    · exact h

theorem State.InPlace.seatPositions {pl : Plan} (k : s.InPlace)
    (h : ∀ p, (s.view.panel p).isOpen = true → pl.partitionOf p = (s.view.panel p).partition) :
    (s.seatPositions pl).InPlace := by
  intro i
  have panel : ∀ p, (s.seatPositions pl).view.panel p = { s.view.panel p with partition := pl.partitionOf p } := fun p => by
    refine (congrArg Position.panel (Table.get_zip _ _ _ p)).trans ?_
    rw [Table.get_make]
    rfl
  obtain ⟨rosters, offers, loops, camps, sound, serving, extension⟩ := k i
  refine ⟨rosters, offers.panels (fun p => ?_) fun p hp => ?_,
    loops.panels (fun p => ?_) (fun p => ?_) fun p _ _ _ => ?_, camps, sound, serving, extension⟩ <;> rw [panel]
  obtain ⟨j, hj⟩ := Option.ne_none_iff_exists'.mp hp
  exact ⟨h p (offers.offers p j hj).2.1, rfl, id⟩

theorem State.InPlace.count (k : s.InPlace) : s.count.InPlace := by
  unfold State.count
  dsimp only
  split
  · intro i
    obtain ⟨rosters, offers, loops, camps, sound, serving, extension⟩ := k i
    exact ⟨rosters, offers, loops, camps, sound, fun _ _ => rfl, extension⟩
  · exact k.alike rfl

theorem Event.InPlace.upd {f : State → State} (h : (f e.st).InPlace) : (e.upd f).InPlace := h

/-- The plan is in force, its circuits have its kinds, and it leaves OPEN positions where they are. -/
structure Event.Ready (e : Event) (pl : Plan) : Prop where
  inPlace : e.InPlace
  plan : e.st.plan = some pl
  kind : ∀ c, (e.st.lamp c).kind = (pl.directory.get c).kind
  seats : ∀ p, (e.st.view.panel p).isOpen = true → pl.partitionOf p = (e.st.view.panel p).partition

section Ready

variable {pl : Plan}

theorem Event.Ready.next {f : Event} (h : e.Ready pl) (k : f.InPlace) (hs : Seated e.st f.st) : f.Ready pl := by
  refine ⟨k, hs.plan.trans h.plan, fun c => (hs.kind c).trans (h.kind c), fun p hp => ?_⟩
  have core := hs.pos p
  unfold Position.core at core
  simp only [Prod.mk.injEq] at core
  obtain ⟨isOpen, partition, -⟩ := core
  exact (h.seats p (isOpen.symm.trans hp)).trans partition.symm

theorem Event.InPlace.ready (k : e.InPlace) (h : e.st.invalid pl = none) : (e.upd fun s => s.takeDirectory pl).Ready pl where
  inPlace := State.InPlace.takeDirectory (s := e.st) k h
  plan := rfl
  kind := fun c => congrArg Lamp.kind (e.st.lamp_takeDirectory pl c)
  seats := (State.valid_spec h).1

theorem Event.Ready.refitLinks (h : e.Ready pl) : (e.refitLinks pl).Ready pl :=
  h.next h.inPlace.refitLinks (e.refitLinks_seated pl)

theorem Event.Ready.setCadence (h : e.Ready pl) (c : State → Cadence) :
    (e.upd fun s => s.setCadence (c s)).Ready pl :=
  h.next (h.inPlace.alike (State.view_setCadence _ _)) (State.setCadence_seated _ _)

theorem Event.Ready.settlePartitions (h : e.Ready pl) (old : Part → PartPlan) (qs : List Part) :
    (qs.foldl (Event.settlePartition old pl) e).Ready pl := by
  induction qs generalizing e with
  | nil => exact h
  | cons q qs ih =>
    obtain ⟨view, seated⟩ := Event.settlePartition_view old pl e q
    exact ih (h.next (h.inPlace.alike view) seated)

theorem Event.Ready.dropCamps (h : e.Ready pl) :
    (e.upd State.dropCamps).InPlace ∧ ∀ p, ((e.upd State.dropCamps).st.view.panel p).isOpen = true →
      pl.partitionOf p = ((e.upd State.dropCamps).st.view.panel p).partition := by
  have view : (e.upd State.dropCamps).st.view = e.st.view := State.dropCamps_view h.inPlace fun c => by
    unfold State.dir
    rw [h.plan, h.kind]
  rw [view]
  exact ⟨h.inPlace.alike view, h.seats⟩

theorem Event.InPlace.seat (k : e.InPlace)
    (seats : ∀ p, (e.st.view.panel p).isOpen = true → pl.partitionOf p = (e.st.view.panel p).partition) :
    (e.seat pl).InPlace := by
  obtain ⟨inPlace, stays⟩ := (Event.Closing.refl k).closeMoved (pl := pl) (List.finRange 8)
  have seated := State.InPlace.seatPositions (pl := pl) inPlace
    fun p hp => (seats p ((stays p).isOpen hp)).trans (stays p).partition.symm
  have k1 := Event.InPlace.upd (f := fun s => s.seatPositions pl) seated
  unfold Event.seat
  exact k1.alike (Event.fillRoles_view _)

theorem Event.InPlace.activate (k : e.InPlace) (h : e.st.invalid pl = none) : (e.activate pl).InPlace := by
  have settled := ((k.ready h).refitLinks.setCadence fun s => s.cadence.activate pl.source pl.period).settlePartitions
    e.st.part (List.finRange 4)
  obtain ⟨dropped, seats⟩ := settled.dropCamps
  have tested := (dropped.seat seats).foldl (g := Event.alertTest) (fun e q k => k.alike (e.alertTest_view q)) (List.finRange 4)
  unfold Event.activate
  exact Event.InPlace.upd (f := State.count) (State.InPlace.count tested)

end Ready

end Chain

end Sys2Proof.Machine
end

section
/-! SUPPORT. Every command keeps rosters, panels and camp lists in order; and O60. -/

namespace Sys2Proof.Machine

/-! ### Engines without calls: resets, bypass (R166 to R169) -/

/-- Where no call is and every list is empty, all is in order. -/
theorem View.Placed.blank {v : View} {i : Slot} (call : ∀ j, (v.call j).state = .free ∧ (v.call j).timer = none)
    (roster : ∀ q, v.roster q = []) (idle : ∀ p, (v.panel p).offered = none)
    (empty : ∀ p l, (v.panel p).loops.get l = none) (silent : ∀ p, (v.panel p).speaking = none)
    (camp : ∀ k, v.camp k = []) : v.Placed i .none := by
  have marks : ∀ j, (v.call j).marks = .away := fun j => by
    unfold Stance.marks
    rw [(call j).1]
  refine ⟨?_, ?_, ?_, ?_, fun j _ => ?_, fun j hj => absurd (call j).1 hj, fun j t hj => absurd (call j).1 hj⟩
  · refine ⟨fun q => ?_, fun q => ?_, fun q j => ?_, fun q n j hj => ?_, fun q => ?_⟩
    · rw [roster]; exact List.nodup_nil
    · rw [roster]; exact Nat.zero_le _
    · rw [roster, View.marks_none, Function.comp_apply, marks]
      exact iff_of_false List.not_mem_nil fun ⟨_, _, h⟩ => nomatch h
    · rw [roster] at hj; cases hj
    · rw [roster]; exact List.Pairwise.nil
  · refine ⟨fun p j hj => ?_, fun j x hx => ?_⟩
    · rw [idle] at hj; cases hj
    · rw [View.marks_none, Function.comp_apply, marks] at hx; cases hx
  · refine ⟨fun p l j hj => ?_, fun j x hx => ?_, fun p l => ?_⟩
    · rw [empty] at hj; cases hj
    · rw [View.marks_none, Function.comp_apply, marks] at hx; cases hx
    · rw [silent]
      refine iff_of_false nofun ?_
      rintro ⟨j, hj, -⟩
      rw [empty] at hj
      cases hj
  · refine ⟨fun k => ?_, fun k => ?_, fun k j => ?_⟩
    · rw [camp]; exact List.nodup_nil
    · rw [camp]; exact Nat.zero_le _
    · rw [camp, View.marks_none, Function.comp_apply, marks]
      exact iff_of_false List.not_mem_nil nofun
  · exact .of_state (.inr (.inr (call j).1)) (fun h => CallState.noConfusion ((call j).1.symm.trans h)) (call j).2

theorem State.InPlace.blank {s : State} (call : ∀ j, (s.call j).state = .free ∧ (s.call j).timer = none)
    (parts : s.parts = .fill .blank) (positions : s.positions = .fill .blank) (lamps : s.lamps = .fill .blank) :
    s.InPlace := by
  have panel : ∀ p, s.view.panel p = Position.blank.panel := fun p => by
    show (s.positions.get p).panel = _
    rw [positions, Table.get_fill]
  refine fun i => .blank call (fun q => ?_) (fun p => ?_) (fun p l => ?_) (fun p => ?_) fun k => ?_
  · show (s.parts.get q).roster = []
    rw [parts, Table.get_fill]
    rfl
  · rw [panel]; rfl
  · rw [panel]; exact Table.get_fill _ _
  · rw [panel]; rfl
  · show (s.lamps.get k).camp = []
    rw [lamps, Table.get_fill]
    rfl

theorem State.view_resetEnds (s : State) : s.resetEnds.view = s.view := by
  unfold State.resetEnds
  split <;> rfl

theorem State.powerOn_inPlace (s : State) (active : Bool) : (s.powerOn active).InPlace := by
  refine State.InPlace.alike (State.InPlace.blank (fun j => ?_) rfl rfl rfl) (State.view_resetEnds _)
  exact ⟨congrArg Call.state (Table.get_fill _ j), congrArg Call.timer (Table.get_fill _ j)⟩

theorem State.softReset_inPlace (s : State) : s.softReset.InPlace := by
  have call : ∀ c : Call, ((if c.live then { Call.blank with endReason := some .reset } else Call.blank : Call).state,
      (if c.live then { Call.blank with endReason := some .reset } else Call.blank : Call).timer) = (.free, none) :=
    fun c => by split <;> rfl
  refine State.InPlace.alike (State.InPlace.blank (fun j => ?_) rfl rfl rfl) (State.view_resetEnds _)
  obtain ⟨state, timer⟩ := Prod.mk.inj (call (s.calls.get j))
  exact ⟨(congrArg Call.state (Table.get_map _ s.calls j)).trans state,
    (congrArg Call.timer (Table.get_map _ s.calls j)).trans timer⟩

/-- The slots of a list are freed at bypass entry; the others stay (R22). -/
theorem Event.bypassSlots_view (is : List Slot) (e : Event) : ∃ f, (is.foldl Event.bypassSlot e).st.view =
    { e.st.view with call := f } ∧ ∀ j, (f j = e.st.view.call j ∨ (f j).state = .free ∧ (f j).timer = none) ∧
      (j ∈ is → (f j).state = .free) := by
  induction is generalizing e with
  | nil => exact ⟨_, rfl, fun j => ⟨.inl rfl, fun h => absurd h List.not_mem_nil⟩⟩
  | cons i is ih =>
    obtain ⟨f, hf, spec⟩ := ih (e.bypassSlot i)
    have one : (e.bypassSlot i).st.view = e.st.view ∧ (e.st.view.call i).state = .free ∨
        ∃ d : Stance, d.state = .free ∧ d.timer = none ∧ (e.bypassSlot i).st.view = e.st.view.setCall i d := by
      unfold Event.bypassSlot
      dsimp only
      split
      · next h => exact .inl ⟨rfl, h⟩
      · exact .inr ⟨((e.st.call i).bypass e.st.seconds).stance, rfl, rfl, State.view_setCall e.st i _⟩
    refine ⟨f, ?_, fun j => ?_⟩
    · refine hf.trans ?_
      rcases one with ⟨h, -⟩ | ⟨d, -, -, h⟩
      · rw [h]
      · rw [h]; rfl
    · obtain ⟨kept, freed⟩ := spec j
      have self : (e.bypassSlot i).st.view.call j = e.st.view.call j ∧ (j = i → (e.st.view.call j).state = .free) ∨
          ((e.bypassSlot i).st.view.call j).state = .free ∧ ((e.bypassSlot i).st.view.call j).timer = none := by
        rcases one with ⟨h, hi⟩ | ⟨d, ds, dt, h⟩
        · exact .inl ⟨by rw [h], fun hj => hj ▸ hi⟩
        · rw [h, View.call_setCall]
          split
          · exact .inr ⟨ds, dt⟩
          · next hj => exact .inl ⟨rfl, fun h => absurd h hj⟩
      rcases self with ⟨same, free⟩ | ⟨state, timer⟩
      · rw [same] at kept
        refine ⟨kept, fun hj => ?_⟩
        rcases List.mem_cons.mp hj with hj | hj
        · rcases kept with h | h
          · rw [h]; exact free hj
          · exact h.1
        · exact freed hj
      · refine ⟨.inr ?_, fun _ => ?_⟩ <;> rcases kept with h | h
        · rw [h]; exact ⟨state, timer⟩
        · exact h
        · rw [h]; exact state
        · exact h.1

theorem State.view_links (s : State) (f : Table Link 4) : State.view { s with links := f } = s.view := rfl

theorem State.view_abandonOrders (s : State) : s.abandonOrders.view = s.view := by
  have answers : ∀ (cs : List CellIx) (u : State), (cs.foldl (fun s c => s.answer c .notServing 0) u).view = u.view := by
    intro cs
    induction cs with
    | nil => exact fun _ => rfl
    | cons c cs ih => exact fun u => (ih _).trans (State.view_answer u c .notServing 0)
  exact answers s.taker.cells s

theorem State.view_bypassed (s : State) : (State.raise { s with engine := .bypassed } .bypass).view =
    { s.view with engine := .bypassed } := rfl

theorem State.InPlace.bypassEntry {s : State} (k : s.InPlace) : s.bypassEntry.InPlace := by
  unfold State.bypassEntry
  extract_lets t
  have kt : t.InPlace := k.alike rfl
  split
  · exact kt
  · refine State.InPlace.alike (s := (Event.begin t).enterBypass.st) ?_ (Event.commit_view _)
    unfold Event.enterBypass
    extract_lets e1 e2 e3 e4 e5 e6
    obtain ⟨f, v4, spec⟩ := Event.bypassSlots_view allSlots e3
    have v6 : e6.st.view = { e3.st.view with call := f } := by
      have v5 : e5.st.view = e4.st.view := State.view_links e4.st (e4.st.links.map Link.bypass)
      exact ((State.view_abandonOrders e5.st).trans v5).trans v4
    intro i
    have panel : ∀ p, e3.st.view.panel p = ((t.pos p).bypass).panel := fun p =>
      congrArg Position.panel (Table.get_map _ t.positions p)
    refine (?_ : View.Placed _ i .none)
    rw [show (e6.upd fun s => State.raise { s with engine := .bypassed } .bypass).st.view = _ from
      State.view_bypassed e6.st, v6]
    refine .blank (fun j => ?_) (fun q => ?_) (fun p => ?_) (fun p l => ?_) (fun p => ?_) fun c => ?_
    · obtain ⟨kept, freed⟩ := spec j
      have free : (f j).state = .free := freed (List.mem_finRange j)
      refine ⟨free, ?_⟩
      rcases kept with h | h
      · cases ht : (f j).timer with
        | none => rfl
        | some x =>
          obtain ⟨kind, d⟩ := x
          have same : f j = t.view.call j := h
          rw [same] at ht free
          have := ((kt j).sound j (.inr rfl)).timer kind d ht
          rw [free] at this
          cases kind <;> cases this
      · exact h.2
    · exact congrArg Partition.roster (Table.get_map _ t.parts q)
    · exact (congrArg Panel.offered (panel p)).trans rfl
    · exact (congrArg (fun a => a.loops.get l) (panel p)).trans (Table.get_fill _ _)
    · exact (congrArg Panel.speaking (panel p)).trans rfl
    · exact congrArg Lamp.camp (Table.get_map _ t.lamps c)

theorem State.InPlace.bypassExit {s : State} (k : s.InPlace) : s.bypassExit.InPlace := by
  unfold State.bypassExit
  extract_lets t
  have kt : t.InPlace := k.alike rfl
  split
  · next h =>
    have free : ∀ j, (t.view.call j).state = .free := fun j => by
      by_contra hj
      have := (kt j).serving j hj
      rw [show t.view.engine = .bypassed from h] at this
      cases this
    intro i
    refine (?_ : State.InPlace t.discardPlan).alike
      ((Event.raiseRecords_view ((Event.begin t).upd State.discardPlan |>.upd State.retie)).trans
        (State.view_retie t.discardPlan)) i
    intro i
    have panel : ∀ p, t.discardPlan.view.panel p = { t.view.panel p with partition := none } := fun p =>
      congrArg Position.panel (Table.get_map _ t.positions p)
    have roster : t.discardPlan.view.roster = t.view.roster :=
      funext fun q => (congrArg Partition.roster (Table.get_map _ t.parts q)).trans rfl
    have camp : t.discardPlan.view.camp = t.view.camp :=
      funext fun c => (congrArg Lamp.camp (Table.get_map _ t.lamps c)).trans rfl
    obtain ⟨rosters, offers, loops, camps, sound, -, -⟩ := kt i
    refine ⟨?_, offers.panels (fun p => ?_) fun p hp => ?_, loops.panels (fun p => ?_) (fun p => ?_) fun p _ _ _ => ?_, ?_,
      sound, fun j hj => absurd (free j) hj, fun j _ hj => absurd (free j) hj⟩
    · rw [roster]; exact rosters
    · rw [panel]
    · obtain ⟨j, hj⟩ := Option.ne_none_iff_exists'.mp hp
      obtain ⟨⟨q, hq, -⟩, -⟩ := offers.offers p j hj
      rw [Function.comp_apply, View.marks_none, Stance.offer_iff, free] at hq
      cases hq.1
    · rw [panel]
    · rw [panel]
    · rw [panel]
    · rw [camp]; exact camps
  · exact kt

/-! ### Links (R131, R133) -/

section Commands

variable {s : State}

theorem State.InPlace.event {body : Event → Event} (k : s.InPlace) (h : ∀ e, e.InPlace → (body e).InPlace) :
    (runEvent s body).InPlace := runEvent_inPlace k (h _)

theorem State.InPlace.failHeads (l : LinkIx) (n : Nat) (k : s.InPlace) : (s.failHeads l n).InPlace := by
  induction n generalizing s with
  | zero => exact k
  | succ n ih =>
    unfold State.failHeads
    split
    · split
      · exact k
      · exact ih (k.event fun e k => (k.alike (Event.updLink_view _ _ _)).outcome)
    · exact k

theorem State.view_setLink (s : State) (l : LinkIx) (x : Link) : (s.setLink l x).view = s.view := rfl

theorem State.InPlace.sendFrame (l : LinkIx) (k : s.InPlace) : (s.sendFrame l).InPlace := by
  have heads : ∀ n, (s.failHeads l n).InPlace := fun n => k.failHeads l n
  unfold State.sendFrame
  generalize 1024 = n
  extract_lets x
  split
  · split
    · exact k.alike (State.view_setLink _ _ _)
    · exact (heads n).alike (State.view_setLink _ _ _)
  · exact k

theorem State.InPlace.handOn {l : LinkIx} {a : Addr} (rs : List Report) (orders : List (List Nat)) (k : s.InPlace)
    (slots : s.freeListed) : (s.handOn l a rs orders).InPlace := by
  induction rs generalizing s orders with
  | nil => exact k
  | cons r rs ih =>
    unfold State.handOn
    exact ih _ (runEvent_inPlace k fun k => k.report slots) ((runEvent_events fun _ k => k.report).slots slots)

theorem State.InPlace.goodAnswer {l : LinkIx} {f : Frame} {ans : Answer} {orders : List (List Nat)} (k : s.InPlace)
    (slots : s.freeListed) : (s.goodAnswer l f ans orders).InPlace := by
  unfold State.goodAnswer
  split
  · exact k.event fun _ k => k.answered.outcome
  · exact k
  · extract_lets t
    have kt : t.InPlace := (k.event fun _ k => k.answered).handOn _ _
      ((runEvent_events fun _ k => k.answered).slots slots)
    exact kt.alike (State.view_setLink _ _ _)

theorem State.InPlace.shelfAnswer {l : LinkIx} {bytes : List Byte} {orders : List (List Nat)} (k : s.InPlace)
    (slots : s.freeListed) : (s.shelfAnswer l bytes orders).InPlace := by
  unfold State.shelfAnswer
  split
  · exact k
  · extract_lets t
    have kt : t.InPlace := k.alike (State.view_setLink _ _ _)
    split
    · exact kt.event fun _ k => k.deadFrame
    · split
      · exact kt.goodAnswer ((s.endFrame_events l).slots slots)
      · exact kt.event fun _ k => k.miss

theorem State.InPlace.windowClose {l : LinkIx} {order : List Nat} (k : s.InPlace) : (s.windowClose l order).InPlace := by
  unfold State.windowClose
  split
  · exact k
  · extract_lets t
    have kt : t.InPlace := k.alike (State.view_setLink _ _ _)
    split
    · exact kt.event fun _ k => k.deadFrame
    · exact kt.event fun _ k => k.miss

/-! ### Timers (R4) and the Cadence Unit (R151, R152) -/

theorem State.InPlace.timerExpiry {i : Slot} {x : TimerKind} {owner : Event → Slot → Event} (k : s.InPlace)
    (h : ∀ e : Event, e.InPlace → (e.st.view.call i).state = timerState x → (owner e i).InPlace) :
    (s.timerExpiry i x owner).InPlace := by
  unfold State.timerExpiry
  split
  · next hd =>
    refine runEvent_inPlace k fun k => h _ k ?_
    unfold State.timerDue at hd
    split at hd
    · next kind d ht =>
      rw [Bool.and_eq_true, beq_iff_eq] at hd
      exact ((k i).sound i (.inr rfl)).timer x d (hd.1 ▸ ht)
    · cases hd
  · exact k

theorem State.InPlace.waitHeld {i : Slot} (k : s.InPlace) : (s.waitHeld i).InPlace := by
  unfold State.waitHeld
  dsimp only
  split
  · split
    · exact k.event fun _ k => k.alike (Event.updCall_same fun _ => rfl)
    · exact k
  · exact k

theorem State.InPlace.counterAdvance {q : Part} (k : s.InPlace) : (s.counterAdvance q).InPlace := by
  unfold State.counterAdvance
  dsimp only
  split
  · refine k.event fun e k => ?_
    have k1 : (e.updPrt q fun r => { r with est := r.est.advance }).InPlace := k.alike (Event.updPrt_same fun _ => rfl)
    exact .ite (fun _ => k1) fun _ => k1.alike rfl
  · exact k

theorem State.InPlace.marked (k : s.InPlace) : (runEvent s Event.mark).InPlace :=
  k.event fun _ k => .foldl (fun _ _ k => k.markCall) _ k

theorem State.InPlace.periodExpiry (k : s.InPlace) : s.periodExpiry.InPlace := by
  unfold State.periodExpiry
  split
  · exact (k.alike (State.view_setCadence _ _)).marked
  · exact k

theorem State.InPlace.cadenceEdge (k : s.InPlace) : s.cadenceEdge.InPlace := by
  have k1 := k.alike (s.view_setCadence s.cadence.edge)
  unfold State.cadenceEdge
  split
  · exact k
  · exact k1.marked
  · exact (k1.alike (State.view_raise _ _)).marked

theorem State.InPlace.lossExpiry (k : s.InPlace) : s.lossExpiry.InPlace := by
  unfold State.lossExpiry
  split
  · exact ((k.alike (s.view_setCadence s.cadence.lose)).alike (State.view_raise _ _)).marked
  · exact k

/-! ### Sweeps, the completion of an apply, host writes -/

theorem State.InPlace.sweepStep (k : s.InPlace) : s.sweepStep.InPlace := by
  have k1 : s.refuseStales.InPlace := k.alike (by rw [s.refuseStales_only.shape]; rfl)
  unfold State.sweepStep
  dsimp only
  split
  · split
    · exact k1.event fun e k => (k.alike (f := e.upd fun s => s.takeCell _) rfl).order
    · exact k1.alike rfl
  · exact k

theorem State.InPlace.sweepFor {x : Option OrderKind} (k : s.InPlace) : (s.sweepFor x).InPlace := by
  unfold State.sweepFor
  split
  · exact k.sweepStep
  · exact k

theorem State.view_endApply (s : State) (c : CellIx) (code : ResultCode) (d : Word) :
    (s.endApply c code d).view = s.view := rfl

theorem State.InPlace.completeApply (k : s.InPlace) : s.completeApply.InPlace := by
  unfold State.completeApply
  split
  · exact k
  · split
    · exact k.alike (State.view_endApply _ _ _ _)
    · next h => exact runEvent_inPlace k fun k => (k.activate h).alike (State.view_endApply _ _ _ _)

theorem State.InPlace.startSweep (k : s.InPlace) : s.startSweep.InPlace := by
  unfold State.startSweep
  split
  · exact k
  · exact k.alike rfl

theorem State.InPlace.writeByte {a : Nat} {v : Byte} (k : s.InPlace) : (s.writeByte a v).InPlace := by
  unfold State.writeByte
  split
  · exact k.alike (State.view_raise _ _)
  · exact k.alike rfl
  · unfold State.writeControl
    have k1 : (s.setNotice (v.getLsbD 2)).InPlace := k.alike rfl
    split
    · exact s.softReset_inPlace
    · dsimp only
      split
      · exact k1.startSweep
      · exact k1
  · exact k.alike rfl
  · exact k.alike rfl
  · exact k

theorem State.InPlace.hostWrite {a : Nat} {word : Bool} {v : Word} (k : s.InPlace) : (s.hostWrite a word v).InPlace := by
  unfold State.hostWrite
  dsimp only
  split
  · exact k.writeByte.writeByte
  · exact k.writeByte

theorem State.InPlace.recordRead {a : Nat} {word : Bool} (k : s.InPlace) : (s.recordRead a word).InPlace := by
  unfold State.recordRead
  dsimp only
  split
  · exact k.alike rfl
  · exact k.alike rfl

/-! ### Every command -/

theorem State.InPlace.next {t u : State} (h : (.next u : Out) = .next t) (k : u.InPlace) : t.InPlace := by
  cases h
  exact k

theorem exec_inPlace {c : Instr} {t : State} (h : exec c s = .next t) (k : s.InPlace) (slots : s.freeListed) :
    t.InPlace := by
  cases c with
  | powerOnReset active => exact .next h (s.powerOn_inPlace active)
  | softReset => exact .next h s.softReset_inPlace
  | attention on => exact .next h (State.InPlace.startSweep (s := s.setNotice on) (k.alike rfl))
  | noticeEnable | summaryClear | maskWrite | releaseHoldEnd | engineSecondsTick => exact .next h (k.alike rfl)
  | hostWrite => exact .next h k.hostWrite
  | recordRead => exact .next h k.recordRead
  | bypassEntry => exact .next h k.bypassEntry
  | bypassExit => exact .next h k.bypassExit
  | sweepTimerExpiry => exact .next h (State.InPlace.startSweep (s := s.setTaker _) (k.alike rfl))
  | sweepStep => exact .next h k.sweepStep
  | unknownKindOrder | openOrder | closeOrder | pauseOrder | answerOrder | pickOrder | holdOrder | retrieveOrder
  | disconnectOrder | extendOrder | transferOrder | cancelOrder | setNightOrder | applyPlanOrder =>
    exact .next h k.sweepFor
  | applyCompletion => exact .next h k.completeApply
  | sendFrame l => exact .next h (k.sendFrame l)
  | pollDeadline => exact .next h (k.alike (State.view_setLink _ _ _))
  | shelfAnswer => exact .next h (k.shelfAnswer slots)
  | responseWindowClose => exact .next h k.windowClose
  | offerExpiry => exact .next h (k.timerExpiry fun _ k hs => k.offerExpired hs)
  | waitExpiry => exact .next h (k.timerExpiry fun _ k hs => k.waitExpired hs)
  | waitDeadlineHeld => exact .next h k.waitHeld
  | announceExpiry => exact .next h (k.timerExpiry fun _ k hs => k.announceOver hs)
  | hold1Expiry => exact .next h (k.timerExpiry fun _ k hs => k.hold1Over hs)
  | hold2Expiry => exact .next h (k.timerExpiry fun _ k hs => k.hold2Over hs)
  | campExpiry => exact .next h (k.timerExpiry fun _ k hs => k.campOver hs)
  | counterAdvance => exact .next h k.counterAdvance
  | periodTimerExpiry => exact .next h k.periodExpiry
  | cadenceEdge => exact .next h k.cadenceEdge
  | lossTimerExpiry => exact .next h k.lossExpiry

end Commands

/-- Settles O60. -/
theorem stepsKeepCallsInTheirPlaces : Obligations.StepsKeepCallsInTheirPlaces := by
  intro s t h hs
  obtain ⟨slots, placed⟩ := (placesInv_iff 0).mp h
  have k : s.InPlace := fun _ => placed.anyone
  refine (placesInv_iff 0).mpr ⟨stepsKeepTheFreeList s t slots hs, ?_⟩
  unfold step at hs
  split at hs
  · cases hs
    exact placed
  · next rest _ => exact exec_inPlace (s := { s with pending := rest }) hs (k.alike rfl) slots 0

end Sys2Proof.Machine
end

section
/-! SUPPORT. What the distribution arbiter, the passes of estimates and the raising of revisions make of the records, said
exactly (R11, R35 to R38, R57, R69). -/

namespace Sys2Proof.Machine

/-! ### One offer (R38) -/

/-- A QUEUED call's record when it is offered to a position. -/
def Call.offeredTo (c : Call) (x : Pos) (now : Seconds) (timeout : Nat) : Call :=
  { c.enter .offered now with position := some x, timer := some (.offer, now + BitVec.ofNat 32 timeout) }

/-- What an offer of call `i` to position `x` makes of the call. -/
def State.offering (t : State) (i : Slot) (x : Pos) : Call :=
  (t.call i).offeredTo x t.seconds (t.part (t.call i).partition).offerTimeout

theorem Event.offer_eq (e : Event) {i : Slot} (x : Pos) (live : (e.st.call i).state ≠ .free) :
    (e.offer i x).st = (e.st.setCall i (e.st.offering i x)).setPos x { e.st.pos x with offered := some i } := by
  simp only [Event.offer, Event.startTimer, Event.updCall, Event.updPos, Event.upd, Event.rosterMoved,
    Event.toState_st e live, State.call_setCall_self, State.setCall_seconds, State.pos_setCall, State.setCall_setCall]
  rfl

theorem Event.offer_gained (e : Event) (i : Slot) (x : Pos) : (e.offer i x).gained = e.gained := by
  have moved : (e.toState i .offered).gained = e.gained := by
    by_cases hf : (e.st.call i).state = .free
    · rw [Event.toState_free e hf]
    · rw [Event.toState_eq e hf]
  exact moved

/-! ### Offers under way (R35 to R38) -/

/-- From state `u`, some of its QUEUED calls have been offered to positions of `take`, one to each, and nothing else has
happened. -/
structure Dealt (take : Pos → Prop) (u v : State) : Prop where
  panel : ∀ x, v.pos x = { u.pos x with offered := (v.pos x).offered }
  apart : ∀ x, ¬ take x → v.pos x = u.pos x
  offered : ∀ x i, take x → (v.pos x).offered = some i → (u.call i).state = .queued ∧ v.call i = u.offering i x
  waits : ∀ i, (∀ x, take x → (v.pos x).offered ≠ some i) → v.call i = u.call i
  rest : v = { u with calls := v.calls, positions := v.positions }

section Dealt

variable {take : Pos → Prop} {u v : State}

theorem Dealt.refl (free : ∀ x, take x → (u.pos x).offered = none) : Dealt take u u where
  panel := fun _ => rfl
  apart := fun _ _ => rfl
  offered := fun x i hx hi => by rw [free x hx] at hi; cases hi
  waits := fun _ _ => rfl
  rest := rfl

theorem Dealt.seconds (k : Dealt take u v) : v.seconds = u.seconds := by rw [k.rest]
theorem Dealt.part (k : Dealt take u v) (q : Part) : v.part q = u.part q := by rw [k.rest]; rfl
theorem Dealt.prt (k : Dealt take u v) (q : Part) : v.prt q = u.prt q := by rw [k.rest]; rfl
theorem Dealt.regs (k : Dealt take u v) : v.regs = u.regs := by rw [k.rest]

/-- A call that is QUEUED now has not been offered. -/
theorem Dealt.unoffered (k : Dealt take u v) {i : Slot} (hq : (v.call i).state = .queued) {x : Pos} (hx : take x) :
    (v.pos x).offered ≠ some i := fun ho => by
  rw [(k.offered x i hx ho).2] at hq
  cases hq

theorem Dealt.queued (k : Dealt take u v) {i : Slot} (hq : (v.call i).state = .queued) : v.call i = u.call i :=
  k.waits i fun _ => k.unoffered hq

/-- A position that is available now was so before. -/
theorem Dealt.available (k : Dealt take u v) (free : ∀ x, take x → (u.pos x).offered = none) {q : Part} {x : Pos}
    (h : v.availableIn q x = true) : v.pos x = u.pos x := by
  by_cases hx : take x
  · rw [k.panel, State.availableIn_offered h, ← free x hx]
  · exact k.apart x hx

theorem State.availableIn_congr {t w : State} {q : Part} {x : Pos} (h : t.pos x = w.pos x) :
    t.availableIn q x = w.availableIn q x := by
  unfold State.availableIn
  rw [h]

theorem Dealt.offer {e : Event} {i : Slot} {x : Pos} (k : Dealt take u e.st) (hq : (e.st.call i).state = .queued)
    (hx : take x) (ho : (e.st.pos x).offered = none) : Dealt take u (e.offer i x).st := by
  have was := k.queued hq
  have made : e.st.offering i x = u.offering i x := by
    unfold State.offering
    rw [was, k.seconds, k.part]
  have live : (e.st.call i).state ≠ .free := by rw [hq]; decide
  have pos : ∀ y, (e.offer i x).st.pos y =
      if x = y then { e.st.pos y with offered := some i } else e.st.pos y := fun y => by
    rw [e.offer_eq x live, State.pos_setPos]
    split
    · next h => subst h; rfl
    · rfl
  have call : ∀ j, (e.offer i x).st.call j = if i = j then u.offering i x else e.st.call j := fun j => by
    rw [e.offer_eq x live, State.call_setPos, State.call_setCall, made]
  constructor
  case panel =>
    intro y
    rw [pos]
    split
    · next h => subst h; rw [k.panel]
    · exact k.panel y
  case apart =>
    intro y hy
    rw [pos, if_neg fun h : x = y => hy (h ▸ hx)]
    exact k.apart y hy
  case offered =>
    intro y j hy hj
    rw [pos] at hj
    rw [call]
    split at hj
    · next h =>
      subst h
      cases hj
      rw [if_pos rfl, ← was]
      exact ⟨hq, rfl⟩
    · rw [if_neg fun h : i = j => k.unoffered hq hy (h ▸ hj)]
      exact k.offered y j hy hj
  case waits =>
    intro j hj
    have ne : i ≠ j := fun h => hj x hx (by rw [pos, if_pos rfl, h])
    rw [call, if_neg ne]
    refine k.waits j fun y hy hn => hj y hy ?_
    rw [pos]
    split
    · next h => subst h; rw [ho] at hn; cases hn
    · exact hn
  case rest => rw [e.offer_eq x live, k.rest]; rfl

/-- What the arbiter of partition `q` needs to know of the positions it may offer to. -/
structure DealsIn (take : Pos → Prop) (u : State) (q : Part) : Prop where
  free : ∀ x, take x → (u.pos x).offered = none
  all : ∀ x, u.availableIn q x = true → take x

theorem Dealt.offerIn {e : Event} {q : Part} {i : Slot} {x : Pos} (ht : DealsIn take u q) (k : Dealt take u e.st)
    (hq : (e.st.call i).state = .queued) (hx : e.st.availableIn q x = true) : Dealt take u (e.offer i x).st := by
  refine k.offer hq (ht.all x ?_) (State.availableIn_offered hx)
  rw [← State.availableIn_congr (k.available ht.free hx)]
  exact hx

theorem Dealt.stepA {e : Event} {q : Part} {i : Slot} (ht : DealsIn take u q) (k : Dealt take u e.st) :
    Dealt take u (e.stepA q i).st := by
  unfold Event.stepA
  dsimp only
  split
  · split
    · next h => exact k.offerIn ht h.1 h.2.2
    · exact k
  · exact k

theorem Dealt.foldl {α : Type} {f : Event → α → Event} (h : ∀ e x, Dealt take u e.st → Dealt take u (f e x).st)
    (xs : List α) {e : Event} (k : Dealt take u e.st) : Dealt take u (xs.foldl f e).st := by
  induction xs generalizing e with
  | nil => exact k
  | cons x xs ih => exact ih (h e x k)

theorem Dealt.stepB {e : Event} {q : Part} {n : Nat} (ht : DealsIn take u q) (k : Dealt take u e.st) :
    Dealt take u (e.stepB q n).st := by
  induction n generalizing e with
  | zero => exact k
  | succ n ih =>
    unfold Event.stepB
    split
    · next hi hx => exact ih (k.offerIn ht (State.firstQueued_queued hi) (State.longestIdle_available hx))
    · exact k

theorem Dealt.arbiter {e : Event} {q : Part} (ht : DealsIn take u q) (k : Dealt take u e.st) :
    Dealt take u (e.arbiter q).st := (Dealt.foldl (fun _ _ k => k.stepA ht) _ k).stepB ht

theorem State.takes_available (u : State) (q : Part) : DealsIn (fun x => (u.pos x).available = true) u q where
  free := fun _ => Position.available_offered
  all := fun x h => by
    unfold State.availableIn at h
    rw [Bool.and_eq_true] at h
    exact h.2

theorem State.takes_availableIn (u : State) (q : Part) : DealsIn (fun x => u.availableIn q x = true) u q where
  free := fun _ => State.availableIn_offered
  all := fun _ h => h

theorem Dealt.runArbiters {e : Event} (k : Dealt (fun x => (u.pos x).available = true) u e.st) :
    Dealt (fun x => (u.pos x).available = true) u e.runArbiters.st :=
  Dealt.foldl (fun e q k => by
    split
    · exact k.arbiter (u.takes_available q)
    · exact k) _ k

end Dealt

/-! ### Passes of estimates, revisions (R11, R57) -/

/-- From one state to the other estimates have been written, tied slots set and revisions raised. -/
structure Revised (v t : State) : Prop where
  call : ∀ j, ∃ y, (t.call j).bare = { (v.call j).bare with estimate := y }
  offered : ∀ x, (t.pos x).offered = (v.pos x).offered
  idle : ∀ x, (t.pos x).idleSince = (v.pos x).idleSince
  alert : t.flag .alert = v.flag .alert

theorem Revised.refl (v : State) : Revised v v := ⟨fun _ => ⟨_, rfl⟩, fun _ => rfl, fun _ => rfl, rfl⟩

theorem Revised.trans {u v t : State} (h : Revised u v) (k : Revised v t) : Revised u t where
  call := fun j => by
    obtain ⟨x, hx⟩ := h.call j
    obtain ⟨y, hy⟩ := k.call j
    exact ⟨y, by rw [hy, hx]⟩
  offered := fun x => (k.offered x).trans (h.offered x)
  idle := fun x => (k.idle x).trans (h.idle x)
  alert := k.alert.trans h.alert

theorem Event.passMember_revised (e : Event) (q : Part) (i : Slot) : Revised e.st (e.passMember q i).st := by
  unfold Event.passMember
  dsimp only
  split
  · exact { Revised.refl e.st with
      call := fun j => by
        obtain rfl | h := eq_or_ne i j
        · exact ⟨_, (congrArg Call.bare (State.call_setCall_self _ _ _)).trans rfl⟩
        · exact ⟨_, (congrArg Call.bare (State.call_setCall_ne _ _ h)).trans rfl⟩ }
  · exact .refl _

theorem Event.foldl_revised {α : Type} {f : Event → α → Event} (h : ∀ e x, Revised e.st (f e x).st) (xs : List α)
    (e : Event) : Revised e.st (xs.foldl f e).st := by
  induction xs generalizing e with
  | nil => exact .refl _
  | cons x xs ih => exact (h e x).trans (ih _)

theorem Event.pass_revised (e : Event) (q : Part) : Revised e.st (e.pass q).st :=
  (Event.foldl_revised (fun e i => e.passMember_revised q i) _ e).trans
    ⟨fun _ => ⟨_, rfl⟩, fun _ => rfl, fun _ => rfl, rfl⟩

theorem Event.runPasses_revised (e : Event) : Revised e.st e.runPasses.st :=
  Event.foldl_revised (fun e q => by
    split
    · exact e.pass_revised q
    · exact .refl _) _ e

theorem State.flag_raise_apart (t : State) {f g : Flag} (h : f.bit &&& g.bit = 0#8) : (t.raise f).flag g = t.flag g := by
  unfold State.flag
  rw [State.raise_summary, BitVec.and_or_distrib_right, h, BitVec.or_zero]

theorem State.bumpBoard_revised (t : State) (n : Nat) : Revised t (t.bumpBoard n) := by
  unfold State.bumpBoard
  split
  · exact .refl t
  · exact ⟨fun _ => ⟨_, rfl⟩, fun _ => rfl, fun _ => rfl, State.flag_raise_apart _ (by decide)⟩

theorem Event.commit_revised (e : Event) : Revised e.st e.commit := by
  have raised : Revised e.st (e.upd State.retie).raiseRecords :=
    { call := fun j => by
        rw [Event.call_raiseRecords]
        split <;> exact ⟨_, rfl⟩
      offered := fun x => by
        rw [Event.pos_raiseRecords]
        split <;> rfl
      idle := fun x => by
        rw [Event.pos_raiseRecords]
        split <;> rfl
      alert := rfl }
  exact raised.trans (State.bumpBoard_revised _ _)

/-! ### The tests of availability (R68, R69) -/

/-- The position has become available in this event. -/
def Event.freed (e : Event) (x : Pos) : Bool := (e.st.pos x).available && !(e.start.pos x).available

/-- What some tests of availability make of an event: positions of `xs` that have become available get idle-since now
and their partitions gain. -/
structure Tested (xs : List Pos) (e f : Event) : Prop where
  rest : f.st = { e.st with positions := f.st.positions }
  start : f.start = e.start
  panel : ∀ x, f.st.pos x = { e.st.pos x with idleSince := (f.st.pos x).idleSince }
  idle : ∀ x, f.st.pos x = e.st.pos x ∨ e.freed x = true ∧ (f.st.pos x).idleSince = e.st.seconds
  gained : ∀ q, f.gained.get q = true ↔
    e.gained.get q = true ∨ ∃ x ∈ xs, e.freed x = true ∧ (e.st.pos x).partition = some q

theorem Position.available_idle (q : Position) (n : Seconds) : { q with idleSince := n }.available = q.available := rfl

theorem Position.eq_idle {q r : Position} {n : Seconds} (h : r = { q with idleSince := n }) :
    r = { q with idleSince := r.idleSince } := by rw [h]

section Tested

variable {xs : List Pos} {e f : Event}

theorem Tested.freed (k : Tested xs e f) (x : Pos) : f.freed x = e.freed x := by
  unfold Event.freed
  rw [k.panel, Position.available_idle, k.start]

theorem Tested.available (k : Tested xs e f) (x : Pos) : (f.st.pos x).available = (e.st.pos x).available := by
  rw [k.panel, Position.available_idle]

theorem Tested.call (k : Tested xs e f) (i : Slot) : f.st.call i = e.st.call i := by rw [k.rest]; rfl
theorem Tested.offering (k : Tested xs e f) (i : Slot) (x : Pos) : f.st.offering i x = e.st.offering i x := by
  rw [k.rest]; rfl
theorem Tested.regs (k : Tested xs e f) : f.st.regs = e.st.regs := by rw [k.rest]

theorem Tested.refl (e : Event) : Tested [] e e where
  rest := rfl
  start := rfl
  panel := fun _ => rfl
  idle := fun _ => .inl rfl
  gained := fun q => by simp

end Tested

theorem Event.testPosition_tested (e : Event) (x : Pos) : Tested [x] e (e.testPosition x) := by
  have cond : ((e.st.pos x).available && !(e.start.pos x).available) = e.freed x := rfl
  unfold Event.testPosition
  rw [cond]
  split
  · next hx =>
    dsimp only
    generalize hf : (if e.keepIdle.contains x then e
      else e.upd fun s => s.setPos x { s.pos x with idleSince := s.seconds }) = f
    have stamped : Tested [] e f := by
      rw [← hf]
      split
      · exact .refl e
      · exact { Tested.refl e with
          rest := rfl
          panel := fun y => by
            obtain rfl | h := eq_or_ne x y
            · exact Position.eq_idle (State.pos_setPos_self _ _ _)
            · exact Position.eq_idle (n := (e.st.pos y).idleSince) (State.pos_setPos_ne _ _ h)
          idle := fun y => by
            obtain rfl | h := eq_or_ne x y
            · exact .inr ⟨hx, congrArg Position.idleSince (State.pos_setPos_self _ _ _)⟩
            · exact .inl (State.pos_setPos_ne _ _ h) }
    have same : (f.st.pos x).partition = (e.st.pos x).partition := by rw [stamped.panel]
    rw [same]
    split
    · next q hq =>
      exact { stamped with
        gained := fun r => by
          show (f.gained.set q true).get r = true ↔ _
          rw [Table.get_set]
          obtain rfl | h := eq_or_ne q r
          · simp [hq, hx]
          · simpa [hq, h] using stamped.gained r }
    · next hq => exact { stamped with gained := fun r => by simpa [hq] using stamped.gained r }
  · next hx => exact { Tested.refl e with gained := fun r => by simp [hx] }

theorem Tested.trans {xs ys : List Pos} {e f g : Event} (h : Tested xs e f) (k : Tested ys f g) :
    Tested (xs ++ ys) e g where
  rest := by rw [k.rest, h.rest]
  start := k.start.trans h.start
  panel := fun x => by rw [k.panel, h.panel]
  idle := fun x => by
    have seconds : f.st.seconds = e.st.seconds := by rw [h.rest]
    rcases k.idle x with hk | ⟨hf, hk⟩
    · rw [hk]; exact h.idle x
    · exact .inr ⟨by rw [← h.freed]; exact hf, hk.trans seconds⟩
  gained := fun q => by
    have part : ∀ x, (f.st.pos x).partition = (e.st.pos x).partition := fun x => by rw [h.panel]
    simp only [k.gained, h.gained, h.freed, part, List.mem_append, or_and_right, exists_or, or_assoc]

theorem Event.testPositions_tested (e : Event) : Tested (List.finRange 8) e e.testPositions := by
  unfold Event.testPositions
  generalize List.finRange 8 = xs
  induction xs generalizing e with
  | nil => exact .refl e
  | cons x xs ih => exact (e.testPosition_tested x).trans (ih _)

theorem Event.finish_ends {e : Event} (hr : e.refusals = []) (hs : ∀ k ∈ e.serve, unserved e.st k) :
    let v := e.testPositions.runArbiters.st
    Dealt (fun x => (e.st.pos x).available = true) e.testPositions.st v ∧ Revised v e.finish ∧ Quiet v e.finish := by
  intro v
  have dealt : Dealt (fun x => (e.testPositions.st.pos x).available = true) e.testPositions.st v :=
    Dealt.runArbiters (.refl fun _ => Position.available_offered)
  simp only [e.testPositions_tested.available] at dealt
  refine ⟨dealt, ?_, ?_⟩
  · unfold Event.finish
    rw [Event.settle_unserved 80 hr hs]
    exact (Event.runPasses_revised _).trans (Event.commit_revised _)
  · unfold Event.finish
    rw [Event.settle_unserved 80 hr hs]
    exact Event.commit_quiet (Event.runPasses_quiet (.refl _))

/-- A call at the end of an event: as the event left it, but for its estimate, or offered to a position that was
available. -/
theorem Event.finish_call {e : Event} (hr : e.refusals = []) (hs : ∀ k ∈ e.serve, unserved e.st k) (i : Slot) :
    (∃ y, (e.finish.call i).bare = { (e.st.call i).bare with estimate := y }) ∨
      (e.st.call i).state = .queued ∧ ∃ x, (e.st.pos x).available = true ∧
        (e.finish.call i).bare = (e.st.offering i x).bare := by
  obtain ⟨dealt, revised, quiet⟩ := Event.finish_ends hr hs
  have tested := e.testPositions_tested
  by_cases ho : ∃ x, (e.st.pos x).available = true ∧ (e.testPositions.runArbiters.st.pos x).offered = some i
  · obtain ⟨x, hx, ho⟩ := ho
    obtain ⟨hq, hc⟩ := dealt.offered x i hx ho
    rw [tested.call] at hq
    rw [tested.offering] at hc
    refine .inr ⟨hq, x, hx, ?_⟩
    rw [quiet.call i (by rw [hc]; exact nofun), hc]
  · obtain ⟨y, hy⟩ := revised.call i
    rw [dealt.waits i fun x hx hn => ho ⟨x, hx, hn⟩, tested.call] at hy
    exact .inl ⟨y, hy⟩

theorem Event.finish_alert {e : Event} (hr : e.refusals = []) (hs : ∀ k ∈ e.serve, unserved e.st k) :
    e.finish.flag .alert = e.st.flag .alert := by
  obtain ⟨dealt, revised, -⟩ := Event.finish_ends hr hs
  rw [revised.alert]
  unfold State.flag
  rw [dealt.regs, e.testPositions_tested.regs]

end Sys2Proof.Machine
end

section
/-! SUPPORT. Leaving a roster without an answer and joining one as a NEW member, said exactly (R26, R27, R43, R53). -/

namespace Sys2Proof.Machine

@[simp] theorem State.part_setCall (t : State) (i : Slot) (c : Call) (q : Part) :
    (t.setCall i c).part q = t.part q := rfl
@[simp] theorem State.part_setPrt (t : State) (p : Part) (c : Partition) (q : Part) :
    (t.setPrt p c).part q = t.part q := rfl

/-! ### The alert mark and the Alert flag (R43) -/

theorem State.flag_alerted (t : State) (q : Part) :
    (t.alerted q).flag .alert = true ↔ t.flag .alert = true ∨ (t.prt q).alert = false ∧ t.alertDue q = true := by
  unfold State.alerted
  dsimp only
  cases ha : (t.prt q).alert <;> cases hd : t.alertDue q
  case false.true => simp [State.flag_raise]
  all_goals simp [State.flag]

theorem State.setCall_comm (t : State) {i j : Slot} (h : i ≠ j) (c d : Call) :
    (t.setCall i c).setCall j d = (t.setCall j d).setCall i c := by
  have tables : (t.calls.set i c).set j d = (t.calls.set j d).set i c := by
    refine Table.ext_get fun x => ?_
    simp only [Table.get_set]
    split
    · next hx => subst hx; rw [if_neg h]
    · rfl
  unfold State.setCall
  dsimp only
  rw [tables]

/-- A change of one record that has nothing to do with places may as well come before the places are written. -/
theorem State.numbered_setCall {f : Call → Call} (hf : ∀ c x, f { c with place := x } = { f c with place := x })
    (t : State) (n : Nat) (is : List Slot) (i : Slot) :
    (t.numbered n is).setCall i (f ((t.numbered n is).call i)) = (t.setCall i (f (t.call i))).numbered n is := by
  induction is generalizing t n with
  | nil => rfl
  | cons j is ih =>
    unfold State.numbered
    rw [ih]
    congr 1
    obtain rfl | h := eq_or_ne i j
    · rw [State.call_setCall_self, State.call_setCall_self, State.setCall_setCall, State.setCall_setCall, hf]
    · rw [State.call_setCall_ne _ _ h.symm, State.call_setCall_ne _ _ h, State.setCall_comm _ h]

theorem State.numbered_wait (t : State) (n : Nat) (is : List Slot) (i : Slot) (d : Seconds) :
    (t.numbered n is).setCall i
        { (t.numbered n is).call i with timer := some (.wait, d), waitDeadline := some d } =
      (t.setCall i { t.call i with timer := some (.wait, d), waitDeadline := some d }).numbered n is :=
  State.numbered_setCall (f := fun c => { c with timer := some (.wait, d), waitDeadline := some d }) (fun _ _ => rfl) ..

/-! ### Joining a roster as a NEW member (R26) -/

/-- The wait deadline of a NEW member that joins now (R26). -/
def State.waitFrom (t : State) (q : Part) : Option Seconds :=
  if (t.part q).waitLimit = 0 then none else some (t.seconds + BitVec.ofNat 32 (t.part q).waitLimit)

/-- The record of a call that joins as a NEW member, but for its place. -/
def Call.tail (c : Call) (now : Seconds) (wait : Option Seconds) : Call :=
  { c.enter .queued now with
    cls := .new, estimate := none, waitDeadline := wait, timer := wait.map fun d => (.wait, d) }

/-- The roster that the call joins at its tail. -/
def State.tailRoster (t : State) (i : Slot) : List Slot := (t.prt (t.call i).partition).roster ++ [i]

/-- The estimator of a roster that a member joins (R49). -/
def Partition.joinEst (q : Partition) : Estimator := if q.roster.isEmpty then q.est.begin else q.est

/-- A call at the tail of its partition's roster as a NEW member. -/
def State.tailed (t : State) (i : Slot) : State :=
  let q := (t.call i).partition
  let t' := t.setPrt q { t.prt q with est := (t.prt q).joinEst, roster := t.tailRoster i }
  let t' := t'.setCall i ((t.call i).tail t.seconds (t.waitFrom q))
  (t'.numbered 1 (t.tailRoster i)).alerted q

theorem Event.startWait (e : Event) (i : Slot) (n : Nat) :
    ((e.startTimer i .wait n).upd fun s =>
        s.setCall i { s.call i with waitDeadline := some (s.seconds + BitVec.ofNat 32 n) }) =
      { e with
        st := e.st.setCall i
          { e.st.call i with
            timer := some (.wait, e.st.seconds + BitVec.ofNat 32 n)
            waitDeadline := some (e.st.seconds + BitVec.ofNat 32 n) } } := by
  unfold Event.startTimer Event.upd
  dsimp only
  rw [State.call_setCall_self, State.setCall_setCall]
  rfl

theorem Event.enterRoster_new {e : Event} {i : Slot} (h : (e.st.call i).state ≠ .free) :
    e.enterRoster i .new =
      { e with
        st := e.st.tailed i, gained := e.gained.set (e.st.call i).partition true,
        passes := e.passes.set (e.st.call i).partition true, touched := e.touched.set (e.st.call i).partition true,
        changed := e.changed ++ [i], serve := e.serve ++ (e.st.call i).letsGo } := by
  have started : (if (e.st.prt (e.st.call i).partition).roster.isEmpty then
        e.updPrt (e.st.call i).partition fun q => { q with est := q.est.begin } else e) =
      { e with st := e.st.setPrt (e.st.call i).partition { e.st.prt (e.st.call i).partition with
        est := (e.st.prt (e.st.call i).partition).joinEst } } := by
    unfold Partition.joinEst
    split
    · rfl
    · unfold State.setPrt State.prt
      rw [Table.set_get]
  have part : ∀ x : State, x.plan = e.st.plan → x.part (e.st.call i).partition = e.st.part (e.st.call i).partition :=
    fun x hx => by unfold State.part; rw [hx]
  unfold Event.enterRoster
  dsimp only
  rw [if_neg h, started, Event.toState_eq _ (by exact h)]
  unfold Event.renumber
  rw [Event.renumberFrom_eq]
  dsimp only
  rw [part _ (by rw [State.numbered_plan]; rfl)]
  by_cases hw : (e.st.part (e.st.call i).partition).waitLimit = 0
  · rw [if_neg fun hx => hx.2 hw]
    unfold Event.rosterMoved Event.gain Event.updCall Event.updPrt Event.upd
    dsimp only
    simp only [State.prt_setCall, State.prt_setPrt_self, State.call_setPrt, State.call_setCall_self,
      State.setCall_setCall, State.setPrt_setPrt, Event.alertTest_eq]
    unfold State.tailed State.tailRoster
    dsimp only
    rw [show e.st.waitFrom _ = none from if_pos hw]
    rfl
  · rw [if_pos ⟨rfl, hw⟩, Event.startWait]
    dsimp only
    rw [State.numbered_wait]
    unfold Event.rosterMoved Event.gain Event.updCall Event.updPrt Event.upd
    dsimp only
    simp only [State.prt_setCall, State.prt_setPrt_self, State.call_setPrt, State.call_setCall_self,
      State.setCall_setCall, State.setPrt_setPrt, Event.alertTest_eq, State.numbered_seconds]
    unfold State.tailed State.tailRoster
    dsimp only
    rw [show e.st.waitFrom _ = some _ from if_neg hw]
    rfl

section Tailed

variable (t : State) (i : Slot)

@[simp] theorem State.pos_tailed (p : Pos) : (t.tailed i).pos p = t.pos p := by simp [State.tailed]
@[simp] theorem State.lamp_tailed (k : Circuit) : (t.tailed i).lamp k = t.lamp k := by simp [State.tailed]
@[simp] theorem State.link_tailed (l : LinkIx) : (t.tailed i).link l = t.link l := by simp [State.tailed]
@[simp] theorem State.tailed_rings : (t.tailed i).rings = t.rings := by simp [State.tailed]
@[simp] theorem State.tailed_free : (t.tailed i).free = t.free := by simp [State.tailed]

theorem State.call_tailed (j : Slot) : ∃ x, (t.tailed i).call j =
    { (if i = j then (t.call i).tail t.seconds (t.waitFrom (t.call i).partition) else t.call j) with place := x } := by
  unfold State.tailed
  dsimp only
  rw [State.call_alerted]
  obtain ⟨x, hx⟩ := State.call_numbered_place _ 1 (t.tailRoster i) j
  refine ⟨x, hx.trans ?_⟩
  rw [State.call_setCall]
  rfl

theorem State.call_tailed_out {j : Slot} (hj : j ∉ t.tailRoster i) : (t.tailed i).call j = t.call j := by
  have ne : i ≠ j := fun h => hj (h ▸ List.mem_append_right _ List.mem_cons_self)
  unfold State.tailed
  dsimp only
  rw [State.call_alerted, State.call_numbered_out _ _ _ hj, State.call_setCall_ne _ _ ne]
  rfl

theorem State.place_tailed (once : (t.prt (t.call i).partition).roster.Nodup)
    (absent : i ∉ (t.prt (t.call i).partition).roster) :
    ((t.tailed i).call i).place = some ((t.prt (t.call i).partition).roster.length + 1) := by
  have nodup : (t.tailRoster i).Nodup := List.nodup_append.mpr ⟨once, List.nodup_singleton i, fun a ha b hb => by
    rw [List.mem_singleton.mp hb]
    exact fun h => absent (h ▸ ha)⟩
  have last : (t.tailRoster i)[(t.prt (t.call i).partition).roster.length]? = some i := List.getElem?_concat_length
  unfold State.tailed
  dsimp only
  rw [State.call_alerted, State.call_numbered _ _ _ nodup last, Nat.add_comm 1]

theorem State.prt_tailed : (t.tailed i).prt (t.call i).partition =
    { t.prt (t.call i).partition with
      roster := t.tailRoster i, est := (t.prt (t.call i).partition).joinEst
      alert := decide ((t.part (t.call i).partition).alertLevel ≠ 0 ∧
        (t.part (t.call i).partition).alertLevel ≤ (t.tailRoster i).length) } := by
  unfold State.tailed
  dsimp only
  rw [State.prt_alerted, if_pos rfl]
  unfold State.alertDue
  simp only [State.prt_numbered, State.prt_setCall, State.prt_setPrt_self, State.part_numbered]
  rfl

theorem State.prt_tailed_ne {q : Part} (h : q ≠ (t.call i).partition) : (t.tailed i).prt q = t.prt q := by
  unfold State.tailed
  dsimp only
  rw [State.prt_alerted, if_neg h.symm, State.prt_numbered, State.prt_setCall, State.prt_setPrt_ne _ _ h.symm]

theorem State.numbered_regs (n : Nat) (is : List Slot) : (t.numbered n is).regs = t.regs := by rw [State.numbered_rest]

theorem State.flag_tailed : (t.tailed i).flag .alert = true ↔ t.flag .alert = true ∨
    (t.prt (t.call i).partition).alert = false ∧ ((t.tailed i).prt (t.call i).partition).alert = true := by
  rw [State.prt_tailed]
  unfold State.tailed
  dsimp only
  rw [State.flag_alerted]
  unfold State.alertDue State.flag
  rw [State.numbered_regs]
  simp only [State.prt_numbered, State.prt_setCall, State.prt_setPrt_self, State.part_numbered, State.setCall_regs,
    State.setPrt_regs]
  rfl

end Tailed

/-! ### Leaving a roster without an answer (R27, R53) -/

/-- The estimator of a roster that a member leaves without an answer (R53). -/
def Partition.leaveEst (q : Partition) (rest : List Slot) : Estimator := if rest.isEmpty then q.est.stop else q.est

/-- The roster that the call leaves behind. -/
def State.restRoster (t : State) (i : Slot) : List Slot := (t.prt (t.call i).partition).roster.filter (· != i)

/-- The record of a call that has left its roster. -/
def Call.unlisted (c : Call) : Call := { c with place := none, waitDeadline := none, expiryHeld := false }

/-- A call that no panel offers has left its roster without an answer. -/
def State.departed (t : State) (i : Slot) : State :=
  let q := (t.call i).partition
  let t' := t.setPrt q { t.prt q with roster := t.restRoster i, est := (t.prt q).leaveEst (t.restRoster i) }
  let t' := t'.numbered 1 (t.restRoster i)
  (t'.setCall i (t.call i).unlisted).alerted q

theorem Event.leaveRoster_departed {e : Event} {i : Slot} (member : i ∈ (e.st.prt (e.st.call i).partition).roster)
    (unoffered : (e.st.call i).state ≠ .offered) :
    e.leaveRoster i false =
      { e with
        st := e.st.departed i, passes := e.passes.set (e.st.call i).partition true,
        touched := e.touched.set (e.st.call i).partition true } := by
  have absent : i ∉ e.st.restRoster i := fun h => by simp [State.restRoster] at h
  have here : ∀ c, ((e.st.setPrt (e.st.call i).partition c).numbered 1 (e.st.restRoster i)).call i = e.st.call i :=
    fun c => by rw [State.call_numbered_out _ _ _ absent, State.call_setPrt]
  have swap : ∀ (x : State) q c d, (x.setCall i c).setPrt q d = (x.setPrt q d).setCall i c := fun _ _ _ _ => rfl
  unfold Event.leaveRoster
  dsimp only
  rw [if_pos (List.contains_iff_mem.mpr member), if_neg unoffered, if_neg Bool.false_ne_true]
  unfold Event.renumber
  rw [Event.renumberFrom_eq]
  unfold Event.rosterMoved Event.updCall Event.updPrt Event.upd
  dsimp only
  have rest : (e.st.prt (e.st.call i).partition).roster.filter (· != i) = e.st.restRoster i := rfl
  simp only [State.prt_setCall, State.prt_numbered, State.prt_setPrt_self, rest, here]
  unfold State.departed Partition.leaveEst
  dsimp only
  cases hr : (e.st.restRoster i).isEmpty with
  | false =>
    rw [Bool.not_false, if_pos rfl, if_neg Bool.false_ne_true, Event.alertTest_eq]
    rfl
  | true =>
    rw [Bool.not_true, if_neg Bool.false_ne_true, if_pos rfl, Event.alertTest_eq, List.isEmpty_iff.mp hr]
    unfold State.numbered
    dsimp only
    rw [swap, State.setPrt_setPrt]
    rfl

section Departed

variable (t : State) (i : Slot)

@[simp] theorem State.pos_departed (p : Pos) : (t.departed i).pos p = t.pos p := by simp [State.departed]
@[simp] theorem State.lamp_departed (k : Circuit) : (t.departed i).lamp k = t.lamp k := by simp [State.departed]
@[simp] theorem State.link_departed (l : LinkIx) : (t.departed i).link l = t.link l := by simp [State.departed]
@[simp] theorem State.part_departed (q : Part) : (t.departed i).part q = t.part q := by simp [State.departed]
@[simp] theorem State.departed_rings : (t.departed i).rings = t.rings := by simp [State.departed]
@[simp] theorem State.departed_free : (t.departed i).free = t.free := by simp [State.departed]
@[simp] theorem State.departed_seconds : (t.departed i).seconds = t.seconds := by simp [State.departed]

theorem State.call_departed_self : (t.departed i).call i = (t.call i).unlisted := by
  unfold State.departed
  dsimp only
  rw [State.call_alerted, State.call_setCall_self]

theorem State.call_departed {j : Slot} (h : i ≠ j) : ∃ x, (t.departed i).call j = { t.call j with place := x } := by
  unfold State.departed
  dsimp only
  rw [State.call_alerted, State.call_setCall_ne _ _ h]
  exact State.call_numbered_place _ 1 (t.restRoster i) j

theorem State.call_departed_out {j : Slot} (h : i ≠ j) (hj : j ∉ (t.prt (t.call i).partition).roster) :
    (t.departed i).call j = t.call j := by
  unfold State.departed
  dsimp only
  have out : j ∉ t.restRoster i := fun hm => hj (List.mem_of_mem_filter hm)
  rw [State.call_alerted, State.call_setCall_ne _ _ h, State.call_numbered_out _ _ _ out]
  rfl

theorem State.prt_departed : (t.departed i).prt (t.call i).partition =
    { t.prt (t.call i).partition with
      roster := t.restRoster i, est := (t.prt (t.call i).partition).leaveEst (t.restRoster i)
      alert := decide ((t.part (t.call i).partition).alertLevel ≠ 0 ∧
        (t.part (t.call i).partition).alertLevel ≤ (t.restRoster i).length) } := by
  unfold State.departed
  dsimp only
  rw [State.prt_alerted, if_pos rfl]
  unfold State.alertDue
  simp only [State.prt_numbered, State.prt_setCall, State.prt_setPrt_self, State.part_numbered, State.part_setCall]
  rfl

theorem State.prt_departed_ne {q : Part} (h : q ≠ (t.call i).partition) : (t.departed i).prt q = t.prt q := by
  unfold State.departed
  dsimp only
  rw [State.prt_alerted, if_neg h.symm, State.prt_setCall, State.prt_numbered, State.prt_setPrt_ne _ _ h.symm]

theorem State.flag_departed : (t.departed i).flag .alert = true ↔ t.flag .alert = true ∨
    (t.prt (t.call i).partition).alert = false ∧ ((t.departed i).prt (t.call i).partition).alert = true := by
  rw [State.prt_departed]
  unfold State.departed
  dsimp only
  rw [State.flag_alerted]
  unfold State.alertDue State.flag
  simp only [State.prt_numbered, State.prt_setCall, State.prt_setPrt_self, State.part_numbered, State.setCall_regs,
    State.numbered_regs, State.part_setCall, State.setPrt_regs]
  rfl

end Departed

end Sys2Proof.Machine
end

section
/-! SUPPORT. The ANNOUNCE timer: an announced call joins its partition's roster or closes (R15, R16, R26, R32); and O49. -/

namespace Sys2Proof.Machine

/-! ### An expired timer (R4) -/

theorem timerReached.due {s : State} {i : Slot} {k : TimerKind} (h : timerReached s i k) : s.timerDue i k = true := by
  obtain ⟨d, ht, hd⟩ := h
  unfold State.timerDue reached
  rw [ht]
  exact Bool.and_eq_true_iff.mpr ⟨beq_self_eq_true _, decide_eq_true hd⟩

theorem timerReached.runs {s : State} {i : Slot} {k : TimerKind} (h : timerReached s i k) (owner : Event → Slot → Event) :
    s.timerExpiry i k owner = (owner (Event.begin s) i).finish := by
  unfold State.timerExpiry runEvent
  rw [if_pos h.due]

/-- The call without its timer. -/
def State.untimed (s : State) (i : Slot) : State := s.setCall i { s.call i with timer := none }

/-! ### Orders that an event has issued, at its end (R130) -/

theorem entries_append (i : Slot) (xs ys : List ShelfOrder) : entries i (xs ++ ys) = entries i xs ++ entries i ys :=
  List.map_append

/-- Orders that stand in the queues when a quiet end begins have been issued when it is over. -/
theorem Quiet.issued {s w t : State} {i : Slot} {os : List ShelfOrder} (quiet : Quiet w t)
    (plain : ∀ o ∈ os, o.isRing = false)
    (queue : ∀ l, (w.link l).queue = (s.link l).queue ++ (entries i os).filter fun x => linkOf x.order.first == l)
    (pending : (w.call i).pending = (s.call i).pending + os.length) (rings : w.rings = s.rings) :
    issued s t i (entries i os) := by
  refine ⟨fun l => ?_, ?_, fun k => ?_⟩
  · exact (congrArg Link.queue (quiet.link l)).trans (queue l)
  · have waiting := quiet.waiting i
    simp only [Call.waiting, Prod.mk.injEq] at waiting
    obtain ⟨-, -, -, -, -, -, -, -, hp, -⟩ := waiting
    rw [hp, pending, entries, List.length_map]
  · have none : (entries i os).countP (fun x => x.order == .ring k) = 0 := by
      rw [List.countP_eq_zero]
      intro x hx
      obtain ⟨o, ho, rfl⟩ := List.mem_map.mp hx
      have := plain o ho
      cases o <;> simp_all [ShelfOrder.isRing]
    rw [quiet.rings, rings, none, Nat.add_zero]

/-! ### A call that joins a roster's tail and hears RINGBACK (R26) -/

/-- The call at the tail of its roster, its caller to hear RINGBACK. -/
def State.enrolled (t : State) (i : Slot) : State :=
  (t.tailed i).sendAll i [.tone (t.call i).caller .ringback]

theorem Event.joinRoster_enrolls {e : Event} {i : Slot} (live : (e.st.call i).state ≠ .free)
    (target : (e.st.call i).target = none) (enabled : (e.st.part (e.st.call i).partition).enabled = true)
    (takes : RoomForNew e.st (e.st.call i).partition i) (room : e.st.room [.tone (e.st.call i).caller .ringback]) :
    (e.joinRoster i .new .ordinary).st = e.st.enrolled i ∧ (e.joinRoster i .new .ordinary).refusals = e.refusals ∧
      (e.joinRoster i .new .ordinary).serve = e.serve := by
  have space : e.st.rosterFull (e.st.call i).partition .new = false := by
    unfold State.rosterFull
    rw [Bool.or_eq_false_iff, Bool.and_eq_false_iff]
    exact ⟨.inr (decide_eq_false (Nat.not_le_of_lt takes.new)), decide_eq_false (Nat.not_le_of_lt takes.space)⟩
  have joins : e.joinRoster i .new .ordinary = (e.enterRoster i .new).ringback i .ordinary := by
    unfold Event.joinRoster
    dsimp only
    rw [enabled, if_neg (by decide), if_neg (by rw [takes.day]; decide), space, if_neg (by decide)]
  obtain ⟨x, hcall⟩ := e.st.call_tailed i i
  rw [if_pos rfl] at hcall
  have caller : ((e.st.tailed i).call i).caller = (e.st.call i).caller := by rw [hcall]; rfl
  have quiet : (e.st.call i).letsGo = [] := by unfold Call.letsGo; rw [target]
  rw [joins, Event.enterRoster_new live]
  unfold Event.ringback
  dsimp only
  rw [caller, Event.issueAll_send]
  · exact ⟨rfl, rfl, by rw [quiet, List.append_nil]⟩
  · intro o ho
    dsimp only
    rw [State.link_tailed]
    exact room o ho
  · exact fun o _ => .inl rfl

theorem State.call_enrolled (t : State) (i : Slot) : ∃ x, (t.enrolled i).call i =
    { (t.call i).tail t.seconds (t.waitFrom (t.call i).partition) with
      place := x, pending := (t.call i).pending + 1 } := by
  obtain ⟨x, hx⟩ := t.call_tailed i i
  rw [if_pos rfl] at hx
  refine ⟨x, ?_⟩
  unfold State.enrolled
  rw [State.call_sendAll, if_pos rfl, hx]
  rfl

/-- What a quiet end shows of a call that has joined a roster's tail. -/
theorem Quiet.joinedTail {v t : State} {i : Slot} (quiet : Quiet (v.enrolled i) t)
    (overflowed : (v.call i).overflowed = true) (once : (v.prt (v.call i).partition).roster.Nodup)
    (absent : i ∉ (v.prt (v.call i).partition).roster) : JoinedTail v t i (v.call i).partition := by
  obtain ⟨x, hcall⟩ := v.call_enrolled i
  have hplace : ((v.enrolled i).call i).place = some ((v.prt (v.call i).partition).roster.length + 1) := by
    unfold State.enrolled
    rw [State.call_sendAll, if_pos rfl]
    exact v.place_tailed i once absent
  have hprt := quiet.prt (v.call i).partition
  have enrolledPrt : (v.enrolled i).prt (v.call i).partition = (v.tailed i).prt (v.call i).partition :=
    State.prt_sendAll ..
  rw [enrolledPrt, v.prt_tailed i] at hprt
  have roster : (t.prt (v.call i).partition).roster = v.tailRoster i := (congrArg Partition.roster hprt).trans rfl
  have alert : (t.prt (v.call i).partition).alert = decide ((v.part (v.call i).partition).alertLevel ≠ 0 ∧
      (v.part (v.call i).partition).alertLevel ≤ (v.tailRoster i).length) := congrArg Partition.alert hprt
  have waiting := quiet.waiting i
  simp only [Call.waiting, Prod.mk.injEq] at waiting
  obtain ⟨-, -, hpart, hcls, hover, -, hplace', hwait, -, -⟩ := waiting
  rw [hplace] at hplace'
  rw [hcall] at hpart hcls hover hwait
  refine ⟨quiet.queued i (by rw [hcall]; rfl), ⟨hpart, hcls, hover.trans overflowed⟩, roster, ?_, hplace', hwait⟩
  unfold alertTested
  rw [alert, roster]
  exact decide_eq_true_iff

theorem JoinedTail.transfer {s v t : State} {i : Slot} {q : Part} (h : JoinedTail v t i q)
    (roster : (v.prt q).roster = (s.prt q).roster) (part : v.part q = s.part q) (seconds : v.seconds = s.seconds) :
    JoinedTail s t i q where
  state := h.state
  call := h.call
  roster := roster ▸ h.roster
  alert := by unfold alertTested; rw [← part]; exact h.alert
  place := roster ▸ h.place
  wait := by rw [← part, ← seconds]; exact h.wait

/-! ### An announced call that closes (R15, R16, R32) -/

/-- The call record that has closed. -/
def State.closed (t : State) (i : Slot) (why : EndReason) (os : List ShelfOrder) : State :=
  (t.setCall i { (t.call i).enter .closing t.seconds with endReason := some why }).sendAll i os

/-- An announced call closes after its rule has issued orders `done`: of the teardown and the DROP it issues the rest. -/
theorem Event.close_announced {e : Event} {i : Slot} {why : EndReason} {c a : Circuit} {done os : List ShelfOrder}
    (state : (e.st.call i).state = .announced) (extend : (e.st.call i).extend = none)
    (found : teardown e.start (e.start.call i) = [.part c a]) (caller : (e.st.call i).caller = c)
    (logged : (e.log.filter (·.1 == i)).map (·.2) = done) (tears : why.tearsDown = true)
    (rest : ([.part c a].filter fun o => !(done.contains o)) ++
      (if why.drops && !(done.contains (.drop c)) then [.drop c] else []) = os)
    (room : e.st.room os) (reach : reachable e.st os) (owing : (e.st.call i).pending + os.length ≠ 0) :
    (e.close i why true).st = e.st.closed i why os ∧ (e.close i why true).refusals = e.refusals ∧
      (e.close i why true).serve = e.serve := by
  have alone : e.removeCall i = e := Event.removeCall_alone (by rw [state]; unfold loopState; simp)
    (by rw [state]; unfold rosterState; simp) (by rw [state]; decide)
  have live : ¬ ((e.st.call i).state = .free ∨ (e.st.call i).state = .closing) := by rw [state]; decide
  have filtered : ([ShelfOrder.part c a].filter fun o =>
      !(done.contains o) && !(why == .congestion && o == .tone (e.st.call i).caller .quiet)) =
      [.part c a].filter fun o => !(done.contains o) := by
    have other : ∀ k, (ShelfOrder.part c a == .tone k .quiet) = false := fun k => rfl
    refine List.filter_congr fun o ho => ?_
    rw [List.mem_singleton.mp ho, other, Bool.and_false, Bool.not_false, Bool.and_true]
  have closes : e.close i why true = ((e.shut i why).issueTeardown i os).freeIfDone i := by
    rw [← rest, ← Event.issueTeardown_append]
    unfold Event.close
    dsimp only
    rw [if_neg live, if_pos rfl, if_pos rfl, found, logged, alone,
      Event.answerExtendOf_none extend, filtered, if_pos tears, caller]
    split <;> rfl
  rw [closes, Event.shut_eq (by rw [state]; decide)]
  unfold Event.issueTeardown
  rw [Event.issueAll_send os _ ?_ ?_, Event.freeIfDone_pending]
  · exact ⟨rfl, rfl, rfl⟩
  · dsimp only
    rw [State.call_sendAll, if_pos rfl, State.call_setCall_self]
    exact owing
  · exact room
  · exact fun o ho => .inr (reach o ho)

/-- What a quiet end shows of a call that has closed after some of its orders. -/
theorem Quiet.closesWith {s t : State} {i : Slot} {why : EndReason} {first rest : List ShelfOrder}
    (quiet : Quiet (((s.untimed i).sendAll i first).closed i why rest) t) (plain : ∀ o ∈ first ++ rest, o.isRing = false) :
    closesWith s t i why (first ++ rest) := by
  have hcall : (((s.untimed i).sendAll i first).closed i why rest).call i =
      { Call.enter { s.call i with timer := none, pending := (s.call i).pending + first.length } .closing s.seconds with
        endReason := some why, pending := (s.call i).pending + first.length + rest.length } := by
    unfold State.closed
    rw [State.call_sendAll, if_pos rfl, State.call_setCall_self, State.call_sendAll, if_pos rfl, State.sendAll_seconds]
    unfold State.untimed
    rw [State.call_setCall_self]
    rfl
  have bare := quiet.call i (by rw [hcall]; exact nofun)
  rw [hcall] at bare
  have closing := congrArg Call.state bare
  have reason := congrArg Call.endReason bare
  have identity := congrArg Call.identity bare
  have timer := congrArg Call.timer bare
  refine ⟨closing, reason, identity, timer, quiet.issued plain (fun l => ?_) ?_ ?_⟩
  · unfold State.closed
    rw [State.link_sendAll, State.link_setCall, State.link_sendAll]
    simp only [entries_append, List.filter_append, List.append_assoc]
    rfl
  · rw [hcall, List.length_append]
    exact Nat.add_assoc ..
  · unfold State.closed
    rw [State.rings_sendAll _ _ _ fun o ho => plain o (List.mem_append_right _ ho), State.setCall_rings,
      State.rings_sendAll _ _ _ fun o ho => plain o (List.mem_append_left _ ho)]
    rfl

/-- The event of an ANNOUNCE timer in which the call has lost its timer and been given these orders. -/
def Event.announceGave (s : State) (i : Slot) (os : List ShelfOrder) : Event :=
  { Event.begin s with st := (s.untimed i).sendAll i os, log := os.map fun o => (i, o) }

theorem Event.announceGave_more {s : State} {i : Slot} {xs ys : List ShelfOrder} (room : s.room (xs ++ ys)) :
    (Event.announceGave s i xs).issueAll .ordinary i ys = Event.announceGave s i (xs ++ ys) := by
  rw [Event.issueAll_send ys _ (State.room_sendAll (t := s.untimed i) room) fun o _ => .inl rfl]
  unfold Event.announceGave State.sendAll
  dsimp only
  rw [List.foldl_append, List.map_append]

theorem Event.call_announceGave (s : State) (i : Slot) (os : List ShelfOrder) :
    (Event.announceGave s i os).st.call i =
      { s.call i with timer := none, pending := (s.call i).pending + os.length } := by
  unfold Event.announceGave State.untimed
  dsimp only
  rw [State.call_sendAll, if_pos rfl, State.call_setCall_self]

theorem Event.announceGave_congest {s : State} {i : Slot} {os : List ShelfOrder}
    (room : s.room (os ++ [.tone (s.call i).caller .congestion])) :
    (Event.announceGave s i os).congest i .ordinary =
      (Event.announceGave s i (os ++ [.tone (s.call i).caller .congestion])).close i .congestion true := by
  unfold Event.congest
  rw [Event.call_announceGave, Event.announceGave_more room]

theorem AnnounceOver.closes {s : State} {i : Slot} {a : Circuit} {why : EndReason} {first rest : List ShelfOrder}
    (h : AnnounceOver s i a) (tears : why.tearsDown = true) (some_order : first ++ rest ≠ [])
    (left : ([.part (s.call i).caller a].filter fun o => !(first.contains o)) ++
      (if why.drops && !(first.contains (.drop (s.call i).caller)) then [.drop (s.call i).caller] else []) = rest)
    (room : s.room (first ++ rest)) (reach : reachable s rest) (plain : ∀ o ∈ first ++ rest, o.isRing = false) :
    closesWith s ((Event.announceGave s i first).close i why true).finish i why (first ++ rest) := by
  have hcall := Event.call_announceGave s i first
  have shelf : ∀ k, (Event.announceGave s i first).st.shelfOf k = s.shelfOf k := fun k => State.shelfOf_sendAll ..
  obtain ⟨st, refusals, serve⟩ := Event.close_announced (e := Event.announceGave s i first) (done := first) (os := rest)
    (why := why) (c := (s.call i).caller) (a := a) (by rw [hcall]; exact h.state) (by rw [hcall]; exact h.extend)
    (by show teardown s (s.call i) = _; unfold teardown; rw [h.state, h.announcer])
    (by rw [hcall]) (by simp [Event.announceGave, List.filter_map, Function.comp_def]) tears left
    (State.room_sendAll (t := s.untimed i) room) (fun o ho => by rw [shelf]; exact reach o ho)
    (by
      rw [hcall]
      have := List.length_pos_of_ne_nil some_order
      rw [List.length_append] at this
      dsimp only
      omega)
  have quiet := (Event.finish_quietEnd (e := (Event.announceGave s i first).close i why true) refusals
    (by rw [serve]; exact nofun)).quiet
  rw [st] at quiet
  exact quiet.closesWith plain

theorem State.newCount_congr {t u : State} {q : Part} (roster : (t.prt q).roster = (u.prt q).roster)
    (cls : ∀ j, (t.call j).cls = (u.call j).cls) : t.newCount q = u.newCount q := by
  unfold State.call at cls
  unfold State.prt at roster
  unfold State.newCount
  simp only [roster, cls]

theorem State.cls_untimed (s : State) (i j : Slot) : ((s.untimed i).call j).cls = (s.call j).cls := by
  unfold State.untimed
  rw [State.call_setCall]
  split
  · next h => subst h; rfl
  · rfl

theorem RoomForNew.transfer {s v : State} {q : Part} {i : Slot} (h : RoomForNew s q i) (prt : v.prt q = s.prt q)
    (part : v.part q = s.part q) (cls : ∀ j, (v.call j).cls = (s.call j).cls) : RoomForNew v q i where
  day := by rw [prt]; exact h.day
  new := by rw [State.newCount_congr (congrArg Partition.roster prt) cls, part]; exact h.new
  space := by rw [prt]; exact h.space
  once := by rw [prt]; exact h.once
  absent := by rw [prt]; exact h.absent

theorem Event.announceOver_eq {s : State} {i : Slot} {a : Circuit} (h : AnnounceOver s i a) :
    (Event.begin s).announceOver i =
      if !(s.part (s.call i).partition).enabled then (Event.announceGave s i []).congest i .ordinary
      else if (s.prt (s.call i).partition).mode = .night then
        ((Event.announceGave s i []).issueAll .ordinary i [.drop (s.call i).caller]).close i .unanswered true
      else if s.newCount (s.call i).partition < (s.part (s.call i).partition).capacity then
        (((Event.announceGave s i []).issueAll .ordinary i [.part (s.call i).caller a]).updCall i
          fun c => { c with overflowed := true }).joinRoster i .new .ordinary
      else ((Event.announceGave s i []).issueAll .ordinary i [.part (s.call i).caller a]).congest i .ordinary := by
  have begun : (Event.begin s).updCall i (fun c => { c with timer := none }) = Event.announceGave s i [] := rfl
  have hcall : (Event.announceGave s i []).st.call i = { s.call i with timer := none } := State.call_setCall_self _ _ _
  have count : ∀ q, (Event.announceGave s i []).st.newCount q = s.newCount q :=
    fun q => State.newCount_congr rfl (s.cls_untimed i)
  unfold Event.announceOver
  dsimp only
  rw [begun, hcall]
  dsimp only
  rw [h.announcer, count]
  rfl

/-- The state in which a call has left the announcer and may join a roster as an overflowed call. -/
def State.dismissed (s : State) (i : Slot) (os : List ShelfOrder) : State :=
  let t := (s.untimed i).sendAll i os
  t.setCall i { t.call i with overflowed := true }

section Dismissed

variable (s : State) (i : Slot) (os : List ShelfOrder)

theorem State.call_dismissed : (s.dismissed i os).call i =
    { s.call i with timer := none, pending := (s.call i).pending + os.length, overflowed := true } := by
  unfold State.dismissed State.untimed
  dsimp only
  rw [State.call_setCall_self, State.call_sendAll, if_pos rfl, State.call_setCall_self]

theorem State.cls_dismissed (j : Slot) : ((s.dismissed i os).call j).cls = (s.call j).cls := by
  obtain rfl | h := eq_or_ne i j
  · rw [State.call_dismissed]
  · unfold State.dismissed
    dsimp only
    rw [State.call_setCall_ne _ _ h, State.call_sendAll, if_neg h, State.cls_untimed]

@[simp] theorem State.prt_dismissed (q : Part) : (s.dismissed i os).prt q = s.prt q := by
  simp [State.dismissed, State.untimed]

@[simp] theorem State.part_dismissed (q : Part) : (s.dismissed i os).part q = s.part q := by
  unfold State.part
  simp [State.dismissed, State.untimed]

@[simp] theorem State.dismissed_seconds : (s.dismissed i os).seconds = s.seconds := by
  simp [State.dismissed, State.untimed]

end Dismissed

theorem AnnounceOver.enrolls {s : State} {i : Slot} {a : Circuit} (h : AnnounceOver s i a)
    (enabled : (s.part (s.call i).partition).enabled = true) (takes : RoomForNew s (s.call i).partition i)
    (room : s.room [.part (s.call i).caller a, .tone (s.call i).caller .ringback]) :
    ((Event.begin s).announceOver i).st = (s.dismissed i [.part (s.call i).caller a]).enrolled i ∧
      ((Event.begin s).announceOver i).refusals = [] ∧ ((Event.begin s).announceOver i).serve = [] := by
  have room' : s.room ([ShelfOrder.part (s.call i).caller a] ++ [.tone (s.call i).caller .ringback]) := room
  have body : (Event.begin s).announceOver i =
      Event.joinRoster { Event.announceGave s i [.part (s.call i).caller a] with
        st := s.dismissed i [.part (s.call i).caller a] } i .new .ordinary := by
    rw [Event.announceOver_eq h, enabled, if_neg (by decide), takes.day, if_neg (by decide), if_pos takes.new,
      Event.announceGave_more (State.room_append_left room')]
    rfl
  have hcall := s.call_dismissed i [.part (s.call i).caller a]
  generalize [ShelfOrder.part (s.call i).caller a] = os at body hcall room' ⊢
  have home : ((s.dismissed i os).call i).partition = (s.call i).partition := by rw [hcall]
  have caller : ((s.dismissed i os).call i).caller = (s.call i).caller := by rw [hcall]
  rw [body]
  refine Event.joinRoster_enrolls (e := { Event.announceGave s i os with st := s.dismissed i os }) ?_ ?_ ?_ ?_ ?_
  · rw [hcall, h.state]; decide
  · rw [hcall]; exact h.target
  · rw [home, State.part_dismissed]; exact enabled
  · rw [home]; exact takes.transfer (State.prt_dismissed ..) (State.part_dismissed ..) (s.cls_dismissed i os)
  · rw [caller]; exact State.room_sendAll (t := s.untimed i) room'

theorem State.link_enrolled (t : State) (i : Slot) (l : LinkIx) : (t.enrolled i).link l =
    { t.link l with queue := (t.link l).queue ++
      (entries i [.tone (t.call i).caller .ringback]).filter fun x => linkOf x.order.first == l } := by
  unfold State.enrolled
  rw [State.link_sendAll, State.link_tailed]

@[simp] theorem State.enrolled_rings (t : State) (i : Slot) : (t.enrolled i).rings = t.rings :=
  (State.rings_sendAll _ _ _ (by simp [ShelfOrder.isRing])).trans (State.tailed_rings ..)

theorem State.link_dismissed (s : State) (i : Slot) (os : List ShelfOrder) (l : LinkIx) : (s.dismissed i os).link l =
    { s.link l with queue := (s.link l).queue ++ (entries i os).filter fun x => linkOf x.order.first == l } := by
  unfold State.dismissed
  dsimp only
  rw [State.link_setCall, State.link_sendAll]
  rfl

theorem Call.announcer_bare (c : Call) : c.bare.announcer = c.announcer := rfl

theorem State.announcer_offering (t : State) (i : Slot) (x : Pos) : (t.offering i x).bare.announcer = none := rfl

theorem AnnounceOver.joins {s : State} {i : Slot} {a : Circuit} (h : AnnounceOver s i a)
    (enabled : (s.part (s.call i).partition).enabled = true) (takes : RoomForNew s (s.call i).partition i)
    (room : s.room [.part (s.call i).caller a, .tone (s.call i).caller .ringback]) :
    let t := ((Event.begin s).announceOver i).finish
    JoinedTail s t i (s.call i).partition ∧ (t.call i).announcer = none ∧
      issued s t i (entries i [.part (s.call i).caller a, .tone (s.call i).caller .ringback]) := by
  obtain ⟨st, refusals, serve⟩ := h.enrolls enabled takes room
  generalize (Event.begin s).announceOver i = e at st refusals serve
  intro t
  have rested : ∀ k ∈ e.serve, unserved e.st k := by rw [serve]; exact nofun
  have quiet : Quiet e.st t := (Event.finish_quietEnd refusals rested).quiet
  rw [st] at quiet
  have hcall := s.call_dismissed i [.part (s.call i).caller a]
  have home : ((s.dismissed i [.part (s.call i).caller a]).call i).partition = (s.call i).partition := by rw [hcall]
  obtain ⟨x, enrolled⟩ := (s.dismissed i [.part (s.call i).caller a]).call_enrolled i
  rw [home, hcall] at enrolled
  refine ⟨?_, ?_, quiet.issued (by simp [ShelfOrder.isRing]) (fun l => ?_) ?_ ?_⟩
  · have joined := quiet.joinedTail (by rw [hcall]) (by rw [home, State.prt_dismissed]; exact takes.once)
      (by rw [home, State.prt_dismissed]; exact takes.absent)
    rw [home] at joined
    exact joined.transfer (by rw [State.prt_dismissed]) (State.part_dismissed ..) (State.dismissed_seconds ..)
  · rcases Event.finish_call refusals rested i with ⟨y, hy⟩ | ⟨-, y, -, hy⟩
    · rw [st, enrolled] at hy
      exact (Call.announcer_bare _).symm.trans (congrArg Call.announcer hy)
    · exact (Call.announcer_bare _).symm.trans ((congrArg Call.announcer hy).trans (State.announcer_offering ..))
  · rw [State.link_enrolled, State.link_dismissed, hcall]
    exact (List.append_assoc ..).trans (congrArg _ (List.filter_append ..).symm)
  · rw [enrolled]
    rfl
  · rw [State.enrolled_rings]
    unfold State.dismissed
    dsimp only
    rw [State.setCall_rings, State.rings_sendAll _ _ _ (by simp [ShelfOrder.isRing])]
    rfl

/-- Settles O49. The announced call's event ends in one of two ways: it stands at the tail of its partition's roster, or it
closes with what its teardown still lacks. -/
theorem announceExpiryByPartition : Obligations.AnnounceExpiryByPartition := by
  unfold Obligations.AnnounceExpiryByPartition
  have run : ∀ (s : State) (i : Slot) (a : Circuit), AnnounceOver s i a →
      exec (.announceExpiry i) s = .next ((Event.begin s).announceOver i).finish := fun s i a h =>
    congrArg Host.Outcome.next (h.timer.runs Event.announceOver)
  refine ⟨fun s i a h enabled takes room => ?_, fun s i a h enabled day full room => ?_,
    fun s i a h enabled night room reach => ?_, fun s i a h disabled room reach => ?_⟩
  · exact ⟨_, run s i a h, h.joins enabled takes room⟩
  · refine ⟨_, run s i a h, ?_⟩
    rw [Event.announceOver_eq h, enabled, if_neg (by decide), day, if_neg (by decide), if_neg (Nat.not_lt_of_le full),
      Event.announceGave_more (xs := []) (State.room_append_left (ys := [.tone (s.call i).caller .congestion]) room),
      Event.announceGave_congest room]
    exact h.closes (first := [.part (s.call i).caller a, .tone (s.call i).caller .congestion]) (rest := []) rfl (by simp)
      (by simp [EndReason.drops]) room nofun (by simp [ShelfOrder.isRing])
  · refine ⟨_, run s i a h, ?_⟩
    rw [Event.announceOver_eq h, enabled, if_neg (by decide), if_pos night,
      Event.announceGave_more (xs := []) (State.room_append_left (ys := [.part (s.call i).caller a]) room)]
    exact h.closes (rest := [.part (s.call i).caller a]) rfl (by simp) (by simp [EndReason.drops]) room reach
      (by simp [ShelfOrder.isRing])
  · refine ⟨_, run s i a h, ?_⟩
    rw [Event.announceOver_eq h, disabled, if_pos (by decide),
      Event.announceGave_congest (State.room_append_left (ys := [.part (s.call i).caller a]) room)]
    exact h.closes (first := [.tone (s.call i).caller .congestion]) (rest := [.part (s.call i).caller a]) rfl (by simp)
      (by simp [EndReason.drops]) room reach (by simp [ShelfOrder.isRing])

end Sys2Proof.Machine
end

section
/-! SUPPORT. A call that overflows from its partition, into another partition's roster or to the announcer (R30, R31,
R33); and O48. -/

namespace Sys2Proof.Machine

/-! ### Leaving the roster, seen at the end of the event (R27, R43, R53) -/

theorem leftRoster_of_departed {u t : State} {i : Slot} {p : Part} (home : (u.call i).partition = p)
    (prt : (t.prt p).bare = ((u.departed i).prt p).bare) : leftRoster u t p i := by
  subst home
  rw [u.prt_departed i] at prt
  have roster : (t.prt (u.call i).partition).roster = u.restRoster i := congrArg Partition.roster prt
  have alert : (t.prt (u.call i).partition).alert = decide ((u.part (u.call i).partition).alertLevel ≠ 0 ∧
      (u.part (u.call i).partition).alertLevel ≤ (u.restRoster i).length) := congrArg Partition.alert prt
  have est : (t.prt (u.call i).partition).est.bare =
      ((u.prt (u.call i).partition).leaveEst (u.restRoster i)).bare := congrArg (fun q => q.est.bare) prt
  refine ⟨roster, ?_, ?_⟩
  · unfold alertTested
    rw [alert, roster]
    exact decide_eq_true_iff
  · rw [est, roster]
    unfold Partition.leaveEst
    cases u.restRoster i <;> rfl

theorem leftRoster.transfer {s u t : State} {i : Slot} {p : Part} (h : leftRoster u t p i) (prt : u.prt p = s.prt p)
    (part : u.part p = s.part p) : leftRoster s t p i := by
  unfold leftRoster alertTested at *
  rw [← prt, ← part]
  exact h

/-! ### Into another partition's roster (R30) -/

/-- The call as its overflow sends it to another partition. -/
def State.diverted (t : State) (i : Slot) (q : Part) : State :=
  t.setCall i { t.call i with overflowed := true, partition := q }

/-- The call has left its roster and joined the tail of another partition's, its caller to hear RINGBACK. -/
def State.overflowedTo (u : State) (i : Slot) (q : Part) : State := ((u.departed i).diverted i q).enrolled i

section Diverted

variable (t : State) (i : Slot) (q : Part)

theorem State.call_diverted_self : (t.diverted i q).call i = { t.call i with overflowed := true, partition := q } :=
  State.call_setCall_self _ _ _

theorem State.call_diverted_ne {j : Slot} (h : i ≠ j) : (t.diverted i q).call j = t.call j :=
  State.call_setCall_ne _ _ h

@[simp] theorem State.prt_diverted (p : Part) : (t.diverted i q).prt p = t.prt p := rfl
@[simp] theorem State.part_diverted (p : Part) : (t.diverted i q).part p = t.part p := rfl
@[simp] theorem State.link_diverted (l : LinkIx) : (t.diverted i q).link l = t.link l := rfl

end Diverted

theorem State.cls_departed (u : State) (i j : Slot) : ((u.departed i).call j).cls = (u.call j).cls := by
  obtain rfl | h := eq_or_ne i j
  · rw [State.call_departed_self]; rfl
  · obtain ⟨x, hx⟩ := u.call_departed i h
    rw [hx]

theorem State.cls_diverted (t : State) (i : Slot) (q : Part) (j : Slot) :
    ((t.diverted i q).call j).cls = (t.call j).cls := by
  obtain rfl | h := eq_or_ne i j
  · rw [State.call_diverted_self]
  · rw [State.call_diverted_ne _ _ _ h]

/-- A QUEUED member of a roster whose wait has run out. -/
structure MayOverflow (u : State) (i : Slot) (p : Part) : Prop where
  state : (u.call i).state = .queued
  home : (u.call i).partition = p
  member : i ∈ (u.prt p).roster
  target : (u.call i).target = none

theorem Event.waitOver_departs {e : Event} {i : Slot} {p : Part} (h : MayOverflow e.st i p) :
    ∃ f : Event, e.waitOver i = f.overflow i ∧ f.st = e.st.departed i ∧ f.refusals = e.refusals ∧ f.serve = e.serve := by
  unfold Event.waitOver
  rw [Event.leaveRoster_departed (by rw [h.home]; exact h.member) (by rw [h.state]; decide)]
  exact ⟨_, rfl, rfl, rfl, rfl⟩

/-- An overflow that another partition's roster takes. -/
theorem Event.overflow_diverts {e : Event} {i : Slot} {q : Part}
    (into : (e.st.part (e.st.call i).partition).overflow = .partition q) (day : (e.st.prt q).mode = .day)
    (new : e.st.newCount q < (e.st.part q).capacity) :
    e.overflow i = Event.joinRoster { e with st := e.st.diverted i q } i .new .ordinary := by
  have cls : ∀ j, ((e.st.setCall i { e.st.call i with overflowed := true }).call j).cls = (e.st.call j).cls := fun j => by
    rw [State.call_setCall]
    split
    · next hj => subst hj; rfl
    · rfl
  have count : (e.st.setCall i { e.st.call i with overflowed := true }).newCount q = e.st.newCount q :=
    State.newCount_congr rfl cls
  unfold Event.overflow Event.updCall Event.upd
  dsimp only
  rw [State.part_setCall, into]
  dsimp only
  rw [State.part_setCall, State.prt_setCall, count, if_pos ⟨day, new⟩, State.call_setCall_self, State.setCall_setCall]
  rfl

theorem Event.waitOver_enrolls {e : Event} {i : Slot} {p q : Part} (h : MayOverflow e.st i p) (ne : p ≠ q)
    (into : (e.st.part p).overflow = .partition q) (enabled : (e.st.part q).enabled = true)
    (takes : RoomForNew e.st q i) (room : e.st.room [.tone (e.st.call i).caller .ringback]) :
    (e.waitOver i).st = e.st.overflowedTo i q ∧ (e.waitOver i).refusals = e.refusals ∧
      (e.waitOver i).serve = e.serve := by
  obtain ⟨f, body, st, refusals, serve⟩ := Event.waitOver_departs h
  have self : f.st.call i = (e.st.call i).unlisted := by rw [st, State.call_departed_self]
  have home : (f.st.call i).partition = p := by rw [self]; exact h.home
  have prt : f.st.prt q = e.st.prt q := by rw [st]; exact State.prt_departed_ne _ _ (by rw [h.home]; exact ne.symm)
  have part : ∀ r, f.st.part r = e.st.part r := fun r => by rw [st, State.part_departed]
  have takes' : RoomForNew f.st q i := takes.transfer prt (part q) fun j => by rw [st, State.cls_departed]
  have diverted : (f.st.diverted i q).call i = { (e.st.call i).unlisted with overflowed := true, partition := q } := by
    rw [State.call_diverted_self, self]
  have joins := Event.overflow_diverts (e := f) (i := i) (by rw [home, part]; exact into) takes'.day takes'.new
  obtain ⟨joined, kept, served⟩ := Event.joinRoster_enrolls (e := { f with st := f.st.diverted i q }) (i := i)
    (by rw [diverted]; show (e.st.call i).state ≠ _; rw [h.state]; decide)
    (by rw [diverted]; exact h.target)
    (by rw [diverted, State.part_diverted, part]; exact enabled)
    (by rw [diverted]; exact takes'.transfer rfl rfl (State.cls_diverted _ _ _))
    (by
      rw [diverted]
      intro o ho
      dsimp only
      rw [State.link_diverted, st, State.link_departed]
      exact room o ho)
  rw [body, joins, joined, kept, served]
  refine ⟨?_, refusals, serve⟩
  unfold State.overflowedTo
  dsimp only
  rw [st]

section Overflowed

variable {u t : State} {i : Slot} {p q : Part}

theorem State.call_overflowedTo (u : State) (i : Slot) (q : Part) : ∃ x, (u.overflowedTo i q).call i =
    { Call.tail { (u.call i).unlisted with overflowed := true, partition := q } u.seconds (u.waitFrom q) with
      place := x, pending := (u.call i).pending + 1 } := by
  obtain ⟨x, hx⟩ := ((u.departed i).diverted i q).call_enrolled i
  have seconds : ((u.departed i).diverted i q).seconds = u.seconds := State.departed_seconds ..
  have wait : ((u.departed i).diverted i q).waitFrom q = u.waitFrom q := by
    unfold State.waitFrom
    rw [State.part_diverted, State.part_departed, seconds]
  refine ⟨x, hx.trans ?_⟩
  rw [State.call_diverted_self, State.call_departed_self, seconds, wait]
  rfl

theorem State.link_overflowedTo (u : State) (i : Slot) (q : Part) (l : LinkIx) : (u.overflowedTo i q).link l =
    { u.link l with queue := (u.link l).queue ++
      (entries i [.tone (u.call i).caller .ringback]).filter fun x => linkOf x.order.first == l } := by
  unfold State.overflowedTo
  rw [State.link_enrolled, State.link_diverted, State.link_departed, State.call_diverted_self,
    State.call_departed_self]
  rfl

theorem State.overflowedTo_rings (u : State) (i : Slot) (q : Part) : (u.overflowedTo i q).rings = u.rings := by
  unfold State.overflowedTo
  rw [State.enrolled_rings]
  exact State.departed_rings ..

theorem State.prt_overflowedTo_ne (u : State) (i : Slot) {q r : Part} (h : r ≠ q) :
    (u.overflowedTo i q).prt r = (u.departed i).prt r := by
  have home : (((u.departed i).diverted i q).call i).partition = q := by rw [State.call_diverted_self]
  unfold State.overflowedTo State.enrolled
  rw [State.prt_sendAll, State.prt_tailed_ne _ _ (by rw [home]; exact h), State.prt_diverted]

theorem State.flag_overflowedTo (home : (u.call i).partition = p) (ne : p ≠ q) :
    (u.overflowedTo i q).flag .alert = true ↔ u.flag .alert = true ∨
      (u.prt p).alert = false ∧ ((u.overflowedTo i q).prt p).alert = true ∨
      (u.prt q).alert = false ∧ ((u.overflowedTo i q).prt q).alert = true := by
  have into : (((u.departed i).diverted i q).call i).partition = q := by rw [State.call_diverted_self]
  have tail := ((u.departed i).diverted i q).flag_tailed i
  have left := u.flag_departed i
  rw [home] at left
  have was : (u.departed i).prt q = u.prt q := State.prt_departed_ne _ _ (by rw [home]; exact ne.symm)
  rw [into, State.prt_diverted, was] at tail
  rw [State.prt_overflowedTo_ne _ _ ne]
  have flag : (u.overflowedTo i q).flag .alert = (((u.departed i).diverted i q).tailed i).flag .alert := by
    unfold State.overflowedTo State.enrolled State.flag
    rw [State.sendAll_regs]
  have there : (u.overflowedTo i q).prt q = (((u.departed i).diverted i q).tailed i).prt q := by
    unfold State.overflowedTo State.enrolled
    rw [State.prt_sendAll]
  have same : ((u.departed i).diverted i q).flag .alert = (u.departed i).flag .alert := rfl
  rw [flag, tail, there, same, left, or_assoc]

/-- What a quiet end shows of a call that has overflowed into another partition's roster. -/
theorem Quiet.overflowedTo (quiet : Quiet (u.overflowedTo i q) t) (h : MayOverflow u i p) (ne : p ≠ q)
    (takes : RoomForNew u q i) : JoinedTail u t i q ∧ leftRoster u t p i := by
  have into : ((u.departed i).diverted i q).call i = { (u.call i).unlisted with overflowed := true, partition := q } := by
    rw [State.call_diverted_self, State.call_departed_self]
  have prt : ((u.departed i).diverted i q).prt q = u.prt q :=
    State.prt_departed_ne _ _ (by rw [h.home]; exact ne.symm)
  constructor
  · have joined := Quiet.joinedTail quiet (by rw [into]) (by rw [into]; dsimp only; rw [prt]; exact takes.once)
      (by rw [into]; dsimp only; rw [prt]; exact takes.absent)
    rw [into] at joined
    exact joined.transfer (by rw [prt]) (State.part_departed ..) (State.departed_seconds ..)
  · refine leftRoster_of_departed h.home ?_
    rw [← State.prt_overflowedTo_ne _ _ ne]
    exact quiet.prt p

end Overflowed

/-! ### To the announcer (R31) -/

/-- The record of a call that the announcer serves from now on. -/
def Call.announcedBy (c : Call) (a : Circuit) (now : Seconds) (time : Nat) : Call :=
  { c.enter .announced now with announcer := some a, timer := some (.announce, now + BitVec.ofNat 32 time) }

/-- A call given QUIET and joined to the announcer. -/
def State.announcing (t : State) (i : Slot) (a : Circuit) : State :=
  let t' := t.sendAll i [.tone (t.call i).caller .quiet, .join (t.call i).caller a]
  t'.setCall i ((t'.call i).announcedBy a t.seconds (t.part (t.call i).partition).announceTime)

theorem Event.fallback_announces {e : Event} {i : Slot} {a : Circuit} (live : (e.st.call i).state ≠ .free)
    (target : (e.st.call i).target = none) (serves : announces e.st (e.st.call i).partition a)
    (room : e.st.room [.tone (e.st.call i).caller .quiet, .join (e.st.call i).caller a]) :
    (e.fallback i .ordinary).st = e.st.announcing i a ∧ (e.fallback i .ordinary).refusals = e.refusals ∧
      (e.fallback i .ordinary).serve = e.serve := by
  have found : e.st.announcerOf (e.st.call i).partition = some a := by
    unfold State.announcerOf
    rw [serves.1]
    exact Option.filter_eq_some_iff.mpr ⟨rfl, serves.2⟩
  have here : (e.st.sendAll i [.tone (e.st.call i).caller .quiet, .join (e.st.call i).caller a]).call i =
      { e.st.call i with pending := (e.st.call i).pending + 2 } := (State.call_sendAll ..).trans (if_pos rfl)
  have sent := Event.issueAll_send _ e (how := .ordinary) (i := i) room fun o _ => .inl rfl
  unfold Event.fallback
  dsimp only
  rw [found]
  dsimp only
  rw [sent, Event.toState_eq _ (by dsimp only; rw [here]; exact live)]
  unfold Event.updCall Event.startTimer Event.upd
  dsimp only
  rw [here]
  refine ⟨?_, rfl, ?_⟩
  · unfold State.announcing
    simp only [State.call_setCall_self, State.setCall_setCall, here, State.sendAll_seconds]
    have part : ∀ c q, (((e.st.sendAll i
        [.tone (e.st.call i).caller .quiet, .join (e.st.call i).caller a]).setCall i c).part q) = e.st.part q :=
      fun c q => by
        unfold State.part
        rw [State.setCall_plan, State.sendAll_plan]
    rw [part]
    rfl
  · show e.serve ++ Call.letsGo _ = e.serve
    unfold Call.letsGo
    dsimp only
    rw [target, List.append_nil]

/-- The call has left its roster and is with the announcer. -/
def State.overflowedOut (u : State) (i : Slot) (p : Part) (a : Circuit) : State :=
  ((u.departed i).diverted i p).announcing i a

theorem Event.overflow_falls {e : Event} {i : Slot} {p : Part} (home : (e.st.call i).partition = p)
    (into : (e.st.part p).overflow = .fallback) :
    e.overflow i = Event.fallback { e with st := e.st.diverted i p } i .ordinary := by
  subst home
  unfold Event.overflow Event.updCall Event.upd
  dsimp only
  rw [State.part_setCall, into]
  rfl

theorem Event.waitOver_announces {e : Event} {i : Slot} {p : Part} {a : Circuit} (h : MayOverflow e.st i p)
    (into : (e.st.part p).overflow = .fallback) (serves : announces e.st p a)
    (room : e.st.room [.tone (e.st.call i).caller .quiet, .join (e.st.call i).caller a]) :
    (e.waitOver i).st = e.st.overflowedOut i p a ∧ (e.waitOver i).refusals = e.refusals ∧
      (e.waitOver i).serve = e.serve := by
  obtain ⟨f, body, st, refusals, serve⟩ := Event.waitOver_departs h
  have self : f.st.call i = (e.st.call i).unlisted := by rw [st, State.call_departed_self]
  have part : ∀ r, f.st.part r = e.st.part r := fun r => by rw [st, State.part_departed]
  have diverted : (f.st.diverted i p).call i = { (e.st.call i).unlisted with overflowed := true, partition := p } := by
    rw [State.call_diverted_self, self]
  have falls := Event.overflow_falls (e := f) (i := i) (p := p) (by rw [self]; exact h.home) (by rw [part]; exact into)
  obtain ⟨announced, kept, served⟩ := Event.fallback_announces (e := { f with st := f.st.diverted i p }) (i := i) (a := a)
    (by rw [diverted]; show (e.st.call i).state ≠ _; rw [h.state]; decide)
    (by rw [diverted]; exact h.target)
    (by
      rw [diverted]
      refine ⟨by rw [State.part_diverted, part]; exact serves.1, ?_⟩
      have lamp : (f.st.diverted i p).lamp a = e.st.lamp a := by rw [st]; exact State.lamp_departed ..
      unfold lineServes
      rw [lamp]
      exact serves.2)
    (by
      rw [diverted]
      intro o ho
      dsimp only
      rw [State.link_diverted, st, State.link_departed]
      exact room o ho)
  rw [body, falls, announced, kept, served]
  refine ⟨?_, refusals, serve⟩
  unfold State.overflowedOut
  dsimp only
  rw [st]

section OverflowedOut

variable {u t : State} {i : Slot} {p : Part} {a : Circuit}

theorem State.call_overflowedOut (u : State) (i : Slot) (p : Part) (a : Circuit) : (u.overflowedOut i p a).call i =
    Call.announcedBy
      { (u.call i).unlisted with overflowed := true, partition := p, pending := (u.call i).pending + 2 }
      a u.seconds (u.part p).announceTime := by
  unfold State.overflowedOut State.announcing
  dsimp only
  rw [State.call_setCall_self, State.call_sendAll, if_pos rfl, State.call_diverted_self, State.call_departed_self,
    State.part_diverted, State.part_departed]
  have seconds : ((u.departed i).diverted i p).seconds = u.seconds := State.departed_seconds ..
  rw [seconds]
  rfl

theorem State.link_overflowedOut (u : State) (i : Slot) (p : Part) (a : Circuit) (l : LinkIx) :
    (u.overflowedOut i p a).link l =
      { u.link l with queue := (u.link l).queue ++
        (entries i [.tone (u.call i).caller .quiet, .join (u.call i).caller a]).filter (linkOf ·.order.first == l) } := by
  unfold State.overflowedOut State.announcing
  dsimp only
  rw [State.link_setCall, State.link_sendAll, State.link_diverted, State.link_departed, State.call_diverted_self,
    State.call_departed_self]
  rfl

theorem State.overflowedOut_rings (u : State) (i : Slot) (p : Part) (a : Circuit) :
    (u.overflowedOut i p a).rings = u.rings := by
  unfold State.overflowedOut State.announcing
  dsimp only
  rw [State.setCall_rings, State.rings_sendAll _ _ _ (by simp [ShelfOrder.isRing])]
  exact State.departed_rings ..

theorem State.prt_overflowedOut (u : State) (i : Slot) (p : Part) (a : Circuit) (r : Part) :
    (u.overflowedOut i p a).prt r = (u.departed i).prt r := by
  unfold State.overflowedOut State.announcing
  dsimp only
  rw [State.prt_setCall, State.prt_sendAll, State.prt_diverted]

theorem State.flag_overflowedOut (home : (u.call i).partition = p) :
    (u.overflowedOut i p a).flag .alert = true ↔ u.flag .alert = true ∨
      (u.prt p).alert = false ∧ ((u.overflowedOut i p a).prt p).alert = true := by
  have left := u.flag_departed i
  rw [home] at left
  have flag : (u.overflowedOut i p a).flag .alert = (u.departed i).flag .alert := by
    unfold State.overflowedOut State.announcing State.flag
    dsimp only
    rw [State.setCall_regs, State.sendAll_regs]
    rfl
  rw [flag, State.prt_overflowedOut, left]

end OverflowedOut

/-! ### The WAIT timer of a QUEUED member (R33) -/

theorem MayOverflow.of_queued {s : State} {i : Slot} {p : Part} (state : (s.call i).state = .queued)
    (member : Member s i p) (target : (s.call i).target = none) : MayOverflow (s.untimed i) i p := by
  have self : (s.untimed i).call i = { s.call i with timer := none } := State.call_setCall_self _ _ _
  exact ⟨by rw [self]; exact state, by rw [self]; exact member.partition, member.member, by rw [self]; exact target⟩

theorem Event.waitExpired_eq (s : State) (i : Slot) :
    (Event.begin s).waitExpired i = Event.waitOver { Event.begin s with st := s.untimed i } i := rfl

theorem State.call_untimed (s : State) (i : Slot) : (s.untimed i).call i = { s.call i with timer := none } :=
  State.call_setCall_self _ _ _

theorem Quiet.identity {w t : State} (quiet : Quiet w t) (i : Slot) : (t.call i).identity = (w.call i).identity := by
  have waiting := quiet.waiting i
  simp only [Call.waiting, Prod.mk.injEq] at waiting
  exact waiting.1

theorem Quiet.alert {w t : State} (quiet : Quiet w t) (p : Part) : (t.prt p).alert = (w.prt p).alert :=
  (congrArg Partition.alert (quiet.prt p)).trans rfl

theorem waitExpired_overflows_into {s : State} {i : Slot} {p q : Part} (state : (s.call i).state = .queued)
    (member : Member s i p) (target : (s.call i).target = none) (ne : p ≠ q)
    (into : (s.part p).overflow = .partition q) (enabled : (s.part q).enabled = true) (takes : RoomForNew s q i)
    (room : s.room [.tone (s.call i).caller .ringback]) :
    let t := ((Event.begin s).waitExpired i).finish
    JoinedTail s t i q ∧ leftRoster s t p i ∧ (t.call i).identity = (s.call i).identity ∧
      (t.flag .alert = true ↔ s.flag .alert = true ∨ alertSet s t p ∨ alertSet s t q) ∧
      issued s t i (entries i [.tone (s.call i).caller .ringback]) := by
  have may := MayOverflow.of_queued state member target
  have takes' : RoomForNew (s.untimed i) q i := takes.transfer rfl rfl (s.cls_untimed i)
  obtain ⟨st, refusals, serve⟩ := Event.waitOver_enrolls (e := { Event.begin s with st := s.untimed i }) may ne into
    enabled takes' (by rw [State.call_untimed]; exact room)
  rw [Event.waitExpired_eq]
  generalize Event.waitOver _ i = e at st refusals serve
  have rested : ∀ k ∈ e.serve, unserved e.st k := by rw [serve]; exact nofun
  have quiet : Quiet ((s.untimed i).overflowedTo i q) e.finish := st ▸ (Event.finish_quietEnd refusals rested).quiet
  obtain ⟨joined, left⟩ := quiet.overflowedTo may ne takes'
  obtain ⟨x, hcall⟩ := (s.untimed i).call_overflowedTo i q
  rw [State.call_untimed] at hcall
  refine ⟨joined.transfer rfl rfl rfl, left.transfer rfl rfl, ?_, ?_,
    quiet.issued (by simp [ShelfOrder.isRing]) (fun l => ?_) ?_ ?_⟩
  · rw [quiet.identity, hcall]
    rfl
  · unfold alertSet
    rw [Event.finish_alert refusals rested, st, quiet.alert, quiet.alert]
    exact State.flag_overflowedTo may.home ne
  · rw [State.link_overflowedTo, State.call_untimed]
    rfl
  · rw [hcall]
    rfl
  · rw [State.overflowedTo_rings]
    rfl

theorem waitExpired_announces {s : State} {i : Slot} {p : Part} {a : Circuit} (state : (s.call i).state = .queued)
    (member : Member s i p) (target : (s.call i).target = none) (into : (s.part p).overflow = .fallback)
    (serves : announces s p a) (room : s.room [.tone (s.call i).caller .quiet, .join (s.call i).caller a]) :
    let t := ((Event.begin s).waitExpired i).finish
    leftRoster s t p i ∧
      (t.call i).bare = (Call.announcedBy
        { (s.call i).unlisted with overflowed := true, partition := p, pending := (s.call i).pending + 2 }
        a s.seconds (s.part p).announceTime).bare ∧
      (t.flag .alert = true ↔ s.flag .alert = true ∨ alertSet s t p) ∧
      issued s t i (entries i [.tone (s.call i).caller .quiet, .join (s.call i).caller a]) := by
  have may := MayOverflow.of_queued state member target
  obtain ⟨st, refusals, serve⟩ := Event.waitOver_announces (e := { Event.begin s with st := s.untimed i }) may into
    serves (by rw [State.call_untimed]; exact room)
  rw [Event.waitExpired_eq]
  generalize Event.waitOver _ i = e at st refusals serve
  have rested : ∀ k ∈ e.serve, unserved e.st k := by rw [serve]; exact nofun
  have quiet : Quiet ((s.untimed i).overflowedOut i p a) e.finish := st ▸ (Event.finish_quietEnd refusals rested).quiet
  have hcall := (s.untimed i).call_overflowedOut i p a
  rw [State.call_untimed] at hcall
  refine ⟨(leftRoster_of_departed may.home ?_).transfer rfl rfl, ?_, ?_,
    quiet.issued (by simp [ShelfOrder.isRing]) (fun l => ?_) ?_ ?_⟩
  · rw [quiet.prt, State.prt_overflowedOut]
  · rw [quiet.call i (by rw [hcall]; exact nofun), hcall]
    rfl
  · unfold alertSet
    rw [Event.finish_alert refusals rested, st, quiet.alert]
    exact State.flag_overflowedOut may.home
  · rw [State.link_overflowedOut, State.call_untimed]
    rfl
  · rw [hcall]
    rfl
  · rw [State.overflowedOut_rings]
    rfl

/-- Settles O48. The call leaves its roster and is then placed, so each roster's alert test is made once. -/
theorem waitExpiryOverflows : Obligations.WaitExpiryOverflows := by
  unfold Obligations.WaitExpiryOverflows
  have run : ∀ (s : State) (i : Slot), timerReached s i .wait →
      exec (.waitExpiry i) s = .next ((Event.begin s).waitExpired i).finish := fun s i h =>
    congrArg Host.Outcome.next (h.runs Event.waitExpired)
  constructor
  · intro s i p q timer state member target ne into enabled takes room
    exact ⟨_, run s i timer, waitExpired_overflows_into state member target ne into enabled takes room⟩
  · intro s i p a timer state member target into announcer serves room
    obtain ⟨left, call, alert, orders⟩ := waitExpired_announces state member target into ⟨announcer, serves⟩ room
    refine ⟨_, run s i timer, ?_⟩
    generalize ((Event.begin s).waitExpired i).finish = t at left call alert orders ⊢
    exact ⟨left, congrArg Call.state call, congrArg Call.announcer call, congrArg Call.partition call,
      congrArg Call.overflowed call, congrArg Call.timer call, congrArg Call.place call, alert, orders⟩

end Sys2Proof.Machine
end

section
/-! SUPPORT. What one run of a partition's distribution arbiter deals out: Step A and Step B (R35 to R37). -/

namespace Sys2Proof.Machine

/-! ### What an offer shows -/

theorem Event.pos_offer (e : Event) {i : Slot} {x : Pos} (hq : (e.st.call i).state = .queued) (y : Pos) :
    (e.offer i x).st.pos y = if x = y then { e.st.pos y with offered := some i } else e.st.pos y := by
  rw [e.offer_eq x (by rw [hq]; decide), State.pos_setPos]
  split
  · next h => subst h; rfl
  · rfl

theorem Event.call_offer (e : Event) {i : Slot} {x : Pos} (hq : (e.st.call i).state = .queued) (j : Slot) :
    (e.offer i x).st.call j = if i = j then e.st.offering i x else e.st.call j := by
  rw [e.offer_eq x (by rw [hq]; decide), State.call_setPos, State.call_setCall]

theorem Event.prt_offer (e : Event) {i : Slot} {x : Pos} (hq : (e.st.call i).state = .queued) (q : Part) :
    (e.offer i x).st.prt q = e.st.prt q := by
  rw [e.offer_eq x (by rw [hq]; decide), State.prt_setPos, State.prt_setCall]

/-! ### The position that has been idle longest (R37) -/

/-- One position's turn comes before another's: the earlier idle-since, of equal ones the lower number. -/
def State.sooner (t : State) (x y : Pos) : Prop :=
  (t.pos x).idleSince < (t.pos y).idleSince ∨ (t.pos x).idleSince = (t.pos y).idleSince ∧ x < y

theorem State.sooner_irrefl (t : State) (x : Pos) : ¬ t.sooner x x := by
  rintro (h | ⟨-, h⟩)
  · exact absurd h (BitVec.lt_irrefl _)
  · exact absurd h (lt_irrefl _)

theorem State.sooner_iff (t : State) (x y : Pos) : t.sooner x y ↔
    (t.pos x).idleSince.toNat < (t.pos y).idleSince.toNat ∨
      (t.pos x).idleSince.toNat = (t.pos y).idleSince.toNat ∧ x.val < y.val := by
  unfold State.sooner
  rw [BitVec.lt_def, BitVec.toNat_inj, Fin.lt_def]

theorem State.sooner_asymm {t : State} {x y : Pos} (h : t.sooner x y) : ¬ t.sooner y x := by
  rw [State.sooner_iff] at *
  omega

/-- The better of the position found so far and the next one. -/
def State.better (t : State) (q : Part) (best : Option Pos) (x : Pos) : Option Pos :=
  if t.availableIn q x then
    match best with
    | some b => if (t.pos x).idleSince < (t.pos b).idleSince then some x else some b
    | none => some x
  else best

theorem State.longestIdle_eq (t : State) (q : Part) : t.longestIdle q = (List.finRange 8).foldl (t.better q) none := rfl

/-- Of the positions looked at in ascending order the one that was found comes first. -/
structure Found (t : State) (q : Part) (xs : List Pos) (best : Option Pos) : Prop where
  first : ∀ x ∈ xs, t.availableIn q x = true → ∃ b, best = some b ∧ (b = x ∨ t.sooner b x)
  mem : ∀ b, best = some b → b ∈ xs ∧ t.availableIn q b = true

theorem Found.next {t : State} {q : Part} {xs : List Pos} {best : Option Pos} {x : Pos} (k : Found t q xs best)
    (above : ∀ y ∈ xs, y < x) : Found t q (xs ++ [x]) (t.better q best x) := by
  unfold State.better
  split
  · next hx =>
    cases best with
    | none =>
      refine ⟨fun y hy ha => ?_, fun b hb => ?_⟩
      · rcases List.mem_append.mp hy with h | h
        · obtain ⟨b, hb, -⟩ := k.first y h ha
          cases hb
        · exact ⟨x, rfl, .inl (List.mem_singleton.mp h).symm⟩
      · cases hb
        exact ⟨List.mem_append_right _ List.mem_cons_self, hx⟩
    | some b =>
      obtain ⟨hb, avail⟩ := k.mem b rfl
      have below := above b hb
      dsimp only
      split
      · next lt =>
        refine ⟨fun y hy ha => ⟨x, rfl, ?_⟩, fun c hc => ?_⟩
        · rcases List.mem_append.mp hy with h | h
          · obtain ⟨c, hc, order⟩ := k.first y h ha
            cases hc
            refine .inr ((State.sooner_iff ..).mpr (.inl ?_))
            rw [BitVec.lt_def] at lt
            rcases order with rfl | order
            · exact lt
            · rw [State.sooner_iff] at order
              omega
          · exact .inl (List.mem_singleton.mp h).symm
        · cases hc
          exact ⟨List.mem_append_right _ List.mem_cons_self, hx⟩
      · next ge =>
        refine ⟨fun y hy ha => ?_, fun c hc => ?_⟩
        · rcases List.mem_append.mp hy with h | h
          · exact k.first y h ha
          · rw [List.mem_singleton.mp h]
            refine ⟨b, rfl, .inr ((State.sooner_iff ..).mpr ?_)⟩
            rw [BitVec.lt_def] at ge
            rw [Fin.lt_def] at below
            omega
        · cases hc
          exact ⟨List.mem_append_left _ hb, avail⟩
  · next hx =>
    refine ⟨fun y hy ha => ?_, fun b hb => ?_⟩
    · rcases List.mem_append.mp hy with h | h
      · exact k.first y h ha
      · rw [List.mem_singleton.mp h] at ha
        exact absurd ha hx
    · obtain ⟨hm, avail⟩ := k.mem b hb
      exact ⟨List.mem_append_left _ hm, avail⟩

theorem Found.foldl {t : State} {q : Part} {xs ys : List Pos} {best : Option Pos} (k : Found t q xs best)
    (ascending : (xs ++ ys).Pairwise (· < ·)) : Found t q (xs ++ ys) (ys.foldl (t.better q) best) := by
  induction ys generalizing xs best with
  | nil => rw [List.append_nil]; exact k
  | cons y ys ih =>
    rw [List.append_cons] at ascending ⊢
    have above := (List.pairwise_append.mp (List.pairwise_append.mp ascending).1).2.2
    exact ih (k.next fun z hz => above z hz y List.mem_cons_self) ascending

theorem State.longestIdle_found (t : State) (q : Part) : Found t q (List.finRange 8) (t.longestIdle q) := by
  have start : Found t q [] none := ⟨nofun, nofun⟩
  rw [State.longestIdle_eq]
  exact start.foldl (ys := List.finRange 8) (List.pairwise_lt_finRange 8)

/-- The head of the available positions in turn is the one that Step B takes. -/
theorem State.longestIdle_head {t : State} {q : Part} {xs : List Pos} (sorted : xs.Pairwise t.sooner)
    (all : ∀ x, x ∈ xs ↔ t.availableIn q x = true) : t.longestIdle q = xs.head? := by
  have found := t.longestIdle_found q
  cases xs with
  | nil =>
    cases hb : t.longestIdle q with
    | none => rfl
    | some b => exact absurd ((all b).mpr (found.mem b hb).2) List.not_mem_nil
  | cons x xs =>
    obtain ⟨b, hb, order⟩ := found.first x (List.mem_finRange x) ((all x).mp List.mem_cons_self)
    rw [hb, List.head?_cons, Option.some.injEq]
    refine order.resolve_right fun sooner => ?_
    rcases List.mem_cons.mp ((all b).mpr (found.mem b hb).2) with h | h
    · exact t.sooner_irrefl x (h ▸ sooner)
    · exact State.sooner_asymm sooner ((List.pairwise_cons.mp sorted).1 b h)

/-! ### Step A (R36) -/

/-- A QUEUED RECALL member that comes from the position. -/
def State.comesFrom (u : State) (x : Pos) (j : Slot) : Bool :=
  (u.call j).state == .queued && (u.call j).cls == .recall && (u.call j).origin == some x

theorem State.comesFrom_iff {u : State} {x : Pos} {j : Slot} : u.comesFrom x j = true ↔
    ((u.call j).state = .queued ∧ (u.call j).cls = .recall) ∧ (u.call j).origin = some x := by
  unfold State.comesFrom
  simp only [Bool.and_eq_true, beq_iff_eq]

/-- Step A has dealt with the members `js` of the roster. -/
structure DealtA (u : State) (q : Part) (js : List Slot) (v : State) : Prop where
  dealt : Dealt (fun x => u.availableIn q x = true) u v
  offered : ∀ x, u.availableIn q x = true → (v.pos x).offered = js.find? (u.comesFrom x)

section DealtA

variable {u : State} {q : Part} {js : List Slot}

theorem DealtA.untouched {v : State} (k : DealtA u q js v) {j : Slot} (fresh : j ∉ js) : v.call j = u.call j :=
  k.dealt.waits j fun x hx ho => fresh (List.mem_of_find?_eq_some ((k.offered x hx).symm.trans ho))

theorem DealtA.availableIn {v : State} (k : DealtA u q js v) {x : Pos} (hx : u.availableIn q x = true) :
    v.availableIn q x = true ↔ js.find? (u.comesFrom x) = none := by
  rw [← k.offered x hx]
  refine ⟨State.availableIn_offered, fun ho => ?_⟩
  have same : v.pos x = u.pos x := by rw [k.dealt.panel, ho, ← State.availableIn_offered hx]
  rw [State.availableIn_congr same]
  exact hx

theorem DealtA.step {e : Event} {j : Slot} (k : DealtA u q js e.st) (fresh : j ∉ js) :
    DealtA u q (js ++ [j]) (e.stepA q j).st := by
  have same := k.untouched fresh
  refine ⟨k.dealt.stepA (u.takes_availableIn q), fun x hx => ?_⟩
  have stays : u.comesFrom x j = false → (js ++ [j]).find? (u.comesFrom x) = js.find? (u.comesFrom x) := fun h => by
    rw [List.find?_append, List.find?_cons_of_neg (by rw [h]; decide), List.find?_nil, Option.or_none]
  unfold Event.stepA
  dsimp only
  rw [same]
  split
  · next o ho =>
    split
    · next h =>
      obtain ⟨hq, hc, avail⟩ := h
      rw [Event.pos_offer e (by rw [same]; exact hq)]
      split
      · next hox =>
        subst hox
        have comes : u.comesFrom o j = true := State.comesFrom_iff.mpr ⟨⟨hq, hc⟩, ho⟩
        rw [List.find?_append, (k.availableIn hx).mp avail, List.find?_cons_of_pos comes, Option.none_or]
      · next hox =>
        rw [k.offered x hx, stays]
        refine Bool.eq_false_iff.mpr fun h => hox ?_
        exact Option.some.inj (ho.symm.trans (State.comesFrom_iff.mp h).2)
    · next h =>
      rw [k.offered x hx]
      by_cases comes : u.comesFrom x j = true
      · obtain ⟨⟨hq, hc⟩, hx'⟩ := State.comesFrom_iff.mp comes
        cases ho.symm.trans hx'
        cases hf : js.find? (u.comesFrom x) with
        | none => exact absurd ⟨hq, hc, (k.availableIn hx).mpr hf⟩ h
        | some i => rw [List.find?_append, hf, Option.some_or]
      · exact (stays (Bool.eq_false_iff.mpr comes)).symm
  · next ho =>
    rw [k.offered x hx, stays]
    refine Bool.eq_false_iff.mpr fun h => ?_
    cases ho.symm.trans (State.comesFrom_iff.mp h).2

theorem DealtA.foldl {e : Event} {is : List Slot} (k : DealtA u q js e.st) (once : (js ++ is).Nodup) :
    DealtA u q (js ++ is) (is.foldl (Event.stepA q) e).st := by
  induction is generalizing js e with
  | nil => rw [List.append_nil]; exact k
  | cons j is ih =>
    have fresh : j ∉ js := fun h => (List.nodup_append.mp once).2.2 j h j List.mem_cons_self rfl
    rw [List.append_cons] at once ⊢
    exact ih (k.step fresh) once

end DealtA

theorem Event.stepA_deals (e : Event) (q : Part) (once : (e.st.prt q).roster.Nodup) :
    DealtA e.st q (e.st.prt q).roster ((e.st.prt q).roster.foldl (Event.stepA q) e).st := by
  have start : DealtA e.st q [] e.st := ⟨.refl fun _ => State.availableIn_offered, fun _ => State.availableIn_offered⟩
  exact start.foldl (is := (e.st.prt q).roster) once

/-! ### Step B (R37) -/

/-- The QUEUED members of the roster. -/
def State.queuedIn (t : State) (q : Part) : List Slot := (t.prt q).roster.filter fun i => (t.call i).state == .queued

theorem State.firstQueued_eq (t : State) (q : Part) : t.firstQueued q = (t.queuedIn q).head? := by
  unfold State.firstQueued State.queuedIn
  rw [List.head?_filter]

/-- The positions available to the partition, in turn. -/
structure Turns (t : State) (q : Part) (xs : List Pos) : Prop where
  sorted : xs.Pairwise t.sooner
  all : ∀ x, x ∈ xs ↔ t.availableIn q x = true

theorem Turns.offer {e : Event} {q : Part} {i : Slot} {x : Pos} {xs : List Pos} (k : Turns e.st q (x :: xs))
    (hq : (e.st.call i).state = .queued) : Turns (e.offer i x).st q xs := by
  obtain ⟨before, rest⟩ := List.pairwise_cons.mp k.sorted
  have idle : ∀ y, ((e.offer i x).st.pos y).idleSince = (e.st.pos y).idleSince := fun y => by
    rw [e.pos_offer hq]; split <;> rfl
  refine ⟨rest.imp fun {a b} h => ?_, fun y => ?_⟩
  · unfold State.sooner at *
    rw [idle, idle]
    exact h
  · by_cases hy : x = y
    · subst hy
      have taken : (e.offer i x).st.availableIn q x ≠ true := fun h => by
        have := State.availableIn_offered h
        rw [e.pos_offer hq, if_pos rfl] at this
        cases this
      exact iff_of_false (fun h => e.st.sooner_irrefl x (before x h)) taken
    · rw [State.availableIn_congr ((e.pos_offer hq y).trans (if_neg hy)), ← k.all, List.mem_cons, or_iff_right (Ne.symm hy)]

theorem Event.queuedIn_offer {e : Event} {q : Part} {i : Slot} {x : Pos} {ys : List Slot}
    (once : (e.st.prt q).roster.Nodup) (hq : (e.st.call i).state = .queued) (head : e.st.queuedIn q = i :: ys) :
    (e.offer i x).st.queuedIn q = ys := by
  have nodup : (i :: ys).Nodup := head ▸ once.filter _
  have gone : (e.offer i x).st.queuedIn q = (e.st.queuedIn q).filter (· != i) := by
    unfold State.queuedIn
    rw [e.prt_offer hq, List.filter_filter]
    refine List.filter_congr fun j _ => ?_
    rw [e.call_offer hq]
    by_cases hj : i = j
    · subst hj
      rw [if_pos rfl, bne_self_eq_false]
      rfl
    · rw [if_neg hj, bne_iff_ne.mpr (Ne.symm hj), Bool.true_and]
  rw [gone, head, List.filter_cons_of_neg (by simp), List.filter_eq_self]
  exact fun j hj => bne_iff_ne.mpr fun h => (List.nodup_cons.mp nodup).1 (h ▸ hj)

/-- Step B gives the positions in turn the members in roster order. -/
theorem Event.stepB_deals {e : Event} {q : Part} {n : Nat} {xs : List Pos} (once : (e.st.prt q).roster.Nodup)
    (turns : Turns e.st q xs) (enough : xs.length ≤ n) :
    (∀ (k : Nat) x, xs[k]? = some x → ((e.stepB q n).st.pos x).offered = (e.st.queuedIn q)[k]?) ∧
      ∀ x, x ∉ xs → (e.stepB q n).st.pos x = e.st.pos x := by
  induction n generalizing e xs with
  | zero =>
    rw [List.length_eq_zero_iff.mp (Nat.le_zero.mp enough)]
    exact ⟨nofun, fun _ _ => rfl⟩
  | succ n ih =>
    have free : ∀ (k : Nat) x, xs[k]? = some x → (e.st.pos x).offered = none := fun k x hx =>
      State.availableIn_offered ((turns.all x).mp (List.mem_of_getElem? hx))
    unfold Event.stepB
    rw [State.firstQueued_eq, State.longestIdle_head turns.sorted turns.all]
    cases hy : e.st.queuedIn q with
    | nil => exact ⟨fun k x hx => (free k x hx).trans List.getElem?_nil.symm, fun _ _ => rfl⟩
    | cons i ys =>
      cases xs with
      | nil => exact ⟨nofun, fun _ _ => rfl⟩
      | cons x xs =>
        have hq : (e.st.call i).state = .queued := State.firstQueued_queued (p := q) (by rw [State.firstQueued_eq, hy]; rfl)
        have turns' := turns.offer hq
        have once' : ((e.offer i x).st.prt q).roster.Nodup := by rw [e.prt_offer hq]; exact once
        have unlisted : x ∉ xs := fun h => e.st.sooner_irrefl x ((List.pairwise_cons.mp turns.sorted).1 x h)
        obtain ⟨given, kept⟩ := ih once' turns' (Nat.le_of_succ_le_succ enough)
        rw [Event.queuedIn_offer once hq hy] at given
        dsimp only [List.head?_cons]
        refine ⟨fun k y hk => ?_, fun y hy => ?_⟩
        · cases k with
          | zero =>
            cases hk
            rw [kept x unlisted, e.pos_offer hq, if_pos rfl]
            rfl
          | succ k => exact given k y hk
        · obtain ⟨ne, out⟩ := not_or.mp (mt List.mem_cons.mpr hy)
          rw [kept y out, e.pos_offer hq, if_neg (Ne.symm ne)]

end Sys2Proof.Machine
end

section
/-! SUPPORT. The run of a partition's distribution arbiter as the obligations state it (R35 to R38). -/

namespace Sys2Proof.Machine

theorem canTake_eq (u : State) (q : Part) (x : Pos) : canTake u q x = u.availableIn q x := by
  have none : ∀ {α : Type} [BEq α] (o : Option α), (o == .none) = o.isNone := fun o => by cases o <;> rfl
  have loops : ((u.pos x).loops.list.any (·.isNone)) =
      (List.finRange 4).any fun l => (u.pos x).loops.get l == .none := by
    rw [Table.list_eq_map, List.any_map]
    simp only [Function.comp_def, none]
  unfold canTake State.availableIn Position.available
  rw [loops]
  simp only [none, Bool.and_assoc]

/-- Two call records are the same but for their estimates and revisions. -/
def Call.alike (c d : Call) : Prop := ∃ y, c.bare = { d.bare with estimate := y }

section CallAlike

variable {c d : Call}

theorem Call.alike.refl (c : Call) : Call.alike c c := ⟨_, rfl⟩

theorem Call.alike.state (k : Call.alike c d) : c.state = d.state := by
  obtain ⟨y, hy⟩ := k
  have h : c.bare.state = d.bare.state := by rw [hy]
  exact h

theorem Call.alike.cls (k : Call.alike c d) : c.cls = d.cls := by
  obtain ⟨y, hy⟩ := k
  have h : c.bare.cls = d.bare.cls := by rw [hy]
  exact h

theorem Call.alike.origin (k : Call.alike c d) : c.origin = d.origin := by
  obtain ⟨y, hy⟩ := k
  have h : c.bare.origin = d.bare.origin := by rw [hy]
  exact h

theorem Call.alike.place (k : Call.alike c d) : c.place = d.place := by
  obtain ⟨y, hy⟩ := k
  have h : c.bare.place = d.bare.place := by rw [hy]
  exact h

theorem Call.alike.waitDeadline (k : Call.alike c d) : c.waitDeadline = d.waitDeadline := by
  obtain ⟨y, hy⟩ := k
  have h : c.bare.waitDeadline = d.bare.waitDeadline := by rw [hy]
  exact h

theorem Call.alike.onLoop (k : Call.alike c d) (st : CallState) (now : Seconds) : onLoop c st now = onLoop d st now := by
  obtain ⟨y, hy⟩ := k
  unfold Sys2Proof.Machine.onLoop
  rw [hy]

end CallAlike

/-- Two states in which the arbiter of a partition finds the same. -/
structure Alike (u v : State) (q : Part) : Prop where
  pos : ∀ x, u.pos x = v.pos x
  roster : (u.prt q).roster = (v.prt q).roster
  call : ∀ j, (u.call j).alike (v.call j)
  part : u.part q = v.part q
  seconds : u.seconds = v.seconds

section Alike

variable {u v : State} {q : Part}

theorem Alike.canTake (k : Alike u v q) (x : Pos) : canTake u q x = v.availableIn q x := by
  rw [canTake_eq, State.availableIn_congr (k.pos x)]

theorem Alike.recallOf (k : Alike u v q) (x : Pos) : recallOf u q x = (v.prt q).roster.find? (v.comesFrom x) := by
  unfold Sys2Proof.Machine.recallOf
  rw [k.roster]
  congr 1
  funext j
  unfold State.comesFrom
  rw [(k.call j).state, (k.call j).cls, (k.call j).origin]

theorem keepsRinging_offered (a : CallState) : keepsRinging a .offered = false := by cases a <;> rfl

theorem Alike.offerOf (k : Alike u v q) {i : Slot} (home : (v.call i).partition = q) (x : Pos) :
    offerOf u q i x = (v.offering i x).bare := by
  subst home
  unfold Sys2Proof.Machine.offerOf
  rw [(k.call i).onLoop, (k.call i).place, (k.call i).waitDeadline, k.seconds, k.part]
  unfold State.offering Call.offeredTo Call.enter
  rw [keepsRinging_offered]
  rfl

theorem Alike.queued (k : Alike u v q) (j : Slot) : ((u.call j).state == .queued) = ((v.call j).state == .queued) := by
  rw [(k.call j).state]

end Alike

/-! ### Whom the arbiter offers -/

theorem Event.stepB_members {e : Event} {q : Part} {n : Nat} {x : Pos} {i : Slot}
    (h : ((e.stepB q n).st.pos x).offered = some i) : (e.st.pos x).offered = some i ∨ i ∈ (e.st.prt q).roster := by
  induction n generalizing e with
  | zero => exact .inl h
  | succ n ih =>
    unfold Event.stepB at h
    split at h
    · next j y hj hy =>
      have hq := State.firstQueued_queued hj
      have := ih h
      rw [e.pos_offer hq, e.prt_offer hq] at this
      refine this.elim (fun ho => ?_) .inr
      split at ho
      · cases ho
        exact .inr (List.mem_of_find?_eq_some hj)
      · exact .inl ho
    · exact .inl h

section LeftOver

variable {u v w : State} {q : Part}

theorem DealtA.turns (dealtA : DealtA v q (v.prt q).roster w) (alike : Alike u v q) {xs : List Pos}
    (turn : inTurn u q xs) : Turns w q xs := by
  obtain ⟨sorted, all⟩ := turn
  have idle : ∀ x, (w.pos x).idleSince = (u.pos x).idleSince := fun x => by
    rw [dealtA.dealt.panel, alike.pos]
  refine ⟨sorted.imp fun {a b} h => ?_, fun x => ?_⟩
  · unfold State.sooner
    rw [idle, idle]
    exact h
  · rw [all, alike.canTake, alike.recallOf]
    constructor
    · rintro ⟨hx, hn⟩
      exact (dealtA.availableIn hx).mpr hn
    · intro hx
      have was : v.availableIn q x = true := by
        rw [← State.availableIn_congr (dealtA.dealt.available (fun _ => State.availableIn_offered) hx)]
        exact hx
      exact ⟨was, (dealtA.availableIn was).mp hx⟩

theorem DealtA.queuedIn (dealtA : DealtA v q (v.prt q).roster w) (alike : Alike u v q) :
    w.queuedIn q = leftToStepB u q := by
  unfold State.queuedIn leftToStepB
  rw [dealtA.dealt.prt, alike.roster]
  refine List.filter_congr fun i _ => ?_
  rw [alike.queued]
  simp only [alike.canTake, alike.recallOf]
  cases hany : (List.finRange 8).any
      (fun x => v.availableIn q x && (v.prt q).roster.find? (v.comesFrom x) == some i) with
  | true =>
    obtain ⟨x, -, hx⟩ := List.any_eq_true.mp hany
    rw [Bool.and_eq_true, beq_iff_eq] at hx
    have ho := (dealtA.offered x hx.1).trans hx.2
    rw [(dealtA.dealt.offered x i hx.1 ho).2, Bool.not_true, Bool.and_false]
    rfl
  | false =>
    have stays : w.call i = v.call i := dealtA.dealt.waits i fun x hx ho => by
      refine Bool.eq_false_iff.mp hany (List.any_eq_true.mpr ⟨x, List.mem_finRange x, ?_⟩)
      rw [Bool.and_eq_true, beq_iff_eq]
      exact ⟨hx, (dealtA.offered x hx).symm.trans ho⟩
    rw [stays, Bool.not_false, Bool.and_true]

theorem inTurn_length {xs : List Pos} (turn : inTurn u q xs) : xs.length ≤ 8 := by
  have sorted : xs.Pairwise u.sooner := turn.1
  have nodup : xs.Nodup := sorted.imp fun {a b} (h : u.sooner a b) (he : a = b) => u.sooner_irrefl b (he ▸ h)
  exact nodup.length_le_card.trans (Fintype.card_fin 8).le

end LeftOver

/-- The arbiter has run: whom each available position is offered to, and who waits on. -/
theorem Event.arbiter_distributes {e : Event} {u t : State} {q : Part} (alike : Alike u e.st q)
    (once : (e.st.prt q).roster.Nodup) (home : ∀ j ∈ (e.st.prt q).roster, (e.st.call j).partition = q)
    (revised : Revised (e.arbiter q).st t) (quiet : Quiet (e.arbiter q).st t) : Distributed u t q := by
  have dealtA := e.stepA_deals q once
  have dealt : Dealt (fun x => e.st.availableIn q x = true) e.st (e.arbiter q).st :=
    dealtA.dealt.stepB (e.st.takes_availableIn q)
  have members : ∀ x i, e.st.availableIn q x = true → (t.pos x).offered = some i → i ∈ (e.st.prt q).roster :=
    fun x i hx ho => by
      rw [revised.offered] at ho
      rcases Event.stepB_members ho with h | h
      · rw [dealtA.offered x hx] at h
        exact List.mem_of_find?_eq_some h
      · rw [dealtA.dealt.prt] at h
        exact h
  constructor
  case stepA =>
    intro x i hx hi
    rw [alike.canTake] at hx
    rw [alike.recallOf, ← dealtA.offered x hx] at hi
    rw [revised.offered]
    have kept := (Event.stepB_quiet (p := q) (n := 8) (Quiet.refl ((e.st.prt q).roster.foldl (Event.stepA q) e).st)).offered x
      (by rw [hi]; rfl)
    exact kept.trans hi
  case stepB =>
    intro xs turn n x hx
    have once' : (((e.st.prt q).roster.foldl (Event.stepA q) e).st.prt q).roster.Nodup := by
      rw [dealtA.dealt.prt]
      exact once
    rw [revised.offered, ← dealtA.queuedIn alike]
    exact (Event.stepB_deals once' (dealtA.turns alike turn) (inTurn_length turn)).1 n x hx
  case apart =>
    intro x hx
    rw [alike.canTake] at hx
    rw [revised.offered, dealt.apart x (Bool.eq_false_iff.mp hx), alike.pos]
  case offered =>
    intro x i hx ho
    rw [alike.canTake] at hx
    rw [alike.offerOf (home i (members x i hx ho))]
    rw [revised.offered] at ho
    obtain ⟨-, made⟩ := dealt.offered x i hx ho
    rw [quiet.call i (by rw [made]; exact nofun), made]
  case waiting =>
    intro i _ _ none
    have stays : (e.arbiter q).st.call i = e.st.call i := dealt.waits i fun x hx ho =>
      none x (by rw [alike.canTake]; exact hx) ((revised.offered x).trans ho)
    obtain ⟨y, hy⟩ := revised.call i
    obtain ⟨z, hz⟩ := alike.call i
    rw [stays] at hy
    have estimate : (t.call i).bare.estimate = y := by rw [hy]
    rw [hz, show (t.call i).estimate = y from estimate, hy]

end Sys2Proof.Machine
end

section
/-! SUPPORT. The OFFER timer and the held wait deadline (R34, R40, R41). -/

namespace Sys2Proof.Machine

/-! ### What a quiet end leaves aside -/

theorem Quiet.aside {s w t : State} {call : Slot → Prop} {pos : Pos → Prop} {prt : Part → Prop} (quiet : Quiet w t)
    (calls : ∀ i, ¬ call i → w.call i = s.call i) (panels : ∀ p, ¬ pos p → w.pos p = s.pos p)
    (parts : ∀ q, ¬ prt q → w.prt q = s.prt q) (lamps : ∀ k, w.lamp k = s.lamp k) (free : w.free = s.free) :
    Aside s t call pos prt fun _ => False where
  calls := fun i hi hs => by
    rw [← calls i hi] at hs ⊢
    exact quiet.call i hs
  queued := fun i hi hs => by
    rw [← calls i hi] at hs ⊢
    exact ⟨quiet.queued i hs, quiet.waiting i⟩
  positions := fun p hp => (quiet.pos p).trans (congrArg Position.bare (panels p hp))
  partitions := fun q hq => (quiet.prt q).trans (congrArg Partition.bare (parts q hq))
  lamps := fun k _ => (quiet.lamp k).trans (congrArg Lamp.bare (lamps k))
  free := quiet.free.trans free

theorem Quiet.silent {s w t : State} (quiet : Quiet w t) (links : ∀ l, w.link l = s.link l) (rings : w.rings = s.rings) :
    silent s t :=
  ⟨fun l => (congrArg Link.queue (quiet.link l)).trans (congrArg (fun k => k.bare.queue) (links l)), quiet.rings.trans rings⟩

/-! ### An expiry command of a call without a timer -/

theorem State.timerExpiry_off {s : State} {i : Slot} (h : (s.call i).timer = none) (k : TimerKind)
    (owner : Event → Slot → Event) : s.timerExpiry i k owner = s := by
  unfold State.timerExpiry State.timerDue
  rw [h]
  rfl

/-! ### The wait deadline of an OFFERED call (R34) -/

/-- The event that holds the expiry of a call. -/
def Event.holds (s : State) (i : Slot) : Event :=
  { Event.begin s with st := s.setCall i { s.call i with expiryHeld := true } }

theorem State.waitHeld_eq {s : State} {i : Slot} {d : Seconds} (state : (s.call i).state = .offered)
    (deadline : (s.call i).waitDeadline = some d) (passed : (s.seconds - d).toNat < 2 ^ 31) :
    s.waitHeld i = (Event.holds s i).commit := by
  unfold State.waitHeld
  dsimp only
  rw [deadline]
  dsimp only
  rw [if_pos ⟨state, decide_eq_true passed⟩]
  exact Event.finish_idle (e := Event.holds s i) rfl rfl (fun _ => rfl) rfl rfl

theorem Event.holds_raises (s : State) (i : Slot) :
    let e := (Event.holds s i).upd State.retie
    (∀ p, e.posRaises.get p = false) ∧ ∀ q, e.prtRaises.get q = false := by
  intro e
  refine ⟨fun p => ?_, fun q => ?_⟩
  · have same : (e.start.pos p).same (e.st.pos p) = true := (Position.same_iff _ _).mpr rfl
    rw [Event.posRaises, Table.get_make, same]
    rfl
  · have same : (e.start.prt q).same (e.st.prt q) = true := (Partition.same_iff _ _).mpr rfl
    have touched : e.touched.get q = false := Table.get_fill _ _
    have cls : ∀ j, (e.start.call j).cls = (e.st.call j).cls := fun j => by
      show _ = ((s.setCall i _).call j).cls
      rw [State.call_setCall]
      split
      · next h => subst h; rfl
      · rfl
    have count : (e.start.newCount q != e.st.newCount q) = false := by
      rw [State.newCount_congr (t := e.start) (u := e.st) rfl cls]
      exact bne_self_eq_false _
    have settings : (e.start.settings q != e.st.settings q) = false := bne_self_eq_false _
    rw [Event.prtRaises, Table.get_make, same, touched, count, settings]
    rfl

theorem Event.holds_commit (s : State) (i : Slot) :
    (Event.holds s i).commit.positions = s.positions ∧ (Event.holds s i).commit.parts = s.parts := by
  obtain ⟨panels, parts⟩ := Event.holds_raises s i
  have bump := (State.bumpBoard_unseen ((Event.holds s i).upd State.retie).raiseRecords
    ((Event.holds s i).upd State.retie).raises).same
  simp only [Prod.mk.injEq] at bump
  obtain ⟨-, -, hp, hq, -, -⟩ := bump
  constructor
  · refine Table.ext_get fun p => (congrArg (fun c => c.get p) hp).trans ((Event.pos_raiseRecords _ _).trans ?_)
    rw [panels]
    rfl
  · refine Table.ext_get fun q => (congrArg (fun c => c.get q) hq).trans ((Event.prt_raiseRecords _ _).trans ?_)
    rw [parts]
    rfl

theorem waitDeadline_held {s : State} {i : Slot} {d : Seconds} (state : (s.call i).state = .offered)
    (deadline : (s.call i).waitDeadline = some d) (passed : (s.seconds - d).toNat < 2 ^ 31) :
    let t := s.waitHeld i
    (t.call i).bare = { (s.call i).bare with expiryHeld := true } ∧ silent s t ∧ t.positions = s.positions ∧
      t.parts = s.parts ∧ Aside s t (· = i) (fun _ => False) (fun _ => False) fun _ => False := by
  intro t
  have ends : t = (Event.holds s i).commit := State.waitHeld_eq state deadline passed
  have quiet : Quiet (Event.holds s i).st t := ends ▸ Event.commit_quiet (.refl _)
  obtain ⟨panels, parts⟩ := Event.holds_commit s i
  refine ⟨?_, quiet.silent (fun _ => rfl) rfl, ends ▸ panels, ends ▸ parts,
    quiet.aside (fun j hj => ?_) (fun _ _ => rfl) (fun _ _ => rfl) (fun _ => rfl) rfl⟩
  · have self : (Event.holds s i).st.call i = { s.call i with expiryHeld := true } := State.call_setCall_self _ _ _
    rw [quiet.call i (by rw [self, state]; exact nofun), self]
    rfl
  · exact State.call_setCall_ne _ _ (Ne.symm hj)

/-! ### An offer that runs out (R40, R41) -/

/-- The panel of a position that let an offer run out. -/
def Position.missing (q : Position) (now : Seconds) : Position :=
  { q with
    offered := none, missed := q.missed + 1, idleSince := now, pause := if 1 ≤ q.missed then some .missed else q.pause }

/-- An OFFERED call's record when it is back in its place. -/
def Call.returned (c : Call) (now : Seconds) : Call :=
  { c.enter .queued now with timer := if c.expiryHeld then none else c.waitDeadline.map fun d => (.wait, d) }

/-- The offer has run out and the call is QUEUED again. -/
def State.returned (s : State) (i : Slot) (p : Pos) : State :=
  (s.setPos p ((s.pos p).missing s.seconds)).setCall i ((s.call i).returned s.seconds)

theorem Event.backToQueue_eq {e : Event} {i : Slot} (live : (e.st.call i).state ≠ .free)
    (target : (e.st.call i).target = none) :
    e.backToQueue i =
      { e with
        st := e.st.setCall i ((e.st.call i).returned e.st.seconds), changed := e.changed ++ [i]
        passes := e.passes.set (e.st.call i).partition true, touched := e.touched.set (e.st.call i).partition true
        gained := e.gained.set (e.st.call i).partition true } := by
  have quiet : (e.st.call i).letsGo = [] := by unfold Call.letsGo; rw [target]
  unfold Event.backToQueue Event.rosterMoved Event.gain Event.updCall Event.upd
  dsimp only
  rw [Event.toState_eq e live, quiet, if_neg (by decide), List.append_nil]
  unfold Call.returned
  cases (e.st.call i).waitDeadline with
  | none =>
    dsimp only
    rw [Option.map_none, ite_self]
    rfl
  | some d =>
    dsimp only
    split
    · rfl
    · rw [State.call_setCall_self, State.setCall_setCall]
      rfl

theorem Event.offerExpired_eq {s : State} {i : Slot} {p : Pos} (h : OfferedTo s i p) :
    ∃ f : Event, (Event.begin s).offerExpired i = (if (s.call i).expiryHeld then f.waitOver i else f) ∧
      f.st = s.returned i p ∧ f.start = s ∧ f.refusals = [] ∧ f.serve = [] ∧
      f.gained = (Table.fill false).set (s.call i).partition true := by
  have live : (s.call i).state ≠ .free := by rw [h.state]; decide
  have panel : ({ s.pos p with
      offered := none, missed := (s.pos p).missed + 1, idleSince := s.seconds
      pause := if 2 ≤ (s.pos p).missed + 1 then some .missed else (s.pos p).pause } : Position) =
      (s.pos p).missing s.seconds := by
    unfold Position.missing
    simp only [Nat.reduceLeDiff]
  have back := Event.backToQueue_eq (e := { Event.begin s with st := s.setPos p ((s.pos p).missing s.seconds) })
    (i := i) live h.target
  refine ⟨_, ?_, congrArg Event.st back, congrArg Event.start back, congrArg Event.refusals back, congrArg Event.serve back,
    congrArg Event.gained back⟩
  unfold Event.offerExpired
  have position : ((Event.begin s).st.call i).position = some p := h.position
  rw [position]
  dsimp only
  unfold Event.returnCall Event.updPos Event.upd
  rw [← panel]
  rfl

end Sys2Proof.Machine
end

section
/-! SUPPORT. The OFFER timer of a call whose wait has run out meanwhile (R34, R40, R41). -/

namespace Sys2Proof.Machine

/-! ### What an overflow leaves unchanged -/

section Unchanged

variable (u : State) (i : Slot) (p q : Part) (a : Circuit)

@[simp] theorem State.tailed_seconds : (u.tailed i).seconds = u.seconds := by simp [State.tailed]

theorem State.pos_overflowedTo (x : Pos) : (u.overflowedTo i q).pos x = u.pos x := by
  unfold State.overflowedTo State.enrolled State.diverted
  rw [State.pos_sendAll, State.pos_tailed, State.pos_setCall, State.pos_departed]

theorem State.lamp_overflowedTo (k : Circuit) : (u.overflowedTo i q).lamp k = u.lamp k := by
  unfold State.overflowedTo State.enrolled State.diverted
  rw [State.lamp_sendAll, State.lamp_tailed, State.lamp_setCall, State.lamp_departed]

theorem State.overflowedTo_free : (u.overflowedTo i q).free = u.free := by
  unfold State.overflowedTo State.enrolled State.diverted
  rw [State.sendAll_free, State.tailed_free, State.setCall_free, State.departed_free]

theorem State.overflowedTo_seconds : (u.overflowedTo i q).seconds = u.seconds := by
  unfold State.overflowedTo State.enrolled State.diverted
  rw [State.sendAll_seconds, State.tailed_seconds, State.setCall_seconds, State.departed_seconds]

theorem State.pos_overflowedOut (x : Pos) : (u.overflowedOut i p a).pos x = u.pos x := by
  unfold State.overflowedOut State.announcing State.diverted
  dsimp only
  rw [State.pos_setCall, State.pos_sendAll, State.pos_setCall, State.pos_departed]

theorem State.lamp_overflowedOut (k : Circuit) : (u.overflowedOut i p a).lamp k = u.lamp k := by
  unfold State.overflowedOut State.announcing State.diverted
  dsimp only
  rw [State.lamp_setCall, State.lamp_sendAll, State.lamp_setCall, State.lamp_departed]

theorem State.overflowedOut_free : (u.overflowedOut i p a).free = u.free := by
  unfold State.overflowedOut State.announcing State.diverted
  dsimp only
  rw [State.setCall_free, State.sendAll_free, State.setCall_free, State.departed_free]

theorem State.overflowedOut_seconds : (u.overflowedOut i p a).seconds = u.seconds := by
  unfold State.overflowedOut State.announcing State.diverted
  dsimp only
  rw [State.setCall_seconds, State.sendAll_seconds, State.setCall_seconds, State.departed_seconds]

variable {u i p q a}

theorem State.call_overflowedTo_out (home : (u.call i).partition = p) (ne : p ≠ q) {j : Slot} (hj : i ≠ j)
    (left : j ∉ (u.prt p).roster) (into : j ∉ (u.prt q).roster) : (u.overflowedTo i q).call j = u.call j := by
  have there : (((u.departed i).diverted i q).call i).partition = q := by rw [State.call_diverted_self]
  have was : (u.departed i).prt q = u.prt q := State.prt_departed_ne _ _ (by rw [home]; exact ne.symm)
  have out : j ∉ ((u.departed i).diverted i q).tailRoster i := by
    unfold State.tailRoster
    rw [there, State.prt_diverted, was, List.mem_append, List.mem_singleton]
    exact fun h => h.elim into (Ne.symm hj)
  unfold State.overflowedTo State.enrolled
  rw [State.call_sendAll, if_neg hj, State.call_tailed_out _ _ out, State.call_diverted_ne _ _ _ hj,
    State.call_departed_out _ _ hj (by rw [home]; exact left)]

theorem State.call_overflowedOut_out (home : (u.call i).partition = p) {j : Slot} (hj : i ≠ j)
    (left : j ∉ (u.prt p).roster) : (u.overflowedOut i p a).call j = u.call j := by
  unfold State.overflowedOut State.announcing
  dsimp only
  rw [State.call_setCall_ne _ _ hj, State.call_sendAll, if_neg hj, State.call_diverted_ne _ _ _ hj,
    State.call_departed_out _ _ hj (by rw [home]; exact left)]

theorem State.prt_overflowedTo_out (home : (u.call i).partition = p) {r : Part} (hp : r ≠ p) (hq : r ≠ q) :
    (u.overflowedTo i q).prt r = u.prt r := by
  rw [State.prt_overflowedTo_ne _ _ hq, State.prt_departed_ne _ _ (by rw [home]; exact hp)]

end Unchanged

/-! ### Idle-since (R69) -/

theorem Event.finish_idleSince {e : Event} (hr : e.refusals = []) (hs : ∀ k ∈ e.serve, unserved e.st k) (x : Pos) :
    (e.finish.pos x).idleSince = (e.st.pos x).idleSince ∨ (e.finish.pos x).idleSince = e.st.seconds := by
  obtain ⟨dealt, revised, -⟩ := Event.finish_ends hr hs
  have same : (e.finish.pos x).idleSince = (e.testPositions.st.pos x).idleSince := by
    rw [revised.idle, dealt.panel]
  rcases e.testPositions_tested.idle x with h | ⟨-, h⟩
  · exact .inl (same.trans (congrArg Position.idleSince h))
  · exact .inr (same.trans h)

/-! ### The state in which the offer has run out -/

section Returned

variable (s : State) (i : Slot) (p : Pos)

theorem State.call_returned_self : (s.returned i p).call i = (s.call i).returned s.seconds := State.call_setCall_self _ _ _

theorem State.call_returned_ne {j : Slot} (h : i ≠ j) : (s.returned i p).call j = s.call j :=
  (State.call_setCall_ne _ _ h).trans (State.call_setPos ..)

theorem State.pos_returned_self : (s.returned i p).pos p = (s.pos p).missing s.seconds := State.pos_setPos_self _ _ _

theorem State.pos_returned_ne {x : Pos} (h : p ≠ x) : (s.returned i p).pos x = s.pos x := State.pos_setPos_ne _ _ h

theorem State.cls_returned (j : Slot) : ((s.returned i p).call j).cls = (s.call j).cls := by
  obtain rfl | h := eq_or_ne i j
  · rw [State.call_returned_self]; rfl
  · rw [State.call_returned_ne _ _ _ h]

end Returned

theorem HeldOffer.mayOverflow {s : State} {i : Slot} {p : Pos} {q : Part} (h : HeldOffer s i p q) :
    MayOverflow (s.returned i p) i q where
  state := by rw [State.call_returned_self]; rfl
  home := by rw [State.call_returned_self]; exact h.partition
  member := h.member
  target := by rw [State.call_returned_self]; rfl

theorem HeldOffer.body {s : State} {i : Slot} {p : Pos} {q : Part} (h : HeldOffer s i p q) :
    ∃ f : Event, (Event.begin s).offerExpired i = f.waitOver i ∧ f.st = s.returned i p ∧ f.refusals = [] ∧ f.serve = [] := by
  obtain ⟨f, body, st, -, refusals, serve, -⟩ := Event.offerExpired_eq h.toOfferedTo
  rw [h.held, if_pos rfl] at body
  exact ⟨f, body, st, refusals, serve⟩

/-- What an offer that runs out shows of its panel and of what it does not name, when the call has overflowed. -/
structure Overrun (s t : State) (i : Slot) (p : Pos) (q : Part) : Prop where
  panel : (t.pos p).bare =
    { (s.pos p).bare with
      missed := (s.pos p).missed + 1, pause := if 1 ≤ (s.pos p).missed then some .missed else (s.pos p).pause }
  idle : (t.pos p).idleSince = s.seconds
  aside : Aside s t (overflowCalls s i q) (· = p) (overflowParts s q) fun _ => False

theorem Quiet.overrun {s : State} {e : Event} {i : Slot} {p : Pos} {q : Part} (refusals : e.refusals = [])
    (serve : e.serve = []) (pos : ∀ x, e.st.pos x = (s.returned i p).pos x) (seconds : e.st.seconds = s.seconds)
    (calls : ∀ j, ¬ overflowCalls s i q j → e.st.call j = s.call j)
    (parts : ∀ r, ¬ overflowParts s q r → e.st.prt r = s.prt r) (lamps : ∀ k, e.st.lamp k = s.lamp k)
    (free : e.st.free = s.free) : Overrun s e.finish i p q := by
  have rested : ∀ k ∈ e.serve, unserved e.st k := by rw [serve]; exact nofun
  have quiet := (Event.finish_quietEnd refusals rested).quiet
  have panel : e.st.pos p = (s.pos p).missing s.seconds := (pos p).trans (State.pos_returned_self ..)
  refine ⟨?_, ?_, quiet.aside calls (fun x hx => ?_) parts lamps free⟩
  · rw [quiet.pos, panel]
    rfl
  · rcases Event.finish_idleSince refusals rested p with h | h
    · rw [h, panel]
      rfl
    · rw [h, seconds]
  · rw [pos, State.pos_returned_ne _ _ _ (Ne.symm hx)]

theorem overflowOrders_partition {s : State} {i : Slot} {q r : Part} (into : (s.part q).overflow = .partition r) :
    overflowOrders s i q = [.tone (s.call i).caller .ringback] := by
  unfold overflowOrders
  rw [into]

theorem overflowOrders_fallback {s : State} {i : Slot} {q : Part} {a : Circuit} (into : (s.part q).overflow = .fallback)
    (announcer : (s.part q).announcer = some a) :
    overflowOrders s i q = [.tone (s.call i).caller .quiet, .join (s.call i).caller a] := by
  unfold overflowOrders
  rw [into, announcer]

theorem HeldOffer.overflows_into {s : State} {i : Slot} {p : Pos} {q r : Part} (h : HeldOffer s i p q)
    (into : (s.part q).overflow = .partition r) (room : s.room (overflowOrders s i q)) :
    let t := ((Event.begin s).offerExpired i).finish
    leftRoster s t q i ∧ Overflowed s t i q ∧ issued s t i (entries i (overflowOrders s i q)) ∧ Overrun s t i p q := by
  obtain ⟨ne, enabled, takes⟩ := h.into r into
  have may := h.mayOverflow
  have takes' : RoomForNew (s.returned i p) r i := takes.transfer rfl rfl (s.cls_returned i p)
  have orders := overflowOrders_partition (i := i) into
  obtain ⟨f, body, fst, frefusals, fserve⟩ := h.body
  rw [orders] at room
  obtain ⟨st, refusals, serve⟩ := Event.waitOver_enrolls (e := f) (i := i) (by rw [fst]; exact may) ne.symm
    (by rw [fst]; exact into) (by rw [fst]; exact enabled) (by rw [fst]; exact takes')
    (by rw [fst, State.call_returned_self]; exact room)
  rw [body]
  rw [fst] at st
  rw [frefusals] at refusals
  rw [fserve] at serve
  generalize f.waitOver i = e at st refusals serve
  have rested : ∀ k ∈ e.serve, unserved e.st k := by rw [serve]; exact nofun
  have quiet : Quiet ((s.returned i p).overflowedTo i r) e.finish := st ▸ (Event.finish_quietEnd refusals rested).quiet
  obtain ⟨joined, left⟩ := quiet.overflowedTo may ne.symm takes'
  obtain ⟨x, hcall⟩ := (s.returned i p).call_overflowedTo i r
  rw [State.call_returned_self] at hcall
  have waiting := quiet.waiting i
  rw [hcall] at waiting
  simp only [Call.waiting, Prod.mk.injEq] at waiting
  obtain ⟨identity, reason, -, -, -, origin, -, -, pending, -⟩ := waiting
  refine ⟨left.transfer rfl rfl, ⟨⟨identity, origin, reason⟩, ?_, fun r' hr => ?_, fun a hf => ?_⟩, ?_,
    Quiet.overrun refusals serve (fun x => ?_) ?_ (fun j hj => ?_) (fun r' hr => ?_) (fun k => ?_) ?_⟩
  · rw [orders]
    exact pending
  · cases into.symm.trans hr
    exact joined.transfer rfl rfl rfl
  · cases into.symm.trans hf
  · rw [orders]
    refine quiet.issued (by simp [ShelfOrder.isRing]) (fun l => ?_) ?_ ?_
    · rw [State.link_overflowedTo, State.call_returned_self]
      rfl
    · rw [hcall]
      rfl
    · rw [State.overflowedTo_rings]
      rfl
  · rw [st, State.pos_overflowedTo]
  · rw [st, State.overflowedTo_seconds]
    rfl
  · obtain ⟨hji, hj⟩ := not_or.mp hj
    rw [st, State.call_overflowedTo_out may.home ne.symm (Ne.symm hji)
      (fun hm => hj ⟨q, .inl rfl, hm⟩) (fun hm => hj ⟨r, .inr into, hm⟩), State.call_returned_ne _ _ _ (Ne.symm hji)]
  · obtain ⟨hq, hr⟩ := not_or.mp hr
    rw [st, State.prt_overflowedTo_out may.home hq fun he => hr (he ▸ into)]
    rfl
  · rw [st, State.lamp_overflowedTo]
    rfl
  · rw [st, State.overflowedTo_free]
    rfl

theorem Call.bare_announcedBy {c : Call} (target : c.target = none) (a : Circuit) (now : Seconds) (time n : Nat) :
    (Call.announcedBy { (c.returned now).unlisted with overflowed := true, partition := c.partition, pending := n }
      a now time).bare =
      { offLoops c .announced now with
        overflowed := true, announcer := some a, timer := some (.announce, now + BitVec.ofNat 32 time), pending := n } := by
  unfold offLoops onLoop Call.bare
  dsimp only
  rw [target]
  rfl

theorem HeldOffer.announced {s : State} {i : Slot} {p : Pos} {q : Part} {a : Circuit} (h : HeldOffer s i p q)
    (into : (s.part q).overflow = .fallback) (serves : announces s q a) (room : s.room (overflowOrders s i q)) :
    let t := ((Event.begin s).offerExpired i).finish
    leftRoster s t q i ∧ Overflowed s t i q ∧ issued s t i (entries i (overflowOrders s i q)) ∧ Overrun s t i p q := by
  have may := h.mayOverflow
  have orders := overflowOrders_fallback (i := i) into serves.1
  obtain ⟨f, body, fst, frefusals, fserve⟩ := h.body
  rw [orders] at room
  obtain ⟨st, refusals, serve⟩ := Event.waitOver_announces (e := f) (i := i) (a := a) (by rw [fst]; exact may)
    (by rw [fst]; exact into) (by rw [fst]; exact serves) (by rw [fst, State.call_returned_self]; exact room)
  rw [body]
  rw [fst] at st
  rw [frefusals] at refusals
  rw [fserve] at serve
  generalize f.waitOver i = e at st refusals serve
  have rested : ∀ k ∈ e.serve, unserved e.st k := by rw [serve]; exact nofun
  have quiet : Quiet ((s.returned i p).overflowedOut i q a) e.finish := st ▸ (Event.finish_quietEnd refusals rested).quiet
  have hcall := (s.returned i p).call_overflowedOut i q a
  rw [State.call_returned_self] at hcall
  have bare : (e.finish.call i).bare =
      { offLoops (s.call i) .announced s.seconds with
        overflowed := true, announcer := some a, timer := announceTimer s q, pending := (s.call i).pending + 2 } := by
    rw [quiet.call i (by rw [hcall]; exact nofun), hcall, ← h.partition]
    exact Call.bare_announcedBy h.target ..
  have waiting := quiet.waiting i
  rw [hcall] at waiting
  simp only [Call.waiting, Prod.mk.injEq] at waiting
  obtain ⟨identity, reason, -, -, -, origin, -, -, pending, -⟩ := waiting
  refine ⟨(leftRoster_of_departed may.home ?_).transfer rfl rfl,
    ⟨⟨identity, origin, reason⟩, ?_, fun r hr => ?_, fun b _ hb => ?_⟩, ?_,
    Quiet.overrun refusals serve (fun x => ?_) ?_ (fun j hj => ?_) (fun r hr => ?_) (fun k => ?_) ?_⟩
  · rw [quiet.prt, State.prt_overflowedOut]
  · rw [orders]
    exact pending
  · cases into.symm.trans hr
  · cases serves.1.symm.trans hb.1
    exact bare
  · rw [orders]
    refine quiet.issued (by simp [ShelfOrder.isRing]) (fun l => ?_) ?_ ?_
    · rw [State.link_overflowedOut, State.call_returned_self]
      rfl
    · rw [hcall]
      rfl
    · rw [State.overflowedOut_rings]
      rfl
  · rw [st, State.pos_overflowedOut]
  · rw [st, State.overflowedOut_seconds]
    rfl
  · obtain ⟨hji, hj⟩ := not_or.mp hj
    rw [st, State.call_overflowedOut_out may.home (Ne.symm hji) (fun hm => hj ⟨q, .inl rfl, hm⟩),
      State.call_returned_ne _ _ _ (Ne.symm hji)]
  · obtain ⟨hq, -⟩ := not_or.mp hr
    rw [st, State.prt_overflowedOut, State.prt_departed_ne _ _ (by rw [may.home]; exact hq)]
    rfl
  · rw [st, State.lamp_overflowedOut]
    rfl
  · rw [st, State.overflowedOut_free]
    rfl

end Sys2Proof.Machine
end

section
/-! SUPPORT. The OFFER timer of a call whose wait runs on, and the arbiter run that follows (R35 to R41); and O47. -/

namespace Sys2Proof.Machine

/-! ### The arbiter runs of an event in which one partition gained (R35) -/

theorem Event.stepA_gained (e : Event) (q : Part) (i : Slot) : (e.stepA q i).gained = e.gained := by
  unfold Event.stepA
  dsimp only
  split
  · split
    · exact e.offer_gained _ _
    · rfl
  · rfl

theorem Event.stepB_gained (e : Event) (q : Part) (n : Nat) : (e.stepB q n).gained = e.gained := by
  induction n generalizing e with
  | zero => rfl
  | succ n ih =>
    unfold Event.stepB
    split
    · exact (ih _).trans (e.offer_gained _ _)
    · rfl

theorem Event.arbiter_gained (e : Event) (q : Part) : (e.arbiter q).gained = e.gained := by
  have stepsA : ∀ (is : List Slot) (f : Event), (is.foldl (Event.stepA q) f).gained = f.gained := fun is => by
    induction is with
    | nil => exact fun _ => rfl
    | cons i is ih => exact fun f => (ih _).trans (f.stepA_gained q i)
  exact (Event.stepB_gained _ q 8).trans (stepsA _ e)

theorem Event.runArbiters_one {e : Event} {q : Part} (gained : ∀ r, e.gained.get r = true ↔ r = q) :
    e.runArbiters = e.arbiter q := by
  have idle : ∀ (qs : List Part) (f : Event), f.gained = e.gained → q ∉ qs →
      qs.foldl (fun e p => if e.gained.get p then e.arbiter p else e) f = f := fun qs => by
    induction qs with
    | nil => exact fun _ _ _ => rfl
    | cons r rs ih =>
      intro f hf hq
      obtain ⟨ne, out⟩ := not_or.mp (mt List.mem_cons.mpr hq)
      rw [List.foldl_cons, if_neg (by rw [hf, gained]; exact Ne.symm ne)]
      exact ih f hf out
  have once : ∀ (qs : List Part), qs.Nodup → q ∈ qs →
      qs.foldl (fun e p => if e.gained.get p then e.arbiter p else e) e = e.arbiter q := fun qs => by
    induction qs with
    | nil => exact fun _ h => absurd h List.not_mem_nil
    | cons r rs ih =>
      intro nodup hq
      obtain ⟨fresh, rest⟩ := List.nodup_cons.mp nodup
      rw [List.foldl_cons]
      by_cases hr : r = q
      · subst hr
        rw [if_pos ((gained r).mpr rfl)]
        exact idle rs _ (e.arbiter_gained r) fresh
      · rw [if_neg (by rw [gained]; exact hr)]
        exact ih rest (List.mem_of_ne_of_mem (Ne.symm hr) hq)
  exact once _ (List.nodup_finRange 4) (List.mem_finRange q)

/-- Tests of availability that find nothing to write. -/
theorem Event.testPositions_still {e : Event} (still : ∀ x, e.freed x = true → (e.st.pos x).idleSince = e.st.seconds) :
    e.testPositions.st = e.st := by
  have tested := e.testPositions_tested
  have panels : ∀ x, e.testPositions.st.pos x = e.st.pos x := fun x => by
    rcases tested.idle x with h | ⟨hf, h⟩
    · exact h
    · rw [tested.panel, h, ← still x hf]
  have table : e.testPositions.st.positions = e.st.positions := Table.ext_get panels
  rw [tested.rest, table]

/-! ### The end of the offer -/

theorem keepsRinging_queued (a : CallState) : keepsRinging a .queued = false := by cases a <;> rfl

theorem Position.available_pause {q : Position} (h : q.available = true) : q.pause = none := by
  unfold Position.available at h
  cases hp : q.pause with
  | none => rfl
  | some x => simp [hp] at h

section OfferEnds

variable {s : State} {i : Slot} {p : Pos}

theorem Alike.of_returned (h : OfferedTo s i p) (held : (s.call i).expiryHeld = false) (q : Part) :
    Alike (unanswered s i p) (s.returned i p) q where
  pos := fun x => by
    obtain rfl | hx := eq_or_ne p x
    · rw [State.pos_returned_self]
      exact State.pos_setPos_self _ _ _
    · rw [State.pos_returned_ne _ _ _ hx]
      exact State.pos_setPos_ne _ _ hx
  roster := rfl
  call := fun j => by
    obtain rfl | hj := eq_or_ne i j
    · rw [State.call_returned_self]
      unfold unanswered
      rw [State.call_setPos, State.call_setCall_self]
      refine ⟨none, ?_⟩
      unfold offLoops onLoop Call.bare Call.returned Call.enter
      dsimp only
      rw [h.target, held, keepsRinging_queued]
      rfl
    · have same : (unanswered s i p).call j = s.call j := State.call_setCall_ne _ _ hj
      rw [State.call_returned_ne _ _ _ hj, same]
      exact .refl _
  part := rfl
  seconds := rfl

/-- Only the position whose offer ran out can have become available. -/
theorem Event.freed_returned {f : Event} (st : f.st = s.returned i p) (start : f.start = s) {x : Pos}
    (hx : f.freed x = true) : p = x := by
  by_contra ne
  unfold Event.freed at hx
  rw [st, start, State.pos_returned_ne _ _ _ ne, Bool.and_not_self] at hx
  cases hx

theorem OfferedTo.distributes {f : Event} {q : Part} (h : OfferedTo s i p) (held : (s.call i).expiryHeld = false)
    (st : f.st = s.returned i p) (start : f.start = s) (refusals : f.refusals = []) (serve : f.serve = [])
    (gained : f.gained = (Table.fill false).set (s.call i).partition true) (member : Member s i q)
    (panel : (s.pos p).partition = some q) (holds : RosterHolds s q) : Distributed (unanswered s i p) f.finish q := by
  have rested : ∀ k ∈ f.serve, unserved f.st k := by rw [serve]; exact nofun
  have still : f.testPositions.st = s.returned i p := by
    rw [← st]
    refine Event.testPositions_still fun x hx => ?_
    rw [← Event.freed_returned st start hx, st, State.pos_returned_self]
    rfl
  have only : ∀ r, f.testPositions.gained.get r = true ↔ r = q := fun r => by
    rw [f.testPositions_tested.gained, gained, member.partition, Table.get_set]
    constructor
    · rintro (hr | ⟨x, -, hx, hr⟩)
      · by_contra ne
        rw [if_neg (Ne.symm ne), Table.get_fill] at hr
        cases hr
      · rw [← Event.freed_returned st start hx, st, State.pos_returned_self] at hr
        exact Option.some.inj (hr.symm.trans panel)
    · rintro rfl
      exact .inl (if_pos rfl)
  obtain ⟨-, revised, quiet⟩ := Event.finish_ends refusals rested
  rw [Event.runArbiters_one only] at revised quiet
  refine Event.arbiter_distributes (e := f.testPositions) ?_ ?_ ?_ revised quiet
  · rw [still]
    exact .of_returned h held q
  · rw [still]
    exact holds.once
  · rw [still]
    intro j hj
    obtain rfl | ne := eq_or_ne i j
    · rw [State.call_returned_self]
      exact member.partition
    · rw [State.call_returned_ne _ _ _ ne]
      exact holds.members j hj

/-- What the call shows when its offer has run out: it waits in its place, or it has been offered again. -/
theorem Event.offer_ends_call {f : Event} (held : (s.call i).expiryHeld = false)
    (st : f.st = s.returned i p) (refusals : f.refusals = []) (serve : f.serve = []) :
    ((f.finish.call i).state = .queued ∧ (f.finish.call i).timer = (s.call i).waitDeadline.map fun d => (.wait, d)) ∨
      ((f.finish.call i).state = .offered ∧
        ((f.finish.pos p).pause ≠ none → (f.finish.call i).position ≠ some p)) := by
  have rested : ∀ k ∈ f.serve, unserved f.st k := by rw [serve]; exact nofun
  have quiet := (Event.finish_quietEnd refusals rested).quiet
  have ends := Event.finish_call refusals rested i
  have pause := congrArg Position.pause (quiet.pos p)
  generalize f.finish = t at ends pause ⊢
  rcases ends with ⟨y, hy⟩ | ⟨-, x, avail, hx⟩
  · rw [st, State.call_returned_self] at hy
    refine .inl ⟨congrArg Call.state hy, (congrArg Call.timer hy).trans ?_⟩
    show (if (s.call i).expiryHeld then none else _) = _
    rw [held]
    rfl
  · refine .inr ⟨congrArg Call.state hx, fun paused position => paused ?_⟩
    have there : some x = some p := (congrArg Call.position hx).symm.trans position
    rw [Option.some.inj there] at avail
    exact pause.trans (show (f.st.pos p).pause = none from Position.available_pause avail)

theorem Event.offer_ends {f : Event} (st : f.st = s.returned i p) (refusals : f.refusals = []) (serve : f.serve = []) :
    (f.finish.call i).waiting = (s.call i).waiting ∧ (f.finish.call i).expiryHeld = false ∧
      (f.finish.pos p).bare =
        { (s.pos p).bare with
          missed := (s.pos p).missed + 1, pause := if 1 ≤ (s.pos p).missed then some .missed else (s.pos p).pause } ∧
      (f.finish.pos p).idleSince = s.seconds ∧ silent s f.finish ∧
      Aside s f.finish (· = i) (· = p) (fun _ => False) fun _ => False := by
  have rested : ∀ k ∈ f.serve, unserved f.st k := by rw [serve]; exact nofun
  have quiet := (Event.finish_quietEnd refusals rested).quiet
  have idle := Event.finish_idleSince refusals rested p
  have rests : (f.finish.call i).rests := Event.finish_rests refusals rested (by
    rw [st, State.call_returned_self]
    exact ⟨rfl, rfl⟩)
  generalize f.finish = t at quiet idle rests ⊢
  rw [st] at quiet idle
  refine ⟨?_, rests.2, ?_, ?_, quiet.silent (fun _ => rfl) rfl,
    quiet.aside (fun j hj => State.call_returned_ne _ _ _ (Ne.symm hj))
      (fun x hx => State.pos_returned_ne _ _ _ (Ne.symm hx)) (fun _ _ => rfl) (fun _ => rfl) rfl⟩
  · rw [quiet.waiting, State.call_returned_self]
    rfl
  · rw [quiet.pos, State.pos_returned_self]
    rfl
  · rw [State.pos_returned_self] at idle
    exact idle.elim id id

end OfferEnds

/-- Settles O47. The call is returned to its place; from there its held expiry acts, or the tests of availability and the
arbiter end the event. -/
theorem offerAndHeldWaitExpiries : Obligations.OfferAndHeldWaitExpiries := by
  unfold Obligations.OfferAndHeldWaitExpiries
  have run : ∀ (s : State) (i : Slot), timerReached s i .offer →
      exec (.offerExpiry i) s = .next ((Event.begin s).offerExpired i).finish := fun s i h =>
    congrArg Host.Outcome.next (h.runs Event.offerExpired)
  refine ⟨fun s i p offer timer held => ?_, fun s i p q offer timer room => ?_, fun s i d state deadline passed => ?_,
    fun s i off => ?_⟩
  · obtain ⟨f, body, st, start, refusals, serve, gained⟩ := Event.offerExpired_eq offer
    rw [held, if_neg Bool.false_ne_true] at body
    obtain ⟨waiting, rests, panel, idle, silent, aside⟩ := Event.offer_ends st refusals serve
    refine ⟨f.finish, by rw [run s i timer, body], waiting, rests, Event.offer_ends_call held st refusals serve, panel, idle,
      silent, aside, fun q member hp holds => ?_⟩
    exact offer.distributes held st start refusals serve gained member hp holds
  · refine ⟨_, run s i timer, ?_⟩
    have ends : leftRoster s ((Event.begin s).offerExpired i).finish q i ∧
        Overflowed s ((Event.begin s).offerExpired i).finish i q ∧
        issued s ((Event.begin s).offerExpired i).finish i (entries i (overflowOrders s i q)) ∧
        Overrun s ((Event.begin s).offerExpired i).finish i p q := by
      cases into : (s.part q).overflow with
      | partition r => exact offer.overflows_into into room
      | fallback =>
        obtain ⟨a, serves⟩ := offer.announcer into
        exact offer.announced into serves room
    obtain ⟨left, overflowed, orders, run⟩ := ends
    exact ⟨left, overflowed, run.panel, run.idle, orders, run.aside⟩
  · exact ⟨_, rfl, waitDeadline_held state deadline passed⟩
  · have quiet : ∀ k owner, Host.Outcome.next (s.timerExpiry i k owner) = (.next s : Out) := fun k owner =>
      congrArg Host.Outcome.next (State.timerExpiry_off off k owner)
    exact ⟨quiet _ _, quiet _ _, quiet _ _, quiet _ _, quiet _ _, quiet _ _⟩

end Sys2Proof.Machine
end

section
/-! SUPPORT. A pass of estimates and the commit of an event, said exactly (R11, R55 to R57). -/

namespace Sys2Proof.Machine

/-! ### What a pass writes (R56, R57) -/

/-- A call record after a pass that gives the places of a roster these estimates. -/
def Call.appraised (c : Call) (estimate : Nat → Nat) : Call :=
  match c.state, c.place with
  | .queued, some n => { c with estimate := some (estimate n) }
  | _, _ => c

theorem Call.appraised_queued {c : Call} {n : Nat} (f : Nat → Nat) (state : c.state = .queued)
    (place : c.place = some n) : c.appraised f = { c with estimate := some (f n) } := by
  unfold Call.appraised
  rw [state, place]

theorem Call.appraised_other {c : Call} (f : Nat → Nat) (h : ∀ n, c.state = .queued → c.place ≠ some n) :
    c.appraised f = c := by
  unfold Call.appraised
  split
  · next n state place => exact absurd place (h n state)
  · rfl

theorem Call.appraised_state (c : Call) (f : Nat → Nat) : (c.appraised f).state = c.state := by
  unfold Call.appraised
  split <;> rfl

theorem Call.appraised_twice (c : Call) (f : Nat → Nat) : (c.appraised f).appraised f = c.appraised f := by
  by_cases h : ∃ n, c.state = .queued ∧ c.place = some n
  · obtain ⟨n, state, place⟩ := h
    rw [Call.appraised_queued f state place]
    exact Call.appraised_queued f state place
  · have other : c.appraised f = c := Call.appraised_other f fun n state place => h ⟨n, state, place⟩
    rw [other, other]

theorem Event.passMember_eq (e : Event) (q : Part) (i : Slot) :
    e.passMember q i = e.updCall i fun c => c.appraised (e.st.estimate q) := by
  unfold Event.passMember Event.updCall Event.upd
  dsimp only
  split
  · next state place => rw [Call.appraised_queued _ state place]
  · next other => rw [Call.appraised_other _ fun n state place => other n state place, State.setCall_call]

/-- What the members' parts in a pass make of an event: the estimates of these members. -/
structure Appraised (e f : Event) (q : Part) (xs : List Slot) : Prop where
  call : ∀ j, f.st.call j = if j ∈ xs then (e.st.call j).appraised (e.st.estimate q) else e.st.call j
  event : f = { e with st := { e.st with calls := f.st.calls } }

theorem Event.foldl_passMember (e : Event) (q : Part) (xs : List Slot) :
    Appraised e (xs.foldl (Event.passMember q) e) q xs := by
  induction xs generalizing e with
  | nil => exact ⟨fun _ => rfl, rfl⟩
  | cons x xs ih =>
    obtain ⟨call, event⟩ := ih (e.passMember q x)
    rw [e.passMember_eq] at call event
    rw [List.foldl_cons, e.passMember_eq]
    refine ⟨fun j => (call j).trans ?_, event⟩
    have estimate : (e.updCall x fun c => c.appraised (e.st.estimate q)).st.estimate q = e.st.estimate q := rfl
    have one : (e.updCall x fun c => c.appraised (e.st.estimate q)).st.call j =
        if x = j then (e.st.call x).appraised (e.st.estimate q) else e.st.call j := State.call_setCall _ _ _ _
    rw [estimate, one]
    obtain rfl | ne := eq_or_ne x j
    · simp [Call.appraised_twice]
    · simp [ne, ne.symm]

/-- What a pass over a partition's roster makes of the state. -/
structure Passed (u v : State) (q : Part) : Prop where
  call : ∀ j, v.call j = if j ∈ (u.prt q).roster then (u.call j).appraised (u.estimate q) else u.call j
  prt : v.prt q =
    { u.prt q with est := { (u.prt q).est with clamped := (u.prt q).roster.any (u.memberClamps q) } }
  plan : v.plan = u.plan
  positions : v.positions = u.positions

theorem Event.pass_eq (e : Event) (q : Part) : e.pass q = { e with st := (e.pass q).st } := by
  have event := (e.foldl_passMember q (e.st.prt q).roster).event
  unfold Event.pass Event.updPrt Event.upd
  dsimp only
  rw [event]

theorem Event.pass_passed (e : Event) (q : Part) : Passed e.st (e.pass q).st q := by
  obtain ⟨call, event⟩ := e.foldl_passMember q (e.st.prt q).roster
  unfold Event.pass
  dsimp only
  generalize (e.st.prt q).roster.foldl (Event.passMember q) e = f at call event ⊢
  have parts : f.st.prt q = e.st.prt q := by rw [event]; rfl
  exact {
    call := call
    prt := by rw [← parts]; exact State.prt_setPrt_self _ _ _
    plan := by rw [event]; rfl
    positions := by rw [event]; rfl }

theorem State.quotientAt_eq (t : State) (q : Part) (n : Nat) :
    quotientAt t q n = (t.prt q).est.quotient (t.part q).weight (t.part q).basis n := rfl

theorem State.part_congr {t u : State} (plan : t.plan = u.plan) (q : Part) : t.part q = u.part q := by
  unfold State.part
  rw [plan]

theorem State.memberClamps_iff {t : State} {q : Part} {i : Slot} {n : Nat} (place : (t.call i).place = some n) :
    t.memberClamps q i = true ↔ (t.call i).state = .queued ∧ 999 < quotientAt t q n := by
  unfold State.memberClamps
  rw [place]
  cases (t.call i).state <;> simp [State.clamps, State.quotientAt_eq]

/-- A pass over a roster whose members carry their places is a pass of R57. -/
theorem Passed.estimates {u v : State} {q : Part} (k : Passed u v q)
    (places : ∀ n j, (u.prt q).roster[n]? = some j → (u.call j).place = some (n + 1)) : estimated v q := by
  have roster : (v.prt q).roster = (u.prt q).roster := by rw [k.prt]
  have quotient : ∀ n, quotientAt v q n = quotientAt u q n := fun n => by
    rw [State.quotientAt_eq, State.quotientAt_eq, k.prt, State.part_congr k.plan]
    rfl
  have state : ∀ j, (v.call j).state = (u.call j).state := fun j => by
    rw [k.call]
    split
    · exact Call.appraised_state _ _
    · rfl
  refine ⟨fun n j hj queued => ?_, ?_⟩
  · rw [roster] at hj
    rw [state] at queued
    rw [quotient, k.call, if_pos (List.mem_of_getElem? hj), Call.appraised_queued _ queued (places n j hj)]
    rfl
  · have mark : (v.prt q).est.clamped = (u.prt q).roster.any (u.memberClamps q) := by rw [k.prt]
    simp only [mark, roster, quotient, state, List.any_eq_true, List.mem_iff_getElem?]
    constructor
    · rintro ⟨j, ⟨n, hj⟩, clamps⟩
      exact ⟨n, j, hj, (State.memberClamps_iff (places n j hj)).mp clamps⟩
    · rintro ⟨n, j, hj, clamps⟩
      exact ⟨j, ⟨n, hj⟩, (State.memberClamps_iff (places n j hj)).mpr clamps⟩

/-! ### The passes of an event (R57) -/

theorem Event.passes_unwanted {e : Event} {ps : List Part} (h : ∀ p ∈ ps, e.passes.get p = false) :
    ps.foldl (fun e p => if e.passes.get p then e.pass p else e) e = e := by
  induction ps with
  | nil => rfl
  | cons p ps ih =>
    rw [List.foldl_cons, h p List.mem_cons_self]
    exact ih fun r hr => h r (List.mem_cons_of_mem p hr)

/-- An event in which one partition wants a pass makes that pass. -/
theorem Event.runPasses_one {e : Event} {q : Part} (one : e.passes = (Table.fill false).set q true) :
    e.runPasses = e.pass q := by
  obtain ⟨ps, rs, split⟩ := List.append_of_mem (List.mem_finRange q)
  have once : (ps ++ q :: rs).Nodup := split ▸ List.nodup_finRange 4
  obtain ⟨apart, -⟩ := List.nodup_cons.mp (List.nodup_middle.mp once)
  have other : ∀ p ∈ ps ++ rs, e.passes.get p = false := fun p hp => by
    rw [one, Table.get_set_ne _ _ fun h : q = p => apart (h ▸ hp), Table.get_fill]
  have kept : (e.pass q).passes = e.passes := by rw [e.pass_eq]
  have own : e.passes.get q = true := by rw [one, Table.get_set_self]
  unfold Event.runPasses
  rw [split, List.foldl_append, Event.passes_unwanted fun p hp => other p (List.mem_append_left rs hp),
    List.foldl_cons, own, if_pos rfl]
  exact Event.passes_unwanted fun p hp => by rw [kept]; exact other p (List.mem_append_right ps hp)

theorem Event.runPasses_panels (e : Event) :
    e.runPasses.st.positions = e.st.positions ∧ e.runPasses.start = e.start := by
  unfold Event.runPasses
  generalize List.finRange 4 = ps
  induction ps generalizing e with
  | nil => exact ⟨rfl, rfl⟩
  | cons p ps ih =>
    have start : (e.pass p).start = e.start := by rw [e.pass_eq]
    rw [List.foldl_cons]
    split
    · obtain ⟨positions', start'⟩ := ih (e.pass p)
      exact ⟨positions'.trans (e.pass_passed p).positions, start'.trans start⟩
    · exact ih e

/-! ### The commit of an event (R11) -/

theorem State.bumpBoard_calls (t : State) (n : Nat) : (t.bumpBoard n).calls = t.calls := by
  unfold State.bumpBoard; split <;> rfl

theorem State.bumpBoard_positions (t : State) (n : Nat) : (t.bumpBoard n).positions = t.positions := by
  unfold State.bumpBoard; split <;> rfl

theorem State.bumpBoard_parts (t : State) (n : Nat) : (t.bumpBoard n).parts = t.parts := by
  unfold State.bumpBoard; split <;> rfl

theorem State.bumpBoard_plan (t : State) (n : Nat) : (t.bumpBoard n).plan = t.plan := by
  unfold State.bumpBoard; split <;> rfl

theorem Event.commit_plan (e : Event) : e.commit.plan = e.st.plan := State.bumpBoard_plan _ _

/-- Calls that an event has not touched stay as they were, revisions and all. -/
theorem Event.commit_calls {e : Event} (same : e.st.calls = e.start.calls) (unmoved : e.changed = []) :
    e.commit.calls = e.st.calls := by
  refine (State.bumpBoard_calls _ _).trans (Table.ext_get fun i => (Event.call_raiseRecords _ i).trans ?_)
  have alike : ((e.upd State.retie).start.call i).same ((e.upd State.retie).st.call i) = true :=
    (Call.same_iff _ _).mpr (congrArg (fun c => (c.get i).bare) same)
  have unraised : (e.upd State.retie).callRaises.get i = false := by
    rw [Event.callRaises, Table.get_make, alike, show (e.upd State.retie).changed = [] from unmoved]
    rfl
  rw [unraised]
  rfl

/-- Panels that an event has not touched stay as they were, revisions and all. -/
theorem Event.commit_positions {e : Event} (same : e.st.positions = e.start.positions) :
    e.commit.positions = e.st.positions := by
  refine (State.bumpBoard_positions _ _).trans (Table.ext_get fun p => (Event.pos_raiseRecords _ p).trans ?_)
  have alike : ((e.upd State.retie).start.pos p).same ((e.upd State.retie).st.pos p) = true :=
    (Position.same_iff _ _).mpr (congrArg (fun c => (c.get p).shown) same)
  have unraised : (e.upd State.retie).posRaises.get p = false := by
    rw [Event.posRaises, Table.get_make, alike]
    rfl
  rw [unraised]
  rfl

theorem State.settings_congr {t u : State} (plan : t.plan = u.plan) (q : Part) : t.settings q = u.settings q := by
  unfold State.settings
  rw [plan]

/-- The record of a partition in which an event has moved no member and no setting is raised only for its own published
fields. -/
theorem Event.prt_commit_same {e : Event} {q : Part} (untouched : e.touched.get q = false)
    (count : e.start.newCount q = e.st.newCount q) (plan : e.start.plan = e.st.plan)
    (same : (e.start.prt q).same (e.st.prt q) = true) : e.commit.prt q = e.st.prt q := by
  refine (congrArg (fun c => c.get q) (State.bumpBoard_parts _ _)).trans ((Event.prt_raiseRecords _ q).trans ?_)
  have count : ((e.upd State.retie).start.newCount q != (e.upd State.retie).st.newCount q) = false :=
    bne_eq_false_iff_eq.mpr count
  have settings : ((e.upd State.retie).start.settings q != (e.upd State.retie).st.settings q) = false :=
    bne_eq_false_iff_eq.mpr (State.settings_congr plan q)
  have unraised : (e.upd State.retie).prtRaises.get q = false := by
    rw [Event.prtRaises, Table.get_make, count, settings, show (e.upd State.retie).touched.get q = false from untouched,
      show ((e.upd State.retie).start.prt q).same ((e.upd State.retie).st.prt q) = true from same]
    rfl
  rw [unraised]
  rfl

/-- The commit of an event raises a partition's revision and leaves the rest of its record. -/
theorem Event.prt_commit (e : Event) (q : Part) : ∃ r, e.commit.prt q = { e.st.prt q with rev := r } := by
  have raised := (congrArg (fun c => c.get q) (State.bumpBoard_parts _ (e.upd State.retie).raises)).trans
    (Event.prt_raiseRecords (e.upd State.retie) q)
  split at raised
  · exact ⟨_, raised⟩
  · exact ⟨_, raised⟩

/-- The commit of an event leaves a pass of estimates as it was made. -/
theorem Event.commit_estimated {e : Event} {q : Part} (h : estimated e.st q) : estimated e.commit q := by
  obtain ⟨r, prt⟩ := e.prt_commit q
  have quotient : ∀ n, quotientAt e.commit q n = quotientAt e.st q n := fun n => by
    rw [State.quotientAt_eq, State.quotientAt_eq, prt, State.part_congr e.commit_plan]
  have state : ∀ j, (e.commit.call j).state = (e.st.call j).state := fun j => Call.state_of_bare (e.call_commit j)
  have estimate : ∀ j, (e.commit.call j).estimate = (e.st.call j).estimate := fun j =>
    show (e.commit.call j).bare.estimate = _ by rw [e.call_commit]; rfl
  unfold estimated
  simp only [quotient, state, estimate, prt]
  exact h

/-! ### An event that changes no panel (R35, R68) -/

/-- An event that changes no panel and gains no partition a member makes its passes and raises revisions. -/
theorem Event.finish_passes {e : Event} (hr : e.refusals = []) (hs : e.serve = [])
    (panels : e.st.positions = e.start.positions) (hg : e.gained = .fill false) : e.finish = e.runPasses.commit := by
  have tests : e.testPositions = e := List.foldl_fixed' (fun x => by
    unfold Event.testPosition State.pos
    rw [panels, Bool.and_not_self]
    rfl) _
  have arbiters : e.runArbiters = e := List.foldl_fixed' (fun q => by
    rw [hg, Table.get_fill, if_neg Bool.false_ne_true]) _
  unfold Event.finish
  rw [Event.settle_nil 80 hr hs, tests, arbiters]

theorem Event.finish_positions {e : Event} (hr : e.refusals = []) (hs : e.serve = [])
    (panels : e.st.positions = e.start.positions) (hg : e.gained = .fill false) :
    e.finish.positions = e.st.positions := by
  obtain ⟨positions, start⟩ := e.runPasses_panels
  rw [Event.finish_passes hr hs panels hg, Event.commit_positions (by rw [positions, start, panels]), positions]

end Sys2Proof.Machine
end

section
/-! SUPPORT. An advance of an estimator's counter (R49 to R51, R57). -/

namespace Sys2Proof.Machine

/-! ### The estimator -/

/-- An advance of a counter that neither is stalled nor reaches 255 counts one; that of a stalled one counts nothing. -/
theorem Estimator.advance_still {e : Estimator} (h : e.stall = true ∨ e.counter + 1 < 255) :
    e.advance = { e with counter := e.advance.counter, period := some (2 ^ e.range) } := by
  unfold Estimator.advance
  split
  · rfl
  · next free => rw [if_pos (h.resolve_left free)]; rfl

theorem Estimator.advance_rescales {e : Estimator} (free : e.stall = false) (full : 255 ≤ e.counter + 1)
    (below : e.range < 7) : e.advance = e.rescale := by
  unfold Estimator.advance
  rw [free, if_neg Bool.false_ne_true, if_neg (Nat.not_lt.mpr full), if_pos below]

theorem Estimator.bare_advance (e : Estimator) : e.advance.bare =
    if e.stall = true then { e.bare with period := some (2 ^ e.range) }
    else if e.counter + 1 < 255 then { e.bare with counter := e.counter + 1, period := some (2 ^ e.range) }
    else if e.range < 7 then
      { e.bare with
        range := e.range + 1, counter := 127, new := e.new / 2, old := e.old / 2, period := some (2 ^ (e.range + 1)) }
    else { e.bare with counter := 255, stall := true, period := some (2 ^ e.range) } := by
  unfold Estimator.advance
  split
  · rfl
  · split
    · rfl
    · split <;> rfl

/-! ### The event -/

theorem Partition.est_bare (q : Partition) : q.bare.est = q.est.bare := rfl

/-- A partition's record after an advance of its counter. -/
def Partition.advanced (q : Partition) : Partition := { q with est := q.est.advance }

/-- The event of an advance: a rescale wants a pass of estimates. -/
def Event.advanced (s : State) (q : Part) : Event :=
  { Event.begin s with
    st := s.setPrt q (s.prt q).advanced
    passes := if (s.prt q).est.advance.range = (s.prt q).est.range then .fill false else (Table.fill false).set q true }

theorem State.counterAdvance_running {s : State} {q : Part} (running : (s.prt q).est.period ≠ none) :
    s.counterAdvance q = (Event.advanced s q).finish := by
  unfold State.counterAdvance Event.advanced
  dsimp only
  rw [if_pos (Option.isSome_iff_ne_none.mpr running)]
  refine congrArg Event.finish ?_
  dsimp only
  split <;> rfl

theorem State.counterAdvance_stopped {s : State} {q : Part} (stopped : (s.prt q).est.period = none) :
    s.counterAdvance q = s := by
  unfold State.counterAdvance
  dsimp only
  rw [stopped]
  rfl

section Advanced

variable (s : State) (q : Part)

theorem Event.prt_advanced : (Event.advanced s q).st.prt q = (s.prt q).advanced := State.prt_setPrt_self _ _ _

theorem Event.advanced_quiet : Quiet (Event.advanced s q).st (Event.advanced s q).finish :=
  Event.finish_quiet rfl rfl (.refl _)

theorem Event.advanced_positions : (Event.advanced s q).finish.positions = s.positions :=
  Event.finish_positions rfl rfl rfl rfl

theorem Event.advanced_silent : silent s (Event.advanced s q).finish :=
  (Event.advanced_quiet s q).silent (fun _ => rfl) rfl

theorem Event.advanced_aside :
    Aside s (Event.advanced s q).finish (fun _ => False) (fun _ => False) (· = q) fun _ => False :=
  (Event.advanced_quiet s q).aside (fun _ _ => rfl) (fun _ _ => rfl)
    (fun _ h => State.prt_setPrt_ne _ _ (Ne.symm h)) (fun _ => rfl) rfl

theorem Event.advanced_bare :
    ((Event.advanced s q).finish.prt q).bare = { (s.prt q).bare with est := (s.prt q).est.advance.bare } := by
  rw [(Event.advanced_quiet s q).prt q, Event.prt_advanced]
  rfl

end Advanced

/-- An advance that neither rescales nor stalls changes no call and nothing that the record publishes, so that no
revision rises (R50, R51). -/
theorem Event.advanced_still {s : State} {q : Part}
    (still : (s.prt q).est.stall = true ∨ (s.prt q).est.counter + 1 < 255) :
    (Event.advanced s q).finish.prt q = (s.prt q).advanced ∧ (Event.advanced s q).finish.calls = s.calls := by
  have advance := Estimator.advance_still still
  have unwanted : (Event.advanced s q).passes = .fill false := if_pos (by rw [advance])
  have same : (s.prt q).same ((Event.advanced s q).st.prt q) = true := by
    rw [Event.prt_advanced, Partition.same_iff, Partition.advanced, advance]
  have untouched : (Event.advanced s q).touched.get q = false := Table.get_fill false q
  have count : s.newCount q = (Event.advanced s q).st.newCount q :=
    State.newCount_congr (by rw [Event.prt_advanced]; rfl) fun _ => rfl
  rw [Event.finish_idle rfl rfl (fun _ => rfl) rfl unwanted]
  refine ⟨?_, Event.commit_calls rfl rfl⟩
  rw [Event.prt_commit_same untouched count rfl same, Event.prt_advanced]

/-- A rescale is followed by a pass of estimates (R50, R57). -/
theorem Event.advanced_estimated {s : State} {q : Part} (free : (s.prt q).est.stall = false)
    (full : 255 ≤ (s.prt q).est.counter + 1) (below : (s.prt q).est.range < 7)
    (places : ∀ n j, (s.prt q).roster[n]? = some j → (s.call j).place = some (n + 1)) :
    estimated (Event.advanced s q).finish q := by
  have moved : (s.prt q).est.advance.range ≠ (s.prt q).est.range := by
    rw [Estimator.advance_rescales free full below]
    exact Nat.succ_ne_self _
  have wanted : (Event.advanced s q).passes = (Table.fill false).set q true := if_neg moved
  rw [Event.finish_passes rfl rfl rfl rfl, Event.runPasses_one wanted]
  refine Event.commit_estimated ((Event.pass_passed _ q).estimates fun n j hj => ?_)
  rw [Event.prt_advanced] at hj
  exact places n j hj

/-- Settles O52: an advance writes one estimator (`Estimator.advance`); its event ends quietly, and makes a pass of
estimates exactly when the range has moved. -/
theorem counterAdvancesRescalesAndStalls : Obligations.CounterAdvancesRescalesAndStalls := by
  have runs : ∀ (s : State) (q : Part), (s.prt q).est.period ≠ none →
      exec (.counterAdvance q) s = .next (Event.advanced s q).finish := fun s q running =>
    congrArg Host.Outcome.next (State.counterAdvance_running running)
  refine ⟨?_, fun s t q running free full below places run => ?_, fun s q stopped => ?_⟩
  · rintro s q _ rfl running
    have bare := Event.advanced_bare s q
    have est : ((Event.advanced s q).finish.prt q).est.bare = (s.prt q).est.advance.bare := by
      rw [← Partition.est_bare, bare]
    refine ⟨_, runs s q running, ?_, est.trans (Estimator.bare_advance _), fun still => ?_,
      Event.advanced_silent s q, Event.advanced_positions s q, Event.advanced_aside s q⟩
    · rw [est]
      exact bare
    · obtain ⟨prt, calls⟩ := Event.advanced_still still
      have clamped : (s.prt q).est.advance.clamped = (s.prt q).est.clamped := by rw [Estimator.advance_still still]
      rw [prt]
      exact ⟨rfl, calls, clamped⟩
  · obtain rfl : (Event.advanced s q).finish = t := Host.Outcome.next.inj ((runs s q running).symm.trans run)
    exact Event.advanced_estimated free full below places
  · exact congrArg Host.Outcome.next (State.counterAdvance_stopped stopped)

end Sys2Proof.Machine
end

section
/-! SUPPORT. No rule of an event but OPEN signs a position on, and none but an activation moves one to another partition or
headset; so OPEN positions stay seated (R62, R64, R81, R167); and O58. -/

namespace Sys2Proof.Machine

/-- In the same engine state, every position has the partition and the headset it had, and none has signed on. -/
structure Stays (s t : State) : Prop where
  engine : t.engine = s.engine
  partition : ∀ p, (t.pos p).partition = (s.pos p).partition
  headset : ∀ p, (t.pos p).headset = (s.pos p).headset
  isOpen : ∀ p, (t.pos p).isOpen = true → (s.pos p).isOpen = true

theorem Stays.of_eq {s t : State} (positions : t.positions = s.positions) (engine : t.engine = s.engine) : Stays s t := by
  have pos : ∀ p, t.pos p = s.pos p := fun p => congrArg (Table.get · p) positions
  exact ⟨engine, fun p => by rw [pos], fun p => by rw [pos], fun p h => by rw [← pos]; exact h⟩

theorem Stays.refl (s : State) : Stays s s := .of_eq rfl rfl

theorem Stays.trans {s t u : State} (h : Stays s t) (k : Stays t u) : Stays s u where
  engine := k.engine.trans h.engine
  partition := fun p => (k.partition p).trans (h.partition p)
  headset := fun p => (k.headset p).trans (h.headset p)
  isOpen := fun p => h.isOpen p ∘ k.isOpen p

theorem Keeps.stays {s t : State} (k : Keeps s t) : Stays s t := by
  have core : ∀ p, (t.pos p).isOpen = (s.pos p).isOpen ∧ (t.pos p).partition = (s.pos p).partition ∧
      (t.pos p).headset = (s.pos p).headset := fun p => by
    have h := k.pos p
    simp only [Position.core, Prod.mk.injEq] at h
    exact ⟨h.1, h.2.1, h.2.2.1⟩
  have engine := congrArg (fun x => x.2.1) k.core
  exact ⟨engine, fun p => (core p).2.1, fun p => (core p).2.2, fun p h => by rw [← (core p).1]; exact h⟩

/-- A seated state stays seated. -/
theorem Stays.seats {s t : State} (k : Stays s t) (h : SeatsInv s) : SeatsInv t := fun p hp => by
  rw [k.engine, k.partition, k.headset]
  exact h p (k.isOpen p hp)

theorem State.raise_stays (t : State) (f : Flag) : Stays t (t.raise f) := .of_eq rfl rfl

theorem State.setTaker_stays (t : State) (x : Taker) : Stays t (t.setTaker x) := .of_eq rfl rfl

theorem State.setLink_stays (t : State) (l : LinkIx) (k : Link) : Stays t (t.setLink l k) := .of_eq rfl rfl

/-- What the changes of a panel leave that neither move the position nor sign it on. -/
def Position.seat (q r : Position) : Prop :=
  r.partition = q.partition ∧ r.headset = q.headset ∧ (r.isOpen = true → q.isOpen = true)

theorem Position.seat_of_eq {q r : Position} (h : (r.isOpen, r.partition, r.headset) = (q.isOpen, q.partition, q.headset)) :
    q.seat r := by
  simp only [Prod.mk.injEq] at h
  exact ⟨h.2.1, h.2.2, fun hr => h.1 ▸ hr⟩

theorem Event.updPos_stays (e : Event) (p : Pos) {f : Position → Position} (h : ∀ q, Position.seat q (f q)) :
    Stays e.st (e.updPos p f).st := by
  have pos : ∀ x, (e.st.pos x).seat ((e.updPos p f).st.pos x) := fun x => by
    show (e.st.pos x).seat ((e.st.setPos p _).pos x)
    rw [State.pos_setPos]
    split
    · next hx => rw [← hx]; exact h _
    · exact Position.seat_of_eq rfl
  exact ⟨rfl, fun x => (pos x).1, fun x => (pos x).2.1, fun x => (pos x).2.2⟩

/-! ### Rules of an event -/

section Chain

variable {s : State} {e f : Event}

theorem Stays.updPos {p : Pos} {g : Position → Position} (k : Stays s e.st) (h : ∀ q, Position.seat q (g q)) :
    Stays s (e.updPos p g).st := k.trans (e.updPos_stays p h)

/-- A change of one record that is no panel, of the memory, or of the event's own notes. -/
theorem Stays.next (k : Stays s e.st) (positions : f.st.positions = e.st.positions) (engine : f.st.engine = e.st.engine) :
    Stays s f.st := k.trans (.of_eq positions engine)

theorem Stays.updLink {l : LinkIx} {g : Link → Link} (k : Stays s e.st) : Stays s (e.updLink l g).st := k.next rfl rfl

theorem Stays.updPrt {q : Part} {g : Partition → Partition} (k : Stays s e.st) : Stays s (e.updPrt q g).st :=
  k.next rfl rfl

theorem Stays.updCall {i : Slot} {g : Call → Call} (k : Stays s e.st) : Stays s (e.updCall i g).st := k.next rfl rfl

/-- A step of the event that leaves the panels and the engine as they were. -/
theorem Stays.upd {g : State → State} (k : Stays s e.st) (h : ∀ t, Stays t (g t)) : Stays s (e.upd g).st := k.trans (h _)

/-- A rule that keeps what every event keeps. -/
theorem Stays.keeps (k : Stays s e.st) (h : Keeps e.st f.st) : Stays s f.st := k.trans h.stays

theorem Stays.ite {c : Prop} [Decidable c] (he : c → Stays s e.st) (hf : ¬ c → Stays s f.st) :
    Stays s (if c then e else f).st := by
  split
  · next h => exact he h
  · next h => exact hf h

theorem Stays.foldl {α : Type} {g : Event → α → Event} (h : ∀ e x, Stays s e.st → Stays s (g e x).st) {xs : List α}
    (k : Stays s e.st) : Stays s (xs.foldl g e).st := by
  induction xs generalizing e with
  | nil => exact k
  | cons x xs ih => exact ih (h e x k)

/-! ### Rosters, night service, arrivals -/

theorem Stays.leaveRoster {i : Slot} {answered : Bool} (k : Stays s e.st) : Stays s (e.leaveRoster i answered).st := by
  unfold Event.leaveRoster
  extract_lets c p e1 e2 e3 e4 left e5
  refine .ite (fun _ => ?_) fun _ => k
  have k1 : Stays s e1.st := .ite (fun _ => k.keeps (Event.clearOffer_keeps (.refl _))) fun _ => k
  have k2 : Stays s e2.st := k1.updPrt
  have k3 : Stays s e3.st := k2.keeps (Event.renumber_keeps (.refl _))
  have k4 : Stays s e4.st := k3.updCall
  have k5 : Stays s e5.st := .ite (fun _ => k4.updPrt) fun _ => .ite (fun _ => k4) fun _ => k4.updPrt
  exact k5.keeps (Event.alertTest_keeps (e := e5.rosterMoved p) (.refl _))

theorem Stays.goNight {q : Part} (k : Stays s e.st) : Stays s (e.goNight q).st :=
  .foldl (fun _ _ k => k.keeps (Event.rerouteMember_keeps (.refl _))) k.updPrt

theorem Stays.goDay {q : Part} (k : Stays s e.st) : Stays s (e.goDay q).st := k.updPrt

theorem Stays.seekPlace {i : Slot} (k : Stays s e.st) : Stays s (e.seekPlace i).st := by
  unfold Event.seekPlace; split
  · exact k.keeps (Event.nightRoute_keeps (.refl _))
  · exact k.keeps (Event.overflow_keeps (.refl _))
  · exact k.keeps (Event.joinRoster_keeps (.refl _))

theorem Stays.arrive {c : Circuit} {a : Arrival} (k : Stays s e.st) : Stays s (e.arrive c a).st := by
  unfold Event.arrive; split
  · exact k
  · split
    · exact k.keeps (Event.issueAs_keeps (.refl _))
    · next q _ _ i _ _ => exact Stays.seekPlace (e := e.allocate i c q a) (k.next rfl rfl)

theorem Stays.offerExpired {i : Slot} (k : Stays s e.st) : Stays s (e.offerExpired i).st := by
  unfold Event.offerExpired; split
  · next p _ =>
    extract_lets now e1
    have k1 : Stays s e1.st := k.updPos fun _ => Position.seat_of_eq rfl
    exact k1.keeps (Event.returnCall_keeps (.refl _))
  · exact k.keeps (Event.returnCall_keeps (.refl _))

/-! ### Roles and closing positions -/

theorem Stays.fillRole {r : Role} {p : Option Pos} (k : Stays s e.st) : Stays s (e.fillRole r p).st := by
  unfold Event.fillRole; split
  · exact .ite (fun _ => k.updPos fun _ => Position.seat_of_eq rfl) fun _ => k
  · exact k

theorem Stays.fillRoles (k : Stays s e.st) : Stays s e.fillRoles.st := by
  unfold Event.fillRoles; split
  · exact k.fillRole.fillRole
  · exact k

theorem Stays.closeRole {p : Pos} (k : Stays s e.st) : Stays s (e.closeRole p).st := by
  unfold Event.closeRole
  extract_lets e1
  have k1 : Stays s e1.st := k.updPos fun _ => Position.seat_of_eq rfl
  split
  · split
    · exact .fillRoles (k1.updPos fun _ => Position.seat_of_eq rfl)
    · exact k1.fillRoles
  · exact k1.fillRoles
  · exact k1.fillRoles

theorem Stays.reportOpening {p : Pos} (k : Stays s e.st) : Stays s (e.reportOpening p).st := by
  unfold Event.reportOpening; split
  · exact .ite (fun _ => k.goDay) fun _ => k
  · exact k

theorem Stays.reportClosing {q : Option Part} (k : Stays s e.st) : Stays s (e.reportClosing q).st := by
  unfold Event.reportClosing; split
  · exact .ite (fun _ => k.goNight) fun _ => k
  · exact k

theorem Event.issueLegs_keeps (e : Event) (i : Slot) (lost : Option Circuit) (os : List ShelfOrder) :
    Keeps e.st (e.issueLegs i lost os).st := by
  refine Event.foldl_keeps (fun e o k => ?_) (.refl _)
  split
  · exact Event.ite_keeps (fun _ => Event.note_keeps k) fun _ => Event.issueAs_keeps k
  · exact Event.issueAs_keeps k

theorem Event.forceLoop_keeps (p : Pos) (lost : Option Circuit) (e : Event) (l : LoopIx) :
    Keeps e.st (Event.forceLoop p lost e l).st := by
  unfold Event.forceLoop; split
  · exact Event.joinRoster_keeps (Event.updCall_keeps (Event.leaveLoop_keeps
      ((Event.answerExtendOf_keeps (.refl _)).trans (Event.issueLegs_keeps _ _ _ _))) fun _ => rfl)
  · exact .refl _

theorem Stays.closePosition {p : Pos} {lost : Option Circuit} (k : Stays s e.st) : Stays s (e.closePosition p lost).st := by
  unfold Event.closePosition
  extract_lets e1 e2 e3
  have k1 : Stays s e1.st := k.keeps (Event.withdraw_keeps (.refl _))
  have k2 : Stays s e2.st := .foldl (fun _ _ k => k.keeps (Event.forceLoop_keeps _ _ _ _)) k1
  have k3 : Stays s e3.st := k2.updPos fun _ => ⟨rfl, rfl, fun h => absurd h Bool.false_ne_true⟩
  exact k3.closeRole.reportClosing

theorem Stays.headsetLost {c : Circuit} (k : Stays s e.st) : Stays s (e.headsetLost c).st :=
  .foldl (fun _ _ k => .ite (fun _ => k.closePosition) fun _ => k) k

/-! ### Reports and outcomes -/

theorem Stays.setLine {c : Circuit} {v : LineState} (k : Stays s e.st) : Stays s (e.setLine c v).st := k.next rfl rfl

theorem Stays.ringLamp {o : ShelfOrder} {x : Outcome} (k : Stays s e.st) : Stays s (e.ringLamp o x).st := by
  unfold Event.ringLamp; split
  · exact .ite (fun _ => k.setLine) fun _ => k
  · exact .ite (fun _ => k.setLine) fun _ => k
  · exact k

theorem Stays.ringDone {o : ShelfOrder} (k : Stays s e.st) : Stays s (e.ringDone o).st := by
  unfold Event.ringDone; split
  · exact k.next rfl rfl
  · exact k

theorem Event.liveOutcome_keeps (e : Event) (i : Slot) (o : ShelfOrder) (x : Outcome) :
    Keeps e.st (e.liveOutcome i o x).st := by
  unfold Event.liveOutcome; split
  · exact Event.ringResult_keeps (.refl _)
  · exact .refl _
  · exact Event.ringResult_keeps (.refl _)
  · exact Event.ringResult_keeps (.refl _)
  · exact Event.ite_keeps (fun _ => .refl _) fun _ => Event.pathFault_keeps (.refl _)
  · exact Event.pathFault_keeps (.refl _)

theorem Event.slotOutcome_keeps (e : Event) (i : Slot) (x : Entry) (o : Outcome) :
    Keeps e.st (e.slotOutcome i x o).st := by
  unfold Event.slotOutcome
  extract_lets e1
  have k1 : Keeps e.st e1.st := Event.updCall_keeps (.refl _) fun _ => rfl
  split
  · exact k1
  · exact Event.freeIfDone_keeps (Event.ite_keeps (fun _ => Event.handoverFailed_keeps k1) fun _ => k1)
  · exact k1.trans (Event.liveOutcome_keeps _ _ _ _)

theorem Stays.outcome {x : Entry} {o : Outcome} (k : Stays s e.st) : Stays s (e.outcome x o).st := by
  unfold Event.outcome; dsimp only; split
  · exact k.ringLamp.ringDone.keeps (Event.slotOutcome_keeps _ _ _ _)
  · exact k.ringLamp.ringDone

theorem Event.callerEnds_keeps (e : Event) (c : Circuit) (why : EndReason) : Keeps e.st (e.callerEnds c why).st := by
  unfold Event.callerEnds; split
  · exact Event.close_keeps (.refl _)
  · exact .refl _

theorem Stays.take {d : Delivery} (k : Stays s e.st) : Stays s (e.take d).st := by
  cases d with
  | failed x => exact k.outcome
  | callerFault c why => exact k.keeps (Event.callerEnds_keeps _ _ _)
  | targetFault c => exact k.keeps (Event.targetFault_keeps (.refl _))
  | headsetFault c => exact k.headsetLost
  | callerClear c => exact k.keeps (Event.callerEnds_keeps _ _ _)
  | targetClear c => exact k.keeps (Event.targetClear_keeps (.refl _))

theorem Stays.takeAll {order : List Nat} {xs ys : List Delivery} {n : Nat} (k : Stays s e.st) :
    Stays s (e.takeAll order xs ys n).st := by
  induction n generalizing e order xs ys with
  | zero => exact k
  | succ n ih =>
    unfold Event.takeAll; dsimp only; split
    · exact k
    · exact .ite (fun _ => ih k.take) fun _ => ih k.take

theorem Stays.deliverAll {order : List Nat} {xs ys : List Delivery} (k : Stays s e.st) :
    Stays s (e.deliverAll order xs ys).st := k.takeAll

theorem Stays.report {c : Circuit} {r : ReportKind} {order : List Nat} (k : Stays s e.st) :
    Stays s (e.report c r order).st := by
  unfold Event.report
  extract_lets before e1
  have k1 : Stays s e1.st := k.setLine
  split
  · exact .ite (fun _ => k1.arrive) fun _ => k1
  · exact k1.keeps (Event.targetAnswer_keeps (.refl _))
  · exact k1.deliverAll
  · exact k1.keeps (Event.targetIdle_keeps (.refl _))
  · exact k1
  · exact .ite (fun _ => k1) fun _ => k1.deliverAll

theorem Stays.loseShelf {l : LinkIx} {a : Addr} {x : Option Entry} {order : List Nat} (k : Stays s e.st) :
    Stays s (e.loseShelf l a x order).st := by
  unfold Event.loseShelf
  extract_lets queue e1 changed e2 failures
  have k1 : Stays s e1.st := k.updLink
  have k2 : Stays s e2.st := .foldl (fun _ _ k => k.setLine) k1
  exact k2.deliverAll.upd fun t => t.raise_stays _

theorem Stays.miss {l : LinkIx} {f : Frame} {order : List Nat} (k : Stays s e.st) : Stays s (e.miss l f order).st := by
  unfold Event.miss
  extract_lets m sh e1
  have k1 : Stays s e1.st := k.updLink
  refine .ite (fun _ => .ite (fun _ => k1.updLink) fun _ => k1.loseShelf) fun _ => ?_
  split
  · exact k.outcome
  · exact k

theorem Stays.deadFrame {f : Frame} (k : Stays s e.st) : Stays s (e.deadFrame f).st := by
  unfold Event.deadFrame; split
  · exact k.outcome
  · exact k

theorem Stays.answered {l : LinkIx} {a : Addr} (k : Stays s e.st) : Stays s (e.answered l a).st :=
  .ite (fun _ => k.updLink) fun _ => k.updLink.upd fun t => t.raise_stays _

/-! ### Orders of the order board but OPEN -/

theorem Stays.ownClose {p : Pos} {force : Byte} (k : Stays s e.st) : Stays s (e.ownClose p force).1.st := by
  unfold Event.ownClose; dsimp only
  repeat' split
  · exact k
  · exact k
  · rw [Event.grant_fst]; exact k.closePosition

theorem Stays.ownPause {p : Pos} {on : Byte} (k : Stays s e.st) : Stays s (e.ownPause p on).1.st := by
  unfold Event.ownPause
  repeat' split
  · exact k
  · rw [Event.grant_fst]; exact k.updPos fun _ => Position.seat_of_eq rfl
  · rw [Event.grant_fst]
    exact (Stays.updPos (g := fun q => { q with pause := some .order }) k fun _ => Position.seat_of_eq rfl).keeps
      (Event.withdraw_keeps (.refl _))

theorem Stays.speak {i : Slot} {p : Pos} {l : LoopIx} (k : Stays s e.st) : Stays s (e.speak i p l).st :=
  k.keeps (Event.issueList_keeps (Event.placeOnLoop_keeps (.refl _)))

theorem Stays.ownAnswer {p : Pos} (k : Stays s e.st) : Stays s (e.ownAnswer p).1.st := by
  unfold Event.ownAnswer; dsimp only
  repeat' split
  · exact k
  · exact k
  · exact k
  · exact .speak (.updPos k.leaveRoster fun _ => Position.seat_of_eq rfl)

theorem Stays.ownPick {p : Pos} {slot : Byte} (k : Stays s e.st) : Stays s (e.ownPick p slot).1.st := by
  unfold Event.ownPick; dsimp only
  repeat' split
  · exact k
  · exact k
  · exact k
  · exact k
  · exact k
  · rw [Event.grant_fst]; exact (k.keeps (Event.withdraw_keeps (.refl _))).leaveRoster.speak

theorem Event.ownHold_keeps (e : Event) (p : Pos) : Keeps e.st (e.ownHold p).1.st := by
  unfold Event.ownHold
  extract_lets q
  split
  · exact .refl _
  split
  · exact .refl _
  split
  · exact .refl _
  · next i _ =>
    extract_lets c e1 e2 e3 length
    split
    · exact .refl _
    · have k3 : Keeps e.st e3.st :=
        Event.updPos_keeps (Event.toState_keeps (Event.issueList_keeps (.refl _))) (fun _ => rfl) fun _ => rfl
      exact Event.ite_keeps (fun _ => k3) fun _ => Event.startTimer_keeps k3

theorem Event.ownRetrieve_keeps (e : Event) (p : Pos) (loop : Byte) : Keeps e.st (e.ownRetrieve p loop).1.st := by
  unfold Event.ownRetrieve; dsimp only
  repeat' split
  · exact .refl _
  · exact .refl _
  · exact .refl _
  · exact .refl _
  · exact Event.updPos_keeps (Event.toState_keeps (Event.issueList_keeps (Event.withdraw_keeps (.refl _)))) (fun _ => rfl)
      fun _ => rfl
  · exact .refl _

theorem Event.ownDisconnect_keeps (e : Event) (p : Pos) : Keeps e.st (e.ownDisconnect p).1.st := by
  unfold Event.ownDisconnect; dsimp only
  repeat' split
  · exact .refl _
  · exact .refl _
  · exact .refl _
  · exact Event.close_keeps (.refl _)

theorem Stays.inFlight {p : Pos} {i : Slot} {c : CellIx} {n : Word} (k : Stays s e.st) :
    Stays s (e.inFlight p i c n).1.st :=
  Stays.next (e := e.updPos p fun q => { q with extend := some n, extendCell := some c })
    (k.updPos fun _ => Position.seat_of_eq rfl) rfl rfl

theorem Stays.screened {p : Pos} {i : Slot} {t : Target} {c : CellIx} {n : Word} (k : Stays s e.st) :
    Stays s (e.screened p i t c n).1.st := by
  unfold Event.screened; dsimp only; split
  · exact k
  · exact .inFlight (k.keeps (Event.updCall_keeps (Event.toState_keeps (Event.issueList_keeps (.refl _))) fun _ => rfl))

theorem Stays.direct {p : Pos} {i : Slot} {t : Target} {c : CellIx} {n : Word} (k : Stays s e.st) :
    Stays s (e.direct p i t c n).1.st := by
  unfold Event.direct; dsimp only
  repeat' split
  · exact k.keeps (Event.camp_keeps (Event.leaveLoop_keeps (Event.issueList_keeps (.refl _))))
  · exact k
  · exact .inFlight (k.keeps (Event.updCall_keeps (Event.issueList_keeps (.refl _)) fun _ => rfl))

theorem Stays.ownExtend {p : Pos} {number : Word} {mode : Byte} {c : CellIx} {n : Word} (k : Stays s e.st) :
    Stays s (e.ownExtend p number mode c n).1.st := by
  unfold Event.ownExtend
  extract_lets q e1
  have k1 : Stays s e1.st := by
    simp only [e1]; split
    · exact k.next rfl rfl
    · exact k
  dsimp only
  repeat' split
  · exact k1
  · exact k1
  · exact k1
  · exact k1
  · exact k1
  · exact k1.screened
  · exact k1.direct

theorem Event.ownTransfer_keeps (e : Event) (p : Pos) : Keeps e.st (e.ownTransfer p).1.st := by
  unfold Event.ownTransfer; dsimp only
  repeat' split
  · exact .refl _
  · exact .refl _
  · exact Event.toState_keeps (Event.leaveLoop_keeps (Event.issueList_keeps (.refl _)))
  · exact .refl _
  · exact Event.deliver_keeps (Event.issueList_keeps (.refl _))
  · exact .refl _
  · exact .refl _
  · exact .refl _

theorem Event.ownCancel_keeps (e : Event) (p : Pos) : Keeps e.st (e.ownCancel p).1.st := by
  unfold Event.ownCancel; dsimp only
  repeat' split
  · exact .refl _
  · exact .refl _
  · exact Event.backToTalk_keeps (Event.answerExtendOf_keeps (Event.issueList_keeps (.refl _)))
  · exact Event.backToTalk_keeps (Event.answerExtendOf_keeps (Event.issueList_keeps (.refl _)))
  · exact Event.dropTarget_keeps (Event.answerExtendOf_keeps (Event.issueList_keeps (.refl _)))
  · exact .refl _
  · exact .refl _

theorem Stays.ownSetNight {p : Option Pos} {part mode : Byte} (k : Stays s e.st) :
    Stays s (e.ownSetNight p part mode).1.st := by
  unfold Event.ownSetNight
  repeat' split
  · exact k
  · exact k
  · exact k
  · exact k
  · exact k.goNight
  · exact k.goDay
  · exact k

theorem Stays.ownApply {p : Option Pos} {c : CellIx} (k : Stays s e.st) : Stays s (e.ownApply p c).1.st := by
  unfold Event.ownApply; split
  · exact k
  · exact k.next rfl rfl

/-! ### OPEN, and every order -/

/-- OPEN passes its checks only at a position of a partition with a headset (R63, R64). -/
theorem Event.ownOpen_seats {p : Pos} (serving : e.st.engine = .serving) (h : SeatsInv e.st) :
    SeatsInv (e.ownOpen p).1.st := by
  unfold Event.ownOpen
  extract_lets q e1
  split
  · exact h
  split
  · exact h
  · next partition =>
    split
    · exact h
    · next headset =>
      have opened : SeatsInv e1.st := fun x hx => by
        by_cases hp : p = x
        · subst hp
          have hq : e1.st.pos p = { q with isOpen := true, pause := none, missed := 0 } := State.pos_setPos_self _ _ _
          have worn : q.headset ≠ none := fun bare => headset (by
            unfold State.headsetServes
            rw [show (e.st.pos p).headset = none from bare]
            rfl)
          rw [hq]
          exact ⟨serving, fun apart => partition (Option.isNone_iff_eq_none.mpr apart), worn⟩
        · have hq : e1.st.pos x = e.st.pos x := State.pos_setPos_ne _ _ hp
          rw [hq] at hx ⊢
          exact h x hx
      exact (Stays.refl e1.st).fillRoles.reportOpening.seats opened

theorem Event.own_seats {c : CellIx} {k : OrderKind} (serving : k = .openK → e.st.engine = .serving)
    (h : SeatsInv e.st) : SeatsInv (e.own c k).1.st := by
  have r := Stays.refl e.st
  unfold Event.own; dsimp only; split
  · exact r.ownSetNight.seats h
  · exact r.ownApply.seats h
  · exact Event.ownOpen_seats (serving rfl) h
  · exact r.ownClose.seats h
  · exact r.ownPause.seats h
  · exact r.ownAnswer.seats h
  · exact r.ownPick.seats h
  · exact (Event.ownHold_keeps _ _).stays.seats h
  · exact (Event.ownRetrieve_keeps _ _ _).stays.seats h
  · exact (Event.ownDisconnect_keeps _ _).stays.seats h
  · exact r.ownExtend.seats h
  · exact (Event.ownTransfer_keeps _ _).stays.seats h
  · exact (Event.ownCancel_keeps _ _).stays.seats h
  · exact h

theorem SeatsInv.answer {t : State} (h : SeatsInv t) (c : CellIx) (code : ResultCode) (d : Word) :
    SeatsInv (t.answer c code d) := Stays.seats (.of_eq rfl rfl) h

/-- An order reaches its owner only while the engine is SERVING, but for APPLY_PLAN (R161). -/
theorem State.formRefusal_serving {t : State} {c : CellIx} {k : OrderKind} (h : t.formRefusal c k = none)
    (hk : k ≠ .applyPlanK) : t.engine = .serving := by
  unfold State.formRefusal at h
  split at h
  · cases h
  split at h
  · cases h
  split at h
  · assumption
  · cases h
  · cases h

theorem Event.order_seats {c : CellIx} (h : SeatsInv e.st) : SeatsInv (e.order c).st := by
  unfold Event.order; split
  · exact h.answer _ _ _
  · next k _ =>
    split
    · exact h.answer _ _ _
    · next form =>
      have own := Event.own_seats (c := c) (k := k)
        (fun opens => State.formRefusal_serving form (opens ▸ by decide)) h
      unfold Event.settleOrder; split
      · exact own.answer _ _ _
      · exact own

/-! ### The activation of a plan (R81, R113) -/

/-- The steps of an activation before the positions are seated sign no position on and move none. -/
theorem Stays.refitLinks {pl : Plan} (k : Stays s e.st) : Stays s (e.refitLinks pl).st := by
  refine .foldl (fun e l k => ?_) k
  have unfit : Stays s (Event.unfitCircuits pl e l).st :=
    .foldl (fun _ _ k => .ite (fun _ => .foldl (fun _ _ k => k.setLine) k) fun _ => k) k
  exact .foldl (fun _ _ k => k.outcome)
    unfit.updLink

theorem Stays.settlePartition {old : Part → PartPlan} {pl : Plan} {q : Part} (k : Stays s e.st) :
    Stays s (Event.settlePartition old pl e q).st := by
  unfold Event.settlePartition
  extract_lets was now e1 reseed e2
  have k1 : Stays s e1.st := .ite (fun _ => k) fun _ => k.updPrt
  have k2 : Stays s e2.st := .ite (fun _ => k1.next rfl rfl) fun _ => k1
  exact .ite (fun _ => k2) fun _ => k2

theorem Stays.closeMoved {pl : Plan} {p : Pos} (k : Stays s e.st) : Stays s (Event.closeMoved pl e p).st :=
  .ite (fun _ => k.closePosition) fun _ => k

/-- A position that is closed is not OPEN when its close is done (R65). -/
theorem Event.closePosition_shut (e : Event) (p : Pos) (lost : Option Circuit) :
    ((e.closePosition p lost).st.pos p).isOpen = false := by
  unfold Event.closePosition
  extract_lets e1 e2 e3
  have shut : (e3.st.pos p).isOpen = false := congrArg Position.isOpen (State.pos_setPos_self _ _ _)
  have stays : Stays e3.st ((e3.closeRole p).reportClosing (e3.st.pos p).partition).st :=
    (Stays.refl e3.st).closeRole.reportClosing
  exact Bool.eq_false_iff.mpr fun hp => Bool.false_ne_true (shut.symm.trans (stays.isOpen p hp))

/-- A position that is still OPEN has the headset that the new plan gives it (R81). -/
theorem Event.closeMoved_headset {pl : Plan} {p : Pos} (hp : ((Event.closeMoved pl e p).st.pos p).isOpen = true) :
    pl.headsets.get p = (e.st.pos p).headset := by
  by_contra moved
  have closes : Event.closeMoved pl e p = e.closePosition p (e.st.pos p).headset :=
    if_pos ⟨(Stays.refl e.st).closeMoved.isOpen p hp, moved⟩
  rw [closes, Event.closePosition_shut] at hp
  cases hp

theorem Event.foldl_closeMoved_headset {pl : Plan} {p : Pos} {xs : List Pos} (mem : p ∈ xs)
    (hp : ((xs.foldl (Event.closeMoved pl) e).st.pos p).isOpen = true) : pl.headsets.get p = (e.st.pos p).headset := by
  induction xs generalizing e with
  | nil => cases mem
  | cons x xs ih =>
    have first : Stays e.st (Event.closeMoved pl e x).st := (Stays.refl _).closeMoved
    have later : Stays (Event.closeMoved pl e x).st (xs.foldl (Event.closeMoved pl) (Event.closeMoved pl e x)).st :=
      .foldl (fun _ _ k => k.closeMoved) (.refl _)
    rcases List.mem_cons.mp mem with rfl | mem
    · exact Event.closeMoved_headset (later.isOpen p hp)
    · exact (ih mem hp).trans (first.headset p)

theorem State.pos_seatPositions (t : State) (pl : Plan) (p : Pos) : (t.seatPositions pl).pos p =
    { t.pos p with partition := pl.partitionOf p, headset := pl.headsets.get p, role := .none } := by
  refine (Table.get_zip _ _ _ p).trans ?_
  rw [Table.get_make]
  rfl

/-- The new plan seats the positions that are still OPEN where they were. -/
theorem SeatsInv.seatPositions {t u : State} {pl : Plan} (h : SeatsInv t) (k : Stays t u)
    (check : ∀ p, (t.pos p).isOpen = true → pl.partitionOf p = (t.pos p).partition)
    (worn : ∀ p, (u.pos p).isOpen = true → pl.headsets.get p = (t.pos p).headset) : SeatsInv (u.seatPositions pl) :=
  fun p hp => by
    rw [State.pos_seatPositions] at hp ⊢
    obtain ⟨serving, seated⟩ := h p (k.isOpen p hp)
    rw [← check p (k.isOpen p hp), ← worn p hp] at seated
    exact ⟨k.engine.trans serving, seated⟩

/-- The positions that stay OPEN keep their seats under a plan that passes its checks (R81, R111). -/
theorem Event.seat_seats {pl : Plan} (h : SeatsInv e.st)
    (check : ∀ p, (e.st.pos p).isOpen = true → pl.partitionOf p = (e.st.pos p).partition) : SeatsInv (e.seat pl).st := by
  have closed : Stays e.st ((List.finRange 8).foldl (Event.closeMoved pl) e).st :=
    .foldl (fun _ _ k => k.closeMoved) (.refl _)
  have seated := h.seatPositions closed check fun p => Event.foldl_closeMoved_headset (List.mem_finRange p)
  exact Stays.fillRoles (e := Event.upd _ fun t => t.seatPositions pl) (.refl _) |>.seats seated

theorem State.takeDirectory_stays (t : State) (pl : Plan) : Stays t (t.takeDirectory pl) := .of_eq rfl rfl

theorem State.setCadence_stays (t : State) (c : Cadence) : Stays t (t.setCadence c) := .of_eq rfl rfl

theorem State.dropCamps_stays (t : State) : Stays t t.dropCamps := .of_eq rfl rfl

theorem State.takeCell_stays (t : State) (c : CellIx) : Stays t (t.takeCell c) := .of_eq rfl rfl

theorem State.refuseStales_stays (t : State) : Stays t t.refuseStales := by
  rw [t.refuseStales_only.shape]
  exact .of_eq rfl rfl

theorem State.endApply_stays (t : State) (c : CellIx) (code : ResultCode) (d : Word) : Stays t (t.endApply c code d) :=
  .of_eq rfl rfl

theorem Event.testAlerts_stays (e : Event) : Stays e.st ((List.finRange 4).foldl Event.alertTest e).st :=
  .foldl (fun _ _ k => k.keeps (Event.alertTest_keeps (.refl _))) (.refl _)

theorem SeatsInv.count {t : State} (h : SeatsInv t) : SeatsInv t.count := by
  unfold State.count
  dsimp only
  split
  · next closed => exact fun p hp => absurd (closed.symm.trans (h p hp).1) (by decide)
  · exact h

theorem Event.upd_seats {f : State → State} (h : SeatsInv (f e.st)) : SeatsInv (e.upd f).st := h

theorem Event.activate_seats {pl : Plan} (h : SeatsInv e.st) (valid : e.st.invalid pl = none) :
    SeatsInv (e.activate pl).st := by
  have ready : Stays e.st (((e.upd fun t => t.takeDirectory pl).refitLinks pl).upd fun t =>
      t.setCadence (t.cadence.activate pl.source pl.period)).st :=
    ((e.st.takeDirectory_stays pl).trans (Stays.refl (e.upd fun t => t.takeDirectory pl).st).refitLinks).upd
      fun t => t.setCadence_stays _
  have settled := (ready.foldl (g := Event.settlePartition e.st.part pl) (xs := List.finRange 4)
    fun _ _ k => k.settlePartition).upd State.dropCamps_stays
  have seated := Event.seat_seats (settled.seats h) fun p hp =>
    ((State.valid_spec valid).1 p (settled.isOpen p hp)).trans (settled.partition p).symm
  have tested := (Event.testAlerts_stays _).seats seated
  unfold Event.activate
  exact Event.upd_seats (f := State.count) tested.count

end Chain

/-! ### Every command -/

/-- The end of an event leaves the positions seated. -/
theorem runEvent_seats {s : State} {body : Event → Event} (h : SeatsInv (body (Event.begin s)).st) :
    SeatsInv (runEvent s body) := (Event.finish_keeps (.refl _)).stays.seats h

section Commands

variable {s : State} (h : SeatsInv s)

include h

theorem SeatsInv.event {body : Event → Event} (k : ∀ e, Stays s e.st → Stays s (body e).st) : SeatsInv (runEvent s body) :=
  runEvent_seats ((k (Event.begin s) (.refl s)).seats h)

theorem SeatsInv.same {t : State} (positions : t.positions = s.positions) (engine : t.engine = s.engine) : SeatsInv t :=
  Stays.seats (.of_eq positions engine) h

theorem SeatsInv.failHeads (l : LinkIx) (n : Nat) : SeatsInv (s.failHeads l n) := by
  induction n generalizing s with
  | zero => exact h
  | succ n ih =>
    unfold State.failHeads; split
    · next x xs _ =>
      split
      · exact h
      · exact ih (h.event fun _ k => k.updLink.outcome)
    · exact h

theorem SeatsInv.sendFrame (l : LinkIx) : SeatsInv (s.sendFrame l) := by
  unfold State.sendFrame
  generalize 1024 = n
  extract_lets k
  split
  · split
    · exact (s.setLink_stays _ _).seats h
    · exact (State.setLink_stays _ _ _).seats (h.failHeads l n)
  · exact h

theorem SeatsInv.handOn {l : LinkIx} {a : Addr} (rs : List Report) (orders : List (List Nat)) :
    SeatsInv (s.handOn l a rs orders) := by
  induction rs generalizing s orders with
  | nil => exact h
  | cons r rs ih =>
    unfold State.handOn
    exact ih (h.event fun _ k => k.report) _

theorem SeatsInv.goodAnswer {l : LinkIx} {f : Frame} {ans : Answer} {orders : List (List Nat)} :
    SeatsInv (s.goodAnswer l f ans orders) := by
  unfold State.goodAnswer
  split
  · exact h.event fun _ k => k.answered.outcome
  · exact h
  · exact (State.setLink_stays _ _ _).seats ((h.event fun _ k => k.answered).handOn _ _)

theorem SeatsInv.shelfAnswer {l : LinkIx} {bytes : List Byte} {orders : List (List Nat)} :
    SeatsInv (s.shelfAnswer l bytes orders) := by
  unfold State.shelfAnswer
  split
  · exact h
  · extract_lets t
    have ht : SeatsInv t := h.same rfl rfl
    split
    · exact ht.event fun _ k => k.deadFrame
    · split
      · exact ht.goodAnswer
      · exact ht.event fun _ k => k.miss

theorem SeatsInv.windowClose {l : LinkIx} {order : List Nat} : SeatsInv (s.windowClose l order) := by
  unfold State.windowClose
  split
  · exact h
  · extract_lets t
    have ht : SeatsInv t := h.same rfl rfl
    split
    · exact ht.event fun _ k => k.deadFrame
    · exact ht.event fun _ k => k.miss

theorem SeatsInv.timerExpiry {i : Slot} {x : TimerKind} {owner : Event → Slot → Event}
    (k : ∀ e, Stays s e.st → Stays s (owner e i).st) : SeatsInv (s.timerExpiry i x owner) := by
  unfold State.timerExpiry
  split
  · exact h.event k
  · exact h

theorem SeatsInv.waitHeld {i : Slot} : SeatsInv (s.waitHeld i) := by
  unfold State.waitHeld; dsimp only; split
  · split
    · exact h.event fun _ k => k.next rfl rfl
    · exact h
  · exact h

theorem SeatsInv.counterAdvance {q : Part} : SeatsInv (s.counterAdvance q) := by
  unfold State.counterAdvance; dsimp only; split
  · exact h.event fun _ k => .ite (fun _ => k.next rfl rfl) fun _ => k.next rfl rfl
  · exact h

theorem SeatsInv.marked : SeatsInv (runEvent s Event.mark) := 
  h.event fun _ k => k.keeps (Event.mark_keeps (.refl _))

theorem SeatsInv.setCadence (c : Cadence) : SeatsInv (s.setCadence c) := (s.setCadence_stays c).seats h

theorem SeatsInv.raise (f : Flag) : SeatsInv (s.raise f) := (s.raise_stays f).seats h

theorem SeatsInv.periodExpiry : SeatsInv s.periodExpiry := by
  unfold State.periodExpiry
  split
  · exact (h.setCadence _).marked
  · exact h

theorem SeatsInv.cadenceEdge : SeatsInv s.cadenceEdge := by
  unfold State.cadenceEdge
  split
  · exact h
  · exact (h.setCadence _).marked
  · exact ((h.setCadence _).raise _).marked

theorem SeatsInv.lossExpiry : SeatsInv s.lossExpiry := by
  unfold State.lossExpiry
  split
  · exact ((h.setCadence _).raise _).marked
  · exact h

theorem SeatsInv.takeOrder (c : CellIx) : SeatsInv (s.takeOrder c) :=
  runEvent_seats (Event.order_seats ((s.takeCell_stays c).seats h))

theorem SeatsInv.sweepStep : SeatsInv s.sweepStep := by
  have fresh : SeatsInv s.refuseStales := s.refuseStales_stays.seats h
  unfold State.sweepStep
  dsimp only
  split
  · split
    · exact fresh.takeOrder _
    · exact (s.refuseStales.setTaker_stays _).seats fresh
  · exact h

theorem SeatsInv.sweepFor {x : Option OrderKind} : SeatsInv (s.sweepFor x) := by
  unfold State.sweepFor
  split
  · exact h.sweepStep
  · exact h

theorem SeatsInv.endApply (c : CellIx) (code : ResultCode) (d : Word) : SeatsInv (s.endApply c code d) :=
  (s.endApply_stays c code d).seats h

theorem SeatsInv.activated {pl : Plan} (valid : s.invalid pl = none) (c : CellIx) (code : ResultCode)
    (detail : State → Word) :
    SeatsInv (runEvent s fun e => (e.activate pl).upd fun t => t.endApply c code (detail t)) :=
  runEvent_seats ((Event.activate_seats (e := Event.begin s) h valid).endApply _ _ _)

theorem SeatsInv.completeApply : SeatsInv s.completeApply := by
  unfold State.completeApply
  split
  · exact h
  · split
    · exact h.endApply _ _ _
    · next valid => exact h.activated valid _ _ _

theorem SeatsInv.startSweep : SeatsInv s.startSweep := by
  unfold State.startSweep
  split
  · exact h
  · exact (s.setTaker_stays _).seats h

end Commands

/-! ### Resets and bypass -/

/-- Where no position is OPEN, none has to be seated. -/
theorem SeatsInv.of_shut {s : State} (shut : ∀ p, (s.pos p).isOpen = false) : SeatsInv s :=
  fun p hp => absurd ((shut p).symm.trans hp) Bool.false_ne_true

theorem SeatsInv.resetEnds {s : State} (h : SeatsInv s) : SeatsInv s.resetEnds := by
  unfold State.resetEnds
  split
  · exact h.same rfl rfl
  · exact h

theorem State.powerOn_seats (s : State) (active : Bool) : SeatsInv (s.powerOn active) :=
  .resetEnds (.of_shut fun p => congrArg Position.isOpen (Table.get_fill _ p))

theorem State.softReset_seats (s : State) : SeatsInv s.softReset :=
  .resetEnds (.of_shut fun p => congrArg Position.isOpen (Table.get_fill _ p))

theorem SeatsInv.writeByte {s : State} (h : SeatsInv s) {a : Nat} {v : Byte} : SeatsInv (s.writeByte a v) := by
  unfold State.writeByte
  split
  · exact h.same rfl rfl
  · exact h.same rfl rfl
  · unfold State.writeControl
    have h1 : SeatsInv (s.setNotice (v.getLsbD 2)) := h.same rfl rfl
    split
    · exact s.softReset_seats
    · dsimp only
      split
      · exact h1.startSweep
      · exact h1
  · exact h.same rfl rfl
  · exact h.same rfl rfl
  · exact h

theorem SeatsInv.hostWrite {s : State} (h : SeatsInv s) {a : Nat} {word : Bool} {v : Word} :
    SeatsInv (s.hostWrite a word v) := by
  unfold State.hostWrite
  dsimp only
  split
  · exact h.writeByte.writeByte
  · exact h.writeByte

theorem SeatsInv.recordRead {s : State} (h : SeatsInv s) {a : Nat} {word : Bool} : SeatsInv (s.recordRead a word) := by
  unfold State.recordRead
  dsimp only
  split
  · exact h.same rfl rfl
  · exact h.same rfl rfl

theorem Event.bypassSlot_stays (e : Event) (i : Slot) : Stays e.st (e.bypassSlot i).st := by
  unfold Event.bypassSlot
  dsimp only
  split
  · exact .refl _
  · exact .of_eq rfl rfl

theorem State.abandonOrders_stays (t : State) : Stays t t.abandonOrders := by
  have answers : ∀ (cs : List CellIx) (t : State), Stays t (cs.foldl (fun s c => s.answer c .notServing 0) t) := fun cs => by
    induction cs with
    | nil => exact fun t => .refl t
    | cons c cs ih => exact fun t => Stays.trans (t := t.answer c .notServing 0) (.of_eq rfl rfl) (ih _)
  exact (answers t.taker.cells t).trans (.of_eq rfl rfl)

theorem State.bypassLinks_stays (t : State) : Stays t { t with links := t.links.map Link.bypass } := .of_eq rfl rfl

theorem State.pos_bypassed (t : State) (p : Pos) :
    (({ t with engine := .bypassed } : State).raise .bypass).pos p = t.pos p := rfl

/-- The entry to BYPASSED signs every position off (R167). -/
theorem Event.enterBypass_shut (e : Event) (p : Pos) : (e.enterBypass.st.pos p).isOpen = false := by
  unfold Event.enterBypass
  extract_lets e1 e2 e3 e4 e5 e6
  have shut : (e2.st.pos p).isOpen = false := congrArg Position.isOpen (Table.get_map _ _ p)
  have k4 : Stays e2.st e4.st := .foldl (fun e i k => k.trans (e.bypassSlot_stays i)) (.of_eq rfl rfl)
  have k5 : Stays e2.st e5.st := k4.upd State.bypassLinks_stays
  have k6 : Stays e2.st e6.st := k5.upd State.abandonOrders_stays
  have still : (e6.st.pos p).isOpen = false :=
    Bool.eq_false_iff.mpr fun hp => Bool.false_ne_true (shut.symm.trans (k6.isOpen p hp))
  exact (congrArg Position.isOpen (State.pos_bypassed e6.st p)).trans still

theorem SeatsInv.bypassEntry {s : State} (h : SeatsInv s) : SeatsInv s.bypassEntry := by
  unfold State.bypassEntry
  extract_lets t
  split
  · exact h.same rfl rfl
  · exact (Event.commit_keeps (.refl _)).stays.seats (.of_shut (Event.enterBypass_shut _))

/-- A BYPASSED engine has no OPEN position, and leaving BYPASSED opens none (R166). -/
theorem SeatsInv.bypassExit {s : State} (h : SeatsInv s) : SeatsInv s.bypassExit := by
  unfold State.bypassExit
  extract_lets t
  have ht : SeatsInv t := h.same rfl rfl
  split
  · next bypassed =>
    have shut : ∀ p, (t.discardPlan.pos p).isOpen = false := fun p => Bool.eq_false_iff.mpr fun hp => by
      have same : (t.discardPlan.pos p).isOpen = (t.pos p).isOpen := 
        (congrArg Position.isOpen (Table.get_map _ t.positions p)).trans rfl
      have before : (t.pos p).isOpen = true := same.symm.trans hp
      exact absurd (bypassed.symm.trans (ht p before).1) (by decide)
    exact (Event.raiseRecords_keeps _).stays.seats ((State.retie_keeps _).stays.seats (.of_shut shut))
  · exact ht

theorem SeatsInv.next {t u : State} (h : (.next u : Out) = .next t) (k : SeatsInv u) : SeatsInv t := by
  cases h
  exact k

theorem exec_seats {c : Instr} {s t : State} (hs : exec c s = .next t) (h : SeatsInv s) : SeatsInv t := by
  cases c with
  | powerOnReset active => exact .next hs (s.powerOn_seats active)
  | softReset => exact .next hs s.softReset_seats
  | attention on => exact .next hs (SeatsInv.startSweep (s := s.setNotice on) (h.same rfl rfl))
  | noticeEnable | summaryClear | maskWrite | releaseHoldEnd | engineSecondsTick => exact .next hs (h.same rfl rfl)
  | hostWrite => exact .next hs h.hostWrite
  | recordRead => exact .next hs h.recordRead
  | bypassEntry => exact .next hs h.bypassEntry
  | bypassExit => exact .next hs h.bypassExit
  | sweepTimerExpiry => exact .next hs (SeatsInv.startSweep (s := s.setTaker _) (h.same rfl rfl))
  | sweepStep => exact .next hs h.sweepStep
  | unknownKindOrder | openOrder | closeOrder | pauseOrder | answerOrder | pickOrder | holdOrder | retrieveOrder
  | disconnectOrder | extendOrder | transferOrder | cancelOrder | setNightOrder | applyPlanOrder =>
    exact .next hs h.sweepFor
  | applyCompletion => exact .next hs h.completeApply
  | sendFrame l => exact .next hs (h.sendFrame l)
  | pollDeadline => exact .next hs (h.same rfl rfl)
  | shelfAnswer => exact .next hs h.shelfAnswer
  | responseWindowClose => exact .next hs h.windowClose
  | offerExpiry => exact .next hs (h.timerExpiry fun _ k => k.offerExpired)
  | waitExpiry => exact .next hs (h.timerExpiry fun _ k => k.keeps (Event.waitExpired_keeps (.refl _)))
  | waitDeadlineHeld => exact .next hs h.waitHeld
  | announceExpiry => exact .next hs (h.timerExpiry fun _ k => k.keeps (Event.announceOver_keeps (.refl _)))
  | hold1Expiry => exact .next hs (h.timerExpiry fun _ k => k.keeps (Event.hold1Over_keeps (.refl _)))
  | hold2Expiry => exact .next hs (h.timerExpiry fun _ k => k.keeps (Event.hold2Over_keeps (.refl _)))
  | campExpiry => exact .next hs (h.timerExpiry fun _ k => k.keeps (Event.campOver_keeps (.refl _)))
  | counterAdvance => exact .next hs h.counterAdvance
  | periodTimerExpiry => exact .next hs h.periodExpiry
  | cadenceEdge => exact .next hs h.cadenceEdge
  | lossTimerExpiry => exact .next hs h.lossExpiry

/-- Settles O58. -/
theorem stepsKeepOpenPositionsSeated : Obligations.StepsKeepOpenPositionsSeated := by
  intro s t h hs
  unfold step at hs
  split at hs
  · cases hs
    exact h
  · next rest _ => exact exec_seats (s := { s with pending := rest }) hs (h.same rfl rfl)

end Sys2Proof.Machine
end

section
/-! SUPPORT. A call that an event recalls to its partition's roster, seen at the event's end (R26); the timers of a HELD
call (R75, R76); and O50. -/

namespace Sys2Proof.Machine

/-- The end of an event that has refused nothing and looks at no camp list. -/
theorem Event.ends_quiet {e : Event} {w : State} (st : e.st = w) (refusals : e.refusals = []) (serve : e.serve = []) :
    Quiet w e.finish := st ▸ (Event.finish_quietEnd refusals (by rw [serve]; exact nofun)).quiet

/-! ### Recalls (R26) -/

/-- A recall that its partition's roster takes. -/
theorem Event.joinRoster_recalls {e : Event} {i : Slot} {how : Issue} (live : (e.st.call i).state ≠ .free)
    (takes : RecallOpen e.st i) (room : e.st.room [.tone (e.st.call i).caller .ringback])
    (passes : e.st.passes how (.tone (e.st.call i).caller .ringback)) :
    (e.joinRoster i .recall how).st = e.st.recalled i ∧ (e.joinRoster i .recall how).refusals = e.refusals ∧
      (e.joinRoster i .recall how).serve = e.serve ++ (e.st.call i).letsGo := by
  have space : e.st.rosterFull (e.st.call i).partition .recall = false := by
    unfold State.rosterFull
    exact decide_eq_false (Nat.not_le_of_lt takes.space)
  have joins : e.joinRoster i .recall how = (e.enterRoster i .recall).ringback i how := by
    unfold Event.joinRoster
    dsimp only
    rw [takes.enabled, if_neg (by decide), if_neg (by rw [takes.day]; decide), space, if_neg (by decide)]
  obtain ⟨x, hcall⟩ := e.st.call_enlisted i i
  rw [if_pos rfl] at hcall
  have caller : ((e.st.enlisted i).call i).caller = (e.st.call i).caller := by rw [hcall]; rfl
  have shelf : ∀ k, (e.st.enlisted i).shelfOf k = e.st.shelfOf k := fun k => by
    unfold State.shelfOf
    rw [State.link_enlisted]
  rw [joins, Event.enterRoster_recall live]
  unfold Event.ringback
  dsimp only
  rw [caller, Event.issueAll_send]
  · exact ⟨rfl, rfl, rfl⟩
  · intro o ho
    dsimp only
    rw [State.link_enlisted]
    exact room o ho
  · intro o ho
    rw [List.mem_singleton.mp ho]
    unfold State.passes at passes ⊢
    rw [shelf]
    exact passes

/-- What a state `t` after an event shows, of calls and partitions, of the state `w` in which the event's rules had done
their work: the event's end has offered QUEUED calls at most. -/
structure Shows (w t : State) : Prop where
  queued : ∀ i, (w.call i).state = .queued → (t.call i).state = .queued ∨ (t.call i).state = .offered
  waiting : ∀ i, (t.call i).waiting = (w.call i).waiting
  prt : ∀ q, (t.prt q).bare = (w.prt q).bare

theorem Quiet.shows {w t : State} (h : Quiet w t) : Shows w t := ⟨h.queued, h.waiting, h.prt⟩

/-- What the end of an event shows of a call recalled from a state `b` whose rosters are those of `s`. -/
theorem Shows.recalled {s b t : State} {i : Slot} (ends : Shows (b.recalled i) t) (rests : (t.call i).rests)
    (cls : ∀ j, (b.call j).cls = (s.call j).cls) (home : (b.call i).partition = (s.call i).partition)
    (prts : b.prt (s.call i).partition = s.prt (s.call i).partition)
    (part : b.part (s.call i).partition = s.part (s.call i).partition) (takes : RecallOpen s i) : Recalled s t i := by
  obtain ⟨x, hself⟩ := b.call_recalled i i
  rw [if_pos rfl] at hself
  have waiting := ends.waiting i
  rw [hself] at waiting
  simp only [Call.waiting, Prod.mk.injEq] at waiting
  obtain ⟨-, -, hpart, hcls, -, -, -, hwait, -, -⟩ := waiting
  have prt : (t.prt (s.call i).partition).bare = ((b.enlisted i).prt (b.call i).partition).bare := by
    rw [← home, ends.prt]
    unfold State.recalled
    rw [State.prt_send]
  rw [b.prt_enlisted i, home, prts, part] at prt
  have roster : (t.prt (s.call i).partition).roster = b.recallRoster i := (congrArg Partition.roster prt).trans rfl
  refine ⟨ends.queued i (by rw [hself]; rfl), hcls, hpart.trans home, ⟨hwait, rests.2⟩, ?_, fun n j hj => ?_, ?_, ?_⟩
  · obtain ⟨front, back, hroster, hjoined, hback, hfront⟩ := b.recallRoster_spec i
    rw [home, prts] at hroster
    refine ⟨front, back, hroster, roster.trans hjoined, fun j hj => by rw [← cls]; exact hback j hj, ?_⟩
    exact hfront.imp_right fun ⟨j, hj, hr⟩ => ⟨j, hj, by rw [← cls]; exact hr⟩
  · rw [roster] at hj
    have place : (t.call j).place = ((b.recalled i).call j).place := by
      have waiting := ends.waiting j
      simp only [Call.waiting, Prod.mk.injEq] at waiting
      obtain ⟨-, -, -, -, -, -, place, -, -, -⟩ := waiting
      exact place
    refine place.trans (State.place_recalled ?_ ?_ hj)
    · rw [home, prts]; exact takes.absent
    · rw [home, prts]; exact takes.once
  · have alert : (t.prt (s.call i).partition).alert = decide ((s.part (s.call i).partition).alertLevel ≠ 0 ∧
        (s.part (s.call i).partition).alertLevel ≤ (b.recallRoster i).length) := congrArg Partition.alert prt
    unfold alertTested
    rw [alert, roster]
    exact decide_eq_true_iff
  · refine Eq.trans (congrArg (fun q => q.est.bare) prt) ?_
    cases (s.prt (s.call i).partition).roster <;> rfl

theorem State.link_recalled (b : State) (i : Slot) (l : LinkIx) : (b.recalled i).link l =
    { b.link l with queue := (b.link l).queue ++
      (entries i [.tone (b.call i).caller .ringback]).filter fun x => linkOf x.order.first == l } := by
  unfold State.recalled
  rw [State.link_send, State.link_enlisted]
  rfl

@[simp] theorem State.recalled_rings (b : State) (i : Slot) : (b.recalled i).rings = b.rings := by
  unfold State.recalled
  rw [State.rings_send_tone, State.enlisted_rings]

@[simp] theorem State.pos_recalled (b : State) (i : Slot) (p : Pos) : (b.recalled i).pos p = b.pos p := by
  unfold State.recalled
  rw [State.pos_send, State.pos_enlisted]

/-- A recalled call stands in its roster, without a target and without a held expiry. -/
theorem Event.finish_recalled {e : Event} {b : State} {i : Slot} (st : e.st = b.recalled i) (refusals : e.refusals = [])
    (serve : ∀ k ∈ e.serve, unserved e.st k) : (e.finish.call i).rests := by
  obtain ⟨x, hself⟩ := b.call_recalled i i
  rw [if_pos rfl] at hself
  exact Event.finish_rests refusals serve (by rw [st, hself]; exact ⟨rfl, rfl⟩)

/-! ### HOLD1 (R75) -/

/-- The HOLD2 timer that starts now, unless the partition has no hold recall time. -/
def State.hold2From (s : State) (i : Slot) : Option (TimerKind × Seconds) :=
  if (s.part (s.call i).partition).holdRecall = 0 then none
  else some (.hold2, s.seconds + BitVec.ofNat 32 (s.part (s.call i).partition).holdRecall)

/-- A HELD call whose loop flashes. -/
def State.flashed (s : State) (i : Slot) (p : Pos) (l : LoopIx) : State :=
  (s.setPos p { s.pos p with flash := (s.pos p).flash.set l true }).setCall i { s.call i with timer := s.hold2From i }

theorem Event.hold1Over_eq {s : State} {i : Slot} {p : Pos} {l : LoopIx} (h : OnLoop s i p l) :
    (Event.begin s).hold1Over i = { Event.begin s with st := s.flashed i p l } := by
  have self : (s.untimed i).call i = { s.call i with timer := none } := State.call_setCall_self _ _ _
  have begun : (Event.begin s).updCall i (fun c => { c with timer := none }) = { Event.begin s with st := s.untimed i } := rfl
  have part : ∀ q, (s.untimed i).part q = s.part q := fun _ => rfl
  unfold Event.hold1Over
  dsimp only
  rw [begun]
  dsimp only
  rw [self]
  dsimp only
  rw [h.position, h.loop]
  unfold State.flashed State.hold2From
  dsimp only
  have here : ∀ c, ((s.untimed i).setPos p c).part (s.call i).partition = s.part (s.call i).partition := fun _ => rfl
  unfold Event.updPos Event.upd
  dsimp only
  rw [here]
  by_cases zero : (s.part (s.call i).partition).holdRecall = 0
  · rw [if_pos zero, if_pos zero]
    rfl
  · rw [if_neg zero, if_neg zero]
    unfold Event.startTimer Event.upd State.untimed
    dsimp only
    rw [State.call_setPos, State.call_setCall_self]
    exact congrArg (fun t => { Event.begin s with st := t }) (State.setCall_setCall (s.setPos p _) i _ _)

theorem OnLoop.flashes {s : State} {i : Slot} {p : Pos} {l : LoopIx} (h : OnLoop s i p l)
    (held : (s.call i).state = .held) :
    let t := ((Event.begin s).hold1Over i).finish
    (t.call i).bare = { (s.call i).bare with timer := s.hold2From i } ∧
      (t.pos p).bare = { (s.pos p).bare with flash := (s.pos p).flash.set l true } ∧ silent s t ∧
      Aside s t (· = i) (· = p) (fun _ => False) fun _ => False := by
  have body := Event.hold1Over_eq h
  have quiet := Event.ends_quiet (congrArg Event.st body) (congrArg Event.refusals body) (congrArg Event.serve body)
  generalize ((Event.begin s).hold1Over i).finish = t at quiet
  dsimp only at quiet ⊢
  have self : (s.flashed i p l).call i = { s.call i with timer := s.hold2From i } := State.call_setCall_self _ _ _
  have panel : (s.flashed i p l).pos p = { s.pos p with flash := (s.pos p).flash.set l true } :=
    State.pos_setPos_self _ _ _
  refine ⟨?_, ?_, quiet.silent (fun _ => rfl) rfl, quiet.aside (fun j hj => ?_) (fun x hx => ?_) (fun _ _ => rfl)
    (fun _ => rfl) rfl⟩
  · rw [quiet.call i (by rw [self, held]; exact nofun), self]
    rfl
  · rw [quiet.pos, panel]
    rfl
  · exact State.call_setCall_ne _ _ (Ne.symm hj)
  · exact State.pos_setPos_ne _ _ (Ne.symm hx)

/-! ### HOLD2 (R76) -/

/-- The loop that the call is on has been emptied. -/
def State.unlooped (s : State) (p : Pos) (l : LoopIx) : State := s.setPos p ((s.pos p).without l)

section Unlooped

variable (s : State) (p : Pos) (l : LoopIx)

@[simp] theorem State.call_unlooped (i : Slot) : (s.unlooped p l).call i = s.call i := rfl
@[simp] theorem State.prt_unlooped (q : Part) : (s.unlooped p l).prt q = s.prt q := rfl
@[simp] theorem State.part_unlooped (q : Part) : (s.unlooped p l).part q = s.part q := rfl
@[simp] theorem State.link_unlooped (k : LinkIx) : (s.unlooped p l).link k = s.link k := rfl
@[simp] theorem State.unlooped_rings : (s.unlooped p l).rings = s.rings := rfl

end Unlooped

theorem OnLoop.recalls {s : State} {i : Slot} {p : Pos} {l : LoopIx} (h : OnLoop s i p l)
    (held : (s.call i).state = .held) (target : (s.call i).target = none) (takes : RecallOpen s i)
    (room : s.room [.tone (s.call i).caller .ringback]) :
    let t := ((Event.begin s).hold2Over i).finish
    Recalled s t i ∧ (t.call i).origin = (s.call i).origin ∧ (t.call i).loop = none ∧
      (t.pos p).bare = ((s.pos p).without l).bare ∧ issued s t i (entries i [.tone (s.call i).caller .ringback]) := by
  have live : (s.call i).state ≠ .free := by rw [held]; decide
  have leaves : (Event.begin s).leaveLoop i = { Event.begin s with st := s.unlooped p l } :=
    Event.leaveLoop_eq h.position h.loop h.call
  obtain ⟨st, refusals, serve⟩ := Event.joinRoster_recalls (e := { Event.begin s with st := s.unlooped p l }) (i := i)
    (how := .ordinary) live ⟨takes.enabled, takes.day, takes.space, takes.absent, takes.once⟩ room (.inl rfl)
  unfold Event.hold2Over
  rw [leaves]
  generalize Event.joinRoster _ i .recall .ordinary = e at st refusals serve
  have quietly : e.serve = [] := by
    rw [serve]
    show ([] : List Circuit) ++ (s.call i).letsGo = []
    unfold Call.letsGo
    rw [target]
    rfl
  have unheard : ∀ k ∈ e.serve, unserved e.st k := by rw [quietly]; exact nofun
  have quiet : Quiet ((s.unlooped p l).recalled i) e.finish := st ▸ (Event.finish_quietEnd refusals unheard).quiet
  have rests := Event.finish_recalled st refusals unheard
  obtain ⟨x, hself⟩ := (s.unlooped p l).call_recalled i i
  rw [if_pos rfl] at hself
  have panel : (s.unlooped p l).pos p = (s.pos p).without l := State.pos_setPos_self _ _ _
  have ends := Event.finish_call refusals unheard i
  generalize e.finish = t at quiet rests ends ⊢
  have loop : (t.call i).loop = none := by
    rcases ends with ⟨y, hy⟩ | ⟨-, y, -, hy⟩
    · rw [st, hself] at hy
      exact congrArg Call.loop hy
    · exact congrArg Call.loop hy
  refine ⟨quiet.shows.recalled rests (fun j => by simp) (by simp) (by simp) (by simp) takes, ?_, loop, ?_,
    quiet.issued (by simp [ShelfOrder.isRing]) (fun m => ?_) ?_ (by simp)⟩
  · have waiting := quiet.waiting i
    rw [hself] at waiting
    simp only [Call.waiting, Prod.mk.injEq] at waiting
    obtain ⟨-, -, -, -, -, origin, -, -, -, -⟩ := waiting
    exact origin
  · rw [quiet.pos, State.pos_recalled, panel]
  · rw [State.link_recalled, State.link_unlooped, State.call_unlooped]
  · rw [hself]
    rfl

theorem Position.without_loops {q r : Position} {l : LoopIx} (h : r.bare = (q.without l).bare) :
    r.loops.get l = none ∧ r.flash.get l = false ∧ ∀ m, m ≠ l → r.loops.get m = q.loops.get m := by
  have loops : r.loops = q.loops.set l none := congrArg Position.loops h
  have flash : r.flash = q.flash.set l false := congrArg Position.flash h
  rw [loops, flash]
  exact ⟨Table.get_set_self _ _ _, Table.get_set_self _ _ _, fun m hm => Table.get_set_ne _ _ (Ne.symm hm)⟩

/-- Settles O50. -/
theorem holdTimersFlashAndRecall : Obligations.HoldTimersFlashAndRecall := by
  unfold Obligations.HoldTimersFlashAndRecall
  refine ⟨fun s i p l timer held h => ?_, fun s i p l timer held h target takes room => ?_⟩
  · exact ⟨_, congrArg Host.Outcome.next (timer.runs Event.hold1Over), h.flashes held⟩
  · obtain ⟨recalled, origin, loop, panel, orders⟩ := h.recalls held target takes room
    obtain ⟨empty, dark, others⟩ := Position.without_loops panel
    exact ⟨_, congrArg Host.Outcome.next (timer.runs Event.hold2Over), recalled, origin, loop, empty, dark, others, orders⟩

end Sys2Proof.Machine
end

section
/-! SUPPORT. An order that its owner answers when it is taken, from the step that takes it to the end of its event (R158 to
R163). -/

namespace Sys2Proof.Machine

/-! ### The state and the event in which an order has been taken -/

/-- The stale numbers have been refused and the cell has been taken. -/
def State.taken (s : State) (c : CellIx) : State := s.refuseStales.takeCell c

/-- The event that hands on the order in the cell. -/
def Event.taking (s : State) (c : CellIx) : Event := (Event.begin s.refuseStales).upd fun t => t.takeCell c

theorem State.taken_eq (s : State) (c : CellIx) :
    s.taken c = { s with mem := (s.taken c).mem, taker := (s.taken c).taker, regs := (s.taken c).regs } := by
  unfold State.taken State.takeCell
  dsimp only
  rw [s.refuseStales_only.shape]

theorem State.refuseStales_eq (s : State) : s.refuseStales =
    { s with mem := s.refuseStales.mem, taker := s.refuseStales.taker, regs := s.refuseStales.regs } := by
  rw [s.refuseStales_only.shape]

section Taken

variable (s : State) (c : CellIx)

@[simp] theorem State.call_taken (i : Slot) : (s.taken c).call i = s.call i := by rw [State.taken_eq]; rfl
@[simp] theorem State.pos_taken (p : Pos) : (s.taken c).pos p = s.pos p := by rw [State.taken_eq]; rfl
@[simp] theorem State.prt_taken (q : Part) : (s.taken c).prt q = s.prt q := by rw [State.taken_eq]; rfl
@[simp] theorem State.part_taken (q : Part) : (s.taken c).part q = s.part q := by rw [State.taken_eq]; rfl
@[simp] theorem State.lamp_taken (k : Circuit) : (s.taken c).lamp k = s.lamp k := by rw [State.taken_eq]; rfl
@[simp] theorem State.link_taken (l : LinkIx) : (s.taken c).link l = s.link l := by rw [State.taken_eq]; rfl
@[simp] theorem State.shelfOf_taken (k : Circuit) : (s.taken c).shelfOf k = s.shelfOf k := by rw [State.taken_eq]; rfl
@[simp] theorem State.lookup_taken (n : Word) : (s.taken c).lookup n = s.lookup n := by rw [State.taken_eq]; rfl
@[simp] theorem State.taken_plan : (s.taken c).plan = s.plan := by rw [State.taken_eq]
@[simp] theorem State.taken_rings : (s.taken c).rings = s.rings := by rw [State.taken_eq]
@[simp] theorem State.taken_free : (s.taken c).free = s.free := by rw [State.taken_eq]
@[simp] theorem State.taken_seconds : (s.taken c).seconds = s.seconds := by rw [State.taken_eq]
@[simp] theorem State.taken_engine : (s.taken c).engine = s.engine := by rw [State.taken_eq]
@[simp] theorem State.newCount_taken (q : Part) : (s.taken c).newCount q = s.newCount q := by rw [State.taken_eq]; rfl

@[simp] theorem Event.taking_st : (Event.taking s c).st = s.taken c := rfl
@[simp] theorem Event.taking_start : (Event.taking s c).start = s.refuseStales := rfl
@[simp] theorem Event.taking_refusals : (Event.taking s c).refusals = [] := rfl
@[simp] theorem Event.taking_serve : (Event.taking s c).serve = [] := rfl
@[simp] theorem Event.taking_keepIdle : (Event.taking s c).keepIdle = [] := rfl
@[simp] theorem Event.taking_gained : (Event.taking s c).gained = .fill false := rfl
@[simp] theorem Event.taking_log : (Event.taking s c).log = [] := rfl

@[simp] theorem State.pos_refuseStales (p : Pos) : s.refuseStales.pos p = s.pos p := by rw [State.refuseStales_eq]; rfl

theorem State.room_taken {os : List ShelfOrder} : (s.taken c).room os ↔ s.room os := by
  unfold State.room
  simp only [State.link_taken]

theorem reachable_taken {os : List ShelfOrder} : reachable (s.taken c) os ↔ reachable s os := by
  unfold reachable
  simp only [State.shelfOf_taken]

end Taken

/-! ### The cell of an order that may be answered (R163) -/

/-- The order in the cell has been taken now and may be answered: no EXTEND in flight answers to its cell. -/
structure State.awaits (t : State) (c : CellIx) : Prop where
  wf : Memory.wf t.mem = true
  now : t.takenNow c
  apart : ∀ q, (t.pos q).extendCell ≠ some c

theorem State.awaits.of_eq {t u : State} {c : CellIx} (h : t.awaits c) (mem : u.mem = t.mem)
    (seconds : u.seconds = t.seconds) (cells : ∀ q, (u.pos q).extendCell = (t.pos q).extendCell) : u.awaits c where
  wf := by rw [mem]; exact h.wf
  now := by
    unfold State.takenNow
    rw [mem, seconds]
    exact h.now
  apart := fun q => by rw [cells]; exact h.apart q

theorem State.awaits.keeps {t u : State} {c : CellIx} (h : t.awaits c) (k : Keeps t u) : u.awaits c where
  wf := k.wf h.wf
  now := by
    have read : ∀ j < 32, u.mem.read (cellBase c + j) = t.mem.read (cellBase c + j) := fun j hj =>
      k.mem h.wf _ fun ⟨q, d, hq, hr⟩ => by
        obtain ⟨rfl, -⟩ := engineByte_cell hj (.inl hr)
        exact h.apart q hq
    have seconds : u.seconds = t.seconds := by
      have core := k.core
      simp only [State.core, Prod.mk.injEq] at core
      exact core.2.2.2.1
    have now := h.now
    unfold State.takenNow Memory.read16 at now ⊢
    rw [Nat.add_assoc, read (8 + 1) (by omega), read 8 (by omega), seconds, ← Nat.add_assoc]
    exact now
  apart := fun q hq => by
    rcases k.extendCell q with same | none
    · exact h.apart q (same.symm.trans hq)
    · rw [none] at hq
      cases hq

theorem NextOrder.awaits {s : State} {c : CellIx} {k : OrderKind} (h : NextOrder s c k) : (s.taken c).awaits c where
  wf := s.refuseStales.takeCell_wf c (s.refuseStales_only.wf h.wf)
  now := (s.refuseStales.takeCell_cell c (s.refuseStales_only.wf h.wf)).2
  apart := fun q => by
    rw [State.pos_taken]
    exact h.apart q

/-! ### The owner's answer -/

/-- The event in which the owner has answered the order in the cell. -/
def Event.replied (f : Event) (c : CellIx) (code : ResultCode) : Event := f.upd fun t => t.answer c code 0

section Replied

variable (f : Event) (c : CellIx) (code : ResultCode)

@[simp] theorem Event.replied_st : (f.replied c code).st = f.st.answer c code 0 := rfl
@[simp] theorem Event.replied_start : (f.replied c code).start = f.start := rfl
@[simp] theorem Event.replied_refusals : (f.replied c code).refusals = f.refusals := rfl
@[simp] theorem Event.replied_serve : (f.replied c code).serve = f.serve := rfl
@[simp] theorem Event.replied_keepIdle : (f.replied c code).keepIdle = f.keepIdle := rfl
@[simp] theorem Event.replied_gained : (f.replied c code).gained = f.gained := rfl

end Replied

section Answer

variable (t : State) (c : CellIx) (code : ResultCode) (d : Word)

@[simp] theorem State.part_answer (q : Part) : (t.answer c code d).part q = t.part q := rfl
@[simp] theorem State.answer_rings : (t.answer c code d).rings = t.rings := rfl
@[simp] theorem State.answer_free : (t.answer c code d).free = t.free := rfl
@[simp] theorem State.answer_seconds : (t.answer c code d).seconds = t.seconds := rfl
@[simp] theorem State.answer_plan : (t.answer c code d).plan = t.plan := rfl

end Answer

section Takes

variable {s : State} {c : CellIx} {k : OrderKind} {p : Pos}

/-- The command of the order is the event of its owner's answer, in which the order finishes. -/
theorem Takes.replies {f : Event} {code : ResultCode} (h : Takes s c k p)
    (own : (Event.taking s c).own c k = (f, some (code, 0))) (awaits : f.st.awaits c) :
    exec (orderCommand k) s = .next (f.replied c code).finish ∧ (f.replied c code).finish.finished c code 0 := by
  have settled : Event.settleOrder c ((Event.taking s c).own c k) = f.replied c code := by
    rw [own]
    rfl
  constructor
  · rw [h.exec_eq, h.takeOrder_eq, ← settled]
    rfl
  · exact Event.settleOrder_finished (e := f) awaits.wf awaits.now awaits.apart

theorem Takes.who (h : Takes s c k p) : positionOf (cellPosition (s.taken c).mem c) = some p := by
  obtain ⟨-, -, place, -, -⟩ := s.taken_form c h.wf h.next
  have same : cellPosition (s.taken c).mem c = p.val := place.trans h.place
  rw [same]
  exact dif_pos p.isLt

theorem Takes.body (h : Takes s c k p) {j : Nat} (hj : j < 20) : cellBody (s.taken c).mem c j = cellBody s.mem c j := by
  obtain ⟨-, -, -, -, body⟩ := s.taken_form c h.wf h.next
  exact body j hj

/-- What the owner of each kind is handed. -/
theorem Takes.own_eq (h : Takes s c k p) : (Event.taking s c).own c k =
    match k with
    | .openK => (Event.taking s c).ownOpen p
    | .closeK => (Event.taking s c).ownClose p (cellBody s.mem c 0)
    | .pauseK => (Event.taking s c).ownPause p (cellBody s.mem c 0)
    | .answerK => (Event.taking s c).ownAnswer p
    | .pickK => (Event.taking s c).ownPick p (cellBody s.mem c 0)
    | .holdK => (Event.taking s c).ownHold p
    | .retrieveK => (Event.taking s c).ownRetrieve p (cellBody s.mem c 0)
    | .disconnectK => (Event.taking s c).ownDisconnect p
    | .extendK =>
      (Event.taking s c).ownExtend p (cellBody s.mem c 1 ++ cellBody s.mem c 0) (cellBody s.mem c 2) c
        (cellNumber (s.taken c).mem c)
    | .transferK => (Event.taking s c).ownTransfer p
    | .cancelK => (Event.taking s c).ownCancel p
    | .setNightK => (Event.taking s c).ownSetNight (some p) (cellBody s.mem c 0) (cellBody s.mem c 1)
    | .applyPlanK => (Event.taking s c).ownApply (some p) c := by
  have who := h.who
  have b0 := h.body (j := 0) (by decide)
  have b1 := h.body (j := 1) (by decide)
  have b2 := h.body (j := 2) (by decide)
  unfold Event.own
  dsimp only
  rw [Event.taking_st, who, b0, b1, b2]
  cases k <;> rfl

end Takes

/-! ### The end of the event -/

/-- A position that has become available has idle-since now, unless it is to keep it (R69). -/
theorem Event.testPosition_stamps (e : Event) (x : Pos) (fresh : e.freed x = true) (free : x ∉ e.keepIdle) :
    ((e.testPosition x).st.pos x).idleSince = e.st.seconds := by
  have cond : ((e.st.pos x).available && !(e.start.pos x).available) = e.freed x := rfl
  have kept : e.keepIdle.contains x = false := by simpa using free
  unfold Event.testPosition
  rw [cond, fresh, if_pos rfl, kept]
  dsimp only
  rw [if_neg Bool.false_ne_true]
  have stamp : ((e.st.setPos x { e.st.pos x with idleSince := e.st.seconds }).pos x).idleSince = e.st.seconds :=
    congrArg Position.idleSince (State.pos_setPos_self _ _ _)
  split
  · exact stamp
  · exact stamp

theorem Event.testPosition_keepIdle (e : Event) (x : Pos) : (e.testPosition x).keepIdle = e.keepIdle := by
  unfold Event.testPosition
  dsimp only
  split
  · split <;> split <;> rfl
  · rfl

theorem Event.testPositions_stamps (e : Event) (x : Pos) (fresh : e.freed x = true) (free : x ∉ e.keepIdle) :
    (e.testPositions.st.pos x).idleSince = e.st.seconds := by
  have later : ∀ (xs : List Pos) (f : Event), (f.st.pos x).idleSince = f.st.seconds →
      ((xs.foldl Event.testPosition f).st.pos x).idleSince = f.st.seconds := fun xs => by
    induction xs with
    | nil => exact fun _ h => h
    | cons y ys ih =>
      intro f h
      have tested := f.testPosition_tested y
      have seconds : (f.testPosition y).st.seconds = f.st.seconds := by rw [tested.rest]
      rw [← seconds]
      refine ih _ ?_
      rcases tested.idle x with same | ⟨-, now⟩
      · rw [same, seconds]; exact h
      · rw [seconds]; exact now
  have here : ∀ (xs : List Pos) (f : Event), x ∈ xs → f.freed x = true → x ∉ f.keepIdle →
      ((xs.foldl Event.testPosition f).st.pos x).idleSince = f.st.seconds := fun xs => by
    induction xs with
    | nil => exact fun _ h => absurd h List.not_mem_nil
    | cons y ys ih =>
      intro f mem fresh free
      have tested := f.testPosition_tested y
      have seconds : (f.testPosition y).st.seconds = f.st.seconds := by rw [tested.rest]
      rw [← seconds]
      obtain rfl | ne := eq_or_ne x y
      · exact later ys _ ((f.testPosition_stamps x fresh free).trans seconds.symm)
      · refine ih _ (List.mem_of_ne_of_mem ne mem) (by rw [tested.freed]; exact fresh) ?_
        rw [Event.testPosition_keepIdle]
        exact free
  exact here _ e (List.mem_finRange x) fresh free

/-- The arbiter, the passes and the revisions leave idle-since as the tests of availability set it. -/
theorem Event.finish_tested {e : Event} (hr : e.refusals = []) (hs : ∀ k ∈ e.serve, unserved e.st k) (x : Pos) :
    (e.finish.pos x).idleSince = (e.testPositions.st.pos x).idleSince := by
  obtain ⟨dealt, revised, -⟩ := Event.finish_ends hr hs
  rw [revised.idle, dealt.panel]

theorem Event.finish_stamps {e : Event} (hr : e.refusals = []) (hs : ∀ k ∈ e.serve, unserved e.st k) {x : Pos}
    (fresh : e.freed x = true) (free : x ∉ e.keepIdle) : (e.finish.pos x).idleSince = e.st.seconds := by
  rw [Event.finish_tested hr hs]
  exact e.testPositions_stamps x fresh free

/-- A position that has not become available keeps its idle-since. -/
theorem Event.finish_idles {e : Event} (hr : e.refusals = []) (hs : ∀ k ∈ e.serve, unserved e.st k) {x : Pos}
    (stale : e.freed x = false) : (e.finish.pos x).idleSince = (e.st.pos x).idleSince := by
  rw [Event.finish_tested hr hs]
  rcases e.testPositions_tested.idle x with same | ⟨fresh, -⟩
  · exact congrArg Position.idleSince same
  · rw [stale] at fresh
    cases fresh

theorem Position.any_empty {q : Position} : q.loops.list.any (·.isNone) = true ↔ ∃ l, q.loops.get l = none := by
  rw [List.any_eq_true]
  constructor
  · rintro ⟨x, hx, none⟩
    obtain ⟨n, hn, rfl⟩ := List.mem_iff_getElem.mp hx
    exact ⟨⟨n, by rw [← q.loops.len]; exact hn⟩, Option.isNone_iff_eq_none.mp none⟩
  · rintro ⟨l, hl⟩
    exact ⟨q.loops.get l, List.getElem_mem _, Option.isNone_iff_eq_none.mpr hl⟩

theorem Position.available_iff {q : Position} : q.available = true ↔
    q.isOpen = true ∧ q.pause = none ∧ q.offered = none ∧ q.speaking = none ∧ ∃ l, q.loops.get l = none := by
  unfold Position.available
  simp only [Bool.and_eq_true, Option.isNone_iff_eq_none, Position.any_empty, and_assoc]

end Sys2Proof.Machine
end

section
/-! SUPPORT. The quiet end of an order's event as one relation of states; and O24. -/

namespace Sys2Proof.Machine

/-- From state `w` an event that began in `s` has ended quietly: what its end leaves of calls and of idle-since times. -/
structure Settled (s w t : State) : Prop where
  quiet : Quiet w t
  stamps : ∀ x, (w.pos x).available = true → (s.pos x).available = false → (t.pos x).idleSince = w.seconds
  idles : ∀ x, (w.pos x).available = false ∨ (s.pos x).available = true → (t.pos x).idleSince = (w.pos x).idleSince
  call : ∀ i, (∃ y, (t.call i).bare = { (w.call i).bare with estimate := y }) ∨
    (w.call i).state = .queued ∧ ∃ x, (w.pos x).available = true ∧ (t.call i).bare = (w.offering i x).bare
  rests : ∀ i, (w.call i).rests → (t.call i).rests

/-- The owner of an order has left its event in state `w`: nothing was refused, no camp ring is due, no position is to keep
its idle-since. -/
structure Event.Leaves (s : State) (f : Event) (w : State) : Prop where
  st : f.st = w
  start : f.start = s.refuseStales
  refusals : f.refusals = []
  serve : ∀ k ∈ f.serve, unserved w k
  keepIdle : f.keepIdle = []

theorem Event.settled {s : State} {e : Event} (start : ∀ x, e.start.pos x = s.pos x) (refusals : e.refusals = [])
    (serve : ∀ k ∈ e.serve, unserved e.st k) (keepIdle : e.keepIdle = []) : Settled s e.st e.finish where
  quiet := (Event.finish_quietEnd refusals serve).quiet
  stamps := fun x avail was => by
    refine Event.finish_stamps refusals serve ?_ (by rw [keepIdle]; exact List.not_mem_nil)
    unfold Event.freed
    rw [avail, start, was]
    rfl
  idles := fun x stale => by
    refine Event.finish_idles refusals serve ?_
    unfold Event.freed
    rw [start]
    rcases stale with h | h
    · rw [h]; rfl
    · rw [h, Bool.not_true, Bool.and_false]
  call := fun i => Event.finish_call refusals serve i
  rests := fun _ h => Event.finish_rests refusals serve h

/-- The step that takes an order whose owner answers it at once. -/
theorem Takes.settles {s w : State} {c : CellIx} {k : OrderKind} {p : Pos} {f : Event} {code : ResultCode}
    (h : Takes s c k p) (own : (Event.taking s c).own c k = (f, some (code, 0))) (leaves : f.Leaves s w)
    (awaits : w.awaits c) :
    ∃ t, exec (orderCommand k) s = .next t ∧ t.finished c code 0 ∧ Settled s (w.answer c code 0) t := by
  obtain ⟨st, start, refusals, serve, keepIdle⟩ := leaves
  subst st
  obtain ⟨run, finished⟩ := h.replies own awaits
  refine ⟨_, run, finished, Event.settled (e := f.replied c code) (fun x => ?_) refusals serve keepIdle⟩
  rw [Event.replied_start, start, State.pos_refuseStales]

/-! ### Steps of an owner -/

/-- Of an event's notes the second has only changed what its own records are. -/
structure Event.Only (e f : Event) : Prop where
  start : f.start = e.start
  refusals : f.refusals = e.refusals
  serve : f.serve = e.serve
  keepIdle : f.keepIdle = e.keepIdle

section Only

variable {e f g : Event} {i : Slot}

theorem Event.Only.refl (e : Event) : e.Only e := ⟨rfl, rfl, rfl, rfl⟩

theorem Event.Only.trans (h : e.Only f) (k : f.Only g) : e.Only g :=
  ⟨k.start.trans h.start, k.refusals.trans h.refusals, k.serve.trans h.serve, k.keepIdle.trans h.keepIdle⟩

theorem Event.Only.leaves {s w : State} {c : CellIx} (h : (Event.taking s c).Only f) (st : f.st = w) : f.Leaves s w where
  st := st
  start := h.start
  refusals := h.refusals
  serve := by rw [h.serve]; exact nofun
  keepIdle := h.keepIdle

theorem Event.updPos_only (e : Event) (p : Pos) (g : Position → Position) : e.Only (e.updPos p g) := ⟨rfl, rfl, rfl, rfl⟩
theorem Event.startTimer_only (e : Event) (i : Slot) (k : TimerKind) (n : Nat) : e.Only (e.startTimer i k n) :=
  ⟨rfl, rfl, rfl, rfl⟩

theorem Event.issueList_sends {os : List ShelfOrder} (room : e.st.room os) :
    (e.issueList i os).st = e.st.sendAll i os ∧ e.Only (e.issueList i os) := by
  unfold Event.issueList
  rw [Event.issueAll_send _ _ room fun o _ => .inl rfl]
  exact ⟨rfl, rfl, rfl, rfl, rfl⟩

theorem Event.toState_moves {st : CallState} (live : (e.st.call i).state ≠ .free) (target : (e.st.call i).target = none) :
    (e.toState i st).st = e.st.setCall i ((e.st.call i).enter st e.st.seconds) ∧ e.Only (e.toState i st) := by
  have quiet : (e.st.call i).letsGo = [] := by unfold Call.letsGo; rw [target]
  rw [Event.toState_eq e live, quiet, ite_self, List.append_nil]
  exact ⟨rfl, rfl, rfl, rfl, rfl⟩

end Only

/-! ### HOLD (R73) -/

/-- The orders of a HOLD. -/
def holdOrders (c : Call) (h : Circuit) : List ShelfOrder := [.part c.caller h, .tone c.caller .hold]

/-- The HOLD1 timer that starts now, unless the partition has no hold recall time. -/
def State.hold1From (s : State) (i : Slot) : Option (TimerKind × Seconds) :=
  if (s.part (s.call i).partition).holdRecall = 0 then none
  else some (.hold1, s.seconds + BitVec.ofNat 32 (s.part (s.call i).partition).holdRecall)

/-- The position's speaking call has been put on hold. -/
def State.onHold (t : State) (i : Slot) (p : Pos) (h : Circuit) : State :=
  let t' := t.sendAll i (holdOrders (t.call i) h)
  (t'.setCall i { (t'.call i).enter .held t.seconds with timer := t.hold1From i }).setPos p
    { t.pos p with speaking := none }

section OnHold

variable (t : State) (i : Slot) (p : Pos) (h : Circuit)

theorem State.call_onHold_self : (t.onHold i p h).call i =
    { (t.call i).enter .held t.seconds with timer := t.hold1From i, pending := (t.call i).pending + 2 } := by
  unfold State.onHold
  dsimp only
  rw [State.call_setPos, State.call_setCall_self, State.call_sendAll, if_pos rfl]
  rfl

theorem State.call_onHold_ne {j : Slot} (hj : i ≠ j) : (t.onHold i p h).call j = t.call j := by
  unfold State.onHold
  dsimp only
  rw [State.call_setPos, State.call_setCall_ne _ _ hj, State.call_sendAll, if_neg hj]

theorem State.pos_onHold_self : (t.onHold i p h).pos p = { t.pos p with speaking := none } := State.pos_setPos_self _ _ _

theorem State.pos_onHold_ne {x : Pos} (hx : p ≠ x) : (t.onHold i p h).pos x = t.pos x := by
  unfold State.onHold
  dsimp only
  rw [State.pos_setPos_ne _ _ hx, State.pos_setCall, State.pos_sendAll]

@[simp] theorem State.prt_onHold (q : Part) : (t.onHold i p h).prt q = t.prt q := by simp [State.onHold]
@[simp] theorem State.lamp_onHold (k : Circuit) : (t.onHold i p h).lamp k = t.lamp k := by simp [State.onHold]
@[simp] theorem State.onHold_free : (t.onHold i p h).free = t.free := by simp [State.onHold]
@[simp] theorem State.onHold_seconds : (t.onHold i p h).seconds = t.seconds := by simp [State.onHold]
@[simp] theorem State.onHold_mem : (t.onHold i p h).mem = t.mem := by simp [State.onHold]

theorem State.link_onHold (l : LinkIx) : (t.onHold i p h).link l =
    { t.link l with
      queue := (t.link l).queue ++ (entries i (holdOrders (t.call i) h)).filter fun x => linkOf x.order.first == l } := by
  unfold State.onHold
  dsimp only
  rw [State.link_setPos, State.link_setCall, State.link_sendAll]

theorem State.onHold_rings : (t.onHold i p h).rings = t.rings := by
  unfold State.onHold
  dsimp only
  rw [State.setPos_rings, State.setCall_rings, State.rings_sendAll]
  simp [holdOrders, ShelfOrder.isRing]

end OnHold

/-- A panel with a call on its speaking loop. -/
theorem Speaking.speakingCall {s : State} {p : Pos} {i : Slot} {l : LoopIx} {h : Circuit} (hp : Speaking s p i l h) :
    (s.pos p).speakingCall = some i := by
  unfold Position.speakingCall
  rw [hp.speaking]
  exact hp.loop

/-- The checks of HOLD are passed. -/
theorem Event.ownHold_passes {e : Event} {p : Pos} {i : Slot} {l : LoopIx} {h : Circuit} (hp : Speaking e.st p i l h)
    (noExtend : (e.st.pos p).extend = none) (talking : (e.st.call i).state = .talking) : e.ownHold p =
      let f := ((e.issueList i (holdOrders (e.st.call i) h)).toState i .held).updPos p fun q => { q with speaking := none }
      let length := (f.st.part (e.st.call i).partition).holdRecall
      (if length = 0 then f else f.startTimer i .hold1 length).grant := by
  unfold Event.ownHold
  simp only [hp.isOpen, noExtend, hp.speakingCall, talking, hp.headset, Bool.not_true, Bool.false_eq_true, if_false,
    Option.isSome_none, ne_eq, not_true_eq_false]
  rfl

/-- The record of a call without a target that moves between the states of a loop. -/
theorem Call.bare_enter {c : Call} {st : CallState} (loop : st = .talking ∨ st = .held) (target : c.target = none)
    (now : Seconds) : (c.enter st now).bare = onLoop c st now := by
  have ringing : keepsRinging c.state st = false := by
    unfold keepsRinging
    rcases loop with rfl | rfl <;> cases c.state <;> rfl
  unfold onLoop Call.bare Call.enter
  rw [ringing, target]
  rcases loop with rfl | rfl <;> rfl

theorem Speaking.taken {s : State} {p : Pos} {i : Slot} {l : LoopIx} {h : Circuit} (hp : Speaking s p i l h)
    (c : CellIx) : Speaking (s.taken c) p i l h := by
  obtain ⟨isOpen, headset, speaking, loop, position, callLoop⟩ := hp
  constructor
  all_goals simpa

theorem Event.ownHold_eq {e : Event} {p : Pos} {i : Slot} {l : LoopIx} {h : Circuit} (hp : Speaking e.st p i l h)
    (noExtend : (e.st.pos p).extend = none) (talking : (e.st.call i).state = .talking)
    (target : (e.st.call i).target = none) (room : e.st.room (holdOrders (e.st.call i) h)) :
    ∃ f, e.ownHold p = (f, some (.ok, 0)) ∧ f.st = e.st.onHold i p h ∧ e.Only f := by
  rw [Event.ownHold_passes hp noExtend talking]
  obtain ⟨s1, o1⟩ := Event.issueList_sends (i := i) room
  generalize e.issueList i (holdOrders (e.st.call i) h) = e1 at s1 o1 ⊢
  have call1 : e1.st.call i = { e.st.call i with pending := (e.st.call i).pending + 2 } := by
    rw [s1, State.call_sendAll, if_pos rfl]
    rfl
  obtain ⟨s2, o2⟩ := Event.toState_moves (e := e1) (i := i) (st := .held) (by rw [call1, talking]; decide)
    (by rw [call1]; exact target)
  generalize e1.toState i .held = e2 at s2 o2 ⊢
  have only := (o1.trans o2).trans (e2.updPos_only p fun q => { q with speaking := none })
  have panel : e2.st.pos p = e.st.pos p := by rw [s2, State.pos_setCall, s1, State.pos_sendAll]
  have s3 : (e2.updPos p fun q => { q with speaking := none }).st =
      (e1.st.setCall i ((e1.st.call i).enter .held e.st.seconds)).setPos p { e.st.pos p with speaking := none } := by
    unfold Event.updPos Event.upd
    dsimp only
    rw [panel, s2, s1, State.sendAll_seconds]
  generalize (e2.updPos p fun q => { q with speaking := none }) = e3 at s3 only ⊢
  have part : ∀ q, e3.st.part q = e.st.part q := fun q => by
    unfold State.part
    rw [s3, State.setPos_plan, State.setCall_plan, s1, State.sendAll_plan]
  have seconds : e3.st.seconds = e.st.seconds := by
    rw [s3, State.setPos_seconds, State.setCall_seconds, s1, State.sendAll_seconds]
  dsimp only
  unfold State.onHold State.hold1From
  rw [part, ← s1]
  dsimp only
  by_cases zero : (e.st.part (e.st.call i).partition).holdRecall = 0
  · rw [if_pos zero, if_pos zero]
    exact ⟨e3, rfl, s3, only⟩
  · rw [if_neg zero, if_neg zero]
    refine ⟨_, rfl, ?_, only.trans (e3.startTimer_only ..)⟩
    unfold Event.startTimer Event.upd
    dsimp only
    rw [seconds, s3, State.call_setPos, State.call_setCall_self]
    exact State.setCall_setCall (e1.st.setPos p _) i _ _

/-- Settles O24. -/
theorem holdKeepsTheCallOnItsLoop : Obligations.HoldKeepsTheCallOnItsLoop := by
  intro s c p i l h r
  have speaks : Speaking (Event.taking s c).st p i l h := r.toSpeaking.taken c
  obtain ⟨f, own, st, only⟩ := Event.ownHold_eq speaks (by simpa using r.noExtend) (by simpa using r.talking)
    (by simpa using r.target) (by simpa [State.room_taken, holdOrders] using r.room)
  obtain ⟨t, run, finished, settled⟩ := r.settles (w := (s.taken c).onHold i p h)
    (r.own_eq.trans own) (only.leaves st) (by
    refine r.awaits.of_eq (State.onHold_mem ..) (State.onHold_seconds ..) fun q => ?_
    obtain rfl | hq := eq_or_ne p q
    · rw [State.pos_onHold_self]
    · rw [State.pos_onHold_ne _ _ _ _ hq])
  have quiet := settled.quiet
  have call : (((s.taken c).onHold i p h).answer c .ok 0).call i = _ :=
    (State.call_answer ..).trans (State.call_onHold_self ..)
  have panel : (((s.taken c).onHold i p h).answer c .ok 0).pos p = _ :=
    (State.pos_answer ..).trans (State.pos_onHold_self ..)
  simp only [State.call_taken, State.pos_taken, State.taken_seconds] at call panel
  refine ⟨t, run, finished, ?_, ?_, fun pause offered empty => ?_, ?_, ?_⟩
  · rw [quiet.call i (by rw [call]; exact nofun), call]
    rw [← Call.bare_enter (.inr rfl) r.target]
    unfold State.hold1From
    rw [State.call_taken, State.part_taken, State.taken_seconds]
    rfl
  · rw [quiet.pos, panel]
    rfl
  · refine (settled.stamps p ?_ ?_).trans ?_
    · rw [panel]
      exact Position.available_iff.mpr ⟨r.isOpen, pause, offered, rfl, empty⟩
    · exact Bool.eq_false_iff.mpr fun avail => by
        obtain ⟨-, -, -, silent, -⟩ := Position.available_iff.mp avail
        exact absurd (r.speaking.symm.trans silent) nofun
    · simp
  · refine quiet.issued (by simp [ShelfOrder.isRing]) (fun m => ?_) ?_ ?_
    · rw [State.link_answer, State.link_onHold]
      simp [holdOrders]
    · rw [call]
      rfl
    · simp [State.onHold_rings]
  · exact quiet.aside (fun j hj => by simp [State.call_onHold_ne _ _ _ _ (Ne.symm hj)])
      (fun x hx => by simp [State.pos_onHold_ne _ _ _ _ (Ne.symm hx)]) (fun q _ => by simp) (fun k => by simp) (by simp)

end Sys2Proof.Machine
end

section
/-! SUPPORT. The checks that an order's owner makes, and an order that fails one (R63, R82, R86, R92, R93, R118); and O17. -/

namespace Sys2Proof.Machine

/-! ### An event that has changed no panel, partition or link -/

/-- An event that has nothing to end but the calls it has changed. -/
structure Event.Idle (e : Event) : Prop where
  refusals : e.refusals = []
  serve : e.serve = []
  gained : e.gained = .fill false
  passes : e.passes = .fill false
  touched : e.touched = .fill false
  positions : e.st.positions = e.start.positions
  parts : e.st.parts = e.start.parts
  links : e.st.links = e.start.links
  plan : e.st.plan = e.start.plan
  cls : ∀ i, (e.st.call i).cls = (e.start.call i).cls

section Idle

variable {e : Event}

theorem Event.Idle.finish_eq (h : e.Idle) : e.finish = e.commit :=
  Event.finish_idle h.refusals h.serve (fun p => congrArg (fun t => Table.get t p) h.positions) h.gained h.passes

theorem Event.Idle.commit_positions (h : e.Idle) : e.commit.positions = e.st.positions := Event.commit_positions h.positions

theorem Event.Idle.commit_parts (h : e.Idle) : e.commit.parts = e.st.parts := by
  have prt : ∀ q, e.st.prt q = e.start.prt q := fun q => congrArg (fun t => Table.get t q) h.parts
  refine Table.ext_get fun q => Event.prt_commit_same ?_ ?_ h.plan.symm ?_
  · rw [h.touched]
    exact Table.get_fill _ _
  · exact (State.newCount_congr (congrArg Partition.roster (prt q)) h.cls).symm
  · exact (Partition.same_iff _ _).mpr (by rw [prt])

theorem Event.Idle.commit_links (h : e.Idle) : e.commit.links = e.st.links := by
  have bump : e.commit.links = (e.upd State.retie).raiseRecords.links := by
    unfold Event.commit State.bumpBoard
    dsimp only
    split <;> rfl
  refine bump.trans (Table.ext_get fun l => (Event.link_raiseRecords _ l).trans ?_)
  have link : (e.upd State.retie).st.links = (e.upd State.retie).start.links := h.links
  have unraised : (e.upd State.retie).linkRaises.get l = false := by
    unfold Event.linkRaises
    rw [Table.get_zip, link, (Link.same_iff _ _).mpr rfl]
    rfl
  rw [unraised]
  rfl

end Idle

/-! ### An order refused by its owner -/

theorem Event.handing_idle (t : State) (c : CellIx) : ((Event.begin t).upd fun u => u.takeCell c).Idle where
  refusals := rfl
  serve := rfl
  gained := rfl
  passes := rfl
  touched := rfl
  positions := rfl
  parts := rfl
  links := rfl
  plan := rfl
  cls := fun _ => rfl

theorem Event.taking_idle (s : State) (c : CellIx) : (Event.taking s c).Idle := Event.handing_idle s.refuseStales c

theorem Event.Idle.replied {e : Event} (h : e.Idle) (c : CellIx) (code : ResultCode) : (e.replied c code).Idle := by
  obtain ⟨refusals, serve, gained, passes, touched, positions, parts, links, plan, cls⟩ := h
  exact ⟨refusals, serve, gained, passes, touched, positions, parts, links, plan, cls⟩

theorem Event.Idle.updCall {e : Event} (h : e.Idle) {i : Slot} {g : Call → Call}
    (kept : (g (e.st.call i)).cls = (e.st.call i).cls) : (e.updCall i g).Idle := by
  obtain ⟨refusals, serve, gained, passes, touched, positions, parts, links, plan, cls⟩ := h
  refine ⟨refusals, serve, gained, passes, touched, positions, parts, links, plan, fun j => ?_⟩
  refine Eq.trans ?_ (cls j)
  obtain rfl | ne := eq_or_ne i j
  · exact (congrArg Call.cls (State.call_setCall_self ..)).trans kept
  · exact congrArg Call.cls (State.call_setCall_ne _ _ ne)

/-- What an idle event of an order leaves of everything but calls. -/
theorem Event.Idle.leaves {s : State} {e : Event} (h : e.Idle)
    (st : e.st = { s with calls := e.st.calls, mem := e.st.mem, taker := e.st.taker, regs := e.st.regs }) :
    e.finish.positions = s.positions ∧ e.finish.parts = s.parts ∧ e.finish.links = s.links ∧ e.finish.rings = s.rings ∧
      e.finish.free = s.free ∧ (∀ k, (e.finish.lamp k).bare = (s.lamp k).bare) ∧
      (e.finish.pending, e.finish.engine, e.finish.bypassIn, e.finish.seconds, e.finish.planCount, e.finish.plan,
          e.finish.apply, e.finish.cadence, e.finish.port) =
        (s.pending, s.engine, s.bypassIn, s.seconds, s.planCount, s.plan, s.apply, s.cadence, s.port) := by
  have quiet : Quiet e.st e.commit := Event.commit_quiet (.refl _)
  have core := (Event.commit_keeps (.refl e.st)).core
  simp only [State.core, Prod.mk.injEq] at core
  obtain ⟨pending, engine, bypassIn, seconds, planCount, plan, apply, cadence, port, -⟩ := core
  have positions := h.commit_positions
  have parts := h.commit_parts
  have links := h.commit_links
  have rings := quiet.rings
  have free := quiet.free
  have lamp := quiet.lamp
  rw [h.finish_eq]
  generalize e.commit = t at *
  rw [st] at positions parts links rings free lamp pending engine bypassIn seconds planCount plan apply cadence port
  refine ⟨positions, parts, links, rings, free, lamp, ?_⟩
  rw [pending, engine, bypassIn, seconds, planCount, plan, apply, cadence, port]

theorem Event.taking_untouched (s : State) (c : CellIx) (code : ResultCode) :
    Untouched s ((Event.taking s c).replied c code).finish := by
  have idle := (Event.taking_idle s c).replied c code
  have calls : ((Event.taking s c).replied c code).finish.calls = s.calls := by
    have same : ∀ t : State, (t.takeCell c).calls = t.calls := fun _ => rfl
    have taken : (s.taken c).calls = s.calls := by rw [s.taken_eq c]
    rw [idle.finish_eq, Event.commit_calls (same s.refuseStales) rfl]
    exact taken
  obtain ⟨positions, parts, links, rings, free, lamps, engine⟩ := idle.leaves (s := s) (by
    rw [Event.replied_st, Event.taking_st, State.taken_eq]
    rfl)
  exact ⟨calls, positions, parts, links, rings, free, lamps, engine⟩

/-! ### The checks (R63, R82, R86, R92, R93, R118) -/

theorem firstRefusal_cons (b : Bool) (code : ResultCode) (checks : List (Bool × ResultCode)) :
    firstRefusal ((b, code) :: checks) = if b = true then firstRefusal checks else some code := by
  unfold firstRefusal
  cases b <;> rfl

theorem firstRefusal_nil : firstRefusal [] = none := rfl

theorem Position.emptyLoop_any (q : Position) : q.loops.list.any (·.isNone) = q.emptyLoop.isSome := by
  rw [Bool.eq_iff_iff, Position.any_empty]
  unfold Position.emptyLoop
  rw [List.find?_isSome]
  exact ⟨fun ⟨l, hl⟩ => ⟨l, List.mem_finRange l, Option.isNone_iff_eq_none.mpr hl⟩,
    fun ⟨l, _, hl⟩ => ⟨l, Option.isNone_iff_eq_none.mp hl⟩⟩

theorem State.pickable_any (t : State) (p : Pos) (b : Byte) :
    ((List.finRange 64).any fun i => b.toNat == i.val && (t.call i).state == .queued &&
      (t.pos p).partition == some (t.call i).partition) = (t.pickable p b).isSome := by
  rw [Bool.eq_iff_iff, List.any_eq_true]
  simp only [Bool.and_eq_true, beq_iff_eq]
  unfold State.pickable
  constructor
  · rintro ⟨i, -, ⟨slot, queued⟩, partition⟩
    have here : (⟨b.toNat, slot ▸ i.isLt⟩ : Slot) = i := Fin.ext slot
    rw [dif_pos (slot ▸ i.isLt), here]
    dsimp only
    rw [if_pos ⟨queued, partition⟩]
    rfl
  · intro some
    split at some
    · next lt =>
      dsimp only at some
      split at some
      · next h => exact ⟨⟨b.toNat, lt⟩, List.mem_finRange _, ⟨rfl, h.1⟩, h.2⟩
      · cases some
    · cases some

theorem State.heldOn_any (t : State) (p : Pos) (l : LoopIx) :
    ((List.finRange 64).any fun i => (t.pos p).loops.get l == some i && (t.call i).state == .held) =
      (t.heldOn p l).isSome := by
  rw [Bool.eq_iff_iff, List.any_eq_true]
  simp only [Bool.and_eq_true, beq_iff_eq]
  unfold State.heldOn
  rw [Option.isSome_filter]
  constructor
  · rintro ⟨i, -, loop, held⟩
    rw [loop]
    exact beq_iff_eq.mpr held
  · intro some
    cases loop : (t.pos p).loops.get l with
    | none => rw [loop] at some; cases some
    | some i =>
      rw [loop] at some
      exact ⟨i, List.mem_finRange i, rfl, beq_iff_eq.mp some⟩

section Denies

variable {e : Event} {p : Pos} {b : Nat → Byte} {code : ResultCode}

theorem orderChecks_open (t : State) : orderChecks t p b .openK =
    [(!(t.pos p).isOpen, .alreadyOpen), ((t.pos p).partition.isSome, .badPosition),
      (t.headsetServes p, .outOfService)] := by
  unfold orderChecks State.headsetServes lineServes
  cases (t.pos p).headset <;> rfl

/-- The first check decides the refusal where it fails; where it passes, the checks after it do. -/
theorem Event.denies_check {own : Owned} {check : Bool} {first : ResultCode} {rest : List (Bool × ResultCode)}
    (fails : check = false → own = e.deny first)
    (passes : check = true → firstRefusal rest = some code → own = e.deny code) :
    firstRefusal ((check, first) :: rest) = some code → own = e.deny code := by
  rw [firstRefusal_cons]
  intro h
  cases check with
  | false => exact (Option.some.inj h) ▸ fails rfl
  | true => exact passes rfl h

theorem Event.denies_none {own : Owned} : firstRefusal [] = some code → own = e.deny code := nofun

theorem Event.ownOpen_denies (h : firstRefusal (orderChecks e.st p b .openK) = some code) :
    e.ownOpen p = e.deny code := by
  rw [orderChecks_open] at h
  unfold Event.ownOpen
  refine e.denies_check (fun isOpen => ?_) (fun isShut => e.denies_check (fun part => ?_) fun part =>
    e.denies_check (fun headset => ?_) fun _ => e.denies_none) h
  · simp_all
  · simp_all
  · have noPartition : (e.st.pos p).partition ≠ none := Option.isSome_iff_ne_none.mp part
    simp_all

theorem Event.ownClose_denies (h : firstRefusal (orderChecks e.st p b .closeK) = some code) :
    e.ownClose p (b 0) = e.deny code := by
  unfold Event.ownClose
  refine e.denies_check (fun isOpen => ?_) (fun isOpen => e.denies_check (fun inUse => ?_) fun _ => e.denies_none) h
  · simp [isOpen]
  · simp_all

theorem Event.ownPause_denies (h : firstRefusal (orderChecks e.st p b .pauseK) = some code) :
    e.ownPause p (b 0) = e.deny code := by
  unfold Event.ownPause
  exact e.denies_check (fun isOpen => by simp [isOpen]) (fun _ => e.denies_none) h

theorem Event.ownAnswer_denies (h : firstRefusal (orderChecks e.st p b .answerK) = some code) :
    e.ownAnswer p = e.deny code := by
  unfold Event.ownAnswer
  refine e.denies_check (fun isOpen => ?_) (fun isOpen => e.denies_check (fun noOffer => ?_) fun _ => e.denies_none) h
  · simp [isOpen]
  · simp_all

theorem Event.ownPick_denies (h : firstRefusal (orderChecks e.st p b .pickK) = some code) :
    e.ownPick p (b 0) = e.deny code := by
  simp only [orderChecks, State.pickable_any, Position.emptyLoop_any] at h
  unfold Event.ownPick
  refine e.denies_check (fun isOpen => ?_) (fun isOpen => e.denies_check (fun extend => ?_) fun extend =>
    e.denies_check (fun speaking => ?_) fun speaking => e.denies_check (fun loop => ?_) fun loop =>
    e.denies_check (fun call => ?_) fun _ => e.denies_none) h
  · simp [isOpen]
  · simp_all
  · simp_all
  · simp_all
  · obtain ⟨l, loop⟩ := Option.isSome_iff_exists.mp loop
    simp_all

theorem Event.ownHold_denies (h : firstRefusal (orderChecks e.st p b .holdK) = some code) :
    e.ownHold p = e.deny code := by
  simp only [orderChecks, speakingIs] at h
  unfold Event.ownHold
  refine e.denies_check (fun isOpen => ?_) (fun isOpen => e.denies_check (fun extend => ?_) fun extend =>
    e.denies_check (fun call => ?_) fun call => e.denies_check (fun state => ?_) fun _ => e.denies_none) h
  · simp [isOpen]
  · simp_all
  · simp_all
  · obtain ⟨i, call⟩ := Option.isSome_iff_exists.mp call
    simp_all

/-- The loop a RETRIEVE names holds a HELD call. -/
theorem State.heldOn_named (t : State) (p : Pos) {n : Nat} (h : n < 4) :
    ((List.finRange 4).any fun l => n == l.val && (t.heldOn p l).isSome) = (t.heldOn p ⟨n, h⟩).isSome := by
  rw [Bool.eq_iff_iff, List.any_eq_true]
  simp only [Bool.and_eq_true, beq_iff_eq]
  exact ⟨fun ⟨l, _, here, held⟩ => (Fin.ext here : (⟨n, h⟩ : LoopIx) = l) ▸ held,
    fun held => ⟨⟨n, h⟩, List.mem_finRange _, rfl, held⟩⟩

theorem Event.ownRetrieve_denies (h : firstRefusal (orderChecks e.st p b .retrieveK) = some code) :
    e.ownRetrieve p (b 0) = e.deny code := by
  simp only [orderChecks, State.heldOn_any] at h
  unfold Event.ownRetrieve
  refine e.denies_check (fun isOpen => ?_) (fun isOpen => e.denies_check (fun extend => ?_) fun extend =>
    e.denies_check (fun unnamed => ?_) fun named => e.denies_check (fun speaking => ?_) fun speaking =>
    e.denies_check (fun call => ?_) fun _ => e.denies_none) h
  · simp [isOpen]
  · simp_all
  · simp_all
  · simp_all
  · have lt : (b 0).toNat < 4 := of_decide_eq_true named
    rw [State.heldOn_named _ _ lt] at call
    have inRange : ¬ 4 ≤ (b 0).toNat := Nat.not_le.mpr lt
    simp_all

theorem Event.ownDisconnect_denies (h : firstRefusal (orderChecks e.st p b .disconnectK) = some code) :
    e.ownDisconnect p = e.deny code := by
  unfold Event.ownDisconnect
  refine e.denies_check (fun isOpen => ?_) (fun isOpen => e.denies_check (fun extend => ?_) fun extend =>
    e.denies_check (fun call => ?_) fun _ => e.denies_none) h
  · simp [isOpen]
  · simp_all
  · simp_all

theorem Event.ownTransfer_denies (h : firstRefusal (orderChecks e.st p b .transferK) = some code) :
    e.ownTransfer p = e.deny code := by
  simp only [orderChecks, speakingIs] at h
  unfold Event.ownTransfer
  refine e.denies_check (fun isOpen => ?_) (fun isOpen => e.denies_check (fun call => ?_) fun call => ?_) h
  · simp [isOpen]
  · simp_all
  · obtain ⟨i, call⟩ := Option.isSome_iff_exists.mp call
    refine e.denies_check (fun flight => ?_) fun settled => e.denies_check (fun state => ?_) fun _ => e.denies_none
    · cases state : (e.st.call i).state <;> simp_all
    · cases state : (e.st.call i).state <;> simp_all

theorem Event.ownCancel_denies (h : firstRefusal (orderChecks e.st p b .cancelK) = some code) :
    e.ownCancel p = e.deny code := by
  simp only [orderChecks, speakingIs] at h
  unfold Event.ownCancel
  refine e.denies_check (fun isOpen => ?_) (fun isOpen => e.denies_check (fun call => ?_) fun call => ?_) h
  · simp [isOpen]
  · simp_all
  · obtain ⟨i, call⟩ := Option.isSome_iff_exists.mp call
    refine e.denies_check (fun state => ?_) fun _ => e.denies_none
    cases state : (e.st.call i).state <;> simp_all

/-- The partition a SET_NIGHT names is enabled. -/
theorem State.enabled_any (t : State) (n : Byte) :
    ((List.finRange 4).any fun q => n.toNat == q.val && (t.part q).enabled) =
      (partitionOf n).any fun q => (t.part q).enabled := by
  rw [Bool.eq_iff_iff, List.any_eq_true]
  simp only [Bool.and_eq_true, beq_iff_eq]
  unfold partitionOf
  by_cases named : n.toNat < 4
  · rw [dif_pos named]
    exact ⟨fun ⟨q, _, same, on⟩ => (Fin.ext same : (⟨n.toNat, named⟩ : Part) = q) ▸ on,
      fun on => ⟨⟨n.toNat, named⟩, List.mem_finRange _, rfl, on⟩⟩
  · rw [dif_neg named]
    exact ⟨fun ⟨q, _, same, _⟩ => absurd (same ▸ q.isLt) named, nofun⟩

theorem Event.ownSetNight_denies (h : firstRefusal (orderChecks e.st p b .setNightK) = some code) :
    e.ownSetNight (some p) (b 0) (b 1) = e.deny code := by
  simp only [orderChecks, State.enabled_any] at h
  unfold Event.ownSetNight
  refine e.denies_check (fun authority => ?_) (fun authority => e.denies_check (fun off => ?_) fun _ => e.denies_none) h
  · simp_all [State.hasAuthority]
  · cases named : partitionOf (b 0) <;> simp_all [State.hasAuthority]

theorem Event.ownApply_denies (serving : e.st.engine = .serving)
    (h : firstRefusal (orderChecks e.st p b .applyPlanK) = some code) (c : CellIx) :
    e.ownApply (some p) c = e.deny code := by
  unfold Event.ownApply
  exact e.denies_check (fun authority => by simp_all [State.hasAuthority]) (fun _ => e.denies_none) h

/-- The ring-limit mark of the speaking loop's call is cleared. -/
def Event.unmarked (e : Event) (p : Pos) : Event :=
  match (e.st.pos p).speakingCall with
  | some i => e.updCall i fun c => { c with ringLimit := false }
  | none => e

/-- The checks that an EXTEND makes of the number it names, found in a state with the same directory and lamps. -/
theorem State.extendTarget_denies {t u : State} {c : Call} {n : Word} (lookup : u.lookup n = t.lookup n)
    (lamp : ∀ k, u.lamp k = t.lamp k)
    (h : firstRefusal [(decide (n.toNat ≤ 9999) && (t.lookup n).isSome, .noSuchNumber),
      (namedCircuit t n fun k => k != c.caller, .sameCircuit),
      (namedCircuit t n fun k => lineServes t k, .outOfService)] = some code) :
    u.extendTarget c n = .error code := by
  simp only [firstRefusal_cons, firstRefusal_nil, namedCircuit] at h
  unfold State.extendTarget
  rw [lookup]
  by_cases large : 9999 < n.toNat
  · have outside : ¬ n.toNat ≤ 9999 := Nat.not_le.mpr large
    simp_all
  · cases named : t.lookup n with
    | none => simp_all
    | some k =>
      have serves : lineServes t k = !decide (u.reach k = .outOfReach) := by
        unfold lineServes State.reach
        rw [lamp]
        cases (t.lamp k).line <;> (try cases u.isTarget k) <;> rfl
      by_cases own : k = c.caller
      · simp_all
      · by_cases out : u.reach k = .outOfReach <;> simp_all

theorem Event.ownExtend_denies (h : firstRefusal (orderChecks e.st p b .extendK) = some code) (mode : Byte) (c : CellIx)
    (order : Word) : e.ownExtend p (b 1 ++ b 0) mode c order = (e.unmarked p).deny code := by
  have own : e.ownExtend p (b 1 ++ b 0) mode c order =
      (if !(e.st.pos p).isOpen then (e.unmarked p).deny .notOpen
      else if (e.st.pos p).extend.isSome then (e.unmarked p).deny .inProgress
      else
        match (e.st.pos p).speakingCall with
        | none => (e.unmarked p).deny .noCall
        | some i =>
          if ((e.unmarked p).st.call i).state ≠ .talking then (e.unmarked p).deny .wrongState
          else
            match (e.unmarked p).st.extendTarget ((e.unmarked p).st.call i) (b 1 ++ b 0) with
            | .error code => (e.unmarked p).deny code
            | .ok k =>
              if mode = 0 then (e.unmarked p).screened p i { number := b 1 ++ b 0, circuit := k } c order
              else (e.unmarked p).direct p i { number := b 1 ++ b 0, circuit := k } c order) := rfl
  rw [own]
  simp only [orderChecks, speakingIs, firstRefusal_cons] at h
  cases isOpen : (e.st.pos p).isOpen with
  | false => simp_all
  | true =>
    cases extend : (e.st.pos p).extend with
    | some n => simp_all
    | none =>
      cases speaks : (e.st.pos p).speakingCall with
      | none => simp_all
      | some i =>
        have st : (e.unmarked p).st = e.st.setCall i { e.st.call i with ringLimit := false } := by
          unfold Event.unmarked
          rw [speaks]
          rfl
        have state : ((e.unmarked p).st.call i).state = (e.st.call i).state := by rw [st, State.call_setCall_self]
        have caller : ((e.unmarked p).st.call i).caller = (e.st.call i).caller := by rw [st, State.call_setCall_self]
        by_cases talking : (e.st.call i).state = .talking
        · have target : (e.unmarked p).st.extendTarget ((e.unmarked p).st.call i) (b 1 ++ b 0) = .error code :=
            State.extendTarget_denies (t := e.st) (by rw [st]; rfl) (fun k => by rw [st]; rfl) (by
              rw [caller]
              simpa [firstRefusal_cons, isOpen, extend, speaks, talking] using h)
          simp [target, state, talking]
        · simp_all

end Denies

/-! ### The refused order's step -/

theorem orderChecks_taken (s : State) (c : CellIx) (p : Pos) (b : Nat → Byte) (k : OrderKind) :
    orderChecks (s.taken c) p b k = orderChecks s p b k := by
  rw [State.taken_eq]
  cases k <;> rfl

section Refused

variable {s : State} {c : CellIx} {k : OrderKind} {p : Pos} {code : ResultCode}

/-- An order whose checks fail is denied by its owner. -/
theorem Takes.denied (h : Takes s c k p)
    (refused : firstRefusal (orderChecks s p (cellBody s.mem c) k) = some code) :
    (Event.taking s c).own c k =
      (if k = .extendK then (Event.taking s c).unmarked p else Event.taking s c).deny code := by
  rw [← orderChecks_taken s c] at refused
  rw [h.own_eq]
  cases k with
  | openK => exact Event.ownOpen_denies (e := Event.taking s c) refused
  | closeK => exact Event.ownClose_denies (e := Event.taking s c) refused
  | pauseK => exact Event.ownPause_denies (e := Event.taking s c) refused
  | answerK => exact Event.ownAnswer_denies (e := Event.taking s c) refused
  | pickK => exact Event.ownPick_denies (e := Event.taking s c) refused
  | holdK => exact Event.ownHold_denies (e := Event.taking s c) refused
  | retrieveK => exact Event.ownRetrieve_denies (e := Event.taking s c) refused
  | disconnectK => exact Event.ownDisconnect_denies (e := Event.taking s c) refused
  | extendK => exact Event.ownExtend_denies (e := Event.taking s c) refused _ _ _
  | transferK => exact Event.ownTransfer_denies (e := Event.taking s c) refused
  | cancelK => exact Event.ownCancel_denies (e := Event.taking s c) refused
  | setNightK => exact Event.ownSetNight_denies (e := Event.taking s c) refused
  | applyPlanK =>
    exact Event.ownApply_denies (e := Event.taking s c) (by rw [Event.taking_st, State.taken_engine, h.serving]) refused c

/-- The event in which the mark has been cleared has changed nothing but calls. -/
theorem Event.unmarked_idle (s : State) (c : CellIx) (p : Pos) : ((Event.taking s c).unmarked p).Idle := by
  unfold Event.unmarked
  cases ((Event.taking s c).st.pos p).speakingCall with
  | none => exact Event.taking_idle s c
  | some i => exact (Event.taking_idle s c).updCall rfl

theorem Event.unmarked_st (s : State) (c : CellIx) (p : Pos) : ((Event.taking s c).unmarked p).st =
    match (s.pos p).speakingCall with
    | some i => (s.taken c).setCall i { (s.taken c).call i with ringLimit := false }
    | none => s.taken c := by
  unfold Event.unmarked
  rw [Event.taking_st, State.pos_taken]
  cases (s.pos p).speakingCall <;> rfl

/-- What the event in which the mark has been cleared leaves. -/
theorem Event.unmarked_leaves (s : State) (c : CellIx) (p : Pos) (code : ResultCode) :
    (∀ i, (((((Event.taking s c).unmarked p).replied c code).finish).call i).bare =
      if (s.pos p).speakingCall = some i then { (s.call i).bare with ringLimit := false } else (s.call i).bare) ∧
    let t := (((Event.taking s c).unmarked p).replied c code).finish
    t.positions = s.positions ∧ t.parts = s.parts ∧ t.links = s.links ∧ t.rings = s.rings ∧ t.free = s.free ∧
      ∀ j, (t.lamp j).bare = (s.lamp j).bare := by
  have idle := (Event.unmarked_idle s c p).replied c code
  obtain ⟨positions, parts, links, rings, free, lamps, -⟩ := idle.leaves (s := s) (by
    rw [Event.replied_st, Event.unmarked_st]
    cases (s.pos p).speakingCall <;> (rw [State.taken_eq]; rfl))
  refine ⟨fun i => ?_, positions, parts, links, rings, free, lamps⟩
  rw [idle.finish_eq, Event.call_commit, Event.replied_st, State.call_answer, Event.unmarked_st]
  cases (s.pos p).speakingCall with
  | none => rw [State.call_taken, if_neg nofun]
  | some j =>
    obtain rfl | ne := eq_or_ne j i
    · rw [State.call_setCall_self, State.call_taken, if_pos rfl]
      rfl
    · rw [State.call_setCall_ne _ _ ne, State.call_taken, if_neg fun same => ne (Option.some.inj same)]

/-- An order in the name of no position has no authority (R82, R118). -/
theorem NextOrder.nobody (h : NextOrder s c k) (length : cellLength s.mem c = k.bodyLength)
    (place : cellPosition s.mem c = 15) (kind : k = .setNightK ∨ k = .applyPlanK) (serving : s.engine = .serving) :
    exec (orderCommand k) s = .next ((Event.taking s c).replied c .noAuthority).finish := by
  obtain ⟨takenKind, takenLength, takenPlace, -, -⟩ := s.taken_form c h.wf h.next
  have form : (s.taken c).formRefusal c k = none := by
    have accepts : k.accepts (cellPosition (s.taken c).mem c) = true := by
      have same : cellPosition (s.taken c).mem c = 15 := takenPlace.trans place
      rw [same]
      rcases kind with rfl | rfl <;> rfl
    have same : cellLength (s.taken c).mem c = k.bodyLength := takenLength.trans length
    unfold State.formRefusal
    rw [same, accepts, State.taken_engine, serving]
    simp
  have nobody : positionOf (cellPosition (s.taken c).mem c) = none := by
    have same : cellPosition (s.taken c).mem c = 15 := takenPlace.trans place
    rw [same]
    rfl
  have own : (Event.taking s c).own c k = (Event.taking s c).deny .noAuthority := by
    unfold Event.own
    dsimp only
    rw [Event.taking_st, nobody]
    rcases kind with rfl | rfl
    · rfl
    · simp [Event.ownApply, serving, State.hasAuthority]
  have order : (Event.taking s c).order c = (Event.taking s c).replied c .noAuthority := by
    have kindOf : cellKind (s.taken c).mem c = some k := takenKind.trans h.kind
    unfold Event.order
    rw [Event.taking_st, kindOf]
    dsimp only
    rw [form, own]
    rfl
  rw [h.exec_eq]
  exact congrArg (fun e => Host.Outcome.next e.finish) order

end Refused

/-- Settles O17. -/
theorem refusedOrdersChangeNothing : Obligations.RefusedOrdersChangeNothing := by
  refine ⟨fun s c k p code takes refused => ?_, fun s c k next length place kind serving => ?_⟩
  · have own := takes.denied refused
    by_cases extend : k = .extendK
    · rw [if_pos extend] at own
      obtain ⟨run, finished⟩ := takes.replies own (takes.awaits.of_eq (by
        rw [Event.unmarked_st]; cases (s.pos p).speakingCall <;> rfl) (by
        rw [Event.unmarked_st]; cases (s.pos p).speakingCall <;> rfl) fun q => by
        rw [Event.unmarked_st]; cases (s.pos p).speakingCall <;> rfl)
      exact ⟨_, run, finished, fun ne => absurd extend ne, fun _ => Event.unmarked_leaves s c p code⟩
    · rw [if_neg extend] at own
      obtain ⟨run, finished⟩ := takes.replies own takes.awaits
      exact ⟨_, run, finished, fun _ => Event.taking_untouched s c code, fun is => absurd is extend⟩
  · exact ⟨_, next.nobody length place kind serving,
      Event.settleOrder_finished (e := Event.taking s c) next.awaits.wf next.awaits.now next.awaits.apart,
      Event.taking_untouched s c _⟩

end Sys2Proof.Machine
end

section
/-! SUPPORT. The closing of a call on a loop, with and without its orders (R15 to R19, R70, R77); and O26. -/

namespace Sys2Proof.Machine

/-! ### A call on a loop that closes (R15, R70) -/

/-- The call has left its loop and closes; its orders have not been issued. -/
def State.hungUp (t : State) (i : Slot) (p : Pos) (l : LoopIx) (why : EndReason) : State :=
  (t.unlooped p l).setCall i { (t.call i).enter .closing t.seconds with endReason := some why }

/-- The closing call has been freed (R19). -/
def State.freed (t : State) (i : Slot) : State :=
  (t.setCall i ((t.call i).enter .free t.seconds)).setFree (t.free ++ [i])

section HungUp

variable (t : State) (i : Slot) (p : Pos) (l : LoopIx) (why : EndReason)

theorem State.call_hungUp_self :
    (t.hungUp i p l why).call i = { (t.call i).enter .closing t.seconds with endReason := some why } :=
  State.call_setCall_self ..

theorem State.call_hungUp_ne {j : Slot} (hj : i ≠ j) : (t.hungUp i p l why).call j = t.call j :=
  State.call_setCall_ne _ _ hj

theorem State.pos_hungUp_self : (t.hungUp i p l why).pos p = (t.pos p).without l := State.pos_setPos_self ..

theorem State.pos_hungUp_ne {x : Pos} (hx : p ≠ x) : (t.hungUp i p l why).pos x = t.pos x := State.pos_setPos_ne _ _ hx

theorem State.extendCell_hungUp (x : Pos) : ((t.hungUp i p l why).pos x).extendCell = (t.pos x).extendCell := by
  obtain rfl | hx := eq_or_ne p x
  · rw [State.pos_hungUp_self]
    rfl
  · rw [State.pos_hungUp_ne _ _ _ _ _ hx]

@[simp] theorem State.prt_hungUp (q : Part) : (t.hungUp i p l why).prt q = t.prt q := rfl
@[simp] theorem State.lamp_hungUp (k : Circuit) : (t.hungUp i p l why).lamp k = t.lamp k := rfl
@[simp] theorem State.link_hungUp (m : LinkIx) : (t.hungUp i p l why).link m = t.link m := rfl
@[simp] theorem State.shelfOf_hungUp (k : Circuit) : (t.hungUp i p l why).shelfOf k = t.shelfOf k := rfl
@[simp] theorem State.hungUp_free : (t.hungUp i p l why).free = t.free := rfl
@[simp] theorem State.hungUp_rings : (t.hungUp i p l why).rings = t.rings := rfl
@[simp] theorem State.hungUp_seconds : (t.hungUp i p l why).seconds = t.seconds := rfl
@[simp] theorem State.hungUp_mem : (t.hungUp i p l why).mem = t.mem := rfl

theorem State.call_freed_self : (t.freed i).call i = (t.call i).enter .free t.seconds := State.call_setCall_self ..
theorem State.call_freed_ne {j : Slot} (hj : i ≠ j) : (t.freed i).call j = t.call j := State.call_setCall_ne _ _ hj
@[simp] theorem State.pos_freed (x : Pos) : (t.freed i).pos x = t.pos x := rfl
@[simp] theorem State.prt_freed (q : Part) : (t.freed i).prt q = t.prt q := rfl
@[simp] theorem State.lamp_freed (k : Circuit) : (t.freed i).lamp k = t.lamp k := rfl
@[simp] theorem State.link_freed (m : LinkIx) : (t.freed i).link m = t.link m := rfl
@[simp] theorem State.freed_free : (t.freed i).free = t.free ++ [i] := rfl
@[simp] theorem State.freed_rings : (t.freed i).rings = t.rings := rfl
@[simp] theorem State.freed_seconds : (t.freed i).seconds = t.seconds := rfl
@[simp] theorem State.freed_mem : (t.freed i).mem = t.mem := rfl

end HungUp

section Close

variable {e : Event} {i : Slot} {p : Pos} {l : LoopIx} {why : EndReason}

/-- The teardown and the DROP of a closing call (R16, R17). -/
def State.endOrders (t : State) (i : Slot) (why : EndReason) : List ShelfOrder :=
  teardown t (t.call i) ++ if why.drops then [.drop (t.call i).caller] else []

/-- A call on a loop closes: it is taken off its loop, and its orders are issued as teardown orders. -/
theorem Event.close_onLoop (on : loopState (e.st.call i).state) (position : (e.st.call i).position = some p)
    (loop : (e.st.call i).loop = some l) (here : (e.st.pos p).loops.get l = some i)
    (noOrder : (e.st.call i).extend = none) (tears : why.tearsDown = true) (congestion : why ≠ .congestion) :
    ∃ f, e.close i why false = (f.issueTeardown i (e.st.endOrders i why)).freeIfDone i ∧
      f.st = e.st.hungUp i p l why ∧ e.Only f := by
  have live : ¬ (e.st.call i).ended := by
    rcases on with on | on | on | on <;> (unfold Call.ended; rw [on]; simp)
  have taken : e.taken i why = { e with st := e.st.unlooped p l } := by
    unfold Event.taken
    rw [Event.removeCall_loop on, Event.leaveLoop_eq position loop here]
    exact Event.answerExtendOf_none noOrder
  have shut := Event.shut_eq (e := { e with st := e.st.unlooped p l }) (i := i) (why := why) fun h => live (.inr h)
  refine ⟨(e.taken i why).shut i why, Event.close_orders live tears congestion, ?_⟩
  rw [taken, shut]
  exact ⟨rfl, rfl, rfl, rfl, rfl⟩

/-- The order would not be issued as a teardown order: its shelf is LOST or ABSENT, or its queue refuses it (R16, R130). -/
def State.drops (t : State) (o : ShelfOrder) : Prop :=
  (t.shelfOf o.first).state = .lost ∨ (t.shelfOf o.first).state = .absent ∨ fullLink t o.first

/-- Teardown orders that are not issued count as done. -/
theorem Event.issueTeardown_drops {os : List ShelfOrder} (h : ∀ o ∈ os, e.st.drops o) :
    (e.issueTeardown i os).st = e.st ∧ e.Only (e.issueTeardown i os) := by
  induction os generalizing e with
  | nil => exact ⟨rfl, .refl e⟩
  | cons o os ih =>
    have step : e.issueAs .teardown (some i) o false = e.note (some i) o := by
      unfold Event.issueAs
      dsimp only
      have shelf : (e.note (some i) o).st = e.st := rfl
      rw [shelf]
      rcases h o List.mem_cons_self with lost | absent | ⟨running, full⟩
      · rw [if_pos ⟨nofun, .inl lost⟩]
      · rw [if_pos ⟨nofun, .inr absent⟩]
      · split
        · rfl
        · rw [if_neg (by rw [running]; decide), if_neg (by unfold Config.queueMax; omega)]
          rfl
    obtain ⟨st, only⟩ := ih (e := e.note (some i) o) fun o' ho' => h o' (List.mem_cons_of_mem _ ho')
    have fold : e.issueTeardown i (o :: os) = (e.note (some i) o).issueTeardown i os :=
      congrArg (fun f : Event => f.issueTeardown i os) step
    rw [fold]
    exact ⟨st, only.start, only.refusals, only.serve, only.keepIdle⟩

/-- Teardown orders with room, to shelves that take them. -/
theorem Event.issueTeardown_sends {os : List ShelfOrder} (room : e.st.room os) (reach : reachable e.st os) :
    (e.issueTeardown i os).st = e.st.sendAll i os ∧ e.Only (e.issueTeardown i os) := by
  unfold Event.issueTeardown
  rw [Event.issueAll_send _ _ room fun o ho => .inr (reach o ho)]
  exact ⟨rfl, rfl, rfl, rfl, rfl⟩

/-- A closing call without a target is freed when nothing is pending. -/
theorem Event.freeIfDone_frees (refusals : e.refusals = []) (closing : (e.st.call i).state = .closing)
    (done : (e.st.call i).pending = 0) (target : (e.st.call i).target = none) :
    (e.freeIfDone i).st = e.st.freed i ∧ e.Only (e.freeIfDone i) := by
  have quiet : e.letGo (e.st.call i) = e := by
    unfold Event.letGo
    rw [target]
  unfold Event.freeIfDone Event.freeSlot
  dsimp only
  rw [refusals, quiet, if_neg (by simp), if_pos ⟨closing, done⟩]
  exact ⟨rfl, rfl, rfl, rfl, rfl⟩

end Close

/-! ### DISCONNECT (R77) -/

section Disconnect

variable {e : Event} {p : Pos} {i : Slot} {l : LoopIx} {h k : Circuit}

/-- The checks of DISCONNECT are passed. -/
theorem Event.ownDisconnect_passes (hp : Speaking e.st p i l h) (noExtend : (e.st.pos p).extend = none) :
    e.ownDisconnect p = (e.close i .attendantDisconnect false).grant := by
  unfold Event.ownDisconnect
  simp [hp.isOpen, noExtend, hp.speakingCall]

/-- The orders of a DISCONNECT by the state of the call. -/
theorem endOrders_disconnect {t : State} (hp : Speaking t p i l h) (noOrder : (t.call i).extend = none)
    (state : (t.call i).state = .talking ∨
      (((t.call i).state = .consultRinging ∨ (t.call i).state = .consultTalking) ∧
        ∃ n, (t.call i).target = some { number := n, circuit := k })) :
    t.endOrders i .attendantDisconnect = disconnectOrders (t.call i) h k := by
  have headset : t.headsetOf (t.call i) = some h := by
    unfold State.headsetOf
    rw [hp.position]
    exact hp.headset
  unfold State.endOrders teardown disconnectOrders headsetTarget withTarget withHeadset EndReason.drops
  rcases state with talking | ⟨ringing | consulting, n, target⟩
  · simp [talking, noOrder, headset]
  · simp [ringing, headset, target]
  · simp [consulting, headset, target]

theorem DisconnectReady.closes {s : State} {c : CellIx} (r : DisconnectReady s c p i l h k) :
    ∃ f, (Event.taking s c).ownDisconnect p =
        (((f.issueTeardown i (disconnectOrders (s.call i) h k)).freeIfDone i), some (.ok, 0)) ∧
      f.st = (s.taken c).hungUp i p l .attendantDisconnect ∧ (Event.taking s c).Only f := by
  have speaks : Speaking (Event.taking s c).st p i l h := r.toSpeaking.taken c
  have on : loopState (s.call i).state := by
    rcases r.state with h | ⟨h | h, -⟩
    · exact .inl h
    · exact .inr (.inr (.inl h))
    · exact .inr (.inr (.inr h))
  obtain ⟨f, closed, st, only⟩ := Event.close_onLoop (e := Event.taking s c) (i := i) (why := .attendantDisconnect)
    (by simpa using on) speaks.position speaks.callLoop speaks.loop (by simpa using r.noOrder) rfl nofun
  have orders : (s.taken c).endOrders i .attendantDisconnect = disconnectOrders ((s.taken c).call i) h k :=
    endOrders_disconnect speaks (by simpa using r.noOrder) (by simpa using r.state)
  rw [State.call_taken] at orders
  refine ⟨f, ?_, st, only⟩
  rw [Event.ownDisconnect_passes speaks (by simpa using r.noExtend), closed, Event.taking_st, orders]
  rfl

/-- What is left of the speaking loop. -/
theorem Quiet.offLoop {s w t : State} (quiet : Quiet w t) (panel : w.pos p = (s.pos p).without l)
    (call : (t.call i).position = none ∧ (t.call i).loop = none ∧ (t.call i).origin = (s.call i).origin)
    (speaking : (s.pos p).speaking = some l) : offLoop s t p i l := by
  have bare : (t.pos p).bare = ((s.pos p).without l).bare := by rw [quiet.pos, panel]
  obtain ⟨position, loop, origin⟩ := call
  obtain ⟨loops, flash, others⟩ := Position.without_loops bare
  refine ⟨position, loop, origin, ?_, loops, flash, others⟩
  have silent : (t.pos p).speaking = if (s.pos p).speaking = some l then none else (s.pos p).speaking :=
    congrArg Position.speaking bare
  rw [silent, if_pos speaking]

end Disconnect

/-- The record of a call that has closed from a loop. -/
theorem Call.bare_closing {c : Call} {why : EndReason} (now : Seconds) :
    ({ c.enter .closing now with endReason := some why } : Call).bare =
      { onLoop c .closing now with
        endReason := some why, position := none, loop := none, announcer := c.announcer } := by
  have ringing : keepsRinging c.state .closing = false := by
    unfold keepsRinging
    cases c.state <;> rfl
  unfold onLoop Call.bare Call.enter
  rw [ringing]
  rfl

/-- Settles O26. -/
theorem disconnectClosesTheSpeakingCall : Obligations.DisconnectClosesTheSpeakingCall := by
  refine ⟨fun s c p i l h k r room reach => ?_, fun s c p i l h k r talking target pending dark => ?_⟩
  · obtain ⟨f, own, st, only⟩ := r.closes
    have roomF : f.st.room (disconnectOrders (s.call i) h k) := fun o ho => by
      rw [st, State.link_hungUp, State.link_taken]
      exact room o ho
    have reachF : reachable f.st (disconnectOrders (s.call i) h k) := fun o ho => by
      rw [st, State.shelfOf_hungUp, State.shelfOf_taken]
      exact reach o ho
    obtain ⟨sent, onlySent⟩ := Event.issueTeardown_sends (i := i) roomF reachF
    have some_order : 0 < (disconnectOrders (s.call i) h k).length := by
      unfold disconnectOrders
      rcases r.state with state | ⟨state | state, -⟩ <;> simp [state]
    have plain : ∀ o ∈ disconnectOrders (s.call i) h k, o.isRing = false := by
      unfold disconnectOrders
      rcases r.state with state | ⟨state | state, -⟩ <;> simp [state, ShelfOrder.isRing]
    generalize disconnectOrders (s.call i) h k = os at own sent onlySent some_order plain ⊢
    rw [Event.freeIfDone_pending (by rw [sent, State.call_sendAll, if_pos rfl]; dsimp only; omega)] at own
    obtain ⟨t, run, finished, settled⟩ := r.settles (w := ((s.taken c).hungUp i p l .attendantDisconnect).sendAll i os)
      (r.own_eq.trans own) ((only.trans onlySent).leaves (by rw [sent, st])) (by
      refine r.awaits.of_eq (by simp) (by simp) fun q => ?_
      rw [State.pos_sendAll, State.extendCell_hungUp])
    have quiet := settled.quiet
    have call : ((((s.taken c).hungUp i p l .attendantDisconnect).sendAll i os).answer c .ok 0).call i =
        { (s.call i).enter .closing s.seconds with
          endReason := some .attendantDisconnect, pending := (s.call i).pending + os.length } := by
      rw [State.call_answer, State.call_sendAll, if_pos rfl, State.call_hungUp_self, State.call_taken,
        State.taken_seconds]
      rfl
    have bare : (t.call i).bare = _ := (quiet.call i (by rw [call]; exact nofun)).trans (congrArg Call.bare call)
    have closed : (t.call i).bare =
        { onLoop (s.call i) .closing s.seconds with
          endReason := some .attendantDisconnect, position := none, loop := none,
          announcer := (s.call i).announcer, pending := (s.call i).pending + os.length } :=
      bare.trans (congrArg (fun x : Call => { x with pending := (s.call i).pending + os.length })
        (Call.bare_closing s.seconds))
    refine ⟨t, run, finished, closed, quiet.offLoop ?_ ⟨?_, ?_, ?_⟩ r.speaking, quiet.issued plain (fun m => ?_) ?_ ?_, ?_⟩
    · rw [State.pos_answer, State.pos_sendAll, State.pos_hungUp_self, State.pos_taken]
    · exact congrArg Call.position closed
    · exact congrArg Call.loop closed
    · exact (congrArg Call.origin closed :)
    · rw [State.link_answer, State.link_sendAll, State.link_hungUp, State.link_taken]
    · rw [call]
    · rw [State.answer_rings, State.rings_sendAll _ _ _ plain, State.hungUp_rings, State.taken_rings]
    · exact quiet.aside
        (fun j hj => by simp [State.call_sendAll, State.call_hungUp_ne _ _ _ _ _ (Ne.symm hj), if_neg (Ne.symm hj)])
        (fun x hx => by simp [State.pos_hungUp_ne _ _ _ _ _ (Ne.symm hx)]) (fun q _ => by simp) (fun m => by simp)
        (by simp)
  · obtain ⟨f, own, st, only⟩ := r.closes
    have orders : disconnectOrders (s.call i) h k = [.part (s.call i).caller h, .drop (s.call i).caller] := by
      unfold disconnectOrders
      rw [talking]
    have dropped : ∀ o ∈ disconnectOrders (s.call i) h k, f.st.drops o := by
      have shelf : f.st.shelfOf (s.call i).caller = s.shelfOf (s.call i).caller := by
        rw [st, State.shelfOf_hungUp, State.shelfOf_taken]
      have lost : (f.st.shelfOf (s.call i).caller).state = .lost ∨ (f.st.shelfOf (s.call i).caller).state = .absent ∨
          fullLink f.st (s.call i).caller := by
        rw [shelf]
        exact dark.imp_right .inl
      rw [orders]
      intro o ho
      simp only [List.mem_cons, List.not_mem_nil, or_false] at ho
      rcases ho with rfl | rfl <;> exact lost
    obtain ⟨sent, onlySent⟩ := Event.issueTeardown_drops (i := i) dropped
    generalize disconnectOrders (s.call i) h k = os at own sent onlySent
    have hung : (f.issueTeardown i os).st.call i = { (s.call i).enter .closing s.seconds with
        endReason := some .attendantDisconnect } := by
      rw [sent, st, State.call_hungUp_self, State.call_taken, State.taken_seconds]
    obtain ⟨freed, onlyFreed⟩ := Event.freeIfDone_frees (e := f.issueTeardown i os) (i := i)
      (onlySent.refusals.trans only.refusals) (by rw [hung]; rfl) (by rw [hung]; exact pending)
      (by rw [hung]; exact target)
    rw [sent, st] at freed
    obtain ⟨t, run, finished, settled⟩ := r.settles (w := ((s.taken c).hungUp i p l .attendantDisconnect).freed i)
      (r.own_eq.trans own) (((only.trans onlySent).trans onlyFreed).leaves freed) (by
      refine r.awaits.of_eq (by simp) (by simp) fun q => ?_
      rw [State.pos_freed, State.extendCell_hungUp])
    have quiet := settled.quiet
    have call : ((((s.taken c).hungUp i p l .attendantDisconnect).freed i).answer c .ok 0).call i = _ :=
      (State.call_answer ..).trans (State.call_freed_self ..)
    have bare := quiet.call i (by rw [call]; exact nofun)
    rw [call, State.call_hungUp_self, State.call_taken, State.hungUp_seconds, State.taken_seconds] at bare
    refine ⟨t, run, finished, ?_, ?_, ?_, ?_, quiet.offLoop ?_ ⟨?_, ?_, ?_⟩ r.speaking, quiet.silent ?_ ?_⟩
    · exact congrArg Call.state bare
    · exact congrArg Call.endReason bare
    · exact (congrArg Call.identity bare :)
    · exact quiet.free.trans (by simp)
    · rw [State.pos_answer, State.pos_freed, State.pos_hungUp_self, State.pos_taken]
    · exact congrArg Call.position bare
    · exact congrArg Call.loop bare
    · exact (congrArg Call.origin bare :)
    · simp
    · simp

end Sys2Proof.Machine
end

section
/-! SUPPORT. The end of an order's event whose owner has done more than change its own records; and the withdrawal of an
offer (R34, R42). -/

namespace Sys2Proof.Machine

theorem Position.busy_speaking {q : Position} {l : LoopIx} (h : q.speaking = some l) : q.available = false :=
  Bool.eq_false_iff.mpr fun avail => by
    obtain ⟨-, -, -, silent, -⟩ := Position.available_iff.mp avail
    exact absurd (h.symm.trans silent) nofun

theorem Position.busy_paused {q : Position} {x : PauseCause} (h : q.pause = some x) : q.available = false :=
  Bool.eq_false_iff.mpr fun avail => by
    obtain ⟨-, working, -, -, -⟩ := Position.available_iff.mp avail
    exact absurd (h.symm.trans working) nofun

/-! ### The end of the event -/

/-- From state `w` an event has ended quietly. -/
structure Ended (w t : State) : Prop where
  quiet : Quiet w t
  stale : ∀ x, (w.pos x).available = false →
    (t.pos x).offered = (w.pos x).offered ∧ (t.pos x).idleSince = (w.pos x).idleSince
  call : ∀ i, (∃ y, (t.call i).bare = { (w.call i).bare with estimate := y }) ∨
    (w.call i).state = .queued ∧ ∃ x, (w.pos x).available = true ∧ (t.call i).bare = (w.offering i x).bare
  rests : ∀ i, (w.call i).rests → (t.call i).rests

/-- A position that is not available gets no offer. -/
theorem Event.finish_unasked {e : Event} (hr : e.refusals = []) (hs : ∀ k ∈ e.serve, unserved e.st k) {x : Pos}
    (stale : (e.st.pos x).available = false) : (e.finish.pos x).offered = (e.st.pos x).offered := by
  obtain ⟨dealt, revised, -⟩ := Event.finish_ends hr hs
  rw [revised.offered, dealt.apart x (by rw [stale]; decide), e.testPositions_tested.panel]

/-- The step that takes an order whose owner answers it at once and has left its event in state `w`. -/
theorem Takes.ends {s w : State} {c : CellIx} {k : OrderKind} {p : Pos} {f : Event} {code : ResultCode}
    (h : Takes s c k p) (own : (Event.taking s c).own c k = (f, some (code, 0))) (st : f.st = w)
    (refusals : f.refusals = []) (serve : ∀ k ∈ f.serve, unserved w k) (awaits : w.awaits c) :
    exec (orderCommand k) s = .next (f.replied c code).finish ∧ (f.replied c code).finish.finished c code 0 ∧
      Ended (w.answer c code 0) (f.replied c code).finish := by
  subst st
  obtain ⟨run, finished⟩ := h.replies own awaits
  refine ⟨run, finished, ⟨(Event.finish_quietEnd (e := f.replied c code) refusals serve).quiet, fun x stale => ?_,
    fun i => Event.finish_call (e := f.replied c code) refusals serve i,
    fun _ h => Event.finish_rests (e := f.replied c code) refusals serve h⟩⟩
  refine ⟨Event.finish_unasked (e := f.replied c code) refusals serve stale,
    Event.finish_idles (e := f.replied c code) refusals serve ?_⟩
  unfold Event.freed
  rw [Event.replied_st, stale]
  rfl

/-! ### States that differ in panels only -/

/-- The states show the same of all that an offer's withdrawal looks at but panels. -/
structure Mirrors (s u : State) : Prop where
  call : ∀ i, u.call i = s.call i
  prt : ∀ q, u.prt q = s.prt q
  lamp : ∀ k, u.lamp k = s.lamp k
  link : ∀ l, u.link l = s.link l
  plan : u.plan = s.plan
  free : u.free = s.free
  rings : u.rings = s.rings
  seconds : u.seconds = s.seconds

theorem State.taken_mirrors (s : State) (c : CellIx) : Mirrors s (s.taken c) :=
  ⟨s.call_taken c, s.prt_taken c, s.lamp_taken c, s.link_taken c, s.taken_plan c, s.taken_free c, s.taken_rings c,
    s.taken_seconds c⟩

section Mirrors

variable {s u t : State} {i : Slot} {p : Pos} {q : Part}

theorem Mirrors.setPos (m : Mirrors s u) (x : Position) : Mirrors s (u.setPos p x) :=
  ⟨m.call, m.prt, m.lamp, m.link, m.plan, m.free, m.rings, m.seconds⟩

theorem Mirrors.part (m : Mirrors s u) (q : Part) : u.part q = s.part q := by
  unfold State.part
  rw [m.plan]

theorem Mirrors.room (m : Mirrors s u) {os : List ShelfOrder} : u.room os ↔ s.room os := by
  unfold State.room
  simp only [m.link]

theorem Mirrors.overflowOrders (m : Mirrors s u) : overflowOrders u i q = overflowOrders s i q := by
  unfold Machine.overflowOrders
  rw [m.part, m.call]

theorem Mirrors.overflowParts (m : Mirrors s u) {r : Part} : overflowParts u q r ↔ overflowParts s q r := by
  unfold Machine.overflowParts
  rw [m.part]

theorem Mirrors.overflowCalls (m : Mirrors s u) {x : Slot} : overflowCalls u i q x ↔ overflowCalls s i q x := by
  unfold Machine.overflowCalls
  simp only [m.overflowParts, m.prt]

theorem Mirrors.announces (m : Mirrors s u) {a : Circuit} : announces u q a ↔ announces s q a := by
  unfold Machine.announces lineServes
  rw [m.part, m.lamp]

theorem Mirrors.roomForNew (m : Mirrors s u) (h : RoomForNew s q i) : RoomForNew u q i :=
  h.transfer (m.prt q) (m.part q) fun j => by rw [m.call]

theorem Mirrors.offeredTo (m : Mirrors s u) (offer : (u.pos p).offered = (s.pos p).offered) (h : OfferedTo s i p) :
    OfferedTo u i p := by
  obtain ⟨state, target, position, offered⟩ := h
  exact ⟨by rw [m.call]; exact state, by rw [m.call]; exact target, by rw [m.call]; exact position,
    offer.trans offered⟩

theorem Mirrors.heldOffer (m : Mirrors s u) (offer : (u.pos p).offered = (s.pos p).offered) (h : HeldOffer s i p q) :
    HeldOffer u i p q where
  toOfferedTo := m.offeredTo offer h.toOfferedTo
  partition := by rw [m.call]; exact h.partition
  member := by rw [m.prt]; exact h.member
  once := by rw [m.prt]; exact h.once
  held := by rw [m.call]; exact h.held
  into := fun r hr => by
    rw [m.part] at hr
    obtain ⟨ne, enabled, room⟩ := h.into r hr
    exact ⟨ne, by rw [m.part]; exact enabled, m.roomForNew room⟩
  announcer := fun hf => by
    rw [m.part] at hf
    obtain ⟨a, ha⟩ := h.announcer hf
    exact ⟨a, m.announces.mpr ha⟩

theorem Mirrors.overflowed (m : Mirrors s u) (h : Overflowed u t i q) : Overflowed s t i q where
  kept := by rw [← m.call]; exact h.kept
  pending := by rw [← m.call, ← m.overflowOrders]; exact h.pending
  into := fun r hr => by
    rw [← m.part] at hr
    exact (h.into r hr).transfer (by rw [m.prt]) (m.part r) m.seconds
  announced := fun a hf ha => by
    rw [← m.part] at hf
    have := h.announced a hf (m.announces.mpr ha)
    unfold announceTimer at this ⊢
    rw [m.call, m.seconds, m.part] at this
    exact this

theorem Mirrors.leftRoster (m : Mirrors s u) (h : leftRoster u t q i) : leftRoster s t q i :=
  h.transfer (m.prt q) (m.part q)

end Mirrors

/-! ### The withdrawn call is back in its place (R42) -/

/-- The offer has been withdrawn and the call is QUEUED again. -/
def State.withdrawn (u : State) (j : Slot) (p : Pos) : State :=
  (u.setPos p { u.pos p with offered := none }).setCall j ((u.call j).returned u.seconds)

section Withdrawn

variable (u : State) (j : Slot) (p : Pos)

theorem State.call_withdrawn_self : (u.withdrawn j p).call j = (u.call j).returned u.seconds := State.call_setCall_self ..

theorem State.call_withdrawn_ne {i : Slot} (h : j ≠ i) : (u.withdrawn j p).call i = u.call i := State.call_setCall_ne _ _ h

theorem State.pos_withdrawn_self : (u.withdrawn j p).pos p = { u.pos p with offered := none } := State.pos_setPos_self ..

theorem State.pos_withdrawn_ne {x : Pos} (h : p ≠ x) : (u.withdrawn j p).pos x = u.pos x := State.pos_setPos_ne _ _ h

@[simp] theorem State.prt_withdrawn (q : Part) : (u.withdrawn j p).prt q = u.prt q := rfl
@[simp] theorem State.part_withdrawn (q : Part) : (u.withdrawn j p).part q = u.part q := rfl
@[simp] theorem State.lamp_withdrawn (k : Circuit) : (u.withdrawn j p).lamp k = u.lamp k := rfl
@[simp] theorem State.link_withdrawn (l : LinkIx) : (u.withdrawn j p).link l = u.link l := rfl
@[simp] theorem State.withdrawn_free : (u.withdrawn j p).free = u.free := rfl
@[simp] theorem State.withdrawn_rings : (u.withdrawn j p).rings = u.rings := rfl
@[simp] theorem State.withdrawn_plan : (u.withdrawn j p).plan = u.plan := rfl
@[simp] theorem State.withdrawn_seconds : (u.withdrawn j p).seconds = u.seconds := rfl

theorem State.cls_withdrawn (i : Slot) : ((u.withdrawn j p).call i).cls = (u.call i).cls := by
  obtain rfl | h := eq_or_ne j i
  · rw [State.call_withdrawn_self]
    rfl
  · rw [State.call_withdrawn_ne _ _ _ h]

end Withdrawn

section Withdraw

variable {e : Event} {j : Slot} {p : Pos} {q : Part}

theorem Event.withdraw_none (h : (e.st.pos p).offered = none) : e.withdraw p = e := by
  unfold Event.withdraw
  rw [h]

theorem Event.backToQueue_returns (live : (e.st.call j).state ≠ .free) (target : (e.st.call j).target = none) :
    (e.backToQueue j).st = e.st.setCall j ((e.st.call j).returned e.st.seconds) ∧ e.Only (e.backToQueue j) := by
  rw [Event.backToQueue_eq live target]
  exact ⟨rfl, rfl, rfl, rfl, rfl⟩

/-- The withdrawal of an offer: the call is back in its place, and from there its held expiry acts. -/
theorem Event.withdraw_eq (offer : (e.st.pos p).offered = some j) (live : (e.st.call j).state ≠ .free)
    (target : (e.st.call j).target = none) :
    ∃ f, e.withdraw p = (if (e.st.call j).expiryHeld then f.waitOver j else f) ∧ f.st = e.st.withdrawn j p ∧
      e.Only f := by
  obtain ⟨st, only⟩ := Event.backToQueue_returns (e := e.updPos p fun q => { q with offered := none }) (j := j)
    live target
  refine ⟨_, ?_, st, (e.updPos_only p _).trans only⟩
  unfold Event.withdraw
  rw [offer]
  rfl

theorem Event.withdraw_returns (offer : (e.st.pos p).offered = some j) (live : (e.st.call j).state ≠ .free)
    (target : (e.st.call j).target = none) (held : (e.st.call j).expiryHeld = false) :
    (e.withdraw p).st = e.st.withdrawn j p ∧ e.Only (e.withdraw p) := by
  obtain ⟨f, eq, st, only⟩ := Event.withdraw_eq offer live target
  rw [held, if_neg Bool.false_ne_true] at eq
  rw [eq]
  exact ⟨st, only⟩

/-- From state `u` the position's offer, if there was one, has been withdrawn, and its call waits in its place. -/
structure TakenBack (u w : State) (p : Pos) : Prop where
  panel : w.pos p = { u.pos p with offered := none }
  panels : ∀ x, p ≠ x → w.pos x = u.pos x
  calls : ∀ j, (u.pos p).offered ≠ some j → w.call j = u.call j
  back : ∀ j, (u.pos p).offered = some j → w.call j = (u.call j).returned u.seconds
  prt : ∀ q, w.prt q = u.prt q
  lamp : ∀ k, w.lamp k = u.lamp k
  link : ∀ l, w.link l = u.link l
  free : w.free = u.free
  rings : w.rings = u.rings
  seconds : w.seconds = u.seconds
  plan : w.plan = u.plan

/-- The position has no offer, or one of a call without a held expiry. -/
def State.quietOffer (u : State) (p : Pos) : Prop :=
  ∀ j, (u.pos p).offered = some j →
    (u.call j).state = .offered ∧ (u.call j).expiryHeld = false ∧ (u.call j).target = none

theorem Event.withdraw_takesBack (quiet : e.st.quietOffer p) :
    TakenBack e.st (e.withdraw p).st p ∧ e.Only (e.withdraw p) := by
  cases offer : (e.st.pos p).offered with
  | none =>
    rw [Event.withdraw_none offer]
    have none : ∀ j, (e.st.pos p).offered ≠ some j := fun j h => by rw [offer] at h; cases h
    exact ⟨⟨by rw [← offer], fun _ _ => rfl, fun _ _ => rfl, fun j h => absurd h (none j), fun _ => rfl, fun _ => rfl,
      fun _ => rfl, rfl, rfl, rfl, rfl⟩, .refl e⟩
  | some j =>
    obtain ⟨state, held, target⟩ := quiet j offer
    obtain ⟨st, only⟩ := Event.withdraw_returns offer (by rw [state]; decide) target held
    rw [st]
    refine ⟨⟨State.pos_withdrawn_self .., fun x hx => State.pos_withdrawn_ne _ _ _ hx, fun x hx => ?_, fun x hx => ?_,
      fun _ => rfl, fun _ => rfl, fun _ => rfl, rfl, rfl, rfl, rfl⟩, only⟩
    · exact State.call_withdrawn_ne _ _ _ fun h => hx (h ▸ offer)
    · cases offer.symm.trans hx
      exact State.call_withdrawn_self ..

end Withdraw

/-- Where the end of the event leaves a call whose offer has been withdrawn. -/
theorem Ended.again {w t : State} {j : Slot} {p : Pos} {c : Call} {now : Seconds} (h : Ended w t)
    (call : w.call j = c.returned now) (held : c.expiryHeld = false) (busy : (w.pos p).available = false) :
    (t.call j).waiting = c.waiting ∧ (t.call j).expiryHeld = false ∧
      (((t.call j).state = .queued ∧ (t.call j).timer = c.waitDeadline.map fun d => (.wait, d)) ∨
        ((t.call j).state = .offered ∧ (t.call j).position ≠ some p)) := by
  refine ⟨?_, (h.rests j (by rw [call]; exact ⟨rfl, rfl⟩)).2, ?_⟩
  · rw [h.quiet.waiting, call]
    rfl
  · rcases h.call j with ⟨y, hy⟩ | ⟨-, x, avail, hx⟩
    · rw [call] at hy
      refine .inl ⟨congrArg Call.state hy, (congrArg Call.timer hy).trans ?_⟩
      show (if c.expiryHeld then none else _) = _
      rw [held]
      rfl
    · refine .inr ⟨congrArg Call.state hx, fun position => ?_⟩
      have there : some x = some p := (congrArg Call.position hx).symm.trans position
      rw [Option.some.inj there, busy] at avail
      cases avail

/-! ### The withdrawn call whose held expiry acts (R34) -/

/-- What a quiet end of an event leaves of a call. -/
structure Call.Endures (c d : Call) : Prop where
  call : c.state ≠ .queued → d.bare = c.bare
  queued : c.state = .queued → d.state = .queued ∨ d.state = .offered
  waiting : d.waiting = c.waiting

theorem Quiet.queue {w t : State} (quiet : Quiet w t) (l : LinkIx) : (t.link l).queue = (w.link l).queue :=
  (congrArg Link.queue (quiet.link l) :)

theorem Quiet.endures {w t : State} (quiet : Quiet w t) (i : Slot) : Call.Endures (w.call i) (t.call i) :=
  ⟨quiet.call i, quiet.queued i, quiet.waiting i⟩

/-- A state whose call and partition have come to a quiet end is the quiet end of the state before. -/
theorem Quiet.patch {v t : State} {j : Slot} {r : Part} (call : Call.Endures (v.call j) (t.call j))
    (prt : (t.prt r).bare = (v.prt r).bare) : Quiet v ((v.setCall j (t.call j)).setPrt r (t.prt r)) where
  mem := rfl
  taker := rfl
  rings := rfl
  free := rfl
  call := fun i hi => by
    obtain rfl | ne := eq_or_ne j i
    · rw [State.call_setPrt, State.call_setCall_self]
      exact call.call hi
    · rw [State.call_setPrt, State.call_setCall_ne _ _ ne]
  queued := fun i hi => by
    obtain rfl | ne := eq_or_ne j i
    · rw [State.call_setPrt, State.call_setCall_self]
      exact call.queued hi
    · rw [State.call_setPrt, State.call_setCall_ne _ _ ne]
      exact .inl hi
  waiting := fun i => by
    obtain rfl | ne := eq_or_ne j i
    · rw [State.call_setPrt, State.call_setCall_self]
      exact call.waiting
    · rw [State.call_setPrt, State.call_setCall_ne _ _ ne]
  pos := fun _ => rfl
  offered := fun _ _ => rfl
  prt := fun x => by
    obtain rfl | ne := eq_or_ne r x
    · rw [State.prt_setPrt_self]
      exact prt
    · rw [State.prt_setPrt_ne _ _ ne, State.prt_setCall]
  lamp := fun _ => rfl
  link := fun _ => rfl

/-- From state `u` the offer of call `j` of partition `q` to position `p` has been withdrawn, and the call has overflowed;
`over` is what a quiet end then shows of the overflow. -/
structure Overran (u v : State) (j : Slot) (p : Pos) (q : Part) : Prop where
  panel : v.pos p = { u.pos p with offered := none }
  panels : ∀ x, p ≠ x → v.pos x = u.pos x
  calls : ∀ i, ¬ overflowCalls u j q i → v.call i = u.call i
  others : ∀ i, j ≠ i → ∃ x, v.call i = { u.call i with place := x }
  home : v.prt q = ((u.withdrawn j p).departed j).prt q
  parts : ∀ r, ¬ overflowParts u q r → v.prt r = u.prt r
  entrants : ∀ r, r ≠ q → ∀ i ∈ (v.prt r).roster, i = j ∨ i ∈ (u.prt r).roster
  lamp : ∀ k, v.lamp k = u.lamp k
  link : ∀ l, v.link l = { u.link l with
    queue := (u.link l).queue ++ (entries j (overflowOrders u j q)).filter fun x => linkOf x.order.first == l }
  free : v.free = u.free
  rings : v.rings = u.rings
  seconds : v.seconds = u.seconds
  plan : v.plan = u.plan
  pending : (v.call j).pending = (u.call j).pending + (overflowOrders u j q).length
  overflows : ∀ t : State, Call.Endures (v.call j) (t.call j) → (∀ r, r ≠ q → (t.prt r).bare = (v.prt r).bare) →
    Overflowed u t j q

section Overran

variable {u v t : State} {j : Slot} {p : Pos} {q : Part}

theorem Overran.left (h : Overran u v j p q) (offer : HeldOffer u j p q) (prt : (t.prt q).bare = (v.prt q).bare) :
    leftRoster u t q j := by
  have home : ((u.withdrawn j p).call j).partition = q := by
    rw [State.call_withdrawn_self]
    exact offer.partition
  exact (leftRoster_of_departed home (prt.trans (congrArg Partition.bare h.home))).transfer rfl rfl

theorem HeldOffer.mayOverflowNow (h : HeldOffer u j p q) : MayOverflow (u.withdrawn j p) j q where
  state := by rw [State.call_withdrawn_self]; rfl
  home := by rw [State.call_withdrawn_self]; exact h.partition
  member := h.member
  target := by rw [State.call_withdrawn_self]; rfl

theorem JoinedTail.at_end {s x t : State} {i : Slot} {r : Part} (h : JoinedTail s x i r) (call : x.call i = t.call i)
    (prt : x.prt r = t.prt r) : JoinedTail s t i r where
  state := call ▸ h.state
  call := call ▸ h.call
  roster := prt ▸ h.roster
  alert := by
    have alert := h.alert
    unfold alertTested at alert ⊢
    rw [← prt]
    exact alert
  place := call ▸ h.place
  wait := call ▸ h.wait

theorem State.roster_overflowedTo (u : State) (j : Slot) (r : Part) (ne : r ≠ (u.call j).partition) :
    ((u.overflowedTo j r).prt r).roster = (u.prt r).roster ++ [j] := by
  have home : (((u.departed j).diverted j r).call j).partition = r := by rw [State.call_diverted_self]
  have tailed := ((u.departed j).diverted j r).prt_tailed j
  unfold State.tailRoster at tailed
  unfold State.overflowedTo State.enrolled
  rw [home, State.prt_diverted, State.prt_departed_ne _ _ ne] at tailed
  rw [State.prt_sendAll, tailed]

theorem State.call_overflowedTo_place (u : State) {i j : Slot} (r : Part) (ne : j ≠ i) :
    ∃ x, (u.overflowedTo j r).call i = { u.call i with place := x } := by
  obtain ⟨x, hx⟩ := ((u.departed j).diverted j r).call_tailed j i
  obtain ⟨y, hy⟩ := u.call_departed j ne
  refine ⟨x, ?_⟩
  unfold State.overflowedTo State.enrolled
  rw [State.call_sendAll, if_neg ne, hx, if_neg ne, State.call_diverted_ne _ _ _ ne, hy]

theorem State.call_overflowedOut_place (u : State) {i j : Slot} (q : Part) (a : Circuit) (ne : j ≠ i) :
    ∃ x, (u.overflowedOut j q a).call i = { u.call i with place := x } := by
  obtain ⟨y, hy⟩ := u.call_departed j ne
  refine ⟨y, ?_⟩
  unfold State.overflowedOut State.announcing
  dsimp only
  rw [State.call_setCall_ne _ _ ne, State.call_sendAll, if_neg ne, State.call_diverted_ne _ _ _ ne, hy]

theorem HeldOffer.overran_into {r : Part} (h : HeldOffer u j p q) (into : (u.part q).overflow = .partition r) :
    Overran u ((u.withdrawn j p).overflowedTo j r) j p q := by
  obtain ⟨ne, -, takes⟩ := h.into r into
  have may := h.mayOverflowNow
  have takes' : RoomForNew (u.withdrawn j p) r j := takes.transfer rfl rfl (u.cls_withdrawn j p)
  have orders := overflowOrders_partition (i := j) into
  obtain ⟨x, hcall⟩ := (u.withdrawn j p).call_overflowedTo j r
  rw [State.call_withdrawn_self] at hcall
  constructor
  case panel => rw [State.pos_overflowedTo, State.pos_withdrawn_self]
  case panels => exact fun x hx => by rw [State.pos_overflowedTo, State.pos_withdrawn_ne _ _ _ hx]
  case calls =>
    intro i out
    obtain ⟨other, apart⟩ := not_or.mp out
    rw [State.call_overflowedTo_out may.home ne.symm (Ne.symm other) (fun hm => apart ⟨q, .inl rfl, hm⟩)
      (fun hm => apart ⟨r, .inr into, hm⟩), State.call_withdrawn_ne _ _ _ (Ne.symm other)]
  case others =>
    intro i ne
    obtain ⟨x, hx⟩ := (u.withdrawn j p).call_overflowedTo_place r ne
    exact ⟨x, by rw [hx, State.call_withdrawn_ne _ _ _ ne]⟩
  case home => exact State.prt_overflowedTo_ne _ _ ne.symm
  case parts =>
    intro r' out
    obtain ⟨hq, hr⟩ := not_or.mp out
    rw [State.prt_overflowedTo_out may.home hq fun he => hr (he ▸ into), State.prt_withdrawn]
  case entrants =>
    intro r' out i member
    obtain rfl | apart := eq_or_ne r' r
    · have roster := State.roster_overflowedTo (u.withdrawn j p) j r' (by rw [may.home]; exact ne)
      rw [roster, State.prt_withdrawn] at member
      rcases List.mem_append.mp member with old | new
      · exact .inr old
      · exact .inl (List.mem_singleton.mp new)
    · rw [State.prt_overflowedTo_out may.home out apart] at member
      exact .inr member
  case lamp => exact fun k => by rw [State.lamp_overflowedTo, State.lamp_withdrawn]
  case link =>
    intro l
    rw [State.link_overflowedTo, State.call_withdrawn_self, orders]
    rfl
  case free => rw [State.overflowedTo_free, State.withdrawn_free]
  case rings => rw [State.overflowedTo_rings, State.withdrawn_rings]
  case seconds => rw [State.overflowedTo_seconds, State.withdrawn_seconds]
  case plan =>
    simp [State.overflowedTo, State.enrolled, State.tailed, State.diverted, State.departed]
  case pending =>
    rw [hcall, orders]
    rfl
  case overflows =>
    intro t endures parts
    have joined := ((Quiet.patch (t := t) endures (parts r ne)).overflowedTo may ne.symm takes').1
    have waiting := endures.waiting
    rw [hcall] at waiting
    simp only [Call.waiting, Prod.mk.injEq] at waiting
    obtain ⟨identity, reason, -, -, -, origin, -, -, pending, -⟩ := waiting
    refine ⟨⟨identity, origin, reason⟩, ?_, fun r' hr => ?_, fun a hf => ?_⟩
    · rw [orders]
      exact pending
    · cases into.symm.trans hr
      refine JoinedTail.transfer (v := u.withdrawn j p) (joined.at_end ?_ ?_) rfl rfl rfl
      · rw [State.call_setPrt, State.call_setCall_self]
      · rw [State.prt_setPrt_self]
    · cases into.symm.trans hf

theorem HeldOffer.overran_out {a : Circuit} (h : HeldOffer u j p q) (into : (u.part q).overflow = .fallback)
    (serves : announces u q a) : Overran u ((u.withdrawn j p).overflowedOut j q a) j p q := by
  have may := h.mayOverflowNow
  have orders := overflowOrders_fallback (i := j) into serves.1
  have hcall := (u.withdrawn j p).call_overflowedOut j q a
  rw [State.call_withdrawn_self] at hcall
  constructor
  case panel => rw [State.pos_overflowedOut, State.pos_withdrawn_self]
  case panels => exact fun x hx => by rw [State.pos_overflowedOut, State.pos_withdrawn_ne _ _ _ hx]
  case calls =>
    intro i out
    obtain ⟨other, apart⟩ := not_or.mp out
    rw [State.call_overflowedOut_out may.home (Ne.symm other) (fun hm => apart ⟨q, .inl rfl, hm⟩),
      State.call_withdrawn_ne _ _ _ (Ne.symm other)]
  case others =>
    intro i ne
    obtain ⟨x, hx⟩ := (u.withdrawn j p).call_overflowedOut_place q a ne
    exact ⟨x, by rw [hx, State.call_withdrawn_ne _ _ _ ne]⟩
  case home => exact State.prt_overflowedOut ..
  case parts =>
    intro r out
    obtain ⟨hq, -⟩ := not_or.mp out
    rw [State.prt_overflowedOut, State.prt_departed_ne _ _ (by rw [may.home]; exact hq), State.prt_withdrawn]
  case entrants =>
    intro r out i member
    rw [State.prt_overflowedOut, State.prt_departed_ne _ _ (by rw [may.home]; exact out)] at member
    exact .inr member
  case lamp => exact fun k => by rw [State.lamp_overflowedOut, State.lamp_withdrawn]
  case link =>
    intro l
    rw [State.link_overflowedOut, State.call_withdrawn_self, orders]
    rfl
  case free => rw [State.overflowedOut_free, State.withdrawn_free]
  case rings => rw [State.overflowedOut_rings, State.withdrawn_rings]
  case seconds => rw [State.overflowedOut_seconds, State.withdrawn_seconds]
  case plan => simp [State.overflowedOut, State.announcing, State.diverted, State.departed]
  case pending =>
    rw [hcall, orders]
    rfl
  case overflows =>
    intro t endures _
    have waiting := endures.waiting
    have bare := endures.call (by rw [hcall]; exact nofun)
    rw [hcall] at waiting bare
    simp only [Call.waiting, Prod.mk.injEq] at waiting
    obtain ⟨identity, reason, -, -, -, origin, -, -, pending, -⟩ := waiting
    refine ⟨⟨identity, origin, reason⟩, ?_, fun r hr => ?_, fun b _ hb => ?_⟩
    · rw [orders]
      exact pending
    · cases into.symm.trans hr
    · cases serves.1.symm.trans hb.1
      rw [bare, ← h.partition]
      exact Call.bare_announcedBy h.target ..

end Overran

/-- Room for more orders is left when the first have entered their queues. -/
theorem State.room_after {u v : State} {j : Slot} {xs ys : List ShelfOrder} (room : u.room (xs ++ ys))
    (link : ∀ l, v.link l = { u.link l with
      queue := (u.link l).queue ++ (entries j xs).filter fun x => linkOf x.order.first == l }) : v.room ys := fun o ho => by
  obtain ⟨running, space⟩ := room o (List.mem_append_right _ ho)
  have fewer := List.length_filter_le (fun x => linkOf x.order.first == linkOf o.first) (entries j xs)
  have all : (entries j xs).length = xs.length := List.length_map ..
  rw [link]
  refine ⟨running, ?_⟩
  dsimp only
  rw [List.length_append] at space ⊢
  omega

theorem overflowOrders_isRing (s : State) (i : Slot) (q : Part) : ∀ o ∈ overflowOrders s i q, o.isRing = false := by
  unfold overflowOrders
  split <;> simp [ShelfOrder.isRing]

/-- The withdrawal of an offer whose call has a held expiry. -/
theorem Event.withdraw_overflows {e : Event} {j : Slot} {p : Pos} {q : Part} (h : HeldOffer e.st j p q)
    (room : e.st.room (overflowOrders e.st j q)) :
    Overran e.st (e.withdraw p).st j p q ∧ (e.withdraw p).refusals = e.refusals ∧ (e.withdraw p).serve = e.serve := by
  obtain ⟨f, eq, st, only⟩ := Event.withdraw_eq h.offer (by rw [h.state]; decide) h.target
  rw [h.held, if_pos rfl] at eq
  have may : MayOverflow f.st j q := by rw [st]; exact h.mayOverflowNow
  have caller : (f.st.call j).caller = (e.st.call j).caller := by rw [st, State.call_withdrawn_self]; rfl
  rw [eq]
  cases into : (e.st.part q).overflow with
  | partition r =>
    obtain ⟨ne, enabled, takes⟩ := h.into r into
    rw [overflowOrders_partition into, ← caller] at room
    obtain ⟨done, refusals, serve⟩ := Event.waitOver_enrolls may ne.symm (by rw [st]; exact into)
      (by rw [st]; exact enabled) (by rw [st]; exact takes.transfer rfl rfl (e.st.cls_withdrawn j p))
      (by rw [st] at room ⊢; exact room)
    rw [done, refusals, serve, st]
    exact ⟨h.overran_into into, only.refusals, only.serve⟩
  | fallback =>
    obtain ⟨a, serves⟩ := h.announcer into
    rw [overflowOrders_fallback into serves.1, ← caller] at room
    obtain ⟨done, refusals, serve⟩ := Event.waitOver_announces may (by rw [st]; exact into) (by rw [st]; exact serves)
      (by rw [st] at room ⊢; exact room)
    rw [done, refusals, serve, st]
    exact ⟨h.overran_out into serves, only.refusals, only.serve⟩

end Sys2Proof.Machine
end

section
/-! SUPPORT. PAUSE (R63, R67); and O21. -/

namespace Sys2Proof.Machine

/-- The position has been paused by order. -/
def State.paused (t : State) (p : Pos) : State := t.setPos p { t.pos p with pause := some .order }

theorem State.pos_paused_self (t : State) (p : Pos) : (t.paused p).pos p = { t.pos p with pause := some .order } :=
  State.pos_setPos_self ..

theorem State.pos_paused_ne (t : State) {p x : Pos} (h : p ≠ x) : (t.paused p).pos x = t.pos x :=
  State.pos_setPos_ne _ _ h

theorem State.paused_mirrors (s : State) (c : CellIx) (p : Pos) : Mirrors s ((s.taken c).paused p) :=
  (s.taken_mirrors c).setPos _

section Pause

variable {s : State} {c : CellIx} {p : Pos} {i : Slot}

/-- What is left of a panel that has been paused and whose offer is gone. -/
theorem Ended.paused {w t : State} (h : Ended w t)
    (panel : w.pos p = { s.pos p with pause := some .order, offered := none }) :
    (t.pos p).bare = { (s.pos p).bare with pause := some .order } ∧ (t.pos p).offered = none ∧
      (t.pos p).idleSince = (s.pos p).idleSince := by
  obtain ⟨offered, idle⟩ := h.stale p (by
    rw [panel]
    exact Position.busy_paused rfl)
  refine ⟨?_, ?_, ?_⟩
  · rw [h.quiet.pos, panel]
    rfl
  · rw [offered, panel]
  · rw [idle, panel]

/-- PAUSE on: the event of its owner. -/
theorem PauseReady.pauses (r : PauseReady s c p) (on : cellBody s.mem c 0 ≠ 0) :
    (Event.taking s c).own c .pauseK =
      ((((Event.taking s c).updPos p fun q => { q with pause := some .order }).withdraw p), some (.ok, 0)) := by
  rw [r.own_eq]
  dsimp only
  unfold Event.ownPause
  rw [if_neg (by simp [r.isOpen]), if_neg on]
  rfl

theorem PauseReady.awaits_paused (r : PauseReady s c p) :
    (((Event.taking s c).updPos p fun q => { q with pause := some .order }).withdraw p).st.awaits c := by
  have paused : ((s.taken c).paused p).awaits c := r.awaits.of_eq rfl rfl fun q => by
    obtain rfl | hq := eq_or_ne p q
    · rw [State.pos_paused_self]
    · rw [State.pos_paused_ne _ hq]
  exact paused.keeps (Event.withdraw_keeps (.refl _))

theorem PauseReady.takes_back (r : PauseReady s c p) (on : cellBody s.mem c 0 ≠ 0)
    (plain : ∀ j, (s.pos p).offered = some j →
      j = i ∧ (s.call i).state = .offered ∧ (s.call i).expiryHeld = false ∧ (s.call i).target = none) :
    ∃ t, exec .pauseOrder s = .next t ∧ t.finished c .ok 0 ∧
      ((t.pos p).bare = { (s.pos p).bare with pause := some .order } ∧ (t.pos p).offered = none ∧
        (t.pos p).idleSince = (s.pos p).idleSince) ∧
      ((s.pos p).offered = some i → offeredAgainOrWaits s t p i) ∧ silent s t ∧
      Aside s t (fun j => (s.pos p).offered = some j) (· = p) (fun _ => False) fun _ => False := by
  have mirrors := s.paused_mirrors c p
  have was : ((s.taken c).paused p).pos p = { s.pos p with pause := some .order } := by
    rw [State.pos_paused_self, State.pos_taken]
  obtain ⟨back, only⟩ := Event.withdraw_takesBack (p := p)
    (e := (Event.taking s c).updPos p fun q => { q with pause := some .order }) fun j offer => by
      obtain ⟨rfl, state, held, target⟩ := plain j ((congrArg Position.offered was).symm.trans offer)
      have same : ((s.taken c).paused p).call j = s.call j := mirrors.call j
      exact ⟨(congrArg Call.state same).trans state, (congrArg Call.expiryHeld same).trans held,
        (congrArg Call.target same).trans target⟩
  have st : ((Event.taking s c).updPos p fun q => { q with pause := some .order }).st = (s.taken c).paused p := rfl
  rw [st] at back
  obtain ⟨run, finished, ended⟩ := r.ends (r.pauses on) rfl only.refusals
    (by rw [only.serve]; exact nofun) r.awaits_paused
  generalize (((Event.taking s c).updPos p fun q => { q with pause := some .order }).withdraw p).st = w at *
  refine ⟨_, run, finished, ended.paused ?_, fun offer => ?_, ended.quiet.silent (fun l => ?_) ?_, ended.quiet.aside
    (fun j hj => ?_) (fun x hx => ?_) (fun q _ => ?_) (fun k => ?_) ?_⟩
  · rw [State.pos_answer, back.panel, was]
  · have call : (w.answer c .ok 0).call i = (s.call i).returned s.seconds := by
      rw [State.call_answer, back.back i (by rw [was]; exact offer), mirrors.call, mirrors.seconds]
    refine ended.again call (plain i offer).2.2.1 ?_
    rw [State.pos_answer, back.panel, was]
    exact Position.busy_paused rfl
  · rw [State.link_answer, back.link, mirrors.link]
  · rw [State.answer_rings, back.rings, mirrors.rings]
  · rw [State.call_answer, back.calls j (by rw [was]; exact hj), mirrors.call]
  · rw [State.pos_answer, back.panels x (Ne.symm hx), State.pos_paused_ne _ (Ne.symm hx), State.pos_taken]
  · rw [State.prt_answer, back.prt, mirrors.prt]
  · rw [State.lamp_answer, back.lamp, mirrors.lamp]
  · rw [State.answer_free, back.free, mirrors.free]

theorem PauseReady.overflows {q : Part} (r : PauseReady s c p) (on : cellBody s.mem c 0 ≠ 0) (held : HeldOffer s i p q)
    (room : s.room (overflowOrders s i q)) :
    ∃ t, exec .pauseOrder s = .next t ∧ t.finished c .ok 0 ∧
      ((t.pos p).bare = { (s.pos p).bare with pause := some .order } ∧ (t.pos p).offered = none ∧
        (t.pos p).idleSince = (s.pos p).idleSince) ∧
      leftRoster s t q i ∧ Overflowed s t i q ∧ issued s t i (entries i (overflowOrders s i q)) ∧
      Aside s t (overflowCalls s i q) (· = p) (overflowParts s q) fun _ => False := by
  have mirrors := s.paused_mirrors c p
  have was : ((s.taken c).paused p).pos p = { s.pos p with pause := some .order } := by
    rw [State.pos_paused_self, State.pos_taken]
  have offer : HeldOffer ((s.taken c).paused p) i p q := mirrors.heldOffer (congrArg Position.offered was :) held
  obtain ⟨ran, refusals, serve⟩ := Event.withdraw_overflows (p := p)
    (e := (Event.taking s c).updPos p fun q => { q with pause := some .order }) offer
    (by rw [← mirrors.overflowOrders] at room; exact mirrors.room.mpr room)
  have st : ((Event.taking s c).updPos p fun q => { q with pause := some .order }).st = (s.taken c).paused p := rfl
  rw [st] at ran
  obtain ⟨run, finished, ended⟩ := r.ends (r.pauses on) rfl refusals (by rw [serve]; exact nofun) r.awaits_paused
  generalize (((Event.taking s c).updPos p fun q => { q with pause := some .order }).withdraw p).st = w at *
  have quiet := ended.quiet
  refine ⟨_, run, finished, ended.paused ?_, mirrors.leftRoster (ran.left offer (quiet.prt q)),
    mirrors.overflowed (ran.overflows _ (quiet.endures i) fun r _ => quiet.prt r),
    quiet.issued (overflowOrders_isRing s i q) (fun l => ?_) ?_ ?_,
    quiet.aside (fun j hj => ?_) (fun x hx => ?_) (fun r hr => ?_) (fun k => ?_) ?_⟩
  · rw [State.pos_answer, ran.panel, was]
  · rw [State.link_answer, ran.link, mirrors.link, mirrors.overflowOrders]
  · rw [State.call_answer, ran.pending, mirrors.call, mirrors.overflowOrders]
  · rw [State.answer_rings, ran.rings, mirrors.rings]
  · rw [State.call_answer, ran.calls j fun h => hj (mirrors.overflowCalls.mp h), mirrors.call]
  · rw [State.pos_answer, ran.panels x (Ne.symm hx), State.pos_paused_ne _ (Ne.symm hx), State.pos_taken]
  · rw [State.prt_answer, ran.parts r fun h => hr (mirrors.overflowParts.mp h), mirrors.prt]
  · rw [State.lamp_answer, ran.lamp, mirrors.lamp]
  · rw [State.answer_free, ran.free, mirrors.free]

theorem PauseReady.resumes (r : PauseReady s c p) (off : cellBody s.mem c 0 = 0) :
    ∃ t, exec .pauseOrder s = .next t ∧ t.finished c .ok 0 ∧
      (t.pos p).bare = { (s.pos p).bare with pause := none, missed := 0 } ∧
      ((s.pos p).pause ≠ none → (s.pos p).offered = none → (s.pos p).speaking = none →
        (∃ l, (s.pos p).loops.get l = none) → (t.pos p).idleSince = s.seconds) ∧
      silent s t ∧ Aside s t (fun _ => False) (· = p) (fun _ => False) fun _ => False := by
  have own : (Event.taking s c).own c .pauseK =
      (((Event.taking s c).updPos p fun q => { q with pause := none, missed := 0 }), some (.ok, 0)) := by
    rw [r.own_eq]
    dsimp only
    unfold Event.ownPause
    rw [if_neg (by simp [r.isOpen]), if_pos off]
    rfl
  have resumed : ((Event.taking s c).updPos p fun q => { q with pause := none, missed := 0 }).st =
      (s.taken c).setPos p { s.pos p with pause := none, missed := 0 } := by
    rw [← State.pos_taken s c]
    rfl
  obtain ⟨t, run, finished, settled⟩ := r.settles
    (w := (s.taken c).setPos p { s.pos p with pause := none, missed := 0 }) own
    ((Event.updPos_only _ p _).leaves resumed) (r.awaits.of_eq rfl rfl fun q => by
      obtain rfl | hq := eq_or_ne p q
      · rw [State.pos_setPos_self, State.pos_taken]
      · rw [State.pos_setPos_ne _ _ hq])
  have quiet := settled.quiet
  have panel : (((s.taken c).setPos p { s.pos p with pause := none, missed := 0 }).answer c .ok 0).pos p =
      { s.pos p with pause := none, missed := 0 } := (State.pos_answer ..).trans (State.pos_setPos_self ..)
  refine ⟨t, run, finished, ?_, fun paused offered speaking empty => ?_, quiet.silent (by simp) (by simp),
    quiet.aside (fun j _ => by simp) (fun x hx => ?_) (fun q _ => by simp) (fun k => by simp) (by simp)⟩
  · rw [quiet.pos, panel]
    rfl
  · refine (settled.stamps p ?_ ?_).trans (by simp)
    · rw [panel]
      exact Position.available_iff.mpr ⟨r.isOpen, rfl, offered, speaking, empty⟩
    · exact Bool.eq_false_iff.mpr fun avail => paused (Position.available_iff.mp avail).2.1
  · rw [State.pos_answer, State.pos_setPos_ne _ _ (Ne.symm hx), State.pos_taken]

end Pause

/-- Settles O21. -/
theorem pauseStopsAndResumesOffers : Obligations.PauseStopsAndResumesOffers := by
  refine ⟨fun s c p i r on plain => ?_, fun s c p i q r on held room => ?_, fun s c p r off => r.resumes off⟩
  · obtain ⟨t, run, finished, ⟨panel, offered, idle⟩, again, quiet, aside⟩ := r.takes_back on plain
    exact ⟨t, run, finished, panel, offered, idle, again, quiet, aside⟩
  · obtain ⟨t, run, finished, ⟨panel, offered, idle⟩, left, overflowed, orders, aside⟩ := r.overflows on held room
    exact ⟨t, run, finished, panel, offered, idle, left, overflowed, orders, aside⟩

end Sys2Proof.Machine
end

section
/-! SUPPORT. RETRIEVE (R63, R74); and O25. -/

namespace Sys2Proof.Machine

/-- The orders that join a caller to the headset (R71, R72, R74). -/
def joinOrders (c : Call) (h : Circuit) : List ShelfOrder := [.join c.caller h, .tone c.caller .quiet]

theorem joinOrders_isRing (c : Call) (h : Circuit) : ∀ o ∈ joinOrders c h, o.isRing = false := by
  simp [joinOrders, ShelfOrder.isRing]

/-- The position speaks to the call on its loop again. -/
def State.retrieved (t : State) (i : Slot) (p : Pos) (l : LoopIx) (h : Circuit) : State :=
  let t' := t.sendAll i (joinOrders (t.call i) h)
  (t'.setCall i ((t'.call i).enter .talking t.seconds)).setPos p
    { t.pos p with flash := (t.pos p).flash.set l false, speaking := some l }

section Retrieved

variable (t : State) (i : Slot) (p : Pos) (l : LoopIx) (h : Circuit)

theorem State.call_retrieved_self : (t.retrieved i p l h).call i =
    { (t.call i).enter .talking t.seconds with pending := (t.call i).pending + 2 } := by
  unfold State.retrieved
  dsimp only
  rw [State.call_setPos, State.call_setCall_self, State.call_sendAll, if_pos rfl]
  rfl

theorem State.call_retrieved_ne {j : Slot} (hj : i ≠ j) : (t.retrieved i p l h).call j = t.call j := by
  unfold State.retrieved
  dsimp only
  rw [State.call_setPos, State.call_setCall_ne _ _ hj, State.call_sendAll, if_neg hj]

theorem State.pos_retrieved_self : (t.retrieved i p l h).pos p =
    { t.pos p with flash := (t.pos p).flash.set l false, speaking := some l } := State.pos_setPos_self ..

theorem State.pos_retrieved_ne {x : Pos} (hx : p ≠ x) : (t.retrieved i p l h).pos x = t.pos x := by
  unfold State.retrieved
  dsimp only
  rw [State.pos_setPos_ne _ _ hx, State.pos_setCall, State.pos_sendAll]

@[simp] theorem State.prt_retrieved (q : Part) : (t.retrieved i p l h).prt q = t.prt q := by simp [State.retrieved]
@[simp] theorem State.lamp_retrieved (k : Circuit) : (t.retrieved i p l h).lamp k = t.lamp k := by simp [State.retrieved]
@[simp] theorem State.retrieved_free : (t.retrieved i p l h).free = t.free := by simp [State.retrieved]
@[simp] theorem State.retrieved_seconds : (t.retrieved i p l h).seconds = t.seconds := by simp [State.retrieved]
@[simp] theorem State.retrieved_mem : (t.retrieved i p l h).mem = t.mem := by simp [State.retrieved]

theorem State.link_retrieved (m : LinkIx) : (t.retrieved i p l h).link m =
    { t.link m with
      queue := (t.link m).queue ++ (entries i (joinOrders (t.call i) h)).filter fun x => linkOf x.order.first == m } := by
  unfold State.retrieved
  dsimp only
  rw [State.link_setPos, State.link_setCall, State.link_sendAll]

theorem State.retrieved_rings : (t.retrieved i p l h).rings = t.rings := by
  unfold State.retrieved
  dsimp only
  rw [State.setPos_rings, State.setCall_rings, State.rings_sendAll _ _ _ (joinOrders_isRing _ _)]

theorem State.extendCell_retrieved (x : Pos) : ((t.retrieved i p l h).pos x).extendCell = (t.pos x).extendCell := by
  obtain rfl | hx := eq_or_ne p x
  · rw [State.pos_retrieved_self]
  · rw [State.pos_retrieved_ne _ _ _ _ _ hx]

end Retrieved

section Retrieve

variable {s : State} {c : CellIx} {p : Pos} {i : Slot} {l : LoopIx} {h : Circuit}

/-- RETRIEVE is carried out: the offer is withdrawn, then the position speaks to the call. -/
theorem RetrieveReady.retrieves (r : RetrieveReady s c p i l h) : (Event.taking s c).own c .retrieveK =
    let f := (Event.taking s c).withdraw p
    ((((f.issueList i (joinOrders (f.st.call i) h)).toState i .talking).updPos p fun q =>
      { q with flash := q.flash.set l false, speaking := some l }), some (.ok, 0)) := by
  have named : (cellBody s.mem c 0).toNat < 4 := r.loop ▸ l.isLt
  have loop : (⟨(cellBody s.mem c 0).toNat, named⟩ : LoopIx) = l := Fin.ext r.loop
  have held : (Event.taking s c).st.heldOn p l = some i := by
    unfold State.heldOn
    rw [Event.taking_st, State.pos_taken, r.call]
    simp [r.held]
  rw [r.own_eq]
  dsimp only
  unfold Event.ownRetrieve
  rw [if_neg (by simp [r.isOpen]), if_neg (by simp [r.noExtend]), dif_pos named, loop]
  dsimp only
  rw [if_neg (by simp [r.silent]), held]
  have headset : ((Event.taking s c).st.pos p).headset = some h := by simp [r.headset]
  rw [headset]
  rfl

/-- What the steps after the withdrawal write. -/
theorem Event.speaks_again {f : Event} {i : Slot} {p : Pos} {l : LoopIx} {h : Circuit}
    (room : f.st.room (joinOrders (f.st.call i) h)) (live : (f.st.call i).state ≠ .free)
    (target : (f.st.call i).target = none) :
    let g := ((f.issueList i (joinOrders (f.st.call i) h)).toState i .talking).updPos p fun q =>
      { q with flash := q.flash.set l false, speaking := some l }
    g.st = f.st.retrieved i p l h ∧ f.Only g := by
  obtain ⟨s1, o1⟩ := Event.issueList_sends (i := i) room
  generalize f.issueList i (joinOrders (f.st.call i) h) = e1 at s1 o1 ⊢
  have call1 : e1.st.call i = { f.st.call i with pending := (f.st.call i).pending + 2 } := by
    rw [s1, State.call_sendAll, if_pos rfl]
    rfl
  obtain ⟨s2, o2⟩ := Event.toState_moves (e := e1) (i := i) (st := .talking) (by rw [call1]; exact live)
    (by rw [call1]; exact target)
  generalize e1.toState i .talking = e2 at s2 o2 ⊢
  refine ⟨?_, (o1.trans o2).trans (e2.updPos_only p _)⟩
  have panel : e2.st.pos p = f.st.pos p := by rw [s2, State.pos_setCall, s1, State.pos_sendAll]
  unfold Event.updPos Event.upd State.retrieved
  dsimp only
  rw [panel, s2, s1, State.sendAll_seconds]

/-- What a quiet end leaves of the call and of the panel when the position speaks to the call again. -/
theorem Ended.retrieved {v t : State} {code : ResultCode} {x : Option Nat}
    (ended : Ended ((v.retrieved i p l h).answer c code 0) t) (call : v.call i = { s.call i with place := x })
    (panel : v.pos p = { s.pos p with offered := none }) (target : (s.call i).target = none)
    (seconds : v.seconds = s.seconds) :
    (t.call i).bare = { onLoop (s.call i) .talking s.seconds with pending := (s.call i).pending + 2 } ∧
      (t.pos p).bare = { (s.pos p).bare with speaking := some l, flash := (s.pos p).flash.set l false } ∧
      (t.pos p).offered = none := by
  have talks : ((v.retrieved i p l h).answer c code 0).call i = _ :=
    (State.call_answer ..).trans (State.call_retrieved_self ..)
  have after : ((v.retrieved i p l h).answer c code 0).pos p = _ :=
    (State.pos_answer ..).trans (State.pos_retrieved_self ..)
  rw [call, seconds] at talks
  rw [panel] at after
  refine ⟨?_, ?_, ?_⟩
  · rw [ended.quiet.call i (by rw [talks]; exact nofun), talks, ← Call.bare_enter (.inl rfl) target]
    rfl
  · rw [ended.quiet.pos, after]
    rfl
  · refine (ended.stale p ?_).1.trans (by rw [after])
    rw [after]
    exact Position.busy_speaking rfl

theorem RetrieveReady.awaits_retrieved (r : RetrieveReady s c p i l h) {v : State}
    (st : ((Event.taking s c).withdraw p).st = v) : (v.retrieved i p l h).awaits c := by
  have back : v.awaits c := st ▸ r.awaits.keeps (Event.withdraw_keeps (.refl _))
  exact back.of_eq (by simp) (by simp) fun q => State.extendCell_retrieved ..

/-- RETRIEVE where a pending offer goes back to its roster. -/
theorem RetrieveReady.takes_back (r : RetrieveReady s c p i l h) (plain : withdrawable s p i) :
    ∃ t, exec .retrieveOrder s = .next t ∧ t.finished c .ok 0 ∧
      ((t.call i).bare = { onLoop (s.call i) .talking s.seconds with pending := (s.call i).pending + 2 } ∧
        (t.pos p).bare = { (s.pos p).bare with speaking := some l, flash := (s.pos p).flash.set l false } ∧
        (t.pos p).offered = none) ∧ (∀ j, (s.pos p).offered = some j → offeredAgainOrWaits s t p j) ∧
      issued s t i (entries i (joinOrders (s.call i) h)) ∧
      Aside s t (fun j => j = i ∨ (s.pos p).offered = some j) (· = p) (fun _ => False) fun _ => False := by
  have mirrors := s.taken_mirrors c
  have own := r.retrieves
  obtain ⟨back, only⟩ := Event.withdraw_takesBack (p := p) (e := Event.taking s c) fun j offer => by
    rw [Event.taking_st, State.pos_taken] at offer
    rw [Event.taking_st, State.call_taken]
    exact (plain j offer).2
  have awaits := r.awaits_retrieved rfl
  generalize (Event.taking s c).withdraw p = f at *
  rw [Event.taking_st] at back
  have call : f.st.call i = s.call i :=
    (back.calls i fun offer => (plain i (by rw [← State.pos_taken s c]; exact offer)).1 rfl).trans (mirrors.call i)
  have panel : f.st.pos p = { s.pos p with offered := none } := by rw [back.panel, State.pos_taken]
  have roomF : f.st.room (joinOrders (f.st.call i) h) := fun o ho => by
    rw [call] at ho ⊢
    rw [back.link, mirrors.link]
    exact r.room o ho
  obtain ⟨st, onlyG⟩ := Event.speaks_again (p := p) (l := l) roomF (by rw [call, r.held]; decide)
    (by rw [call]; exact r.target)
  have only' := only.trans onlyG
  obtain ⟨run, finished, ended⟩ := r.ends own st only'.refusals (by rw [only'.serve]; exact nofun) awaits
  have quiet := ended.quiet
  refine ⟨_, run, finished, ended.retrieved (x := (s.call i).place) call panel r.target (back.seconds.trans mirrors.seconds),
    fun j offer => ?_, quiet.issued (joinOrders_isRing _ _) (fun m => ?_) ?_ ?_,
    quiet.aside (fun j hj => ?_) (fun x hx => ?_) (fun q _ => ?_) (fun k => ?_) ?_⟩
  · obtain ⟨ne, -, held, -⟩ := plain j offer
    refine ended.again (c := s.call j) (now := s.seconds) ?_ held ?_
    · rw [State.call_answer, State.call_retrieved_ne _ _ _ _ _ ne.symm,
        back.back j (by rw [State.pos_taken]; exact offer), mirrors.call, mirrors.seconds]
    · rw [State.pos_answer, State.pos_retrieved_self]
      exact Position.busy_speaking rfl
  · rw [State.link_answer, State.link_retrieved, call, back.link, mirrors.link]
  · rw [State.call_answer, State.call_retrieved_self, call]
    rfl
  · rw [State.answer_rings, State.retrieved_rings, back.rings, mirrors.rings]
  · obtain ⟨ne, offer⟩ := not_or.mp hj
    rw [State.call_answer, State.call_retrieved_ne _ _ _ _ _ (Ne.symm ne),
      back.calls j (by rw [State.pos_taken]; exact offer), mirrors.call]
  · rw [State.pos_answer, State.pos_retrieved_ne _ _ _ _ _ (Ne.symm hx), back.panels x (Ne.symm hx), State.pos_taken]
  · rw [State.prt_answer, State.prt_retrieved, back.prt, mirrors.prt]
  · rw [State.lamp_answer, State.lamp_retrieved, back.lamp, mirrors.lamp]
  · rw [State.answer_free, State.retrieved_free, back.free, mirrors.free]

/-- RETRIEVE where the pending offer's call overflows. -/
theorem RetrieveReady.overflows {j : Slot} {q : Part} (r : RetrieveReady s c p i l h) (held : HeldOffer s j p q)
    (room : s.room (overflowOrders s j q ++ joinOrders (s.call i) h)) :
    ∃ t, exec .retrieveOrder s = .next t ∧ t.finished c .ok 0 ∧
      ((t.call i).bare = { onLoop (s.call i) .talking s.seconds with pending := (s.call i).pending + 2 } ∧
        (t.pos p).bare = { (s.pos p).bare with speaking := some l, flash := (s.pos p).flash.set l false } ∧
        (t.pos p).offered = none) ∧ leftRoster s t q j ∧ Overflowed s t j q ∧ t.rings = s.rings ∧
      queuedAfter s t (entries j (overflowOrders s j q) ++ entries i (joinOrders (s.call i) h)) ∧
      Aside s t (fun x => x = i ∨ overflowCalls s j q x) (· = p) (overflowParts s q) fun _ => False := by
  have mirrors := s.taken_mirrors c
  have own := r.retrieves
  have ne : j ≠ i := fun h => by
    have state := held.state
    rw [h, r.held] at state
    cases state
  have offer : HeldOffer (s.taken c) j p q := mirrors.heldOffer (by rw [State.pos_taken]) held
  obtain ⟨ran, refusals, serve⟩ := Event.withdraw_overflows (e := Event.taking s c) offer
    (by rw [Event.taking_st, mirrors.overflowOrders]; exact State.room_append_left (mirrors.room.mpr room))
  have awaits := r.awaits_retrieved rfl
  generalize (Event.taking s c).withdraw p = f at *
  rw [Event.taking_st] at ran
  obtain ⟨x, call⟩ := ran.others i ne
  rw [mirrors.call] at call
  have orders : joinOrders (f.st.call i) h = joinOrders (s.call i) h := by rw [call]; rfl
  have panel : f.st.pos p = { s.pos p with offered := none } := by rw [ran.panel, State.pos_taken]
  have roomF : f.st.room (joinOrders (f.st.call i) h) := by
    rw [orders]
    exact State.room_after (mirrors.room.mpr room) (by simpa only [mirrors.overflowOrders] using ran.link)
  obtain ⟨st, onlyG⟩ := Event.speaks_again (p := p) (l := l) roomF (by rw [call]; dsimp only; rw [r.held]; decide)
    (by rw [call]; exact r.target)
  obtain ⟨run, finished, ended⟩ := r.ends own st (onlyG.refusals.trans refusals)
    (by rw [onlyG.serve, serve]; exact nofun) awaits
  have quiet := ended.quiet
  have endures := quiet.endures j
  rw [State.call_answer, State.call_retrieved_ne _ _ _ _ _ (Ne.symm ne)] at endures
  refine ⟨_, run, finished, ended.retrieved call panel r.target (ran.seconds.trans mirrors.seconds),
    mirrors.leftRoster (ran.left offer ((quiet.prt q).trans (by simp))),
    mirrors.overflowed (ran.overflows _ endures fun r _ => (quiet.prt r).trans (by simp)), ?_, fun m => ?_,
    quiet.aside (fun y hy => ?_) (fun y hy => ?_) (fun r hr => ?_) (fun k => ?_) ?_⟩
  · rw [quiet.rings, State.answer_rings, State.retrieved_rings, ran.rings, mirrors.rings]
  · rw [quiet.queue, State.link_answer, State.link_retrieved, ran.link, orders, mirrors.overflowOrders, mirrors.link, List.filter_append,
      ← List.append_assoc]
  · obtain ⟨other, out⟩ := not_or.mp hy
    rw [State.call_answer, State.call_retrieved_ne _ _ _ _ _ (Ne.symm other),
      ran.calls y fun h => out (mirrors.overflowCalls.mp h), mirrors.call]
  · rw [State.pos_answer, State.pos_retrieved_ne _ _ _ _ _ (Ne.symm hy), ran.panels y (Ne.symm hy), State.pos_taken]
  · rw [State.prt_answer, State.prt_retrieved, ran.parts r fun h => hr (mirrors.overflowParts.mp h), mirrors.prt]
  · rw [State.lamp_answer, State.lamp_retrieved, ran.lamp, mirrors.lamp]
  · rw [State.answer_free, State.retrieved_free, ran.free, mirrors.free]

end Retrieve

/-- Settles O25. -/
theorem retrieveSpeaksToTheHeldCall : Obligations.RetrieveSpeaksToTheHeldCall := by
  intro s c p i l h r
  refine ⟨fun plain => ?_, fun j q held room => ?_⟩
  · obtain ⟨t, run, finished, ⟨call, panel, offered⟩, again, orders, aside⟩ := r.takes_back plain
    exact ⟨t, run, finished, call, panel, offered, again, orders, aside⟩
  · obtain ⟨t, run, finished, ⟨call, panel, offered⟩, left, overflowed, rings, queued, aside⟩ := r.overflows held room
    exact ⟨t, run, finished, call, panel, offered, left, overflowed, rings, queued, aside⟩

end Sys2Proof.Machine
end

section
/-! SUPPORT. A call that an attendant takes from its roster: the capture (R27, R39, R52) and the loop it is put on (R70 to
R72). -/

namespace Sys2Proof.Machine

/-! ### Leaving a roster by answer (R39, R52) -/

/-- A call that no panel offers has left its roster by answer. -/
def State.captured (t : State) (i : Slot) : State :=
  let q := (t.call i).partition
  let t' := t.setPrt q
    { t.prt q with roster := t.restRoster i, est := (t.prt q).est.capture !(t.restRoster i).isEmpty }
  let t' := t'.numbered 1 (t.restRoster i)
  (t'.setCall i (t.call i).unlisted).alerted q

/-- The event in which the call is no longer offered. -/
def Event.unoffered (e : Event) (i : Slot) : Event := if (e.st.call i).state = .offered then e.clearOffer i else e

theorem State.restRoster_absent (t : State) (i : Slot) : i ∉ t.restRoster i := fun h => by simp [State.restRoster] at h

theorem Event.leaveRoster_captured {e f : Event} {i : Slot} (member : i ∈ (e.st.prt (e.st.call i).partition).roster)
    (clear : e.unoffered i = f) (call : f.st.call i = e.st.call i) :
    e.leaveRoster i true =
      { f with
        st := f.st.captured i, passes := f.passes.set (e.st.call i).partition true,
        touched := f.touched.set (e.st.call i).partition true } := by
  have here : ∀ c, ((f.st.setPrt (f.st.call i).partition c).numbered 1 (f.st.restRoster i)).call i = f.st.call i :=
    fun c => by rw [State.call_numbered_out _ _ _ (f.st.restRoster_absent i), State.call_setPrt]
  have swap : ∀ (x : State) q c d, (x.setCall i c).setPrt q d = (x.setPrt q d).setCall i c := fun _ _ _ _ => rfl
  have numbered : ∀ (is : List Slot) (x : State) n q d, (x.numbered n is).setPrt q d = (x.setPrt q d).numbered n is :=
    fun is => by
      induction is with
      | nil => exact fun _ _ _ _ => rfl
      | cons j js ih => exact fun x n q d => ih _ _ q d
  unfold Event.unoffered at clear
  unfold Event.leaveRoster
  dsimp only
  rw [if_pos (List.contains_iff_mem.mpr member), clear, if_pos rfl, ← call]
  unfold Event.renumber
  rw [Event.renumberFrom_eq]
  unfold Event.rosterMoved Event.updCall Event.updPrt Event.upd
  dsimp only
  have rest : (f.st.prt (f.st.call i).partition).roster.filter (· != i) = f.st.restRoster i := rfl
  simp only [State.prt_setCall, State.prt_numbered, State.prt_setPrt_self, rest, here, Event.alertTest_eq]
  unfold State.captured
  dsimp only
  rw [swap, numbered, State.setPrt_setPrt]
  rfl

section Captured

variable (t : State) (i : Slot)

@[simp] theorem State.pos_captured (p : Pos) : (t.captured i).pos p = t.pos p := by simp [State.captured]
@[simp] theorem State.lamp_captured (k : Circuit) : (t.captured i).lamp k = t.lamp k := by simp [State.captured]
@[simp] theorem State.link_captured (l : LinkIx) : (t.captured i).link l = t.link l := by simp [State.captured]
@[simp] theorem State.part_captured (q : Part) : (t.captured i).part q = t.part q := by simp [State.captured]
@[simp] theorem State.captured_rings : (t.captured i).rings = t.rings := by simp [State.captured]
@[simp] theorem State.captured_free : (t.captured i).free = t.free := by simp [State.captured]
@[simp] theorem State.captured_seconds : (t.captured i).seconds = t.seconds := by simp [State.captured]
@[simp] theorem State.captured_mem : (t.captured i).mem = t.mem := by simp [State.captured]

theorem State.call_captured_self : (t.captured i).call i = (t.call i).unlisted := by
  unfold State.captured
  dsimp only
  rw [State.call_alerted, State.call_setCall_self]

theorem State.call_captured {j : Slot} (h : i ≠ j) : ∃ x, (t.captured i).call j = { t.call j with place := x } := by
  unfold State.captured
  dsimp only
  rw [State.call_alerted, State.call_setCall_ne _ _ h]
  exact State.call_numbered_place _ 1 (t.restRoster i) j

theorem State.call_captured_out {j : Slot} (h : i ≠ j) (hj : j ∉ (t.prt (t.call i).partition).roster) :
    (t.captured i).call j = t.call j := by
  unfold State.captured
  dsimp only
  have out : j ∉ t.restRoster i := fun hm => hj (List.mem_of_mem_filter hm)
  rw [State.call_alerted, State.call_setCall_ne _ _ h, State.call_numbered_out _ _ _ out]
  rfl

theorem State.place_captured (once : (t.prt (t.call i).partition).roster.Nodup) {n : Nat} {j : Slot}
    (hj : (t.restRoster i)[n]? = some j) : ((t.captured i).call j).place = some (n + 1) := by
  have ne : i ≠ j := by
    rintro rfl
    exact t.restRoster_absent i (List.mem_of_getElem? hj)
  have nodup : (t.restRoster i).Nodup := once.filter _
  unfold State.captured
  dsimp only
  rw [State.call_alerted, State.call_setCall_ne _ _ ne, State.call_numbered _ _ _ nodup hj, Nat.add_comm 1]

theorem State.prt_captured : (t.captured i).prt (t.call i).partition =
    { t.prt (t.call i).partition with
      roster := t.restRoster i, est := (t.prt (t.call i).partition).est.capture !(t.restRoster i).isEmpty
      alert := decide ((t.part (t.call i).partition).alertLevel ≠ 0 ∧
        (t.part (t.call i).partition).alertLevel ≤ (t.restRoster i).length) } := by
  unfold State.captured
  dsimp only
  rw [State.prt_alerted, if_pos rfl]
  unfold State.alertDue
  simp only [State.prt_numbered, State.prt_setCall, State.prt_setPrt_self, State.part_numbered, State.part_setCall]
  rfl

theorem State.prt_captured_ne {q : Part} (h : q ≠ (t.call i).partition) : (t.captured i).prt q = t.prt q := by
  unfold State.captured
  dsimp only
  rw [State.prt_alerted, if_neg h.symm, State.prt_setCall, State.prt_numbered, State.prt_setPrt_ne _ _ h.symm]

theorem State.numbered_setPos (is : List Slot) (p : Pos) (y : Position) (n : Nat) (u : State) :
    (u.setPos p y).numbered n is = (u.numbered n is).setPos p y := by
  induction is generalizing u n with
  | nil => rfl
  | cons j js ih =>
    unfold State.numbered
    exact ih _ (u.setCall j { u.call j with place := some n })

theorem State.alerted_setPos (u : State) (q : Part) (p : Pos) (y : Position) :
    (u.setPos p y).alerted q = (u.alerted q).setPos p y := by
  unfold State.alerted
  dsimp only
  have due : (u.setPos p y).alertDue q = u.alertDue q := rfl
  rw [due, State.prt_setPos]
  split <;> rfl

/-- The capture and a change of a panel commute. -/
theorem State.captured_setPos (p : Pos) (y : Position) : (t.setPos p y).captured i = (t.captured i).setPos p y := by
  have swap : ∀ (x : State) c, (x.setPos p y).setCall i c = (x.setCall i c).setPos p y := fun _ _ => rfl
  unfold State.captured
  dsimp only
  rw [← State.alerted_setPos, ← swap, ← State.numbered_setPos]
  rfl

end Captured

/-- What a capture makes of an estimator (R52). -/
theorem Estimator.bare_capture (t : Estimator) (rest : List Slot) : (t.capture !rest.isEmpty).bare =
    { t with
      range := if t.counter < 64 ∧ 0 < t.range then t.range - 1 else t.range
      new := if t.counter < 64 ∧ 0 < t.range then min 255 (2 * t.counter) else t.counter
      old := if t.counter < 64 ∧ 0 < t.range then min 255 (2 * t.new) else t.new
      counter := 0, stall := false, clamped := false
      period := if rest = [] then none else some (2 ^ (t.capture !rest.isEmpty).range) } := by
  have some_rest : (!rest.isEmpty) = true ↔ rest ≠ [] := by cases rest <;> simp
  have range : (t.capture !rest.isEmpty).range = if t.counter < 64 ∧ 0 < t.range then t.range - 1 else t.range := by
    unfold Estimator.capture Estimator.downshift
    dsimp only
    split <;> rfl
  rw [range]
  unfold Estimator.capture Estimator.downshift Estimator.bare periodAt
  dsimp only
  by_cases low : t.counter < 64 ∧ 0 < t.range
  · cases rest <;> simp [low]
  · cases rest <;> simp [low]

/-! ### The loop the call is put on (R70, R71, R72) -/

/-- The record of a call that an attendant has put on a loop. -/
def Call.spokenTo (c : Call) (p : Pos) (l : LoopIx) (now : Seconds) : Call :=
  { c.enter .talking now with position := some p, loop := some l, origin := some p }

/-- The call is TALKING on the loop; its orders have not been issued. -/
def State.placed (t : State) (i : Slot) (p : Pos) (l : LoopIx) : State :=
  (t.setCall i ((t.call i).spokenTo p l t.seconds)).setPos p
    { t.pos p with loops := (t.pos p).loops.set l (some i), speaking := some l }

section Placed

variable (t : State) (i : Slot) (p : Pos) (l : LoopIx)

theorem State.call_placed_self : (t.placed i p l).call i = (t.call i).spokenTo p l t.seconds :=
  (State.call_setPos ..).trans (State.call_setCall_self ..)

theorem State.call_placed_ne {j : Slot} (h : i ≠ j) : (t.placed i p l).call j = t.call j :=
  (State.call_setPos ..).trans (State.call_setCall_ne _ _ h)

theorem State.pos_placed_self : (t.placed i p l).pos p =
    { t.pos p with loops := (t.pos p).loops.set l (some i), speaking := some l } := State.pos_setPos_self ..

theorem State.pos_placed_ne {x : Pos} (h : p ≠ x) : (t.placed i p l).pos x = t.pos x := State.pos_setPos_ne _ _ h

@[simp] theorem State.prt_placed (q : Part) : (t.placed i p l).prt q = t.prt q := rfl
@[simp] theorem State.part_placed (q : Part) : (t.placed i p l).part q = t.part q := rfl
@[simp] theorem State.lamp_placed (k : Circuit) : (t.placed i p l).lamp k = t.lamp k := rfl
@[simp] theorem State.link_placed (m : LinkIx) : (t.placed i p l).link m = t.link m := rfl
@[simp] theorem State.placed_free : (t.placed i p l).free = t.free := rfl
@[simp] theorem State.placed_rings : (t.placed i p l).rings = t.rings := rfl
@[simp] theorem State.placed_seconds : (t.placed i p l).seconds = t.seconds := rfl
@[simp] theorem State.placed_mem : (t.placed i p l).mem = t.mem := rfl

end Placed

/-- An event's notes of rosters have not changed either. -/
structure Event.Steady (e f : Event) : Prop extends Event.Only e f where
  gained : f.gained = e.gained
  passes : f.passes = e.passes

theorem Event.Steady.trans {e f g : Event} (h : e.Steady f) (k : f.Steady g) : e.Steady g :=
  ⟨h.toOnly.trans k.toOnly, k.gained.trans h.gained, k.passes.trans h.passes⟩

/-- Putting a call without a target on a loop. -/
theorem Event.placeOnLoop_places {e : Event} {i : Slot} (p : Pos) (l : LoopIx) (live : (e.st.call i).state ≠ .free)
    (target : (e.st.call i).target = none) :
    (e.placeOnLoop i p l).st = e.st.placed i p l ∧ e.Steady (e.placeOnLoop i p l) := by
  have quiet : (e.st.call i).letsGo = [] := by unfold Call.letsGo; rw [target]
  unfold Event.placeOnLoop
  rw [Event.toState_eq e live, quiet, ite_self, List.append_nil]
  refine ⟨?_, ⟨rfl, rfl, rfl, rfl⟩, rfl, rfl⟩
  unfold Event.updPos Event.updCall Event.upd State.placed
  dsimp only
  rw [State.call_setCall_self, State.setCall_setCall]
  rfl

theorem Event.issueList_steady {e : Event} {i : Slot} {os : List ShelfOrder} (room : e.st.room os) :
    e.Steady (e.issueList i os) := by
  unfold Event.issueList
  rw [Event.issueAll_send _ _ room fun o _ => .inl rfl]
  exact ⟨⟨rfl, rfl, rfl, rfl⟩, rfl, rfl⟩

/-- The call is put on the loop, and its caller is joined to the headset. -/
theorem Event.speak_speaks {e : Event} {i : Slot} {p : Pos} {l : LoopIx} {h : Circuit}
    (live : (e.st.call i).state ≠ .free) (target : (e.st.call i).target = none) (headset : (e.st.pos p).headset = some h)
    (room : e.st.room (joinOrders (e.st.call i) h)) :
    (e.speak i p l).st = (e.st.placed i p l).sendAll i (joinOrders (e.st.call i) h) ∧ e.Steady (e.speak i p l) := by
  obtain ⟨st, steady⟩ := Event.placeOnLoop_places p l live target
  unfold Event.speak
  dsimp only
  generalize e.placeOnLoop i p l = f at st steady ⊢
  have caller : (f.st.call i).caller = (e.st.call i).caller := by rw [st, State.call_placed_self]; rfl
  have panel : (f.st.pos p).headset = some h := by rw [st, State.pos_placed_self]; exact headset
  rw [panel, caller]
  have roomF : f.st.room (joinOrders (e.st.call i) h) := by rw [st]; exact room
  obtain ⟨sent, -⟩ := Event.issueList_sends (i := i) roomF
  exact ⟨sent.trans (by rw [st]), steady.trans (Event.issueList_steady roomF)⟩

end Sys2Proof.Machine
end

section
/-! SUPPORT. What ANSWER and PICK make of the call, its roster, its estimator and the position, seen at the end of the
event. -/

namespace Sys2Proof.Machine

/-- What the overflow of the call whose held expiry has acted has put into the queues. -/
def heldEntries (s : State) (i : Slot) (held : Option Slot) : List Entry :=
  match held with
  | some j => entries j (overflowOrders s j (s.call i).partition)
  | none => []

/-- The offer that the position had is gone, and its call may have overflowed: the call is ready to be taken. -/
structure Readied (s b : State) (p : Pos) (i : Slot) (held : Option Slot) : Prop where
  self : ∃ x, b.call i = { s.call i with place := x }
  members : ∀ j ∈ (s.prt (s.call i).partition).roster, (s.pos p).offered ≠ some j →
    ∃ x, b.call j = { s.call j with place := x }
  calls : ∀ j, ¬ (j ∈ (s.prt (s.call i).partition).roster ∨ (s.pos p).offered = some j ∨
    (held ≠ none ∧ overflowCalls s i (s.call i).partition j)) → b.call j = s.call j
  home : ∃ a, b.prt (s.call i).partition = { s.prt (s.call i).partition with
    roster := (s.prt (s.call i).partition).roster.filter (some · != held), alert := a }
  parts : ∀ x, ¬ (x = (s.call i).partition ∨ (held ≠ none ∧ overflowParts s (s.call i).partition x)) →
    b.prt x = s.prt x
  panel : b.pos p = { s.pos p with offered := none, missed := (b.pos p).missed }
  panels : ∀ x, p ≠ x → b.pos x = s.pos x
  lamp : ∀ k, b.lamp k = s.lamp k
  link : ∀ m, b.link m = { s.link m with
    queue := (s.link m).queue ++ (heldEntries s i held).filter fun x => linkOf x.order.first == m }
  free : b.free = s.free
  rings : b.rings = s.rings
  seconds : b.seconds = s.seconds
  plan : b.plan = s.plan

/-- The call has been captured and put on the loop, its caller joined to the headset. -/
def State.takenUp (b : State) (i : Slot) (p : Pos) (l : LoopIx) (h : Circuit) : State :=
  ((b.captured i).placed i p l).sendAll i (joinOrders (b.call i) h)

section TakenUp

variable (b : State) (i : Slot) (p : Pos) (l : LoopIx) (h : Circuit)

theorem State.call_takenUp_self : (b.takenUp i p l h).call i =
    { (b.call i).unlisted.spokenTo p l b.seconds with pending := (b.call i).pending + 2 } := by
  unfold State.takenUp
  rw [State.call_sendAll, if_pos rfl, State.call_placed_self, State.call_captured_self, State.captured_seconds]
  rfl

theorem State.call_takenUp_ne {j : Slot} (hj : i ≠ j) : (b.takenUp i p l h).call j = (b.captured i).call j := by
  unfold State.takenUp
  rw [State.call_sendAll, if_neg hj, State.call_placed_ne _ _ _ _ hj]

theorem State.pos_takenUp_self : (b.takenUp i p l h).pos p =
    { b.pos p with loops := (b.pos p).loops.set l (some i), speaking := some l } := by
  unfold State.takenUp
  rw [State.pos_sendAll, State.pos_placed_self, State.pos_captured]

theorem State.pos_takenUp_ne {x : Pos} (hx : p ≠ x) : (b.takenUp i p l h).pos x = b.pos x := by
  unfold State.takenUp
  rw [State.pos_sendAll, State.pos_placed_ne _ _ _ _ hx, State.pos_captured]

theorem State.prt_takenUp (q : Part) : (b.takenUp i p l h).prt q = (b.captured i).prt q := by
  unfold State.takenUp
  rw [State.prt_sendAll, State.prt_placed]

@[simp] theorem State.lamp_takenUp (k : Circuit) : (b.takenUp i p l h).lamp k = b.lamp k := by simp [State.takenUp]
@[simp] theorem State.takenUp_free : (b.takenUp i p l h).free = b.free := by simp [State.takenUp]
@[simp] theorem State.takenUp_seconds : (b.takenUp i p l h).seconds = b.seconds := by simp [State.takenUp]
@[simp] theorem State.takenUp_mem : (b.takenUp i p l h).mem = b.mem := by simp [State.takenUp]

theorem State.link_takenUp (m : LinkIx) : (b.takenUp i p l h).link m =
    { b.link m with
      queue := (b.link m).queue ++ (entries i (joinOrders (b.call i) h)).filter fun x => linkOf x.order.first == m } := by
  unfold State.takenUp
  rw [State.link_sendAll, State.link_placed, State.link_captured]

theorem State.takenUp_rings : (b.takenUp i p l h).rings = b.rings := by
  unfold State.takenUp
  rw [State.rings_sendAll _ _ _ (joinOrders_isRing _ _), State.placed_rings, State.captured_rings]

theorem State.extendCell_takenUp (x : Pos) : ((b.takenUp i p l h).pos x).extendCell = (b.pos x).extendCell := by
  obtain rfl | hx := eq_or_ne p x
  · rw [State.pos_takenUp_self]
  · rw [State.pos_takenUp_ne _ _ _ _ _ hx]

end TakenUp

/-- The record of a call without a target that an attendant has put on a loop. -/
theorem Call.bare_spokenTo {c : Call} (target : c.target = none) (x : Option Nat) (p : Pos) (l : LoopIx) (now : Seconds)
    (n : Nat) :
    ({ Call.spokenTo { c with place := x }.unlisted p l now with pending := n } : Call).bare =
      { onLoop c .talking now with position := some p, loop := some l, origin := some p, pending := n } := by
  have ringing : keepsRinging c.state .talking = false := by
    unfold keepsRinging
    cases c.state <;> rfl
  unfold Call.spokenTo onLoop Call.bare Call.enter Call.unlisted
  dsimp only
  rw [ringing, target]
  rfl

/-- What a quiet end leaves of a member whose place alone has been written. -/
theorem Call.Endures.memberStays {c b d : Call} (h : Call.Endures b d) {x : Option Nat}
    (same : b = { c with place := x }) : memberStays c d := by
  obtain ⟨call, queued, waiting⟩ := h
  subst same
  simp only [Call.waiting, Prod.mk.injEq] at waiting
  obtain ⟨identity, reason, partition, cls, overflowed, origin, -, wait, pending, extend⟩ := waiting
  refine ⟨by rw [identity, reason, partition, cls, overflowed, origin, wait, pending, extend]; rfl, ?_⟩
  by_cases waits : c.state = .queued
  · rcases queued waits with h | h
    · exact .inl (h.trans waits.symm)
    · exact .inr ⟨waits, h⟩
  · exact .inl (congrArg Call.state (call waits) :)

section Ready

variable {s b t : State} {p : Pos} {i : Slot} {held : Option Slot} {l : LoopIx} {h : Circuit} {c : CellIx}

theorem Readied.restRoster (r : Readied s b p i held) : b.restRoster i =
    (s.prt (s.call i).partition).roster.filter fun j => j != i && some j != held := by
  obtain ⟨x, self⟩ := r.self
  obtain ⟨a, home⟩ := r.home
  unfold State.restRoster
  rw [self]
  dsimp only
  rw [home]
  exact List.filter_filter ..

theorem Readied.part (r : Readied s b p i held) (q : Part) : b.part q = s.part q := State.part_congr r.plan q

/-- The partition's record when the call has been captured. -/
theorem Readied.captured (r : Readied s b p i held) : (b.captured i).prt (s.call i).partition =
    { s.prt (s.call i).partition with
      roster := (s.prt (s.call i).partition).roster.filter fun j => j != i && some j != held
      est := (s.prt (s.call i).partition).est.capture
        !((s.prt (s.call i).partition).roster.filter fun j => j != i && some j != held).isEmpty
      alert := decide ((s.part (s.call i).partition).alertLevel ≠ 0 ∧ (s.part (s.call i).partition).alertLevel ≤
        ((s.prt (s.call i).partition).roster.filter fun j => j != i && some j != held).length) } := by
  obtain ⟨x, self⟩ := r.self
  obtain ⟨a, home⟩ := r.home
  have here : (b.call i).partition = (s.call i).partition := by rw [self]
  have captured := b.prt_captured i
  rw [here, home, r.restRoster, r.part] at captured
  exact captured

/-- A member's record when the call has been captured. -/
theorem Readied.member (r : Readied s b p i held) {j : Slot} (other : j ≠ i)
    (member : j ∈ (s.prt (s.call i).partition).roster) (apart : (s.pos p).offered ≠ some j) :
    ∃ x, (b.takenUp i p l h).call j = { s.call j with place := x } := by
  obtain ⟨x, hx⟩ := r.members j member apart
  obtain ⟨y, hy⟩ := b.call_captured i (Ne.symm other)
  exact ⟨y, by rw [State.call_takenUp_ne _ _ _ _ _ (Ne.symm other), hy, hx]⟩

/-- The members left behind carry their places. -/
theorem Readied.places (r : Readied s b p i held) (once : (s.prt (s.call i).partition).roster.Nodup) {n : Nat} {j : Slot}
    (hj : ((b.takenUp i p l h).prt (s.call i).partition).roster[n]? = some j) :
    ((b.takenUp i p l h).call j).place = some (n + 1) := by
  obtain ⟨x, self⟩ := r.self
  obtain ⟨a, home⟩ := r.home
  rw [State.prt_takenUp, r.captured] at hj
  have out : i ≠ j := by
    rintro rfl
    have := List.mem_of_getElem? hj
    simp at this
  rw [State.call_takenUp_ne _ _ _ _ _ out]
  refine State.place_captured _ _ ?_ (by rw [r.restRoster]; exact hj)
  rw [show (b.call i).partition = (s.call i).partition by rw [self], home]
  exact once.filter _

theorem Readied.takenToLoop (r : Readied s b p i held) (from_ : FromRoster s p i l h)
    (ended : Ended ((b.takenUp i p l h).answer c .ok 0) t) (est : estimated t (s.call i).partition) :
    TakenToLoop s t p i l h held ∧ (t.pos p).missed = (b.pos p).missed := by
  have quiet := ended.quiet
  obtain ⟨x, self⟩ := r.self
  obtain ⟨a, home⟩ := r.home
  have orders : joinOrders (b.call i) h = joinOrders (s.call i) h := by rw [self]; rfl
  have prt : (t.prt (s.call i).partition).bare = ((b.captured i).prt (s.call i).partition).bare :=
    (quiet.prt _).trans (by rw [State.prt_answer, State.prt_takenUp])
  rw [r.captured] at prt
  have roster : (t.prt (s.call i).partition).roster =
      (s.prt (s.call i).partition).roster.filter fun j => j != i && some j != held := congrArg Partition.roster prt
  have alert := congrArg Partition.alert prt
  have capture := congrArg (fun y => y.est.bare) prt
  have panel : ((b.takenUp i p l h).answer c .ok 0).pos p = _ := (State.pos_answer ..).trans (State.pos_takenUp_self ..)
  rw [r.panel] at panel
  have bare := (quiet.pos p).trans (congrArg Position.bare panel)
  have missed : (t.pos p).missed = (b.pos p).missed := (congrArg Position.missed bare :)
  have call : ((b.takenUp i p l h).answer c .ok 0).call i = _ := (State.call_answer ..).trans (State.call_takenUp_self ..)
  have range := congrArg (fun y => y.range) capture
  refine ⟨⟨?_, ?_, ⟨?_, ?_⟩, roster, fun n j hj => ?_, est, fun j member other apart => ?_, ?_, ⟨fun m => ?_, ?_⟩,
    quiet.aside (fun j out => ?_) (fun y hy => ?_) (fun y out => ?_) (fun k => ?_) ?_⟩, missed⟩
  · unfold alertTested
    rw [roster]
    exact (Bool.eq_iff_iff.mp alert).trans decide_eq_true_iff
  · rw [quiet.call i (by rw [call]; exact nofun), call, self, r.seconds]
    exact Call.bare_spokenTo from_.target x p l s.seconds _
  · refine (ended.stale p ?_).1.trans (by rw [panel])
    rw [panel]
    exact Position.busy_speaking rfl
  · rw [bare, missed]
    rfl
  · have waiting := quiet.waiting j
    rw [State.call_answer] at waiting
    simp only [Call.waiting, Prod.mk.injEq] at waiting
    obtain ⟨-, -, -, -, -, -, place, -⟩ := waiting
    rw [place]
    exact r.places from_.once (by rw [State.prt_takenUp, r.captured]; rw [roster] at hj; exact hj)
  · obtain ⟨y, hy⟩ := r.member (l := l) (h := h) other member apart
    exact (quiet.endures j).memberStays ((State.call_answer ..).trans hy)
  · rw [roster]
    refine capture.trans ((Estimator.bare_capture _ _).trans ?_)
    rw [show (t.prt (s.call i).partition).est.range = _ from range]
    rfl
  · rw [quiet.queue, State.link_answer, State.link_takenUp, r.link, orders, List.filter_append, ← List.append_assoc]
    cases held <;> rfl
  · rw [quiet.rings, State.answer_rings, State.takenUp_rings, r.rings]
  · have other : i ≠ j := by
      rintro rfl
      exact out (.inl from_.member)
    rw [State.call_answer, State.call_takenUp_ne _ _ _ _ _ other, State.call_captured_out _ _ other, r.calls j out]
    rw [show (b.call i).partition = (s.call i).partition by rw [self], home]
    exact fun member => out (.inl (List.mem_of_mem_filter member))
  · rw [State.pos_answer, State.pos_takenUp_ne _ _ _ _ _ (Ne.symm hy), r.panels y (Ne.symm hy)]
  · have apart : y ≠ (b.call i).partition := fun same => out (.inl (same.trans (by rw [self])))
    rw [State.prt_answer, State.prt_takenUp, State.prt_captured_ne _ _ apart, r.parts y out]
  · rw [State.lamp_answer, State.lamp_takenUp, r.lamp]
  · rw [State.answer_free, State.takenUp_free, r.free]

end Ready

end Sys2Proof.Machine
end

section
/-! SUPPORT. ANSWER (R63, R71), and an ANSWER whose orders a full queue refuses (R14, R130); and O22. -/

namespace Sys2Proof.Machine

/-! ### The end of an event that frees no position -/

/-- An event that frees no position and gains no partition a member makes the pass of the one partition that wants it. -/
theorem Event.finish_estimates {e : Event} {q : Part} (refusals : e.refusals = [])
    (serve : ∀ k ∈ e.serve, unserved e.st k) (freed : ∀ x, e.freed x = false) (gained : e.gained = .fill false)
    (passes : e.passes = (Table.fill false).set q true)
    (places : ∀ n j, (e.st.prt q).roster[n]? = some j → (e.st.call j).place = some (n + 1)) :
    estimated e.finish q := by
  have tests : e.testPositions = e := List.foldl_fixed' (fun x => by
    have stale : ((e.st.pos x).available && !(e.start.pos x).available) = false := freed x
    unfold Event.testPosition
    rw [stale, if_neg Bool.false_ne_true]) _
  have arbiters : e.runArbiters = e := List.foldl_fixed' (fun q => by
    rw [gained, Table.get_fill, if_neg Bool.false_ne_true]) _
  unfold Event.finish
  rw [Event.settle_unserved 80 refusals serve, tests, arbiters, Event.runPasses_one passes]
  exact Event.commit_estimated ((e.pass_passed q).estimates places)

/-! ### Orders of a call on a loop that a full queue refuses (R14, R130) -/

section Choked

variable {p : Pos} {i : Slot} {l : LoopIx} {h : Circuit}

/-- The refusals of orders that found a full queue. -/
def congested (i : Slot) (os : List ShelfOrder) : List Refused :=
  os.map fun o => { slot := i, order := o, handover := false, lost := false }

theorem Event.issueList_congests {e : Event} {os : List ShelfOrder} (full : ∀ o ∈ os, fullLink e.st o.first) :
    (e.issueList i os).st = e.st ∧ (e.issueList i os).refusals = e.refusals ++ congested i os ∧
      (e.issueList i os).serve = e.serve := by
  induction os generalizing e with
  | nil => exact ⟨rfl, (List.append_nil _).symm, rfl⟩
  | cons o os ih =>
    obtain ⟨running, space⟩ := full o List.mem_cons_self
    have step : e.issueAs .ordinary (some i) o false =
        { e.note (some i) o with
          refusals := e.refusals ++ [{ slot := i, order := o, handover := false, lost := false }] } := by
      have st : (e.note (some i) o).st = e.st := rfl
      unfold Event.issueAs
      dsimp only
      rw [st, if_neg (by simp), if_neg (by rw [running]; decide), if_neg (by unfold Config.queueMax; omega)]
      rfl
    have fold : e.issueList i (o :: os) = (e.issueAs .ordinary (some i) o false).issueList i os := rfl
    obtain ⟨st, refusals, serve⟩ := ih (e := e.issueAs .ordinary (some i) o false) (by
      rw [step]
      exact fun x hx => full x (List.mem_cons_of_mem _ hx))
    rw [fold, st, refusals, serve, step]
    exact ⟨rfl, List.append_assoc .., rfl⟩

/-- The call has left its loop after a path fault; with nothing pending it is free. -/
def State.faulted (t : State) (i : Slot) (p : Pos) (l : LoopIx) : State :=
  let t' := t.hungUp i p l .pathFault
  if (t.call i).pending = 0 then t'.freed i else t'

/-- A TALKING call on a loop whose shelf orders all find a full queue. -/
structure Choked (t : State) (i : Slot) (p : Pos) (l : LoopIx) (h : Circuit) : Prop where
  talking : (t.call i).state = .talking
  position : (t.call i).position = some p
  loop : (t.call i).loop = some l
  here : (t.pos p).loops.get l = some i
  headset : (t.pos p).headset = some h
  noOrder : (t.call i).extend = none
  target : (t.call i).target = none
  full : fullLink t (t.call i).caller

/-- The path fault of such a call. -/
theorem Choked.faults {e : Event} (k : Choked e.st i p l h) (refusals : e.refusals = []) :
    (e.pathFault i).st = e.st.faulted i p l ∧ e.Only (e.pathFault i) := by
  have headset : e.st.headsetOf (e.st.call i) = some h := by
    unfold State.headsetOf
    rw [k.position]
    exact k.headset
  have orders : e.st.endOrders i .pathFault = [.part (e.st.call i).caller h, .drop (e.st.call i).caller] := by
    unfold State.endOrders teardown EndReason.drops
    rw [k.talking, k.noOrder, headset]
    rfl
  obtain ⟨f, closed, st, only⟩ := Event.close_onLoop (why := .pathFault) (.inl k.talking) k.position k.loop k.here
    k.noOrder rfl nofun
  have dropped : ∀ o ∈ e.st.endOrders i .pathFault, f.st.drops o := by
    have full : fullLink f.st (e.st.call i).caller := by rw [st]; exact k.full
    rw [orders]
    intro o ho
    simp only [List.mem_cons, List.not_mem_nil, or_false] at ho
    rcases ho with rfl | rfl <;> exact .inr (.inr full)
  obtain ⟨sent, onlySent⟩ := Event.issueTeardown_drops (i := i) dropped
  have faulted : e.pathFault i = (f.issueTeardown i (e.st.endOrders i .pathFault)).freeIfDone i := closed
  rw [faulted]
  generalize f.issueTeardown i (e.st.endOrders i .pathFault) = g at sent onlySent ⊢
  rw [st] at sent
  have hung : g.st.call i = { (e.st.call i).enter .closing e.st.seconds with endReason := some .pathFault } := by
    rw [sent, State.call_hungUp_self]
  have only' := only.trans onlySent
  unfold State.faulted
  dsimp only
  by_cases pending : (e.st.call i).pending = 0
  · obtain ⟨freed, onlyFreed⟩ := Event.freeIfDone_frees (e := g) (i := i) (only'.refusals.trans refusals)
      (by rw [hung]; rfl) (by rw [hung]; exact pending) (by rw [hung]; exact k.target)
    rw [if_pos pending, freed, sent]
    exact ⟨rfl, only'.trans onlyFreed⟩
  · rw [Event.freeIfDone_pending (by rw [hung]; exact pending), if_neg pending, sent]
    exact ⟨rfl, only'⟩

theorem State.call_faulted (t : State) (i : Slot) (p : Pos) (l : LoopIx) :
    ((t.faulted i p l).call i).ended ∧
      ((t.call i).pending ≠ 0 → ((t.faulted i p l).call i).state = .closing ∧
        ((t.faulted i p l).call i).pending = (t.call i).pending) ∧
      ((t.call i).pending = 0 → ((t.faulted i p l).call i).state = .free) := by
  unfold State.faulted
  dsimp only
  by_cases pending : (t.call i).pending = 0
  · rw [if_pos pending, State.call_freed_self]
    exact ⟨.inr rfl, fun h => absurd pending h, fun _ => rfl⟩
  · rw [if_neg pending, State.call_hungUp_self]
    exact ⟨.inl rfl, fun _ => ⟨rfl, rfl⟩, fun h => absurd h pending⟩

/-- Refusals that reach a call which has ended change nothing. -/
theorem Event.takeRefusal_ended {e : Event} {r : Refused} (ended : (e.st.call r.slot).ended) (plain : r.handover = false) :
    e.takeRefusal r = e := by
  unfold Event.takeRefusal
  dsimp only
  rcases ended with ended | ended
  · rw [ended]
    dsimp only
    rw [plain, if_neg Bool.false_ne_true]
  · rw [ended]

theorem Event.freeIfDone_other {e : Event} (open_ : (e.st.call i).state ≠ .closing) : e.freeIfDone i = e := by
  unfold Event.freeIfDone Event.freeSlot
  dsimp only
  rw [if_neg (c := _ ∧ _) fun h => open_ h.1, ite_self]

theorem Event.foldl_still {α : Type} {f : Event → α → Event} {e : Event} {xs : List α} (h : ∀ x ∈ xs, f e x = e) :
    xs.foldl f e = e := by
  induction xs with
  | nil => rfl
  | cons x xs ih =>
    rw [List.foldl_cons, h x List.mem_cons_self]
    exact ih fun y hy => h y (List.mem_cons_of_mem x hy)

/-- The orders of an event that a full queue has refused are one path fault of their call. -/
theorem Choked.settles {e : Event} {o : ShelfOrder} {os : List ShelfOrder} (k : Choked e.st i p l h)
    (refusals : e.refusals = congested i (o :: os)) (serve : e.serve = []) :
    ∃ f : Event, e.finish = f.finish ∧ f.st = e.st.faulted i p l ∧ f.refusals = [] ∧ f.serve = [] := by
  obtain ⟨st, only⟩ := Choked.faults (e := { e with refusals := [] }) k rfl
  generalize faulted : Event.pathFault { e with refusals := [] } i = f at st only
  obtain ⟨ended, closing, free⟩ := e.st.call_faulted i p l
  have own : ∀ r ∈ congested i (o :: os), r.slot = i ∧ r.handover = false := fun r hr => by
    obtain ⟨x, -, rfl⟩ := List.mem_map.mp hr
    exact ⟨rfl, rfl⟩
  have first : Event.takeRefusal { e with refusals := [] } { slot := i, order := o, handover := false, lost := false } = f := by
    rw [← faulted]
    unfold Event.takeRefusal
    dsimp only
    rw [k.talking]
    rfl
  have rest : (congested i os).foldl Event.takeRefusal f = f := Event.foldl_still fun r hr => by
    obtain ⟨slot, plain⟩ := own r (List.mem_cons_of_mem _ hr)
    exact Event.takeRefusal_ended (by rw [slot, st]; exact ended) plain
  have freed : (congested i (o :: os)).foldl (fun e r => e.freeIfDone r.slot) f = f := Event.foldl_still fun r hr => by
    obtain ⟨slot, -⟩ := own r hr
    rw [slot]
    by_cases pending : (e.st.call i).pending = 0
    · exact Event.freeIfDone_other (by rw [st, show (State.call _ i).state = .free from free pending]; decide)
    · exact Event.freeIfDone_pending (by rw [st, (closing pending).2]; exact pending)
  have taken : e.takeRefusals = f := by
    unfold Event.takeRefusals
    dsimp only
    rw [refusals]
    have split : (congested i (o :: os)).foldl Event.takeRefusal { e with refusals := [] } =
        (congested i os).foldl Event.takeRefusal
          (Event.takeRefusal { e with refusals := [] } { slot := i, order := o, handover := false, lost := false }) := rfl
    rw [split, first, rest, freed]
  have quiet : f.refusals = [] ∧ f.serve = [] := ⟨only.refusals, only.serve.trans serve⟩
  have settled : e.settle 80 = f := by
    unfold Event.settle
    dsimp only
    rw [taken, Event.serveCamps_nil quiet.2, quiet.1]
    rfl
  refine ⟨f, ?_, st, quiet⟩
  unfold Event.finish
  rw [settled, Event.settle_nil 80 quiet.1 quiet.2]

end Choked

/-! ### The event of the answer -/

section Answer

variable {s : State} {c : CellIx} {p : Pos} {i : Slot} {l : LoopIx} {h : Circuit}

/-- The position has no offer any more and has missed none. -/
def State.answering (s : State) (c : CellIx) (p : Pos) : State :=
  (s.taken c).setPos p { s.pos p with offered := none, missed := 0 }

theorem State.call_answering (s : State) (c : CellIx) (p : Pos) (j : Slot) : (s.answering c p).call j = s.call j :=
  s.call_taken c j

theorem State.prt_answering (s : State) (c : CellIx) (p : Pos) (q : Part) : (s.answering c p).prt q = s.prt q :=
  s.prt_taken c q

theorem State.link_answering (s : State) (c : CellIx) (p : Pos) (m : LinkIx) : (s.answering c p).link m = s.link m :=
  s.link_taken c m

theorem State.lamp_answering (s : State) (c : CellIx) (p : Pos) (k : Circuit) : (s.answering c p).lamp k = s.lamp k :=
  s.lamp_taken c k

theorem State.answering_readied (s : State) (c : CellIx) (p : Pos) (i : Slot) :
    Readied s (s.answering c p) p i none where
  self := ⟨(s.call i).place, s.call_taken c i⟩
  members := fun j _ _ => ⟨(s.call j).place, s.call_taken c j⟩
  calls := fun j _ => s.call_taken c j
  home := ⟨(s.prt (s.call i).partition).alert, by
    have all : ((s.prt (s.call i).partition).roster.filter fun j => some j != none) =
        (s.prt (s.call i).partition).roster := List.filter_eq_self.mpr fun _ _ => rfl
    rw [all]
    exact s.prt_taken c _⟩
  parts := fun x _ => s.prt_taken c x
  panel := by
    have panel : (s.answering c p).pos p = { s.pos p with offered := none, missed := 0 } := State.pos_setPos_self ..
    rw [panel]
  panels := fun x hx => (State.pos_setPos_ne _ _ hx).trans (s.pos_taken c x)
  lamp := fun k => s.lamp_taken c k
  link := fun m => by
    have none : ((heldEntries s i none).filter fun x => linkOf x.order.first == m) = [] := rfl
    rw [none, List.append_nil]
    exact s.link_taken c m
  free := s.taken_free c
  rings := s.taken_rings c
  seconds := s.taken_seconds c
  plan := s.taken_plan c

theorem FromRoster.emptyLoop (r : FromRoster s p i l h) : (s.pos p).emptyLoop = some l := by
  unfold Position.emptyLoop
  rw [List.find?_eq_some_iff_getElem]
  refine ⟨Option.isNone_iff_eq_none.mpr r.loop, l.val, by simp, by simp, fun j hj => ?_⟩
  have lt : j < 4 := hj.trans l.isLt
  have used := r.lowest ⟨j, lt⟩ hj
  simpa [Option.isNone_iff_eq_none] using Option.ne_none_iff_isSome.mp used

/-- ANSWER: the call has left its roster, and the offer is gone. -/
theorem AnswerTakes.answers (r : AnswerTakes s c p i l h) :
    ∃ f, (Event.taking s c).own c .answerK = ((f.speak i p l), some (.ok, 0)) ∧
      f.st = (s.answering c p).captured i ∧ (Event.taking s c).Only f ∧ f.gained = .fill false ∧
      f.passes = (Table.fill false).set (s.call i).partition true := by
  have own : (Event.taking s c).own c .answerK =
      ((((Event.taking s c).leaveRoster i true).updPos p fun q => { q with offered := none, missed := 0 }).speak i p l,
        some (.ok, 0)) := by
    rw [r.own_eq]
    dsimp only
    unfold Event.ownAnswer
    dsimp only
    rw [Event.taking_st, State.pos_taken, if_neg (by simp [r.isOpen]), r.offer, r.toFromRoster.emptyLoop]
    rfl
  have clear : (Event.taking s c).unoffered i = (Event.taking s c).updPos p fun q => { q with offered := none } := by
    unfold Event.unoffered Event.clearOffer
    rw [Event.taking_st, State.call_taken, if_pos r.offered, r.names]
    dsimp only
    rw [State.pos_taken, if_pos r.offer]
  have left := Event.leaveRoster_captured (e := Event.taking s c) (i := i) (by simpa using r.member) clear rfl
  rw [Event.taking_st, State.call_taken] at left
  refine ⟨_, own, ?_, ?_, ?_, ?_⟩
  · rw [left]
    have unoffered : ((Event.taking s c).updPos p fun q => { q with offered := none }).st =
        (s.taken c).setPos p { s.pos p with offered := none } := by
      rw [← s.pos_taken c]
      rfl
    unfold State.answering
    rw [State.captured_setPos, unoffered, State.captured_setPos]
    have twice : ∀ (t : State) (x y : Position), (t.setPos p x).setPos p y = t.setPos p y := fun t x y => by
      have tables : (t.positions.set p x).set p y = t.positions.set p y := Table.ext_get fun z => by
        simp only [Table.get_set]
        split <;> rfl
      unfold State.setPos
      dsimp only
      rw [tables]
    unfold Event.updPos Event.upd
    dsimp only
    rw [State.pos_setPos_self, twice]
  · rw [left]
    exact ⟨rfl, rfl, rfl, rfl⟩
  · rw [left]
    rfl
  · rw [left]
    rfl

theorem AnswerTakes.awaits_answering (r : AnswerTakes s c p i l h) : (s.answering c p).awaits c :=
  r.awaits.of_eq rfl rfl fun q => by
    unfold State.answering
    obtain rfl | hq := eq_or_ne p q
    · rw [State.pos_setPos_self, State.pos_taken]
    · rw [State.pos_setPos_ne _ _ hq]

/-- An ANSWER with room for its orders. -/
theorem AnswerReady.takes (r : AnswerReady s c p i l h) :
    ∃ t, exec .answerOrder s = .next t ∧ t.finished c .ok 0 ∧ TakenToLoop s t p i l h none ∧ (t.pos p).missed = 0 := by
  have ready := s.answering_readied c p i
  obtain ⟨f, own, st, only, gained, passes⟩ := r.answers
  have call : f.st.call i = (s.call i).unlisted := by
    rw [st, State.call_captured_self]
    exact congrArg Call.unlisted (s.call_taken c i)
  have orders : joinOrders (((s.answering c p).captured i).call i) h = joinOrders ((s.answering c p).call i) h := by
    rw [State.call_captured_self]
    rfl
  obtain ⟨spoken, steady⟩ := Event.speak_speaks (e := f) (i := i) (p := p) (l := l) (h := h)
    (by rw [call]; show (s.call i).state ≠ _; rw [r.offered]; decide) (by rw [call]; exact r.target)
    (by rw [st, State.pos_captured, ready.panel]; exact r.headset)
    (by
      rw [call]
      intro o ho
      rw [st, State.link_captured, show (s.answering c p).link = s.link from funext (s.link_taken c)]
      exact r.room o ho)
  rw [st, orders] at spoken
  have done : (f.speak i p l).st = (s.answering c p).takenUp i p l h := spoken
  have only' := only.trans steady.toOnly
  generalize f.speak i p l = g at own done only' steady
  obtain ⟨run, finished, ended⟩ := r.ends own done only'.refusals (by rw [only'.serve]; exact nofun)
    (r.awaits_answering.of_eq (by simp) (by simp) fun q => State.extendCell_takenUp ..)
  have replied : (g.replied c .ok).st = ((s.answering c p).takenUp i p l h).answer c .ok 0 := by
    rw [Event.replied_st, done]
  have estimates : estimated (g.replied c .ok).finish (s.call i).partition := by
    refine Event.finish_estimates (e := g.replied c .ok) only'.refusals
      (by rw [Event.replied_serve, only'.serve]; exact nofun) (fun x => ?_) (steady.gained.trans gained)
      (steady.passes.trans passes) fun n j hj => ?_
    · unfold Event.freed
      rw [replied, State.pos_answer, Event.replied_start, only'.start, Event.taking_start, State.pos_refuseStales]
      obtain rfl | hx := eq_or_ne p x
      · have busy : (((s.answering c p).takenUp i p l h).pos p).available = false := by
          rw [State.pos_takenUp_self]
          exact Position.busy_speaking rfl
        rw [busy, Bool.false_and]
      · rw [State.pos_takenUp_ne _ _ _ _ _ hx, ready.panels x hx, Bool.and_not_self]
    · rw [replied, State.call_answer]
      rw [replied, State.prt_answer] at hj
      exact ready.places r.once hj
  obtain ⟨taken, missed⟩ := ready.takenToLoop r.toFromRoster ended estimates
  refine ⟨_, run, finished, taken, missed.trans ?_⟩
  exact congrArg Position.missed (State.pos_setPos_self ..)

/-- A call whose caller's link has a full queue is put on a loop; its orders are refused. -/
theorem Event.speak_congests {e : Event} (live : (e.st.call i).state ≠ .free) (target : (e.st.call i).target = none)
    (headset : (e.st.pos p).headset = some h) (full : fullLink e.st (e.st.call i).caller) :
    (e.speak i p l).st = e.st.placed i p l ∧
      (e.speak i p l).refusals = e.refusals ++ congested i (joinOrders (e.st.call i) h) ∧
      (e.speak i p l).serve = e.serve := by
  obtain ⟨st, steady⟩ := Event.placeOnLoop_places p l live target
  unfold Event.speak
  dsimp only
  generalize e.placeOnLoop i p l = f at st steady ⊢
  have caller : (f.st.call i).caller = (e.st.call i).caller := by rw [st, State.call_placed_self]; rfl
  have panel : (f.st.pos p).headset = some h := by rw [st, State.pos_placed_self]; exact headset
  rw [panel, caller]
  obtain ⟨same, refusals, serve⟩ := Event.issueList_congests (e := f) (i := i) (os := joinOrders (e.st.call i) h) (by
    intro o ho
    rw [st]
    simp only [joinOrders, List.mem_cons, List.not_mem_nil, or_false] at ho
    rcases ho with rfl | rfl <;> exact full)
  exact ⟨same.trans st, refusals.trans (by rw [steady.refusals]), serve.trans steady.serve⟩

/-- The record of the call that has ended in the event of its answer. -/
theorem Call.bare_faulted {c : Call} (target : c.target = none) (p : Pos) (l : LoopIx) (now : Seconds) :
    ({ (Call.spokenTo c.unlisted p l now).enter .closing now with endReason := some .pathFault } : Call).bare =
      { offLoops c .closing now with origin := some p, endReason := some .pathFault } := by
  unfold offLoops onLoop Call.bare Call.spokenTo Call.enter Call.unlisted
  dsimp only
  rw [target]
  rfl

theorem Call.bare_freed {c : Call} (target : c.target = none) (p : Pos) (l : LoopIx) (now : Seconds) :
    (Call.enter { (Call.spokenTo c.unlisted p l now).enter .closing now with endReason := some .pathFault } .free
      now).bare = { offLoops c .free now with origin := some p, endReason := some .pathFault } := by
  unfold offLoops onLoop Call.bare Call.spokenTo Call.enter Call.unlisted
  dsimp only
  rw [target]
  rfl

/-- A quiet end leaves the free list alone. -/
theorem Quiet.setFree {w t : State} (quiet : Quiet w t) (f : List Slot) : Quiet (w.setFree f) (t.setFree f) :=
  { quiet with free := rfl }

/-- A quiet end leaves everything aside but the free list. -/
theorem Quiet.asideFree {s w t : State} {call : Slot → Prop} {pos : Pos → Prop} {prt : Part → Prop} (quiet : Quiet w t)
    (calls : ∀ i, ¬ call i → w.call i = s.call i) (panels : ∀ p, ¬ pos p → w.pos p = s.pos p)
    (parts : ∀ q, ¬ prt q → w.prt q = s.prt q) (lamps : ∀ k, w.lamp k = s.lamp k) :
    Aside s { t with free := s.free } call pos prt fun _ => False :=
  (quiet.setFree s.free).aside calls panels parts lamps rfl

theorem AnswerTakes.chokes (r : AnswerTakes s c p i l h) (full : fullLink s (s.call i).caller)
    (noOrder : (s.call i).extend = none) :
    ∃ f : Event, exec .answerOrder s = .next f.finish ∧ f.finish.finished c .ok 0 ∧
      f.st = ((((s.answering c p).captured i).placed i p l).answer c .ok 0).faulted i p l ∧
      f.refusals = [] ∧ f.serve = [] := by
  have ready := s.answering_readied c p i
  have was : (s.answering c p).call i = s.call i := s.call_taken c i
  have panel : (s.answering c p).pos p = _ := State.pos_setPos_self ..
  obtain ⟨f, own, st, only, -, -⟩ := r.answers
  have call : f.st.call i = (s.call i).unlisted := by rw [st, State.call_captured_self, was]
  obtain ⟨placed, refusals, serve⟩ := Event.speak_congests (e := f) (i := i) (p := p) (l := l) (h := h)
    (by rw [call]; show (s.call i).state ≠ _; rw [r.offered]; decide) (by rw [call]; exact r.target)
    (by rw [st, State.pos_captured, panel]; exact r.headset)
    (by
      rw [call]
      unfold fullLink
      rw [st, State.link_captured, show (s.answering c p).link = s.link from funext (s.link_taken c)]
      exact full)
  rw [only.refusals, Event.taking_refusals, List.nil_append] at refusals
  rw [only.serve, Event.taking_serve] at serve
  rw [st] at placed
  generalize f.speak i p l = g at own placed refusals serve
  obtain ⟨run, finished⟩ := r.replies own (by
    rw [placed]
    exact r.awaits_answering.of_eq (by simp) (by simp) fun q => by
      obtain rfl | hq := eq_or_ne p q
      · rw [State.pos_placed_self, State.pos_captured]
      · rw [State.pos_placed_ne _ _ _ _ hq, State.pos_captured])
  have replied : (g.replied c .ok).st = (((s.answering c p).captured i).placed i p l).answer c .ok 0 := by
    rw [Event.replied_st, placed]
  have spoken : ((g.replied c .ok).st.call i) = (s.call i).unlisted.spokenTo p l s.seconds := by
    rw [replied, State.call_answer, State.call_placed_self, State.call_captured_self, was, State.captured_seconds,
      ready.seconds]
  have desk : (g.replied c .ok).st.pos p = _ :=
    (congrArg (fun x => State.pos x p) replied).trans ((State.pos_answer ..).trans (State.pos_placed_self ..))
  rw [State.pos_captured, panel] at desk
  have choked : Choked (g.replied c .ok).st i p l h :=
    { talking := by rw [spoken]; rfl
      position := by rw [spoken]; rfl
      loop := by rw [spoken]; rfl
      here := by rw [desk]; exact Table.get_set_self ..
      headset := by rw [desk]; exact r.headset
      noOrder := by rw [spoken]; exact noOrder
      target := by rw [spoken]; rfl
      full := by
        unfold fullLink
        rw [spoken, replied, State.link_answer, State.link_placed, State.link_captured,
          show (s.answering c p).link = s.link from funext (s.link_taken c)]
        exact full }
  obtain ⟨f', same, st', quiet⟩ := choked.settles (e := g.replied c .ok) (os := [.tone (f.st.call i).caller .quiet])
    (o := .join (f.st.call i).caller h) refusals serve
  rw [same] at run finished
  exact ⟨f', run, finished, by rw [st', replied], quiet⟩

theorem Quiet.roster {w t : State} (quiet : Quiet w t) (q : Part) : (t.prt q).roster = (w.prt q).roster :=
  (congrArg Partition.roster (quiet.prt q) :)

/-- What the path fault leaves besides the call. -/
theorem State.faulted_rest (t : State) (i : Slot) (p : Pos) (l : LoopIx) :
    (∀ j, i ≠ j → (t.faulted i p l).call j = t.call j) ∧ (t.faulted i p l).pos p = (t.pos p).without l ∧
      (∀ x, p ≠ x → (t.faulted i p l).pos x = t.pos x) ∧ (∀ q, (t.faulted i p l).prt q = t.prt q) ∧
      (∀ k, (t.faulted i p l).lamp k = t.lamp k) ∧ (∀ m, (t.faulted i p l).link m = t.link m) ∧
      (t.faulted i p l).rings = t.rings ∧
      (t.faulted i p l).free = if (t.call i).pending = 0 then t.free ++ [i] else t.free := by
  unfold State.faulted
  dsimp only
  split
  · exact ⟨fun j hj => (State.call_freed_ne _ _ hj).trans (State.call_hungUp_ne _ _ _ _ _ hj), State.pos_hungUp_self t i p l .pathFault,
      fun x hx => State.pos_hungUp_ne t i p l .pathFault hx, fun _ => rfl, fun _ => rfl, fun _ => rfl, rfl, rfl⟩
  · exact ⟨fun j hj => State.call_hungUp_ne _ _ _ _ _ hj, State.pos_hungUp_self t i p l .pathFault,
      fun x hx => State.pos_hungUp_ne t i p l .pathFault hx, fun _ => rfl, fun _ => rfl, fun _ => rfl, rfl, rfl⟩

theorem AnswerTakes.congests (r : AnswerTakes s c p i l h) (full : fullLink s (s.call i).caller)
    (noOrder : (s.call i).extend = none) :
    ∃ t, exec .answerOrder s = .next t ∧ t.finished c .ok 0 ∧
      (t.call i).bare =
        { offLoops (s.call i) (if (s.call i).pending = 0 then .free else .closing) s.seconds with
          origin := some p, endReason := some .pathFault } ∧
      t.free = (if (s.call i).pending = 0 then s.free ++ [i] else s.free) ∧
      (t.pos p).bare = { (s.pos p).bare with speaking := none, flash := (s.pos p).flash.set l false, missed := 0 } ∧
      (t.prt (s.call i).partition).roster = (s.prt (s.call i).partition).roster.filter (· != i) ∧ silent s t ∧
      Aside s { t with free := s.free } (· ∈ (s.prt (s.call i).partition).roster) (· = p)
        (· = (s.call i).partition) fun _ => False := by
  have ready := s.answering_readied c p i
  have was : (s.answering c p).call i = s.call i := s.call_taken c i
  have panel : (s.answering c p).pos p = _ := State.pos_setPos_self ..
  obtain ⟨f, run, finished, st, refusals, serve⟩ := r.chokes full noOrder
  have quiet : Quiet f.st f.finish := (Event.finish_quietEnd refusals (by rw [serve]; exact nofun)).quiet
  generalize f.finish = t at run finished quiet
  rw [st] at quiet
  clear st
  obtain ⟨calls, pos, panels, prt, lamp, link, rings, free⟩ :=
    State.faulted_rest ((((s.answering c p).captured i).placed i p l).answer c .ok 0) i p l
  have spoken : ((((s.answering c p).captured i).placed i p l).answer c .ok 0).call i =
      (s.call i).unlisted.spokenTo p l s.seconds := by
    rw [State.call_answer, State.call_placed_self, State.call_captured_self, was, State.captured_seconds, ready.seconds]
  have listed : (((((s.answering c p).captured i).placed i p l).answer c .ok 0).prt (s.call i).partition).roster =
      (s.prt (s.call i).partition).roster.filter (· != i) := by
    rw [State.prt_answer, State.prt_placed, ready.captured]
    exact congrArg (fun f => List.filter f _) (funext fun _ => Bool.and_true _)
  have ended := quiet.call i (fun waits => by
    rcases (State.call_faulted ((((s.answering c p).captured i).placed i p l).answer c .ok 0) i p l).1 with
      state | state <;> exact absurd (state.symm.trans waits) nofun)
  refine ⟨t, run, finished, ?_, ?_, ?_, ?_, quiet.silent (fun m => ?_) ?_, ?_⟩
  · rw [ended]
    unfold State.faulted
    rw [spoken]
    dsimp only
    have pending : ((s.call i).unlisted.spokenTo p l s.seconds).pending = (s.call i).pending := rfl
    have seconds : ((((s.answering c p).captured i).placed i p l).answer c .ok 0).seconds = s.seconds := by
      rw [State.answer_seconds, State.placed_seconds, State.captured_seconds, ready.seconds]
    rw [pending]
    split
    · rw [State.call_freed_self, State.call_hungUp_self, State.hungUp_seconds, spoken, seconds]
      exact Call.bare_freed r.target p l s.seconds
    · rw [State.call_hungUp_self, spoken, seconds]
      exact Call.bare_faulted r.target p l s.seconds
  · rw [quiet.free, free, spoken, State.answer_free, State.placed_free, State.captured_free, ready.free]
    rfl
  · rw [quiet.pos, pos, State.pos_answer, State.pos_placed_self, State.pos_captured, panel]
    have loops : (((s.pos p).loops.set l (some i)).set l none) = (s.pos p).loops := Table.ext_get fun x => by
      rw [Table.get_set, Table.get_set]
      split
      · next same => rw [← same, r.loop]
      · rfl
    unfold Position.without Position.bare
    dsimp only
    rw [loops, if_pos rfl]
  · rw [quiet.roster, prt, listed]
  · rw [link, State.link_answer, State.link_placed, State.link_captured, State.link_answering]
  · rw [rings, State.answer_rings, State.placed_rings, State.captured_rings, ready.rings]
  · refine quiet.asideFree (fun j out => ?_) (fun x hx => ?_) (fun q hq => ?_) fun k => ?_
    · have ne : i ≠ j := by
        rintro rfl
        exact out r.member
      refine (calls j ne).trans ?_
      rw [State.call_answer, State.call_placed_ne _ _ _ _ ne, State.call_captured_out _ _ ne, State.call_answering]
      rw [was, State.prt_answering]
      exact out
    · refine (panels x (Ne.symm hx)).trans ?_
      rw [State.pos_answer, State.pos_placed_ne _ _ _ _ (Ne.symm hx), State.pos_captured, ready.panels x (Ne.symm hx)]
    · refine (prt q).trans ?_
      rw [State.prt_answer, State.prt_placed, State.prt_captured_ne _ _ (by rw [was]; exact hq),
        State.prt_answering]
    · refine (lamp k).trans ?_
      rw [State.lamp_answer, State.lamp_placed, State.lamp_captured, State.lamp_answering]

end Answer

/-- Settles O22. -/
theorem answerPutsTheOfferedCallOnALoop : Obligations.AnswerPutsTheOfferedCallOnALoop :=
  ⟨fun _ _ _ _ _ _ r => r.takes, fun _ _ _ _ _ _ r full noOrder => r.congests full noOrder⟩

end Sys2Proof.Machine
end

section
/-! SUPPORT. A pass of estimates at the end of an event in which arbiters may run (R35, R57); PICK (R63, R72); and O23. -/

namespace Sys2Proof.Machine

/-! ### A pass that an event has asked for is made (R57) -/

section Wanted

variable {q : Part}

theorem Event.offer_wants {e : Event} (i : Slot) (x : Pos) (h : e.passes.get q = true) :
    (e.offer i x).passes.get q = true := by
  have moved : (e.toState i .offered).passes = e.passes := by
    by_cases free : (e.st.call i).state = .free
    · rw [Event.toState_free e free]
    · rw [Event.toState_eq e free]
  show ((e.toState i .offered).passes.set _ true).get q = true
  rw [moved, Table.get_set, h, ite_self]

theorem Event.stepA_wants {e : Event} (p : Part) (i : Slot) (h : e.passes.get q = true) :
    (e.stepA p i).passes.get q = true := by
  unfold Event.stepA
  dsimp only
  split
  · split
    · exact e.offer_wants i _ h
    · exact h
  · exact h

theorem Event.stepB_wants {e : Event} (p : Part) (n : Nat) (h : e.passes.get q = true) :
    (e.stepB p n).passes.get q = true := by
  induction n generalizing e with
  | zero => exact h
  | succ n ih =>
    unfold Event.stepB
    split
    · exact ih (e.offer_wants _ _ h)
    · exact h

theorem Event.testPosition_wants {e : Event} (x : Pos) (h : e.passes.get q = true) :
    (e.testPosition x).passes.get q = true := by
  unfold Event.testPosition
  split
  · have idle : (if e.keepIdle.contains x then e
        else e.upd fun s => s.setPos x { s.pos x with idleSince := s.seconds }).passes = e.passes := by
      split <;> rfl
    dsimp only
    split
    · exact (congrArg (fun t => t.get q) idle).trans h
    · exact (congrArg (fun t => t.get q) idle).trans h
  · exact h

theorem Event.foldl_wants {α : Type} {f : Event → α → Event}
    (step : ∀ e x, e.passes.get q = true → (f e x).passes.get q = true) (xs : List α) {e : Event}
    (h : e.passes.get q = true) : (xs.foldl f e).passes.get q = true := by
  induction xs generalizing e with
  | nil => exact h
  | cons x xs ih => exact ih (step e x h)

/-- Neither the tests of availability nor the arbiters take back a wish for a pass. -/
theorem Event.arbiters_want {e : Event} (h : e.passes.get q = true) :
    e.testPositions.runArbiters.passes.get q = true :=
  Event.foldl_wants (fun e p h => by
      split
      · exact (Event.foldl_wants (fun e i h => e.stepA_wants p i h) _ h |> Event.stepB_wants p 8)
      · exact h) _
    (Event.foldl_wants (fun e x h => e.testPosition_wants x h) _ h)

end Wanted

/-! ### The passes of other partitions -/

/-- From one state to the other, nothing has happened that partition `q`'s estimates depend on, and no roster has
changed. -/
structure Aloof (q : Part) (u v : State) : Prop where
  prt : v.prt q = u.prt q
  plan : v.plan = u.plan
  roster : ∀ r, (v.prt r).roster = (u.prt r).roster
  call : ∀ j ∈ (u.prt q).roster, v.call j = u.call j

/-- No other roster holds a member of this one. -/
def State.apartRoster (u : State) (q : Part) : Prop :=
  ∀ r, r ≠ q → ∀ j ∈ (u.prt r).roster, j ∉ (u.prt q).roster

section Aloof

variable {q : Part} {u v w : State}

theorem Aloof.refl (u : State) : Aloof q u u := ⟨rfl, rfl, fun _ => rfl, fun _ _ => rfl⟩

theorem Aloof.trans (h : Aloof q u v) (k : Aloof q v w) : Aloof q u w where
  prt := k.prt.trans h.prt
  plan := k.plan.trans h.plan
  roster := fun r => (k.roster r).trans (h.roster r)
  call := fun j hj => (k.call j (by rw [h.roster]; exact hj)).trans (h.call j hj)

theorem Aloof.apart (h : Aloof q u v) (apart : u.apartRoster q) : v.apartRoster q := fun r ne j hj => by
  rw [h.roster] at hj ⊢
  exact apart r ne j hj

theorem Aloof.places (h : Aloof q u v)
    (places : ∀ n j, (u.prt q).roster[n]? = some j → (u.call j).place = some (n + 1)) (n : Nat) (j : Slot)
    (hj : (v.prt q).roster[n]? = some j) : (v.call j).place = some (n + 1) := by
  rw [h.roster] at hj
  rw [h.call j (List.mem_of_getElem? hj)]
  exact places n j hj

theorem Aloof.estimated (h : Aloof q u v) (done : estimated u q) : estimated v q := by
  have quotient : ∀ n, quotientAt v q n = quotientAt u q n := fun n => by
    rw [State.quotientAt_eq, State.quotientAt_eq, h.prt, State.part_congr h.plan]
  have same : ∀ {n j}, (u.prt q).roster[n]? = some j → v.call j = u.call j := fun hj =>
    h.call _ (List.mem_of_getElem? hj)
  obtain ⟨estimates, clamped⟩ := done
  refine ⟨fun n j hj queued => ?_, ?_⟩
  · rw [h.prt] at hj
    rw [same hj] at queued ⊢
    rw [quotient]
    exact estimates n j hj queued
  · rw [h.prt]
    refine clamped.trans (exists_congr fun n => exists_congr fun j => and_congr_right fun hj => ?_)
    rw [same hj, quotient]

theorem Event.prt_pass_ne (e : Event) {r x : Part} (h : r ≠ x) : (e.pass r).st.prt x = e.st.prt x := by
  have event := (e.foldl_passMember r (e.st.prt r).roster).event
  unfold Event.pass
  dsimp only
  generalize (e.st.prt r).roster.foldl (Event.passMember r) e = f at event ⊢
  exact (State.prt_setPrt_ne _ _ h).trans (by rw [event]; rfl)

theorem Event.roster_pass (e : Event) (r x : Part) : ((e.pass r).st.prt x).roster = (e.st.prt x).roster := by
  obtain rfl | h := eq_or_ne r x
  · rw [(e.pass_passed r).prt]
  · rw [e.prt_pass_ne h]

theorem Event.pass_aloof {e : Event} {r : Part} (apart : e.st.apartRoster q) (ne : r ≠ q) :
    Aloof q e.st (e.pass r).st := by
  have passed := e.pass_passed r
  refine ⟨e.prt_pass_ne ne, passed.plan, e.roster_pass r, fun j hj => ?_⟩
  rw [passed.call, if_neg fun member => apart r ne j member hj]

theorem Event.foldl_pass_aloof {ps : List Part} (out : q ∉ ps) {e : Event} (apart : e.st.apartRoster q) :
    let f := ps.foldl (fun e p => if e.passes.get p then e.pass p else e) e
    Aloof q e.st f.st ∧ f.passes = e.passes := by
  induction ps generalizing e with
  | nil => exact ⟨.refl _, rfl⟩
  | cons r ps ih =>
    obtain ⟨ne, out⟩ := not_or.mp (List.mem_cons.not.mp out)
    rw [List.foldl_cons]
    split
    · have aloof := e.pass_aloof (r := r) apart (Ne.symm ne)
      obtain ⟨rest, passes⟩ := ih out (aloof.apart apart)
      exact ⟨aloof.trans rest, passes.trans (by rw [e.pass_eq])⟩
    · exact ih out apart

/-- A partition that wants a pass gets it, whatever the others want. -/
theorem Event.runPasses_estimated {e : Event} (wants : e.passes.get q = true) (apart : e.st.apartRoster q)
    (places : ∀ n j, (e.st.prt q).roster[n]? = some j → (e.st.call j).place = some (n + 1)) :
    estimated e.runPasses.st q := by
  obtain ⟨ps, rs, split⟩ := List.append_of_mem (List.mem_finRange q)
  have once : (ps ++ q :: rs).Nodup := split ▸ List.nodup_finRange 4
  obtain ⟨alone, -⟩ := List.nodup_cons.mp (List.nodup_middle.mp once)
  obtain ⟨before, kept⟩ := Event.foldl_pass_aloof (ps := ps) (fun h => alone (List.mem_append_left rs h)) apart
  unfold Event.runPasses
  rw [split, List.foldl_append, List.foldl_cons]
  generalize ps.foldl (fun e p => if e.passes.get p then e.pass p else e) e = f at before kept ⊢
  rw [kept, wants, if_pos rfl]
  have passed := f.pass_passed q
  have apart' : (f.pass q).st.apartRoster q := fun r ne j => by
    rw [f.roster_pass, f.roster_pass]
    exact before.apart apart r ne j
  obtain ⟨after, -⟩ := Event.foldl_pass_aloof (ps := rs) (fun h => alone (List.mem_append_right ps h)) apart'
  exact after.estimated (passed.estimates (before.places places))

theorem Tested.prt {xs : List Pos} {e f : Event} (k : Tested xs e f) (r : Part) : f.st.prt r = e.st.prt r := by
  rw [k.rest]; rfl

/-- An event gives a partition that wants a pass its estimates, whatever the arbiters offer. -/
theorem Event.finish_estimated {e : Event} (refusals : e.refusals = []) (serve : ∀ k ∈ e.serve, unserved e.st k)
    (wants : e.passes.get q = true) (apart : e.st.apartRoster q)
    (places : ∀ n j, (e.st.prt q).roster[n]? = some j → (e.st.call j).place = some (n + 1)) :
    estimated e.finish q := by
  have tested := e.testPositions_tested
  have dealt : Dealt (fun x => (e.testPositions.st.pos x).available = true) e.testPositions.st
      e.testPositions.runArbiters.st := Dealt.runArbiters (.refl fun _ => Position.available_offered)
  have prt : ∀ r, e.testPositions.runArbiters.st.prt r = e.st.prt r := fun r =>
    (dealt.prt r).trans (tested.prt r)
  have place : ∀ j, (e.testPositions.runArbiters.st.call j).place = (e.st.call j).place := fun j => by
    by_cases offer : ∃ x, (e.testPositions.st.pos x).available = true ∧
        (e.testPositions.runArbiters.st.pos x).offered = some j
    · obtain ⟨x, takes, offer⟩ := offer
      rw [(dealt.offered x j takes offer).2, tested.offering]
      rfl
    · rw [dealt.waits j fun x takes h => offer ⟨x, takes, h⟩, tested.call]
  unfold Event.finish
  rw [Event.settle_unserved 80 refusals serve]
  refine Event.commit_estimated (Event.runPasses_estimated (Event.arbiters_want wants) ?_ ?_)
  · intro r ne j
    rw [prt, prt]
    exact apart r ne j
  · intro n j hj
    rw [prt] at hj
    rw [place]
    exact places n j hj

end Aloof

end Sys2Proof.Machine
end

section
/-! SUPPORT. PICK (R63, R72); and O23. -/

namespace Sys2Proof.Machine

/-! ### The roster is ready for the capture once the offer is gone -/

section Readying

variable {s b : State} {c : CellIx} {p : Pos} {i j : Slot}

/-- The offer, if there was one, has gone back to its roster. -/
theorem TakenBack.readied (back : TakenBack (s.taken c) b p) (plain : withdrawable s p i) : Readied s b p i none where
  self := ⟨(s.call i).place, (back.calls i fun offer => (plain i (by rw [← State.pos_taken s c]; exact offer)).1 rfl).trans
    (s.call_taken c i)⟩
  members := fun j _ apart => ⟨(s.call j).place, (back.calls j (by rw [State.pos_taken]; exact apart)).trans
    (s.call_taken c j)⟩
  calls := fun j out => (back.calls j (by
    rw [State.pos_taken]
    exact fun offer => out (.inr (.inl offer)))).trans (s.call_taken c j)
  home := ⟨(s.prt (s.call i).partition).alert, by
    have all : ((s.prt (s.call i).partition).roster.filter fun j => some j != none) =
        (s.prt (s.call i).partition).roster := List.filter_eq_self.mpr fun _ _ => rfl
    rw [all]
    exact (back.prt _).trans (s.prt_taken c _)⟩
  parts := fun x _ => (back.prt x).trans (s.prt_taken c x)
  panel := by rw [back.panel, State.pos_taken]
  panels := fun x hx => (back.panels x hx).trans (s.pos_taken c x)
  lamp := fun k => (back.lamp k).trans (s.lamp_taken c k)
  link := fun m => by
    have none : ((heldEntries s i none).filter fun x => linkOf x.order.first == m) = [] := rfl
    rw [none, List.append_nil]
    exact (back.link m).trans (s.link_taken c m)
  free := back.free.trans (s.taken_free c)
  rings := back.rings.trans (s.taken_rings c)
  seconds := back.seconds.trans (s.taken_seconds c)
  plan := back.plan.trans (s.taken_plan c)

/-- The call of the offer has overflowed. -/
theorem Overran.readied (ran : Overran (s.taken c) b j p (s.call i).partition) (offer : HeldOffer s j p (s.call i).partition)
    (ne : j ≠ i) (member : i ∈ (s.prt (s.call i).partition).roster) : Readied s b p i (some j) where
  self := by
    obtain ⟨x, call⟩ := ran.others i ne
    exact ⟨x, by rw [call, State.call_taken]⟩
  members := fun y _ apart => by
    obtain ⟨x, call⟩ := ran.others y fun same => apart (same ▸ offer.offer)
    exact ⟨x, by rw [call, State.call_taken]⟩
  calls := fun y out => by
    obtain ⟨outside, other⟩ := not_or.mp out
    obtain ⟨unoffered, apart⟩ := not_or.mp other
    refine (ran.calls y fun overflows => ?_).trans (s.call_taken c y)
    rcases (s.taken_mirrors c).overflowCalls.mp overflows with rfl | into
    · exact unoffered offer.offer
    · exact apart ⟨nofun, .inr into⟩
  home := by
    have home := ran.home
    have there : (((s.taken c).withdrawn j p).call j).partition = (s.call i).partition := by
      rw [State.call_withdrawn_self, State.call_taken]
      exact offer.partition
    have departed := ((s.taken c).withdrawn j p).prt_departed j
    have rest : ((s.taken c).withdrawn j p).restRoster j =
        (s.prt (s.call i).partition).roster.filter fun x => some x != some j := by
      unfold State.restRoster
      rw [there, State.prt_withdrawn, State.prt_taken]
      rfl
    have stays : ((s.taken c).withdrawn j p).restRoster j ≠ [] := by
      rw [rest]
      exact List.ne_nil_of_mem (List.mem_filter.mpr ⟨member, by simpa using ne.symm⟩)
    have est : ∀ x : Partition, x.leaveEst (((s.taken c).withdrawn j p).restRoster j) = x.est := fun x =>
      if_neg fun empty => stays (List.isEmpty_iff.mp empty)
    rw [there, est, rest, State.prt_withdrawn, State.prt_taken] at departed
    exact ⟨_, home.trans departed⟩
  parts := fun x out => by
    refine (ran.parts x fun overflows => ?_).trans (s.prt_taken c x)
    exact out (.inr ⟨nofun, (s.taken_mirrors c).overflowParts.mp overflows⟩)
  panel := by rw [ran.panel, State.pos_taken]
  panels := fun x hx => (ran.panels x hx).trans (s.pos_taken c x)
  lamp := fun k => (ran.lamp k).trans (s.lamp_taken c k)
  link := fun m => by rw [ran.link, State.link_taken, (s.taken_mirrors c).overflowOrders]; rfl
  free := ran.free.trans (s.taken_free c)
  rings := ran.rings.trans (s.taken_rings c)
  seconds := ran.seconds.trans (s.taken_seconds c)
  plan := ran.plan.trans (s.taken_plan c)

end Readying

section Pick

variable {s : State} {c : CellIx} {p : Pos} {i : Slot} {l : LoopIx} {h : Circuit}

theorem PickReady.picks (r : PickReady s c p i l h) : (Event.taking s c).own c .pickK =
    (((((Event.taking s c).withdraw p).leaveRoster i true).speak i p l), some (.ok, 0)) := by
  have named : (cellBody s.mem c 0).toNat < 64 := r.slot ▸ i.isLt
  have slot : (⟨(cellBody s.mem c 0).toNat, named⟩ : Slot) = i := Fin.ext r.slot
  have pickable : (Event.taking s c).st.pickable p (cellBody s.mem c 0) = some i := by
    unfold State.pickable
    rw [dif_pos named, slot]
    dsimp only
    rw [Event.taking_st, State.call_taken, State.pos_taken]
    exact if_pos ⟨r.queued, r.partition⟩
  rw [r.own_eq]
  dsimp only
  unfold Event.ownPick
  dsimp only
  rw [pickable, Event.taking_st, State.pos_taken, if_neg (by simp [r.isOpen]), if_neg (by simp [r.noExtend]),
    if_neg (by simp [r.silent]), r.toFromRoster.emptyLoop]
  rfl

/-- A pick once the offer is gone. -/
theorem PickReady.takes (r : PickReady s c p i l h) {held : Option Slot} {f : Event}
    (withdrawn : (Event.taking s c).withdraw p = f) (ready : Readied s f.st p i held) (other : held ≠ some i)
    (refusals : f.refusals = []) (serve : f.serve = []) (missed : (f.st.pos p).missed = (s.pos p).missed)
    (room : f.st.room (joinOrders (s.call i) h)) (apart : f.st.apartRoster (s.call i).partition) :
    ∃ t, exec .pickOrder s = .next t ∧ t.finished c .ok 0 ∧ TakenToLoop s t p i l h held ∧
      (t.pos p).missed = (s.pos p).missed ∧ Ended ((f.st.takenUp i p l h).answer c .ok 0) t := by
  obtain ⟨x, self⟩ := ready.self
  obtain ⟨a, home⟩ := ready.home
  have own := r.picks
  have awaits : f.st.awaits c := withdrawn ▸ r.awaits.keeps (Event.withdraw_keeps (.refl _))
  rw [withdrawn] at own
  clear withdrawn
  have state : (f.st.call i).state = .queued := by rw [self]; exact r.queued
  have partition : (f.st.call i).partition = (s.call i).partition := by rw [self]
  have member : i ∈ (f.st.prt (f.st.call i).partition).roster := by
    rw [partition, home]
    exact List.mem_filter.mpr ⟨r.member, bne_iff_ne.mpr other.symm⟩
  have left := Event.leaveRoster_captured (e := f) member (by
    unfold Event.unoffered
    rw [state]
    exact if_neg (by decide)) rfl
  rw [partition] at left
  generalize f.leaveRoster i true = g at own left
  have st : g.st = f.st.captured i := by rw [left]
  have call : g.st.call i = (f.st.call i).unlisted := by rw [st, State.call_captured_self]
  have orders : joinOrders (g.st.call i) h = joinOrders (f.st.call i) h := by rw [call]; rfl
  have named : joinOrders (f.st.call i) h = joinOrders (s.call i) h := by rw [self]; rfl
  obtain ⟨spoken, steady⟩ := Event.speak_speaks (e := g) (i := i) (p := p) (l := l) (h := h)
    (by rw [call]; show (f.st.call i).state ≠ _; rw [state]; decide)
    (by rw [call]; show (f.st.call i).target = none; rw [self]; exact r.target)
    (by rw [st, State.pos_captured, ready.panel]; exact r.headset)
    (by
      rw [orders, named]
      intro o ho
      rw [st, State.link_captured]
      exact room o ho)
  rw [orders, st] at spoken
  have done : (g.speak i p l).st = f.st.takenUp i p l h := spoken
  generalize g.speak i p l = k at own done steady
  have kept : k.refusals = [] ∧ k.serve = [] :=
    ⟨steady.refusals.trans (by rw [left]; exact refusals), steady.serve.trans (by rw [left]; exact serve)⟩
  obtain ⟨run, finished, ended⟩ := r.ends own done kept.1 (by rw [kept.2]; exact nofun)
    (awaits.of_eq (by simp) (by simp) fun q => State.extendCell_takenUp ..)
  have replied : (k.replied c .ok).st = (f.st.takenUp i p l h).answer c .ok 0 := by rw [Event.replied_st, done]
  have estimates : estimated (k.replied c .ok).finish (s.call i).partition := by
    refine Event.finish_estimated (e := k.replied c .ok) kept.1 (by rw [Event.replied_serve, kept.2]; exact nofun) ?_ ?_
      fun n j hj => ?_
    · show k.passes.get _ = true
      rw [steady.passes, left]
      exact Table.get_set_self ..
    · intro q ne j hj
      rw [replied, State.prt_answer, State.prt_takenUp] at hj ⊢
      rw [State.prt_captured_ne _ _ (by rw [partition]; exact ne)] at hj
      rw [ready.captured]
      refine fun stays => apart q ne j hj ?_
      rw [home]
      obtain ⟨listed, out⟩ := List.mem_filter.mp stays
      exact List.mem_filter.mpr ⟨listed, (Bool.and_eq_true_iff.mp out).2⟩
    · rw [replied, State.call_answer]
      rw [replied, State.prt_answer] at hj
      exact ready.places r.once hj
  obtain ⟨taken, missed'⟩ := ready.takenToLoop r.toFromRoster ended estimates
  exact ⟨_, run, finished, taken, missed'.trans missed, ended⟩

/-- Rosters of other partitions hold no member of the picked call's roster (R24). -/
theorem PickReady.apartRoster (r : PickReady s c p i l h) (q : Part) : s.apartRoster q := fun x ne j hj member =>
  ne ((r.members x j hj).symm.trans (r.members q j member))

/-- PICK where a pending offer goes back to its roster. -/
theorem PickReady.takes_back (r : PickReady s c p i l h) (plain : withdrawable s p i) :
    ∃ t, exec .pickOrder s = .next t ∧ t.finished c .ok 0 ∧ TakenToLoop s t p i l h none ∧
      (t.pos p).missed = (s.pos p).missed ∧
      ∀ j, (s.pos p).offered = some j →
        (t.call j).expiryHeld = false ∧ memberStays { s.call j with state := .queued } (t.call j) ∧
        (t.call j).waitDeadline = (s.call j).waitDeadline := by
  obtain ⟨back, only⟩ := Event.withdraw_takesBack (p := p) (e := Event.taking s c) fun j offer => by
    rw [Event.taking_st, State.pos_taken] at offer
    rw [Event.taking_st, State.call_taken]
    exact (plain j offer).2
  rw [Event.taking_st] at back
  have ready := back.readied plain
  obtain ⟨t, run, finished, taken, missed, ended⟩ := r.takes rfl ready nofun only.refusals only.serve
    (by rw [back.panel, State.pos_taken])
    (fun o ho => by rw [back.link, State.link_taken]; exact r.room o ho)
    (fun q ne j hj => by
      rw [back.prt, State.prt_taken] at hj ⊢
      exact r.apartRoster _ q ne j hj)
  refine ⟨t, run, finished, taken, missed, fun j offer => ?_⟩
  obtain ⟨ne, state, held, -⟩ := plain j offer
  obtain ⟨x, call⟩ := ((Event.taking s c).withdraw p).st.call_captured i ne.symm
  have member : (((((Event.taking s c).withdraw p).st.takenUp i p l h).answer c .ok 0)).call j =
      { (s.call j).returned s.seconds with place := x } := by
    rw [State.call_answer, State.call_takenUp_ne _ _ _ _ _ ne.symm, call, back.back j (by rw [State.pos_taken]; exact offer),
      State.call_taken, State.taken_seconds]
  have stays : memberStays ((s.call j).returned s.seconds) (t.call j) := (ended.quiet.endures j).memberStays member
  obtain ⟨fields, moved⟩ := stays
  refine ⟨(ended.rests j (by rw [member]; exact ⟨rfl, rfl⟩)).2, ⟨fields, moved⟩, ?_⟩
  simp only [Prod.mk.injEq] at fields
  obtain ⟨-, -, -, -, -, -, wait, -⟩ := fields
  exact wait

/-- PICK where the pending offer's call overflows. -/
theorem PickReady.overflows {j : Slot} (r : PickReady s c p i l h) (offer : HeldOffer s j p (s.call i).partition)
    (room : s.room (overflowOrders s j (s.call i).partition ++ joinOrders (s.call i) h)) :
    ∃ t, exec .pickOrder s = .next t ∧ t.finished c .ok 0 ∧ TakenToLoop s t p i l h (some j) ∧
      (t.pos p).missed = (s.pos p).missed ∧ Overflowed s t j (s.call i).partition := by
  have mirrors := s.taken_mirrors c
  have ne : j ≠ i := fun same => by
    have state := offer.state
    rw [same, r.queued] at state
    cases state
  obtain ⟨ran, refusals, serve⟩ := Event.withdraw_overflows (e := Event.taking s c)
    (mirrors.heldOffer (by rw [State.pos_taken]) offer)
    (by rw [Event.taking_st, mirrors.overflowOrders]; exact State.room_append_left (mirrors.room.mpr room))
  rw [Event.taking_st] at ran
  have ready := ran.readied offer ne r.member
  obtain ⟨t, run, finished, taken, missed, ended⟩ := r.takes rfl ready (fun same => ne (Option.some.inj same)) refusals
    serve (by rw [ran.panel, State.pos_taken])
    (State.room_after (mirrors.room.mpr room) (by simpa only [mirrors.overflowOrders] using ran.link))
    (fun q apart x hx member => by
      obtain ⟨a, home⟩ := ready.home
      rw [home] at member
      obtain ⟨listed, out⟩ := List.mem_filter.mp member
      rcases ran.entrants q apart x hx with rfl | old
      · simp at out
      · rw [State.prt_taken] at old
        exact r.apartRoster _ q apart x old listed)
  have quiet := ended.quiet
  have endures := quiet.endures j
  obtain ⟨a, self⟩ := ready.self
  obtain ⟨b, home⟩ := ready.home
  rw [State.call_answer, State.call_takenUp_ne _ _ _ _ _ ne.symm, State.call_captured_out _ _ ne.symm (by
    rw [show (((Event.taking s c).withdraw p).st.call i).partition = (s.call i).partition by rw [self], home]
    simp)] at endures
  refine ⟨t, run, finished, taken, missed, mirrors.overflowed (ran.overflows _ endures fun q apart => ?_)⟩
  rw [quiet.prt, State.prt_answer, State.prt_takenUp,
    State.prt_captured_ne _ _ (by rw [self]; exact apart)]

end Pick

/-- Settles O23. -/
theorem pickPutsTheNamedCallOnALoop : Obligations.PickPutsTheNamedCallOnALoop :=
  ⟨fun _ _ _ _ _ _ r plain => r.takes_back plain, fun _ _ _ _ _ _ _ r offer room => r.overflows offer room⟩

end Sys2Proof.Machine
end

section
/-! SUPPORT. What the rules that take calls away from where they sit, close them and settle an event's refusals can make of
panels, calls and rosters (R15, R16, R19, R44, R46, R130). -/

namespace Sys2Proof.Machine

/-- A panel may have lost what it showed: a loop only where it held a call that was acted on. -/
structure Position.Shed (acts : Slot → Prop) (q r : Position) : Prop where
  loops : ∀ l, r.loops.get l = q.loops.get l ∨ r.loops.get l = none ∧ ∃ i, acts i ∧ q.loops.get l = some i
  flash : ∀ l, r.flash.get l = q.flash.get l ∨ r.flash.get l = false
  speaking : r.speaking = q.speaking ∨ r.speaking = none
  offered : r.offered = q.offered ∨ r.offered = none

/-- The call may have closed or lost its origin. -/
structure Call.Fades (c d : Call) : Prop where
  state : d.state = c.state ∨ d.state = .closing ∨ d.state = .free
  origin : d.origin = c.origin ∨ d.origin = none
  partition : d.partition = c.partition

/-- From one state to the other, only calls of `acts` have been acted on, and only calls of `routes` may have been routed
anywhere but to their end; no roster has been joined. -/
structure Sheds (acts routes : Slot → Prop) (s t : State) : Prop where
  pos : ∀ x, Position.Shed acts (s.pos x) (t.pos x)
  call : ∀ j, ¬ routes j → Call.Fades (s.call j) (t.call j)
  other : ∀ j, ¬ acts j → ∃ x, t.call j = { s.call j with place := x }
  prt : ∀ q, (∀ i ∈ (s.prt q).roster, ¬ acts i) → t.prt q = s.prt q

section Records

variable {acts : Slot → Prop} {q r : Position}

theorem Position.Shed.refl (q : Position) : Position.Shed acts q q :=
  ⟨fun _ => .inl rfl, fun _ => .inl rfl, .inl rfl, .inl rfl⟩

/-- A change that does not touch what the panel shows of calls. -/
theorem Position.Shed.of_eq (h : (r.loops, r.flash, r.speaking, r.offered) = (q.loops, q.flash, q.speaking, q.offered)) :
    Position.Shed acts q r := by
  simp only [Prod.mk.injEq] at h
  obtain ⟨loops, flash, speaking, offered⟩ := h
  exact ⟨fun l => .inl (by rw [loops]), fun l => .inl (by rw [flash]), .inl speaking, .inl offered⟩

theorem Position.Shed.trans {u : Position} (h : Position.Shed acts q r) (k : Position.Shed acts r u) :
    Position.Shed acts q u where
  loops := fun l => by
    rcases k.loops l with same | ⟨gone, i, hi, was⟩
    · rw [same]
      exact h.loops l
    · rcases h.loops l with same | ⟨none, -⟩
      · exact .inr ⟨gone, i, hi, same.symm.trans was⟩
      · rw [none] at was
        cases was
  flash := fun l => (k.flash l).elim (fun same => same ▸ h.flash l) .inr
  speaking := k.speaking.elim (fun same => same ▸ h.speaking) .inr
  offered := k.offered.elim (fun same => same ▸ h.offered) .inr

theorem Position.Shed.mono {acts' : Slot → Prop} (h : Position.Shed acts q r) (le : ∀ i, acts i → acts' i) :
    Position.Shed acts' q r :=
  { h with loops := fun l => (h.loops l).imp_right fun ⟨gone, i, hi, was⟩ => ⟨gone, i, le i hi, was⟩ }

theorem Position.Shed.unoffered : Position.Shed acts q { q with offered := none } :=
  ⟨fun _ => .inl rfl, fun _ => .inl rfl, .inl rfl, .inr rfl⟩

theorem Position.Shed.without {i : Slot} {l : LoopIx} (hi : acts i) (here : q.loops.get l = some i) :
    Position.Shed acts q (q.without l) where
  loops := fun m => by
    unfold Position.without
    dsimp only
    rw [Table.get_set]
    split
    · next same => exact .inr ⟨rfl, i, hi, same ▸ here⟩
    · exact .inl rfl
  flash := fun m => by
    unfold Position.without
    dsimp only
    rw [Table.get_set]
    split
    · exact .inr rfl
    · exact .inl rfl
  speaking := by
    unfold Position.without
    dsimp only
    split
    · exact .inr rfl
    · exact .inl rfl
  offered := .inl rfl

theorem Call.Fades.refl (c : Call) : Call.Fades c c := ⟨.inl rfl, .inl rfl, rfl⟩

theorem Call.Fades.of_eq {c d : Call} (h : (d.state, d.origin, d.partition) = (c.state, c.origin, c.partition)) :
    Call.Fades c d := by
  simp only [Prod.mk.injEq] at h
  obtain ⟨state, origin, partition⟩ := h
  exact ⟨.inl state, .inl origin, partition⟩

theorem Call.Fades.trans {a b c : Call} (h : Call.Fades a b) (k : Call.Fades b c) : Call.Fades a c :=
  ⟨k.state.elim (fun same => same ▸ h.state) .inr, k.origin.elim (fun same => same ▸ h.origin) .inr,
    k.partition.trans h.partition⟩

end Records

section Sheds

variable {acts routes : Slot → Prop} {s t u : State}

theorem Sheds.of_eq (positions : t.positions = s.positions) (calls : t.calls = s.calls) (parts : t.parts = s.parts) :
    Sheds acts routes s t := by
  have pos : ∀ x, t.pos x = s.pos x := fun x => congrArg (Table.get · x) positions
  have call : ∀ j, t.call j = s.call j := fun j => congrArg (Table.get · j) calls
  exact ⟨fun x => by rw [pos]; exact .refl _, fun j _ => by rw [call]; exact .refl _, fun j _ => ⟨_, call j⟩,
    fun q _ => congrArg (Table.get · q) parts⟩

theorem Sheds.refl (s : State) : Sheds acts routes s s := .of_eq rfl rfl rfl

theorem Sheds.trans (h : Sheds acts routes s t) (k : Sheds acts routes t u) : Sheds acts routes s u where
  pos := fun x => (h.pos x).trans (k.pos x)
  call := fun j hj => (h.call j hj).trans (k.call j hj)
  other := fun j hj => by
    obtain ⟨x, hx⟩ := h.other j hj
    obtain ⟨y, hy⟩ := k.other j hj
    exact ⟨y, by rw [hy, hx]⟩
  prt := fun q hq => by
    have same := h.prt q hq
    exact (k.prt q (by rw [same]; exact hq)).trans same

/-- A call record of those acted on is written. -/
theorem Sheds.setCall {i : Slot} {c : Call} (hi : acts i) (h : routes i ∨ Call.Fades (s.call i) c) :
    Sheds acts routes s (s.setCall i c) where
  pos := fun _ => .refl _
  call := fun j hj => by
    obtain rfl | ne := eq_or_ne i j
    · rw [State.call_setCall_self]
      exact h.resolve_left hj
    · rw [State.call_setCall_ne _ _ ne]
      exact .refl _
  other := fun j hj => ⟨_, State.call_setCall_ne _ _ fun same => hj (same ▸ hi)⟩
  prt := fun _ _ => rfl

theorem Sheds.setPos {p : Pos} {x : Position} (h : Position.Shed acts (s.pos p) x) : Sheds acts routes s (s.setPos p x) where
  pos := fun y => by
    obtain rfl | ne := eq_or_ne p y
    · rw [State.pos_setPos_self]
      exact h
    · rw [State.pos_setPos_ne _ _ ne]
      exact .refl _
  call := fun _ _ => .refl _
  other := fun _ _ => ⟨_, rfl⟩
  prt := fun _ _ => rfl

/-- The record of a partition is written whose roster holds a call acted on. -/
theorem Sheds.setPrt {q : Part} {c : Partition} {i : Slot} (hi : acts i) (member : i ∈ (s.prt q).roster) :
    Sheds acts routes s (s.setPrt q c) where
  pos := fun _ => .refl _
  call := fun _ _ => .refl _
  other := fun _ _ => ⟨_, rfl⟩
  prt := fun x hx => State.prt_setPrt_ne _ _ fun same : q = x => hx i (same ▸ member) hi

end Sheds

/-! ### Rules of an event -/

section Chain

variable {acts routes : Slot → Prop} {s : State} {e f : Event} {i : Slot}

/-- A step that writes no call, panel or partition record. -/
theorem Sheds.next (k : Sheds acts routes s e.st) (positions : f.st.positions = e.st.positions)
    (calls : f.st.calls = e.st.calls) (parts : f.st.parts = e.st.parts) : Sheds acts routes s f.st :=
  k.trans (.of_eq positions calls parts)

theorem Sheds.updCall {g : Call → Call} (k : Sheds acts routes s e.st) (hi : acts i)
    (h : routes i ∨ ∀ c, Call.Fades c (g c)) : Sheds acts routes s (e.updCall i g).st :=
  k.trans (.setCall hi (h.imp_right fun h => h _))

theorem Sheds.updPos {p : Pos} {g : Position → Position} (k : Sheds acts routes s e.st)
    (h : ∀ q, Position.Shed acts q (g q)) : Sheds acts routes s (e.updPos p g).st := k.trans (.setPos (h _))

theorem Sheds.updLamp {c : Circuit} {g : Lamp → Lamp} (k : Sheds acts routes s e.st) :
    Sheds acts routes s (e.updLamp c g).st := k.next rfl rfl rfl

theorem Sheds.ite {c : Prop} [Decidable c] (he : c → Sheds acts routes s e.st) (hf : ¬ c → Sheds acts routes s f.st) :
    Sheds acts routes s (if c then e else f).st := by
  split
  · next h => exact he h
  · next h => exact hf h

theorem Sheds.foldl {α : Type} {g : Event → α → Event} {xs : List α}
    (h : ∀ e, ∀ x ∈ xs, Sheds acts routes s e.st → Sheds acts routes s (g e x).st) (k : Sheds acts routes s e.st) :
    Sheds acts routes s (xs.foldl g e).st := by
  induction xs generalizing e with
  | nil => exact k
  | cons x xs ih => exact ih (fun e y hy => h e y (List.mem_cons_of_mem _ hy)) (h e x List.mem_cons_self k)

theorem Sheds.toState {st : CallState} (k : Sheds acts routes s e.st) (hi : acts i) (h : routes i ∨ st = .closing) :
    Sheds acts routes s (e.toState i st).st := by
  by_cases free : (e.st.call i).state = .free
  · rw [Event.toState_free e free]
    exact k
  · rw [Event.toState_st e free]
    exact k.trans (.setCall hi (h.imp_right fun closing => ⟨.inr (.inl closing), .inl rfl, rfl⟩))

theorem Sheds.startTimer {kind : TimerKind} {n : Nat} (k : Sheds acts routes s e.st) (hi : acts i) :
    Sheds acts routes s (e.startTimer i kind n).st :=
  k.trans (.setCall hi (.inr (.of_eq rfl)))

theorem Sheds.issueAs {m : Issue} {o : ShelfOrder} {h : Bool} (k : Sheds acts routes s e.st) (hi : acts i) :
    Sheds acts routes s (e.issueAs m (some i) o h).st := by
  have refuse : ∀ {f : Event} {l : Bool}, Sheds acts routes s f.st → Sheds acts routes s (f.refuse m (some i) o h l).st :=
    fun k => .ite (fun _ => k) fun _ => k.next rfl rfl rfl
  have note : Sheds acts routes s (e.note (some i) o).st := k.next rfl rfl rfl
  unfold Event.issueAs
  extract_lets f sh q
  refine .ite (fun _ => note) fun _ => .ite (fun _ => refuse note) fun _ => .ite (fun _ => ?_) fun _ => refuse note
  have linked : Sheds acts routes s (f.updLink (linkOf o.first) fun k =>
      { k with queue := k.queue ++ [{ order := o, slot := some i, handover := h }] }).st := note.next rfl rfl rfl
  exact .ite (fun _ => (linked.updCall (g := fun x => { x with pending := x.pending + 1 }) hi
    (.inr fun _ => .of_eq rfl)).next rfl rfl rfl) fun _ => linked.updCall hi (.inr fun _ => .of_eq rfl)

theorem Sheds.issueAll {how : Issue} {os : List ShelfOrder} (k : Sheds acts routes s e.st) (hi : acts i) :
    Sheds acts routes s (e.issueAll how i os).st := .foldl (fun _ _ _ k => k.issueAs hi) k

theorem Sheds.issueLegs {lost : Option Circuit} {os : List ShelfOrder} (k : Sheds acts routes s e.st) (hi : acts i) :
    Sheds acts routes s (e.issueLegs i lost os).st := by
  refine .foldl (fun e o _ k => ?_) k
  split
  · exact .ite (fun _ => k.next rfl rfl rfl) fun _ => k.issueAs hi
  · exact k.issueAs hi

theorem Sheds.answerExtendOf {code : ResultCode} (k : Sheds acts routes s e.st) (hi : acts i) :
    Sheds acts routes s (e.answerExtendOf i code).st := by
  unfold Event.answerExtendOf
  dsimp only
  split
  · next x p _ _ =>
    unfold Event.answerExtend
    dsimp only
    refine .updCall (.updPos ?_ fun _ => .of_eq rfl) hi (.inr fun _ => .of_eq rfl)
    split
    · exact k.next rfl rfl rfl
    · exact k
  · exact k

theorem Sheds.leaveLoop (k : Sheds acts routes s e.st) (hi : acts i) : Sheds acts routes s (e.leaveLoop i).st := by
  unfold Event.leaveLoop
  dsimp only
  split
  · refine k.updPos fun q => ?_
    split
    · next here => exact .without hi here
    · exact .refl _
  · exact k

theorem Sheds.leaveCamp (k : Sheds acts routes s e.st) (hi : acts i) : Sheds acts routes s (e.leaveCamp i).st := by
  unfold Event.leaveCamp
  split
  · exact k.updLamp.updCall hi (.inr fun _ => .of_eq rfl)
  · exact k

theorem Sheds.camp {x : Target} (k : Sheds acts routes s e.st) (hi : acts i) (hr : routes i) :
    Sheds acts routes s (e.camp i x).st := by
  unfold Event.camp
  refine .ite (fun _ => k) fun _ => Sheds.startTimer ?_ hi
  exact ((k.toState hi (.inl hr)).updCall hi (.inl hr)).updLamp

theorem Sheds.clearOffer (k : Sheds acts routes s e.st) : Sheds acts routes s (e.clearOffer i).st := by
  unfold Event.clearOffer
  split
  · exact .ite (fun _ => k.updPos fun _ => .unoffered) fun _ => k
  · exact k

theorem Event.renumber_sheds (e : Event) (q : Part) : Sheds acts routes e.st (e.renumber q).st := by
  unfold Event.renumber
  rw [Event.renumberFrom_eq]
  have place : ∀ j, ∃ x, (e.st.numbered 1 (e.st.prt q).roster).call j = { e.st.call j with place := x } :=
    State.call_numbered_place _ _ _
  refine ⟨fun x => ?_, fun j _ => ?_, fun j _ => place j, fun x _ => State.prt_numbered ..⟩
  · dsimp only
    rw [State.pos_numbered]
    exact .refl _
  · obtain ⟨x, hx⟩ := place j
    dsimp only
    rw [hx]
    exact .of_eq rfl

theorem Event.leaveRoster_sheds (e : Event) (hi : acts i) (answered : Bool) :
    Sheds acts routes e.st (e.leaveRoster i answered).st := by
  unfold Event.leaveRoster
  extract_lets c p e1 e2 e3 e4 left e5
  refine .ite (fun here => ?_) fun _ => .refl _
  have member : i ∈ (e.st.prt p).roster := List.contains_iff_mem.mp here
  have written : ∀ {f : Event} {g : Partition → Partition}, Sheds acts routes e.st f.st →
      Sheds acts routes e.st (f.updPrt p g).st := fun k =>
    { k with prt := fun q hq => (State.prt_setPrt_ne _ _ fun same : p = q => hq i (same ▸ member) hi).trans (k.prt q hq) }
  have k1 : Sheds acts routes e.st e1.st := .ite (fun _ => (Sheds.refl _).clearOffer) fun _ => .refl _
  have k2 : Sheds acts routes e.st e2.st := written k1
  have k3 : Sheds acts routes e.st e3.st := k2.trans (e2.renumber_sheds p)
  have k4 : Sheds acts routes e.st e4.st := k3.updCall hi (.inr fun _ => .of_eq rfl)
  have k5 : Sheds acts routes e.st e5.st := .ite (fun _ => written k4) fun _ => .ite (fun _ => k4) fun _ => written k4
  rw [Event.alertTest_eq]
  refine ⟨fun x => ?_, fun j hj => ?_, fun j hj => ?_, fun q hq => ?_⟩
  · dsimp only
    rw [State.pos_alerted]
    exact k5.pos x
  · dsimp only
    rw [State.call_alerted]
    exact k5.call j hj
  · dsimp only
    rw [State.call_alerted]
    exact k5.other j hj
  · dsimp only
    rw [State.prt_alerted, if_neg fun same : p = q => hq i (same ▸ member) hi]
    exact k5.prt q hq

theorem Sheds.leaveRoster {answered : Bool} (k : Sheds acts routes s e.st) (hi : acts i) :
    Sheds acts routes s (e.leaveRoster i answered).st := k.trans (e.leaveRoster_sheds hi answered)

/-! ### Closing (R15 to R19) -/

theorem Sheds.freeIfDone (k : Sheds acts routes s e.st) (hi : acts i) : Sheds acts routes s (e.freeIfDone i).st := by
  unfold Event.freeIfDone
  refine .ite (fun _ => k) fun _ => ?_
  unfold Event.freeSlot
  dsimp only
  refine .ite (fun _ => ?_) fun _ => k
  have freed : Sheds acts routes s (e.st.setCall i ((e.st.call i).enter .free e.st.seconds)) :=
    k.trans (.setCall hi (.inr ⟨.inr (.inr rfl), .inl rfl, rfl⟩))
  rw [Event.letGo_eq]
  exact freed.trans (.of_eq rfl rfl rfl)

theorem Sheds.removeCall (k : Sheds acts routes s e.st) (hi : acts i) : Sheds acts routes s (e.removeCall i).st := by
  unfold Event.removeCall
  dsimp only
  split
  · exact k.leaveRoster hi
  · exact k.leaveRoster hi
  · exact k.leaveLoop hi
  · exact k.leaveLoop hi
  · exact k.leaveLoop hi
  · exact k.leaveLoop hi
  · exact .ite (fun _ => (k.leaveCamp hi).issueAll hi) fun _ => k.leaveCamp hi
  · exact k

theorem Sheds.close {why : EndReason} {moved : Bool} (k : Sheds acts routes s e.st) (hi : acts i) :
    Sheds acts routes s (e.close i why moved).st := by
  unfold Event.close
  extract_lets c orders done orders' e1 e2 e3 e4 e5
  refine .ite (fun _ => k) fun _ => ?_
  have k2 : Sheds acts routes s e2.st := (k.removeCall hi).answerExtendOf hi
  have k3 : Sheds acts routes s e3.st := (k2.toState hi (.inr rfl)).updCall hi (.inr fun _ => .of_eq rfl)
  have k4 : Sheds acts routes s e4.st := .ite (fun _ => k3.issueAll hi) fun _ => k3
  have k5 : Sheds acts routes s e5.st := .ite (fun _ => k4.issueAll hi) fun _ => k4
  exact k5.freeIfDone hi

/-! ### Refusals and camp service (R14, R18, R99, R130) -/

theorem Sheds.takeRefusal {r : Refused} (k : Sheds acts routes s e.st) (hr : acts r.slot) :
    Sheds acts routes s (e.takeRefusal r).st := by
  unfold Event.takeRefusal
  dsimp only
  split
  · exact k
  · refine .ite (fun _ => ?_) fun _ => k
    exact (k.updCall (g := fun c => { c with endReason := some .pathFault }) hr (.inr fun _ => .of_eq rfl)).issueAll hr
  · exact .ite (fun _ => k) fun _ => k.close hr

theorem Sheds.settle (all : ∀ i, acts i) (n : Nat) (k : Sheds acts routes s e.st) : Sheds acts routes s (e.settle n).st := by
  have refusals : ∀ {f : Event}, Sheds acts routes s f.st → Sheds acts routes s f.takeRefusals.st := fun k =>
    .foldl (fun _ r _ k => k.freeIfDone (all r.slot)) (.foldl (fun _ r _ k => k.takeRefusal (all r.slot))
      k)
  have camps : ∀ {f : Event}, Sheds acts routes s f.st → Sheds acts routes s f.serveCamps.st := fun k => by
    refine .foldl (fun e c _ k => .ite (fun _ => ?_) fun _ => k) k
    unfold Event.ringHead
    split
    · exact .ite (fun _ => k) fun _ => (k.issueAs (all _)).updCall (all _) (.inr fun _ => .of_eq rfl)
    · exact k
  induction n generalizing e with
  | zero => exact k
  | succ n ih =>
    unfold Event.settle
    have settled := camps (refusals k)
    exact .ite (fun _ => settled) fun _ => ih settled

/-! ### Routing (R31, R44, R46) -/

theorem Sheds.congest {how : Issue} (k : Sheds acts routes s e.st) (hi : acts i) :
    Sheds acts routes s (e.congest i how).st := (k.issueAll hi).close hi

theorem Sheds.fallback {how : Issue} (k : Sheds acts routes s e.st) (hi : acts i) (hr : routes i) :
    Sheds acts routes s (e.fallback i how).st := by
  unfold Event.fallback
  dsimp only
  split
  · exact (((k.issueAll hi).toState hi (.inl hr)).updCall hi (.inl hr)).startTimer hi
  · exact k.congest hi

theorem Sheds.nightRoute (k : Sheds acts routes s e.st) (hi : acts i) (hr : routes i) :
    Sheds acts routes s (e.nightRoute i).st := by
  unfold Event.nightRoute
  extract_lets e1 c number
  have k1 : Sheds acts routes s e1.st := k.updCall hi (.inl hr)
  split
  · exact k1.fallback hi hr
  · split
    · exact ((k1.issueAll hi).toState hi (.inl hr)).updCall hi (.inl hr)
    · exact .ite (fun _ => (k1.camp hi hr).issueAs hi) fun _ => k1.fallback hi hr
    · exact k1.fallback hi hr

end Chain

end Sys2Proof.Machine
end

section
/-! SUPPORT. Panels only ever lose what they show when calls move from loops and offers to rosters and announcers (R26, R30,
R42, R46, R66). -/

namespace Sys2Proof.Machine

/-- From one state to the other, no panel has come to show a call. -/
def Clears (s t : State) : Prop := ∀ x, Position.Shed (fun _ => True) (s.pos x) (t.pos x)

section Chain

variable {s t u : State} {e f : Event} {i : Slot}

theorem Clears.refl (s : State) : Clears s s := fun _ => .refl _

theorem Clears.trans (h : Clears s t) (k : Clears t u) : Clears s u := fun x => (h x).trans (k x)

theorem Sheds.clears {acts routes : Slot → Prop} (h : Sheds acts routes s t) : Clears s t := fun x =>
  (h.pos x).mono fun _ _ => trivial

/-- A step that takes or routes calls. -/
theorem Clears.sheds (k : Clears s e.st) (h : Sheds (fun _ => True) (fun _ => True) e.st f.st) : Clears s f.st :=
  k.trans h.clears

theorem Clears.next (k : Clears s e.st) (positions : f.st.positions = e.st.positions) : Clears s f.st :=
  k.trans fun x => by
    rw [show f.st.pos x = e.st.pos x from congrArg (Table.get · x) positions]
    exact .refl _

theorem Clears.ite {c : Prop} [Decidable c] (he : c → Clears s e.st) (hf : ¬ c → Clears s f.st) :
    Clears s (if c then e else f).st := by
  split
  · next h => exact he h
  · next h => exact hf h

theorem Clears.foldl {α : Type} {g : Event → α → Event} {xs : List α} (h : ∀ e x, Clears s e.st → Clears s (g e x).st)
    (k : Clears s e.st) : Clears s (xs.foldl g e).st := by
  induction xs generalizing e with
  | nil => exact k
  | cons x xs ih => exact ih (h e x k)

theorem Clears.alertTest {q : Part} (k : Clears s e.st) : Clears s (e.alertTest q).st := by
  rw [Event.alertTest_eq]
  exact k.trans fun x => by
    dsimp only
    rw [State.pos_alerted]
    exact .refl _

theorem Clears.enterRoster {cls : CallClass} (k : Clears s e.st) : Clears s (e.enterRoster i cls).st := by
  unfold Event.enterRoster
  extract_lets p roster e1 members e2 e3 e4 e5 wait e6
  refine .ite (fun _ => k) fun _ => ?_
  have k1 : Clears s e1.st := .ite (fun _ => k.next rfl) fun _ => k
  clear_value e1
  have k2 : Clears s e2.st := k1.next rfl
  clear_value e2
  have k3 : Clears s e3.st := k2.sheds ((Sheds.refl _).toState trivial (.inl trivial))
  clear_value e3
  have k4 : Clears s e4.st := k3.next rfl
  clear_value e4
  have k5 : Clears s e5.st := k4.sheds (e4.renumber_sheds p)
  clear_value e5
  have k6 : Clears s e6.st := .ite (fun _ => k5.next rfl) fun _ => k5
  clear_value e6
  exact Clears.alertTest (e := (e6.rosterMoved p).gain p) k6

theorem Clears.joinRoster {cls : CallClass} {how : Issue} (k : Clears s e.st) : Clears s (e.joinRoster i cls how).st := by
  unfold Event.joinRoster
  dsimp only
  refine .ite (fun _ => ?_) fun _ => .ite (fun _ => ?_) fun _ => .ite (fun _ => ?_) fun _ => ?_
  · exact k.sheds ((Sheds.refl _).congest trivial)
  · exact k.sheds ((Sheds.refl _).fallback trivial trivial)
  · exact k.sheds ((Sheds.refl _).fallback trivial trivial)
  · exact k.enterRoster.sheds ((Sheds.refl _).issueAll trivial)

theorem Clears.overflow (k : Clears s e.st) : Clears s (e.overflow i).st := by
  have fallback : ∀ {f : Event}, Clears s f.st → Clears s (f.fallback i .ordinary).st := fun k =>
    k.sheds ((Sheds.refl _).fallback trivial trivial)
  unfold Event.overflow
  extract_lets p e1
  have k1 : Clears s e1.st := k.next rfl
  split
  · exact .ite (fun _ => .joinRoster (k1.next rfl)) fun _ => fallback k1
  · exact fallback k1

theorem Clears.backToQueue (k : Clears s e.st) : Clears s (e.backToQueue i).st := by
  have queued : Clears s (e.toState i .queued).st := k.sheds ((Sheds.refl _).toState trivial (.inl trivial))
  unfold Event.backToQueue
  dsimp only
  split
  · split
    · exact queued
    · exact queued.next rfl
  · exact queued

theorem Clears.returnCall (k : Clears s e.st) : Clears s (e.returnCall i).st := by
  unfold Event.returnCall
  dsimp only
  refine .ite (fun _ => .overflow ?_) fun _ => k.backToQueue
  exact k.backToQueue.sheds ((Sheds.refl _).leaveRoster trivial)

theorem Clears.withdraw {p : Pos} (k : Clears s e.st) : Clears s (e.withdraw p).st := by
  unfold Event.withdraw
  split
  · exact .returnCall (k.sheds ((Sheds.refl _).updPos fun _ => .unoffered))
  · exact k

/-- A position has no offer once it has been withdrawn. -/
theorem Event.withdraw_offered (e : Event) (p : Pos) : ((e.withdraw p).st.pos p).offered = none := by
  unfold Event.withdraw
  split
  · next j _ =>
    have cleared : ((e.updPos p fun q => { q with offered := none }).st.pos p).offered = none :=
      congrArg Position.offered (State.pos_setPos_self ..)
    have later := ((Clears.refl (e.updPos p fun q => { q with offered := none }).st).returnCall (i := j) p).offered
    exact later.elim (fun same => same.trans cleared) id
  · assumption

theorem Clears.forceLoop {p : Pos} {lost : Option Circuit} {l : LoopIx} (k : Clears s e.st) :
    Clears s (Event.forceLoop p lost e l).st := by
  unfold Event.forceLoop
  split
  · next i _ =>
    have left : Clears s (((e.answerExtendOf i .cancelled).issueLegs i lost (legOrders e.st (e.st.call i))).leaveLoop i).st :=
      k.sheds ((((Sheds.refl _).answerExtendOf trivial).issueLegs trivial).leaveLoop trivial)
    exact .joinRoster (left.next rfl)
  · exact k

theorem Clears.rerouteMember (k : Clears s e.st) : Clears s (e.rerouteMember i).st := by
  have withdrawn : Clears s (e.withdrawForNight i).st := by
    unfold Event.withdrawForNight
    split
    · exact .backToQueue (k.sheds (f := Event.updPos _ _ _) ((Sheds.refl e.st).updPos fun _ => .unoffered))
    · exact k.backToQueue
  unfold Event.rerouteMember
  extract_lets e1
  have k1 : Clears s e1.st := .ite (fun _ => withdrawn) fun _ => k
  exact k1.sheds (((Sheds.refl _).leaveRoster trivial).nightRoute trivial trivial)

theorem Clears.reportClosing {q : Option Part} (k : Clears s e.st) : Clears s (e.reportClosing q).st := by
  unfold Event.reportClosing
  split
  · exact .ite (fun _ => .foldl (fun _ _ k => k.rerouteMember) (k.next rfl)) fun _ => k
  · exact k

/-- A panel that a settled event leaves not available has come to show nothing. -/
theorem Event.finish_clears {x : Pos} (closed : (e.st.pos x).isOpen = false) (k : Clears s e.st) :
    Position.Shed (fun _ => True) (s.pos x) (e.finish.pos x) := by
  have settled := (k.sheds ((Sheds.refl e.st).settle (fun _ => trivial) 80)) x
  have stays : ((e.settle 80).st.pos x).isOpen = false :=
    (congrArg Prod.fst ((Event.settle_keeps (n := 80) (.refl e.st)).pos x)).trans closed
  unfold Event.finish
  generalize e.settle 80 = f at settled stays ⊢
  have tested := f.testPositions_tested
  have panel := tested.panel x
  have shut : (f.testPositions.st.pos x).available = false := by
    rw [tested.available]
    unfold Position.available
    rw [stays]
    rfl
  have quiet : Quiet f.testPositions.st f.testPositions.runArbiters.runPasses.commit :=
    Event.commit_quiet (Event.runPasses_quiet (Event.runArbiters_quiet (.refl _)))
  have dealt : Dealt (fun y => (f.testPositions.st.pos y).available = true) f.testPositions.st
      f.testPositions.runArbiters.st := Dealt.runArbiters (.refl fun _ => Position.available_offered)
  have revised := (Event.runPasses_revised f.testPositions.runArbiters).trans (Event.commit_revised _)
  have bare := quiet.pos x
  have offered : (f.testPositions.runArbiters.runPasses.commit.pos x).offered = (f.testPositions.st.pos x).offered := by
    rw [revised.offered, dealt.apart x (by rw [shut]; decide)]
  generalize f.testPositions.runArbiters.runPasses.commit = t at bare offered ⊢
  generalize f.testPositions.st = v at panel bare offered
  refine settled.trans (.of_eq ?_)
  rw [panel] at bare offered
  simp only [Prod.mk.injEq]
  exact ⟨(congrArg Position.loops bare :), (congrArg Position.flash bare :), (congrArg Position.speaking bare :), offered⟩

end Chain

end Sys2Proof.Machine
end

section
/-! SUPPORT. The attendant roles (R79, R80); CLOSE (R63, R65); and O19. -/

namespace Sys2Proof.Machine

/-! ### Roles -/

/-- From one event to the other nothing has changed but roles, and those only of OPEN positions without one. -/
structure Event.Roles (e f : Event) : Prop where
  rest : f = { e with st := { e.st with positions := f.st.positions } }
  panel : ∀ x, f.st.pos x = { e.st.pos x with role := (f.st.pos x).role }
  role : ∀ x, (f.st.pos x).role = (e.st.pos x).role ∨ (e.st.pos x).isOpen = true ∧ (e.st.pos x).role = .none

section Roles

variable {e f g : Event} {p d : Pos}

theorem Event.Roles.refl (e : Event) : e.Roles e := ⟨rfl, fun _ => rfl, fun _ => .inl rfl⟩

theorem Event.Roles.trans (h : e.Roles f) (k : f.Roles g) : e.Roles g where
  rest := by rw [k.rest, h.rest]
  panel := fun x => by rw [k.panel, h.panel]
  role := fun x => by
    rcases k.role x with same | ⟨isOpen, none⟩
    · rw [same]
      exact h.role x
    · rw [h.panel] at isOpen
      rcases h.role x with same | taken
      · exact .inr ⟨isOpen, same.symm.trans none⟩
      · exact .inr taken

/-- A position that holds a role keeps it, and a closed one takes none. -/
theorem Event.Roles.keeps (h : e.Roles f) {x : Pos} (stays : (e.st.pos x).isOpen = false ∨ (e.st.pos x).role ≠ .none) :
    (f.st.pos x).role = (e.st.pos x).role := by
  rcases h.role x with same | ⟨isOpen, none⟩
  · exact same
  · rcases stays with closed | held
    · rw [closed] at isOpen
      cases isOpen
    · exact absurd none held

theorem Event.updPos_pos (e : Event) (p : Pos) (g : Position → Position) (x : Pos) :
    (e.updPos p g).st.pos x = if p = x then g (e.st.pos x) else e.st.pos x := by
  refine (State.pos_setPos ..).trans ?_
  split
  · next same => rw [same]
  · rfl

theorem Event.fillRole_roles (e : Event) (r : Role) (holder : Option Pos) : e.Roles (e.fillRole r holder) := by
  unfold Event.fillRole
  split
  · split
    · next p fills =>
      simp only [Bool.and_eq_true, beq_iff_eq] at fills
      obtain ⟨⟨-, isOpen⟩, none⟩ := fills
      refine ⟨rfl, fun x => ?_, fun x => ?_⟩
      · rw [Event.updPos_pos]
        split <;> rfl
      · rw [Event.updPos_pos]
        split
        · next same => exact .inr (same ▸ ⟨isOpen, none⟩)
        · exact .inl rfl
    · exact .refl e
  · exact .refl e

theorem Event.fillRoles_roles (e : Event) : e.Roles e.fillRoles := by
  unfold Event.fillRoles
  split
  · exact (e.fillRole_roles ..).trans (Event.fillRole_roles _ ..)
  · exact .refl e

theorem State.holderOf_role {s : State} {r : Role} {d : Pos} (h : s.holderOf r = some d) : (s.pos d).role = r :=
  eq_of_beq (List.find?_some (p := fun x => (s.pos x).role == r) h)

theorem State.holderOf_unique {s : State} {r : Role} {d : Pos} (role : (s.pos d).role = r)
    (alone : ∀ x, (s.pos x).role = r → x = d) : s.holderOf r = some d := by
  cases found : s.holderOf r with
  | none =>
    have none := List.find?_eq_none.mp found d (List.mem_finRange d)
    exact absurd (beq_iff_eq.mpr role) none
  | some x => exact congrArg some (alone x (State.holderOf_role found))

/-- The closing position's role has been given up, a chief's to the deputy (R80). -/
def Event.unroled (e : Event) (p : Pos) : Event :=
  let e' := e.updPos p fun q => { q with role := .none }
  if (e.st.pos p).role = .chief then
    match e.st.holderOf .deputy with
    | some d => e'.updPos d fun q => { q with role := .chief }
    | none => e'
  else e'

theorem Event.closeRole_eq (e : Event) (p : Pos) : e.closeRole p = (e.unroled p).fillRoles := by
  unfold Event.closeRole Event.unroled
  dsimp only
  cases role : (e.st.pos p).role with
  | chief => cases e.st.holderOf .deputy <;> rfl
  | deputy => rfl
  | none => rfl

theorem Event.unroled_shape (e : Event) (p : Pos) :
    (e.unroled p) = { e with st := { e.st with positions := (e.unroled p).st.positions } } := by
  unfold Event.unroled
  dsimp only
  split
  · split <;> rfl
  · rfl

theorem Event.unroled_panel (e : Event) (p x : Pos) :
    (e.unroled p).st.pos x = { e.st.pos x with role := ((e.unroled p).st.pos x).role } := by
  have role : ∀ (f : Event) (y : Pos) (r : Role), (f.updPos y fun q => { q with role := r }).st.pos x =
      { f.st.pos x with role := ((f.updPos y fun q => { q with role := r }).st.pos x).role } := fun f y r => by
    rw [Event.updPos_pos]
    split <;> rfl
  unfold Event.unroled
  dsimp only
  split
  · split
    · rw [role, role]
    · exact role ..
  · exact role ..

/-- A close leaves of every panel all but its role. -/
theorem Event.closeRole_panel (e : Event) (p x : Pos) :
    (e.closeRole p).st.pos x = { e.st.pos x with role := ((e.closeRole p).st.pos x).role } := by
  rw [Event.closeRole_eq, (Event.fillRoles_roles _).panel, Event.unroled_panel]

/-- A closed position holds no role after its close, and another one that held none takes none (R80). -/
theorem Event.closeRole_closed {e : Event} {p x : Pos} (closed : (e.st.pos x).isOpen = false)
    (bare : x = p ∨ (e.st.pos x).role = .none) : ((e.closeRole p).st.pos x).role = .none := by
  have cleared : ((e.updPos p fun q => { q with role := .none }).st.pos x).role = .none := by
    rw [Event.updPos_pos]
    split
    · rfl
    · next apart => exact bare.resolve_left (Ne.symm apart)
  have given : ((e.unroled p).st.pos x).role = .none := by
    unfold Event.unroled
    dsimp only
    split
    · next chief =>
      split
      · next d found =>
        have deputy := State.holderOf_role found
        have apart : d ≠ x := by
          rintro rfl
          rcases bare with rfl | none
          · exact absurd (chief.symm.trans deputy) (by decide)
          · exact absurd (none.symm.trans deputy) (by decide)
        rw [Event.updPos_pos, if_neg apart]
        exact cleared
      · exact cleared
    · exact cleared
  rw [Event.closeRole_eq, (Event.fillRoles_roles _).keeps (.inl (by rw [Event.unroled_panel]; exact closed)), given]

/-- The chief's role passes to the one deputy (R80). -/
theorem Event.closeRole_passes {e : Event} {p d : Pos} (chief : (e.st.pos p).role = .chief)
    (deputy : (e.st.pos d).role = .deputy) (alone : ∀ x, (e.st.pos x).role = .deputy → x = d) :
    ((e.closeRole p).st.pos d).role = .chief := by
  have raised : ((e.unroled p).st.pos d).role = .chief := by
    unfold Event.unroled
    dsimp only
    rw [if_pos chief, State.holderOf_unique deputy alone]
    dsimp only
    rw [Event.updPos_pos, if_pos rfl]
  rw [Event.closeRole_eq, (Event.fillRoles_roles _).keeps (.inr (by rw [raised]; decide)), raised]

end Roles

/-! ### Closing a position (R65) -/

/-- The panel of a position that has signed off shows nothing. -/
structure Position.Vacant (q : Position) : Prop where
  speaking : q.speaking = none
  offered : q.offered = none
  loops : ∀ l, q.loops.get l = none ∧ q.flash.get l = false

theorem Position.Shed.vacant {acts : Slot → Prop} {q r : Position} (h : Position.Shed acts q r) (vacant : q.Vacant) :
    r.Vacant where
  speaking := h.speaking.elim (fun same => same.trans vacant.speaking) id
  offered := h.offered.elim (fun same => same.trans vacant.offered) id
  loops := fun l => by
    obtain ⟨loop, flash⟩ := vacant.loops l
    exact ⟨(h.loops l).elim (fun same => same.trans loop) (·.1), (h.flash l).elim (fun same => same.trans flash) id⟩

/-- The panel as a close leaves it before roles pass on. -/
def Position.signedOff (q : Position) : Position :=
  { q with isOpen := false, pause := none, missed := 0, speaking := none, loops := .fill none, flash := .fill false }

theorem Position.vacant_signedOff {q : Position} (offer : q.offered = none) : q.signedOff.Vacant :=
  ⟨rfl, offer, fun _ => ⟨Table.get_fill .., Table.get_fill ..⟩⟩

theorem Position.Vacant.unroled {q : Position} (h : q.Vacant) {r : Role} : Position.Vacant { q with role := r } :=
  ⟨h.speaking, h.offered, h.loops⟩

theorem Position.core_signedOff (q : Position) :
    q.signedOff.core = (false, q.partition, q.headset, q.role, none, 0) := rfl

/-- The event of a close in which the position's panel has been cleared. -/
def Event.cleared (e : Event) (p : Pos) (lost : Option Circuit) : Event :=
  ((List.finRange 4).foldl (Event.forceLoop p lost) (e.withdraw p)).updPos p Position.signedOff

theorem Event.closePosition_eq (e : Event) (p : Pos) (lost : Option Circuit) : e.closePosition p lost =
    ((e.cleared p lost).closeRole p).reportClosing (((e.cleared p lost).closeRole p).st.pos p).partition := by
  have part : (((e.cleared p lost).closeRole p).st.pos p).partition = ((e.cleared p lost).st.pos p).partition := by
    rw [Event.closeRole_panel]
  rw [part]
  rfl

theorem Event.forced_keeps (e : Event) (p : Pos) (lost : Option Circuit) :
    Keeps e.st ((List.finRange 4).foldl (Event.forceLoop p lost) (e.withdraw p)).st :=
  (Event.withdraw_keeps (.refl _)).trans
    (Event.foldl_keeps (fun _ _ k => k.trans (Event.forceLoop_keeps ..)) (.refl _))

theorem Event.cleared_pos (e : Event) (p : Pos) (lost : Option Circuit) (x : Pos) :
    ((e.cleared p lost).st.pos x).core =
      if p = x then ((e.st.pos x).signedOff).core else (e.st.pos x).core := by
  have core := (e.forced_keeps p lost).pos x
  unfold Event.cleared
  rw [Event.updPos_pos]
  split
  · simp only [Position.core, Prod.mk.injEq] at core
    obtain ⟨-, partition, headset, role, -, -⟩ := core
    unfold Position.core Position.signedOff
    rw [partition, headset, role]
  · exact core

theorem Event.cleared_vacant (e : Event) (p : Pos) (lost : Option Circuit) : ((e.cleared p lost).st.pos p).Vacant := by
  have offer : (((List.finRange 4).foldl (Event.forceLoop p lost) (e.withdraw p)).st.pos p).offered = none := by
    have later : Clears (e.withdraw p).st ((List.finRange 4).foldl (Event.forceLoop p lost) (e.withdraw p)).st :=
      .foldl (fun _ _ k => k.forceLoop) (.refl _)
    exact (later p).offered.elim (fun same => same.trans (e.withdraw_offered p)) id
  unfold Event.cleared
  rw [Event.updPos_pos, if_pos rfl]
  exact Position.vacant_signedOff offer

theorem Event.goNight_core (e : Event) (q : Part) (x : Pos) : ((e.goNight q).st.pos x).core = (e.st.pos x).core := by
  have rerouted : Keeps (e.updPrt q fun r => { r with mode := .night }).st (e.goNight q).st :=
    Event.foldl_keeps (fun _ _ k => Event.rerouteMember_keeps k) (.refl _)
  exact rerouted.pos x

theorem Event.reportClosing_core (e : Event) (q : Option Part) (x : Pos) :
    ((e.reportClosing q).st.pos x).core = (e.st.pos x).core := by
  unfold Event.reportClosing
  split
  · split
    · exact e.goNight_core ..
    · rfl
  · rfl

theorem State.awaits.updPos {e : Event} {c : CellIx} (h : e.st.awaits c) {p : Pos} {g : Position → Position}
    (cells : ∀ q, (g q).extendCell = q.extendCell) : (e.updPos p g).st.awaits c :=
  h.of_eq rfl rfl fun x => by
    rw [Event.updPos_pos]
    split
    · exact cells _
    · rfl

theorem State.awaits.closeRole {e : Event} {c : CellIx} (h : e.st.awaits c) (p : Pos) : (e.closeRole p).st.awaits c := by
  have roles := Event.fillRoles_roles (e.unroled p)
  rw [Event.closeRole_eq]
  refine h.of_eq ?_ ?_ fun x => ?_
  · rw [roles.rest, Event.unroled_shape]
  · rw [roles.rest, Event.unroled_shape]
  · rw [roles.panel, Event.unroled_panel]

theorem State.awaits.reportClosing {e : Event} {c : CellIx} (h : e.st.awaits c) (q : Option Part) :
    (e.reportClosing q).st.awaits c := by
  unfold Event.reportClosing
  split
  · split
    · next q _ =>
      have night : (e.updPrt q fun r => { r with mode := .night }).st.awaits c := h.of_eq rfl rfl fun _ => rfl
      exact night.keeps (Event.foldl_keeps (fun _ _ k => Event.rerouteMember_keeps k) (.refl _))
    · exact h
  · exact h

/-- The order in the cell still awaits its answer when the position has been closed. -/
theorem State.awaits.closePosition {e : Event} {c : CellIx} (h : e.st.awaits c) (p : Pos) (lost : Option Circuit) :
    (e.closePosition p lost).st.awaits c := by
  rw [Event.closePosition_eq]
  have cleared : (e.cleared p lost).st.awaits c := (h.keeps (e.forced_keeps p lost)).updPos fun _ => rfl
  exact (cleared.closeRole p).reportClosing _

/-! ### The event of a close -/

section Closed

variable {e : Event} {p : Pos} {lost : Option Circuit}

theorem Event.closePosition_core (e : Event) (p : Pos) (lost : Option Circuit) (x : Pos) :
    ((e.closePosition p lost).st.pos x).core = (((e.cleared p lost).closeRole p).st.pos x).core := by
  rw [Event.closePosition_eq, Event.reportClosing_core]

/-- What a close makes of its own panel. -/
theorem Event.closePosition_panel (e : Event) (p : Pos) (lost : Option Circuit) :
    ((e.closePosition p lost).st.pos p).core =
        (false, (e.st.pos p).partition, (e.st.pos p).headset, .none, none, 0) ∧
      ((e.closePosition p lost).st.pos p).Vacant := by
  have core := e.cleared_pos p lost p
  rw [if_pos rfl, Position.core_signedOff] at core
  have vacant := e.cleared_vacant p lost
  rw [Event.closePosition_eq]
  generalize e.cleared p lost = b at core vacant ⊢
  have closed : (b.st.pos p).isOpen = false := (congrArg Prod.fst core :)
  have panel := b.closeRole_panel p p
  rw [Event.closeRole_closed closed (.inl rfl)] at panel
  rw [Event.reportClosing_core, panel]
  have left : ((b.closeRole p).st.pos p).Vacant := by
    rw [panel]
    exact vacant.unroled
  simp only [Position.core, Prod.mk.injEq] at core
  obtain ⟨isOpen, partition, headset, -, pause, missed⟩ := core
  refine ⟨?_, Position.Shed.vacant (((Clears.refl (b.closeRole p).st).reportClosing) p) left⟩
  unfold Position.core
  dsimp only
  rw [isOpen, partition, headset, pause, missed]

/-- The end of the event keeps what the close made of the panel. -/
theorem Event.finish_vacant {f : Event} {p : Pos} (closed : (f.st.pos p).isOpen = false) (vacant : (f.st.pos p).Vacant) :
    (f.finish.pos p).core = (f.st.pos p).core ∧ (f.finish.pos p).Vacant :=
  ⟨(Event.finish_keeps (.refl f.st)).pos p, (Event.finish_clears closed (.refl f.st)).vacant vacant⟩

end Closed

theorem CloseReady.closes {s : State} {c : CellIx} {p : Pos} (r : CloseReady s c p) :
    (Event.taking s c).own c .closeK = ((Event.taking s c).closePosition p none, some (.ok, 0)) := by
  have free : ¬ (cellBody s.mem c 0 = 0 ∧ (s.pos p).loops.list.any (·.isSome) = true) := fun ⟨unforced, used⟩ => by
    rcases r.loops with forced | empty
    · exact forced unforced
    · obtain ⟨x, hx, some⟩ := List.any_eq_true.mp used
      obtain ⟨n, hn, rfl⟩ := List.mem_iff_getElem.mp hx
      have gone : (s.pos p).loops.list[n] = none := empty ⟨n, by rw [← (s.pos p).loops.len]; exact hn⟩
      rw [gone] at some
      cases some
  rw [r.own_eq]
  dsimp only
  unfold Event.ownClose
  dsimp only
  rw [Event.taking_st, State.pos_taken, if_neg (by simp [r.isOpen]), if_neg free]
  rfl

/-- The role and the OPEN mark of another position when a close has cleared its panel. -/
theorem Event.cleared_apart {e : Event} {p x : Pos} {lost : Option Circuit} (h : p ≠ x) :
    ((e.cleared p lost).st.pos x).role = (e.st.pos x).role ∧ ((e.cleared p lost).st.pos x).isOpen = (e.st.pos x).isOpen := by
  have core := e.cleared_pos p lost x
  rw [if_neg h] at core
  simp only [Position.core, Prod.mk.injEq] at core
  obtain ⟨isOpen, -, -, role, -, -⟩ := core
  exact ⟨role, isOpen⟩

theorem Event.cleared_role (e : Event) (p : Pos) (lost : Option Circuit) (x : Pos) :
    ((e.cleared p lost).st.pos x).role = (e.st.pos x).role := by
  obtain rfl | apart := eq_or_ne p x
  · have core := e.cleared_pos p lost p
    rw [if_pos rfl, Position.core_signedOff] at core
    simp only [Position.core, Prod.mk.injEq] at core
    obtain ⟨-, -, -, role, -, -⟩ := core
    exact role
  · exact (Event.cleared_apart apart).1

/-- The chief's role passes to the one deputy at a close (R80). -/
theorem Event.closePosition_passes {e : Event} {p d : Pos} {lost : Option Circuit} (chief : (e.st.pos p).role = .chief)
    (deputy : (e.st.pos d).role = .deputy) (alone : ∀ x, (e.st.pos x).role = .deputy → x = d) :
    ((e.closePosition p lost).st.pos d).role = .chief := by
  have core := e.closePosition_core p lost d
  simp only [Position.core, Prod.mk.injEq] at core
  obtain ⟨-, -, -, role, -, -⟩ := core
  rw [role]
  refine Event.closeRole_passes ?_ ?_ fun x => ?_
  · rw [e.cleared_role, chief]
  · rw [e.cleared_role, deputy]
  · rw [e.cleared_role]
    exact alone x

/-- A closed position without a role takes none at another's close. -/
theorem Event.closePosition_apart {e : Event} {p x : Pos} {lost : Option Circuit} (apart : p ≠ x)
    (bare : (e.st.pos x).role = .none) (closed : (e.st.pos x).isOpen = false) :
    ((e.closePosition p lost).st.pos x).role = .none := by
  obtain ⟨sameRole, sameOpen⟩ := Event.cleared_apart (e := e) (lost := lost) apart
  have core := e.closePosition_core p lost x
  simp only [Position.core, Prod.mk.injEq] at core
  obtain ⟨-, -, -, role, -, -⟩ := core
  rw [role]
  exact Event.closeRole_closed (sameOpen.trans closed) (.inr (sameRole.trans bare))

/-- Settles O19. -/
theorem closeSignsThePositionOff : Obligations.CloseSignsThePositionOff := by
  intro s c p r
  have awaits := r.awaits
  rw [← Event.taking_st] at awaits
  obtain ⟨run, finished⟩ := r.replies r.closes (awaits.closePosition p none)
  obtain ⟨core, vacant⟩ := (Event.taking s c).closePosition_panel p none
  have passes := fun d => Event.closePosition_passes (e := Event.taking s c) (p := p) (d := d) (lost := none)
  have bare := fun x => Event.closePosition_apart (e := Event.taking s c) (p := p) (x := x) (lost := none)
  generalize (Event.taking s c).closePosition p none = f at run finished core vacant passes bare
  simp only [Event.taking_st, State.pos_taken] at core passes bare
  have closed : (f.st.pos p).isOpen = false := (congrArg Prod.fst core :)
  obtain ⟨same, empty⟩ := Event.finish_vacant (f := f.replied c .ok) closed vacant
  have ends : ∀ x, (((f.replied c .ok).finish).pos x).role = (f.st.pos x).role := fun x => by
    have core := (Event.finish_keeps (e := f.replied c .ok) (.refl _)).pos x
    simp only [Position.core, Prod.mk.injEq] at core
    obtain ⟨-, -, -, role, -, -⟩ := core
    exact role
  generalize (f.replied c .ok).finish = t at run finished same empty ends
  have panel : (t.pos p).core = _ := same.trans core
  simp only [Position.core, Prod.mk.injEq] at panel
  obtain ⟨isOpen, partition, headset, role, pause, missed⟩ := panel
  obtain ⟨speaking, offered, loops⟩ := empty
  refine ⟨t, run, finished, isOpen, pause, missed, speaking, offered, role, loops, partition, headset,
    fun d chief _ deputy alone _ => ?_, fun x apart none shut => ?_⟩
  · rw [ends]
    exact passes d chief deputy alone
  · rw [ends]
    exact bare x (Ne.symm apart) none shut

end Sys2Proof.Machine
end

section
/-! SUPPORT. OPEN (R63, R64, R79, R120) and the offers that follow it (R35 to R38); and O18. -/

namespace Sys2Proof.Machine

/-! ### The role of a position that signs on (R79) -/

section Opening

variable {e : Event} {p : Pos}

theorem State.vacant_iff {t : State} {r : Role} : t.vacant r = true ↔ ∀ x, (t.pos x).role ≠ r := by
  unfold State.vacant
  simp

theorem Event.fillRole_role (e : Event) (r : Role) (holder : Option Pos) (x : Pos) :
    ((e.fillRole r holder).st.pos x).role =
      if holder = some x ∧ (∀ y, (e.st.pos y).role ≠ r) ∧ (e.st.pos x).isOpen = true ∧ (e.st.pos x).role = .none then r
      else (e.st.pos x).role := by
  unfold Event.fillRole
  cases holder with
  | none => rfl
  | some p =>
    dsimp only
    by_cases fills : (e.st.vacant r && (e.st.pos p).isOpen && (e.st.pos p).role == .none) = true
    · rw [if_pos fills, Event.updPos_pos]
      simp only [Bool.and_eq_true, beq_iff_eq, State.vacant_iff] at fills
      obtain ⟨⟨vacant, isOpen⟩, none⟩ := fills
      by_cases same : p = x
      · subst same
        rw [if_pos rfl, if_pos ⟨rfl, vacant, isOpen, none⟩]
      · rw [if_neg same, if_neg fun h => same (Option.some.inj h.1)]
    · rw [if_neg fills]
      simp only [Bool.and_eq_true, beq_iff_eq, State.vacant_iff] at fills
      rw [if_neg]
      rintro ⟨same, vacant, isOpen, none⟩
      cases same
      exact fills ⟨⟨vacant, isOpen⟩, none⟩

/-- The role that the roles' filling gives an OPEN position without one. -/
theorem Event.fillRoles_role (isOpen : (e.st.pos p).isOpen = true) (none : (e.st.pos p).role = .none) :
    (e.fillRoles.st.pos p).role = roleOnOpening e.st p := by
  unfold Event.fillRoles roleOnOpening
  cases e.st.plan with
  | none => exact none
  | some pl =>
    dsimp only
    have chief := e.fillRole_role .chief pl.chief
    have roles := e.fillRole_roles .chief pl.chief
    have deputies : (∀ y, ((e.fillRole .chief pl.chief).st.pos y).role ≠ .deputy) ↔ ∀ y, (e.st.pos y).role ≠ .deputy :=
      forall_congr' fun y => by
        rw [chief]
        split
        · next taken => simp [taken.2.2.2]
        · rfl
    have still : ((e.fillRole .chief pl.chief).st.pos p).isOpen = true := by
      rw [roles.panel]
      exact isOpen
    rw [Event.fillRole_role]
    by_cases takes : pl.chief = some p ∧ ∀ q, (e.st.pos q).role ≠ .chief
    · have chosen := (chief p).trans (if_pos ⟨takes.1, takes.2, isOpen, none⟩)
      rw [if_pos takes, if_neg fun h => absurd (chosen.symm.trans h.2.2.2) (by decide), chosen]
    · have passed := (chief p).trans (if_neg fun h => takes ⟨h.1, h.2.1⟩)
      rw [if_neg takes]
      by_cases second : pl.deputy = some p ∧ ∀ q, (e.st.pos q).role ≠ .deputy
      · rw [if_pos second, if_pos ⟨second.1, deputies.mpr second.2, still, passed.trans none⟩]
      · rw [if_neg second, if_neg fun h => second ⟨h.1, deputies.mp h.2.1⟩, passed, none]

end Opening

/-! ### What the arbiter finds (R35 to R37) -/

/-- The arbiter's deal from a state is its deal from one whose panels show it the same. -/
theorem Distributed.transfer {u v t : State} {q : Part} (h : Distributed v t q)
    (panel : ∀ x, u.pos x = { v.pos x with missed := (u.pos x).missed, role := (u.pos x).role, rev := (u.pos x).rev })
    (calls : ∀ i, u.call i = v.call i) (roster : (u.prt q).roster = (v.prt q).roster) (part : u.part q = v.part q)
    (seconds : u.seconds = v.seconds) : Distributed u t q := by
  have takes : ∀ x, canTake u q x = canTake v q x := fun x => by
    unfold canTake
    rw [panel]
  have recalls : ∀ x, recallOf u q x = recallOf v q x := fun x => by
    unfold recallOf
    simp only [calls, roster]
  have left : leftToStepB u q = leftToStepB v q := by
    unfold leftToStepB
    simp only [calls, roster, takes, recalls]
  have turns : ∀ xs, inTurn u q xs ↔ inTurn v q xs := fun xs => by
    have idle : ∀ x, (u.pos x).idleSince = (v.pos x).idleSince := fun x => by rw [panel]
    unfold inTurn
    simp only [takes, recalls, idle]
  constructor
  case stepA =>
    intro x i
    rw [takes, recalls]
    exact h.stepA x i
  case stepB =>
    intro xs
    rw [turns, left]
    exact h.stepB xs
  case apart =>
    intro x
    rw [takes, panel x]
    exact h.apart x
  case offered =>
    intro x i
    unfold offerOf
    rw [takes, calls, seconds, part]
    exact h.offered x i
  case waiting =>
    intro i
    simp only [roster, calls, takes]
    exact h.waiting i

/-! ### The event of an opening (R64) -/

/-- The panel of a position that signs on, its role apart. -/
def Position.signedOn (q : Position) : Position := { q with isOpen := true, pause := none, missed := 0 }

/-- What an opening makes of a state but for the cell of its order. -/
structure Opened (s w : State) (p : Pos) (q : Part) : Prop where
  panel : w.pos p = { (s.pos p).signedOn with role := roleOnOpening s p }
  panels : ∀ x, w.pos x = { (if p = x then (s.pos x).signedOn else s.pos x) with role := (w.pos x).role }
  roles : ∀ x, x ≠ p → (w.pos x).role = (s.pos x).role ∨ (s.pos x).isOpen = true ∧ (s.pos x).role = .none
  calls : ∀ i, w.call i = s.call i
  home : w.prt q = { s.prt q with mode := if (s.part q).autoNight = true then .day else (s.prt q).mode }
  parts : ∀ r, r ≠ q → w.prt r = s.prt r
  lamp : ∀ k, w.lamp k = s.lamp k
  link : ∀ l, w.link l = s.link l
  free : w.free = s.free
  rings : w.rings = s.rings
  seconds : w.seconds = s.seconds
  plan : w.plan = s.plan

section Open

variable {s : State} {c : CellIx} {p : Pos} {q : Part}

/-- A partition with auto night is in DAY once a position of it has opened (R120). -/
theorem Event.reportOpening_eq {e : Event} (panel : (e.st.pos p).partition = some q) :
    e.reportOpening p = e.updPrt q fun r => { r with mode := if (e.st.part q).autoNight = true then .day else r.mode } := by
  have same : ∀ g : Partition → Partition, g (e.st.prt q) = e.st.prt q → e.updPrt q g = e := fun g hg => by
    have still : e.st.setPrt q (e.st.prt q) = e.st := by
      unfold State.setPrt State.prt
      rw [Table.set_get]
    unfold Event.updPrt Event.upd
    dsimp only
    rw [hg, still]
  unfold Event.reportOpening
  rw [panel]
  dsimp only
  by_cases auto : (e.st.part q).autoNight = true
  · by_cases night : (e.st.prt q).mode = .night
    · rw [if_pos ⟨auto, night⟩]
      unfold Event.goDay
      simp only [auto, if_true]
    · have day : (e.st.prt q).mode = .day := by
        cases mode : (e.st.prt q).mode with
        | day => rfl
        | night => exact absurd mode night
      rw [if_neg fun h => night h.2, same]
      rw [if_pos auto, ← day]
  · rw [if_neg fun h => auto h.1, same]
    rw [if_neg auto]

theorem OpenReady.opens (r : OpenReady s c p q) (none : (s.pos p).role = .none) :
    ∃ f : Event, (Event.taking s c).own c .openK = (f, some (.ok, 0)) ∧ Opened s f.st p q ∧
      (Event.taking s c).Only f ∧ f.gained = .fill false ∧ f.st.awaits c := by
  obtain ⟨h, headset, serves⟩ := r.headset
  have lineOk : (s.taken c).headsetServes p = true := by
    unfold State.headsetServes
    rw [State.pos_taken, headset]
    dsimp only
    rw [State.lamp_taken]
    simpa [lineServes] using serves
  have own : (Event.taking s c).own c .openK =
      ((((Event.taking s c).updPos p Position.signedOn).fillRoles.reportOpening p), some (.ok, 0)) := by
    rw [r.own_eq]
    dsimp only
    unfold Event.ownOpen
    dsimp only
    rw [Event.taking_st, State.pos_taken, if_neg (by simp [r.closed]), if_neg (by simp [r.partition]), lineOk]
    rfl
  have signed : ∀ x, ((Event.taking s c).updPos p Position.signedOn).st.pos x =
      if p = x then (s.pos x).signedOn else s.pos x := fun x => by
    rw [Event.updPos_pos, Event.taking_st, State.pos_taken]
  have here := signed p
  rw [if_pos rfl] at here
  have only : (Event.taking s c).Only ((Event.taking s c).updPos p Position.signedOn) := (Event.taking s c).updPos_only p _
  have awaits : ((Event.taking s c).updPos p Position.signedOn).st.awaits c :=
    State.awaits.updPos (e := Event.taking s c) r.awaits fun _ => rfl
  have rest : ((Event.taking s c).updPos p Position.signedOn).st =
      { s.taken c with positions := ((Event.taking s c).updPos p Position.signedOn).st.positions } := rfl
  have gained : ((Event.taking s c).updPos p Position.signedOn).gained = .fill false := rfl
  generalize (Event.taking s c).updPos p Position.signedOn = e at own signed here only awaits rest gained
  have roles := e.fillRoles_roles
  have role : (e.fillRoles.st.pos p).role = roleOnOpening s p := by
    rw [Event.fillRoles_role (by rw [here]; rfl) (by rw [here]; exact none)]
    have same : ∀ x, (e.st.pos x).role = (s.pos x).role := fun x => by
      rw [signed]
      split <;> rfl
    have plan : e.st.plan = s.plan := by rw [rest]; exact s.taken_plan c
    unfold roleOnOpening
    simp only [plan, same]
  have report := Event.reportOpening_eq (e := e.fillRoles) (p := p) (q := q) (by rw [roles.panel, here]; exact r.partition)
  have shape : e.fillRoles.st = { s.taken c with positions := e.fillRoles.st.positions } := by
    rw [roles.rest, rest]
  have panels := roles.panel
  have changed := roles.role
  have calm : (Event.taking s c).Only e.fillRoles ∧ e.fillRoles.gained = .fill false ∧ e.fillRoles.st.awaits c := by
    refine ⟨only.trans ?_, ?_, awaits.of_eq ?_ ?_ fun x => ?_⟩
    · rw [roles.rest]
      exact ⟨rfl, rfl, rfl, rfl⟩
    · rw [roles.rest]
      exact gained
    · rw [roles.rest]
    · rw [roles.rest]
    · rw [roles.panel]
  rw [report] at own
  clear report roles
  generalize e.fillRoles = g at own role shape panels changed calm
  obtain ⟨only', gained', awaits'⟩ := calm
  refine ⟨_, own, ?_, ⟨only'.start, only'.refusals, only'.serve, only'.keepIdle⟩, gained', awaits'.of_eq rfl rfl fun _ => rfl⟩
  have part : g.st.part q = s.part q := by rw [shape]; exact s.part_taken c q
  have prt : ∀ x, g.st.prt x = s.prt x := fun x => by rw [shape]; exact s.prt_taken c x
  constructor
  case panel =>
    refine (panels p).trans ?_
    rw [here, role]
  case panels => exact fun x => (panels x).trans (by rw [signed]; rfl)
  case roles =>
    intro x hx
    rcases changed x with same | taken
    · exact .inl (same.trans (by rw [signed, if_neg hx.symm]))
    · rw [signed, if_neg hx.symm] at taken
      exact .inr taken
  case calls => exact fun i => by show g.st.call i = _; rw [shape]; exact s.call_taken c i
  case home =>
    refine (State.prt_setPrt_self ..).trans ?_
    rw [part, prt]
  case parts => exact fun x hx => (State.prt_setPrt_ne _ _ hx.symm).trans (prt x)
  case lamp => exact fun k => by show g.st.lamp k = _; rw [shape]; exact s.lamp_taken c k
  case link => exact fun l => by show g.st.link l = _; rw [shape]; exact s.link_taken c l
  case free => show g.st.free = _; rw [shape]; exact s.taken_free c
  case rings => show g.st.rings = _; rw [shape]; exact s.taken_rings c
  case seconds => show g.st.seconds = _; rw [shape]; exact s.taken_seconds c
  case plan => show g.st.plan = _; rw [shape]; exact s.taken_plan c

/-- A position that signs on is available. -/
theorem OpenReady.available (r : OpenReady s c p q) {w : State} (opened : Opened s w p q) :
    (w.pos p).available = true := by
  obtain ⟨offered, silent, loops⟩ := r.bare
  rw [opened.panel]
  exact Position.available_iff.mpr ⟨rfl, rfl, offered, silent, 0, loops 0⟩

/-- The arbiter of the opening position's partition runs, and no other (R35, R69). -/
theorem OpenReady.distributes (r : OpenReady s c p q) {e : Event} (opened : Opened s e.st p q)
    (start : ∀ x, e.start.pos x = s.pos x) (refusals : e.refusals = []) (serve : e.serve = []) (keepIdle : e.keepIdle = [])
    (gained : e.gained = .fill false) (holds : RosterHolds s q) :
    Distributed (s.setPos p { s.pos p with isOpen := true, pause := none, idleSince := s.seconds }) e.finish q := by
  have avail := r.available opened
  have fresh : ∀ x, e.freed x = true ↔ x = p := fun x => by
    unfold Event.freed
    rw [start]
    obtain rfl | apart := eq_or_ne p x
    · have shut : (s.pos p).available = false := by
        unfold Position.available
        rw [r.closed]
        rfl
      rw [avail, shut]
      simp
    · have same : (e.st.pos x).available = (s.pos x).available := by
        rw [opened.panels x, if_neg apart]
        rfl
      rw [same, Bool.and_not_self]
      simp [apart.symm]
  have tested := e.testPositions_tested
  have stamped := e.testPositions_stamps p ((fresh p).mpr rfl) (by rw [keepIdle]; exact List.not_mem_nil)
  have only : ∀ x, e.testPositions.gained.get x = true ↔ x = q := fun x => by
    rw [tested.gained, gained, Table.get_fill]
    simp only [Bool.false_eq_true, false_or, List.mem_finRange, true_and, fresh, exists_eq_left]
    rw [opened.panel]
    show (s.pos p).partition = some x ↔ _
    rw [r.partition, Option.some.injEq, eq_comm]
  obtain ⟨-, revised, quiet⟩ := Event.finish_ends refusals (by rw [serve]; exact nofun)
  rw [Event.runArbiters_one only] at revised quiet
  have calls : ∀ i, e.testPositions.st.call i = s.call i := fun i => (tested.call i).trans (opened.calls i)
  have roster : (e.testPositions.st.prt q).roster = (s.prt q).roster := by
    rw [tested.prt, opened.home]
  have deals := Event.arbiter_distributes (e := e.testPositions) (u := e.testPositions.st) (q := q)
    ⟨fun _ => rfl, rfl, fun j => .refl _, rfl, rfl⟩ (by rw [roster]; exact holds.once)
    (fun j hj => by rw [calls]; rw [roster] at hj; exact holds.members j hj) revised quiet
  have seconds : e.testPositions.st.seconds = s.seconds := by rw [tested.rest]; exact opened.seconds
  have plan : e.testPositions.st.plan = s.plan := by rw [tested.rest]; exact opened.plan
  have idle : ∀ x, p ≠ x → (e.testPositions.st.pos x).idleSince = (s.pos x).idleSince := fun x apart => by
    rcases tested.idle x with same | ⟨fresh', -⟩
    · rw [same, opened.panels, if_neg apart]
    · exact absurd ((fresh x).mp fresh').symm apart
  refine deals.transfer (fun x => ?_) (fun i => (calls i).symm) roster.symm (State.part_congr plan q).symm seconds.symm
  rw [tested.panel, opened.panels]
  obtain rfl | apart := eq_or_ne p x
  · rw [State.pos_setPos_self, stamped, opened.seconds, if_pos rfl]
    rfl
  · rw [State.pos_setPos_ne _ _ apart, idle x apart, if_neg apart]

end Open

/-- Settles O18. -/
theorem openSignsThePositionOn : Obligations.OpenSignsThePositionOn := by
  intro s c p q r none
  obtain ⟨f, own, opened, only, gained, awaits⟩ := r.opens none
  obtain ⟨run, finished, ended⟩ := r.ends own rfl only.refusals (by rw [only.serve]; exact nofun) awaits
  have quiet := ended.quiet
  have start : ∀ x, (f.replied c .ok).start.pos x = s.pos x := fun x => by
    rw [Event.replied_start, only.start, Event.taking_start, State.pos_refuseStales]
  have replied : Opened s (f.replied c .ok).st p q :=
    ⟨opened.panel, opened.panels, opened.roles, opened.calls, opened.home, opened.parts, opened.lamp, opened.link,
      opened.free, opened.rings, opened.seconds, opened.plan⟩
  have stamps : ((f.replied c .ok).finish.pos p).idleSince = (f.replied c .ok).st.seconds := by
    refine Event.finish_stamps (e := f.replied c .ok) only.refusals (by rw [Event.replied_serve, only.serve]; exact nofun)
      ?_ (by rw [Event.replied_keepIdle, only.keepIdle]; exact List.not_mem_nil)
    unfold Event.freed
    rw [r.available replied, start]
    unfold Position.available
    rw [r.closed]
    rfl
  have deals := r.distributes (e := f.replied c .ok) replied start only.refusals only.serve only.keepIdle gained
  have panel := fun x => quiet.pos x
  generalize (f.replied c .ok).finish = t at run finished quiet stamps deals panel
  simp only [State.pos_answer] at panel
  refine ⟨t, run, finished, ?_, stamps.trans opened.seconds, fun x apart => ⟨?_, ?_⟩, ?_,
    quiet.silent (fun m => opened.link m) opened.rings,
    quiet.aside (fun i _ => opened.calls i) (fun x hx => absurd trivial hx) (fun x hx => opened.parts x hx)
      (fun k => opened.lamp k) opened.free, deals⟩
  · rw [panel, opened.panel]
    rfl
  · have role : (t.pos x).role = (f.st.pos x).role := (congrArg Position.role (panel x) :)
    rw [panel, opened.panels, if_neg (Ne.symm apart), role]
    rfl
  · rw [show (t.pos x).role = (f.st.pos x).role from (congrArg Position.role (panel x) :)]
    exact opened.roles x apart
  · rw [quiet.prt, State.prt_answer, opened.home]
    rfl

end Sys2Proof.Machine
end

section
/-! SUPPORT. The forced close of a position with one loop in use, said exactly (R65, R66, R78). -/

namespace Sys2Proof.Machine

/-! ### The orders of the legs (R66, R78) -/

/-- The order is not withheld on account of a lost headset. -/
def spares (lost : Option Circuit) (o : ShelfOrder) : Bool :=
  match lost with
  | some h => !o.names h
  | none => true

/-- One of the orders that undo the legs is issued or withheld. -/
def Event.issueLeg (e : Event) (i : Slot) (lost : Option Circuit) (o : ShelfOrder) : Event :=
  match lost with
  | some h => if o.names h then e.note (some i) o else e.issueAs .spared (some i) o false
  | none => e.issueAs .spared (some i) o false

theorem Event.issueLeg_spared {lost : Option Circuit} {o : ShelfOrder} {e : Event} {i : Slot} (h : spares lost o = true) :
    e.issueLeg i lost o = e.issueAs .spared (some i) o false := by
  cases lost with
  | none => rfl
  | some x => exact if_neg (by simpa [spares] using h)

theorem Event.issueLeg_withheld {lost : Option Circuit} {o : ShelfOrder} {e : Event} {i : Slot}
    (h : ¬ spares lost o = true) : e.issueLeg i lost o = e.note (some i) o := by
  cases lost with
  | none => exact absurd rfl h
  | some x => exact if_pos (by simpa [spares] using h)

theorem Event.issueLegs_sends {os : List ShelfOrder} {lost : Option Circuit} {e : Event} {i : Slot}
    (room : e.st.room (os.filter (spares lost))) (reach : reachable e.st (os.filter (spares lost))) :
    (e.issueLegs i lost os).st = e.st.sendAll i (os.filter (spares lost)) ∧
      (e.issueLegs i lost os).refusals = e.refusals ∧ (e.issueLegs i lost os).serve = e.serve := by
  induction os generalizing e with
  | nil => exact ⟨rfl, rfl, rfl⟩
  | cons o os ih =>
    have fold : e.issueLegs i lost (o :: os) = (e.issueLeg i lost o).issueLegs i lost os := by cases lost <;> rfl
    rw [fold]
    by_cases spared : spares lost o = true
    · rw [List.filter_cons_of_pos spared] at room reach ⊢
      obtain ⟨running, space⟩ := room o List.mem_cons_self
      have sent := e.issueAs_send (how := .spared) (i := i) (h := false) (.inr (reach o List.mem_cons_self)) running
        (Nat.lt_of_lt_of_le (Nat.lt_add_of_pos_right (Nat.succ_pos _)) space)
      rw [Event.issueLeg_spared spared, sent]
      exact ih (e := { e with st := e.st.send i o false, log := e.log ++ [(i, o)] }) (State.room_send room) fun x hx => by
        dsimp only
        rw [State.shelfOf_send]
        exact reach x (List.mem_cons_of_mem _ hx)
    · rw [List.filter_cons_of_neg spared] at room reach ⊢
      rw [Event.issueLeg_withheld spared]
      exact ih (e := e.note (some i) o) room reach

section Legs

variable {u : State} {p : Pos} {i : Slot} {l : LoopIx} {h k : Circuit}

theorem ForcedLoop.legOrders_eq (f : ForcedLoop u p i l h k) : legOrders u (u.call i) = closeLegs (u.call i) h k := by
  have headset : u.headsetOf (u.call i) = some h := by
    unfold State.headsetOf
    rw [f.position]
    exact f.headset
  unfold legOrders closeLegs
  rcases f.legs with ⟨state, none, -⟩ | ⟨state, ⟨n, target⟩, -⟩
  · rcases state with state | state
    · rw [state]
    · rw [state, none]
      unfold withHeadset
      rw [headset]
      rfl
  · unfold withTarget headsetTarget
    rw [target, headset]
    rcases state with state | state | ⟨state, extend⟩
    · rw [state]
      rfl
    · rw [state]
    · rw [state, if_neg extend, Option.isSome_iff_ne_none.mpr extend]
      rfl

theorem closeLegs_spared_none (c : Call) : (closeLegs c h k).filter (spares none) = closeLegs c h k :=
  List.filter_eq_self.mpr fun _ _ => rfl

/-- The orders that do not name the headset. -/
theorem closeLegs_spared {c : Call} (apart : (c.state = .held ∨ c.state = .talking) ∧ c.extend = none ∨ k ≠ h) :
    (closeLegs c h k).filter (spares (some h)) = closeLegsSpared c k := by
  unfold closeLegs closeLegsSpared
  cases state : c.state with
  | talking =>
    by_cases extend : c.extend = none
    · simp [extend, spares, ShelfOrder.names]
    · have apart := apart.resolve_left fun h => extend h.2
      simp [extend, spares, ShelfOrder.names, apart]
  | consultRinging =>
    have apart := apart.resolve_left fun h => by rw [state] at h; exact h.1.elim nofun nofun
    have unring : spares (some h) (.unring k) = true := by simp [spares, ShelfOrder.names, apart]
    have part : ¬ spares (some h) (.part h k) = true := by simp [spares, ShelfOrder.names]
    exact (List.filter_cons_of_pos unring).trans (congrArg _ (List.filter_cons_of_neg part))
  | consultTalking => simp [spares, ShelfOrder.names]
  | _ => rfl

theorem closeLegs_isRing (c : Call) : ∀ o ∈ closeLegs c h k, o.isRing = false := by
  unfold closeLegs
  split
  · split <;> simp [ShelfOrder.isRing]
  · simp [ShelfOrder.isRing]
  · simp [ShelfOrder.isRing]
  · simp

end Legs

/-! ### The call off its loop (R66) -/

/-- The call's EXTEND is answered, its legs are undone, its loop is empty and it has no origin. -/
def State.unhanded (u : State) (i : Slot) (p : Pos) (l : LoopIx) (xs : List ShelfOrder) : State :=
  let t := ((u.extendOver p i .cancelled).sendAll i xs).unlooped p l
  t.setCall i { t.call i with origin := none }

section Unhanded

variable (u : State) (i : Slot) (p : Pos) (l : LoopIx) (xs : List ShelfOrder)

theorem State.call_unhanded_self : (u.unhanded i p l xs).call i =
    { u.call i with extend := none, pending := (u.call i).pending + xs.length, origin := none } := by
  unfold State.unhanded
  dsimp only
  rw [State.call_setCall_self, State.call_unlooped, State.call_sendAll, if_pos rfl, State.call_extendOver, if_pos rfl]

theorem State.call_unhanded_ne {j : Slot} (h : i ≠ j) : (u.unhanded i p l xs).call j = u.call j := by
  unfold State.unhanded
  dsimp only
  rw [State.call_setCall_ne _ _ h, State.call_unlooped, State.call_sendAll, if_neg h, State.call_extendOver, if_neg h]

theorem State.pos_unhanded_self (idle : (u.call i).extend = none → (u.pos p).extend = none ∧ (u.pos p).extendCell = none) :
    (u.unhanded i p l xs).pos p = Position.without { u.pos p with extend := none, extendCell := none } l := by
  unfold State.unhanded State.unlooped
  dsimp only
  rw [State.pos_setCall, State.pos_setPos_self, State.pos_sendAll, State.pos_extendOver]
  by_cases none : (u.call i).extend = none
  · obtain ⟨extend, cell⟩ := idle none
    have same : ({ u.pos p with extend := Option.none, extendCell := Option.none } : Position) = u.pos p := by
      rw [← extend, ← cell]
    rw [if_neg fun h => h.2 none, same]
  · rw [if_pos ⟨rfl, none⟩]

theorem State.prt_unhanded (q : Part) : (u.unhanded i p l xs).prt q = u.prt q := by
  unfold State.unhanded
  dsimp only
  rw [State.prt_setCall, State.prt_unlooped, State.prt_sendAll, State.prt_extendOver]

theorem State.lamp_unhanded (x : Circuit) : (u.unhanded i p l xs).lamp x = u.lamp x := by
  have unlooped : ∀ t : State, (t.unlooped p l).lamp x = t.lamp x := fun _ => rfl
  unfold State.unhanded
  dsimp only
  rw [State.lamp_setCall, unlooped, State.lamp_sendAll, State.lamp_extendOver]

theorem State.link_unhanded (m : LinkIx) : (u.unhanded i p l xs).link m =
    { u.link m with queue := (u.link m).queue ++ (entries i xs).filter fun x => linkOf x.order.first == m } := by
  unfold State.unhanded
  dsimp only
  rw [State.link_setCall, State.link_unlooped, State.link_sendAll, State.link_extendOver]

theorem State.shelfOf_unhanded (x : Circuit) : (u.unhanded i p l xs).shelfOf x = u.shelfOf x := by
  unfold State.shelfOf
  rw [State.link_unhanded]

theorem State.unhanded_rest : (u.unhanded i p l xs).free = u.free ∧ (u.unhanded i p l xs).seconds = u.seconds ∧
    (u.unhanded i p l xs).plan = u.plan := by
  have planned : (u.extendOver p i .cancelled).plan = u.plan := by
    unfold State.extendOver
    split
    · rfl
    · rw [State.endExtend_plan]
  unfold State.unhanded State.unlooped
  dsimp only
  refine ⟨?_, ?_, ?_⟩
  · rw [State.setCall_free, State.setPos_free, State.sendAll_free, State.extendOver_free]
  · rw [State.setCall_seconds, State.setPos_seconds, State.sendAll_seconds, State.extendOver_seconds]
  · rw [State.setCall_plan, State.setPos_plan, State.sendAll_plan, planned]

theorem State.unhanded_rings (quiet : ∀ o ∈ xs, o.isRing = false) : (u.unhanded i p l xs).rings = u.rings := by
  unfold State.unhanded
  dsimp only
  rw [State.setCall_rings, State.unlooped_rings, State.rings_sendAll _ _ _ quiet, State.extendOver_rings]

theorem State.unhanded_answered {d : CellIx} (wf : Memory.wf u.mem = true) (extend : (u.call i).extend ≠ none)
    (cell : (u.pos p).extendCell = some d) : (u.unhanded i p l xs).answered d .cancelled 0 := by
  have ended := State.endExtend_answered u p i (code := .cancelled) wf cell
  have answers : u.extendOver p i .cancelled = u.endExtend p i .cancelled := if_neg extend
  unfold State.unhanded State.unlooped
  dsimp only
  rw [answers]
  refine State.answered_congr ?_ ?_ ?_ (fun hf => ?_) ended
  · exact State.sendAll_mem ..
  · exact State.sendAll_taker ..
  · exact State.sendAll_seconds ..
  · unfold State.flag at hf ⊢
    rw [State.setCall_regs, State.setPos_regs, State.sendAll_regs]
    exact hf

end Unhanded

end Sys2Proof.Machine
end

section
/-! SUPPORT. What a forced close of a position with one loop in use makes of the state (R65, R66, R78, R80). -/

namespace Sys2Proof.Machine

/-! ### The loop in use (R66) -/

theorem Event.forceLoop_none {e : Event} {p : Pos} {lost : Option Circuit} {l : LoopIx}
    (empty : (e.st.pos p).loops.get l = none) : Event.forceLoop p lost e l = e := by
  unfold Event.forceLoop
  rw [empty]

/-- A fold in which one element acts, and the others do nothing before it and after it. -/
theorem foldl_only {α β : Type} {f : β → α → β} {b : β} {a : α} {xs : List α} (mem : a ∈ xs) (once : xs.Nodup)
    (before : ∀ x, x ≠ a → f b x = b) (after : ∀ x, x ≠ a → f (f b a) x = f b a) : xs.foldl f b = f b a := by
  have still : ∀ (c : β) (ys : List α), (∀ y ∈ ys, f c y = c) → ys.foldl f c = c := fun c ys idle => by
    induction ys with
    | nil => rfl
    | cons y ys ih =>
      rw [List.foldl_cons, idle y List.mem_cons_self]
      exact ih fun z hz => idle z (List.mem_cons_of_mem _ hz)
  obtain ⟨front, back, rfl⟩ := List.append_of_mem mem
  obtain ⟨-, rest, disjoint⟩ := List.nodup_append.mp once
  rw [List.foldl_append, List.foldl_cons, still b front fun x hx => before x (disjoint x hx a List.mem_cons_self)]
  exact still _ back fun x hx => after x fun same => (List.nodup_cons.mp rest).1 (same ▸ hx)

/-- The orders of a forced close of that loop. -/
def forcedOrders (u : State) (i : Slot) (h k : Circuit) (lost : Option Circuit) : List ShelfOrder :=
  (closeLegs (u.call i) h k).filter (spares lost)

theorem forcedOrders_isRing (u : State) (i : Slot) (h k : Circuit) (lost : Option Circuit) :
    ∀ o ∈ forcedOrders u i h k lost, o.isRing = false := fun o ho => closeLegs_isRing _ o (List.mem_of_mem_filter ho)

section Forces

variable {e : Event} {p : Pos} {i : Slot} {l : LoopIx} {h k : Circuit} {lost : Option Circuit}

theorem ForcedLoop.live {u : State} (f : ForcedLoop u p i l h k) : (u.call i).state ≠ .free := by
  rcases f.legs with ⟨state | state, -⟩ | ⟨state | state | ⟨state, -⟩, -⟩ <;> rw [state] <;> decide

/-- The one loop in use is emptied and its call is recalled. -/
theorem ForcedLoop.forces (f : ForcedLoop e.st p i l h k)
    (room : e.st.room (forcedOrders e.st i h k lost ++ [.tone (e.st.call i).caller .ringback]))
    (reach : reachable e.st (forcedOrders e.st i h k lost ++ [.tone (e.st.call i).caller .ringback])) :
    (Event.forceLoop p lost e l).st = (e.st.unhanded i p l (forcedOrders e.st i h k lost)).recalled i ∧
      (Event.forceLoop p lost e l).refusals = e.refusals ∧
      (Event.forceLoop p lost e l).serve = e.serve ++ (e.st.call i).letsGo := by
  have here : (e.st.pos p).loops.get l = some i := (f.only l).trans (if_pos rfl)
  have link := fun m => e.st.link_unhanded i p l (forcedOrders e.st i h k lost) m
  have self := e.st.call_unhanded_self i p l (forcedOrders e.st i h k lost)
  have prt := fun q => e.st.prt_unhanded i p l (forcedOrders e.st i h k lost) q
  have shelf := fun x => e.st.shelfOf_unhanded i p l (forcedOrders e.st i h k lost) x
  have plan := (e.st.unhanded_rest i p l (forcedOrders e.st i h k lost)).2.2
  unfold Event.forceLoop
  rw [here]
  dsimp only
  rw [f.legOrders_eq, Event.answerExtendOf_over (p := p) fun _ => f.position]
  obtain ⟨st, refusals, serve⟩ := Event.issueLegs_sends (os := closeLegs (e.st.call i) h k) (lost := lost) (i := i)
    (e := { e with st := e.st.extendOver p i .cancelled })
    (fun o ho => by
      dsimp only
      rw [State.link_extendOver]
      exact State.room_append_left room o ho)
    fun o ho => by
      dsimp only [State.shelfOf]
      rw [State.link_extendOver]
      exact reach o (List.mem_append_left _ ho)
  generalize Event.issueLegs _ i lost _ = e2 at st refusals serve ⊢
  have call : e2.st.call i = { e.st.call i with
      extend := none, pending := (e.st.call i).pending + (forcedOrders e.st i h k lost).length } := by
    rw [st, State.call_sendAll, if_pos rfl, State.call_extendOver, if_pos rfl]
    rfl
  have panel : (e2.st.pos p).loops.get l = some i := by
    rw [st, State.pos_sendAll, State.pos_extendOver]
    split <;> exact here
  rw [Event.leaveLoop_eq (by rw [call]; exact f.position) (by rw [call]; exact f.callLoop) panel]
  have left : (({ e2 with st := e2.st.setPos p ((e2.st.pos p).without l) } : Event).updCall i
      fun c => { c with origin := none }).st = e.st.unhanded i p l (forcedOrders e.st i h k lost) := by
    unfold State.unhanded State.unlooped Event.updCall Event.upd forcedOrders
    dsimp only
    rw [st]
  have kept : (({ e2 with st := e2.st.setPos p ((e2.st.pos p).without l) } : Event).updCall i
      fun c => { c with origin := none }).refusals = e.refusals := refusals
  have looked : (({ e2 with st := e2.st.setPos p ((e2.st.pos p).without l) } : Event).updCall i
      fun c => { c with origin := none }).serve = e.serve := serve
  generalize Event.updCall _ i _ = e3 at left kept looked ⊢
  have part : ∀ q, (e.st.unhanded i p l (forcedOrders e.st i h k lost)).part q = e.st.part q := fun q => by
    unfold State.part
    rw [plan]
  obtain ⟨enabled, day, space, absent, once⟩ := f.takes
  obtain ⟨st3, refusals3, serve3⟩ := Event.joinRoster_recalls (e := e3) (i := i) (how := .spared)
    (by rw [left, self]; exact f.live)
    (by
      rw [left]
      refine ⟨?_, ?_, ?_, ?_, ?_⟩ <;> simp only [self, prt, part]
      exacts [enabled, day, space, absent, once])
    (by
      rw [left, self]
      exact State.room_after room link)
    (by
      rw [left, self]
      unfold State.passes
      rw [shelf]
      exact .inr (reach _ (List.mem_append_right _ List.mem_cons_self)))
  refine ⟨by rw [st3, left], refusals3.trans kept, ?_⟩
  rw [serve3, looked, left, self]
  rfl

end Forces

/-! ### The whole close (R65, R80) -/

theorem Event.closeRole_shape (e : Event) (p : Pos) :
    e.closeRole p = { e with st := { e.st with positions := (e.closeRole p).st.positions } } := by
  have roles := (Event.fillRoles_roles (e.unroled p)).rest
  have shape := e.unroled_shape p
  rw [← Event.closeRole_eq] at roles
  generalize e.closeRole p = f at roles ⊢
  rw [roles, shape]

section SignsOff

variable (e : Event) (p : Pos) (lost : Option Circuit)

/-- From the forced loops to the end of a close in which no partition goes to NIGHT, panels are all that changes. -/
theorem Event.signsOff_shape : ∃ ps, (e.cleared p lost).closeRole p =
    { (List.finRange 4).foldl (Event.forceLoop p lost) (e.withdraw p) with
      st := { ((List.finRange 4).foldl (Event.forceLoop p lost) (e.withdraw p)).st with positions := ps } } := by
  unfold Event.cleared
  generalize (List.finRange 4).foldl (Event.forceLoop p lost) (e.withdraw p) = g
  exact ⟨_, Event.closeRole_shape (g.updPos p Position.signedOff) p⟩

/-- What such a close leaves of settings and modes. -/
theorem Event.signsOff_part (q : Part) : ((e.cleared p lost).closeRole p).st.part q = e.st.part q := by
  obtain ⟨ps, shape⟩ := e.signsOff_shape p lost
  have core := (e.forced_keeps p lost).core
  generalize (List.finRange 4).foldl (Event.forceLoop p lost) (e.withdraw p) = g at shape core
  simp only [State.core, Prod.mk.injEq] at core
  obtain ⟨-, -, -, -, -, plan, -⟩ := core
  rw [shape]
  unfold State.part
  dsimp only
  rw [plan]

theorem Event.signsOff_mode (q : Part) : (((e.cleared p lost).closeRole p).st.prt q).mode = (e.st.prt q).mode := by
  obtain ⟨ps, shape⟩ := e.signsOff_shape p lost
  have core := (e.forced_keeps p lost).prt q
  generalize (List.finRange 4).foldl (Event.forceLoop p lost) (e.withdraw p) = g at shape core
  simp only [Partition.core, Prod.mk.injEq] at core
  rw [shape]
  exact core.1

/-- What it leaves of panels. -/
theorem Event.signsOff_panel (x : Pos) :
    (((e.cleared p lost).closeRole p).st.pos x).partition = (e.st.pos x).partition ∧
      (((e.cleared p lost).closeRole p).st.pos x).headset = (e.st.pos x).headset ∧
      (((e.cleared p lost).closeRole p).st.pos x).isOpen = if p = x then false else (e.st.pos x).isOpen := by
  have core := e.cleared_pos p lost x
  have panel := (e.cleared p lost).closeRole_panel p x
  generalize (e.cleared p lost).closeRole p = w at panel
  generalize e.cleared p lost = b at core panel
  rw [panel]
  split at core
  · next own =>
    rw [Position.core_signedOff] at core
    simp only [Position.core, Prod.mk.injEq] at core
    obtain ⟨isOpen, partition, headset, -⟩ := core
    exact ⟨partition, headset, isOpen.trans (if_pos own).symm⟩
  · next apart =>
    simp only [Position.core, Prod.mk.injEq] at core
    obtain ⟨isOpen, partition, headset, -⟩ := core
    exact ⟨partition, headset, isOpen.trans (if_neg apart).symm⟩

end SignsOff

/-- A partition that does not go to NIGHT at the closing of one of its positions (R119). -/
theorem Event.reportClosing_none {e : Event} {part : Option Part}
    (day : ∀ q, part = some q → (e.st.part q).autoNight = false ∨ (e.st.prt q).mode = .night ∨
      ∃ x, (e.st.pos x).partition = some q ∧ (e.st.pos x).isOpen = true) : e.reportClosing part = e := by
  unfold Event.reportClosing
  cases part with
  | none => rfl
  | some q =>
    refine if_neg fun ⟨auto, mode, closed⟩ => ?_
    rcases day q rfl with off | night | ⟨x, here, isOpen⟩
    · rw [off] at auto
      cases auto
    · rw [night] at mode
      cases mode
    · have shut := List.all_eq_true.mp closed x (List.mem_finRange x)
      rw [here, isOpen] at shut
      simp at shut

/-- A forced close from state `u` has handed back the one call of its position with the orders `xs` and RINGBACK. -/
structure HandedBack (u w : State) (p : Pos) (i : Slot) (l : LoopIx) (xs : List ShelfOrder) : Prop where
  rest : w = { (u.unhanded i p l xs).recalled i with positions := w.positions }
  panel : (w.pos p).core = (false, (u.pos p).partition, (u.pos p).headset, .none, none, 0)
  vacant : (w.pos p).Vacant
  extend : (w.pos p).extend = none ∧ (w.pos p).extendCell = none
  apart : ∀ x, p ≠ x → (w.pos x).isOpen = (u.pos x).isOpen ∧ (w.pos x).headset = (u.pos x).headset

section Closes

variable {e : Event} {p : Pos} {i : Slot} {l : LoopIx} {h k : Circuit} {lost : Option Circuit}

theorem ForcedLoop.closes (f : ForcedLoop e.st p i l h k)
    (room : e.st.room (forcedOrders e.st i h k lost ++ [.tone (e.st.call i).caller .ringback]))
    (reach : reachable e.st (forcedOrders e.st i h k lost ++ [.tone (e.st.call i).caller .ringback])) :
    HandedBack e.st (e.closePosition p lost).st p i l (forcedOrders e.st i h k lost) ∧
      (e.closePosition p lost).refusals = e.refusals ∧
      (e.closePosition p lost).serve = e.serve ++ (e.st.call i).letsGo := by
  obtain ⟨st, refusals, serve⟩ := f.forces room reach
  have idle : (e.st.call i).extend = none → (e.st.pos p).extend = none ∧ (e.st.pos p).extendCell = none := fun none =>
    ⟨f.extend.trans none, f.inFlight none⟩
  have panel : (Event.forceLoop p lost e l).st.pos p =
      Position.without { e.st.pos p with extend := none, extendCell := none } l := by
    rw [st, State.pos_recalled, State.pos_unhanded_self _ _ _ _ _ idle]
  have forced : (List.finRange 4).foldl (Event.forceLoop p lost) (e.withdraw p) = Event.forceLoop p lost e l := by
    rw [Event.withdraw_none f.offer]
    refine foldl_only (List.mem_finRange l) (List.nodup_finRange 4)
      (fun m hm => Event.forceLoop_none ((f.only m).trans (if_neg hm))) fun m _ => Event.forceLoop_none ?_
    rw [panel]
    unfold Position.without
    dsimp only
    rw [Table.get_set, f.only m]
    by_cases same : l = m
    · rw [if_pos same]
    · rw [if_neg same, if_neg (Ne.symm same)]
  have cleared : e.cleared p lost = (Event.forceLoop p lost e l).updPos p Position.signedOff := by
    unfold Event.cleared
    rw [forced]
  have stays : e.closePosition p lost = (e.cleared p lost).closeRole p := by
    rw [Event.closePosition_eq]
    refine Event.reportClosing_none fun q here => ?_
    rw [(e.signsOff_panel p lost p).1] at here
    rw [e.signsOff_part, e.signsOff_mode]
    refine (f.day q here).imp_right (Or.imp_right fun ⟨x, apart, there, isOpen⟩ => ⟨x, ?_⟩)
    obtain ⟨partition, -, open_eq⟩ := e.signsOff_panel p lost x
    rw [partition, open_eq, if_neg (Ne.symm apart)]
    exact ⟨there, isOpen⟩
  have whole := e.closePosition_panel p lost
  have others := e.signsOff_panel p lost
  have own : (((e.cleared p lost).closeRole p).st.pos p).extend = none ∧
      (((e.cleared p lost).closeRole p).st.pos p).extendCell = none := by
    rw [Event.closeRole_panel, cleared, Event.updPos_pos, if_pos rfl, panel]
    exact ⟨rfl, rfl⟩
  obtain ⟨ps, shape⟩ := e.signsOff_shape p lost
  rw [forced] at shape
  rw [stays] at whole ⊢
  generalize (e.cleared p lost).closeRole p = w at whole others own shape
  generalize Event.forceLoop p lost e l = g at st refusals serve shape
  obtain ⟨core, vacant⟩ := whole
  refine ⟨⟨?_, core, vacant, own, fun x apart => ?_⟩, ?_, ?_⟩
  · rw [shape, st]
  · obtain ⟨-, headset, isOpen⟩ := others x
    exact ⟨isOpen.trans (if_neg apart), headset⟩
  · rw [shape]
    exact refusals
  · rw [shape]
    exact serve

end Closes

end Sys2Proof.Machine
end

section
/-! SUPPORT. What a forced close shows of its call when its event has ended (R26, R65, R66). -/

namespace Sys2Proof.Machine

/-! ### A call that is recalled leaves alone what is not in its roster (R26) -/

section Recalled

variable {t : State} {i : Slot}

theorem State.mem_recallRoster {j : Slot} (h : j ∈ t.recallRoster i) :
    j = i ∨ j ∈ (t.prt (t.call i).partition).roster := by
  obtain ⟨front, back, roster, joined, -⟩ := t.recallRoster_spec i
  rw [joined] at h
  rw [roster]
  simp only [List.mem_append, List.mem_cons] at h ⊢
  tauto

theorem State.call_recalled_out {j : Slot} (apart : j ≠ i) (out : j ∉ (t.prt (t.call i).partition).roster) :
    (t.recalled i).call j = t.call j := by
  unfold State.recalled State.enlisted
  dsimp only
  rw [State.call_send, if_neg (Ne.symm apart), State.call_alerted, State.call_numbered_out, State.call_setCall_ne]
  · rfl
  · exact Ne.symm apart
  · exact fun h => (State.mem_recallRoster h).elim apart out

theorem State.prt_recalled_ne {q : Part} (apart : q ≠ (t.call i).partition) : (t.recalled i).prt q = t.prt q := by
  unfold State.recalled State.enlisted
  dsimp only
  rw [State.prt_send, State.prt_alerted, if_neg (Ne.symm apart), State.prt_numbered, State.prt_setCall,
    State.prt_setPrt_ne _ _ (Ne.symm apart)]

theorem State.lamp_recalled (k : Circuit) : (t.recalled i).lamp k = t.lamp k := by
  unfold State.recalled
  rw [State.lamp_send, State.lamp_enlisted]

theorem State.recalled_mem (t : State) (i : Slot) : (t.recalled i).mem = t.mem := by
  unfold State.recalled State.enlisted
  simp

theorem State.recalled_taker (t : State) (i : Slot) : (t.recalled i).taker = t.taker := by
  unfold State.recalled State.enlisted
  simp

theorem State.recalled_seconds (t : State) (i : Slot) : (t.recalled i).seconds = t.seconds := by
  unfold State.recalled State.enlisted
  simp

theorem State.recalled_free (t : State) (i : Slot) : (t.recalled i).free = t.free := by
  unfold State.recalled State.enlisted
  simp

theorem State.alerted_flag (t : State) (q : Part) {x : Flag} (h : t.flag x = true) : (t.alerted q).flag x = true := by
  unfold State.alerted
  dsimp only
  split
  · exact State.flag_mono (Keeps.raise (t.setPrt q { t.prt q with alert := t.alertDue q }) .alert).summary h
  · exact h

theorem State.recalled_flag (t : State) (i : Slot) {x : Flag} (h : t.flag x = true) : (t.recalled i).flag x = true := by
  unfold State.recalled State.enlisted State.flag
  dsimp only
  rw [State.send_regs]
  refine State.alerted_flag _ _ ?_
  unfold State.flag
  rw [State.numbered_rest]
  exact h

theorem State.recalled_answered (t : State) (i : Slot) {d : CellIx} {code : ResultCode} {x : Word}
    (h : t.answered d code x) : (t.recalled i).answered d code x :=
  State.answered_congr (t.recalled_mem i) (t.recalled_taker i) (t.recalled_seconds i) (t.recalled_flag i) h

end Recalled

/-! ### A call handed back (R66) -/

section HandedBack

variable {u w : State} {p : Pos} {i : Slot} {l : LoopIx} {xs : List ShelfOrder} (b : HandedBack u w p i l xs)
include b

theorem HandedBack.call (j : Slot) : w.call j = ((u.unhanded i p l xs).recalled i).call j := by
  rw [b.rest]
  rfl

theorem HandedBack.prt (q : Part) : w.prt q = ((u.unhanded i p l xs).recalled i).prt q := by
  rw [b.rest]
  rfl

theorem HandedBack.call_self : ∃ x, w.call i = { (Call.enlist { u.call i with
    extend := none, pending := (u.call i).pending + xs.length, origin := none } u.seconds) with
      place := x, pending := (u.call i).pending + xs.length + 1 } := by
  obtain ⟨seconds, -⟩ := (u.unhanded_rest i p l xs).2
  obtain ⟨x, hx⟩ := (u.unhanded i p l xs).call_recalled i i
  rw [if_pos rfl, State.call_unhanded_self, seconds] at hx
  exact ⟨x, (b.call i).trans hx⟩

theorem HandedBack.call_place {j : Slot} (apart : j ≠ i) : ∃ x, w.call j = { u.call j with place := x } := by
  obtain ⟨x, hx⟩ := (u.unhanded i p l xs).call_recalled i j
  rw [if_neg (Ne.symm apart), State.call_unhanded_ne _ _ _ _ _ (Ne.symm apart)] at hx
  exact ⟨x, (b.call j).trans hx⟩

theorem HandedBack.call_out {j : Slot} (apart : j ≠ i) (out : j ∉ (u.prt (u.call i).partition).roster) :
    w.call j = u.call j := by
  rw [b.call, State.call_recalled_out apart, State.call_unhanded_ne _ _ _ _ _ (Ne.symm apart)]
  rw [State.prt_unhanded, State.call_unhanded_self]
  exact out

theorem HandedBack.prt_ne {q : Part} (apart : q ≠ (u.call i).partition) : w.prt q = u.prt q := by
  rw [b.prt, State.prt_recalled_ne, State.prt_unhanded]
  rw [State.call_unhanded_self]
  exact apart

theorem HandedBack.lamp (k : Circuit) : w.lamp k = u.lamp k := by
  have same : w.lamp k = ((u.unhanded i p l xs).recalled i).lamp k := by
    rw [b.rest]
    rfl
  rw [same, State.lamp_recalled, State.lamp_unhanded]

theorem HandedBack.link (m : LinkIx) : w.link m = { u.link m with queue := (u.link m).queue ++
    (entries i (xs ++ [.tone (u.call i).caller .ringback])).filter fun x => linkOf x.order.first == m } := by
  have same : w.link m = ((u.unhanded i p l xs).recalled i).link m := by
    rw [b.rest]
    rfl
  rw [same, State.link_recalled, State.link_unhanded, State.call_unhanded_self]
  unfold entries
  dsimp only
  rw [List.map_append, List.filter_append, List.append_assoc]

theorem HandedBack.free : w.free = u.free := by
  have same : w.free = ((u.unhanded i p l xs).recalled i).free := by rw [b.rest]
  rw [same, State.recalled_free, (u.unhanded_rest i p l xs).1]

theorem HandedBack.rings (plain : ∀ o ∈ xs, o.isRing = false) : w.rings = u.rings := by
  have same : w.rings = ((u.unhanded i p l xs).recalled i).rings := by rw [b.rest]
  rw [same, State.recalled_rings, State.unhanded_rings _ _ _ _ _ plain]

theorem HandedBack.answered {d : CellIx} (wf : Memory.wf u.mem = true) (extend : (u.call i).extend ≠ none)
    (cell : (u.pos p).extendCell = some d) : w.answered d .cancelled 0 := by
  have ended := (u.unhanded i p l xs).recalled_answered i (u.unhanded_answered i p l xs wf extend cell)
  rw [b.rest]
  exact ended

end HandedBack

/-! ### What the end of the event shows -/

/-- The state `u` has the calls, panels, partitions, queues and ring counts of `s`. -/
structure Sees (s u : State) : Prop where
  call : ∀ i, u.call i = s.call i
  pos : ∀ p, u.pos p = s.pos p
  prt : ∀ q, u.prt q = s.prt q
  part : ∀ q, u.part q = s.part q
  queue : ∀ m, (u.link m).queue = (s.link m).queue
  rings : u.rings = s.rings
  unserved : ∀ k, unserved s k → unserved u k

theorem ForcedLoop.transfer {s u : State} {p : Pos} {i : Slot} {l : LoopIx} {h k : Circuit} (f : ForcedLoop s p i l h k)
    (m : Sees s u) : ForcedLoop u p i l h k := by
  obtain ⟨call, pos, prt, part, -, -, unserved⟩ := m
  obtain ⟨headset, offer, only, position, callLoop, legs, extend, inFlight, takes, day⟩ := f
  obtain ⟨enabled, mode, space, absent, once⟩ := takes
  constructor
  case legs =>
    rw [call]
    exact legs.imp_right fun ⟨state, target, free⟩ => ⟨state, target, unserved k free⟩
  case takes => constructor <;> simpa only [call, prt, part]
  all_goals simpa only [call, pos, prt, part]

/-- Orders that are no RINGs, as they have been issued. -/
theorem issued_plain {s t : State} {i : Slot} {os : List ShelfOrder} (plain : ∀ o ∈ os, o.isRing = false)
    (queue : ∀ l, (t.link l).queue = (s.link l).queue ++ (entries i os).filter fun x => linkOf x.order.first == l)
    (pending : (t.call i).pending = (s.call i).pending + os.length) (rings : t.rings = s.rings) :
    issued s t i (entries i os) := (Quiet.refl t).issued plain queue pending rings

/-- A forced close that has handed the call back, at the end of an event that changes nothing of it but that it may offer
it. -/
theorem HandedBack.back {s u w t : State} {p : Pos} {i : Slot} {l : LoopIx} {h k : Circuit} {xs : List ShelfOrder}
    (b : HandedBack u w p i l xs) (m : Sees s u) (f : ForcedLoop s p i l h k) (plain : ∀ o ∈ xs, o.isRing = false)
    (wf : Memory.wf u.mem = true) (shows : Shows w t) (rests : (t.call i).rests) (panel : (t.pos p).bare = (w.pos p).bare)
    (queue : ∀ m, (t.link m).queue = (w.link m).queue) (rings : t.rings = w.rings)
    (answered : ∀ d, (s.pos p).extendCell = some d → w.answered d .cancelled 0 → t.answered d .cancelled 0) :
    ForcedBack s t p i (xs ++ [.tone (s.call i).caller .ringback]) := by
  have self : ∀ q, (u.unhanded i p l xs).prt q = s.prt q := fun q => (u.prt_unhanded i p l xs q).trans (m.prt q)
  have call := u.call_unhanded_self i p l xs
  rw [m.call] at call
  have others : ∀ j, ((u.unhanded i p l xs).call j).cls = (s.call j).cls := fun j => by
    obtain rfl | apart := eq_or_ne i j
    · rw [call]
    · rw [State.call_unhanded_ne _ _ _ _ _ apart, m.call]
  have parts : ∀ q, (u.unhanded i p l xs).part q = s.part q := fun q => by
    rw [← m.part]
    unfold State.part
    rw [(u.unhanded_rest i p l xs).2.2]
  have ends : Shows ((u.unhanded i p l xs).recalled i) t := by
    obtain ⟨queued, waiting, prt⟩ := shows
    exact ⟨fun j => by rw [← b.call]; exact queued j, fun j => by rw [← b.call]; exact waiting j,
      fun q => by rw [← b.prt]; exact prt q⟩
  obtain ⟨x, hself⟩ := b.call_self
  rw [m.call] at hself
  have waiting := shows.waiting i
  rw [hself] at waiting
  simp only [Call.waiting, Prod.mk.injEq] at waiting
  obtain ⟨identity, -, -, -, -, origin, -, -, pending, extend⟩ := waiting
  refine ⟨fun d flies cell => ?_, ends.recalled rests others (by rw [call]) (self _) (parts _) f.takes,
    ⟨origin, rests.1, extend, identity⟩, ?_, issued_plain ?_ (fun n => ?_) ?_ (rings.trans ((b.rings plain).trans m.rings))⟩
  · refine answered d cell (b.answered wf ?_ ?_)
    · rw [m.call, ← f.extend]
      exact flies
    · rw [m.pos]
      exact cell
  · obtain ⟨ext, noCell⟩ := b.extend
    exact ⟨(congrArg Position.extend panel).trans ext, (congrArg Position.extendCell panel).trans noCell⟩
  · intro o ho
    rcases List.mem_append.mp ho with first | last
    · exact plain o first
    · rw [List.mem_singleton.mp last]
      rfl
  · rw [queue, b.link, m.queue, m.call]
  · rw [pending, List.length_append]
    rfl

end Sys2Proof.Machine
end

section
/-! SUPPORT. A CLOSE with force at a position with one loop in use (R65, R66). -/

namespace Sys2Proof.Machine

/-- The result of an order in one cell leaves the result in another. -/
theorem State.answered_apart {t : State} {c d : CellIx} {code code' : ResultCode} {x y : Word}
    (wf : Memory.wf t.mem = true) (apart : d ≠ c) (h : t.answered d code x) : (t.answer c code' y).answered d code x := by
  have read : ∀ n < 32, (t.answer c code' y).mem.read (cellBase d + n) = t.mem.read (cellBase d + n) := fun n hn =>
    read_doneCell_outside _ _ _ _ _ _ wf fun j hj => cellBase_disjoint hn (by omega) apart
  have read16 : ∀ n, n + 1 < 32 → (t.answer c code' y).mem.read16 (cellBase d + n) = t.mem.read16 (cellBase d + n) :=
    fun n hn => by
      unfold Memory.read16
      rw [read n (by omega), Nat.add_assoc, read (n + 1) hn]
  obtain ⟨done, code, detail, time, taken, flag⟩ := h
  refine ⟨(cellState_congr (read 0 (by omega))).trans done, (read 3 (by omega)).trans code,
    (read16 6 (by omega)).trans detail, (read16 10 (by omega)).trans time, fun still => taken ?_, State.flag_raise _ _⟩
  exact (List.mem_filter.mp still).1

theorem State.sees_taken {s : State} {c : CellIx} : Sees s (s.taken c) := by
  obtain ⟨call, prt, lamp, link, plan, -, rings, -⟩ := s.taken_mirrors c
  refine ⟨call, s.pos_taken c, prt, fun q => ?_, fun m => ?_, rings, fun k free => ?_⟩
  · unfold State.part
    rw [plan]
  · rw [link]
  · unfold unserved
    rw [lamp]
    exact free

/-- Letting the call's target go starts no camp ring. -/
theorem ForcedLoop.unserved {s : State} {p : Pos} {i : Slot} {l : LoopIx} {h k : Circuit} (f : ForcedLoop s p i l h k) :
    ∀ x ∈ (s.call i).letsGo, Machine.unserved s x := by
  intro x hx
  unfold Call.letsGo at hx
  rcases f.legs with ⟨-, -, target⟩ | ⟨-, ⟨n, target⟩, free⟩
  · rw [target] at hx
    cases hx
  · rw [target] at hx
    dsimp only at hx
    split at hx
    · cases hx
    · rw [List.mem_singleton.mp hx]
      exact free

theorem ForcedCall.handsBack {s : State} {c : CellIx} {p : Pos} {i : Slot} {l : LoopIx} {h k : Circuit}
    {os : List ShelfOrder} (f : ForcedCall s c p i l h k)
    (orders : os = closeLegs (s.call i) h k ++ [.tone (s.call i).caller .ringback]) (room : s.room os)
    (reach : reachable s os) :
    ∃ t, exec .closeOrder s = .next t ∧ t.finished c .ok 0 ∧ ForcedBack s t p i os ∧
      Aside s t (fun j => j = i ∨ j ∈ (s.prt (s.call i).partition).roster) (fun _ => True)
        (· = (s.call i).partition) fun _ => False := by
  have sees := s.sees_taken (c := c)
  have mirrors := s.taken_mirrors c
  have start : (Event.taking s c).st = s.taken c := Event.taking_st ..
  have forced : ForcedLoop (Event.taking s c).st p i l h k := by
    rw [start]
    exact f.toForcedLoop.transfer sees
  have legs : forcedOrders (s.taken c) i h k none = closeLegs (s.call i) h k := by
    unfold forcedOrders
    rw [closeLegs_spared_none, sees.call]
  have awaits := f.toCloseReady.awaits
  obtain ⟨b, refusals, serve⟩ := forced.closes (lost := none)
    (by rw [start, legs, sees.call, ← orders]; exact mirrors.room.mpr room)
    (by rw [start, legs, sees.call, ← orders]; exact (reachable_taken s c).mpr reach)
  rw [start, legs] at b
  rw [start, sees.call] at serve
  have wf := awaits.wf
  rw [← start] at awaits
  have closed := awaits.closePosition p none
  have own := f.toCloseReady.closes
  generalize (Event.taking s c).closePosition p none = g at b refusals serve closed own
  obtain ⟨run, finished, ended⟩ := f.toTakes.ends (w := g.st) own rfl (by rw [refusals]; rfl)
    (fun x hx => by
      rw [serve] at hx
      unfold Machine.unserved
      rw [b.lamp, mirrors.lamp]
      exact f.toForcedLoop.unserved x hx) closed
  have keeps : Keeps (g.st.answer c .ok 0) (g.replied c .ok).finish := Event.finish_keeps (e := g.replied c .ok) (.refl _)
  generalize (g.replied c .ok).finish = t at run finished ended keeps
  obtain ⟨quiet, -, -, rests⟩ := ended
  have core := keeps.core
  simp only [State.core, Prod.mk.injEq] at core
  obtain ⟨-, -, -, seconds, -⟩ := core
  obtain ⟨x, self⟩ := b.call_self
  refine ⟨t, run, finished, ?_, quiet.aside (fun j hj => ?_) (fun _ h => absurd trivial h) (fun q hq => ?_) (fun n => ?_) ?_⟩
  · rw [orders]
    refine b.back sees f.toForcedLoop (closeLegs_isRing _) wf ⟨quiet.queued, quiet.waiting, quiet.prt⟩
      (rests i ?_) (quiet.pos p) (fun m => (congrArg Link.queue (quiet.link m) :)) quiet.rings fun d cell answered => ?_
    · rw [State.call_answer, self]
      exact ⟨rfl, rfl⟩
    · refine State.answered_congr quiet.mem quiet.taker seconds (State.flag_mono keeps.summary)
        (State.answered_apart closed.wf ?_ answered)
      rintro rfl
      exact f.apart p cell
  · rw [State.call_answer, b.call_out (fun same => hj (.inl same)), sees.call]
    rw [sees.call, sees.prt]
    exact fun member => hj (.inr member)
  · rw [State.prt_answer, b.prt_ne, sees.prt]
    rw [sees.call]
    exact hq
  · rw [State.lamp_answer, b.lamp, mirrors.lamp]
  · exact b.free.trans mirrors.free

end Sys2Proof.Machine
end

section
/-! SUPPORT. The FAULT of the headset of an OPEN position with one loop in use (R78, R149). -/

namespace Sys2Proof.Machine

/-- The last of two events does all that is done, in whatever order they are taken (R145, R149). -/
theorem Event.deliverAll_last {e f : Event} {c d : Delivery} (two : Bool) (schedule : List Nat) (hc : e.take c = f)
    (before : e.take d = e) (after : f.take d = f) :
    e.deliverAll schedule [] ((if two then [d] else []) ++ [c]) = f := by
  cases two with
  | false => exact (Event.deliverAll_one _ _ _).trans hc
  | true =>
    rcases e.deliverAll_two schedule d c with first | first
    · exact first.trans (by rw [before, hc])
    · exact first.trans (by rw [hc, after])

/-- Only the one OPEN position with this headset is closed (R78). -/
theorem Event.headsetLost_one {e : Event} {p : Pos} {h : Circuit}
    (own : (e.st.pos p).isOpen = true ∧ (e.st.pos p).headset = some h)
    (only : ∀ x, x ≠ p → (e.st.pos x).isOpen = true → (e.st.pos x).headset ≠ some h)
    (apart : ∀ x, p ≠ x → ((e.closePosition p (some h)).st.pos x).isOpen = (e.st.pos x).isOpen ∧
      ((e.closePosition p (some h)).st.pos x).headset = (e.st.pos x).headset) :
    e.headsetLost h = e.closePosition p (some h) := by
  have idle : ∀ x, x ≠ p → ¬ ((e.st.pos x).isOpen && (e.st.pos x).headset == some h) = true := fun x hx both => by
    rw [Bool.and_eq_true, beq_iff_eq] at both
    exact only x hx both.1 both.2
  have closes : (if (e.st.pos p).isOpen && (e.st.pos p).headset == some h then e.closePosition p (some h) else e) =
      e.closePosition p (some h) := if_pos (by rw [own.1, own.2]; exact beq_self_eq_true _)
  unfold Event.headsetLost
  rw [foldl_only (List.mem_finRange p) (List.nodup_finRange 8) (fun x hx => if_neg (idle x hx)), closes]
  intro x hx
  rw [closes]
  obtain ⟨isOpen, headset⟩ := apart x (Ne.symm hx)
  refine if_neg ?_
  rw [isOpen, headset]
  exact idle x hx

theorem State.pos_noteMore (v : State) (l : LinkIx) (x : Table Bool 4) (p : Pos) : (v.noteMore l x).pos p = v.pos p := rfl

section Report

variable {s u : State} {a : LinkIx} {f : Frame} {port : Fin 16} {p : Pos} {i : Slot} {l : LoopIx} {h k : Circuit}

theorem Polled.sees (hu : Polled s u a f.addr) (h : Circuit) :
    Sees s (u.setLine h .outOfService) := by
  refine ⟨hu.call, hu.pos, hu.prt, fun q => ?_, hu.queue, hu.rings, fun c free => ?_⟩
  · exact hu.part q
  · unfold unserved
    rw [State.camp_setLine, hu.camp]
    refine free.imp_right fun busy => ?_
    obtain rfl | apart := eq_or_ne h c
    · rw [State.line_setLine]
      decide
    · rw [State.lamp_setLine_ne _ _ _ apart, hu.line]
      exact busy

/-- A target of the call is another circuit than the headset. -/
theorem HeadsetReports.legs_apart (r : HeadsetReports s a f port p h) (o : ForcedLoop s p i l h k) :
    ((s.call i).state = .held ∨ (s.call i).state = .talking) ∧ (s.call i).extend = none ∨ k ≠ h := by
  rcases o.legs with ⟨state, extend, -⟩ | ⟨state, ⟨n, target⟩, -⟩
  · exact .inl ⟨state, extend⟩
  · refine .inr ?_
    rintro rfl
    refine r.noTarget i ⟨⟨n, target⟩, ?_⟩
    tauto

/-- The event of the report closes the position and does nothing else but set the line. -/
theorem HeadsetReports.closes (r : HeadsetReports s a f port p h) (hu : Polled s u a f.addr) (schedule : List Nat)
    {xs : List ShelfOrder}
    (own : (s.pos p).headset = some h)
    (b : HandedBack (u.setLine h .outOfService)
      ((Event.lineSet u h .outOfService).closePosition p (some h)).st p i l xs) :
    (Event.begin u).report h .fault schedule = (Event.lineSet u h .outOfService).closePosition p (some h) := by
  have sees := hu.sees h
  have dispatch : (Event.begin u).report h .fault schedule =
      (Event.lineSet u h .outOfService).deliverAll schedule [] ((u.setLine h .outOfService).faultEvents h .pathFault) :=
    if_neg (by
      show (u.lamp h).line ≠ .outOfService
      rw [hu.line]
      exact r.served)
  have callers : (u.setLine h .outOfService).callerOf h = none := State.callerOf_none fun j live => by
    rw [sees.call] at live ⊢
    exact r.noCaller j live
  have headset : (u.setLine h .outOfService).isHeadset h = true := by
    unfold State.isHeadset
    rw [List.any_eq_true]
    refine ⟨p, List.mem_finRange p, ?_⟩
    rw [sees.pos, r.isOpen, own]
    exact beq_self_eq_true _
  have camp : ((u.setLine h .outOfService).lamp h).camp = [] := by
    rw [State.camp_setLine, hu.camp]
    exact r.noCamp
  have free : ∀ j, ¬ engages ((u.setLine h .outOfService).call j) h := fun j => by
    rw [sees.call]
    exact r.noTarget j
  have start : (Event.lineSet u h .outOfService).st = u.setLine h .outOfService := rfl
  rw [dispatch]
  unfold State.faultEvents
  rw [callers, headset]
  generalize Event.lineSet u h .outOfService = e at b start ⊢
  rw [← start] at sees camp free b
  have lost : e.headsetLost h = e.closePosition p (some h) :=
    Event.headsetLost_one (by rw [sees.pos]; exact ⟨r.isOpen, own⟩)
      (fun x hx => by rw [sees.pos]; exact r.only x hx) b.apart
  generalize e.closePosition p (some h) = g at b lost ⊢
  refine Event.deliverAll_last _ schedule lost (Event.targetFault_none free camp) (Event.targetFault_none (fun j => ?_) ?_)
  · obtain rfl | apart := eq_or_ne j i
    · obtain ⟨x, self⟩ := b.call_self
      rintro ⟨-, state⟩
      rw [self] at state
      simp [Call.enlist, Call.enter] at state
    · obtain ⟨x, same⟩ := b.call_place apart
      rw [same]
      exact free j
  · rw [b.lamp]
    exact camp

theorem HeadsetReports.handsBack (r : HeadsetReports s a f port p h) (o : ForcedLoop s p i l h k) (more : Bool)
    (orders : List (List Nat)) {os : List ShelfOrder}
    (legs : os = closeLegsSpared (s.call i) k ++ [.tone (s.call i).caller .ringback]) (room : s.room os)
    (reach : reachable s os) :
    ∃ t, exec (.shelfAnswer a (reportOf more port .fault) orders) s = .next t ∧ reported s t a f h .outOfService ∧
      ForcedBack s t p i os ∧
      (t.pos p).isOpen = false ∧ (t.pos p).pause = none ∧ (t.pos p).missed = 0 ∧ (t.pos p).speaking = none ∧
      (t.pos p).offered = none ∧ (t.pos p).role = .none ∧ (∀ j, (t.pos p).loops.get j = none ∧
      (t.pos p).flash.get j = false) ∧ (t.pos p).partition = (s.pos p).partition ∧ (t.pos p).headset = some h ∧
      Aside s t (fun j => j = i ∨ j ∈ (s.prt (s.call i).partition).roster) (fun _ => True)
        (· = (s.call i).partition) (· = h) := by
  obtain ⟨u, x, hu, run⟩ := r.toPollFlies.takes r.circuit more orders .fault nofun
  have sees := hu.sees h
  have forced : ForcedLoop (Event.lineSet u h .outOfService).st p i l h k := o.transfer sees
  have spared : forcedOrders (u.setLine h .outOfService) i h k (some h) = closeLegsSpared (s.call i) k := by
    unfold forcedOrders
    rw [sees.call, closeLegs_spared (r.legs_apart o)]
  have caller : ((u.setLine h .outOfService).call i).caller = (s.call i).caller := by rw [sees.call]
  obtain ⟨b, refusals, serve⟩ := forced.closes (lost := some h)
    (by
      show (u.setLine h .outOfService).room
        (forcedOrders (u.setLine h .outOfService) i h k (some h) ++
          [.tone ((u.setLine h .outOfService).call i).caller .ringback])
      rw [spared, caller, ← legs]
      exact hu.room room)
    (by
      show reachable (u.setLine h .outOfService)
        (forcedOrders (u.setLine h .outOfService) i h k (some h) ++
          [.tone ((u.setLine h .outOfService).call i).caller .ringback])
      rw [spared, caller, ← legs]
      exact hu.reachable reach)
  have b : HandedBack (u.setLine h .outOfService)
      ((Event.lineSet u h .outOfService).closePosition p (some h)).st p i l (closeLegsSpared (s.call i) k) := spared ▸ b
  have body := r.closes hu (orders.headD []) o.headset b
  have serve : ((Event.lineSet u h .outOfService).closePosition p (some h)).serve = (s.call i).letsGo := by
    rw [serve]
    show [] ++ ((u.setLine h .outOfService).call i).letsGo = _
    rw [sees.call, List.nil_append]
  unfold runEvent at run
  dsimp only at run
  rw [body] at run
  generalize (Event.lineSet u h .outOfService).closePosition p (some h) = e at b refusals serve run
  have free : ∀ c ∈ e.serve, unserved e.st c := fun c hc => by
    rw [serve] at hc
    unfold unserved
    rw [b.lamp]
    exact sees.unserved c (o.unserved c hc)
  obtain ⟨y, self⟩ := b.call_self
  have rests : ((e.finish.noteMore a x).call i).rests := by
    rw [State.call_noteMore]
    refine Event.finish_rests refusals free ?_
    rw [self]
    exact ⟨rfl, rfl⟩
  have landed := hu.landed x refusals free fun m => by
    rw [b.link]
    rfl
  have core := b.panel
  have closed : (e.st.pos p).isOpen = false := (congrArg Prod.fst core :)
  obtain ⟨same, empty⟩ := Event.finish_vacant closed b.vacant
  have panel := same.trans core
  rw [← State.pos_noteMore e.finish a x p] at panel empty
  generalize e.finish.noteMore a x = t at run rests landed panel empty
  simp only [Position.core, Prod.mk.injEq] at panel
  obtain ⟨isOpen, partition, headset, role, pause, missed⟩ := panel
  obtain ⟨speaking, offered, loops⟩ := empty
  have plain : ∀ q ∈ closeLegsSpared (s.call i) k, q.isRing = false := by
    rw [← spared]
    exact forcedOrders_isRing _ _ _ _ _
  have wf : Memory.wf u.mem = true := by
    rw [hu.mem]
    exact r.wf
  refine ⟨t, run, landed.reported ?_, ?_, isOpen, pause, missed, speaking, offered, role, loops, ?_, ?_,
    landed.aside hu (fun j hj => ?_) (fun _ h => absurd trivial h) (fun q hq => ?_) (fun c hc => ?_) b.free⟩
  · rw [b.lamp]
    exact State.line_setLine ..
  · rw [legs]
    exact b.back sees o plain wf ⟨landed.queued, landed.waiting, landed.prt⟩ rests (landed.pos p) landed.queue
      landed.rings fun d _ => landed.answered d _ _
  · rw [partition, sees.pos]
  · rw [headset, sees.pos]
    exact o.headset
  · refine b.call_out (fun same => hj (.inl same)) ?_
    rw [sees.call, sees.prt]
    exact fun member => hj (.inr member)
  · rw [b.prt_ne]
    · rfl
    · rw [sees.call]
      exact hq
  · rw [b.lamp, State.lamp_setLine_ne _ _ _ (Ne.symm hc)]

end Report

end Sys2Proof.Machine
end

section
/-! SUPPORT. The night routing of a roster that a partition leaves to the night, and of its members (R31, R44, R46). -/

namespace Sys2Proof.Machine

/-- The call has no origin, and is where night routing, a fallback or its end takes a call. -/
structure Call.Away (c : Call) : Prop where
  origin : c.origin = none
  state : c.state = .ringingOut ∨ c.state = .camped ∨ c.state = .announced ∨ c.state = .closing ∨ c.state = .free

theorem Call.Away.of_eq {c d : Call} (away : c.Away) (same : (d.state, d.origin) = (c.state, c.origin)) : d.Away := by
  simp only [Prod.mk.injEq] at same
  obtain ⟨state, origin⟩ := same
  exact ⟨origin.trans away.origin, state ▸ away.state⟩

theorem Call.Away.fades {c d : Call} (away : c.Away) (fades : Call.Fades c d) : d.Away where
  origin := fades.origin.elim (fun same => same.trans away.origin) id
  state := by
    rcases fades.state with same | closing | free
    · rw [same]
      exact away.state
    · exact .inr (.inr (.inr (.inl closing)))
    · exact .inr (.inr (.inr (.inr free)))

theorem Call.Fades.unorigined {c d : Call} (fades : Call.Fades c d) (origin : c.origin = none) : d.origin = none :=
  fades.origin.elim (fun same => same.trans origin) id

section Routed

variable {e : Event} {i : Slot}

/-- A state that night routing, a fallback or a close enters. -/
def awayState (st : CallState) : Prop := st = .ringingOut ∨ st = .camped ∨ st = .announced ∨ st = .closing

theorem Event.updCall_call (e : Event) (i : Slot) (g : Call → Call) : (e.updCall i g).st.call i = g (e.st.call i) :=
  State.call_setCall_self ..

theorem Event.updCall_away {g : Call → Call} (away : (e.st.call i).Away)
    (same : ∀ c, ((g c).state, (g c).origin) = (c.state, c.origin)) : ((e.updCall i g).st.call i).Away := by
  rw [Event.updCall_call]
  exact away.of_eq (same _)

theorem Event.startTimer_away {kind : TimerKind} {n : Nat} (away : (e.st.call i).Away) :
    ((e.startTimer i kind n).st.call i).Away := by
  refine away.of_eq ?_
  unfold Event.startTimer Event.upd
  dsimp only
  rw [State.call_setCall_self]

theorem Event.toState_away {st : CallState} (origin : (e.st.call i).origin = none) (state : awayState st) :
    ((e.toState i st).st.call i).Away := by
  by_cases free : (e.st.call i).state = .free
  · rw [Event.toState_free e free]
    exact ⟨origin, .inr (.inr (.inr (.inr free)))⟩
  · rw [Event.toState_st e free, State.call_setCall_self]
    refine ⟨origin, ?_⟩
    unfold awayState at state
    rw [Call.state_enter]
    tauto

/-- What closing, issuing orders and leaving can make of a call that had no origin. -/
theorem Sheds.origin {acts : Slot → Prop} {s t : State} (k : Sheds acts (fun _ => False) s t)
    (origin : (s.call i).origin = none) : (t.call i).origin = none := (k.call i id).unorigined origin

theorem Sheds.away {acts : Slot → Prop} {s t : State} (k : Sheds acts (fun _ => False) s t)
    (away : (s.call i).Away) : (t.call i).Away := away.fades (k.call i id)

theorem Event.issueAll_origin {how : Issue} {os : List ShelfOrder} (origin : (e.st.call i).origin = none) :
    ((e.issueAll how i os).st.call i).origin = none :=
  ((Sheds.refl e.st).issueAll (acts := fun _ => True) trivial).origin origin

theorem Event.close_away {why : EndReason} {moved : Bool} (origin : (e.st.call i).origin = none) :
    ((e.close i why moved).st.call i).Away := by
  unfold Event.close
  extract_lets c orders done orders' e1 e2 e3 e4 e5
  split
  · next ended =>
    exact ⟨origin, by tauto⟩
  · have none2 : (e2.st.call i).origin = none :=
      (((Sheds.refl e.st).removeCall (acts := fun _ => True) trivial).answerExtendOf trivial).origin origin
    have away3 : (e3.st.call i).Away :=
      Event.updCall_away (Event.toState_away none2 (.inr (.inr (.inr rfl)))) fun _ => rfl
    clear_value e3
    have k4 : Sheds (fun _ => True) (fun _ => False) e3.st e4.st :=
      .ite (fun _ => (Sheds.refl _).issueAll trivial) fun _ => .refl _
    have k5 : Sheds (fun _ => True) (fun _ => False) e3.st e5.st := .ite (fun _ => k4.issueAll trivial) fun _ => k4
    exact (k5.freeIfDone trivial).away away3

theorem Event.congest_away {how : Issue} (origin : (e.st.call i).origin = none) :
    ((e.congest i how).st.call i).Away := Event.close_away (Event.issueAll_origin origin)

theorem Event.fallback_away {how : Issue} (origin : (e.st.call i).origin = none) :
    ((e.fallback i how).st.call i).Away := by
  unfold Event.fallback
  dsimp only
  split
  · exact Event.startTimer_away (Event.updCall_away
      (Event.toState_away (Event.issueAll_origin origin) (.inr (.inr (.inl rfl)))) fun _ => rfl)
  · exact Event.congest_away origin

theorem Event.camp_away {x : Target} (origin : (e.st.call i).origin = none) : ((e.camp i x).st.call i).Away := by
  unfold Event.camp
  split
  · next free => exact ⟨origin, .inr (.inr (.inr (.inr free)))⟩
  · refine Event.startTimer_away ?_
    exact Event.updCall_away (g := fun c => { c with target := some x })
      (Event.toState_away origin (.inr (.inl rfl))) fun _ => rfl

/-- A call that is routed to the night is on its way to the night's destination, at the announcer or at its end (R44). -/
theorem Event.nightRoute_away (e : Event) (i : Slot) : ((e.nightRoute i).st.call i).Away := by
  unfold Event.nightRoute
  extract_lets e1 c number
  have origin : (e1.st.call i).origin = none := congrArg Call.origin (Event.updCall_call ..)
  clear_value e1
  split
  · exact Event.fallback_away origin
  · split
    · exact Event.updCall_away (Event.toState_away (Event.issueAll_origin origin) (.inl rfl)) fun _ => rfl
    · split
      · exact ((Sheds.refl _).issueAs (acts := fun _ => True) trivial).away (Event.camp_away origin)
      · exact Event.fallback_away origin
    · exact Event.fallback_away origin

end Routed

/-! ### The members of the roster (R46) -/

section Members

variable {e : Event} {i : Slot} {q : Part}

/-- Call `i` of `s` waits in its partition's roster again, and no other call and no roster has changed. -/
structure Requeued (s t : State) (i : Slot) : Prop where
  state : (t.call i).state = .queued
  partition : (t.call i).partition = (s.call i).partition
  others : ∀ j, i ≠ j → t.call j = s.call j
  prt : ∀ q, t.prt q = s.prt q
  loops : ∀ x, (t.pos x).loops = (s.pos x).loops

theorem Event.backToQueue_requeued (live : (e.st.call i).state ≠ .free) : Requeued e.st (e.backToQueue i).st i := by
  have entered : Requeued e.st (e.toState i .queued).st i := by
    rw [Event.toState_st e live]
    refine ⟨?_, ?_, fun j hj => State.call_setCall_ne _ _ hj, fun _ => rfl, fun _ => rfl⟩
    · rw [State.call_setCall_self, Call.state_enter]
    · rw [State.call_setCall_self]
      rfl
  have timed : ∀ d, Requeued e.st ((e.toState i .queued).updCall i fun c => { c with timer := some (.wait, d) }).st i :=
    fun d => by
      obtain ⟨state, partition, others, prt, loops⟩ := entered
      refine ⟨?_, ?_, fun j hj => (State.call_setCall_ne _ _ hj).trans (others j hj), prt, loops⟩
      · rw [Event.updCall_call]
        exact state
      · rw [Event.updCall_call]
        exact partition
  unfold Event.backToQueue
  dsimp only
  split
  · split
    · exact entered
    · exact timed _
  · exact entered

/-- The same when a panel's offer has been cleared before. -/
theorem Event.backToQueue_unoffered {p : Pos} (live : (e.st.call i).state ≠ .free) :
    Requeued e.st ((e.updPos p fun q => { q with offered := none }).backToQueue i).st i := by
  obtain ⟨state, partition, others, prt, loops⟩ :=
    Event.backToQueue_requeued (e := e.updPos p fun q => { q with offered := none }) (i := i) live
  refine ⟨state, partition, others, prt, fun x => (loops x).trans ?_⟩
  rw [Event.updPos_pos]
  split <;> rfl

theorem Event.withdrawForNight_requeued (live : (e.st.call i).state ≠ .free) :
    Requeued e.st (e.withdrawForNight i).st i := by
  unfold Event.withdrawForNight
  split
  · next p _ =>
    obtain ⟨state, partition, others, prt, loops⟩ :=
      Event.backToQueue_unoffered (e := { e with keepIdle := e.keepIdle ++ [p] }) (p := p) live
    exact ⟨state, partition, others, prt, loops⟩
  · exact Event.backToQueue_requeued live

/-- A member that is rerouted leaves its roster, and nothing changes of the other members but their places. -/
theorem Event.rerouteMember_leaves (member : i ∈ (e.st.prt q).roster) (home : (e.st.call i).partition = q) :
    ((e.rerouteMember i).st.prt q).roster = (e.st.prt q).roster.filter (· != i) ∧
      ((e.rerouteMember i).st.prt q).est = (e.st.prt q).leaveEst ((e.st.prt q).roster.filter (· != i)) ∧
      ((e.rerouteMember i).st.call i).Away ∧
      ∀ j, i ≠ j → ∃ x, (e.rerouteMember i).st.call j = { e.st.call j with place := x } := by
  unfold Event.rerouteMember
  extract_lets e1
  have before : (e1.st.call i).state ≠ .offered ∧ (e1.st.call i).partition = q ∧ (∀ q, e1.st.prt q = e.st.prt q) ∧
      ∀ j, i ≠ j → e1.st.call j = e.st.call j := by
    by_cases offered : (e.st.call i).state = .offered
    · obtain ⟨state, partition, others, prt, -⟩ := Event.withdrawForNight_requeued (e := e) (i := i)
        (by rw [offered]; exact nofun)
      rw [show e1 = e.withdrawForNight i from if_pos offered]
      exact ⟨by rw [state]; exact nofun, partition.trans home, prt, others⟩
    · rw [show e1 = e from if_neg offered]
      exact ⟨offered, home, fun _ => rfl, fun _ _ => rfl⟩
  obtain ⟨unoffered, partition, prt, others⟩ := before
  clear_value e1
  have left := congrArg Event.st (Event.leaveRoster_departed (e := e1) (i := i) (by rw [partition, prt]; exact member) unoffered)
  dsimp only at left
  have gone := e1.st.prt_departed i
  have same := fun j => e1.st.call_departed i (j := j)
  unfold State.restRoster at gone
  rw [partition, prt] at gone
  rw [← left] at gone same
  generalize e1.leaveRoster i false = e2 at gone same
  have routed : Sheds (· = i) (· = i) e2.st (e2.nightRoute i).st := (Sheds.refl _).nightRoute rfl rfl
  have kept := routed.prt q (by
    rw [gone]
    rintro j hj rfl
    simp at hj)
  refine ⟨by rw [kept, gone], by rw [kept, gone], e2.nightRoute_away i, fun j hj => ?_⟩
  obtain ⟨y, after⟩ := routed.other j (Ne.symm hj)
  obtain ⟨z, before⟩ := same j hj
  exact ⟨y, by rw [after, before, others j hj]⟩

/-- All members of a roster are rerouted. -/
theorem Event.rerouteMembers_leave {xs : List Slot} (roster : (e.st.prt q).roster = xs) (once : xs.Nodup)
    (home : ∀ i ∈ xs, (e.st.call i).partition = q) :
    ((xs.foldl Event.rerouteMember e).st.prt q).roster = [] ∧
      ((xs.foldl Event.rerouteMember e).st.prt q).est = (if xs = [] then (e.st.prt q).est else (e.st.prt q).est.stop) ∧
      (∀ i ∈ xs, ((xs.foldl Event.rerouteMember e).st.call i).Away) ∧
      ∀ j, j ∉ xs → ∃ x, (xs.foldl Event.rerouteMember e).st.call j = { e.st.call j with place := x } := by
  induction xs generalizing e with
  | nil => exact ⟨roster, rfl, nofun, fun j _ => ⟨_, rfl⟩⟩
  | cons i xs ih =>
    obtain ⟨out, rest⟩ := List.nodup_cons.mp once
    obtain ⟨left, est, away, others⟩ := Event.rerouteMember_leaves (e := e) (i := i) (q := q)
      (by rw [roster]; exact List.mem_cons_self) (home i List.mem_cons_self)
    have remain : (i :: xs).filter (· != i) = xs := by
      rw [List.filter_cons_of_neg (by simp)]
      exact List.filter_eq_self.mpr fun j hj => by
        simp only [bne_iff_ne]
        rintro rfl
        exact out hj
    rw [roster, remain] at left est
    obtain ⟨empty, stopped, gone, placed⟩ := ih left rest fun j hj => by
      obtain ⟨x, hx⟩ := others j fun same => out (same ▸ hj)
      rw [hx]
      exact home j (List.mem_cons_of_mem _ hj)
    rw [List.foldl_cons]
    refine ⟨empty, ?_, fun j hj => ?_, fun j hj => ?_⟩
    · rw [stopped, est, if_neg (List.cons_ne_nil _ _)]
      unfold Partition.leaveEst
      cases xs with
      | nil => rfl
      | cons => rfl
    · rcases List.mem_cons.mp hj with rfl | hj
      · obtain ⟨x, hx⟩ := placed j out
        rw [hx]
        exact away.of_eq rfl
      · exact gone j hj
    · obtain ⟨apart, hj⟩ := not_or.mp (mt List.mem_cons.mpr hj)
      obtain ⟨x, hx⟩ := placed j hj
      obtain ⟨y, hy⟩ := others j (Ne.symm apart)
      exact ⟨x, by rw [hx, hy]⟩

end Members

end Sys2Proof.Machine
end

section
/-! SUPPORT. What a forced close makes of the calls on the loops of its position, whatever orders are refused (R26, R66). -/

namespace Sys2Proof.Machine

theorem Event.issueAll_parts (e : Event) (how : Issue) (i : Slot) (os : List ShelfOrder) :
    (e.issueAll how i os).st.parts = e.st.parts := by
  have one : ∀ (e : Event) (o : ShelfOrder), (e.issueAs how (some i) o false).st.parts = e.st.parts := fun e o => by
    unfold Event.issueAs Event.refuse Event.enqueue
    dsimp only
    split
    · rfl
    · split
      · split <;> rfl
      · split
        · split <;> rfl
        · split <;> rfl
  induction os generalizing e with
  | nil => rfl
  | cons o os ih => exact (ih (e.issueAs how (some i) o false)).trans (one e o)

/-- From `s` to `t` call `i`, which stood in no roster place of partition `q`, has joined its roster, or has gone where a
fallback or its end takes it; of the other calls nothing has changed but places. -/
structure Rejoined (s t : State) (q : Part) (i : Slot) : Prop where
  pos : ∀ x, Position.Shed (· = i) (s.pos x) (t.pos x)
  other : ∀ j, j ≠ i → ∃ x, t.call j = { s.call j with place := x }
  roster : (t.prt q).roster = (s.prt q).roster ∧ (t.call i).Away ∨
    (t.prt q).roster.Perm (i :: (s.prt q).roster) ∧ (t.call i).partition = q
  est : (s.prt q).roster ≠ [] → (t.prt q).est = (s.prt q).est

section Rejoins

variable {s : State} {e : Event} {i : Slot} {q : Part}

/-- A call that stays out of the roster. -/
theorem Sheds.rejoined {t : State} (k : Sheds (· = i) (· = i) s t) (absent : i ∉ (s.prt q).roster)
    (away : (t.call i).Away) : Rejoined s t q i := by
  have same := k.prt q fun j hj h => absent (h ▸ hj)
  exact ⟨k.pos, k.other, .inl ⟨by rw [same], away⟩, fun _ => by rw [same]⟩

theorem Event.ringback_rejoins {how : Issue} (live : (e.st.call i).state ≠ .free) (home : (e.st.call i).partition = q) :
    Rejoined e.st ((e.enterRoster i .recall).ringback i how).st q i := by
  have entered := congrArg Event.st (Event.enterRoster_recall live)
  dsimp only at entered
  have record := e.st.prt_enlisted i
  rw [home, ← entered] at record
  have calls := fun j => e.st.call_enlisted i j
  rw [← entered] at calls
  have panels := fun x => e.st.pos_enlisted i x
  rw [← entered] at panels
  obtain ⟨front, back, split, joined, -⟩ := e.st.recallRoster_spec i
  rw [home] at split
  generalize e.enterRoster i .recall = f at record calls panels
  unfold Event.ringback
  have parts := f.issueAll_parts how i [.tone (f.st.call i).caller .ringback]
  have issued : Sheds (· = i) (fun _ => False) f.st (f.issueAll how i [.tone (f.st.call i).caller .ringback]).st :=
    (Sheds.refl _).issueAll rfl
  generalize f.issueAll how i _ = g at parts issued
  have prt : g.st.prt q = f.st.prt q := congrArg (Table.get · q) parts
  refine ⟨fun x => ?_, fun j hj => ?_, .inr ⟨?_, ?_⟩, fun some => ?_⟩
  · rw [← panels]
    exact issued.pos x
  · obtain ⟨x, before⟩ := calls j
    obtain ⟨y, after⟩ := issued.other j hj
    rw [if_neg (Ne.symm hj)] at before
    exact ⟨y, by rw [after, before]⟩
  · rw [prt, record, split]
    dsimp only
    rw [joined]
    exact List.perm_middle
  · obtain ⟨x, self⟩ := calls i
    rw [if_pos rfl] at self
    rw [(issued.call i id).partition, self]
    exact home
  · rw [prt, record]
    dsimp only
    rw [if_neg (by simpa using some)]

/-- A call without an origin that is sent to recall joins its partition's roster, or goes elsewhere (R26, R31). -/
theorem Event.joinRoster_rejoins {how : Issue} (origin : (e.st.call i).origin = none)
    (home : (e.st.call i).partition = q) (absent : i ∉ (e.st.prt q).roster) :
    Rejoined e.st (e.joinRoster i .recall how).st q i := by
  have start : Sheds (· = i) (· = i) e.st e.st := .refl _
  have congested : Rejoined e.st (e.congest i how).st q i :=
    (start.congest rfl).rejoined absent (Event.congest_away origin)
  have fallen : Rejoined e.st (e.fallback i how).st q i :=
    (start.fallback rfl rfl).rejoined absent (Event.fallback_away origin)
  unfold Event.joinRoster
  dsimp only
  split
  · exact congested
  · split
    · exact fallen
    · split
      · exact fallen
      · by_cases free : (e.st.call i).state = .free
        · have idle : e.enterRoster i .recall = e := if_pos free
          rw [idle]
          have issued : ∀ {routes : Slot → Prop}, Sheds (· = i) routes e.st (e.ringback i how).st :=
            (Sheds.refl _).issueAll rfl
          exact issued.rejoined absent (issued.away ⟨origin, .inr (.inr (.inr (.inr free)))⟩)
        · exact Event.ringback_rejoins free home

/-- The call has been taken off its loop before. -/
theorem Rejoined.after {t u : State} (k : Rejoined t u q i) (left : Sheds (· = i) (fun _ => False) s t)
    (absent : i ∉ (s.prt q).roster) : Rejoined s u q i := by
  have same := left.prt q fun j hj h => absent (h ▸ hj)
  refine ⟨fun x => (left.pos x).trans (k.pos x), fun j hj => ?_, ?_, ?_⟩
  · obtain ⟨x, before⟩ := left.other j hj
    obtain ⟨y, after⟩ := k.other j hj
    exact ⟨y, by rw [after, before]⟩
  · rw [← same]
    exact k.roster
  · rw [← same]
    exact k.est

/-- A forced close of a loop (R66). -/
theorem Event.forceLoop_rejoins {p : Pos} {lost : Option Circuit} {l : LoopIx} (here : (e.st.pos p).loops.get l = some i)
    (home : (e.st.call i).partition = q) (absent : i ∉ (e.st.prt q).roster) :
    Rejoined e.st (Event.forceLoop p lost e l).st q i := by
  unfold Event.forceLoop
  rw [here]
  show Rejoined e.st (Event.joinRoster _ i .recall .spared).st q i
  generalize moved : Event.updCall _ i _ = e3
  have left : Sheds (· = i) (fun _ => False) e.st e3.st := by
    have start : Sheds (· = i) (fun _ => False) e.st e.st := .refl _
    rw [← moved]
    exact (((start.answerExtendOf rfl).issueLegs rfl).leaveLoop rfl).updCall
      (g := fun c => { c with origin := none }) rfl (.inr fun _ => ⟨.inl rfl, .inr rfl, rfl⟩)
  have origin : (e3.st.call i).origin = none := by rw [← moved, Event.updCall_call]
  refine (Event.joinRoster_rejoins origin ((left.call i id).partition.trans home) ?_).after left absent
  rw [left.prt q fun j hj h => absent (h ▸ hj)]
  exact absent

end Rejoins

/-! ### All loops of the position -/

/-- The calls of the loops but those of `ls` stand in the roster of partition `q` or have gone elsewhere; those of `ls` are
still on their loops. -/
structure Gathered (s v : State) (p : Pos) (q : Part) (ls : List LoopIx) : Prop where
  once : (v.prt q).roster.Nodup
  home : ∀ i ∈ (v.prt q).roster, (v.call i).partition = q
  est : (s.prt q).roster ≠ [] → (v.prt q).roster ≠ [] ∧ (v.prt q).est = (s.prt q).est
  members : ∀ i ∈ (s.prt q).roster, i ∈ (v.prt q).roster
  emptied : ∀ l, l ∉ ls → ∀ i, (s.pos p).loops.get l = some i → i ∈ (v.prt q).roster ∨ (v.call i).Away
  loops : ∀ l ∈ ls, (v.pos p).loops.get l = (s.pos p).loops.get l
  waits : ∀ l ∈ ls, ∀ i, (s.pos p).loops.get l = some i →
    (v.call i).loop = some l ∧ (v.call i).partition = q ∧ i ∉ (v.prt q).roster

section Gather

variable {s : State} {e : Event} {p : Pos} {q : Part} {l : LoopIx} {ls : List LoopIx} {lost : Option Circuit}

theorem Gathered.rejoin {v w : State} {i : Slot} (g : Gathered s v p q (l :: ls)) (once : l ∉ ls)
    (here : (s.pos p).loops.get l = some i) (r : Rejoined v w q i) : Gathered s w p q ls := by
  obtain ⟨loop, -, absent⟩ := g.waits l List.mem_cons_self i here
  have apart : ∀ m ∈ ls, ∀ j, (s.pos p).loops.get m = some j → j ≠ i := fun m hm j hj same => by
    obtain ⟨other, -⟩ := g.waits m (List.mem_cons_of_mem _ hm) j hj
    rw [same, loop] at other
    cases other
    exact once hm
  have grows : ∀ j, j ∈ (v.prt q).roster → j ∈ (w.prt q).roster := fun j hj => by
    rcases r.roster with ⟨same, -⟩ | ⟨joined, -⟩
    · rw [same]
      exact hj
    · exact joined.mem_iff.mpr (List.mem_cons_of_mem _ hj)
  have shrinks : ∀ j, j ≠ i → j ∈ (w.prt q).roster → j ∈ (v.prt q).roster := fun j hj member => by
    rcases r.roster with ⟨same, -⟩ | ⟨joined, -⟩
    · rw [← same]
      exact member
    · exact (List.mem_cons.mp (joined.mem_iff.mp member)).resolve_left hj
  refine ⟨?_, fun j hj => ?_, fun some => ?_, fun j hj => grows j (g.members j hj), fun m hm j hj => ?_, fun m hm => ?_,
    fun m hm j hj => ?_⟩
  · rcases r.roster with ⟨same, -⟩ | ⟨joined, -⟩
    · rw [same]
      exact g.once
    · exact joined.nodup_iff.mpr (List.nodup_cons.mpr ⟨absent, g.once⟩)
  · obtain rfl | ne := eq_or_ne j i
    · rcases r.roster with ⟨same, -⟩ | ⟨-, home⟩
      · rw [same] at hj
        exact absurd hj absent
      · exact home
    · obtain ⟨x, hx⟩ := r.other j ne
      rw [hx]
      exact g.home j (shrinks j ne hj)
  · obtain ⟨occupied, est⟩ := g.est some
    obtain ⟨j, hj⟩ := List.exists_mem_of_ne_nil _ occupied
    exact ⟨List.ne_nil_of_mem (grows j hj), (r.est occupied).trans est⟩
  · obtain rfl | ne := eq_or_ne j i
    · rcases r.roster with ⟨-, away⟩ | ⟨joined, -⟩
      · exact .inr away
      · exact .inl (joined.mem_iff.mpr List.mem_cons_self)
    · have earlier : m ∉ l :: ls := fun h => (List.mem_cons.mp h).elim
        (fun same => ne (Option.some.inj ((same ▸ hj).symm.trans here))) hm
      refine (g.emptied m earlier j hj).imp (grows j) fun away => ?_
      obtain ⟨x, hx⟩ := r.other j ne
      rw [hx]
      exact away.of_eq rfl
  · have before := g.loops m (List.mem_cons_of_mem _ hm)
    rcases (r.pos p).loops m with same | ⟨none, j, rfl, was⟩
    · exact same.trans before
    · exact absurd rfl (apart m hm j (before.symm.trans was))
  · have ne := apart m hm j hj
    obtain ⟨onLoop, home, out⟩ := g.waits m (List.mem_cons_of_mem _ hm) j hj
    obtain ⟨x, hx⟩ := r.other j ne
    rw [hx]
    exact ⟨onLoop, home, fun member => out (shrinks j ne member)⟩

theorem Gathered.forceLoop (g : Gathered s e.st p q (l :: ls)) (once : l ∉ ls) :
    Gathered s (Event.forceLoop p lost e l).st p q ls := by
  have here := g.loops l List.mem_cons_self
  cases used : (s.pos p).loops.get l with
  | none =>
    rw [Event.forceLoop_none (here.trans used)]
    refine { g with
      emptied := fun m hm i hi => g.emptied m (fun h => (List.mem_cons.mp h).elim (fun same => ?_) hm) i hi
      loops := fun m hm => g.loops m (List.mem_cons_of_mem _ hm)
      waits := fun m hm => g.waits m (List.mem_cons_of_mem _ hm) }
    rw [same, used] at hi
    cases hi
  | some i =>
    obtain ⟨-, home, absent⟩ := g.waits l List.mem_cons_self i used
    exact g.rejoin once used (Event.forceLoop_rejoins (here.trans used) home absent)

theorem Gathered.forceLoops (g : Gathered s e.st p q ls) (once : ls.Nodup) :
    Gathered s (ls.foldl (Event.forceLoop p lost) e).st p q [] := by
  induction ls generalizing e with
  | nil => exact g
  | cons l ls ih =>
    obtain ⟨out, rest⟩ := List.nodup_cons.mp once
    exact ih (g.forceLoop out) rest

end Gather

end Sys2Proof.Machine
end

section
/-! SUPPORT. The CLOSE of the last OPEN position of a partition with auto night (R119); and O20. -/

namespace Sys2Proof.Machine

/-! ### The roster before the night -/

section LastClose

variable {s : State} {c : CellIx} {p : Pos} {q : Part}

/-- A loop's call is on no roster of the partition, and on no other loop. -/
theorem LastClose.loop_apart (f : LastClose s c p q) {l : LoopIx} {i : Slot} (here : (s.pos p).loops.get l = some i) :
    (s.call i).state ≠ .offered ∧ i ∉ (s.prt q).roster := by
  obtain ⟨state, -⟩ := f.loop l i here
  have unoffered : (s.call i).state ≠ .offered := by
    rcases state with state | state | state | state <;> rw [state] <;> exact nofun
  refine ⟨unoffered, fun member => ?_⟩
  obtain ⟨-, queued | offered⟩ := f.members i member
  · rw [queued] at state
    rcases state with state | state | state | state <;> cases state
  · exact unoffered offered

/-- Before its loops are emptied, the close has at most returned an OFFERED call to its roster. -/
theorem LastClose.gathered_of (f : LastClose s c p q) {v : State} (prt : ∀ q, v.prt q = s.prt q)
    (loops : (v.pos p).loops = (s.pos p).loops)
    (calls : ∀ j, v.call j = s.call j ∨
      (s.call j).state = .offered ∧ (v.call j).partition = (s.call j).partition) :
    Gathered s v p q (List.finRange 4) where
  once := by
    rw [prt]
    exact f.once
  home := fun i hi => by
    rw [prt] at hi
    obtain ⟨home, -⟩ := f.members i hi
    rcases calls i with same | ⟨-, same⟩
    · rw [same, home]
    · rw [same, home]
  est := fun some => by
    rw [prt]
    exact ⟨some, rfl⟩
  members := fun i hi => by
    rw [prt]
    exact hi
  emptied := fun l out => absurd (List.mem_finRange l) out
  loops := fun l _ => by rw [loops]
  waits := fun l _ i hi => by
    obtain ⟨unoffered, absent⟩ := f.loop_apart hi
    obtain ⟨-, -, loop, home⟩ := f.loop l i hi
    have same := (calls i).resolve_right fun offered => unoffered offered.1
    rw [same, prt]
    exact ⟨loop, home, absent⟩

theorem LastClose.gathered (f : LastClose s c p q) :
    Gathered s ((Event.taking s c).withdraw p).st p q (List.finRange 4) := by
  have sees := s.sees_taken (c := c)
  have start : (Event.taking s c).st = s.taken c := Event.taking_st ..
  rw [← start] at sees
  generalize Event.taking s c = e at sees
  cases offer : (s.pos p).offered with
  | none =>
    rw [Event.withdraw_none (by rw [sees.pos]; exact offer)]
    exact f.gathered_of sees.prt (by rw [sees.pos]) fun j => .inl (sees.call j)
  | some i =>
    obtain ⟨state, held⟩ := f.offer i offer
    have back : e.withdraw p = (e.updPos p fun q => { q with offered := none }).backToQueue i := by
      have unheld : ((e.updPos p fun q => { q with offered := none }).st.call i).expiryHeld = false := by
        show (e.st.call i).expiryHeld = false
        rw [sees.call]
        exact held
      unfold Event.withdraw
      rw [sees.pos, offer]
      dsimp only
      unfold Event.returnCall
      dsimp only
      rw [unheld, if_neg Bool.false_ne_true]
    obtain ⟨-, partition, others, prt, loops⟩ := Event.backToQueue_unoffered (e := e) (i := i) (p := p) (by
      rw [sees.call, state]
      exact nofun)
    rw [back]
    refine f.gathered_of (fun r => (prt r).trans (sees.prt r)) ((loops p).trans (by rw [sees.pos])) fun j => ?_
    obtain rfl | apart := eq_or_ne i j
    · exact .inr ⟨state, partition.trans (by rw [sees.call])⟩
    · exact .inl ((others j apart).trans (sees.call j))

/-! ### The night (R46, R119) -/

/-- What a close that sends partition `q` to NIGHT has made of its roster and of its position's calls. -/
structure Nightfall (s v : State) (p : Pos) (q : Part) : Prop where
  mode : (v.prt q).mode = .night
  roster : (v.prt q).roster = []
  est : (s.prt q).roster ≠ [] → (v.prt q).est = (s.prt q).est.stop
  away : ∀ i, i ∈ (s.prt q).roster ∨ (∃ l, (s.pos p).loops.get l = some i) → (v.call i).Away

theorem Gathered.goNight {s : State} {e : Event} {p : Pos} {q : Part} (g : Gathered s e.st p q []) :
    Nightfall s (e.goNight q).st p q := by
  have keeps : Keeps (e.updPrt q fun r => { r with mode := .night }).st (e.goNight q).st :=
    Event.foldl_keeps (fun _ _ k => Event.rerouteMember_keeps k) (.refl _)
  have dark : (e.updPrt q fun r => { r with mode := .night }).st.prt q = { e.st.prt q with mode := .night } :=
    State.prt_setPrt_self ..
  have calls : ∀ j, (e.updPrt q fun r => { r with mode := .night }).st.call j = e.st.call j := fun _ => rfl
  obtain ⟨roster, est, gone, others⟩ := Event.rerouteMembers_leave
    (e := e.updPrt q fun r => { r with mode := .night }) (q := q) (xs := (e.st.prt q).roster) (by rw [dark]) g.once g.home
  have whole : e.goNight q = (e.st.prt q).roster.foldl Event.rerouteMember (e.updPrt q fun r => { r with mode := .night }) :=
    rfl
  rw [← whole] at roster est gone others
  generalize e.goNight q = w at keeps roster est gone others
  generalize e.updPrt q _ = d at keeps dark calls est others
  refine ⟨?_, roster, fun some => ?_, fun i target => ?_⟩
  · have core := keeps.prt q
    simp only [Partition.core, Prod.mk.injEq] at core
    rw [core.1, dark]
  · obtain ⟨occupied, same⟩ := g.est some
    rw [est, if_neg occupied, dark, same]
  · have found : i ∈ (e.st.prt q).roster ∨ (e.st.call i).Away := by
      rcases target with member | ⟨l, here⟩
      · exact .inl (g.members i member)
      · exact g.emptied l (List.not_mem_nil) i here
    by_cases member : i ∈ (e.st.prt q).roster
    · exact gone i member
    · obtain ⟨x, hx⟩ := others i member
      rw [hx, calls]
      exact (found.resolve_left member).of_eq rfl

theorem LastClose.nightfall (f : LastClose s c p q) :
    Nightfall s ((Event.taking s c).closePosition p none).st p q := by
  have sees := s.sees_taken (c := c)
  have start : (Event.taking s c).st = s.taken c := Event.taking_st ..
  rw [← start] at sees
  have gathered := f.gathered.forceLoops (lost := none) (List.nodup_finRange 4)
  have auto := (Event.taking s c).signsOff_part p none q
  have day := (Event.taking s c).signsOff_mode p none q
  have panels := (Event.taking s c).signsOff_panel p none
  obtain ⟨ps, shape⟩ := (Event.taking s c).signsOff_shape p none
  rw [Event.closePosition_eq]
  generalize (Event.taking s c).st = u at sees auto day panels
  generalize ((Event.taking s c).cleared p none).closeRole p = b at auto day panels shape
  generalize List.foldl _ _ _ = g at gathered shape
  obtain ⟨here, -⟩ := panels p
  have shut : ∀ x, (!((b.st.pos x).partition == some q && (b.st.pos x).isOpen)) = true := fun x => by
    obtain ⟨partition, -, isOpen⟩ := panels x
    rw [partition, isOpen, sees.pos]
    split
    · simp
    · next apart =>
      by_cases member : (s.pos x).partition = some q
      · rw [f.last x (Ne.symm apart) member]
        simp
      · simp [member]
  have night : b.reportClosing (b.st.pos p).partition = b.goNight q := by
    rw [here, sees.pos, f.partition]
    refine if_pos ⟨?_, ?_, List.all_eq_true.mpr fun x _ => shut x⟩
    · rw [auto, sees.part]
      exact f.auto
    · rw [day, sees.prt]
      exact f.day
  rw [night]
  have same : Gathered s b.st p q [] := by
    rw [shape]
    exact { once := gathered.once, home := gathered.home, est := gathered.est, members := gathered.members,
            emptied := gathered.emptied, loops := nofun, waits := nofun }
  exact same.goNight

end LastClose

/-! ### The end of the event -/

/-- An event's end leaves the partition's roster empty, and its calls where they are or at their end. -/
theorem Nightfall.finish {s : State} {e : Event} {p : Pos} {q : Part} (n : Nightfall s e.st p q) :
    (e.finish.prt q).mode = .night ∧ (e.finish.prt q).roster = [] ∧
      ((s.prt q).roster ≠ [] → (e.finish.prt q).est.bare = (s.prt q).est.stop.bare) ∧
      ∀ i, i ∈ (s.prt q).roster ∨ (∃ l, (s.pos p).loops.get l = some i) → (e.finish.call i).Away := by
  have settled : Sheds (fun _ => True) (fun _ => False) e.st (e.settle 80).st :=
    (Sheds.refl _).settle (fun _ => trivial) 80
  have quiet : Quiet (e.settle 80).st e.finish :=
    Event.commit_quiet (Event.runPasses_quiet (Event.runArbiters_quiet (Event.testPositions_quiet (.refl _))))
  generalize (e.settle 80).st = v at settled quiet
  generalize e.finish = t at quiet
  have same : v.prt q = e.st.prt q := settled.prt q (by rw [n.roster]; exact nofun)
  have prt := quiet.prt q
  rw [same] at prt
  refine ⟨(congrArg Partition.mode prt).trans n.mode, (congrArg Partition.roster prt).trans n.roster, fun some => ?_,
    fun i target => ?_⟩
  · have est : (t.prt q).est.bare = (e.st.prt q).est.bare := (congrArg (fun r => r.est.bare) prt :)
    rw [est, n.est some]
  · have away := settled.away (n.away i target)
    have ended := quiet.call i (by
      rcases away.state with state | state | state | state | state <;> rw [state] <;> exact nofun)
    refine away.of_eq ?_
    rw [Prod.mk.injEq]
    exact ⟨(congrArg Call.state ended :), (congrArg Call.origin ended :)⟩

theorem Event.closePosition_identity (e : Event) (p : Pos) (lost : Option Circuit) (i : Slot) :
    ((e.closePosition p lost).st.call i).identity = (e.st.call i).identity := by
  have forced := (e.forced_keeps p lost).call i
  obtain ⟨ps, shape⟩ := e.signsOff_shape p lost
  rw [Event.closePosition_eq]
  generalize (e.cleared p lost).closeRole p = b at shape
  generalize List.foldl _ _ _ = g at forced shape
  have before : (b.st.call i).identity = (e.st.call i).identity := by
    rw [shape]
    exact forced
  unfold Event.reportClosing
  split
  · next q _ =>
    split
    · have rerouted : Keeps (b.updPrt q fun r => { r with mode := .night }).st (b.goNight q).st :=
        Event.foldl_keeps (fun _ _ k => Event.rerouteMember_keeps k) (.refl _)
      exact (rerouted.call i).trans before
    · exact before
  · exact before

theorem LastClose.fallsToNight {s : State} {c : CellIx} {p : Pos} {q : Part} (f : LastClose s c p q) :
    ∃ t, exec .closeOrder s = .next t ∧ t.finished c .ok 0 ∧ (t.prt q).mode = .night ∧ (t.prt q).roster = [] ∧
      ((s.prt q).roster ≠ [] → (t.prt q).est.bare =
        { (s.prt q).est with counter := 0, stall := false, clamped := false, period := none }) ∧
      ∀ i, i ∈ (s.prt q).roster ∨ (∃ l, (s.pos p).loops.get l = some i) →
        (t.call i).origin = none ∧ (t.call i).identity = (s.call i).identity ∧
        ((t.call i).state = .ringingOut ∨ (t.call i).state = .camped ∨ (t.call i).state = .announced ∨
          (t.call i).state = .closing ∨ (t.call i).state = .free) := by
  have awaits := f.toCloseReady.awaits
  have night := f.nightfall
  have identity := (Event.taking s c).closePosition_identity p none
  rw [← Event.taking_st] at awaits
  obtain ⟨run, finished⟩ := f.toCloseReady.replies f.toCloseReady.closes (awaits.closePosition p none)
  rw [Event.taking_st] at identity
  generalize (Event.taking s c).closePosition p none = g at night identity run finished
  obtain ⟨mode, roster, est, away⟩ := Nightfall.finish (e := g.replied c .ok)
    ⟨night.mode, night.roster, night.est, night.away⟩
  have kept : ∀ i, ((g.replied c .ok).finish.call i).identity = (g.st.call i).identity := fun i =>
    (Event.finish_keeps (e := g.replied c .ok) (.refl _)).call i
  generalize (g.replied c .ok).finish = t at run finished mode roster est away kept
  refine ⟨t, run, finished, mode, roster, fun some => (est some).trans rfl, fun i target => ?_⟩
  obtain ⟨origin, state⟩ := away i target
  refine ⟨origin, ?_, state⟩
  rw [kept, identity, State.call_taken]

/-- Settles O20. -/
theorem forcedCloseRecallsItsCall : Obligations.ForcedCloseRecallsItsCall := by
  refine ⟨fun s c p i l h k os f orders room reach => f.handsBack orders room reach,
    fun s a f more port p i l h k os orders r o legs room reach => r.handsBack o more orders legs room reach,
    fun s c p q f => f.fallsToNight⟩

end Sys2Proof.Machine
end
